-- ==== Sys2Proof/Word.lean ====
section
/-! DEFINITION. The word types of the SVX-4120 (R2, R97) and nothing that a later repair would have to mend. -/

namespace Sys2Proof

/-- A scalar register, a pointer, a 64-bit word of a structure in memory (R45, R97). -/
abbrev Word := BitVec 64

/-- One byte of memory (R2). -/
abbrev Byte := BitVec 8

/-- One 16-bit instruction word (R2, R87). -/
abbrev IWord := BitVec 16

/-- A vector register of 1,024 bits (R97). -/
abbrev VecReg := BitVec 1024

/-- A predicate register, one bit per byte lane (R97). -/
abbrev PredReg := BitVec 128

/-- A 32-byte view descriptor (R56, R97), word `k` in bits [64k+63:64k]. -/
abbrev ViewReg := BitVec 256

end Sys2Proof
end

