-- ==== Sys2Proof/Syntax.lean ====
section
/-! DEFINITION. The instructions of the opcode map (R103, R104) and the device steps of the table of operations and
events, one constructor a row, with the plain data that their operands are made of. -/

namespace Sys2Proof

/-- The element type TY of an OPX prefix (R95). -/
inductive Ty
  | dflt | i8 | u8 | i16 | u16 | i32 | u32 | i64 | dm8 | f16 | f32
deriving DecidableEq, Repr

/-- The scope SC of an OPX prefix on pages 4 and 6 (R95, R23). -/
inductive Scope
  | dflt | tile | clu | die | dev | dom
deriving DecidableEq, Repr

/-- The access paths of R342, with the codes of the record field PATH (R368). -/
inductive Path
  | c | x | e | k | host | evu | device
deriving DecidableEq, Repr

/-- The PM field of an OPX prefix: one flag per path (R95). -/
structure PathMask where
  c : Bool
  x : Bool
  e : Bool
  k : Bool
deriving DecidableEq, Repr

/-- What the PAGE prefix carries beside the page: the lookahead LA and the hint (R94). -/
structure Pfx where
  la : Nat
  hint : Nat
deriving DecidableEq, Repr

/-- A second source: a register, or the immediate of R108. -/
inductive Src
  | reg (n : Nat)
  | imm (v : Int)
deriving DecidableEq, Repr

/-- The relation of VCMP (R208). -/
inductive CmpRel
  | eq | ne | lt | le | un
deriving DecidableEq, Repr

/-- The operation of BANKOP (R183). -/
inductive BankFn
  | add | min | max | and | or | xor | set
deriving DecidableEq, Repr

/-- The operation of an atomic (R180). -/
inductive AtomFn
  | add | min | max | and | or | xor | swap | cas
deriving DecidableEq, Repr

/-- The function of TACT (R254). -/
inductive ActFn
  | relu | sigm | silu | tanh | gelu
deriving DecidableEq, Repr

/-- The mode of FENCE and FENCEX (R355). -/
inductive FenceMode
  | full | rel | acq
deriving DecidableEq, Repr

/-- What a trap or a fault record says (R366, R368); fields that do not apply are 0. -/
structure FaultInfo where
  cause : Nat
  sub : Nat := 0
  info : Nat := 0
  path : Path := .c
  late : Bool := false
  unk : Bool := false
  va : Word := 0
  gva : Word := 0
  exp : Byte := 0
  fnd : Byte := 0
  cpc : Option Word := none
  node : Option (Nat × Nat) := none
  tile : Word := 0
  done : BitVec 512 := 0
deriving DecidableEq, Repr

/-- A bead's slot: the unit that holds its rod (clusters 0-47, link cores 48-79), the rod and the slot (R128). -/
structure SlotId where
  unit : Nat
  rod : Nat
  slot : Nat
deriving DecidableEq, Repr

/-- One element of a load or store that has been translated: lane number, pointer, physical location, bytes. -/
structure Lane where
  lane : Nat
  va : Word
  loc : Nat
  n : Nat
deriving DecidableEq, Repr

/-- Where a load's data goes (R175, R202). -/
inductive LoadDst
  | scalar (d : Nat) (ty : Ty) (rm : Nat)
  | vector (d : Nat) (ty : Ty) (rm : Nat)
deriving DecidableEq, Repr

/-- A load that has left the core (R178): its instruction address, its lanes, its destination, and the address that a record
names for all its lanes, where it has one (R204). -/
structure LoadReq where
  core : Nat
  pc : Word
  lanes : List Lane
  dst : LoadDst
  at_ : Option Word := none
deriving DecidableEq, Repr

/-- One element of a committed store: its pointer, its location and its encoded bytes (R176). -/
structure StorePiece where
  va : Word
  loc : Nat
  bytes : List Byte
deriving DecidableEq, Repr

/-- A committed store on its way to memory (R176, R178). -/
structure StoreReq where
  core : Nat
  pieces : List StorePiece
deriving DecidableEq, Repr

/-- An atomic, AFADD or PUTS signal sent to its bank or hem (R179); `reply` is false for a PUTS signal. -/
structure AtomicReq where
  core : Nat
  pc : Word
  va : Word
  loc : Nat
  n : Nat
  fn : AtomFn
  signed : Bool
  b : Word
  expected : Word
  reply : Bool
  dst : Nat
deriving DecidableEq, Repr

/-- What comes back for an atomic (R181): the old value or a precise fault. -/
inductive Reply
  | value (v : Word)
  | fault (f : FaultInfo)
deriving DecidableEq, Repr

/-- The rest of a committed BANKOP (R183): issuing core, next line, lines left, element bytes, operation and operand. -/
structure BankLine where
  core : Nat
  loc : Nat
  left : Nat
  n : Nat
  fn : BankFn
  signed : Bool
  flt : Bool
  b : Word
deriving DecidableEq, Repr

/-- An STF or STF.E fill on its way to its cell (R186). -/
structure FillReq where
  loc : Nat
  v : Word
  full : Bool
deriving DecidableEq, Repr

/-- What a test of a future cell waits for (R185, R187). -/
inductive TestFor
  | ldf (d : Nat)
  | full
  | zero
deriving DecidableEq, Repr

/-- An LDF or PARK test on its way to its cell (R185). -/
structure TestReq where
  core : Nat
  pc : Word
  va : Word
  loc : Nat
  test : TestFor
deriving DecidableEq, Repr

/-- A join-word change on its way to its bank (R51): issuing core, its partition (none on a link core of no
partition), the world in which it was issued (R169), pointer, location, causing instruction, the BEAD that issued it and, for a
SPAWN, the child's slot (R138). -/
structure JoinReq where
  core : Nat
  part : Option Nat
  world : Bool
  va : Word
  loc : Nat
  cpc : Word
  bead : Word
  child : Option SlotId
deriving DecidableEq, Repr

/-- The context instructions as the EVU receives them (R287). -/
inductive EvuOp
  | edins | eddel | edchg | edmap | ctxdone | vldvAt | vldvCur | settle | reclaim | bind | unbind
deriving DecidableEq, Repr

/-- A request on its way to the owning EVU (R312): operands as read at issue. -/
structure EvuReq where
  op : EvuOp
  core : Nat
  pc : Word
  ctx : Word
  arg : Word
  wave : Word
  words : List Word
  dst : Nat
  pdst : Nat
  ty : Ty
  rm : Nat
deriving DecidableEq, Repr

/-- The key of a rectangle barrier (R319): absolute rectangle and row mask. -/
structure BarKey where
  x0 : Nat
  y0 : Nat
  w : Nat
  h : Nat
  rmask : BitVec 16
deriving DecidableEq, Repr

/-- Where an arrival reaches a router from (R322). -/
inductive BarFrom
  | own | east | south
deriving DecidableEq, Repr

/-- A barrier arrival or release at a tile's router (R322): `odd` is the phase parity. -/
structure BarMsg where
  tile : Nat
  b : Nat
  key : BarKey
  odd : Bool
  via : BarFrom
deriving DecidableEq, Repr

/-- One firmware image as the boot ROM reads it from flash (R399, R387). -/
structure BootImage where
  image : List Byte
  signature : List Byte
  key : List Byte
  load : Nat
  entry : Word
  data : Word
  formatOk : Bool
deriving DecidableEq, Repr

/-- What an access between devices asks for; `lineOut` and `lineIn` carry a 64-byte line of a unit that a home hem moves, with
the metadata of its two granules (R157). -/
inductive PeerOp
  | read
  | write (bytes : List Byte)
  | atomic (fn : AtomFn) (signed : Bool) (b expected : Word)
  | test (zero : Bool)
  | fill (v : Word) (full : Bool)
  | tagst (new : Byte) (zero : Bool)
  | tagld
  | lineOut
  | lineIn (bytes : List Byte) (metas : List (BitVec 12))
deriving DecidableEq, Repr

/-- An access that one device makes to another, through an import page or forwarded by a home hem (R156, R158). -/
structure PeerReq where
  dev : Nat
  ent : Nat
  key : Nat
  off : Nat
  n : Nat
  tag : Byte
  secure : Bool
  op : PeerOp
deriving DecidableEq, Repr

/-- The reply to such an access (R156, R159): its data (empty for a write), the tag found, an uncorrectable error, a world
fault of a secure range there (R169), a refusal, or none because a link is dead. -/
inductive PeerReply
  | data (bytes : List Byte)
  | tag (found : Byte)
  | bad
  | world
  | refused
  | dead
deriving DecidableEq, Repr

/-- The four requests of a PKL unit (R270). -/
inductive PklOp
  | sc | sel | gth | sct
deriving DecidableEq, Repr

/-- A request accepted by a PKL unit (R272): whose it is, with the heap window of its launch, the record's eight words as they
stood at the load, whether an earlier request of the bead has ended with an error (R274); `age` counts the turns that its core has
taken since it sent it (log 1). -/
structure PklReq where
  op : PklOp
  core : Nat
  bead : Option SlotId
  part : Option Nat
  world : Bool
  cpc : Word
  ld : Word
  words : List Word
  ty : Ty
  rm : Nat
  k2 : Bool
  skip : Bool := false
  uid : Nat := 0
  heap : Word × Word × Word := (0, 0, 0)
  age : Nat := 0
deriving DecidableEq, Repr

/-- The instructions, then the device steps of the table of operations and events; what a device step works on is the
message at hand in the state (Ev, log 2). -/
inductive Instr
  /-- ADD (R109). -/
  | add (d a b : Nat)
  /-- SUB (R109). -/
  | sub (d a b : Nat)
  /-- AND (R109). -/
  | and (d a : Nat) (src : Src)
  /-- OR (R109). -/
  | or (d a : Nat) (src : Src)
  /-- XOR (R109). -/
  | xor (d a : Nat) (src : Src)
  /-- ANDN (R109). -/
  | andn (d a b : Nat)
  /-- MOV (R112). -/
  | mov (d a : Nat)
  /-- MIN (R109). -/
  | min (d a b : Nat)
  /-- MAX (R109). -/
  | max (d a b : Nat)
  /-- MINU (R109). -/
  | minu (d a b : Nat)
  /-- MAXU (R109). -/
  | maxu (d a b : Nat)
  /-- SHL (R109). -/
  | shl (d a : Nat) (src : Src)
  /-- SHR (R109). -/
  | shr (d a : Nat) (src : Src)
  /-- SAR (R109). -/
  | sar (d a : Nat) (src : Src)
  /-- ROL (R109). -/
  | rol (d a : Nat) (src : Src)
  /-- MUL (R110). -/
  | mul (d a : Nat) (src : Src)
  /-- MULH (R110). -/
  | mulh (d a b : Nat)
  /-- MULHU (R110). -/
  | mulhu (d a b : Nat)
  /-- DIV (R110). -/
  | div (d a b : Nat)
  /-- DIVU (R110). -/
  | divu (d a b : Nat)
  /-- REM (R110). -/
  | rem (d a b : Nat)
  /-- REMU (R110). -/
  | remu (d a b : Nat)
  /-- SEL (R114). -/
  | sel (d a b : Nat)
  /-- SEQ (R111). -/
  | seq (d a : Nat) (src : Src)
  /-- SNE (R111). -/
  | sne (d a : Nat) (src : Src)
  /-- SLT (R111). -/
  | slt (d a : Nat) (src : Src)
  /-- SLTU (R111). -/
  | sltu (d a : Nat) (src : Src)
  /-- SLE (R111). -/
  | sle (d a : Nat) (src : Src)
  /-- SLEU (R111). -/
  | sleu (d a : Nat) (src : Src)
  /-- CLZ (R112). -/
  | clz (d a : Nat)
  /-- CTZ (R112). -/
  | ctz (d a : Nat)
  /-- POPC (R112). -/
  | popc (d a : Nat)
  /-- PGTAG (R118). -/
  | pgtag (d a : Nat)
  /-- SEXT_B (R112). -/
  | sextB (d a : Nat)
  /-- SEXT_H (R112). -/
  | sextH (d a : Nat)
  /-- SEXT_W (R112). -/
  | sextW (d a : Nat)
  /-- ZEXT_B (R112). -/
  | zextB (d a : Nat)
  /-- ZEXT_H (R112). -/
  | zextH (d a : Nat)
  /-- ZEXT_W (R112). -/
  | zextW (d a : Nat)
  /-- PADD (R117). -/
  | padd (d a : Nat) (src : Src)
  /-- PTAG (R118). -/
  | ptag (d a : Nat) (src : Src)
  /-- SHADD (R116). -/
  | shadd (k d a b : Nat)
  /-- BEXT (R113). -/
  | bext (d a pos len : Nat)
  /-- BINS (R113). -/
  | bins (d a pos len : Nat)
  /-- JR (R122). -/
  | jr (a : Nat)
  /-- JTAB (R123). -/
  | jtab (a b : Nat)
  /-- ADDI (R115). -/
  | addi (d : Nat) (imm : Int)
  /-- LI (R115). -/
  | li (d : Nat) (imm : Int)
  /-- CSRR (R125). -/
  | csrr (d immn : Nat)
  /-- CSRW (R125). -/
  | csrw (d immn : Nat)
  /-- B (R120). -/
  | b (imm : Int)
  /-- BPR (R120). -/
  | bpr (imm : Int)
  /-- BEQZ (R121). -/
  | beqz (a : Nat) (imm : Int)
  /-- BNEZ (R121). -/
  | bnez (a : Nat) (imm : Int)
  /-- BLTZ (R121). -/
  | bltz (a : Nat) (imm : Int)
  /-- BGEZ (R121). -/
  | bgez (a : Nat) (imm : Int)
  /-- BEQ (R121). -/
  | beq (a b : Nat) (imm : Int)
  /-- BNE (R121). -/
  | bne (a b : Nat) (imm : Int)
  /-- BLT (R121). -/
  | blt (a b : Nat) (imm : Int)
  /-- BLTU (R121). -/
  | bltu (a b : Nat) (imm : Int)
  /-- LD (R175). -/
  | ld (pfx : Pfx) (ty : Ty) (rm d a : Nat) (off : Int)
  /-- ST (R176). -/
  | st (pfx : Pfx) (ty : Ty) (rm d a : Nat) (off : Int)
  /-- LDX (R175). -/
  | ldx (pfx : Pfx) (ty : Ty) (rm d a b : Nat)
  /-- STX (R176). -/
  | stx (pfx : Pfx) (ty : Ty) (rm d a b : Nat)
  /-- LDF (R185). -/
  | ldf (pfx : Pfx) (d a : Nat) (off : Int)
  /-- STF (R186). -/
  | stf (pfx : Pfx) (d a : Nat) (off : Int)
  /-- STF_E (R186). -/
  | stfE (pfx : Pfx) (d a : Nat) (off : Int)
  /-- PARK (R187). -/
  | park (pfx : Pfx) (a : Nat) (off : Int)
  /-- PARK_Z (R187). -/
  | parkZ (pfx : Pfx) (a : Nat) (off : Int)
  /-- AADD (R180). -/
  | aadd (pfx : Pfx) (ty : Ty) (d a b : Nat)
  /-- AMIN (R180). -/
  | amin (pfx : Pfx) (ty : Ty) (d a b : Nat)
  /-- AMAX (R180). -/
  | amax (pfx : Pfx) (ty : Ty) (d a b : Nat)
  /-- AAND (R180). -/
  | aand (pfx : Pfx) (ty : Ty) (d a b : Nat)
  /-- AOR (R180). -/
  | aor (pfx : Pfx) (ty : Ty) (d a b : Nat)
  /-- AXOR (R180). -/
  | axor (pfx : Pfx) (ty : Ty) (d a b : Nat)
  /-- ASWAP (R180). -/
  | aswap (pfx : Pfx) (ty : Ty) (d a b : Nat)
  /-- ACAS (R180). -/
  | acas (pfx : Pfx) (ty : Ty) (d a b : Nat)
  /-- AFADD (R182). -/
  | afadd (pfx : Pfx) (ty : Ty) (rm d a b : Nat) (off : Int)
  /-- BANKOP (R183). -/
  | bankop (pfx : Pfx) (ty : Ty) (fn : BankFn) (d a b : Nat)
  /-- TAGST (R191). -/
  | tagst (pfx : Pfx) (d a b : Nat)
  /-- TAGST_Z (R191). -/
  | tagstZ (pfx : Pfx) (d a b : Nat)
  /-- TAGLD (R192). -/
  | tagld (pfx : Pfx) (d a : Nat)
  /-- DCWB (R194). -/
  | dcwb (pfx : Pfx) (d a : Nat)
  /-- DCINV (R194). -/
  | dcinv (pfx : Pfx) (d a : Nat)
  /-- PREF (R195). -/
  | pref (pfx : Pfx) (a : Nat) (off : Int)
  /-- VLD (R202). -/
  | vld (pfx : Pfx) (ty : Ty) (rm : Nat) (gov : Option Nat) (d a : Nat) (off : Int)
  /-- VST (R202). -/
  | vst (pfx : Pfx) (ty : Ty) (rm : Nat) (gov : Option Nat) (d a : Nat) (off : Int)
  /-- VLDX (R203). -/
  | vldx (pfx : Pfx) (ty : Ty) (rm : Nat) (gov : Option Nat) (d a b : Nat)
  /-- VSTX (R203). -/
  | vstx (pfx : Pfx) (ty : Ty) (rm : Nat) (gov : Option Nat) (d a b : Nat)
  /-- VBC (R205). -/
  | vbc (pfx : Pfx) (ty : Ty) (gov : Option Nat) (d a : Nat)
  /-- VMOVS (R205). -/
  | vmovs (pfx : Pfx) (ty : Ty) (d a : Nat) (off : Int)
  /-- VADD (R206). -/
  | vadd (pfx : Pfx) (ty : Ty) (rm : Nat) (gov : Option Nat) (d a b : Nat)
  /-- VSUB (R206). -/
  | vsub (pfx : Pfx) (ty : Ty) (rm : Nat) (gov : Option Nat) (d a b : Nat)
  /-- VMUL (R206). -/
  | vmul (pfx : Pfx) (ty : Ty) (rm : Nat) (gov : Option Nat) (d a b : Nat)
  /-- VFMA (R206). -/
  | vfma (pfx : Pfx) (ty : Ty) (rm : Nat) (gov : Option Nat) (d a b : Nat)
  /-- VMIN (R206). -/
  | vmin (pfx : Pfx) (ty : Ty) (gov : Option Nat) (d a b : Nat)
  /-- VMAX (R206). -/
  | vmax (pfx : Pfx) (ty : Ty) (gov : Option Nat) (d a b : Nat)
  /-- VABS (R206). -/
  | vabs (pfx : Pfx) (ty : Ty) (gov : Option Nat) (d a : Nat)
  /-- VNEG (R206). -/
  | vneg (pfx : Pfx) (ty : Ty) (gov : Option Nat) (d a : Nat)
  /-- VAND (R207). -/
  | vand (pfx : Pfx) (ty : Ty) (gov : Option Nat) (d a b : Nat)
  /-- VOR (R207). -/
  | vor (pfx : Pfx) (ty : Ty) (gov : Option Nat) (d a b : Nat)
  /-- VXOR (R207). -/
  | vxor (pfx : Pfx) (ty : Ty) (gov : Option Nat) (d a b : Nat)
  /-- VSHL (R207). -/
  | vshl (pfx : Pfx) (ty : Ty) (gov : Option Nat) (d a : Nat) (src : Src)
  /-- VSHR (R207). -/
  | vshr (pfx : Pfx) (ty : Ty) (gov : Option Nat) (d a : Nat) (src : Src)
  /-- VSAR (R207). -/
  | vsar (pfx : Pfx) (ty : Ty) (gov : Option Nat) (d a : Nat) (src : Src)
  /-- VCMP (R208). -/
  | vcmp (pfx : Pfx) (ty : Ty) (rel : CmpRel) (d a b : Nat)
  /-- VSEL (R209). -/
  | vsel (pfx : Pfx) (ty : Ty) (gov : Option Nat) (d a b : Nat)
  /-- VCVT (R211). -/
  | vcvt (pfx : Pfx) (ty sty : Ty) (rm d a : Nat)
  /-- VQNT (R212). -/
  | vqnt (pfx : Pfx) (ty : Ty) (fix : Bool) (d a b : Nat)
  /-- VDQ (R213). -/
  | vdq (pfx : Pfx) (ty : Ty) (rm sel d a b : Nat)
  /-- VRSUM (R214). -/
  | vrsum (pfx : Pfx) (ty : Ty) (rm : Nat) (gov : Option Nat) (d a : Nat)
  /-- VRMAX (R214). -/
  | vrmax (pfx : Pfx) (ty : Ty) (gov : Option Nat) (d a : Nat)
  /-- VRMIN (R214). -/
  | vrmin (pfx : Pfx) (ty : Ty) (gov : Option Nat) (d a : Nat)
  /-- VSCAN (R215). -/
  | vscan (pfx : Pfx) (ty : Ty) (rm : Nat) (gov : Option Nat) (d a : Nat)
  /-- VTOPK (R216). -/
  | vtopk (pfx : Pfx) (ty : Ty) (gov : Option Nat) (d a : Nat) (off : Int)
  /-- VEXP2 (R217). -/
  | vexp2 (pfx : Pfx) (ty : Ty) (rm : Nat) (gov : Option Nat) (d a : Nat)
  /-- VLOG2 (R217). -/
  | vlog2 (pfx : Pfx) (ty : Ty) (rm : Nat) (gov : Option Nat) (d a : Nat)
  /-- VRCP (R217). -/
  | vrcp (pfx : Pfx) (ty : Ty) (rm : Nat) (gov : Option Nat) (d a : Nat)
  /-- VRSQ (R217). -/
  | vrsq (pfx : Pfx) (ty : Ty) (rm : Nat) (gov : Option Nat) (d a : Nat)
  /-- VPERM (R210). -/
  | vperm (pfx : Pfx) (ty : Ty) (gov : Option Nat) (d a b : Nat)
  /-- BADDQ (R218). -/
  | baddq (pfx : Pfx) (ty : Ty) (d a b : Nat)
  /-- PAND (R219). -/
  | pand (pfx : Pfx) (d a b : Nat)
  /-- POR (R219). -/
  | por (pfx : Pfx) (d a b : Nat)
  /-- PNOT (R219). -/
  | pnot (pfx : Pfx) (d a : Nat)
  /-- PSET (R219). -/
  | pset (pfx : Pfx) (ty : Ty) (d : Nat) (srcA : Src)
  /-- TVIEW (R243). -/
  | tview (pfx : Pfx) (d a : Nat) (off : Int)
  /-- TVSET (R245). -/
  | tvset (pfx : Pfx) (word d a : Nat)
  /-- TFORCE (R260). -/
  | tforce (pfx : Pfx) (a : Nat)
  /-- TFORCE_ALL (R260). -/
  | tforceAll (pfx : Pfx)
  /-- TSTORE (R261). -/
  | tstore (pfx : Pfx) (rm d a : Nat)
  /-- TDROP (R262). -/
  | tdrop (pfx : Pfx) (a : Nat)
  /-- TDROP_ALL (R262). -/
  | tdropAll (pfx : Pfx)
  /-- TSTAT (R263). -/
  | tstat (pfx : Pfx) (d : Nat)
  /-- ACQ (R264). -/
  | acq (pfx : Pfx) (d : Nat) (srcA : Src)
  /-- AREL (R265). -/
  | arel (pfx : Pfx) (a : Nat)
  /-- TMUL (R249). -/
  | tmul (pfx : Pfx) (rm : Nat) (relu : Bool) (d a b : Nat)
  /-- TMULG (R249). -/
  | tmulg (pfx : Pfx) (rm : Nat) (relu : Bool) (d a b : Nat)
  /-- TMULA (R249). -/
  | tmula (pfx : Pfx) (d a b : Nat)
  /-- TADD (R252). -/
  | tadd (pfx : Pfx) (rm : Nat) (relu : Bool) (d a b : Nat) (off : Int)
  /-- TSUB (R252). -/
  | tsub (pfx : Pfx) (rm : Nat) (relu : Bool) (d a b : Nat) (off : Int)
  /-- TMULE (R252). -/
  | tmule (pfx : Pfx) (rm : Nat) (relu : Bool) (d a b : Nat) (off : Int)
  /-- TSCL (R252). -/
  | tscl (pfx : Pfx) (rm : Nat) (relu : Bool) (d a b : Nat)
  /-- TBIAS (R252). -/
  | tbias (pfx : Pfx) (rm : Nat) (relu : Bool) (d a b : Nat)
  /-- TACT (R254). -/
  | tact (pfx : Pfx) (rm : Nat) (fn : ActFn) (d a : Nat)
  /-- TEXP (R255). -/
  | texp (pfx : Pfx) (rm : Nat) (e : Bool) (d a : Nat) (sub : Option Nat)
  /-- TRMAX (R256). -/
  | trmax (pfx : Pfx) (rm d a : Nat)
  /-- TRSUM (R256). -/
  | trsum (pfx : Pfx) (rm d a : Nat)
  /-- TDIVR (R252). -/
  | tdivr (pfx : Pfx) (rm d a b : Nat)
  /-- TMASK (R257). -/
  | tmask (pfx : Pfx) (rm : Nat) (zero : Bool) (d a : Nat) (off : Int)
  /-- TROT (R258). -/
  | trot (pfx : Pfx) (rm : Nat) (inv : Bool) (d a b : Nat) (theta : Option Int)
  /-- TQNT (R259). -/
  | tqnt (pfx : Pfx) (d a : Nat)
  /-- TCOPY (R259). -/
  | tcopy (pfx : Pfx) (rm d a : Nat) (off : Int)
  /-- TTRN (R259). -/
  | ttrn (pfx : Pfx) (rm d a : Nat)
  /-- TSCAN (R256). -/
  | tscan (pfx : Pfx) (rm d a : Nat)
  /-- SPAWN (R138). -/
  | spawn (pfx : Pfx) (a : Nat) (src : Src)
  /-- END (R139). -/
  | endBead (pfx : Pfx) (a : Nat)
  /-- YIELD (R140). -/
  | yield (pfx : Pfx)
  /-- LAUNCH (R141). -/
  | launch (pfx : Pfx) (a b : Nat)
  /-- BARCFG (R320). -/
  | barcfg (pfx : Pfx) (d a : Nat)
  /-- ARRIVE (R321). -/
  | arrive (pfx : Pfx) (sc : Scope) (pm : PathMask) (d : Nat)
  /-- BWAIT (R321). -/
  | bwait (pfx : Pfx) (sc : Scope) (d : Nat)
  /-- BTRY (R321). -/
  | btry (pfx : Pfx) (sc : Scope) (d a : Nat)
  /-- PUT (R324). -/
  | put (pfx : Pfx) (d a b : Nat) (dx dy : Int)
  /-- PUTS (R326). -/
  | puts (pfx : Pfx) (d a b : Nat) (dx dy : Int)
  /-- GET (R325). -/
  | get (pfx : Pfx) (d a b : Nat) (dx dy : Int)
  /-- RPUT (R328). -/
  | rput (pfx : Pfx) (d a b : Nat) (dx dy : Int)
  /-- STRM (R334). -/
  | strm (pfx : Pfx) (a : Nat)
  /-- STRMW (R334). -/
  | strmw (pfx : Pfx) (a : Nat)
  /-- SLOT (R336). -/
  | slot (pfx : Pfx) (d immn : Nat)
  /-- SLOT_ACK (R336). -/
  | slotAck (pfx : Pfx) (immn : Nat)
  /-- SLOT_END (R336). -/
  | slotEnd (pfx : Pfx) (d immn : Nat)
  /-- CPWAIT (R331). -/
  | cpwait (pfx : Pfx) (d : Nat)
  /-- LKPOP (R339). -/
  | lkpop (pfx : Pfx) (d a : Nat)
  /-- LKPOP_SET (R339). -/
  | lkpopSet (pfx : Pfx) (d a b : Nat)
  /-- FENCE (R356). -/
  | fence (pfx : Pfx) (sc : Scope) (pm : PathMask) (fm : FenceMode) (d : Nat)
  /-- FENCEX (R356). -/
  | fencex (pfx : Pfx) (sc : Scope) (pm : PathMask) (fm : FenceMode) (d : Nat)
  /-- PKSC (R272). -/
  | pksc (pfx : Pfx) (ty : Ty) (rm : Nat) (k2 : Bool) (a b : Nat)
  /-- PKSEL (R272). -/
  | pksel (pfx : Pfx) (a b : Nat)
  /-- PKGTH (R272). -/
  | pkgth (pfx : Pfx) (rm a b : Nat)
  /-- PKSCT (R272). -/
  | pksct (pfx : Pfx) (ty : Ty) (rm a b : Nat)
  /-- EDINS (R296). -/
  | edins (pfx : Pfx) (d a b : Nat)
  /-- EDDEL (R297). -/
  | eddel (pfx : Pfx) (d a b : Nat)
  /-- EDCHG (R297). -/
  | edchg (pfx : Pfx) (d a b : Nat)
  /-- EDMAP (R300). -/
  | edmap (pfx : Pfx) (d a b : Nat)
  /-- CTXDONE (R304). -/
  | ctxdone (pfx : Pfx) (d a b : Nat)
  /-- VLDV_AT (R307). -/
  | vldvAt (pfx : Pfx) (ty : Ty) (rm d a b : Nat)
  /-- VLDV_CUR (R308). -/
  | vldvCur (pfx : Pfx) (ty : Ty) (rm d a b : Nat)
  /-- SETTLE (R309). -/
  | settle (pfx : Pfx) (d a b : Nat)
  /-- RECLAIM (R310). -/
  | reclaim (pfx : Pfx) (d a b : Nat)
  /-- RECLAIM_BIND (R290). -/
  | reclaimBind (pfx : Pfx) (d a : Nat)
  /-- RECLAIM_UNBIND (R291). -/
  | reclaimUnbind (pfx : Pfx) (d a : Nat)
  /-- TRAP (R370). -/
  | trap (pfx : Pfx) (immn : Nat)
  /-- ERET (R371). -/
  | eret (pfx : Pfx)
  /-- TLBI (R384). -/
  | tlbi (pfx : Pfx) (sc : Scope)
  /-- TLBI_VA (R384). -/
  | tlbiVa (pfx : Pfx) (sc : Scope) (a : Nat)
  /-- IDLE (R373). -/
  | idle (pfx : Pfx) (d : Nat)
  /-- WSW (R370). -/
  | wsw (pfx : Pfx) (immn : Nat)
  /-- MCACK (R376). -/
  | mcack (pfx : Pfx) (a : Nat)
  /-- PDRN_SAVE (R377). -/
  | pdrnSave (pfx : Pfx) (d a b : Nat)
  /-- PDRN_KILL (R377). -/
  | pdrnKill (pfx : Pfx) (d a : Nat)
  /-- PDRN_RUN (R377). -/
  | pdrnRun (pfx : Pfx) (d a : Nat)
  /-- PRST (R382). -/
  | prst (pfx : Pfx) (a : Nat)
  /-- CTXSV (R379). -/
  | ctxsv (pfx : Pfx) (d a b : Nat) (mem : Bool)
  /-- CTXRS (R381). -/
  | ctxrs (pfx : Pfx) (d a : Nat)
  /-- The step DEVICE_RESET (R399). -/
  | deviceReset
  /-- The step ATTESTATION_REQUEST (R400). -/
  | attestationRequest
  /-- The step HOST_QUEUE_REGISTER_WRITE (R67). -/
  | hostQueueRegisterWrite
  /-- The step HCQT_DOORBELL (R67). -/
  | hcqtDoorbell
  /-- The step HOST_NOP_COMMAND (R68). -/
  | hostNopCommand
  /-- The step HOST_LAUNCH_COMMAND (R72). -/
  | hostLaunchCommand
  /-- The step HOST_UNKNOWN_COMMAND (R69). -/
  | hostUnknownCommand
  /-- The step HCPH_WRITE (R69). -/
  | hcphWrite
  /-- The step COMPLETION_WRITE (R69). -/
  | completionWrite
  /-- The step HOST_MEM_ACCESS (R168). -/
  | hostMemAccess
  /-- The step INDIRECT_RECORD_READ (R75). -/
  | indirectRecordRead
  /-- The step LAUNCH_RETRY (R76). -/
  | launchRetry
  /-- The step KERNEL_PLACEMENT (R77). -/
  | kernelPlacement
  /-- The step INITIAL_BEAD_ENQUEUE (R79). -/
  | initialBeadEnqueue
  /-- The step RAMP_UP_STEP (R85). -/
  | rampUpStep
  /-- The step PICKUP_GRANT (R131). -/
  | pickupGrant
  /-- The step HEAD_BUFFER_REFILL (R133). -/
  | headBufferRefill
  /-- The step BANK_JOIN_INCREMENT (R51). -/
  | bankJoinIncrement
  /-- The step BANK_JOIN_DECREMENT (R51). -/
  | bankJoinDecrement
  /-- The step CONTINUATION_ENQUEUE (R52). -/
  | continuationEnqueue
  /-- The step OVERFLOW_LIST_DRAIN (R129). -/
  | overflowListDrain
  /-- The step RETIREMENT_QUIESCE_COMPLETE (R392). -/
  | retirementQuiesceComplete
  /-- The step RAMP_DOWN_STEP (R398). -/
  | rampDownStep
  /-- The step BANK_ATOMIC_APPLY (R179). -/
  | bankAtomicApply
  /-- The step ATOMIC_REPLY (R181). -/
  | atomicReply
  /-- The step BANKOP_LINE_APPLY (R183). -/
  | bankopLineApply
  /-- The step FUTURE_FILL_APPLY (R186). -/
  | futureFillApply
  /-- The step TEST_AND_REGISTER_REPLY (R185). -/
  | testAndRegisterReply
  /-- The step PARK_TABLE_WAKE (R189). -/
  | parkTableWake
  /-- The step LOAD_DATA_RETURN (R178). -/
  | loadDataReturn
  /-- The step STORE_COMPLETION (R176). -/
  | storeCompletion
  /-- The step ROD_WATCHDOG_EXPIRY (R374). -/
  | rodWatchdogExpiry
  /-- The step MACHINE_CHECK (R375). -/
  | machineCheck
  /-- The step ROW_SHIFT_REPAIR (R27). -/
  | rowShiftRepair
  /-- The step PDRN_DEADLINE_EXPIRY (R377). -/
  | pdrnDeadlineExpiry
  /-- The step DRAIN_COMPLETE (R377). -/
  | drainComplete
  /-- The step BARRIER_ARRIVAL_MESSAGE (R322). -/
  | barrierArrivalMessage
  /-- The step BARRIER_RELEASE_MESSAGE (R322). -/
  | barrierReleaseMessage
  /-- The step COPY_LINE_LAND (R325). -/
  | copyLineLand
  /-- The step COPY_LINE_ACK (R325). -/
  | copyLineAck
  /-- The step PUTS_SIGNAL_APPLY (R326). -/
  | putsSignalApply
  /-- The step RPUT_MESSAGE_APPLY (R328). -/
  | rputMessageApply
  /-- The step STREAM_SLOT_WRITE (R335). -/
  | streamSlotWrite
  /-- The step STRMW_SLOT_WRITEBACK (R335). -/
  | strmwSlotWriteback
  /-- The step PKSC_EXECUTE (R276). -/
  | pkscExecute
  /-- The step PKSEL_EXECUTE (R277). -/
  | pkselExecute
  /-- The step PKGTH_EXECUTE (R278). -/
  | pkgthExecute
  /-- The step PKSCT_EXECUTE (R279). -/
  | pksctExecute
  /-- The step DEMAND_SERVE (R226). -/
  | demandServe
  /-- The step OUTPUT_TILE_EVALUATE (R230). -/
  | outputTileEvaluate
  /-- The step OUTPUT_TILE_RELEASE (R233). -/
  | outputTileRelease
  /-- The step DEMAND_COMPLETE (R227). -/
  | demandComplete
  /-- The step TDROP_SERVICE (R262). -/
  | tdropService
  /-- The step EVU_CONTEXT_REQUEST (R312). -/
  | evuContextRequest
  /-- The step EVU_RECOMPUTE_SPAWN (R301). -/
  | evuRecomputeSpawn
  /-- The step INGRESS_IMPORT_ACCESS (R159). -/
  | ingressImportAccess
  /-- The step LINK_DEAD_DECLARATION (R385). -/
  | linkDeadDeclaration
  /-- The step DRAIN_ROUND_EXPIRY (R385). -/
  | drainRoundExpiry
  /-- The step INDIRECTION_ENTRY_WRITE (R157). -/
  | indirectionEntryWrite
  /-- The step PAGE_MOVE_COMPLETE (R157). -/
  | pageMoveComplete
  /-- The step LINK_CORE_BIND (R338). -/
  | linkCoreBind
  /-- The step LINK_CORE_UNBIND (R383). -/
  | linkCoreUnbind
  /-- The step CHECKPOINT_GO (R386). -/
  | checkpointGo
  /-- The step CHECKPOINT_COMPLETE (R386). -/
  | checkpointComplete
  /-- The step SYSTEM_REGISTER_WRITE (R170). -/
  | systemRegisterWrite
  /-- The step ENERGY_UPDATE (R394). -/
  | energyUpdate
  /-- The step THROTTLE_STEP_DECAY (R395). -/
  | throttleStepDecay
  /-- The step THROTTLE_CAUSE_DEMAND (R395). -/
  | throttleCauseDemand
  /-- The step FORWARDED_ACCESS (R156). -/
  | forwardedAccess
deriving DecidableEq, Repr

/-- A device step with what it works on: the message, request or unit (log 2). -/
inductive Ev
  /-- DEVICE_RESET. -/
  | deviceReset (flashOk : Bool) (images : List BootImage)
  /-- ATTESTATION_REQUEST. -/
  | attestationRequest (nonce : BitVec 256)
  /-- HOST_QUEUE_REGISTER_WRITE. -/
  | hostQueueRegisterWrite (off : Nat) (v : Word)
  /-- HCQT_DOORBELL. -/
  | hcqtDoorbell (v : BitVec 32)
  /-- HOST_NOP_COMMAND. -/
  | hostNopCommand (ctag : BitVec 32)
  /-- HOST_LAUNCH_COMMAND. -/
  | hostLaunchCommand (ctag : BitVec 32) (kd : Word)
  /-- HOST_UNKNOWN_COMMAND. -/
  | hostUnknownCommand (ctag : BitVec 32)
  /-- HCPH_WRITE. -/
  | hcphWrite (v : BitVec 32)
  /-- COMPLETION_WRITE. -/
  | completionWrite
  /-- HOST_MEM_ACCESS. -/
  | hostMemAccess (off : Nat) (n : Nat) (write : Option (List Byte))
  /-- INDIRECT_RECORD_READ. -/
  | indirectRecordRead (launch : Nat)
  /-- LAUNCH_RETRY. -/
  | launchRetry
  /-- KERNEL_PLACEMENT. -/
  | kernelPlacement (launch : Nat)
  /-- INITIAL_BEAD_ENQUEUE. -/
  | initialBeadEnqueue (part : Nat)
  /-- RAMP_UP_STEP. -/
  | rampUpStep (part : Nat)
  /-- PICKUP_GRANT. -/
  | pickupGrant (unit : Nat)
  /-- HEAD_BUFFER_REFILL. -/
  | headBufferRefill (unit rod : Nat)
  /-- BANK_JOIN_INCREMENT. -/
  | bankJoinIncrement (j : JoinReq)
  /-- BANK_JOIN_DECREMENT. -/
  | bankJoinDecrement (j : JoinReq)
  /-- CONTINUATION_ENQUEUE. -/
  | continuationEnqueue (core : Nat) (part : Option Nat) (cont : Word)
  /-- OVERFLOW_LIST_DRAIN. -/
  | overflowListDrain (unit : Nat)
  /-- RETIREMENT_QUIESCE_COMPLETE. -/
  | retirementQuiesceComplete (part : Nat)
  /-- RAMP_DOWN_STEP. -/
  | rampDownStep (part : Nat)
  /-- BANK_ATOMIC_APPLY. -/
  | bankAtomicApply (q : AtomicReq)
  /-- ATOMIC_REPLY. -/
  | atomicReply (core : Nat) (pc : Word) (dst : Nat) (r : Reply)
  /-- BANKOP_LINE_APPLY. -/
  | bankopLineApply (q : BankLine)
  /-- FUTURE_FILL_APPLY. -/
  | futureFillApply (q : FillReq)
  /-- TEST_AND_REGISTER_REPLY. -/
  | testAndRegisterReply (q : TestReq)
  /-- PARK_TABLE_WAKE. -/
  | parkTableWake (granule : Nat)
  /-- LOAD_DATA_RETURN. -/
  | loadDataReturn (q : LoadReq)
  /-- STORE_COMPLETION. -/
  | storeCompletion (q : StoreReq)
  /-- ROD_WATCHDOG_EXPIRY. -/
  | rodWatchdogExpiry (core : Nat)
  /-- MACHINE_CHECK. -/
  | machineCheck (core : Nat)
  /-- ROW_SHIFT_REPAIR. -/
  | rowShiftRepair (x y : Nat)
  /-- PDRN_DEADLINE_EXPIRY. -/
  | pdrnDeadlineExpiry (part : Nat)
  /-- DRAIN_COMPLETE. -/
  | drainComplete (part : Nat)
  /-- BARRIER_ARRIVAL_MESSAGE. -/
  | barrierArrivalMessage (q : BarMsg)
  /-- BARRIER_RELEASE_MESSAGE. -/
  | barrierReleaseMessage (q : BarMsg)
  /-- COPY_LINE_LAND. -/
  | copyLineLand (copy : Nat)
  /-- COPY_LINE_ACK. -/
  | copyLineAck (copy : Nat)
  /-- PUTS_SIGNAL_APPLY. -/
  | putsSignalApply (copy : Nat)
  /-- RPUT_MESSAGE_APPLY. -/
  | rputMessageApply (copy : Nat)
  /-- STREAM_SLOT_WRITE. -/
  | streamSlotWrite (clu sid : Nat)
  /-- STRMW_SLOT_WRITEBACK. -/
  | strmwSlotWriteback (clu sid : Nat)
  /-- PKSC_EXECUTE. -/
  | pkscExecute (q : PklReq)
  /-- PKSEL_EXECUTE. -/
  | pkselExecute (q : PklReq)
  /-- PKGTH_EXECUTE. -/
  | pkgthExecute (q : PklReq)
  /-- PKSCT_EXECUTE. -/
  | pksctExecute (q : PklReq)
  /-- DEMAND_SERVE. -/
  | demandServe (tile : Nat)
  /-- OUTPUT_TILE_EVALUATE. -/
  | outputTileEvaluate (tile node out : Nat)
  /-- OUTPUT_TILE_RELEASE. -/
  | outputTileRelease (tile node out : Nat)
  /-- DEMAND_COMPLETE. -/
  | demandComplete (tile : Nat)
  /-- TDROP_SERVICE. -/
  | tdropService (tile : Nat) (nodes : List Nat)
  /-- EVU_CONTEXT_REQUEST. -/
  | evuContextRequest (q : EvuReq)
  /-- EVU_RECOMPUTE_SPAWN. -/
  | evuRecomputeSpawn (slot : Nat)
  /-- INGRESS_IMPORT_ACCESS. -/
  | ingressImportAccess (q : PeerReq)
  /-- LINK_DEAD_DECLARATION. -/
  | linkDeadDeclaration (die port : Nat)
  /-- DRAIN_ROUND_EXPIRY. -/
  | drainRoundExpiry (die port round : Nat)
  /-- INDIRECTION_ENTRY_WRITE. -/
  | indirectionEntryWrite (unit : Nat) (word : Nat) (v : Word)
  /-- PAGE_MOVE_COMPLETE. -/
  | pageMoveComplete (unit : Nat)
  /-- LINK_CORE_BIND. -/
  | linkCoreBind (link : Nat)
  /-- LINK_CORE_UNBIND. -/
  | linkCoreUnbind (link : Nat)
  /-- CHECKPOINT_GO. -/
  | checkpointGo
  /-- CHECKPOINT_COMPLETE. -/
  | checkpointComplete
  /-- SYSTEM_REGISTER_WRITE. -/
  | systemRegisterWrite (block off : Nat) (v : Word)
  /-- ENERGY_UPDATE. -/
  | energyUpdate
  /-- THROTTLE_STEP_DECAY. -/
  | throttleStepDecay
  /-- THROTTLE_CAUSE_DEMAND. -/
  | throttleCauseDemand (die : Nat) (cause : Nat) (demand : Nat)
  /-- FORWARDED_ACCESS. -/
  | forwardedAccess (q : PeerReq)
deriving DecidableEq, Repr

/-- The row of the table that a device step is. -/
def Ev.instr : Ev → Instr
  | .deviceReset _ _ => .deviceReset
  | .attestationRequest _ => .attestationRequest
  | .hostQueueRegisterWrite _ _ => .hostQueueRegisterWrite
  | .hcqtDoorbell _ => .hcqtDoorbell
  | .hostNopCommand _ => .hostNopCommand
  | .hostLaunchCommand _ _ => .hostLaunchCommand
  | .hostUnknownCommand _ => .hostUnknownCommand
  | .hcphWrite _ => .hcphWrite
  | .completionWrite => .completionWrite
  | .hostMemAccess _ _ _ => .hostMemAccess
  | .indirectRecordRead _ => .indirectRecordRead
  | .launchRetry => .launchRetry
  | .kernelPlacement _ => .kernelPlacement
  | .initialBeadEnqueue _ => .initialBeadEnqueue
  | .rampUpStep _ => .rampUpStep
  | .pickupGrant _ => .pickupGrant
  | .headBufferRefill _ _ => .headBufferRefill
  | .bankJoinIncrement _ => .bankJoinIncrement
  | .bankJoinDecrement _ => .bankJoinDecrement
  | .continuationEnqueue _ _ _ => .continuationEnqueue
  | .overflowListDrain _ => .overflowListDrain
  | .retirementQuiesceComplete _ => .retirementQuiesceComplete
  | .rampDownStep _ => .rampDownStep
  | .bankAtomicApply _ => .bankAtomicApply
  | .atomicReply _ _ _ _ => .atomicReply
  | .bankopLineApply _ => .bankopLineApply
  | .futureFillApply _ => .futureFillApply
  | .testAndRegisterReply _ => .testAndRegisterReply
  | .parkTableWake _ => .parkTableWake
  | .loadDataReturn _ => .loadDataReturn
  | .storeCompletion _ => .storeCompletion
  | .rodWatchdogExpiry _ => .rodWatchdogExpiry
  | .machineCheck _ => .machineCheck
  | .rowShiftRepair _ _ => .rowShiftRepair
  | .pdrnDeadlineExpiry _ => .pdrnDeadlineExpiry
  | .drainComplete _ => .drainComplete
  | .barrierArrivalMessage _ => .barrierArrivalMessage
  | .barrierReleaseMessage _ => .barrierReleaseMessage
  | .copyLineLand _ => .copyLineLand
  | .copyLineAck _ => .copyLineAck
  | .putsSignalApply _ => .putsSignalApply
  | .rputMessageApply _ => .rputMessageApply
  | .streamSlotWrite _ _ => .streamSlotWrite
  | .strmwSlotWriteback _ _ => .strmwSlotWriteback
  | .pkscExecute _ => .pkscExecute
  | .pkselExecute _ => .pkselExecute
  | .pkgthExecute _ => .pkgthExecute
  | .pksctExecute _ => .pksctExecute
  | .demandServe _ => .demandServe
  | .outputTileEvaluate _ _ _ => .outputTileEvaluate
  | .outputTileRelease _ _ _ => .outputTileRelease
  | .demandComplete _ => .demandComplete
  | .tdropService _ _ => .tdropService
  | .evuContextRequest _ => .evuContextRequest
  | .evuRecomputeSpawn _ => .evuRecomputeSpawn
  | .ingressImportAccess _ => .ingressImportAccess
  | .linkDeadDeclaration _ _ => .linkDeadDeclaration
  | .drainRoundExpiry _ _ _ => .drainRoundExpiry
  | .indirectionEntryWrite _ _ _ => .indirectionEntryWrite
  | .pageMoveComplete _ => .pageMoveComplete
  | .linkCoreBind _ => .linkCoreBind
  | .linkCoreUnbind _ => .linkCoreUnbind
  | .checkpointGo => .checkpointGo
  | .checkpointComplete => .checkpointComplete
  | .systemRegisterWrite _ _ _ => .systemRegisterWrite
  | .energyUpdate => .energyUpdate
  | .throttleStepDecay => .throttleStepDecay
  | .throttleCauseDemand _ _ _ => .throttleCauseDemand
  | .forwardedAccess _ => .forwardedAccess

end Sys2Proof
end

