-- ==== Sys2Proof/Decode.lean ====
section
/-! DEFINITION. Chains of 16-bit words to instructions (R87-R106), total, rejecting by name; then the encoder, from the
same tables.  A table row holds an instruction's cell, its operands and the OPX fields that its chain may hold. -/

namespace Sys2Proof

/-- Why a chain is no instruction (R92-R97, R101): each is illegal instruction at the chain's address. -/
inductive Reject
  | fifthPrefix | order | noBase | page | unassigned | field | register | immediate
deriving DecidableEq, Repr

/-- The register files that an operand names (R97). -/
inductive File
  | s | v | p | t | a | b
deriving DecidableEq, Repr

/-- How many registers a file has (R97). -/
def File.size : File → Nat
  | .s => 64 | .v => 32 | .p => 8 | .t => 16 | .a => 16 | .b => 8

/-- An operand of a cell: its file, and whether it is read, written or both. -/
inductive Opnd
  | none | src (f : File) | dst (f : File) | both (f : File)
deriving DecidableEq, Repr

def Opnd.file? : Opnd → Option File
  | .none => Option.none | .src f => some f | .dst f => some f | .both f => some f

def Opnd.present (x : Opnd) : Bool := x.file?.isSome

def Opnd.isRead : Opnd → Bool
  | .src _ => true | .both _ => true | _ => false

def Opnd.isWritten : Opnd → Bool
  | .dst _ => true | .both _ => true | _ => false

/-- The four forms of a base word (R89). -/
inductive Form
  | rr | ri | rb | br
deriving DecidableEq, Repr

/-- What the immediate of a cell is, hence its limits (R108-R118, R125, R137, R172, R199, R241, R318, R365). -/
inductive ImmKind
  | none | base | csr | offset | second | shift | tag | rod | amount | count | banks | field | lane | topk | origin
  | theta | hops | stream | service
deriving DecidableEq, Repr

/-- Whether RM may be nonzero (R95): never, always, or with a float TY. -/
inductive RmRule
  | no | yes | float
deriving DecidableEq, Repr

/-- What PM may hold: nothing, anything, at least two paths (R318, R355). -/
inductive PmRule
  | zero | any | two
deriving DecidableEq, Repr

/-- A row of the instruction tables. -/
structure Shape where
  page : Nat
  op : Nat
  x : Nat
  form : Form
  D : Opnd
  A : Opnd
  B : Opnd
  imm : ImmKind
  tys : List Nat
  rm : RmRule
  modes : List Nat
  scs : List Nat
  pm : PmRule
  la : Bool
deriving DecidableEq, Repr

/-- The fields of a chain once its prefixes have been applied; an operand that the cell lacks is 0. -/
structure Opnds where
  d : Nat := 0
  a : Nat := 0
  b : Nat := 0
  imm : Option Int := none
  ty : Nat := 0
  rm : Nat := 0
  mode : Nat := 0
  sc : Nat := 0
  pm : Nat := 0
  la : Nat := 0
  hint : Nat := 0
deriving DecidableEq, Repr

/-! The codes of R95, R183, R208, R254 and R355. -/

def Ty.ofCode : Nat → Ty
  | 1 => .i8 | 2 => .u8 | 3 => .i16 | 4 => .u16 | 5 => .i32 | 6 => .u32 | 7 => .i64 | 8 => .dm8 | 9 => .f16
  | 10 => .f32 | _ => .dflt

def Ty.toCode : Ty → Nat
  | .dflt => 0 | .i8 => 1 | .u8 => 2 | .i16 => 3 | .u16 => 4 | .i32 => 5 | .u32 => 6 | .i64 => 7 | .dm8 => 8
  | .f16 => 9 | .f32 => 10

def Scope.ofCode : Nat → Scope
  | 1 => .tile | 2 => .clu | 3 => .die | 4 => .dev | 5 => .dom | _ => .dflt

def Scope.toCode : Scope → Nat
  | .dflt => 0 | .tile => 1 | .clu => 2 | .die => 3 | .dev => 4 | .dom => 5

def PathMask.ofCode (n : Nat) : PathMask :=
  { c := n.testBit 3, x := n.testBit 2, e := n.testBit 1, k := n.testBit 0 }

def PathMask.toCode (p : PathMask) : Nat := 8 * p.c.toNat + 4 * p.x.toNat + 2 * p.e.toNat + p.k.toNat

def CmpRel.ofCode : Nat → CmpRel
  | 1 => .ne | 2 => .lt | 3 => .le | 4 => .un | _ => .eq

def CmpRel.toCode : CmpRel → Nat
  | .eq => 0 | .ne => 1 | .lt => 2 | .le => 3 | .un => 4

def BankFn.ofCode : Nat → BankFn
  | 1 => .min | 2 => .max | 3 => .and | 4 => .or | 5 => .xor | 6 => .set | _ => .add

def BankFn.toCode : BankFn → Nat
  | .add => 0 | .min => 1 | .max => 2 | .and => 3 | .or => 4 | .xor => 5 | .set => 6

def ActFn.ofCode : Nat → ActFn
  | 1 => .sigm | 2 => .silu | 3 => .tanh | 4 => .gelu | _ => .relu

def ActFn.toCode : ActFn → Nat
  | .relu => 0 | .sigm => 1 | .silu => 2 | .tanh => 3 | .gelu => 4

def FenceMode.ofCode : Nat → FenceMode
  | 1 => .rel | 2 => .acq | _ => .full

def FenceMode.toCode : FenceMode → Nat
  | .full => 0 | .rel => 1 | .acq => 2

/-- The governing predicate of a MODE (R198): MODE 8 + k names pk. -/
def govOf (m : Nat) : Option Nat := if m < 8 then none else some (m - 8)

def govMode : Option Nat → Nat
  | none => 0
  | some k => 8 + k

/-- The second source: the immediate where the chain has one, else the register (R108). -/
def srcOf (imm : Option Int) (r : Nat) : Src :=
  match imm with
  | some v => .imm v
  | none => .reg r

def Src.imm? : Src → Option Int
  | .imm v => some v
  | .reg _ => none

def Src.reg0 : Src → Nat
  | .reg n => n
  | .imm _ => 0

/-- An optional offset: absent means 0. -/
def immOf (v : Int) : Option Int := if v = 0 then none else some v

/-- A field of `w` bits read as two's complement. -/
def signed (w v : Nat) : Int := if v % 2 ^ w < 2 ^ (w - 1) then (v % 2 ^ w : Nat) else (v % 2 ^ w : Nat) - (2 ^ w : Nat)

/-- The hops of R318: dx in bits [5:0], dy in bits [10:6]. -/
def hopX (imm : Option Int) : Int := signed 6 (imm.getD 0).toNat
def hopY (imm : Option Int) : Int := signed 5 ((imm.getD 0).toNat / 64)
def hopImm (dx dy : Int) : Option Int := immOf ((dy % 32) * 64 + dx % 64)

def allTypes : List Nat := [0, 1, 2, 3, 4, 5, 6, 7, 8, 9, 10]
def numTypes : List Nat := [0, 1, 2, 3, 4, 5, 6, 7, 9, 10]
def predModes : List Nat := [0, 8, 9, 10, 11, 12, 13, 14, 15]

/-- The cells of the opcode map (R103, R104), a MODE variant with operands or a mnemonic of its own counted apart. -/
inductive Op
  | add | sub | and | or | xor | andn | mov | min | max
  | minu | maxu | shl | shr | sar | rol | mul | mulh | mulhu
  | div | divu | rem | remu | sel | seq | sne | slt | sltu
  | sle | sleu | clz | ctz | popc | pgtag | sextB | sextH | sextW
  | zextB | zextH | zextW | padd | ptag | shadd0 | shadd1 | shadd2 | shadd3
  | shadd4 | shadd5 | shadd6 | shadd7 | bext | bins | jr | jtab | addi
  | li | csrr | csrw | b | bpr | beqz | bnez | bltz | bgez
  | beq | bne | blt | bltu | ld | st | ldx | stx | ldf
  | stf | stfE | park | parkZ | aadd | amin | amax | aand | aor
  | axor | aswap | acas | afadd | bankop | tagst | tagstZ | tagld | dcwb
  | dcinv | pref | vld | vst | vldx | vstx | vbc | vmovs | vadd
  | vsub | vmul | vfma | vmin | vmax | vabs | vneg | vand | vor
  | vxor | vshl | vshr | vsar | vcmp | vsel | vcvt | vqnt | vdq
  | vrsum | vrmax | vrmin | vscan | vtopk | vexp2 | vlog2 | vrcp | vrsq
  | vperm | baddq | pand | por | pnot | pset | tview | tvset | tforce
  | tforceAll | tstore | tdrop | tdropAll | tstat | acq | arel | tmul | tmulg
  | tmula | tadd | tsub | tmule | tscl | tbias | tact | texp | texpSub
  | trmax | trsum | tdivr | tmask | trot | tqnt | tcopy | ttrn | tscan
  | spawn | endBead | yield | launch | barcfg | arrive | bwait | btry | put
  | puts | get | rput | strm | strmw | slot | slotAck | slotEnd | cpwait
  | lkpop | lkpopSet | fence | fencex | pksc | pksel | pkgth | pksct | edins
  | eddel | edchg | edmap | ctxdone | vldvAt | vldvCur | settle | reclaim | reclaimBind
  | reclaimUnbind | trap | eret | tlbi | tlbiVa | idle | wsw | mcack | pdrnSave
  | pdrnKill | pdrnRun | prst | ctxsv | ctxsvMem | ctxrs
deriving DecidableEq, Repr

/-- The cells of page 0. -/
def Op.onPage0 : List Op := [
  .add, .sub, .and, .or, .xor, .andn, .mov, .min, .max,
  .minu, .maxu, .shl, .shr, .sar, .rol, .mul, .mulh, .mulhu,
  .div, .divu, .rem, .remu, .sel, .seq, .sne, .slt, .sltu,
  .sle, .sleu, .clz, .ctz, .popc, .pgtag, .sextB, .sextH, .sextW,
  .zextB, .zextH, .zextW, .padd, .ptag, .shadd0, .shadd1, .shadd2, .shadd3,
  .shadd4, .shadd5, .shadd6, .shadd7, .bext, .bins, .jr, .jtab, .addi,
  .li, .csrr, .csrw, .b, .bpr, .beqz, .bnez, .bltz, .bgez,
  .beq, .bne, .blt, .bltu]

/-- The cells of page 1. -/
def Op.onPage1 : List Op := [
  .ld, .st, .ldx, .stx, .ldf, .stf, .stfE, .park, .parkZ,
  .aadd, .amin, .amax, .aand, .aor, .axor, .aswap, .acas, .afadd,
  .bankop, .tagst, .tagstZ, .tagld, .dcwb, .dcinv, .pref]

/-- The cells of page 2. -/
def Op.onPage2 : List Op := [
  .vld, .vst, .vldx, .vstx, .vbc, .vmovs, .vadd, .vsub, .vmul,
  .vfma, .vmin, .vmax, .vabs, .vneg, .vand, .vor, .vxor, .vshl,
  .vshr, .vsar, .vcmp, .vsel, .vcvt, .vqnt, .vdq, .vrsum, .vrmax,
  .vrmin, .vscan, .vtopk, .vexp2, .vlog2, .vrcp, .vrsq, .vperm, .baddq,
  .pand, .por, .pnot, .pset]

/-- The cells of page 3. -/
def Op.onPage3 : List Op := [
  .tview, .tvset, .tforce, .tforceAll, .tstore, .tdrop, .tdropAll, .tstat, .acq,
  .arel, .tmul, .tmulg, .tmula, .tadd, .tsub, .tmule, .tscl, .tbias,
  .tact, .texp, .texpSub, .trmax, .trsum, .tdivr, .tmask, .trot, .tqnt,
  .tcopy, .ttrn, .tscan]

/-- The cells of page 4. -/
def Op.onPage4 : List Op := [
  .spawn, .endBead, .yield, .launch, .barcfg, .arrive, .bwait, .btry, .put,
  .puts, .get, .rput, .strm, .strmw, .slot, .slotAck, .slotEnd, .cpwait,
  .lkpop, .lkpopSet, .fence, .fencex]

/-- The cells of page 5. -/
def Op.onPage5 : List Op := [
  .pksc, .pksel, .pkgth, .pksct, .edins, .eddel, .edchg, .edmap, .ctxdone,
  .vldvAt, .vldvCur, .settle, .reclaim, .reclaimBind, .reclaimUnbind]

/-- The cells of page 6. -/
def Op.onPage6 : List Op := [
  .trap, .eret, .tlbi, .tlbiVa, .idle, .wsw, .mcack, .pdrnSave, .pdrnKill,
  .pdrnRun, .prst, .ctxsv, .ctxsvMem, .ctxrs]

/-- Every cell, page by page. -/
def Op.all : List Op :=
  Op.onPage0 ++ (Op.onPage1 ++ (Op.onPage2 ++ (Op.onPage3 ++ (Op.onPage4 ++ (Op.onPage5 ++ Op.onPage6)))))

/-- The cell of SHADD with shift k (R116). -/
def Op.shadd : Nat → Op
  | 0 => .shadd0 | 1 => .shadd1 | 2 => .shadd2 | 3 => .shadd3 | 4 => .shadd4 | 5 => .shadd5 | 6 => .shadd6 | _ => .shadd7

/-- The tables of R103, R104, R137, R172, R199, R241, R270, R287, R318, R355 and R365: where each cell stands and what
its chain may hold. -/
def shape : Op → Shape
  | .add => ⟨0, 0, 0, .rr, (.dst .s), (.src .s), (.src .s), .none, [0], .no, [0], [0], .zero, false⟩
  | .sub => ⟨0, 0, 1, .rr, (.dst .s), (.src .s), (.src .s), .none, [0], .no, [0], [0], .zero, false⟩
  | .and => ⟨0, 0, 2, .rr, (.dst .s), (.src .s), (.src .s), .second, [0], .no, [0], [0], .zero, false⟩
  | .or => ⟨0, 0, 3, .rr, (.dst .s), (.src .s), (.src .s), .second, [0], .no, [0], [0], .zero, false⟩
  | .xor => ⟨0, 0, 4, .rr, (.dst .s), (.src .s), (.src .s), .second, [0], .no, [0], [0], .zero, false⟩
  | .andn => ⟨0, 0, 5, .rr, (.dst .s), (.src .s), (.src .s), .none, [0], .no, [0], [0], .zero, false⟩
  | .mov => ⟨0, 0, 6, .rr, (.dst .s), (.src .s), .none, .none, [0], .no, [0], [0], .zero, false⟩
  | .min => ⟨0, 1, 4, .rr, (.dst .s), (.src .s), (.src .s), .none, [0], .no, [0], [0], .zero, false⟩
  | .max => ⟨0, 1, 5, .rr, (.dst .s), (.src .s), (.src .s), .none, [0], .no, [0], [0], .zero, false⟩
  | .minu => ⟨0, 1, 6, .rr, (.dst .s), (.src .s), (.src .s), .none, [0], .no, [0], [0], .zero, false⟩
  | .maxu => ⟨0, 1, 7, .rr, (.dst .s), (.src .s), (.src .s), .none, [0], .no, [0], [0], .zero, false⟩
  | .shl => ⟨0, 1, 0, .rr, (.dst .s), (.src .s), (.src .s), .shift, [0], .no, [0], [0], .zero, false⟩
  | .shr => ⟨0, 1, 1, .rr, (.dst .s), (.src .s), (.src .s), .shift, [0], .no, [0], [0], .zero, false⟩
  | .sar => ⟨0, 1, 2, .rr, (.dst .s), (.src .s), (.src .s), .shift, [0], .no, [0], [0], .zero, false⟩
  | .rol => ⟨0, 1, 3, .rr, (.dst .s), (.src .s), (.src .s), .shift, [0], .no, [0], [0], .zero, false⟩
  | .mul => ⟨0, 2, 0, .rr, (.dst .s), (.src .s), (.src .s), .second, [0], .no, [0], [0], .zero, false⟩
  | .mulh => ⟨0, 2, 1, .rr, (.dst .s), (.src .s), (.src .s), .none, [0], .no, [0], [0], .zero, false⟩
  | .mulhu => ⟨0, 2, 2, .rr, (.dst .s), (.src .s), (.src .s), .none, [0], .no, [0], [0], .zero, false⟩
  | .div => ⟨0, 2, 3, .rr, (.dst .s), (.src .s), (.src .s), .none, [0], .no, [0], [0], .zero, false⟩
  | .divu => ⟨0, 2, 4, .rr, (.dst .s), (.src .s), (.src .s), .none, [0], .no, [0], [0], .zero, false⟩
  | .rem => ⟨0, 2, 5, .rr, (.dst .s), (.src .s), (.src .s), .none, [0], .no, [0], [0], .zero, false⟩
  | .remu => ⟨0, 2, 6, .rr, (.dst .s), (.src .s), (.src .s), .none, [0], .no, [0], [0], .zero, false⟩
  | .sel => ⟨0, 2, 7, .rr, (.both .s), (.src .s), (.src .s), .none, [0], .no, [0], [0], .zero, false⟩
  | .seq => ⟨0, 3, 0, .rr, (.dst .s), (.src .s), (.src .s), .second, [0], .no, [0], [0], .zero, false⟩
  | .sne => ⟨0, 3, 1, .rr, (.dst .s), (.src .s), (.src .s), .second, [0], .no, [0], [0], .zero, false⟩
  | .slt => ⟨0, 3, 2, .rr, (.dst .s), (.src .s), (.src .s), .second, [0], .no, [0], [0], .zero, false⟩
  | .sltu => ⟨0, 3, 3, .rr, (.dst .s), (.src .s), (.src .s), .second, [0], .no, [0], [0], .zero, false⟩
  | .sle => ⟨0, 3, 4, .rr, (.dst .s), (.src .s), (.src .s), .second, [0], .no, [0], [0], .zero, false⟩
  | .sleu => ⟨0, 3, 5, .rr, (.dst .s), (.src .s), (.src .s), .second, [0], .no, [0], [0], .zero, false⟩
  | .clz => ⟨0, 4, 0, .rr, (.dst .s), (.src .s), .none, .none, [0], .no, [0], [0], .zero, false⟩
  | .ctz => ⟨0, 4, 1, .rr, (.dst .s), (.src .s), .none, .none, [0], .no, [0], [0], .zero, false⟩
  | .popc => ⟨0, 4, 2, .rr, (.dst .s), (.src .s), .none, .none, [0], .no, [0], [0], .zero, false⟩
  | .pgtag => ⟨0, 4, 5, .rr, (.dst .s), (.src .s), .none, .none, [0], .no, [0], [0], .zero, false⟩
  | .sextB => ⟨0, 6, 0, .rr, (.dst .s), (.src .s), .none, .none, [0], .no, [0], [0], .zero, false⟩
  | .sextH => ⟨0, 6, 1, .rr, (.dst .s), (.src .s), .none, .none, [0], .no, [0], [0], .zero, false⟩
  | .sextW => ⟨0, 6, 2, .rr, (.dst .s), (.src .s), .none, .none, [0], .no, [0], [0], .zero, false⟩
  | .zextB => ⟨0, 6, 3, .rr, (.dst .s), (.src .s), .none, .none, [0], .no, [0], [0], .zero, false⟩
  | .zextH => ⟨0, 6, 4, .rr, (.dst .s), (.src .s), .none, .none, [0], .no, [0], [0], .zero, false⟩
  | .zextW => ⟨0, 6, 5, .rr, (.dst .s), (.src .s), .none, .none, [0], .no, [0], [0], .zero, false⟩
  | .padd => ⟨0, 4, 3, .rr, (.dst .s), (.src .s), (.src .s), .second, [0], .no, [0], [0], .zero, false⟩
  | .ptag => ⟨0, 4, 4, .rr, (.dst .s), (.src .s), (.src .s), .tag, [0], .no, [0], [0], .zero, false⟩
  | .shadd0 => ⟨0, 5, 0, .rr, (.dst .s), (.src .s), (.src .s), .none, [0], .no, [0], [0], .zero, false⟩
  | .shadd1 => ⟨0, 5, 1, .rr, (.dst .s), (.src .s), (.src .s), .none, [0], .no, [0], [0], .zero, false⟩
  | .shadd2 => ⟨0, 5, 2, .rr, (.dst .s), (.src .s), (.src .s), .none, [0], .no, [0], [0], .zero, false⟩
  | .shadd3 => ⟨0, 5, 3, .rr, (.dst .s), (.src .s), (.src .s), .none, [0], .no, [0], [0], .zero, false⟩
  | .shadd4 => ⟨0, 5, 4, .rr, (.dst .s), (.src .s), (.src .s), .none, [0], .no, [0], [0], .zero, false⟩
  | .shadd5 => ⟨0, 5, 5, .rr, (.dst .s), (.src .s), (.src .s), .none, [0], .no, [0], [0], .zero, false⟩
  | .shadd6 => ⟨0, 5, 6, .rr, (.dst .s), (.src .s), (.src .s), .none, [0], .no, [0], [0], .zero, false⟩
  | .shadd7 => ⟨0, 5, 7, .rr, (.dst .s), (.src .s), (.src .s), .none, [0], .no, [0], [0], .zero, false⟩
  | .bext => ⟨0, 7, 0, .rr, (.dst .s), (.src .s), .none, .field, [0], .no, [0], [0], .zero, false⟩
  | .bins => ⟨0, 7, 1, .rr, (.both .s), (.src .s), .none, .field, [0], .no, [0], [0], .zero, false⟩
  | .jr => ⟨0, 21, 0, .rr, .none, (.src .s), .none, .none, [0], .no, [0], [0], .zero, false⟩
  | .jtab => ⟨0, 21, 1, .rr, .none, (.src .s), (.src .s), .none, [0], .no, [0], [0], .zero, false⟩
  | .addi => ⟨0, 8, 0, .ri, (.both .s), .none, .none, .base, [0], .no, [0], [0], .zero, false⟩
  | .li => ⟨0, 9, 0, .ri, (.dst .s), .none, .none, .base, [0], .no, [0], [0], .zero, false⟩
  | .csrr => ⟨0, 10, 0, .ri, (.dst .s), .none, .none, .csr, [0], .no, [0], [0], .zero, false⟩
  | .csrw => ⟨0, 11, 0, .ri, (.src .s), .none, .none, .csr, [0], .no, [0], [0], .zero, false⟩
  | .b => ⟨0, 12, 0, .br, .none, .none, .none, .base, [0], .no, [0], [0], .zero, false⟩
  | .bpr => ⟨0, 22, 0, .br, .none, .none, .none, .base, [0], .no, [0], [0], .zero, false⟩
  | .beqz => ⟨0, 13, 0, .rb, .none, (.src .s), .none, .base, [0], .no, [0], [0], .zero, false⟩
  | .bnez => ⟨0, 14, 0, .rb, .none, (.src .s), .none, .base, [0], .no, [0], [0], .zero, false⟩
  | .bltz => ⟨0, 15, 0, .rb, .none, (.src .s), .none, .base, [0], .no, [0], [0], .zero, false⟩
  | .bgez => ⟨0, 16, 0, .rb, .none, (.src .s), .none, .base, [0], .no, [0], [0], .zero, false⟩
  | .beq => ⟨0, 17, 0, .rb, .none, (.src .s), (.src .s), .base, [0], .no, [0], [0], .zero, false⟩
  | .bne => ⟨0, 18, 0, .rb, .none, (.src .s), (.src .s), .base, [0], .no, [0], [0], .zero, false⟩
  | .blt => ⟨0, 19, 0, .rb, .none, (.src .s), (.src .s), .base, [0], .no, [0], [0], .zero, false⟩
  | .bltu => ⟨0, 20, 0, .rb, .none, (.src .s), (.src .s), .base, [0], .no, [0], [0], .zero, false⟩
  | .ld => ⟨1, 0, 0, .rr, (.dst .s), (.src .s), .none, .offset, numTypes, .yes, [0], [0], .zero, true⟩
  | .st => ⟨1, 0, 1, .rr, (.src .s), (.src .s), .none, .offset, numTypes, .yes, [0], [0], .zero, true⟩
  | .ldx => ⟨1, 0, 2, .rr, (.dst .s), (.src .s), (.src .s), .none, numTypes, .yes, [0], [0], .zero, true⟩
  | .stx => ⟨1, 0, 3, .rr, (.src .s), (.src .s), (.src .s), .none, numTypes, .yes, [0], [0], .zero, true⟩
  | .ldf => ⟨1, 0, 4, .rr, (.dst .s), (.src .s), .none, .offset, [0], .no, [0], [0], .zero, true⟩
  | .stf => ⟨1, 0, 5, .rr, (.src .s), (.src .s), .none, .offset, [0], .no, [0], [0], .zero, true⟩
  | .stfE => ⟨1, 0, 5, .rr, (.src .s), (.src .s), .none, .offset, [0], .no, [1], [0], .zero, true⟩
  | .park => ⟨1, 0, 6, .rr, .none, (.src .s), .none, .offset, [0], .no, [0], [0], .zero, false⟩
  | .parkZ => ⟨1, 0, 6, .rr, .none, (.src .s), .none, .offset, [0], .no, [1], [0], .zero, false⟩
  | .aadd => ⟨1, 1, 0, .rr, (.dst .s), (.src .s), (.src .s), .none, [0, 5, 6, 7], .no, [0], [0], .zero, true⟩
  | .amin => ⟨1, 1, 1, .rr, (.dst .s), (.src .s), (.src .s), .none, [0, 5, 6, 7], .no, [0], [0], .zero, true⟩
  | .amax => ⟨1, 1, 2, .rr, (.dst .s), (.src .s), (.src .s), .none, [0, 5, 6, 7], .no, [0], [0], .zero, true⟩
  | .aand => ⟨1, 1, 3, .rr, (.dst .s), (.src .s), (.src .s), .none, [0, 5, 6, 7], .no, [0], [0], .zero, true⟩
  | .aor => ⟨1, 1, 4, .rr, (.dst .s), (.src .s), (.src .s), .none, [0, 5, 6, 7], .no, [0], [0], .zero, true⟩
  | .axor => ⟨1, 1, 5, .rr, (.dst .s), (.src .s), (.src .s), .none, [0, 5, 6, 7], .no, [0], [0], .zero, true⟩
  | .aswap => ⟨1, 1, 6, .rr, (.dst .s), (.src .s), (.src .s), .none, [0, 5, 6, 7], .no, [0], [0], .zero, true⟩
  | .acas => ⟨1, 1, 7, .rr, (.both .s), (.src .s), (.src .s), .none, [0, 5, 6, 7], .no, [0], [0], .zero, true⟩
  | .afadd => ⟨1, 2, 0, .rr, (.dst .s), (.src .s), (.src .s), .offset, [0, 5, 7], .yes, [0], [0], .zero, true⟩
  | .bankop => ⟨1, 2, 1, .rr, (.src .s), (.src .s), (.src .s), .none, [0, 5, 6, 7, 10], .no, [0, 1, 2, 3, 4, 5, 6], [0], .zero, true⟩
  | .tagst => ⟨1, 2, 2, .rr, (.src .s), (.src .s), (.src .s), .none, [0], .no, [0], [0], .zero, true⟩
  | .tagstZ => ⟨1, 2, 2, .rr, (.src .s), (.src .s), (.src .s), .none, [0], .no, [1], [0], .zero, true⟩
  | .tagld => ⟨1, 2, 3, .rr, (.dst .s), (.src .s), .none, .none, [0], .no, [0], [0], .zero, true⟩
  | .dcwb => ⟨1, 2, 4, .rr, (.src .s), (.src .s), .none, .none, [0], .no, [0], [0], .zero, true⟩
  | .dcinv => ⟨1, 2, 5, .rr, (.src .s), (.src .s), .none, .none, [0], .no, [0], [0], .zero, true⟩
  | .pref => ⟨1, 2, 6, .rr, .none, (.src .s), .none, .offset, [0], .no, [0], [0], .zero, true⟩
  | .vld => ⟨2, 0, 0, .rr, (.dst .v), (.src .s), .none, .offset, allTypes, .yes, predModes, [0], .zero, true⟩
  | .vst => ⟨2, 0, 1, .rr, (.src .v), (.src .s), .none, .offset, allTypes, .yes, predModes, [0], .zero, true⟩
  | .vldx => ⟨2, 0, 2, .rr, (.dst .v), (.src .s), (.src .v), .none, allTypes, .yes, predModes, [0], .zero, true⟩
  | .vstx => ⟨2, 0, 3, .rr, (.src .v), (.src .s), (.src .v), .none, allTypes, .yes, predModes, [0], .zero, true⟩
  | .vbc => ⟨2, 0, 4, .rr, (.dst .v), (.src .s), .none, .none, allTypes, .no, predModes, [0], .zero, true⟩
  | .vmovs => ⟨2, 0, 5, .rr, (.dst .s), (.src .v), .none, .lane, allTypes, .no, [0], [0], .zero, true⟩
  | .vadd => ⟨2, 1, 0, .rr, (.dst .v), (.src .v), (.src .v), .none, numTypes, .float, predModes, [0], .zero, true⟩
  | .vsub => ⟨2, 1, 1, .rr, (.dst .v), (.src .v), (.src .v), .none, numTypes, .float, predModes, [0], .zero, true⟩
  | .vmul => ⟨2, 1, 2, .rr, (.dst .v), (.src .v), (.src .v), .none, numTypes, .float, predModes, [0], .zero, true⟩
  | .vfma => ⟨2, 1, 3, .rr, (.both .v), (.src .v), (.src .v), .none, [0, 9, 10], .yes, predModes, [0], .zero, true⟩
  | .vmin => ⟨2, 1, 4, .rr, (.dst .v), (.src .v), (.src .v), .none, numTypes, .no, predModes, [0], .zero, true⟩
  | .vmax => ⟨2, 1, 5, .rr, (.dst .v), (.src .v), (.src .v), .none, numTypes, .no, predModes, [0], .zero, true⟩
  | .vabs => ⟨2, 1, 6, .rr, (.dst .v), (.src .v), .none, .none, [0, 1, 3, 5, 7, 9, 10], .no, predModes, [0], .zero, true⟩
  | .vneg => ⟨2, 1, 7, .rr, (.dst .v), (.src .v), .none, .none, [0, 1, 3, 5, 7, 9, 10], .no, predModes, [0], .zero, true⟩
  | .vand => ⟨2, 2, 0, .rr, (.dst .v), (.src .v), (.src .v), .none, allTypes, .no, predModes, [0], .zero, true⟩
  | .vor => ⟨2, 2, 1, .rr, (.dst .v), (.src .v), (.src .v), .none, allTypes, .no, predModes, [0], .zero, true⟩
  | .vxor => ⟨2, 2, 2, .rr, (.dst .v), (.src .v), (.src .v), .none, allTypes, .no, predModes, [0], .zero, true⟩
  | .vshl => ⟨2, 2, 3, .rr, (.dst .v), (.src .v), (.src .v), .amount, [1, 2, 3, 4, 5, 6, 7], .no, predModes, [0], .zero, true⟩
  | .vshr => ⟨2, 2, 4, .rr, (.dst .v), (.src .v), (.src .v), .amount, [1, 2, 3, 4, 5, 6, 7], .no, predModes, [0], .zero, true⟩
  | .vsar => ⟨2, 2, 5, .rr, (.dst .v), (.src .v), (.src .v), .amount, [1, 2, 3, 4, 5, 6, 7], .no, predModes, [0], .zero, true⟩
  | .vcmp => ⟨2, 2, 6, .rr, (.dst .p), (.src .v), (.src .v), .none, allTypes, .no, [0, 1, 2, 3, 4], [0], .zero, true⟩
  | .vsel => ⟨2, 2, 7, .rr, (.dst .v), (.src .v), (.src .v), .none, allTypes, .no, predModes, [0], .zero, true⟩
  | .vcvt => ⟨2, 3, 0, .rr, (.dst .v), (.src .v), .none, .none, numTypes, .yes, [0, 1, 2, 3, 4, 5, 6, 7, 9, 10], [0], .zero, true⟩
  | .vqnt => ⟨2, 3, 1, .rr, (.dst .v), (.src .v), (.both .s), .none, [0, 9, 10], .no, [0, 1], [0], .zero, true⟩
  | .vdq => ⟨2, 3, 2, .rr, (.dst .v), (.src .v), (.src .s), .none, [0, 9, 10], .yes, [0, 1, 2, 3], [0], .zero, true⟩
  | .vrsum => ⟨2, 3, 3, .rr, (.dst .s), (.src .v), .none, .none, numTypes, .float, predModes, [0], .zero, true⟩
  | .vrmax => ⟨2, 3, 4, .rr, (.dst .s), (.src .v), .none, .none, numTypes, .no, predModes, [0], .zero, true⟩
  | .vrmin => ⟨2, 3, 5, .rr, (.dst .s), (.src .v), .none, .none, numTypes, .no, predModes, [0], .zero, true⟩
  | .vscan => ⟨2, 3, 6, .rr, (.dst .v), (.src .v), .none, .none, numTypes, .float, predModes, [0], .zero, true⟩
  | .vtopk => ⟨2, 3, 7, .rr, (.dst .v), (.src .v), .none, .topk, allTypes, .no, predModes, [0], .zero, true⟩
  | .vexp2 => ⟨2, 4, 0, .rr, (.dst .v), (.src .v), .none, .none, [0, 9, 10], .yes, predModes, [0], .zero, true⟩
  | .vlog2 => ⟨2, 4, 1, .rr, (.dst .v), (.src .v), .none, .none, [0, 9, 10], .yes, predModes, [0], .zero, true⟩
  | .vrcp => ⟨2, 4, 2, .rr, (.dst .v), (.src .v), .none, .none, [0, 9, 10], .yes, predModes, [0], .zero, true⟩
  | .vrsq => ⟨2, 4, 3, .rr, (.dst .v), (.src .v), .none, .none, [0, 9, 10], .yes, predModes, [0], .zero, true⟩
  | .vperm => ⟨2, 4, 4, .rr, (.dst .v), (.src .v), (.src .v), .none, allTypes, .no, predModes, [0], .zero, true⟩
  | .baddq => ⟨2, 4, 5, .rr, (.both .v), (.src .v), (.both .s), .none, [0, 8, 10], .no, [0], [0], .zero, true⟩
  | .pand => ⟨2, 5, 0, .rr, (.dst .p), (.src .p), (.src .p), .none, [0], .no, [0], [0], .zero, true⟩
  | .por => ⟨2, 5, 1, .rr, (.dst .p), (.src .p), (.src .p), .none, [0], .no, [0], [0], .zero, true⟩
  | .pnot => ⟨2, 5, 2, .rr, (.dst .p), (.src .p), .none, .none, [0], .no, [0], [0], .zero, true⟩
  | .pset => ⟨2, 5, 3, .rr, (.dst .p), (.src .s), .none, .count, allTypes, .no, [0], [0], .zero, true⟩
  | .tview => ⟨3, 0, 0, .rr, (.dst .t), (.src .s), .none, .offset, [0], .no, [0], [0], .zero, true⟩
  | .tvset => ⟨3, 0, 1, .rr, (.both .t), (.src .s), .none, .none, [0], .no, [0, 1, 2, 3], [0], .zero, true⟩
  | .tforce => ⟨3, 0, 2, .rr, .none, (.src .t), .none, .none, [0], .no, [0], [0], .zero, true⟩
  | .tforceAll => ⟨3, 0, 2, .rr, .none, .none, .none, .none, [0], .no, [1], [0], .zero, true⟩
  | .tstore => ⟨3, 0, 3, .rr, (.src .t), (.src .t), .none, .none, [0], .yes, [0], [0], .zero, true⟩
  | .tdrop => ⟨3, 0, 4, .rr, .none, (.src .t), .none, .none, [0], .no, [0], [0], .zero, true⟩
  | .tdropAll => ⟨3, 0, 4, .rr, .none, .none, .none, .none, [0], .no, [1], [0], .zero, true⟩
  | .tstat => ⟨3, 0, 5, .rr, (.dst .s), .none, .none, .none, [0], .no, [0], [0], .zero, true⟩
  | .acq => ⟨3, 0, 6, .rr, (.dst .a), (.src .s), .none, .banks, [0], .no, [0], [0], .zero, true⟩
  | .arel => ⟨3, 0, 7, .rr, .none, (.src .a), .none, .none, [0], .no, [0], [0], .zero, true⟩
  | .tmul => ⟨3, 1, 0, .rr, (.src .t), (.src .t), (.src .t), .none, [0], .yes, [0, 1], [0], .zero, true⟩
  | .tmulg => ⟨3, 1, 1, .rr, (.src .t), (.src .t), (.src .t), .none, [0], .yes, [0, 1], [0], .zero, true⟩
  | .tmula => ⟨3, 1, 2, .rr, (.src .t), (.src .t), (.src .t), .none, [0], .no, [0], [0], .zero, true⟩
  | .tadd => ⟨3, 1, 3, .rr, (.src .t), (.src .t), (.src .t), .origin, [0], .yes, [0, 1], [0], .zero, true⟩
  | .tsub => ⟨3, 1, 4, .rr, (.src .t), (.src .t), (.src .t), .origin, [0], .yes, [0, 1], [0], .zero, true⟩
  | .tmule => ⟨3, 1, 5, .rr, (.src .t), (.src .t), (.src .t), .origin, [0], .yes, [0, 1], [0], .zero, true⟩
  | .tscl => ⟨3, 1, 6, .rr, (.src .t), (.src .t), (.src .s), .none, [0], .yes, [0, 1], [0], .zero, true⟩
  | .tbias => ⟨3, 1, 7, .rr, (.src .t), (.src .t), (.src .t), .none, [0], .yes, [0, 1], [0], .zero, true⟩
  | .tact => ⟨3, 2, 0, .rr, (.src .t), (.src .t), .none, .none, [0], .yes, [0, 1, 2, 3, 4], [0], .zero, true⟩
  | .texp => ⟨3, 2, 1, .rr, (.src .t), (.src .t), .none, .none, [0], .yes, [0, 1], [0], .zero, true⟩
  | .texpSub => ⟨3, 2, 1, .rr, (.src .t), (.src .t), (.src .t), .none, [0], .yes, [2, 3], [0], .zero, true⟩
  | .trmax => ⟨3, 2, 2, .rr, (.src .t), (.src .t), .none, .none, [0], .yes, [0], [0], .zero, true⟩
  | .trsum => ⟨3, 2, 3, .rr, (.src .t), (.src .t), .none, .none, [0], .yes, [0], [0], .zero, true⟩
  | .tdivr => ⟨3, 2, 4, .rr, (.src .t), (.src .t), (.src .t), .none, [0], .yes, [0], [0], .zero, true⟩
  | .tmask => ⟨3, 2, 5, .rr, (.src .t), (.src .t), .none, .offset, [0], .yes, [0, 1], [0], .zero, true⟩
  | .trot => ⟨3, 2, 6, .rr, (.src .t), (.src .t), (.src .t), .theta, [0], .yes, [0, 1], [0], .zero, true⟩
  | .tqnt => ⟨3, 2, 7, .rr, (.src .t), (.src .t), .none, .none, [0], .no, [0], [0], .zero, true⟩
  | .tcopy => ⟨3, 3, 0, .rr, (.src .t), (.src .t), .none, .origin, [0], .yes, [0], [0], .zero, true⟩
  | .ttrn => ⟨3, 3, 1, .rr, (.src .t), (.src .t), .none, .none, [0], .yes, [0], [0], .zero, true⟩
  | .tscan => ⟨3, 3, 2, .rr, (.src .t), (.src .t), .none, .none, [0], .yes, [0], [0], .zero, true⟩
  | .spawn => ⟨4, 0, 0, .rr, .none, (.src .s), (.src .s), .rod, [0], .no, [0], [0], .zero, true⟩
  | .endBead => ⟨4, 0, 1, .rr, .none, (.src .s), .none, .none, [0], .no, [0], [0], .zero, false⟩
  | .yield => ⟨4, 0, 2, .rr, .none, .none, .none, .none, [0], .no, [0], [0], .zero, false⟩
  | .launch => ⟨4, 0, 3, .rr, .none, (.src .s), (.src .s), .none, [0], .no, [0], [0], .zero, true⟩
  | .barcfg => ⟨4, 1, 0, .rr, (.dst .b), (.src .s), .none, .none, [0], .no, [0], [0], .zero, true⟩
  | .arrive => ⟨4, 1, 1, .rr, (.both .b), .none, .none, .none, [0], .no, [0], [0, 2, 3, 4], .any, true⟩
  | .bwait => ⟨4, 1, 2, .rr, (.src .b), .none, .none, .none, [0], .no, [0], [0, 2, 3, 4], .zero, true⟩
  | .btry => ⟨4, 1, 3, .rr, (.dst .s), (.src .b), .none, .none, [0], .no, [0], [0, 2, 3, 4], .zero, true⟩
  | .put => ⟨4, 2, 0, .rr, (.src .s), (.src .s), (.src .s), .hops, [0], .no, [0], [0], .zero, true⟩
  | .puts => ⟨4, 2, 1, .rr, (.src .s), (.src .s), (.src .s), .hops, [0], .no, [0], [0], .zero, true⟩
  | .get => ⟨4, 2, 2, .rr, (.src .s), (.src .s), (.src .s), .hops, [0], .no, [0], [0], .zero, true⟩
  | .rput => ⟨4, 2, 3, .rr, (.src .s), (.src .s), (.src .s), .hops, [0], .no, [0], [0], .zero, true⟩
  | .strm => ⟨4, 2, 4, .rr, .none, (.src .s), .none, .none, [0], .no, [0], [0], .zero, true⟩
  | .strmw => ⟨4, 2, 5, .rr, .none, (.src .s), .none, .none, [0], .no, [0], [0], .zero, true⟩
  | .slot => ⟨4, 2, 6, .rr, (.dst .s), .none, .none, .stream, [0], .no, [0], [0], .zero, true⟩
  | .slotAck => ⟨4, 2, 6, .rr, (.dst .s), .none, .none, .stream, [0], .no, [1], [0], .zero, true⟩
  | .slotEnd => ⟨4, 2, 6, .rr, (.dst .s), .none, .none, .stream, [0], .no, [2], [0], .zero, true⟩
  | .cpwait => ⟨4, 2, 7, .rr, (.dst .s), .none, .none, .none, [0], .no, [0], [0], .zero, true⟩
  | .lkpop => ⟨4, 3, 0, .rr, (.dst .s), (.src .s), .none, .none, [0], .no, [0], [0], .zero, true⟩
  | .lkpopSet => ⟨4, 3, 0, .rr, (.dst .s), (.src .s), (.src .s), .none, [0], .no, [1], [0], .zero, true⟩
  | .fence => ⟨4, 3, 1, .rr, (.dst .s), .none, .none, .none, [0], .no, [0, 1, 2], [0, 1, 2, 3, 4, 5], .any, false⟩
  | .fencex => ⟨4, 3, 2, .rr, (.dst .s), .none, .none, .none, [0], .no, [0, 1, 2], [0, 1, 2, 3, 4, 5], .two, false⟩
  | .pksc => ⟨5, 0, 0, .rr, .none, (.src .s), (.src .s), .none, [0, 9, 10], .yes, [0, 1], [0], .zero, true⟩
  | .pksel => ⟨5, 0, 1, .rr, .none, (.src .s), (.src .s), .none, [0], .no, [0], [0], .zero, true⟩
  | .pkgth => ⟨5, 0, 2, .rr, .none, (.src .s), (.src .s), .none, [0], .yes, [0], [0], .zero, true⟩
  | .pksct => ⟨5, 0, 3, .rr, .none, (.src .s), (.src .s), .none, [0, 9, 10], .yes, [0], [0], .zero, true⟩
  | .edins => ⟨5, 1, 0, .rr, (.dst .s), (.src .s), (.src .s), .none, [0], .no, [0], [0], .zero, true⟩
  | .eddel => ⟨5, 1, 1, .rr, (.dst .s), (.src .s), (.src .s), .none, [0], .no, [0], [0], .zero, true⟩
  | .edchg => ⟨5, 1, 2, .rr, (.dst .s), (.src .s), (.src .s), .none, [0], .no, [0], [0], .zero, true⟩
  | .edmap => ⟨5, 1, 3, .rr, (.both .s), (.src .s), (.src .s), .none, [0], .no, [0], [0], .zero, true⟩
  | .ctxdone => ⟨5, 1, 4, .rr, (.both .s), (.src .s), (.src .s), .none, [0], .no, [0], [0], .zero, true⟩
  | .vldvAt => ⟨5, 1, 5, .rr, (.dst .v), (.src .s), (.src .s), .none, allTypes, .yes, [0], [0], .zero, true⟩
  | .vldvCur => ⟨5, 1, 6, .rr, (.dst .v), (.src .s), (.dst .p), .none, allTypes, .yes, [0], [0], .zero, true⟩
  | .settle => ⟨5, 1, 7, .rr, (.src .s), (.src .s), (.src .s), .none, [0], .no, [0], [0], .zero, true⟩
  | .reclaim => ⟨5, 2, 0, .rr, (.dst .s), (.src .s), (.src .s), .none, [0], .no, [0], [0], .zero, true⟩
  | .reclaimBind => ⟨5, 2, 0, .rr, (.dst .s), (.src .s), .none, .none, [0], .no, [1], [0], .zero, true⟩
  | .reclaimUnbind => ⟨5, 2, 0, .rr, (.dst .s), (.src .s), .none, .none, [0], .no, [2], [0], .zero, true⟩
  | .trap => ⟨6, 0, 0, .rr, .none, .none, .none, .service, [0], .no, [0], [0], .zero, false⟩
  | .eret => ⟨6, 0, 1, .rr, .none, .none, .none, .none, [0], .no, [0], [0], .zero, false⟩
  | .tlbi => ⟨6, 0, 2, .rr, .none, .none, .none, .none, [0], .no, [0], [0, 1, 2, 3, 4], .zero, false⟩
  | .tlbiVa => ⟨6, 0, 2, .rr, .none, (.src .s), .none, .none, [0], .no, [1], [0, 1, 2, 3, 4], .zero, false⟩
  | .idle => ⟨6, 0, 3, .rr, (.dst .s), .none, .none, .none, [0], .no, [0], [0], .zero, false⟩
  | .wsw => ⟨6, 0, 4, .rr, .none, .none, .none, .service, [0], .no, [0], [0], .zero, false⟩
  | .mcack => ⟨6, 0, 5, .rr, .none, (.src .s), .none, .none, [0], .no, [0], [0], .zero, false⟩
  | .pdrnSave => ⟨6, 1, 0, .rr, (.dst .s), (.src .s), (.src .s), .none, [0], .no, [0], [0], .zero, false⟩
  | .pdrnKill => ⟨6, 1, 0, .rr, (.dst .s), (.src .s), .none, .none, [0], .no, [1], [0], .zero, false⟩
  | .pdrnRun => ⟨6, 1, 0, .rr, (.dst .s), (.src .s), .none, .none, [0], .no, [2], [0], .zero, false⟩
  | .prst => ⟨6, 1, 1, .rr, .none, (.src .s), .none, .none, [0], .no, [0], [0], .zero, false⟩
  | .ctxsv => ⟨6, 1, 2, .rr, (.dst .s), (.src .s), (.src .s), .none, [0], .no, [0], [0], .zero, false⟩
  | .ctxsvMem => ⟨6, 1, 2, .rr, (.dst .s), (.src .s), (.src .s), .none, [0], .no, [1], [0], .zero, false⟩
  | .ctxrs => ⟨6, 1, 3, .rr, (.dst .s), (.src .s), .none, .none, [0], .no, [0], [0], .zero, false⟩

/-- The instruction that a cell and its fields stand for. -/
def mk (op : Op) (o : Opnds) : Instr :=
  match op with
  | .add => .add o.d o.a o.b
  | .sub => .sub o.d o.a o.b
  | .and => .and o.d o.a (srcOf o.imm o.b)
  | .or => .or o.d o.a (srcOf o.imm o.b)
  | .xor => .xor o.d o.a (srcOf o.imm o.b)
  | .andn => .andn o.d o.a o.b
  | .mov => .mov o.d o.a
  | .min => .min o.d o.a o.b
  | .max => .max o.d o.a o.b
  | .minu => .minu o.d o.a o.b
  | .maxu => .maxu o.d o.a o.b
  | .shl => .shl o.d o.a (srcOf o.imm o.b)
  | .shr => .shr o.d o.a (srcOf o.imm o.b)
  | .sar => .sar o.d o.a (srcOf o.imm o.b)
  | .rol => .rol o.d o.a (srcOf o.imm o.b)
  | .mul => .mul o.d o.a (srcOf o.imm o.b)
  | .mulh => .mulh o.d o.a o.b
  | .mulhu => .mulhu o.d o.a o.b
  | .div => .div o.d o.a o.b
  | .divu => .divu o.d o.a o.b
  | .rem => .rem o.d o.a o.b
  | .remu => .remu o.d o.a o.b
  | .sel => .sel o.d o.a o.b
  | .seq => .seq o.d o.a (srcOf o.imm o.b)
  | .sne => .sne o.d o.a (srcOf o.imm o.b)
  | .slt => .slt o.d o.a (srcOf o.imm o.b)
  | .sltu => .sltu o.d o.a (srcOf o.imm o.b)
  | .sle => .sle o.d o.a (srcOf o.imm o.b)
  | .sleu => .sleu o.d o.a (srcOf o.imm o.b)
  | .clz => .clz o.d o.a
  | .ctz => .ctz o.d o.a
  | .popc => .popc o.d o.a
  | .pgtag => .pgtag o.d o.a
  | .sextB => .sextB o.d o.a
  | .sextH => .sextH o.d o.a
  | .sextW => .sextW o.d o.a
  | .zextB => .zextB o.d o.a
  | .zextH => .zextH o.d o.a
  | .zextW => .zextW o.d o.a
  | .padd => .padd o.d o.a (srcOf o.imm o.b)
  | .ptag => .ptag o.d o.a (srcOf o.imm o.b)
  | .shadd0 => .shadd (0) o.d o.a o.b
  | .shadd1 => .shadd (1) o.d o.a o.b
  | .shadd2 => .shadd (2) o.d o.a o.b
  | .shadd3 => .shadd (3) o.d o.a o.b
  | .shadd4 => .shadd (4) o.d o.a o.b
  | .shadd5 => .shadd (5) o.d o.a o.b
  | .shadd6 => .shadd (6) o.d o.a o.b
  | .shadd7 => .shadd (7) o.d o.a o.b
  | .bext => .bext o.d o.a ((o.imm.getD 0).toNat % 64) ((o.imm.getD 0).toNat / 64)
  | .bins => .bins o.d o.a ((o.imm.getD 0).toNat % 64) ((o.imm.getD 0).toNat / 64)
  | .jr => .jr o.a
  | .jtab => .jtab o.a o.b
  | .addi => .addi o.d (o.imm.getD 0)
  | .li => .li o.d (o.imm.getD 0)
  | .csrr => .csrr o.d (o.imm.getD 0).toNat
  | .csrw => .csrw o.d (o.imm.getD 0).toNat
  | .b => .b (o.imm.getD 0)
  | .bpr => .bpr (o.imm.getD 0)
  | .beqz => .beqz o.a (o.imm.getD 0)
  | .bnez => .bnez o.a (o.imm.getD 0)
  | .bltz => .bltz o.a (o.imm.getD 0)
  | .bgez => .bgez o.a (o.imm.getD 0)
  | .beq => .beq o.a o.b (o.imm.getD 0)
  | .bne => .bne o.a o.b (o.imm.getD 0)
  | .blt => .blt o.a o.b (o.imm.getD 0)
  | .bltu => .bltu o.a o.b (o.imm.getD 0)
  | .ld => .ld ⟨o.la, o.hint⟩ (Ty.ofCode o.ty) o.rm o.d o.a (o.imm.getD 0)
  | .st => .st ⟨o.la, o.hint⟩ (Ty.ofCode o.ty) o.rm o.d o.a (o.imm.getD 0)
  | .ldx => .ldx ⟨o.la, o.hint⟩ (Ty.ofCode o.ty) o.rm o.d o.a o.b
  | .stx => .stx ⟨o.la, o.hint⟩ (Ty.ofCode o.ty) o.rm o.d o.a o.b
  | .ldf => .ldf ⟨o.la, o.hint⟩ o.d o.a (o.imm.getD 0)
  | .stf => .stf ⟨o.la, o.hint⟩ o.d o.a (o.imm.getD 0)
  | .stfE => .stfE ⟨o.la, o.hint⟩ o.d o.a (o.imm.getD 0)
  | .park => .park ⟨o.la, o.hint⟩ o.a (o.imm.getD 0)
  | .parkZ => .parkZ ⟨o.la, o.hint⟩ o.a (o.imm.getD 0)
  | .aadd => .aadd ⟨o.la, o.hint⟩ (Ty.ofCode o.ty) o.d o.a o.b
  | .amin => .amin ⟨o.la, o.hint⟩ (Ty.ofCode o.ty) o.d o.a o.b
  | .amax => .amax ⟨o.la, o.hint⟩ (Ty.ofCode o.ty) o.d o.a o.b
  | .aand => .aand ⟨o.la, o.hint⟩ (Ty.ofCode o.ty) o.d o.a o.b
  | .aor => .aor ⟨o.la, o.hint⟩ (Ty.ofCode o.ty) o.d o.a o.b
  | .axor => .axor ⟨o.la, o.hint⟩ (Ty.ofCode o.ty) o.d o.a o.b
  | .aswap => .aswap ⟨o.la, o.hint⟩ (Ty.ofCode o.ty) o.d o.a o.b
  | .acas => .acas ⟨o.la, o.hint⟩ (Ty.ofCode o.ty) o.d o.a o.b
  | .afadd => .afadd ⟨o.la, o.hint⟩ (Ty.ofCode o.ty) o.rm o.d o.a o.b (o.imm.getD 0)
  | .bankop => .bankop ⟨o.la, o.hint⟩ (Ty.ofCode o.ty) (BankFn.ofCode o.mode) o.d o.a o.b
  | .tagst => .tagst ⟨o.la, o.hint⟩ o.d o.a o.b
  | .tagstZ => .tagstZ ⟨o.la, o.hint⟩ o.d o.a o.b
  | .tagld => .tagld ⟨o.la, o.hint⟩ o.d o.a
  | .dcwb => .dcwb ⟨o.la, o.hint⟩ o.d o.a
  | .dcinv => .dcinv ⟨o.la, o.hint⟩ o.d o.a
  | .pref => .pref ⟨o.la, o.hint⟩ o.a (o.imm.getD 0)
  | .vld => .vld ⟨o.la, o.hint⟩ (Ty.ofCode o.ty) o.rm (govOf o.mode) o.d o.a (o.imm.getD 0)
  | .vst => .vst ⟨o.la, o.hint⟩ (Ty.ofCode o.ty) o.rm (govOf o.mode) o.d o.a (o.imm.getD 0)
  | .vldx => .vldx ⟨o.la, o.hint⟩ (Ty.ofCode o.ty) o.rm (govOf o.mode) o.d o.a o.b
  | .vstx => .vstx ⟨o.la, o.hint⟩ (Ty.ofCode o.ty) o.rm (govOf o.mode) o.d o.a o.b
  | .vbc => .vbc ⟨o.la, o.hint⟩ (Ty.ofCode o.ty) (govOf o.mode) o.d o.a
  | .vmovs => .vmovs ⟨o.la, o.hint⟩ (Ty.ofCode o.ty) o.d o.a (o.imm.getD 0)
  | .vadd => .vadd ⟨o.la, o.hint⟩ (Ty.ofCode o.ty) o.rm (govOf o.mode) o.d o.a o.b
  | .vsub => .vsub ⟨o.la, o.hint⟩ (Ty.ofCode o.ty) o.rm (govOf o.mode) o.d o.a o.b
  | .vmul => .vmul ⟨o.la, o.hint⟩ (Ty.ofCode o.ty) o.rm (govOf o.mode) o.d o.a o.b
  | .vfma => .vfma ⟨o.la, o.hint⟩ (Ty.ofCode o.ty) o.rm (govOf o.mode) o.d o.a o.b
  | .vmin => .vmin ⟨o.la, o.hint⟩ (Ty.ofCode o.ty) (govOf o.mode) o.d o.a o.b
  | .vmax => .vmax ⟨o.la, o.hint⟩ (Ty.ofCode o.ty) (govOf o.mode) o.d o.a o.b
  | .vabs => .vabs ⟨o.la, o.hint⟩ (Ty.ofCode o.ty) (govOf o.mode) o.d o.a
  | .vneg => .vneg ⟨o.la, o.hint⟩ (Ty.ofCode o.ty) (govOf o.mode) o.d o.a
  | .vand => .vand ⟨o.la, o.hint⟩ (Ty.ofCode o.ty) (govOf o.mode) o.d o.a o.b
  | .vor => .vor ⟨o.la, o.hint⟩ (Ty.ofCode o.ty) (govOf o.mode) o.d o.a o.b
  | .vxor => .vxor ⟨o.la, o.hint⟩ (Ty.ofCode o.ty) (govOf o.mode) o.d o.a o.b
  | .vshl => .vshl ⟨o.la, o.hint⟩ (Ty.ofCode o.ty) (govOf o.mode) o.d o.a (srcOf o.imm o.b)
  | .vshr => .vshr ⟨o.la, o.hint⟩ (Ty.ofCode o.ty) (govOf o.mode) o.d o.a (srcOf o.imm o.b)
  | .vsar => .vsar ⟨o.la, o.hint⟩ (Ty.ofCode o.ty) (govOf o.mode) o.d o.a (srcOf o.imm o.b)
  | .vcmp => .vcmp ⟨o.la, o.hint⟩ (Ty.ofCode o.ty) (CmpRel.ofCode o.mode) o.d o.a o.b
  | .vsel => .vsel ⟨o.la, o.hint⟩ (Ty.ofCode o.ty) (govOf o.mode) o.d o.a o.b
  | .vcvt => .vcvt ⟨o.la, o.hint⟩ (Ty.ofCode o.ty) (Ty.ofCode o.mode) o.rm o.d o.a
  | .vqnt => .vqnt ⟨o.la, o.hint⟩ (Ty.ofCode o.ty) (o.mode == 1) o.d o.a o.b
  | .vdq => .vdq ⟨o.la, o.hint⟩ (Ty.ofCode o.ty) o.rm (o.mode) o.d o.a o.b
  | .vrsum => .vrsum ⟨o.la, o.hint⟩ (Ty.ofCode o.ty) o.rm (govOf o.mode) o.d o.a
  | .vrmax => .vrmax ⟨o.la, o.hint⟩ (Ty.ofCode o.ty) (govOf o.mode) o.d o.a
  | .vrmin => .vrmin ⟨o.la, o.hint⟩ (Ty.ofCode o.ty) (govOf o.mode) o.d o.a
  | .vscan => .vscan ⟨o.la, o.hint⟩ (Ty.ofCode o.ty) o.rm (govOf o.mode) o.d o.a
  | .vtopk => .vtopk ⟨o.la, o.hint⟩ (Ty.ofCode o.ty) (govOf o.mode) o.d o.a (o.imm.getD 0)
  | .vexp2 => .vexp2 ⟨o.la, o.hint⟩ (Ty.ofCode o.ty) o.rm (govOf o.mode) o.d o.a
  | .vlog2 => .vlog2 ⟨o.la, o.hint⟩ (Ty.ofCode o.ty) o.rm (govOf o.mode) o.d o.a
  | .vrcp => .vrcp ⟨o.la, o.hint⟩ (Ty.ofCode o.ty) o.rm (govOf o.mode) o.d o.a
  | .vrsq => .vrsq ⟨o.la, o.hint⟩ (Ty.ofCode o.ty) o.rm (govOf o.mode) o.d o.a
  | .vperm => .vperm ⟨o.la, o.hint⟩ (Ty.ofCode o.ty) (govOf o.mode) o.d o.a o.b
  | .baddq => .baddq ⟨o.la, o.hint⟩ (Ty.ofCode o.ty) o.d o.a o.b
  | .pand => .pand ⟨o.la, o.hint⟩ o.d o.a o.b
  | .por => .por ⟨o.la, o.hint⟩ o.d o.a o.b
  | .pnot => .pnot ⟨o.la, o.hint⟩ o.d o.a
  | .pset => .pset ⟨o.la, o.hint⟩ (Ty.ofCode o.ty) o.d (srcOf o.imm o.a)
  | .tview => .tview ⟨o.la, o.hint⟩ o.d o.a (o.imm.getD 0)
  | .tvset => .tvset ⟨o.la, o.hint⟩ (o.mode) o.d o.a
  | .tforce => .tforce ⟨o.la, o.hint⟩ o.a
  | .tforceAll => .tforceAll ⟨o.la, o.hint⟩
  | .tstore => .tstore ⟨o.la, o.hint⟩ o.rm o.d o.a
  | .tdrop => .tdrop ⟨o.la, o.hint⟩ o.a
  | .tdropAll => .tdropAll ⟨o.la, o.hint⟩
  | .tstat => .tstat ⟨o.la, o.hint⟩ o.d
  | .acq => .acq ⟨o.la, o.hint⟩ o.d (srcOf o.imm o.a)
  | .arel => .arel ⟨o.la, o.hint⟩ o.a
  | .tmul => .tmul ⟨o.la, o.hint⟩ o.rm (o.mode == 1) o.d o.a o.b
  | .tmulg => .tmulg ⟨o.la, o.hint⟩ o.rm (o.mode == 1) o.d o.a o.b
  | .tmula => .tmula ⟨o.la, o.hint⟩ o.d o.a o.b
  | .tadd => .tadd ⟨o.la, o.hint⟩ o.rm (o.mode == 1) o.d o.a o.b (o.imm.getD 0)
  | .tsub => .tsub ⟨o.la, o.hint⟩ o.rm (o.mode == 1) o.d o.a o.b (o.imm.getD 0)
  | .tmule => .tmule ⟨o.la, o.hint⟩ o.rm (o.mode == 1) o.d o.a o.b (o.imm.getD 0)
  | .tscl => .tscl ⟨o.la, o.hint⟩ o.rm (o.mode == 1) o.d o.a o.b
  | .tbias => .tbias ⟨o.la, o.hint⟩ o.rm (o.mode == 1) o.d o.a o.b
  | .tact => .tact ⟨o.la, o.hint⟩ o.rm (ActFn.ofCode o.mode) o.d o.a
  | .texp => .texp ⟨o.la, o.hint⟩ o.rm (o.mode % 2 == 1) o.d o.a (none)
  | .texpSub => .texp ⟨o.la, o.hint⟩ o.rm (o.mode % 2 == 1) o.d o.a (some o.b)
  | .trmax => .trmax ⟨o.la, o.hint⟩ o.rm o.d o.a
  | .trsum => .trsum ⟨o.la, o.hint⟩ o.rm o.d o.a
  | .tdivr => .tdivr ⟨o.la, o.hint⟩ o.rm o.d o.a o.b
  | .tmask => .tmask ⟨o.la, o.hint⟩ o.rm (o.mode == 1) o.d o.a (o.imm.getD 0)
  | .trot => .trot ⟨o.la, o.hint⟩ o.rm (o.mode == 1) o.d o.a o.b o.imm
  | .tqnt => .tqnt ⟨o.la, o.hint⟩ o.d o.a
  | .tcopy => .tcopy ⟨o.la, o.hint⟩ o.rm o.d o.a (o.imm.getD 0)
  | .ttrn => .ttrn ⟨o.la, o.hint⟩ o.rm o.d o.a
  | .tscan => .tscan ⟨o.la, o.hint⟩ o.rm o.d o.a
  | .spawn => .spawn ⟨o.la, o.hint⟩ o.a (srcOf o.imm o.b)
  | .endBead => .endBead ⟨o.la, o.hint⟩ o.a
  | .yield => .yield ⟨o.la, o.hint⟩
  | .launch => .launch ⟨o.la, o.hint⟩ o.a o.b
  | .barcfg => .barcfg ⟨o.la, o.hint⟩ o.d o.a
  | .arrive => .arrive ⟨o.la, o.hint⟩ (Scope.ofCode o.sc) (PathMask.ofCode o.pm) o.d
  | .bwait => .bwait ⟨o.la, o.hint⟩ (Scope.ofCode o.sc) o.d
  | .btry => .btry ⟨o.la, o.hint⟩ (Scope.ofCode o.sc) o.d o.a
  | .put => .put ⟨o.la, o.hint⟩ o.d o.a o.b (hopX o.imm) (hopY o.imm)
  | .puts => .puts ⟨o.la, o.hint⟩ o.d o.a o.b (hopX o.imm) (hopY o.imm)
  | .get => .get ⟨o.la, o.hint⟩ o.d o.a o.b (hopX o.imm) (hopY o.imm)
  | .rput => .rput ⟨o.la, o.hint⟩ o.d o.a o.b (hopX o.imm) (hopY o.imm)
  | .strm => .strm ⟨o.la, o.hint⟩ o.a
  | .strmw => .strmw ⟨o.la, o.hint⟩ o.a
  | .slot => .slot ⟨o.la, o.hint⟩ o.d (o.imm.getD 0).toNat
  | .slotAck => .slotAck ⟨o.la, o.hint⟩ (o.imm.getD 0).toNat
  | .slotEnd => .slotEnd ⟨o.la, o.hint⟩ o.d (o.imm.getD 0).toNat
  | .cpwait => .cpwait ⟨o.la, o.hint⟩ o.d
  | .lkpop => .lkpop ⟨o.la, o.hint⟩ o.d o.a
  | .lkpopSet => .lkpopSet ⟨o.la, o.hint⟩ o.d o.a o.b
  | .fence => .fence ⟨o.la, o.hint⟩ (Scope.ofCode o.sc) (PathMask.ofCode o.pm) (FenceMode.ofCode o.mode) o.d
  | .fencex => .fencex ⟨o.la, o.hint⟩ (Scope.ofCode o.sc) (PathMask.ofCode o.pm) (FenceMode.ofCode o.mode) o.d
  | .pksc => .pksc ⟨o.la, o.hint⟩ (Ty.ofCode o.ty) o.rm (o.mode == 1) o.a o.b
  | .pksel => .pksel ⟨o.la, o.hint⟩ o.a o.b
  | .pkgth => .pkgth ⟨o.la, o.hint⟩ o.rm o.a o.b
  | .pksct => .pksct ⟨o.la, o.hint⟩ (Ty.ofCode o.ty) o.rm o.a o.b
  | .edins => .edins ⟨o.la, o.hint⟩ o.d o.a o.b
  | .eddel => .eddel ⟨o.la, o.hint⟩ o.d o.a o.b
  | .edchg => .edchg ⟨o.la, o.hint⟩ o.d o.a o.b
  | .edmap => .edmap ⟨o.la, o.hint⟩ o.d o.a o.b
  | .ctxdone => .ctxdone ⟨o.la, o.hint⟩ o.d o.a o.b
  | .vldvAt => .vldvAt ⟨o.la, o.hint⟩ (Ty.ofCode o.ty) o.rm o.d o.a o.b
  | .vldvCur => .vldvCur ⟨o.la, o.hint⟩ (Ty.ofCode o.ty) o.rm o.d o.a o.b
  | .settle => .settle ⟨o.la, o.hint⟩ o.d o.a o.b
  | .reclaim => .reclaim ⟨o.la, o.hint⟩ o.d o.a o.b
  | .reclaimBind => .reclaimBind ⟨o.la, o.hint⟩ o.d o.a
  | .reclaimUnbind => .reclaimUnbind ⟨o.la, o.hint⟩ o.d o.a
  | .trap => .trap ⟨o.la, o.hint⟩ (o.imm.getD 0).toNat
  | .eret => .eret ⟨o.la, o.hint⟩
  | .tlbi => .tlbi ⟨o.la, o.hint⟩ (Scope.ofCode o.sc)
  | .tlbiVa => .tlbiVa ⟨o.la, o.hint⟩ (Scope.ofCode o.sc) o.a
  | .idle => .idle ⟨o.la, o.hint⟩ o.d
  | .wsw => .wsw ⟨o.la, o.hint⟩ (o.imm.getD 0).toNat
  | .mcack => .mcack ⟨o.la, o.hint⟩ o.a
  | .pdrnSave => .pdrnSave ⟨o.la, o.hint⟩ o.d o.a o.b
  | .pdrnKill => .pdrnKill ⟨o.la, o.hint⟩ o.d o.a
  | .pdrnRun => .pdrnRun ⟨o.la, o.hint⟩ o.d o.a
  | .prst => .prst ⟨o.la, o.hint⟩ o.a
  | .ctxsv => .ctxsv ⟨o.la, o.hint⟩ o.d o.a o.b (false)
  | .ctxsvMem => .ctxsv ⟨o.la, o.hint⟩ o.d o.a o.b (true)
  | .ctxrs => .ctxrs ⟨o.la, o.hint⟩ o.d o.a

/-- The cell and the fields of an instruction; a device step has none. -/
def parts : Instr → Option (Op × Opnds)
  | .add d a b => some (.add, { d := d, a := a, b := b })
  | .sub d a b => some (.sub, { d := d, a := a, b := b })
  | .and d a src => some (.and, { d := d, a := a, b := src.reg0, imm := src.imm? })
  | .or d a src => some (.or, { d := d, a := a, b := src.reg0, imm := src.imm? })
  | .xor d a src => some (.xor, { d := d, a := a, b := src.reg0, imm := src.imm? })
  | .andn d a b => some (.andn, { d := d, a := a, b := b })
  | .mov d a => some (.mov, { d := d, a := a })
  | .min d a b => some (.min, { d := d, a := a, b := b })
  | .max d a b => some (.max, { d := d, a := a, b := b })
  | .minu d a b => some (.minu, { d := d, a := a, b := b })
  | .maxu d a b => some (.maxu, { d := d, a := a, b := b })
  | .shl d a src => some (.shl, { d := d, a := a, b := src.reg0, imm := src.imm? })
  | .shr d a src => some (.shr, { d := d, a := a, b := src.reg0, imm := src.imm? })
  | .sar d a src => some (.sar, { d := d, a := a, b := src.reg0, imm := src.imm? })
  | .rol d a src => some (.rol, { d := d, a := a, b := src.reg0, imm := src.imm? })
  | .mul d a src => some (.mul, { d := d, a := a, b := src.reg0, imm := src.imm? })
  | .mulh d a b => some (.mulh, { d := d, a := a, b := b })
  | .mulhu d a b => some (.mulhu, { d := d, a := a, b := b })
  | .div d a b => some (.div, { d := d, a := a, b := b })
  | .divu d a b => some (.divu, { d := d, a := a, b := b })
  | .rem d a b => some (.rem, { d := d, a := a, b := b })
  | .remu d a b => some (.remu, { d := d, a := a, b := b })
  | .sel d a b => some (.sel, { d := d, a := a, b := b })
  | .seq d a src => some (.seq, { d := d, a := a, b := src.reg0, imm := src.imm? })
  | .sne d a src => some (.sne, { d := d, a := a, b := src.reg0, imm := src.imm? })
  | .slt d a src => some (.slt, { d := d, a := a, b := src.reg0, imm := src.imm? })
  | .sltu d a src => some (.sltu, { d := d, a := a, b := src.reg0, imm := src.imm? })
  | .sle d a src => some (.sle, { d := d, a := a, b := src.reg0, imm := src.imm? })
  | .sleu d a src => some (.sleu, { d := d, a := a, b := src.reg0, imm := src.imm? })
  | .clz d a => some (.clz, { d := d, a := a })
  | .ctz d a => some (.ctz, { d := d, a := a })
  | .popc d a => some (.popc, { d := d, a := a })
  | .pgtag d a => some (.pgtag, { d := d, a := a })
  | .sextB d a => some (.sextB, { d := d, a := a })
  | .sextH d a => some (.sextH, { d := d, a := a })
  | .sextW d a => some (.sextW, { d := d, a := a })
  | .zextB d a => some (.zextB, { d := d, a := a })
  | .zextH d a => some (.zextH, { d := d, a := a })
  | .zextW d a => some (.zextW, { d := d, a := a })
  | .padd d a src => some (.padd, { d := d, a := a, b := src.reg0, imm := src.imm? })
  | .ptag d a src => some (.ptag, { d := d, a := a, b := src.reg0, imm := src.imm? })
  | .shadd k d a b => some (Op.shadd k, { d := d, a := a, b := b })
  | .bext d a pos len => some (.bext, { d := d, a := a, imm := some ((len * 64 + pos : Nat) : Int) })
  | .bins d a pos len => some (.bins, { d := d, a := a, imm := some ((len * 64 + pos : Nat) : Int) })
  | .jr a => some (.jr, { a := a })
  | .jtab a b => some (.jtab, { a := a, b := b })
  | .addi d imm => some (.addi, { d := d, imm := some imm })
  | .li d imm => some (.li, { d := d, imm := some imm })
  | .csrr d immn => some (.csrr, { d := d, imm := some (immn : Int) })
  | .csrw d immn => some (.csrw, { d := d, imm := some (immn : Int) })
  | .b imm => some (.b, { imm := some imm })
  | .bpr imm => some (.bpr, { imm := some imm })
  | .beqz a imm => some (.beqz, { a := a, imm := some imm })
  | .bnez a imm => some (.bnez, { a := a, imm := some imm })
  | .bltz a imm => some (.bltz, { a := a, imm := some imm })
  | .bgez a imm => some (.bgez, { a := a, imm := some imm })
  | .beq a b imm => some (.beq, { a := a, b := b, imm := some imm })
  | .bne a b imm => some (.bne, { a := a, b := b, imm := some imm })
  | .blt a b imm => some (.blt, { a := a, b := b, imm := some imm })
  | .bltu a b imm => some (.bltu, { a := a, b := b, imm := some imm })
  | .ld pfx ty rm d a off => some (.ld, { d := d, a := a, imm := immOf off, ty := ty.toCode, rm := rm, la := pfx.la, hint := pfx.hint })
  | .st pfx ty rm d a off => some (.st, { d := d, a := a, imm := immOf off, ty := ty.toCode, rm := rm, la := pfx.la, hint := pfx.hint })
  | .ldx pfx ty rm d a b => some (.ldx, { d := d, a := a, b := b, ty := ty.toCode, rm := rm, la := pfx.la, hint := pfx.hint })
  | .stx pfx ty rm d a b => some (.stx, { d := d, a := a, b := b, ty := ty.toCode, rm := rm, la := pfx.la, hint := pfx.hint })
  | .ldf pfx d a off => some (.ldf, { d := d, a := a, imm := immOf off, la := pfx.la, hint := pfx.hint })
  | .stf pfx d a off => some (.stf, { d := d, a := a, imm := immOf off, la := pfx.la, hint := pfx.hint })
  | .stfE pfx d a off => some (.stfE, { d := d, a := a, imm := immOf off, mode := 1, la := pfx.la, hint := pfx.hint })
  | .park pfx a off => some (.park, { a := a, imm := immOf off, la := pfx.la, hint := pfx.hint })
  | .parkZ pfx a off => some (.parkZ, { a := a, imm := immOf off, mode := 1, la := pfx.la, hint := pfx.hint })
  | .aadd pfx ty d a b => some (.aadd, { d := d, a := a, b := b, ty := ty.toCode, la := pfx.la, hint := pfx.hint })
  | .amin pfx ty d a b => some (.amin, { d := d, a := a, b := b, ty := ty.toCode, la := pfx.la, hint := pfx.hint })
  | .amax pfx ty d a b => some (.amax, { d := d, a := a, b := b, ty := ty.toCode, la := pfx.la, hint := pfx.hint })
  | .aand pfx ty d a b => some (.aand, { d := d, a := a, b := b, ty := ty.toCode, la := pfx.la, hint := pfx.hint })
  | .aor pfx ty d a b => some (.aor, { d := d, a := a, b := b, ty := ty.toCode, la := pfx.la, hint := pfx.hint })
  | .axor pfx ty d a b => some (.axor, { d := d, a := a, b := b, ty := ty.toCode, la := pfx.la, hint := pfx.hint })
  | .aswap pfx ty d a b => some (.aswap, { d := d, a := a, b := b, ty := ty.toCode, la := pfx.la, hint := pfx.hint })
  | .acas pfx ty d a b => some (.acas, { d := d, a := a, b := b, ty := ty.toCode, la := pfx.la, hint := pfx.hint })
  | .afadd pfx ty rm d a b off => some (.afadd, { d := d, a := a, b := b, imm := immOf off, ty := ty.toCode, rm := rm, la := pfx.la, hint := pfx.hint })
  | .bankop pfx ty fn d a b => some (.bankop, { d := d, a := a, b := b, ty := ty.toCode, mode := fn.toCode, la := pfx.la, hint := pfx.hint })
  | .tagst pfx d a b => some (.tagst, { d := d, a := a, b := b, la := pfx.la, hint := pfx.hint })
  | .tagstZ pfx d a b => some (.tagstZ, { d := d, a := a, b := b, mode := 1, la := pfx.la, hint := pfx.hint })
  | .tagld pfx d a => some (.tagld, { d := d, a := a, la := pfx.la, hint := pfx.hint })
  | .dcwb pfx d a => some (.dcwb, { d := d, a := a, la := pfx.la, hint := pfx.hint })
  | .dcinv pfx d a => some (.dcinv, { d := d, a := a, la := pfx.la, hint := pfx.hint })
  | .pref pfx a off => some (.pref, { a := a, imm := immOf off, la := pfx.la, hint := pfx.hint })
  | .vld pfx ty rm gov d a off => some (.vld, { d := d, a := a, imm := immOf off, ty := ty.toCode, rm := rm, mode := govMode gov, la := pfx.la, hint := pfx.hint })
  | .vst pfx ty rm gov d a off => some (.vst, { d := d, a := a, imm := immOf off, ty := ty.toCode, rm := rm, mode := govMode gov, la := pfx.la, hint := pfx.hint })
  | .vldx pfx ty rm gov d a b => some (.vldx, { d := d, a := a, b := b, ty := ty.toCode, rm := rm, mode := govMode gov, la := pfx.la, hint := pfx.hint })
  | .vstx pfx ty rm gov d a b => some (.vstx, { d := d, a := a, b := b, ty := ty.toCode, rm := rm, mode := govMode gov, la := pfx.la, hint := pfx.hint })
  | .vbc pfx ty gov d a => some (.vbc, { d := d, a := a, ty := ty.toCode, mode := govMode gov, la := pfx.la, hint := pfx.hint })
  | .vmovs pfx ty d a off => some (.vmovs, { d := d, a := a, imm := immOf off, ty := ty.toCode, la := pfx.la, hint := pfx.hint })
  | .vadd pfx ty rm gov d a b => some (.vadd, { d := d, a := a, b := b, ty := ty.toCode, rm := rm, mode := govMode gov, la := pfx.la, hint := pfx.hint })
  | .vsub pfx ty rm gov d a b => some (.vsub, { d := d, a := a, b := b, ty := ty.toCode, rm := rm, mode := govMode gov, la := pfx.la, hint := pfx.hint })
  | .vmul pfx ty rm gov d a b => some (.vmul, { d := d, a := a, b := b, ty := ty.toCode, rm := rm, mode := govMode gov, la := pfx.la, hint := pfx.hint })
  | .vfma pfx ty rm gov d a b => some (.vfma, { d := d, a := a, b := b, ty := ty.toCode, rm := rm, mode := govMode gov, la := pfx.la, hint := pfx.hint })
  | .vmin pfx ty gov d a b => some (.vmin, { d := d, a := a, b := b, ty := ty.toCode, mode := govMode gov, la := pfx.la, hint := pfx.hint })
  | .vmax pfx ty gov d a b => some (.vmax, { d := d, a := a, b := b, ty := ty.toCode, mode := govMode gov, la := pfx.la, hint := pfx.hint })
  | .vabs pfx ty gov d a => some (.vabs, { d := d, a := a, ty := ty.toCode, mode := govMode gov, la := pfx.la, hint := pfx.hint })
  | .vneg pfx ty gov d a => some (.vneg, { d := d, a := a, ty := ty.toCode, mode := govMode gov, la := pfx.la, hint := pfx.hint })
  | .vand pfx ty gov d a b => some (.vand, { d := d, a := a, b := b, ty := ty.toCode, mode := govMode gov, la := pfx.la, hint := pfx.hint })
  | .vor pfx ty gov d a b => some (.vor, { d := d, a := a, b := b, ty := ty.toCode, mode := govMode gov, la := pfx.la, hint := pfx.hint })
  | .vxor pfx ty gov d a b => some (.vxor, { d := d, a := a, b := b, ty := ty.toCode, mode := govMode gov, la := pfx.la, hint := pfx.hint })
  | .vshl pfx ty gov d a src => some (.vshl, { d := d, a := a, b := src.reg0, imm := src.imm?, ty := ty.toCode, mode := govMode gov, la := pfx.la, hint := pfx.hint })
  | .vshr pfx ty gov d a src => some (.vshr, { d := d, a := a, b := src.reg0, imm := src.imm?, ty := ty.toCode, mode := govMode gov, la := pfx.la, hint := pfx.hint })
  | .vsar pfx ty gov d a src => some (.vsar, { d := d, a := a, b := src.reg0, imm := src.imm?, ty := ty.toCode, mode := govMode gov, la := pfx.la, hint := pfx.hint })
  | .vcmp pfx ty rel d a b => some (.vcmp, { d := d, a := a, b := b, ty := ty.toCode, mode := rel.toCode, la := pfx.la, hint := pfx.hint })
  | .vsel pfx ty gov d a b => some (.vsel, { d := d, a := a, b := b, ty := ty.toCode, mode := govMode gov, la := pfx.la, hint := pfx.hint })
  | .vcvt pfx ty sty rm d a => some (.vcvt, { d := d, a := a, ty := ty.toCode, rm := rm, mode := sty.toCode, la := pfx.la, hint := pfx.hint })
  | .vqnt pfx ty fix d a b => some (.vqnt, { d := d, a := a, b := b, ty := ty.toCode, mode := fix.toNat, la := pfx.la, hint := pfx.hint })
  | .vdq pfx ty rm sel d a b => some (.vdq, { d := d, a := a, b := b, ty := ty.toCode, rm := rm, mode := sel, la := pfx.la, hint := pfx.hint })
  | .vrsum pfx ty rm gov d a => some (.vrsum, { d := d, a := a, ty := ty.toCode, rm := rm, mode := govMode gov, la := pfx.la, hint := pfx.hint })
  | .vrmax pfx ty gov d a => some (.vrmax, { d := d, a := a, ty := ty.toCode, mode := govMode gov, la := pfx.la, hint := pfx.hint })
  | .vrmin pfx ty gov d a => some (.vrmin, { d := d, a := a, ty := ty.toCode, mode := govMode gov, la := pfx.la, hint := pfx.hint })
  | .vscan pfx ty rm gov d a => some (.vscan, { d := d, a := a, ty := ty.toCode, rm := rm, mode := govMode gov, la := pfx.la, hint := pfx.hint })
  | .vtopk pfx ty gov d a off => some (.vtopk, { d := d, a := a, imm := immOf off, ty := ty.toCode, mode := govMode gov, la := pfx.la, hint := pfx.hint })
  | .vexp2 pfx ty rm gov d a => some (.vexp2, { d := d, a := a, ty := ty.toCode, rm := rm, mode := govMode gov, la := pfx.la, hint := pfx.hint })
  | .vlog2 pfx ty rm gov d a => some (.vlog2, { d := d, a := a, ty := ty.toCode, rm := rm, mode := govMode gov, la := pfx.la, hint := pfx.hint })
  | .vrcp pfx ty rm gov d a => some (.vrcp, { d := d, a := a, ty := ty.toCode, rm := rm, mode := govMode gov, la := pfx.la, hint := pfx.hint })
  | .vrsq pfx ty rm gov d a => some (.vrsq, { d := d, a := a, ty := ty.toCode, rm := rm, mode := govMode gov, la := pfx.la, hint := pfx.hint })
  | .vperm pfx ty gov d a b => some (.vperm, { d := d, a := a, b := b, ty := ty.toCode, mode := govMode gov, la := pfx.la, hint := pfx.hint })
  | .baddq pfx ty d a b => some (.baddq, { d := d, a := a, b := b, ty := ty.toCode, la := pfx.la, hint := pfx.hint })
  | .pand pfx d a b => some (.pand, { d := d, a := a, b := b, la := pfx.la, hint := pfx.hint })
  | .por pfx d a b => some (.por, { d := d, a := a, b := b, la := pfx.la, hint := pfx.hint })
  | .pnot pfx d a => some (.pnot, { d := d, a := a, la := pfx.la, hint := pfx.hint })
  | .pset pfx ty d srcA => some (.pset, { d := d, a := srcA.reg0, imm := srcA.imm?, ty := ty.toCode, la := pfx.la, hint := pfx.hint })
  | .tview pfx d a off => some (.tview, { d := d, a := a, imm := immOf off, la := pfx.la, hint := pfx.hint })
  | .tvset pfx word d a => some (.tvset, { d := d, a := a, mode := word, la := pfx.la, hint := pfx.hint })
  | .tforce pfx a => some (.tforce, { a := a, la := pfx.la, hint := pfx.hint })
  | .tforceAll pfx => some (.tforceAll, { mode := 1, la := pfx.la, hint := pfx.hint })
  | .tstore pfx rm d a => some (.tstore, { d := d, a := a, rm := rm, la := pfx.la, hint := pfx.hint })
  | .tdrop pfx a => some (.tdrop, { a := a, la := pfx.la, hint := pfx.hint })
  | .tdropAll pfx => some (.tdropAll, { mode := 1, la := pfx.la, hint := pfx.hint })
  | .tstat pfx d => some (.tstat, { d := d, la := pfx.la, hint := pfx.hint })
  | .acq pfx d srcA => some (.acq, { d := d, a := srcA.reg0, imm := srcA.imm?, la := pfx.la, hint := pfx.hint })
  | .arel pfx a => some (.arel, { a := a, la := pfx.la, hint := pfx.hint })
  | .tmul pfx rm relu d a b => some (.tmul, { d := d, a := a, b := b, rm := rm, mode := relu.toNat, la := pfx.la, hint := pfx.hint })
  | .tmulg pfx rm relu d a b => some (.tmulg, { d := d, a := a, b := b, rm := rm, mode := relu.toNat, la := pfx.la, hint := pfx.hint })
  | .tmula pfx d a b => some (.tmula, { d := d, a := a, b := b, la := pfx.la, hint := pfx.hint })
  | .tadd pfx rm relu d a b off => some (.tadd, { d := d, a := a, b := b, imm := immOf off, rm := rm, mode := relu.toNat, la := pfx.la, hint := pfx.hint })
  | .tsub pfx rm relu d a b off => some (.tsub, { d := d, a := a, b := b, imm := immOf off, rm := rm, mode := relu.toNat, la := pfx.la, hint := pfx.hint })
  | .tmule pfx rm relu d a b off => some (.tmule, { d := d, a := a, b := b, imm := immOf off, rm := rm, mode := relu.toNat, la := pfx.la, hint := pfx.hint })
  | .tscl pfx rm relu d a b => some (.tscl, { d := d, a := a, b := b, rm := rm, mode := relu.toNat, la := pfx.la, hint := pfx.hint })
  | .tbias pfx rm relu d a b => some (.tbias, { d := d, a := a, b := b, rm := rm, mode := relu.toNat, la := pfx.la, hint := pfx.hint })
  | .tact pfx rm fn d a => some (.tact, { d := d, a := a, rm := rm, mode := fn.toCode, la := pfx.la, hint := pfx.hint })
  | .texp pfx rm e d a none => some (.texp, { d := d, a := a, rm := rm, mode := e.toNat, la := pfx.la, hint := pfx.hint })
  | .texp pfx rm e d a (some sub) => some (.texpSub, { d := d, a := a, b := sub, rm := rm, mode := 2 + e.toNat, la := pfx.la, hint := pfx.hint })
  | .trmax pfx rm d a => some (.trmax, { d := d, a := a, rm := rm, la := pfx.la, hint := pfx.hint })
  | .trsum pfx rm d a => some (.trsum, { d := d, a := a, rm := rm, la := pfx.la, hint := pfx.hint })
  | .tdivr pfx rm d a b => some (.tdivr, { d := d, a := a, b := b, rm := rm, la := pfx.la, hint := pfx.hint })
  | .tmask pfx rm zero d a off => some (.tmask, { d := d, a := a, imm := immOf off, rm := rm, mode := zero.toNat, la := pfx.la, hint := pfx.hint })
  | .trot pfx rm inv d a b theta => some (.trot, { d := d, a := a, b := b, imm := theta, rm := rm, mode := inv.toNat, la := pfx.la, hint := pfx.hint })
  | .tqnt pfx d a => some (.tqnt, { d := d, a := a, la := pfx.la, hint := pfx.hint })
  | .tcopy pfx rm d a off => some (.tcopy, { d := d, a := a, imm := immOf off, rm := rm, la := pfx.la, hint := pfx.hint })
  | .ttrn pfx rm d a => some (.ttrn, { d := d, a := a, rm := rm, la := pfx.la, hint := pfx.hint })
  | .tscan pfx rm d a => some (.tscan, { d := d, a := a, rm := rm, la := pfx.la, hint := pfx.hint })
  | .spawn pfx a src => some (.spawn, { a := a, b := src.reg0, imm := src.imm?, la := pfx.la, hint := pfx.hint })
  | .endBead pfx a => some (.endBead, { a := a, la := pfx.la, hint := pfx.hint })
  | .yield pfx => some (.yield, { la := pfx.la, hint := pfx.hint })
  | .launch pfx a b => some (.launch, { a := a, b := b, la := pfx.la, hint := pfx.hint })
  | .barcfg pfx d a => some (.barcfg, { d := d, a := a, la := pfx.la, hint := pfx.hint })
  | .arrive pfx sc pm d => some (.arrive, { d := d, sc := sc.toCode, pm := pm.toCode, la := pfx.la, hint := pfx.hint })
  | .bwait pfx sc d => some (.bwait, { d := d, sc := sc.toCode, la := pfx.la, hint := pfx.hint })
  | .btry pfx sc d a => some (.btry, { d := d, a := a, sc := sc.toCode, la := pfx.la, hint := pfx.hint })
  | .put pfx d a b dx dy => some (.put, { d := d, a := a, b := b, imm := hopImm dx dy, la := pfx.la, hint := pfx.hint })
  | .puts pfx d a b dx dy => some (.puts, { d := d, a := a, b := b, imm := hopImm dx dy, la := pfx.la, hint := pfx.hint })
  | .get pfx d a b dx dy => some (.get, { d := d, a := a, b := b, imm := hopImm dx dy, la := pfx.la, hint := pfx.hint })
  | .rput pfx d a b dx dy => some (.rput, { d := d, a := a, b := b, imm := hopImm dx dy, la := pfx.la, hint := pfx.hint })
  | .strm pfx a => some (.strm, { a := a, la := pfx.la, hint := pfx.hint })
  | .strmw pfx a => some (.strmw, { a := a, la := pfx.la, hint := pfx.hint })
  | .slot pfx d immn => some (.slot, { d := d, imm := some (immn : Int), la := pfx.la, hint := pfx.hint })
  | .slotAck pfx immn => some (.slotAck, { imm := some (immn : Int), mode := 1, la := pfx.la, hint := pfx.hint })
  | .slotEnd pfx d immn => some (.slotEnd, { d := d, imm := some (immn : Int), mode := 2, la := pfx.la, hint := pfx.hint })
  | .cpwait pfx d => some (.cpwait, { d := d, la := pfx.la, hint := pfx.hint })
  | .lkpop pfx d a => some (.lkpop, { d := d, a := a, la := pfx.la, hint := pfx.hint })
  | .lkpopSet pfx d a b => some (.lkpopSet, { d := d, a := a, b := b, mode := 1, la := pfx.la, hint := pfx.hint })
  | .fence pfx sc pm fm d => some (.fence, { d := d, mode := fm.toCode, sc := sc.toCode, pm := pm.toCode, la := pfx.la, hint := pfx.hint })
  | .fencex pfx sc pm fm d => some (.fencex, { d := d, mode := fm.toCode, sc := sc.toCode, pm := pm.toCode, la := pfx.la, hint := pfx.hint })
  | .pksc pfx ty rm k2 a b => some (.pksc, { a := a, b := b, ty := ty.toCode, rm := rm, mode := k2.toNat, la := pfx.la, hint := pfx.hint })
  | .pksel pfx a b => some (.pksel, { a := a, b := b, la := pfx.la, hint := pfx.hint })
  | .pkgth pfx rm a b => some (.pkgth, { a := a, b := b, rm := rm, la := pfx.la, hint := pfx.hint })
  | .pksct pfx ty rm a b => some (.pksct, { a := a, b := b, ty := ty.toCode, rm := rm, la := pfx.la, hint := pfx.hint })
  | .edins pfx d a b => some (.edins, { d := d, a := a, b := b, la := pfx.la, hint := pfx.hint })
  | .eddel pfx d a b => some (.eddel, { d := d, a := a, b := b, la := pfx.la, hint := pfx.hint })
  | .edchg pfx d a b => some (.edchg, { d := d, a := a, b := b, la := pfx.la, hint := pfx.hint })
  | .edmap pfx d a b => some (.edmap, { d := d, a := a, b := b, la := pfx.la, hint := pfx.hint })
  | .ctxdone pfx d a b => some (.ctxdone, { d := d, a := a, b := b, la := pfx.la, hint := pfx.hint })
  | .vldvAt pfx ty rm d a b => some (.vldvAt, { d := d, a := a, b := b, ty := ty.toCode, rm := rm, la := pfx.la, hint := pfx.hint })
  | .vldvCur pfx ty rm d a b => some (.vldvCur, { d := d, a := a, b := b, ty := ty.toCode, rm := rm, la := pfx.la, hint := pfx.hint })
  | .settle pfx d a b => some (.settle, { d := d, a := a, b := b, la := pfx.la, hint := pfx.hint })
  | .reclaim pfx d a b => some (.reclaim, { d := d, a := a, b := b, la := pfx.la, hint := pfx.hint })
  | .reclaimBind pfx d a => some (.reclaimBind, { d := d, a := a, mode := 1, la := pfx.la, hint := pfx.hint })
  | .reclaimUnbind pfx d a => some (.reclaimUnbind, { d := d, a := a, mode := 2, la := pfx.la, hint := pfx.hint })
  | .trap pfx immn => some (.trap, { imm := some (immn : Int), la := pfx.la, hint := pfx.hint })
  | .eret pfx => some (.eret, { la := pfx.la, hint := pfx.hint })
  | .tlbi pfx sc => some (.tlbi, { sc := sc.toCode, la := pfx.la, hint := pfx.hint })
  | .tlbiVa pfx sc a => some (.tlbiVa, { a := a, mode := 1, sc := sc.toCode, la := pfx.la, hint := pfx.hint })
  | .idle pfx d => some (.idle, { d := d, la := pfx.la, hint := pfx.hint })
  | .wsw pfx immn => some (.wsw, { imm := some (immn : Int), la := pfx.la, hint := pfx.hint })
  | .mcack pfx a => some (.mcack, { a := a, la := pfx.la, hint := pfx.hint })
  | .pdrnSave pfx d a b => some (.pdrnSave, { d := d, a := a, b := b, la := pfx.la, hint := pfx.hint })
  | .pdrnKill pfx d a => some (.pdrnKill, { d := d, a := a, mode := 1, la := pfx.la, hint := pfx.hint })
  | .pdrnRun pfx d a => some (.pdrnRun, { d := d, a := a, mode := 2, la := pfx.la, hint := pfx.hint })
  | .prst pfx a => some (.prst, { a := a, la := pfx.la, hint := pfx.hint })
  | .ctxsv pfx d a b false => some (.ctxsv, { d := d, a := a, b := b, la := pfx.la, hint := pfx.hint })
  | .ctxsv pfx d a b true => some (.ctxsvMem, { d := d, a := a, b := b, mode := 1, la := pfx.la, hint := pfx.hint })
  | .ctxrs pfx d a => some (.ctxrs, { d := d, a := a, la := pfx.la, hint := pfx.hint })
  | .deviceReset => none
  | .attestationRequest => none
  | .hostQueueRegisterWrite => none
  | .hcqtDoorbell => none
  | .hostNopCommand => none
  | .hostLaunchCommand => none
  | .hostUnknownCommand => none
  | .hcphWrite => none
  | .completionWrite => none
  | .hostMemAccess => none
  | .indirectRecordRead => none
  | .launchRetry => none
  | .kernelPlacement => none
  | .initialBeadEnqueue => none
  | .rampUpStep => none
  | .pickupGrant => none
  | .headBufferRefill => none
  | .bankJoinIncrement => none
  | .bankJoinDecrement => none
  | .continuationEnqueue => none
  | .overflowListDrain => none
  | .retirementQuiesceComplete => none
  | .rampDownStep => none
  | .bankAtomicApply => none
  | .atomicReply => none
  | .bankopLineApply => none
  | .futureFillApply => none
  | .testAndRegisterReply => none
  | .parkTableWake => none
  | .loadDataReturn => none
  | .storeCompletion => none
  | .rodWatchdogExpiry => none
  | .machineCheck => none
  | .rowShiftRepair => none
  | .pdrnDeadlineExpiry => none
  | .drainComplete => none
  | .barrierArrivalMessage => none
  | .barrierReleaseMessage => none
  | .copyLineLand => none
  | .copyLineAck => none
  | .putsSignalApply => none
  | .rputMessageApply => none
  | .streamSlotWrite => none
  | .strmwSlotWriteback => none
  | .pkscExecute => none
  | .pkselExecute => none
  | .pkgthExecute => none
  | .pksctExecute => none
  | .demandServe => none
  | .outputTileEvaluate => none
  | .outputTileRelease => none
  | .demandComplete => none
  | .tdropService => none
  | .evuContextRequest => none
  | .evuRecomputeSpawn => none
  | .ingressImportAccess => none
  | .linkDeadDeclaration => none
  | .drainRoundExpiry => none
  | .indirectionEntryWrite => none
  | .pageMoveComplete => none
  | .linkCoreBind => none
  | .linkCoreUnbind => none
  | .checkpointGo => none
  | .checkpointComplete => none
  | .systemRegisterWrite => none
  | .energyUpdate => none
  | .throttleStepDecay => none
  | .throttleCauseDemand => none
  | .forwardedAccess => none

/-! Prefix words and chains (R91-R95). -/

/-- What the prefixes of a chain hold. -/
structure Chain where
  page : Option Nat
  opx : Option Nat
  reg : Option Nat
  imms : List Nat
  base : Nat
  words : Nat
deriving DecidableEq, Repr

/-- A word with bits [15:12] = 0b1111 is a prefix word (R89). -/
def isPfx (w : IWord) : Bool := w.toNat / 4096 == 15

def pfxKind (w : IWord) : Nat := w.toNat / 1024 % 4
def pfxPayload (w : IWord) : Nat := w.toNat % 1024

/-- The place of a KIND in the order PAGE, OPX, REG, IMM (R92). -/
def kindRank : Nat → Nat
  | 2 => 1 | 3 => 2 | 1 => 3 | _ => 4

/-- Adds one prefix word to a chain. -/
def Chain.addPfx (c : Chain) (w : IWord) : Chain :=
  match pfxKind w with
  | 2 => { c with page := some (pfxPayload w), words := c.words + 1 }
  | 3 => { c with opx := some (pfxPayload w), words := c.words + 1 }
  | 1 => { c with reg := some (pfxPayload w), words := c.words + 1 }
  | _ => { c with imms := c.imms ++ [pfxPayload w], words := c.words + 1 }

/-- Reads a chain: prefix words in the order of R92 (`rank` is the last one's place), then the base word. -/
def parseChain (rank : Nat) (c : Chain) : List IWord → Except Reject Chain
  | [] => .error .noBase
  | w :: ws =>
    if isPfx w then
      if c.words = 4 then .error .fifthPrefix
      else
        let r := kindRank (pfxKind w)
        if r < rank ∨ (r = rank ∧ r ≠ 4) ∨ (r = 4 ∧ c.imms.length = 3) then .error .order
        else parseChain r (c.addPfx w) ws
    else .ok { c with base := w.toNat, words := c.words + 1 }

def Chain.start : Chain := { page := none, opx := none, reg := none, imms := [], base := 0, words := 0 }

/-- R93: the immediate from `w` base bits and the IMM payloads in memory order. -/
def immValue (w v : Nat) (imms : List Nat) : Int :=
  let t := imms.foldr (fun p (acc : Nat × Nat) => (acc.1 + p * 2 ^ acc.2, acc.2 + 10)) (v, w)
  if t.2 = 0 then 0 else signed t.2 t.1

/-- The base field that belongs to the immediate, and its width (R93). -/
def immBase (f : Form) (base : Nat) : Nat × Nat :=
  match f with
  | .rr => (0, 0)
  | .br => (base % 2048, 11)
  | _ => (base % 128, 7)

/-- Whether the immediate, when present, stands in place of operand B (R108, R137, R207). -/
def ImmKind.replacesB : ImmKind → Bool
  | .second => true | .shift => true | .tag => true | .rod => true | .amount => true | _ => false

/-- Whether the immediate, when present, stands in place of operand A (R199, R241). -/
def ImmKind.replacesA : ImmKind → Bool
  | .count => true | .banks => true | _ => false

/-- Operand A as this chain has it. -/
def Shape.opA (s : Shape) (hasImm : Bool) : Opnd := if hasImm && s.imm.replacesA then .none else s.A

/-- Operand B as this chain has it. -/
def Shape.opB (s : Shape) (hasImm : Bool) : Opnd := if hasImm && s.imm.replacesB then .none else s.B

/-- The three operand fields of the base word and REG, as numbers (R90, R93). -/
structure RegFields where
  d : Nat
  a : Nat
  b : Nat
deriving DecidableEq, Repr

/-- Operands of a form RR chain (R90): two-address without REG when the cell has B. -/
def rrFields (s : Shape) (hasImm : Bool) (reg : Option Nat) (dF aF : Nat) : Except Reject RegFields :=
  let A := s.opA hasImm
  let B := s.opB hasImm
  match reg with
  | none =>
    if B.present then .ok { d := if s.D.present then dF else 0, a := dF, b := aF }
    else if (!s.D.present && dF != 0) || (!A.present && aF != 0) then .error .field
    else .ok { d := dF, a := aF, b := 0 }
  | some r =>
    let d := dF + 16 * (r / 256)
    let a := aF + 16 * (r / 64 % 4)
    let b := r % 64
    if !(s.D.present || A.present || B.present) then .error .field
    else if (!s.D.present && d != 0) || (!A.present && a != 0) || (!B.present && b != 0) then .error .field
    else .ok { d := d, a := a, b := b }

/-- Operands of any chain (R90, R93). -/
def regFields (s : Shape) (hasImm : Bool) (reg : Option Nat) (base : Nat) : Except Reject RegFields :=
  let f1 := base / 128 % 16
  let f2 := base / 8 % 16
  match s.form with
  | .rr => rrFields s hasImm reg f1 f2
  | .ri =>
    match reg with
    | none => .ok { d := f1, a := 0, b := 0 }
    | some r => if r % 256 ≠ 0 then .error .field else .ok { d := f1 + 16 * (r / 256), a := 0, b := 0 }
  | .rb =>
    match reg with
    | none => .ok { d := 0, a := f1, b := 0 }
    | some r =>
      if r / 256 ≠ 0 ∨ (!s.B.present && r % 64 != 0) then .error .field
      else .ok { d := 0, a := f1 + 16 * (r / 64 % 4), b := r % 64 }
  | .br =>
    match reg with
    | none => .ok { d := 0, a := 0, b := 0 }
    | some _ => .error .field

/-- The width in bytes of one lane (R196): TY 0 is binary32. -/
def laneBytes (ty : Nat) : Nat :=
  match ty with
  | 1 => 1 | 2 => 1 | 8 => 1 | 3 => 2 | 4 => 2 | 9 => 2 | 7 => 8 | _ => 4

/-- Whether a TY is a float type (0 is binary32, R199). -/
def floatTy (ty : Nat) : Bool := ty == 0 || ty == 9 || ty == 10

/-- Whether `v` is a CSR number of the tables R126 and R369. -/
def csrNumbers : List Nat :=
  [0x00, 0x01, 0x02, 0x03, 0x04, 0x05, 0x08, 0x09, 0x0A, 0x0B, 0x0C, 0x0D, 0x0E, 0x0F, 0x10, 0x11, 0x12, 0x13] ++
  [0x18, 0x19, 0x1A, 0x1B, 0x20, 0x40, 0x41, 0x42, 0x43, 0x44, 0x45, 0x46, 0x47, 0x48, 0x50]

/-- The limits of an immediate (R108-R118, R125, R137, R199, R205, R207, R216, R219, R241, R253, R258, R264, R318, R365). -/
def immLegal (k : ImmKind) (ty : Nat) (imm : Option Int) : Bool :=
  match k, imm with
  | .none, v => v.isNone
  | .base, v => v.isSome
  | .csr, some v => 0 ≤ v && csrNumbers.contains v.toNat
  | .csr, none => false
  | .offset, _ => true
  | .second, _ => true
  | .shift, some v => 0 ≤ v && v ≤ 63
  | .tag, some v => 0 ≤ v && v ≤ 255
  | .rod, some v => 0 ≤ v && v ≤ 15
  | .amount, some v => 0 ≤ v && v < 8 * (laneBytes ty : Int)
  | .count, some v => 0 ≤ v
  | .banks, some v => 1 ≤ v && v ≤ 192
  | .field, some v =>
    0 ≤ v && v < 8192 && v.toNat / 64 != 0 && v.toNat / 64 ≤ 64 && v.toNat % 64 + v.toNat / 64 ≤ 64
  | .field, none => false
  | .lane, v => 0 ≤ v.getD 0 && v.getD 0 < (128 / laneBytes ty : Nat)
  | .topk, v => 1 ≤ v.getD 0 && v.getD 0 ≤ (128 / laneBytes ty : Nat)
  | .origin, some v => 0 ≤ v && v < 2 ^ 29
  | .theta, some v => 2 ≤ v && v < 2 ^ 29
  | .hops, some v => 0 ≤ v && v < 2048
  | .stream, some v => 0 ≤ v && v < 32
  | .stream, none => false
  | .service, some v => 0 ≤ v && v < 512
  | .service, none => false
  | _, none => true

/-- Register numbers inside their files (R97). -/
def opndLegal (x : Opnd) (n : Nat) : Bool :=
  match x.file? with
  | none => n == 0
  | some f => n < f.size

/-- What a cell asks of its fields beyond its row: register groups (R200), the even pair of PUTS (R318), s0 for the B of
BADDQ.f32 (R218), `.un` on floats and DM8 only (R208), the parts of VDQ (R213), the operations of BANKOP.f32 (R183), s0 for the
D of SLOT.ACK, which a REG prefix of zeros may spell out (R93, R318, R336). -/
def extraLegal (op : Op) (o : Opnds) : Bool :=
  match op with
  | .vqnt => o.d % 2 == 0 && (if o.ty == 9 then o.a % 4 == 0 else o.a % 8 == 0)
  | .vtopk => o.d % 2 == 0
  | .baddq => if o.ty == 8 then o.d % 2 == 0 && o.a % 2 == 0 else o.b == 0
  | .vcmp => o.mode != 4 || floatTy o.ty || o.ty == 8
  | .vdq => o.ty != 9 || o.mode < 2
  | .puts => o.d % 2 == 0
  | .bankop => o.ty != 10 || o.mode < 3 || o.mode == 6
  | .slotAck => o.d == 0
  | _ => true

def rmLegal (r : RmRule) (ty rm : Nat) : Bool :=
  match r with
  | .no => rm == 0
  | .yes => true
  | .float => rm == 0 || floatTy ty

/-- One bit set at least twice among four. -/
def twoPaths (pm : Nat) : Bool := 2 ≤ pm % 2 + pm / 2 % 2 + pm / 4 % 2 + pm / 8 % 2

def pmLegal (r : PmRule) (pm : Nat) : Bool :=
  match r with
  | .zero => pm == 0
  | .any => true
  | .two => twoPaths pm

/-- The tests that decode makes on a cell's fields (R101, tests 2 to 5). -/
def fieldsLegal (op : Op) (o : Opnds) : Bool :=
  let s := shape op
  opndLegal s.D o.d && opndLegal (s.opA o.imm.isSome) o.a && opndLegal (s.opB o.imm.isSome) o.b &&
  immLegal s.imm o.ty o.imm && s.tys.contains o.ty && rmLegal s.rm o.ty o.rm && s.modes.contains o.mode &&
  s.scs.contains o.sc && pmLegal s.pm o.pm && (s.la || o.la == 0) && extraLegal op o

/-- The cell at (page, OP, X), with MODE telling the variants apart (R103, R104). -/
def Op.at (page op x mode : Nat) : Option Op :=
  Op.all.find? fun c =>
    (shape c).page == page && (shape c).op == op && ((shape c).form != .rr || (shape c).x == x) &&
      (shape c).modes.contains mode

/-- TY, RM, MODE, SC and PM of an OPX payload (R95). -/
def opxFields (page payload : Nat) : Opnds :=
  if page = 4 ∨ page = 6 then { sc := payload / 128, pm := payload / 8 % 16, mode := payload % 8 }
  else { ty := payload / 64, rm := payload / 16 % 4, mode := payload % 16 }

/-- Decodes a chain that has been read (R101).  An OPX payload of zero is the same as none (R95), also on the cells that accept
no OPX (R137; log 51). -/
def ofChain (c : Chain) : Except Reject (Op × Opnds) :=
  let pay := c.page.getD 0
  let page := pay / 64
  let la := pay / 4 % 16
  if 6 < page ∨ (page = 0 ∧ la ≠ 0) then .error .page
  else if page = 0 ∧ c.opx.isSome then .error .field
  else
    let x := opxFields page (c.opx.getD 0)
    match Op.at page (c.base / 2048) (c.base % 8) x.mode with
    | none => .error .unassigned
    | some op =>
      let s := shape op
      let hasImm := s.form != .rr || !c.imms.isEmpty
      let ib := immBase s.form c.base
      let imm := if hasImm then some (immValue ib.2 ib.1 c.imms) else none
      match regFields s hasImm c.reg c.base with
      | .error e => .error e
      | .ok r =>
        let o : Opnds := { x with d := r.d, a := r.a, b := r.b, imm := imm, la := la,
                                  hint := if page = 0 then 0 else pay % 4 }
        if fieldsLegal op o then .ok (op, o) else .error .register

/-- Decodes the words of a chain: the instruction and how many words it takes. -/
def decode (ws : List IWord) : Except Reject (Instr × Nat) :=
  match parseChain 0 Chain.start ws with
  | .error e => .error e
  | .ok c =>
    match ofChain c with
    | .error e => .error e
    | .ok (op, o) => .ok (mk op o, c.words)

/-- Little-endian 16-bit words of bytes (R2). -/
def wordsOfBytes : List Byte → List IWord
  | lo :: hi :: bs => (hi ++ lo) :: wordsOfBytes bs
  | _ => []

/-- Decodes bytes as they stand at the program counter. -/
def decodeBytes (bs : List Byte) : Except Reject (Instr × Nat) := decode (wordsOfBytes bs)

/-! The encoder: the shortest legal chain of R105. -/

/-- The number of IMM words that hold `v` beside `w` base bits (R93); 4 when three do not reach. -/
def immCount (w : Nat) (v : Int) : Nat :=
  let fits (k : Nat) : Bool := -(2 ^ (w + 10 * k - 1) : Int) ≤ v && v < (2 ^ (w + 10 * k - 1) : Int)
  if 0 < w && fits 0 then 0 else if fits 1 then 1 else if fits 2 then 2 else if fits 3 then 3 else 4

/-- The IMM payloads of `v` beside `w` base bits, in memory order: the nearest the base last. -/
def immPayloads (w : Nat) (v : Int) : Nat → List Nat
  | 0 => []
  | k + 1 => ((v / (2 ^ (w + 10 * k) : Int)) % 1024).toNat :: immPayloads w v k

/-- The PAGE payload, where the chain needs one (R105). -/
def encPage (s : Shape) (o : Opnds) : List Nat :=
  if s.page = 0 then [] else [s.page * 64 + o.la * 4 + o.hint]

/-- The OPX payload (R95), where it is not zero. -/
def encOpx (s : Shape) (o : Opnds) : List Nat :=
  let p := if s.page = 4 ∨ s.page = 6 then o.sc * 128 + o.pm * 8 + o.mode else o.ty * 64 + o.rm * 16 + o.mode
  if p = 0 then [] else [p]

/-- Whether the chain needs a REG word (R105). -/
def needsReg (s : Shape) (o : Opnds) : Bool :=
  match s.form with
  | .rr =>
    if (s.opB o.imm.isSome).present then
      !((!s.D.present || o.a == o.d) && o.a < 16 && o.b < 16)
    else 16 ≤ o.d || 16 ≤ o.a
  | .ri => 16 ≤ o.d
  | .rb => 16 ≤ o.a || o.b != 0
  | .br => false

def encReg (s : Shape) (o : Opnds) : List Nat :=
  if needsReg s o then [o.d / 16 * 256 + o.a / 16 * 64 + o.b] else []

/-- Base bits that the immediate of a form has (R93). -/
def Form.immBits : Form → Nat
  | .rr => 0 | .br => 11 | _ => 7

def encImms (s : Shape) (o : Opnds) : List Nat :=
  match o.imm with
  | none => []
  | some v => immPayloads s.form.immBits v (immCount s.form.immBits v)

/-- The base word (R89, R90). -/
def encBase (s : Shape) (o : Opnds) : Nat :=
  let v := o.imm.getD 0
  match s.form with
  | .rr =>
    let f := if (s.opB o.imm.isSome).present && !needsReg s o then (o.a, o.b) else (o.d % 16, o.a % 16)
    s.op * 2048 + f.1 * 128 + f.2 * 8 + s.x
  | .ri => s.op * 2048 + o.d % 16 * 128 + (v % 128).toNat
  | .rb => s.op * 2048 + o.a % 16 * 128 + (v % 128).toNat
  | .br => s.op * 2048 + (v % 2048).toNat

/-- The words of a cell with its fields. -/
def encodeParts (op : Op) (o : Opnds) : List IWord :=
  let s := shape op
  (encPage s o).map (fun p => BitVec.ofNat 16 (0xF800 + p)) ++ (encOpx s o).map (fun p => BitVec.ofNat 16 (0xFC00 + p)) ++
  (encReg s o).map (fun p => BitVec.ofNat 16 (0xF400 + p)) ++ (encImms s o).map (fun p => BitVec.ofNat 16 (0xF000 + p)) ++
  [BitVec.ofNat 16 (encBase s o)]

/-- The words of an instruction; a device step has none. -/
def encode (i : Instr) : List IWord :=
  match parts i with
  | some (op, o) => encodeParts op o
  | none => []

/-- Whether a chain of R92 can hold the fields: they are the cell's own, LA and the hint have their bits, the immediate
is within three IMM words and the chain within four prefix words. -/
def partsLegal (op : Op) (o : Opnds) : Bool :=
  fieldsLegal op o && o.la < 16 && o.hint < 4 && o.rm < 4 && o.pm < 16 &&
  ((shape op).page != 0 || (o.la == 0 && o.hint == 0)) &&
  (match o.imm with
    | none => (shape op).form == .rr
    | some v => immCount (shape op).form.immBits v < 4) &&
  (encodeParts op o).length ≤ 5

/-! Registers read and written, for the lookahead comparison of R99 and R200. -/

/-- Consecutive registers from `n`. -/
def regRun (f : File) (n k : Nat) : List (File × Nat) := (List.range k).map fun j => (f, n + j)

/-- How many registers the D operand of a cell names (R200, R318). -/
def groupD (op : Op) (o : Opnds) : Nat :=
  match op with
  | .vqnt => 2
  | .vtopk => 2
  | .puts => 2
  | .baddq => if o.ty == 8 then 2 else 1
  | _ => 1

/-- How many registers the A operand of a cell names (R200). -/
def groupA (op : Op) (o : Opnds) : Nat :=
  match op with
  | .vqnt => if o.ty == 9 then 4 else 8
  | .baddq => if o.ty == 8 then 2 else 1
  | _ => 1

def opndRegs (x : Opnd) (n k : Nat) (want : Opnd → Bool) : List (File × Nat) :=
  if want x then
    match x.file? with
    | some f => (regRun f n k).filter fun r => r != (.s, 0)
    | none => []
  else []

/-- The B operand as the MODE of VQNT makes it: scale written in MODE 0, read in MODE 1 (R212). -/
def roleB (op : Op) (o : Opnds) : Opnd :=
  match op with
  | .vqnt => if o.mode == 0 then .dst .s else .src .s
  | .baddq => if o.ty == 8 then .both .s else .src .s
  | _ => (shape op).opB o.imm.isSome

/-- The predicate that governs a page-2 instruction is read (R198). -/
def govRegs (op : Op) (o : Opnds) : List (File × Nat) :=
  if (shape op).modes == predModes && 8 ≤ o.mode then [(.p, o.mode - 8)] else []

def regsOf (op : Op) (o : Opnds) (want : Opnd → Bool) : List (File × Nat) :=
  opndRegs (shape op).D o.d (groupD op o) want ++ opndRegs ((shape op).opA o.imm.isSome) o.a (groupA op o) want ++
  opndRegs (roleB op o) o.b 1 want

/-- The registers that an instruction reads (R99). -/
def regsRead (i : Instr) : List (File × Nat) :=
  match parts i with
  | some (op, o) => regsOf op o Opnd.isRead ++ govRegs op o
  | none => []

/-- The registers that an instruction writes (R99). -/
def regsWritten (i : Instr) : List (File × Nat) :=
  match parts i with
  | some (op, o) => regsOf op o Opnd.isWritten
  | none => []

/-- The lookahead of an instruction (R94). -/
def lookahead (i : Instr) : Nat :=
  match parts i with
  | some (_, o) => o.la
  | none => 0

/-! The opcode table's words. -/

/-- The two bytes of a word as memory holds them (R2). -/
def wordBytes (w : Nat) : List Byte := [BitVec.ofNat 8 (w % 256), BitVec.ofNat 8 (w / 256 % 256)]

/-- The bytes of a table word of `nbits` bits, zeros after it.  The table writes the PAGE word of a two-word row in the
upper half, the base word in the lower; a value whose lower half is itself a prefix word is read lower half first. -/
def tableBytes (nbits w : Nat) : List Byte :=
  let lo := w % 65536
  let hi := w / 65536 % 65536
  let rest := wordBytes (w / 2 ^ 32) ++ wordBytes (w / 2 ^ 48) ++ wordBytes (w / 2 ^ 64)
  if nbits ≤ 16 then wordBytes lo ++ wordBytes 0 ++ wordBytes 0 ++ wordBytes 0 ++ wordBytes 0
  else if lo / 4096 ≠ 15 ∧ hi / 4096 = 15 then wordBytes hi ++ wordBytes lo ++ rest
  else wordBytes lo ++ wordBytes hi ++ rest

/-- The instruction that the decoder reads from a table word. -/
def decodeTableWord (nbits w : Nat) : Option Instr :=
  match decodeBytes (tableBytes nbits w) with
  | .ok (i, _) => some i
  | .error _ => none

end Sys2Proof
end

