-- ==== Sys2Proof/Machine/Flags.lean ====
section
/-! DEFINITION. The five flags of FLG (R36, R37).  Which of them an operation raises is computed with its result, where the
exact value is still known: roundings and conversions in Num.lean, windows in LoadStore.lean, lanes in Vector.lean. -/

namespace Sys2Proof.Machine

/-- Invalid, overflow, underflow, inexact, saturated, from bit 4 down (R36). -/
abbrev Flags := BitVec 5

def fNV : Flags := 16
def fOF : Flags := 8
def fUF : Flags := 4
def fNX : Flags := 2
def fSAT : Flags := 1

end Sys2Proof.Machine
end

