-- ==== Sys2Proof/Machine/Num.lean ====
section
/-! DEFINITION. The number formats and the exact arithmetic of "Number formats" (R29-R40): values are exact, and every
rounding happens once, in `roundRat`. -/

namespace Sys2Proof.Machine

/-! ### Exact values -/

/-- An exact value of any format: NaN, an infinity, or ± num / den × 2^exp with the sign of a zero kept. -/
inductive Val
  | nan
  | inf (neg : Bool)
  | fin (neg : Bool) (num den : Nat) (exp : Int)
deriving DecidableEq, Repr

namespace Val

def zero : Val := .fin false 0 1 0

def ofInt (i : Int) : Val := .fin (decide (i < 0)) i.natAbs 1 0

/-- m × 2^e with a sign. -/
def dyadic (neg : Bool) (m : Nat) (e : Int) : Val := .fin neg m 1 e

def isNaN : Val → Bool
  | .nan => true | _ => false

def isInf : Val → Bool
  | .inf _ => true | _ => false

def isZero : Val → Bool
  | .fin _ 0 _ _ => true | _ => false

def isNeg : Val → Bool
  | .nan => false | .inf n => n | .fin n _ _ _ => n

def setSign (n : Bool) : Val → Val
  | .nan => .nan | .inf _ => .inf n | .fin _ a b e => .fin n a b e

def abs (x : Val) : Val := x.setSign false

def negate : Val → Val
  | .nan => .nan | .inf n => .inf (!n) | .fin n a b e => .fin (!n) a b e

/-- Numerator and denominator of a finite magnitude as integers. -/
def frac (num den : Nat) (e : Int) : Nat × Nat :=
  if 0 ≤ e then (num * 2 ^ e.toNat, den) else (num, den * 2 ^ (-e).toNat)

/-- Exact sum of two finite values; a zero sum has the sign that IEEE 754 gives it (−0 when both are −0, or when RM is 3
and they cancel). -/
def addFin (rm : Nat) (n1 : Bool) (a1 b1 : Nat) (e1 : Int) (n2 : Bool) (a2 b2 : Nat) (e2 : Int) : Val :=
  if a1 = 0 ∧ a2 = 0 then .fin (if n1 = n2 then n1 else rm == 3) 0 1 0
  else
    let e := min e1 e2
    let x : Int := (a1 * b2 * 2 ^ (e1 - e).toNat : Nat)
    let y : Int := (a2 * b1 * 2 ^ (e2 - e).toNat : Nat)
    let s := (if n1 then -x else x) + (if n2 then -y else y)
    if s = 0 then .fin (rm == 3) 0 1 0 else .fin (decide (s < 0)) s.natAbs (b1 * b2) e

/-- Exact sum; the second component tells an invalid operation (∞ − ∞). -/
def add (rm : Nat) : Val → Val → Val × Bool
  | .nan, _ => (.nan, false)
  | _, .nan => (.nan, false)
  | .inf a, .inf b => if a = b then (.inf a, false) else (.nan, true)
  | .inf a, _ => (.inf a, false)
  | _, .inf b => (.inf b, false)
  | .fin n1 a1 b1 e1, .fin n2 a2 b2 e2 => (addFin rm n1 a1 b1 e1 n2 a2 b2 e2, false)

/-- Exact product; invalid for ∞ × 0. -/
def mul : Val → Val → Val × Bool
  | .nan, _ => (.nan, false)
  | _, .nan => (.nan, false)
  | .inf a, .inf b => (.inf (a != b), false)
  | .inf a, .fin b n _ _ => if n = 0 then (.nan, true) else (.inf (a != b), false)
  | .fin a n _ _, .inf b => if n = 0 then (.nan, true) else (.inf (a != b), false)
  | .fin n1 a1 b1 e1, .fin n2 a2 b2 e2 => (.fin (n1 != n2) (a1 * a2) (b1 * b2) (e1 + e2), false)

/-- Exact quotient; invalid for 0 / 0 and ∞ / ∞; a finite nonzero value over zero is the signed infinity (R37). -/
def div : Val → Val → Val × Bool
  | .nan, _ => (.nan, false)
  | _, .nan => (.nan, false)
  | .inf _, .inf _ => (.nan, true)
  | .inf a, .fin b _ _ _ => (.inf (a != b), false)
  | .fin a _ _ _, .inf b => (.fin (a != b) 0 1 0, false)
  | .fin n1 a1 b1 e1, .fin n2 a2 b2 e2 =>
    if a2 = 0 then (if a1 = 0 then (.nan, true) else (.inf (n1 != n2), false))
    else (.fin (n1 != n2) (a1 * b2) (b1 * a2) (e1 - e2), false)

/-- x × 2^k. -/
def scale (k : Int) : Val → Val
  | .fin n a b e => .fin n a b (e + k)
  | x => x

/-- Compares two values that are not NaN: −1, 0 or 1, with −0 = +0. -/
def cmp : Val → Val → Int
  | .nan, _ => 0
  | _, .nan => 0
  | .inf a, .inf b => if a = b then 0 else if a then -1 else 1
  | .inf a, _ => if a then -1 else 1
  | _, .inf b => if b then 1 else -1
  | .fin n1 a1 b1 e1, .fin n2 a2 b2 e2 =>
    let e := min e1 e2
    let x : Int := (a1 * b2 * 2 ^ (e1 - e).toNat : Nat)
    let y : Int := (a2 * b1 * 2 ^ (e2 - e).toNat : Nat)
    let x := if n1 then -x else x
    let y := if n2 then -y else y
    if x < y then -1 else if y < x then 1 else 0

/-- a < b, with −0 below +0 when `signed0`. -/
def lt (signed0 : Bool) (a b : Val) : Bool :=
  cmp a b < 0 || (signed0 && cmp a b == 0 && a.isNeg && !b.isNeg)

end Val

/-! ### Binary formats (R34) -/

/-- Significand bits, exponent range of a binary format. -/
structure Fmt where
  p : Nat
  emin : Int
  emax : Int
deriving DecidableEq, Repr

def b32 : Fmt := { p := 24, emin := -126, emax := 127 }
def b16 : Fmt := { p := 11, emin := -14, emax := 15 }

/-- Width of a format in bits. -/
def Fmt.width (f : Fmt) : Nat := if f.p = 24 then 32 else 16

/-- The bits of a format's infinity, without sign: the exponent field all ones. -/
def Fmt.infBits (f : Fmt) : Nat := 2 ^ (f.width - 1) - 2 ^ (f.p - 1)

/-- The canonical quiet NaN (R34). -/
def Fmt.nanBits (f : Fmt) : Nat := f.infBits + 2 ^ (f.p - 2)

def Fmt.signBit (f : Fmt) (neg : Bool) : Nat := if neg then 2 ^ (f.width - 1) else 0

/-- The value of a bit pattern. -/
def Fmt.decode (f : Fmt) (bits : Nat) : Val :=
  let neg := bits / 2 ^ (f.width - 1) % 2 == 1
  let m := bits % 2 ^ (f.width - 1)
  let fr := m % 2 ^ (f.p - 1)
  let ex := m / 2 ^ (f.p - 1)
  if f.infBits ≤ m then (if fr = 0 then .inf neg else .nan)
  else if ex = 0 then .fin neg fr 1 (f.emin - (f.p - 1 : Nat))
  else .fin neg (fr + 2 ^ (f.p - 1)) 1 (f.emin + (ex : Int) - 1 - (f.p - 1 : Nat))

/-- A signalling NaN: quiet bit 0. -/
def Fmt.isSNaN (f : Fmt) (bits : Nat) : Bool :=
  (f.decode bits).isNaN && bits / 2 ^ (f.p - 2) % 2 == 0

/-- Whether a magnitude with remainder `r` over `d` and integer part `m` rounds up (R35). -/
def roundsUp (rm : Nat) (neg : Bool) (m r d : Nat) : Bool :=
  match rm with
  | 0 => decide (d < 2 * r) || (decide (2 * r = d) && m % 2 == 1)
  | 1 => false
  | 2 => !neg && decide (r ≠ 0)
  | _ => neg && decide (r ≠ 0)

/-- num / den × 2^e in units of 2^q, rounded; and whether the rounding was inexact. -/
def roundUnit (rm : Nat) (neg : Bool) (num den : Nat) (e q : Int) : Nat × Bool :=
  let n := if q ≤ e then num * 2 ^ (e - q).toNat else num
  let d := if q ≤ e then den else den * 2 ^ (q - e).toNat
  (n / d + (if roundsUp rm neg (n / d) (n % d) d then 1 else 0), decide (n % d ≠ 0))

/-- ⌊log2 (num / den)⌋ for positive num and den. -/
def floorLog2 (num den : Nat) : Int :=
  let k : Int := (Nat.log2 num : Int) - (Nat.log2 den : Int)
  let ge := if 0 ≤ k then decide (den * 2 ^ k.toNat ≤ num) else decide (den ≤ num * 2 ^ (-k).toNat)
  if ge then k else k - 1

/-- The one rounding to a binary format (R35): bits and flags, tininess detected after rounding (R36). -/
def Fmt.roundRat (f : Fmt) (rm : Nat) (neg : Bool) (num den : Nat) (e : Int) : Nat × Flags :=
  if num = 0 then (f.signBit neg, 0)
  else
    let E := floorLog2 num den + e
    let q := max (E - (f.p - 1 : Nat)) (f.emin - (f.p - 1 : Nat))
    let r := roundUnit rm neg num den e q
    let free := roundUnit rm neg num den e (E - (f.p - 1 : Nat))
    let tiny := decide ((if free.1 = 2 ^ f.p then E + 1 else E) < f.emin)
    let ovf := decide (f.emax < (if r.1 = 2 ^ f.p then q + f.p else q + (f.p - 1 : Nat))) && decide (2 ^ (f.p - 1) ≤ r.1)
    if ovf then
      let toInf := rm == 0 || (rm == 2 && !neg) || (rm == 3 && neg)
      (f.signBit neg + f.infBits - (if toInf then 0 else 1), fOF ||| fNX)
    else
      let body :=
        if r.1 < 2 ^ (f.p - 1) then r.1
        else r.1 - 2 ^ (f.p - 1) + 2 ^ (f.p - 1) * (q + (f.p - 1 : Nat) - f.emin + 1).toNat
      (f.signBit neg + body, (if r.2 then fNX else 0) ||| (if tiny && r.2 then fUF else 0))

/-- A value in a binary format. -/
def Fmt.round (f : Fmt) (rm : Nat) : Val → Nat × Flags
  | .nan => (f.nanBits, 0)
  | .inf n => (f.signBit n + f.infBits, 0)
  | .fin n a b e => f.roundRat rm n a b e

/-- An operation's exact result and validity, rounded: an invalid operation sets NV. -/
def Fmt.finish (f : Fmt) (rm : Nat) (x : Val × Bool) : Nat × Flags :=
  let r := f.round rm x.1
  (r.1, r.2 ||| (if x.2 then fNV else 0))

/-! ### Integers -/

/-- The least and greatest integers of a width. -/
def intMin (w : Nat) (sgn : Bool) : Int := if sgn then -(2 ^ (w - 1) : Int) else 0
def intMax (w : Nat) (sgn : Bool) : Int := if sgn then 2 ^ (w - 1) - 1 else 2 ^ w - 1

/-- The low `w` bits of an integer. -/
def wrapNat (w : Nat) (i : Int) : Nat := (i % (2 ^ w : Int)).toNat

/-- The integer that `w` bits stand for. -/
def readInt (w : Nat) (sgn : Bool) (bits : Nat) : Int :=
  if sgn then signed w bits else ((bits % 2 ^ w : Nat) : Int)

/-- Clamps to the range of a width, telling saturation. -/
def clampInt (w : Nat) (sgn : Bool) (i : Int) : Int × Bool :=
  if i < intMin w sgn then (intMin w sgn, true) else if intMax w sgn < i then (intMax w sgn, true) else (i, false)

/-- ConvertInt (R175). -/
def convertInt (w : Nat) (sgn : Bool) (rm : Nat) : Val → Int × Flags
  | .nan => (0, fNV)
  | .inf n => ((if n then intMin w sgn else intMax w sgn), fNV ||| fSAT)
  | .fin n a b e =>
    let r := roundUnit rm n a b e 0
    let i : Int := if n then -(r.1 : Int) else r.1
    let c := clampInt w sgn i
    if c.2 then (c.1, fSAT) else (c.1, if r.2 then fNX else 0)

/-! ### DM8 (R29-R33, R38, R39) -/

/-- The unscaled magnitude of a code's field M, in units of 2^−19 (R29). -/
def dm8Mag (m : Nat) : Nat :=
  let m := m % 128
  if m = 0 then 0
  else
    let top := Nat.log2 m            -- 6 − z
    let f := match top with | 6 => 4 | 5 => 3 | 4 => 2 | 3 => 1 | _ => 0
    let below := m - 2 ^ top
    let ex := below / 2 ^ f          -- E
    let fr := below % 2 ^ f          -- F
    -- (1 + F/2^f) × 2^(E + base) with base = 4(6−top)·(−1) down to −16, then −18, −19
    let base : Nat := match top with | 6 => 19 | 5 => 15 | 4 => 11 | 3 => 7 | 2 => 3 | 1 => 1 | _ => 0
    (2 ^ f + fr) * 2 ^ (ex + base) / 2 ^ f

/-- DM8(c) without a scale: NaN for 0x80. -/
def dm8Val (c : Byte) : Val :=
  if c = 0x80 then .nan else .fin (c.toNat / 128 == 1) (dm8Mag c.toNat) 1 (-19)

/-- The value of a code under a block scale (R32). -/
def dm8Scaled (c sc : Byte) : Val :=
  if sc = 0xFF then .nan else (dm8Val c).scale ((sc.toNat : Int) - 127)

/-- DecodeDM8: binary32 bits (R33). -/
def decodeDM8 (c sc : Byte) : Nat × Flags :=
  let r := b32.round 0 (dm8Scaled c sc)
  (r.1, r.2 &&& fOF)

/-- The nearest code in 0x00-0x7F to num / den × 2^e, ties to the larger value: seven halvings. -/
def dm8Nearest (num den : Nat) (e : Int) : Nat :=
  let nd := Val.frac num den (e + 20)
  [64, 32, 16, 8, 4, 2, 1].foldl
    (fun c b => if (dm8Mag (c + b - 1) + dm8Mag (c + b)) * nd.2 ≤ nd.1 then c + b else c) 0

/-- EncodeDM8 (R38). -/
def encodeDM8 (x : Val) (sc : Byte) : Byte × Flags :=
  if sc = 0xFF then (0x80, 0)
  else
    match x with
    | .nan => (0x80, 0)
    | .inf n => (if n then 0xFF else 0x7F, fSAT)
    | .fin n a b e =>
      let e' := e + 127 - (sc.toNat : Int)
      let nd := Val.frac a b (e' + 2)
      let sat := decide (63 * nd.2 ≤ nd.1)
      let m := if sat then 0x7F else dm8Nearest a b e'
      (BitVec.ofNat 8 (if m ≠ 0 && n then m + 128 else m), if sat then fSAT else 0)

/-- The scale that R39 chooses for a block. -/
def requantScale (xs : List Val) : Byte :=
  let m := xs.foldl (fun acc x => if x.isNaN then acc else if acc.cmp x.abs < 0 then x.abs else acc) Val.zero
  match m with
  | .nan => 0
  | .inf _ => 0xFE
  | .fin _ a b e =>
    if a = 0 then 0 else BitVec.ofNat 8 (min 254 (max 0 (floorLog2 a b + e - 3 + 127))).toNat

/-- Requantize (R39): codes, scale, flags. -/
def requantize (xs : List Val) : List Byte × Byte × Flags :=
  let sc := requantScale xs
  let rs := xs.map fun x => encodeDM8 x sc
  (rs.map Prod.fst, sc, rs.foldl (fun f r => f ||| r.2) 0)

end Sys2Proof.Machine

namespace Sys2Proof

open Machine

/-! ### Element types (R95, R196) -/

/-- Width of a TY in bytes on pages 2 and 5, where 0 is binary32. -/
def Ty.bytes : Ty → Nat
  | .i8 => 1 | .u8 => 1 | .dm8 => 1 | .i16 => 2 | .u16 => 2 | .f16 => 2 | .i64 => 8 | _ => 4

def Ty.isFloat : Ty → Bool
  | .dflt => true | .f16 => true | .f32 => true | _ => false

def Ty.isSigned : Ty → Bool
  | .i8 => true | .i16 => true | .i32 => true | .i64 => true | _ => false

def Ty.fmt : Ty → Fmt
  | .f16 => b16 | _ => b32

/-- The exact value of a lane's bits (floats, integers; a DM8 code is taken unscaled). -/
def Ty.val (ty : Ty) (bits : Nat) : Val :=
  match ty with
  | .dm8 => dm8Val (BitVec.ofNat 8 bits)
  | _ => if ty.isFloat then ty.fmt.decode bits else Val.ofInt (readInt (8 * ty.bytes) ty.isSigned bits)

/-- NV for a signalling NaN operand (R34). -/
def Ty.snan (ty : Ty) (bits : Nat) : Flags := if ty.isFloat && ty.fmt.isSNaN bits then fNV else 0

/-- A value converted to a float or integer type under R40, as bits. -/
def Ty.ofVal (ty : Ty) (rm : Nat) (x : Val) : Nat × Flags :=
  if ty.isFloat then ty.fmt.round rm x
  else
    let r := convertInt (8 * ty.bytes) ty.isSigned rm x
    (wrapNat (8 * ty.bytes) r.1, r.2)

/-- Conversion of bits between two types that are not DM8 (R40, R211): between identical formats the value is
unchanged, and integers narrow by saturation.  R211 speaks of narrowing only; an integer that another signedness of the same or a
greater width cannot hold saturates and sets SAT too (DESIGN CHOICE, log 60). -/
def convertBits (src dst : Ty) (rm : Nat) (bits : Nat) : Nat × Flags :=
  if !dst.isFloat && !src.isFloat then
    let r := clampInt (8 * dst.bytes) dst.isSigned (readInt (8 * src.bytes) src.isSigned bits)
    (wrapNat (8 * dst.bytes) r.1, if r.2 then fSAT else 0)
  else
    let r := dst.ofVal rm (src.val bits)
    (r.1, r.2 ||| src.snan bits)

end Sys2Proof
end

