-- ==== Sys2Proof/Machine/Fun.lean ====
section
/-! DEFINITION. The functions of R217, R254, R255, R258 and R277, exact and rounded once.  A result that is no rational
is enclosed between two rationals at growing precision until both round alike; exact cases are taken out first. -/

namespace Sys2Proof.Machine

/-! ### Enclosures: integers at a scale of 2^−P, rounded outward -/

structure Enc where
  lo : Int
  hi : Int
deriving DecidableEq, Repr

namespace Enc

def floorDiv (a : Int) (b : Nat) : Int := a / (b : Int)
def ceilDiv (a : Int) (b : Nat) : Int := -((-a) / (b : Int))

/-- The rational n / d. -/
def rat (P : Nat) (n : Int) (d : Nat) : Enc := ⟨floorDiv (n * 2 ^ P) d, ceilDiv (n * 2 ^ P) d⟩

def add (x y : Enc) : Enc := ⟨x.lo + y.lo, x.hi + y.hi⟩
def neg (x : Enc) : Enc := ⟨-x.hi, -x.lo⟩
def sub (x y : Enc) : Enc := x.add y.neg

def mul (P : Nat) (x y : Enc) : Enc :=
  let a := x.lo * y.lo
  let b := x.lo * y.hi
  let c := x.hi * y.lo
  let d := x.hi * y.hi
  ⟨floorDiv (min (min a b) (min c d)) (2 ^ P), ceilDiv (max (max a b) (max c d)) (2 ^ P)⟩

/-- Division by a positive natural number. -/
def divNat (x : Enc) (n : Nat) : Enc := ⟨floorDiv x.lo n, ceilDiv x.hi n⟩

/-- Quotient by an enclosure that lies above 0. -/
def div (P : Nat) (x y : Enc) : Enc :=
  if y.lo ≤ 0 then x
  else
    let q (a : Int) (b : Int) : Int := floorDiv (a * 2 ^ P) b.toNat
    let r (a : Int) (b : Int) : Int := ceilDiv (a * 2 ^ P) b.toNat
    ⟨min (q x.lo y.lo) (q x.lo y.hi), max (r x.hi y.lo) (r x.hi y.hi)⟩

/-- Widens by `k` units on both sides. -/
def widen (x : Enc) (k : Nat) : Enc := ⟨x.lo - k, x.hi + k⟩

def one (P : Nat) : Enc := ⟨2 ^ P, 2 ^ P⟩

/-- Times 2^k. -/
def shift (x : Enc) (k : Int) : Enc :=
  if 0 ≤ k then ⟨x.lo * 2 ^ k.toNat, x.hi * 2 ^ k.toNat⟩ else x.divNat (2 ^ (-k).toNat)

end Enc

/-- Σ over k of t(k), where t(0) is given and t(k + 1) = t(k) × x / c(k): the Taylor series of the functions below. -/
def series (P : Nat) (x : Enc) (c : Nat → Nat) : Nat → Nat → Enc → Enc → Enc
  | 0, _, _, acc => acc
  | n + 1, k, t, acc =>
    let t' := (t.mul P x).divNat (c k)
    series P x c n (k + 1) t' (acc.add t')

/-- e^x for |x| ≤ 1: the terms past P + 8 are below one unit. -/
def encExpSmall (P : Nat) (x : Enc) : Enc :=
  (series P x (fun k => k + 1) (P + 8) 0 (Enc.one P) (Enc.one P)).widen 1

/-- 2 × Σ y^(2k+1) / (2k + 1), which is ln ((1 + y) / (1 − y)), for |y| ≤ 1/3. -/
def encLogRatio (P : Nat) (y : Enc) : Enc :=
  let y2 := y.mul P y
  let rec go : Nat → Nat → Enc → Enc → Enc
    | 0, _, _, acc => acc
    | n + 1, k, t, acc => go n (k + 1) (t.mul P y2) (acc.add (t.divNat (2 * k + 1)))
  ((go (P + 8) 0 y ⟨0, 0⟩).shift 1).widen 2

/-- ln 2 = ln ((1 + 1/3) / (1 − 1/3)). -/
def encLn2 (P : Nat) : Enc := encLogRatio P (Enc.rat P 1 3)

/-- ln (n / d) for positive n, d. -/
def encLn (P : Nat) (n d : Nat) : Enc :=
  let k := floorLog2 n d
  let nd := Val.frac n d (-k)
  -- nd is in [1, 2)
  ((encLn2 P).mul P ⟨k * 2 ^ P, k * 2 ^ P⟩).add (encLogRatio P (Enc.rat P ((nd.1 : Int) - nd.2) (nd.1 + nd.2)))

/-- e^x for any x, by e^x = 2^k × e^(x − k ln 2). -/
def encExp (P : Nat) (x : Enc) : Enc :=
  let k := x.lo / (encLn2 P).hi
  let r := x.sub ((encLn2 P).mul P ⟨k * 2 ^ P, k * 2 ^ P⟩)
  -- r lies near [0, ln 2]; halved twice for safety of the series' bound
  let e := encExpSmall P (r.divNat 2)
  (e.mul P e).shift k

/-- atan (1/n) = Σ (−1)^k / ((2k + 1) n^(2k + 1)). -/
def encAtanInv (P n : Nat) : Enc :=
  let rec go : Nat → Nat → Enc → Enc → Enc
    | 0, _, _, acc => acc
    | f + 1, k, t, acc =>
      let u := t.divNat (2 * k + 1)
      go f (k + 1) (t.divNat (n * n)) (if k % 2 = 0 then acc.add u else acc.sub u)
  (go (P + 8) 0 (Enc.rat P 1 n) ⟨0, 0⟩).widen 1

/-- π by Machin's formula. -/
def encPi (P : Nat) : Enc :=
  (((encAtanInv P 5).shift 2).sub (encAtanInv P 239)).shift 2

/-- sin and cos of an angle, brought below π/4 by quarter turns. -/
def encSinCos (P : Nat) (x : Enc) : Enc × Enc :=
  let half := (encPi P).divNat 2
  let k := (x.lo + half.hi / 2) / half.hi
  let r := x.sub (half.mul P ⟨k * 2 ^ P, k * 2 ^ P⟩)
  let m := (r.mul P r).neg
  let sn := (series P m (fun j => (2 * j + 2) * (2 * j + 3)) (P / 2 + 8) 0 r r).widen 1
  let cs := (series P m (fun j => (2 * j + 1) * (2 * j + 2)) (P / 2 + 8) 0 (Enc.one P) (Enc.one P)).widen 1
  match (k % 4).toNat with
  | 0 => (sn, cs)
  | 1 => (cs, sn.neg)
  | 2 => (sn.neg, cs.neg)
  | _ => (cs.neg, sn)

/-- √(n / d) at scale P: the integer root and its successor. -/
def encSqrt (P : Nat) (n d : Nat) : Enc :=
  let r := Nat.sqrt (n * 2 ^ (2 * P) / d)
  ⟨r, r + 1⟩

/-- erf x = 2/√π × Σ (−1)^k x^(2k+1) / (k! (2k+1)), for a rational x with x² ≤ 512; `terms` past 4x² + P. -/
def encErf (P : Nat) (x : Enc) (x2 : Enc) (terms : Nat) : Enc :=
  let rec go : Nat → Nat → Enc → Enc → Enc
    | 0, _, _, acc => acc
    | f + 1, k, t, acc =>
      let u := t.divNat (2 * k + 1)
      go f (k + 1) ((t.mul P x2).divNat (k + 1)) (if k % 2 = 0 then acc.add u else acc.sub u)
  let s := (go terms 0 x ⟨0, 0⟩).widen 1
  let rootPi := encSqrt P (encPi P).lo.toNat (2 ^ P)
  let rootPi' := encSqrt P (encPi P).hi.toNat (2 ^ P)
  (s.div P ⟨rootPi.lo, rootPi'.hi⟩).shift 1

/-! ### Rounding an enclosure -/

/-- Rounds the value that `f` encloses at every precision: precisions double from `P` until both ends round alike. -/
def roundEnc (fmt : Fmt) (rm : Nat) (f : Nat → Enc) : Nat → Nat → Nat × Flags
  | 0, P =>
    let e := f P
    fmt.roundRat rm (decide (e.lo < 0)) e.lo.natAbs 1 (-(P : Int))
  | fuel + 1, P =>
    let e := f P
    let a := fmt.roundRat rm (decide (e.lo < 0)) e.lo.natAbs 1 (-(P : Int))
    let b := fmt.roundRat rm (decide (e.hi < 0)) e.hi.natAbs 1 (-(P : Int))
    if e.lo ≠ 0 ∧ e.hi ≠ 0 ∧ a = b then a else roundEnc fmt rm f fuel (2 * P)

/-! ### The functions of R217 -/

/-- 2^x for a finite x; huge exponents are cut where every format has overflowed or vanished. -/
def exp2Fin (fmt : Fmt) (rm : Nat) (neg : Bool) (n d : Nat) (e : Int) : Nat × Flags :=
  let nd := Val.frac n d e
  if nd.1 % nd.2 = 0 then
    let k : Int := min (nd.1 / nd.2 : Nat) 4096
    fmt.roundRat rm false 1 1 (if neg then -k else k)
  else if 4096 ≤ nd.1 / nd.2 then
    -- beyond every exponent: overflow, or a value below half of every least subnormal
    if neg then fmt.roundRat rm false 3 2 (-4096) else fmt.roundRat rm false 3 2 4096
  else
    let x : Int := if neg then -(nd.1 : Int) else nd.1
    let k := x / (nd.2 : Int)
    let fr := x % (nd.2 : Int)
    roundEnc fmt rm (fun P => (encExp P ((encLn2 P).mul P (Enc.rat P fr nd.2))).shift k) 6 256

/-- VEXP2 (R217). -/
def vexp2 (fmt : Fmt) (rm : Nat) : Val → Nat × Flags
  | .nan => (fmt.nanBits, 0)
  | .inf n => (if n then 0 else fmt.infBits, 0)
  | .fin n a b e => exp2Fin fmt rm n a b e

/-- VLOG2 (R217). -/
def vlog2 (fmt : Fmt) (rm : Nat) : Val → Nat × Flags
  | .nan => (fmt.nanBits, 0)
  | .inf n => if n then (fmt.nanBits, fNV) else (fmt.infBits, 0)
  | .fin n a b e =>
    if a = 0 then (fmt.signBit true + fmt.infBits, 0)
    else if n then (fmt.nanBits, fNV)
    else
      let k := floorLog2 a b
      let nd := Val.frac a b (-k)
      if nd.1 = nd.2 then fmt.round rm (Val.ofInt (k + e))
      else roundEnc fmt rm (fun P => (((encLn P nd.1 nd.2).div P (encLn2 P))).add ⟨(k + e) * 2 ^ P, (k + e) * 2 ^ P⟩) 6 256

/-- VRCP (R217). -/
def vrcp (fmt : Fmt) (rm : Nat) : Val → Nat × Flags
  | .nan => (fmt.nanBits, 0)
  | .inf n => (fmt.signBit n, 0)
  | .fin n a b e =>
    if a = 0 then (fmt.signBit n + fmt.infBits, 0) else fmt.roundRat rm n b a (-e)

/-- VRSQ (R217). -/
def vrsq (fmt : Fmt) (rm : Nat) : Val → Nat × Flags
  | .nan => (fmt.nanBits, 0)
  | .inf n => if n then (fmt.nanBits, fNV) else (0, 0)
  | .fin n a b e =>
    if a = 0 then (fmt.signBit n + fmt.infBits, 0)
    else if n then (fmt.nanBits, fNV)
    else
      -- 1/√(a/b × 2^e) with an even exponent: √(b/a') × 2^(−e'/2)
      let a' := if e % 2 = 0 then a else 2 * a
      let h := e / 2
      let g := Nat.gcd a' b
      let rn := Nat.sqrt (b / g)
      let rd := Nat.sqrt (a' / g)
      if rn * rn = b / g ∧ rd * rd = a' / g then fmt.roundRat rm false rn rd (-h)
      else
        roundEnc fmt rm (fun P => (encSqrt P b a').shift (-h)) 6 256

/-! ### The functions of tile work: binary32, ties to even (R248, R254, R255, R258) -/

/-- The value of bits as a Taylor argument: numerator and denominator of a finite magnitude. -/
def argFrac (n : Bool) (a b : Nat) (e : Int) : Int × Nat :=
  let nd := Val.frac a b e
  (if n then -(nd.1 : Int) else nd.1, nd.2)

/-- e^x for a finite x, with its flags (R255, R277). -/
def expFin (n : Bool) (a b : Nat) (e : Int) : Nat × Flags :=
  let x := argFrac n a b e
  if a = 0 then b32.roundRat 0 false 1 1 0
  else if 256 * (x.2 : Int) ≤ x.1 then b32.roundRat 0 false 3 2 4096
  else if x.1 ≤ -(256 * (x.2 : Int)) then b32.roundRat 0 false 3 2 (-4096)
  else roundEnc b32 0 (fun P => encExp P (Enc.rat P x.1 x.2)) 6 512

/-- e^x rounded to binary32 with its flags (R277). -/
def exp32 : Val → Nat × Flags
  | .nan => (b32.nanBits, 0)
  | .inf n => (if n then 0 else b32.infBits, 0)
  | .fin n a b e => expFin n a b e

/-- base^x, base 2 or e (R255): special operands as VEXP2 has them. -/
def tileExp (eBase : Bool) : Val → Nat
  | .nan => b32.nanBits
  | .inf n => if n then 0 else b32.infBits
  | .fin n a b e => if eBase then (expFin n a b e).1 else (exp2Fin b32 0 n a b e).1

/-- 1 / (1 + e^(−x)) as an enclosure. -/
def encSigm (P : Nat) (x : Int × Nat) : Enc :=
  (Enc.one P).div P ((Enc.one P).add (encExp P (Enc.rat P (-x.1) x.2)))

/-- Below −128 a function that dies as e^x has no place in binary32; above 128 its complement has none. -/
def cutArg (x : Int × Nat) : Int :=
  if x.1 ≤ -(128 * (x.2 : Int)) then -1 else if 128 * (x.2 : Int) ≤ x.1 then 1 else 0

/-- TACT's functions on a binary32 operand (R254). -/
def actFn (fn : ActFn) (x : Val) : Nat :=
  match fn, x with
  | _, .nan => b32.nanBits
  | .relu, v => if v.isNeg then 0 else (b32.round 0 v).1
  | .sigm, .inf n => if n then 0 else (b32.roundRat 0 false 1 1 0).1
  | .sigm, .fin n a b e =>
    let x := argFrac n a b e
    if a = 0 then (b32.roundRat 0 false 1 2 0).1
    else if cutArg x = 1 then (b32.roundRat 0 false 1 1 0).1
    else if cutArg x = -1 then 0
    else (roundEnc b32 0 (fun P => encSigm P x) 5 512).1
  | .silu, .inf n => if n then b32.signBit true else b32.infBits
  | .silu, .fin n a b e =>
    let x := argFrac n a b e
    if a = 0 then b32.signBit n
    else if cutArg x = 1 then (b32.roundRat 0 n a b e).1
    else if cutArg x = -1 then b32.signBit true
    else (roundEnc b32 0 (fun P => (encSigm P x).mul P (Enc.rat P x.1 x.2)) 5 512).1
  | .tanh, .inf n => (b32.roundRat 0 n 1 1 0).1
  | .tanh, .fin n a b e =>
    let x := argFrac n a b e
    if a = 0 then b32.signBit n
    else if cutArg x ≠ 0 then (b32.roundRat 0 n 1 1 0).1
    else
      -- 1 − 2 / (e^(2x) + 1)
      (roundEnc b32 0 (fun P =>
        (Enc.one P).sub (((Enc.one P).shift 1).div P ((encExp P (Enc.rat P (2 * x.1) x.2)).add (Enc.one P)))) 5 512).1
  | .gelu, .inf n => if n then b32.signBit true else b32.infBits
  | .gelu, .fin n a b e =>
    let x := argFrac n a b e
    if a = 0 then b32.signBit n
    else if 24 * (x.2 : Int) ≤ x.1 then (b32.roundRat 0 n a b e).1
    else if x.1 ≤ -(24 * (x.2 : Int)) then b32.signBit true
    else
      (roundEnc b32 0 (fun P =>
        let t := Enc.rat P x.1 x.2
        let half := (t.mul P t).divNat 2
        let z := t.div P (encSqrt P 2 1)
        (((encErf P z half (2 * P + 600)).add (Enc.one P)).mul P t).divNat 2) 5 1024).1

/-- φ = p × Θ^(−2i/d), negated for `.inv` (R258), as an enclosure. -/
def encAngle (P : Nat) (p : Int) (theta i d : Nat) : Enc :=
  let t := if i = 0 then Enc.one P
    else encExp P (((encLn P theta 1).mul P (Enc.rat P (-(2 * i : Nat)) d)))
  t.mul P ⟨p * 2 ^ P, p * 2 ^ P⟩

/-- TROT's pair (R258): x cos φ − y sin φ and x sin φ + y cos φ, each exact and rounded once; zeros, infinities and NaNs go
through the sum as IEEE 754 takes them (R248), where of cos φ and sin φ only the signs matter. -/
def rotPair (theta i d : Nat) (p : Int) (x y : Val) : Nat × Nat :=
  let signs : Nat × Nat :=
    let q := encSinCos 256 (encAngle 256 p theta i d)
    let unit (e : Enc) : Val := .fin (decide (e.lo < 0)) 1 1 0
    let s : Val := if p = 0 then Val.zero else unit q.1
    let c : Val := if p = 0 then .fin false 1 1 0 else unit q.2
    let m (a b : Val) : Val := (Val.mul a b).1
    ((b32.round 0 (Val.add 0 (m x c) (m y s).negate).1).1, (b32.round 0 (Val.add 0 (m x s) (m y c)).1).1)
  match x, y with
  | .fin nx ax bx ex, .fin ny ay dy ey =>
    let vx := argFrac nx ax bx ex
    let vy := argFrac ny ay dy ey
    if p = 0 then signs
    else if ax = 0 ∧ ay = 0 then signs
    else
      let en (P : Nat) : Enc × Enc := encSinCos P (encAngle P p theta i d)
      let ex (P : Nat) : Enc := Enc.rat P vx.1 vx.2
      let ey (P : Nat) : Enc := Enc.rat P vy.1 vy.2
      ((roundEnc b32 0 (fun P => ((en P).2.mul P (ex P)).sub ((en P).1.mul P (ey P))) 5 512).1,
       (roundEnc b32 0 (fun P => ((en P).1.mul P (ex P)).add ((en P).2.mul P (ey P))) 5 512).1)
  | _, _ => signs

end Sys2Proof.Machine
end

