-- ==== Sys2Proof/Config.lean ====
section
/-! DEFINITION. What an implementation fixes and what the manual leaves open: constants without a body, so that no
proof can see a value of theirs (assumption log 3, 4, 5, 6, 7, 17, 35). -/

namespace Sys2Proof.Config

/-- Cycles that pass in one step of the model beyond the first: timing is left out.  Log 4. -/
opaque stepCycles : Nat → Nat

/-- Microjoules added to a tile's energy at one update (R394), from the activity counters.  Log 5. -/
opaque tileEnergy : Nat → Nat → Nat

/-- A fresh word for a value the manual leaves unpredictable.  Log 6. -/
opaque freeWord : Nat → Word

/-- Bytes that an EVU reads from or leaves in structures that software has disturbed (R66, R294).  Log 17. -/
opaque freeEvu : Nat → Nat → Byte

/-- The SHA-256 digest of bytes (R399, R400), a standard that the manual only names.  Log 7. -/
opaque sha256 : List Byte → BitVec 256

/-- SLH-DSA-SHA2-192s verification: key, message digest, signature (R399).  Log 7. -/
opaque slhDsaVerify : List Byte → BitVec 256 → List Byte → Bool

/-- SLH-DSA-SHA2-192s signature under the device's identity key (R400).  Log 7. -/
opaque slhDsaSign : List Byte → List Byte

/-- The SHA-256 digest fused into the device (R399).  Log 7. -/
opaque fusedKeyDigest : BitVec 256

/-- The bytes of the device's identity public key (R400).  Log 7. -/
opaque identityByte : Nat → Byte

/-- The device's 48-byte identity public key (R400). -/
def identityKey : List Byte := (List.range 48).map identityByte

/-- Where a die's device-reserved region beside the rod rings begins and ends: spill lists, indirection tables and
page-receiving areas (R169).  Log 35. -/
opaque reservedBase : Nat → Nat
opaque reservedLimit : Nat → Nat

/-- The boot ROM's bytes, which the report's first digest covers (R400).  Log 7. -/
opaque bootRom : List Byte

end Sys2Proof.Config
end

