-- ==== Sys2Proof/Machine/Map.lean ====
section
/-! DEFINITION. Sparse tables: lists of (key, value) with keys strictly rising, the one form in which State holds what
is numbered.  `put` stores; `set` stores and drops a value equal to the default, so that equal tables are equal lists. -/

namespace Sys2Proof.Map

/-- The value at a key, if one is listed. -/
def find? {β : Type} : List (Nat × β) → Nat → Option β
  | [], _ => none
  | (k, v) :: m, i => if i = k then some v else find? m i

/-- The value at a key, or the default. -/
def get {β : Type} (m : List (Nat × β)) (dflt : β) (i : Nat) : β := (find? m i).getD dflt

/-- Stores a value at a key. -/
def put {β : Type} : List (Nat × β) → Nat → β → List (Nat × β)
  | [], i, x => [(i, x)]
  | (k, v) :: m, i, x =>
    if i = k then (i, x) :: m else if i < k then (i, x) :: (k, v) :: m else (k, v) :: put m i x

/-- Removes a key. -/
def del {β : Type} (m : List (Nat × β)) (i : Nat) : List (Nat × β) := m.filter fun e => e.1 != i

/-- Stores a value, or removes the key when the value is the default. -/
def set {β : Type} [DecidableEq β] (m : List (Nat × β)) (dflt : β) (i : Nat) (x : β) : List (Nat × β) :=
  if x = dflt then del m i else put m i x

/-- Removes the keys lo to lo + n − 1. -/
def dropRange {β : Type} (m : List (Nat × β)) (lo n : Nat) : List (Nat × β) :=
  m.filter fun e => !(decide (lo ≤ e.1) && decide (e.1 < lo + n))

/-- What the keys src to src + n − 1 hold, put at the keys from dst. -/
def copyRange {β : Type} (m : List (Nat × β)) (src dst n : Nat) : List (Nat × β) :=
  (m.filter fun e => decide (e.1 < dst)) ++
  ((m.filter fun e => decide (src ≤ e.1) && decide (e.1 < src + n)).map fun (e : Nat × β) => (e.1 - src + dst, e.2)) ++
  (m.filter fun e => decide (dst + n ≤ e.1))

/-- Keys strictly rising, all above `lo` when it is given. -/
def rising {β : Type} : Option Nat → List (Nat × β) → Bool
  | _, [] => true
  | lo, (k, _) :: m => (match lo with | none => true | some l => decide (l < k)) && rising (some k) m

/-- The canonical form of a table with a default: keys strictly rising, no value equal to the default. -/
def wf {β : Type} [DecidableEq β] (dflt : β) (m : List (Nat × β)) : Bool :=
  rising none m && m.all fun e => decide (e.2 ≠ dflt)

end Sys2Proof.Map
end

