-- ==== Sys2Proof/Machine/State.lean ====
section
/-! DEFINITION. Everything the manual gives the machine, as plain data; the reasons a step can stop; the machine right
after reset.  Units: tiles are cores 0-383 (24y + x), link cores 384 + 8d + k, steward cores 416 + d (R11, R17, R338);
rod-holding units are clusters 12d + c, 0-47, and link cores, 48 + 8d + k (R15, R338). -/

namespace Sys2Proof.Machine

/-- A sparse table of State. -/
abbrev Table (β : Type) := List (Nat × β)

/-- No meaning of this model stops with a fault: every fault of the manual is a trap, a record or a status, hence a next
state (R366). -/
inductive Fault
deriving DecidableEq, Repr

/-- Reasons to refuse an instruction. -/
inductive Refusal
  /-- Raised by an arm of exec whose instruction has no meaning yet: safe, the run stops by name. -/
  | notModelled (mnemonic : String)
deriving DecidableEq, Repr

/-! ### Beads, rods and parking (R46-R48, R128-R131, R188) -/

/-- The eight words of a bead record (R47); `evu` is the model's own note that an EVU spawned it (R303). -/
structure BeadRec where
  code : Word := 0
  frame : Word := 0
  pjoin : Word := 0
  w3 : Word := 0
  arg0 : Word := 0
  arg1 : Word := 0
  arg2 : Word := 0
  arg3 : Word := 0
  evu : Bool := false
deriving DecidableEq, Repr

/-- The states of a record slot (R128); `lost` is a slot marked lost (R372, R375); `reserved` one that SPAWN holds
(R138). -/
inductive SlotUse
  | reserved | ready | running (core : Nat) | parked | saved | lost
deriving DecidableEq, Repr

/-- A slot that is not free; `uid` numbers the bead among all that the device has enqueued (R342: an issuer is a bead,
even after it has suspended or ended). -/
structure BeadSlot where
  record : BeadRec
  use : SlotUse
  uid : Nat := 0
deriving DecidableEq, Repr

/-- An allotted rod (R78, R128): the partition that holds it (none on a link core of none), ring capacity, priority,
world, watchdog limit, the slots in use, the ready order and how many of its first records the head buffer holds
(R133); `freed`: PRST has freed it, and it takes no bead until its partition is released (R382, R398). -/
structure Rod where
  part : Option Nat
  cap : Nat
  prio : Nat
  world : Bool
  wdog : Nat
  slots : Table BeadSlot := []
  ready : List Nat := []
  buffered : Nat := 0
  freed : Bool := false
deriving DecidableEq, Repr

/-- A park entry (R188): granule (of the home address in HBM), world, slot, sequence number; `waiting` until the test has replied, `marked` by a wake
that came before (R189); `spill` its place in the spill list, none in the table proper: an entry stays where it stands until it
leaves. -/
structure ParkEntry where
  granule : Nat
  world : Bool
  slot : SlotId
  seq : Nat
  waiting : Bool
  marked : Bool
  spill : Option Nat := none
deriving DecidableEq, Repr

/-- A continuation record on the overflow list, with the rod that it waits for (R129) and the place of the list where it stands
(R188). -/
structure Overflow where
  rod : Nat
  record : BeadRec
  place : Nat := 0
deriving DecidableEq, Repr

/-- One receiving tile of a stream: slots taken and slots returned (R335, R336). -/
structure StreamTile where
  core : Nat
  taken : Nat := 0
  returned : Nat := 0
deriving DecidableEq, Repr

/-- A stream of a cluster (R333-R337): who issued it, its descriptor, its tiles, how many positions have been written
(STRM) or written back (STRMW), where and how it failed, whether it was stopped or its SID freed. -/
structure Stream where
  core : Nat
  bead : Word
  uid : Nat := 0
  world : Bool := false
  part : Option Nat
  cpc : Word
  back : Bool
  desc : List Word
  tiles : List StreamTile
  moved : Nat := 0
  failed : Option (Nat × FaultInfo) := none
  status : BitVec 5 := 0
  stopped : Bool := false
  freed : Bool := false
deriving DecidableEq, Repr

/-- What a cluster or a link core holds of rods and parking; PKC per partition number (R130), the tile index of the
previous grant (R131). -/
structure BeadUnit where
  rods : Table Rod := []
  pkc : Table Word := []
  lastGrant : Nat := 7
  parkSeq : Nat := 0
  park : List ParkEntry := []
  overflow : List Overflow := []
  streams : Table Stream := []
  /-- D of the granules of its rings and lists, by home address div 32: those that the device itself has written with a record
  or an entry; and those among them that the checkpoint has sent and that it has not written since (R165, R386). -/
  wrote : List Nat := []
  sent : List Nat := []
  /-- The device's own accesses to its rings and lists, by home unit: they count in ACNT (R155). -/
  hits : Table Nat := []
deriving DecidableEq, Repr

/-! ### Cores (R13, R19, R97, R126, R369, R387) -/

/-- A TLB entry: the leaf's base address, whether it is a 2 MiB leaf, the world of its walk, the entry (R153). -/
structure TlbEntry where
  base : Nat
  big : Bool
  world : Bool
  pte : Word
deriving DecidableEq, Repr

/-- Whether a core issues: it runs, waits for the drain that its PDRN began (R377), is idle, or is out of service. -/
inductive CoreMode
  | idle | running | waiting | off
deriving DecidableEq, Repr

/-- A core: its register files, program counter and CSRs.  `npc` is the address after the chain in execution; `windows`
are the open lookahead windows (instructions left, registers written; R98, R99), `nextWin` what they become when the
instruction at hand commits; the watchdog count is `wdCount` and the cycles since `wdFrom` (R374); `chkMiss` the checker mismatches still to come and `chkRun` those of the instruction at hand
(R144). -/
structure Core where
  mode : CoreMode := .idle
  s : Table Word := []
  v : Table VecReg := []
  p : Table PredReg := []
  t : Table ViewReg := []
  a : Table (Nat × Nat) := []
  pc : Word := 0
  npc : Word := 0
  world : Bool := false
  flg : BitVec 5 := 0
  icnt : Word := 0
  bead : Option SlotId := none
  spn : BitVec 32 := 0
  epc : Word := 0
  ecause : Word := 0
  eaddr : Word := 0
  erec : Word := 0
  pw : Bool := false
  inh : Bool := false
  esav0 : Word := 0
  esav1 : Word := 0
  esav2 : Word := 0
  esav3 : Word := 0
  scb : BitVec 21 := 0
  ent : Word := 0
  windows : List (Nat × List (File × Nat)) := []
  nextWin : List (Nat × List (File × Nat)) := []
  tlb : List TlbEntry := []
  wdCount : Nat := 0
  wdFrom : Word := 0
  wdSent : Bool := false
  chkMiss : Nat := 0
  chkRun : Nat := 0
deriving DecidableEq, Repr

/-! ### Lazy tile work (R221-R239) -/

/-- A view as a node snapshots it: descriptor, bank run of a KIND 1 view, index view of a KIND 2 view (R246). -/
structure Snap where
  desc : ViewReg
  bank : Nat × Nat := (0, 0)
  index : Option ViewReg := none
deriving DecidableEq, Repr

/-- The operation of a node with its scalar operands (R249-R259). -/
inductive NodeOp
  | mul | mula
  | add (dr dc : Nat) | sub (dr dc : Nat) | mule (dr dc : Nat)
  | scl (f : BitVec 32) | bias | divr
  | act (fn : ActFn)
  | exp (e : Bool) (less : Bool)
  | rmax | rsum | scan
  | mask (k : Int) (zero : Bool)
  | rot (theta : Nat) (inv : Bool)
  | qnt | copy (dr dc : Nat) | trn
deriving DecidableEq, Repr

/-- STATE of a Pleat entry that is not free (R221); an entry that retires is free in the same step (R227). -/
inductive NodeState
  | pending | evaluating
deriving DecidableEq, Repr

/-- A Pleat entry (R221). -/
structure Node where
  state : NodeState := .pending
  seq : BitVec 32
  apc : Word
  op : NodeOp
  relu : Bool
  rm : Nat
  dst : Snap
  srcs : List Snap
  link : BitVec 128 := 0
  done : BitVec 512 := 0
  want : BitVec 512 := 0
  /-- Index elements fixed by a walk (R226), per output tile: their values in row order. -/
  held : Table (List Int) := []
deriving DecidableEq, Repr

/-- What follows a demand without a fault: the instruction commits, executes again, or its bead parks (R185, R227, R228). -/
inductive DemandEnd
  | commit | again | park
deriving DecidableEq, Repr

/-- A demand region of an EVU (R302). -/
structure EvuRegion where
  ctx : Nat
  llo : Nat
  lhi : Nat
  plo : Nat
  phi : Nat
  wave : Nat
  bead : SlotId
deriving DecidableEq, Repr

/-- What the sequencer serves: the instruction that reports its faults, what follows the demand, the nodes or the region it
demands, the store of a TSTORE (R225, R261); for a bead that then parks, the die and the demand region that it registers
(R302). -/
structure Demand where
  pc : Word
  fin : DemandEnd
  nodes : List (Nat × List Nat)
  store : Option (Snap × Snap × Nat) := none
  storeDone : BitVec 512 := 0
  fault : Option FaultInfo := none
  region : Option (Nat × EvuRegion) := none
deriving DecidableEq, Repr

/-- An output tile in the evaluation reserve (R231): node (128 is a TSTORE), output tile, binary32 results in row order. -/
structure Reserve where
  node : Nat
  out : Nat
  vals : List (BitVec 32)
deriving DecidableEq, Repr

/-! ### Barriers (R319-R322) -/

/-- A barrier register (R319). -/
structure BarReg where
  arr : Bool := false
  cfg : Bool := false
  ph : BitVec 32 := 0
  cfgw : BitVec 37 := 0
deriving DecidableEq, Repr

/-- A router's combining state for one barrier number (R322): the key held, its parity, what has arrived, and the
arrivals held back. -/
structure Router where
  key : Option (BarKey × Bool) := none
  own : Bool := false
  east : Bool := false
  south : Bool := false
  later : List BarMsg := []
deriving DecidableEq, Repr

/-- Where a tile's ramp stands (R85, R398). -/
inductive Ramp
  | steady | up | down
deriving DecidableEq, Repr

/-- What belongs to a tile beside its core (R132, R221, R319, R395). -/
structure Tile where
  part : Option Nat := none
  fenced : Bool := false
  idx : Nat := 0
  idy : Nat := 0
  idw : Nat := 0
  idh : Nat := 0
  org : List Nat := [0, 0, 0, 0]
  ext : List Nat := [0, 0, 0, 0]
  bars : Table BarReg := []
  routers : Table Router := []
  nodes : Table Node := []
  order : List Nat := []
  seq : BitVec 32 := 0
  tev : Nat := 0
  retry : Nat := 0
  afrc : Nat := 0
  ofrc : Nat := 0
  drop : Nat := 0
  demand : Option Demand := none
  reserve : List Reserve := []
  residueMiss : Nat := 0
  ramp : Ramp := .steady
  rampStep : Nat := 0
  step : Nat := 0
  /-- The cycle in which STEP last fell (R395). -/
  fell : Option Word := none
  saved : Option Core := none
deriving DecidableEq, Repr

/-! ### Partitions and launches (R24, R54, R75-R81, R392) -/

/-- The bead, or the steward, that executed a LAUNCH (R141): its core, slot, partition with that partition's birth, its
world (the launcher's, R84) and its partition's, the heap window, the die whose steward hears of it, the completion record
and the address of the LAUNCH. -/
structure Origin where
  core : Nat
  slot : Option SlotId
  part : Option Nat
  born : Nat
  world : Bool
  pworld : Bool := false
  heap : Word × Word × Word
  die : Nat
  cr : Word
  cpc : Word
deriving DecidableEq, Repr

/-- Who issued a launch: a host command with its CTAG, or a LAUNCH. -/
inductive Launcher
  | host (ctag : BitVec 32)
  | bead (o : Origin)
deriving DecidableEq, Repr

/-- The launch stream (R75); a steward core has no bead and is a stream of its own. -/
inductive LaunchStream
  | host
  | bead (slot : SlotId)
  | core (k : Nat)
deriving DecidableEq, Repr

/-- A launch at the arbiter: its descriptor, the shape once it is known, and whether it has passed its checks. -/
structure Launch where
  id : Nat
  by_ : Launcher
  stream : LaunchStream
  kd : List Word
  w : Nat := 0
  h : Nat := 0
  tshape : Word := 0
  ready : Bool := false
deriving DecidableEq, Repr

/-- Where a placed partition stands; a drain that waits for cores holds the cycle of its PDRN and the deadline. -/
inductive PartPhase
  | running | draining (wait : Option (Word × Word)) | drained | quiesce | rampDown
deriving DecidableEq, Repr

/-- A placed partition (R24, R79). -/
structure Part where
  x0 : Nat
  y0 : Nat
  w : Nat
  h : Nat
  world : Bool
  kd : List Word
  tshape : Word
  nrod : Nat
  launcher : Launcher
  stream : LaunchStream
  launch : Nat
  phase : PartPhase := .running
  /-- The root join word has reached zero while a drain held the partition: PDRN.RUN lets the retirement go on (R377). -/
  retiring : Bool := false
  prq : Bool := false
  rampUp : Nat := 0
  rampDn : Nat := 0
  /-- The ramp under way: microseconds a step, the cycle of its last step. -/
  rampUs : Nat := 0
  rampFrom : Word := 0
  /-- The root join word (R79), as State.locKey knows it. -/
  rootLoc : Option Nat := none
  /-- The steward core and register that a PDRN answers, the beads it has saved or ended (R377). -/
  pdrn : Option (Nat × Nat) := none
  ended : Nat := 0
  recorded : Bool := false
  startCyc : Word := 0
  enk : Word := 0
  born : Nat := 0
deriving DecidableEq, Repr

/-! ### Contexts (R285-R292, R302) -/

/-- A bound context slot: the descriptor's pointer, home physical address and header as read at binding, the world, the
heap window and the partition (with its birth) that the binding recorded (R290); `runWave` the run wave of each running
entry by index in the block table (R292); `lost` the highest wave of a log entry that has been overwritten (R62); the token
tables that edits have named (R294); `tainted` when software has stored to what the EVU alone writes (R66). -/
structure Ctx where
  desc : Word
  home : Nat
  hdr : List Word
  world : Bool
  hb : Word
  hl : Word
  ho : Word
  part : Option Nat
  born : Nat := 0
  unbinding : Bool := false
  stopped : Bool := false
  runWave : Table Nat := []
  lost : Nat := 0
  /-- The edit log has wrapped (R62): EHEAD, which counts modulo 2^32, has reached 2^ELB. -/
  logFull : Bool := false
  tokts : List Word := []
  tainted : Bool := false
deriving DecidableEq, Repr

/-- What the EVU knew of a context's edit log when it was unbound: EHEAD, the highest wave overwritten, whether the log has
wrapped (R62). -/
structure PastLog where
  ehead : Nat
  lost : Nat
  full : Bool
deriving DecidableEq, Repr

/-! ### Copies (R324-R331) -/

/-- The copies of R324. -/
inductive CopyKind
  | put | puts | get | rput
deriving DecidableEq, Repr

/-- A copy in flight: whose it is, where it reads and writes (the core whose scratchpad each pointer means), how far it
has come, and whether a line has failed. -/
structure Copy where
  kind : CopyKind
  core : Nat
  bead : Word
  uid : Nat := 0
  part : Option Nat
  world : Bool
  cpc : Word
  src : Word
  srcCore : Nat
  dst : Word
  dstCore : Nat
  len : Nat
  dec : Nat := 0
  cnt : Word := 0
  pos : Nat := 0
  failed : Bool := false
  data : List Byte := []
deriving DecidableEq, Repr

/-- Work whose outcome a status word reports (R331, R357): a C-path store, a copy, an STRMW slot returned with `.ack`. -/
inductive WorkKind
  | store | copy | slot
deriving DecidableEq, Repr

/-- An outcome that no CPWAIT, FENCE or FENCEX has reported yet (R331, R357): the core that issued the work, the bead's
key (State.beadKey), the kind of work and the status bits. -/
structure Outcome where
  core : Nat
  bead : Nat
  kind : WorkKind
  bits : BitVec 5
deriving DecidableEq, Repr

/-- What another device exports to this one (R158, R159): the key, world, write permission and length, in 64 KiB units, of
its ingress entry. -/
structure Export where
  key : Nat
  secure : Bool
  wr : Bool
  len : Nat
deriving DecidableEq, Repr

/-! ### The die, the link cores, the host port -/

/-- A block queue (R339). -/
structure BlockQueue where
  count : BitVec 32 := 0
  next : BitVec 32 := 0
deriving DecidableEq, Repr

/-- What a die holds (R17, R373, R375, R395). -/
structure Die where
  events : List Word := []
  held : List Word := []
  checks : List (Nat × Nat) := []
  nextCheck : Nat := 1
  queues : Table BlockQueue := []
  regions : List EvuRegion := []
  svec : Word := 0
  cur : Nat := 0
  tmp : Nat := 0
  row : Nat := 0
  shifted : List Nat := []
  deadPorts : List Nat := []
  digest : BitVec 256 := 0
  boot : Bool := false
deriving DecidableEq, Repr

/-- The binding of a link core: what it took from its descriptor (R338). -/
structure Link where
  bound : Bool := false
  world : Bool := false
  part : Nat := 0
  kd : List Word := []
  born : Nat := 0
deriving DecidableEq, Repr

/-- A completion that has not been written yet (R69). -/
structure Completion where
  stat : Nat
  ctag : BitVec 32
  enk : Word
  cyc : Word
deriving DecidableEq, Repr

/-- The host queue registers (R67), the boot state (R399), MSI-X and the completions held. -/
structure HostPort where
  hcqb : Word := 0
  hcqn : Nat := 0
  hcqt : Nat := 0
  hcqh : Nat := 0
  hcpb : Word := 0
  hcpn : Nat := 0
  hcph : Nat := 0
  hcpt : Nat := 0
  hcpi : Bool := false
  phase : Bool := true
  msiSent : Bool := false
  held : List Completion := []
  /-- Address and data of MSI-X vector 0 as the host has programmed them (R70). -/
  msixAddr : Word := 0
  msixData : BitVec 32 := 0
  state : Nat := 0
  fail : Nat := 0
deriving DecidableEq, Repr

/-- What leaves the device: an MSI-X message (R70), the data or the poison of a host read (R168), an attestation report
(R400), the reply to an access of another device (R156, R159), the count of tiles in service (R28), a line of a checkpoint
(R386), a wake for beads of another device (R189), the news of a dead link (R385). -/
inductive Out
  | msix (addr : Word) (data : BitVec 32)
  | hostData (bytes : List Byte)
  | hostPoison
  | report (bytes : List Byte)
  | reply (dev : Nat) (r : PeerReply)
  | repair (count : Nat)
  | checkpoint (dev : Nat) (loc : Nat) (code : List Byte)
  | wake (dev : Nat) (granule : Nat)
  | linkDead (die : Nat) (port : Nat)
deriving DecidableEq, Repr

/-- What comes from outside and when: a device step, a core's turn, a checker mismatch, a residue failure, an
uncorrectable error in the 32-byte granule of a location, an entry of the ingress import table that the owner of the device
has granted (R158, log 25), what another device exports or exports no more, an access that the owner of an exported range
makes to it, whether packets to a device are lost (R156), the link-state update by which another device's dead link becomes
known here (R385), MSI-X table entry 0 (R70), a buddy's acknowledgement (R386). -/
inductive Input
  | event (e : Ev)
  | turn (core : Nat)
  | mismatch (core : Nat)
  | residue (tile : Nat)
  | poison (loc : Nat)
  | granted (entry : Nat) (w0 w1 : Word)
  | exported (dev ent : Nat) (x : Option Export)
  | outside (q : PeerReq)
  | lost (dev : Nat) (down : Bool)
  | linkUpdate (dev die port : Nat)
  | msixTable (addr : Word) (data : BitVec 32)
  | ckptAck (dev : Nat)
deriving DecidableEq, Repr

/-! ### The whole machine -/

structure State where
  /-- Bytes by location: HBM below 2^40, then scratchpads, Commons, accumulators, then memory of other devices that this
  one reaches (Mem.lean gives the map). -/
  mem : List Host.Cell := []
  /-- Granule metadata (R165) by location div 32. -/
  gmeta : Table (BitVec 12) := []
  /-- The host's own memory, where its rings lie (R67). -/
  hostMem : List Host.Cell := []
  /-- System registers (R170) by block × 2^40 + offset. -/
  sys : Table Word := []
  /-- ACNT of a home unit (R155). -/
  acnt : Table Nat := []
  /-- Granules with an uncorrectable error. -/
  poison : List Nat := []
  /-- Home units that a copy is moving: from, to (R157). -/
  moves : List (Nat × Nat) := []
  /-- What other devices export, by 256 × device + entry (R159); none: the entry is not valid. -/
  exports : Table Export := []
  /-- Devices to which packets are being lost: a dead link's third drain round has ended (R156, R385). -/
  lost : List Nat := []
  /-- Granules here on which beads of another device have parked, and that device (R156, R189, log 20). -/
  peerParks : List (Nat × Nat) := []
  /-- The step in which a 2-byte word of global memory was last written, by location div 2: an instruction word written
  since its kernel's launch is unpredictable (R53). -/
  written : Table Nat := []
  cores : Table Core := []
  tiles : Table Tile := []
  units : Table BeadUnit := []
  dies : Table Die := []
  links : Table Link := []
  parts : Table Part := []
  launches : List Launch := []
  nextLaunch : Nat := 0
  ctxs : Table Ctx := []
  /-- By the home address of a context's descriptor: its edit log at the last unbinding (R62, R291). -/
  pastLogs : Table PastLog := []
  copies : Table Copy := []
  nextCopy : Nat := 0
  /-- The requests in the queues of the PKL units, in issue order (R272, R274). -/
  requests : List PklReq := []
  host : HostPort := {}
  outbox : List Out := []
  /-- Granules that the checkpoint has sent and that nothing has written since, the buddies that have acknowledged
  (R386). -/
  ckpt : List Nat := []
  ckptAcks : List Nat := []
  /-- Outcomes not yet reported (R331, R357). -/
  outcomes : List Outcome := []
  /-- Beads enqueued so far: the uid of the next one. -/
  nextBead : Nat := 1
  /-- Where the rod rings begin in each die's HBM (R46, R78; log 3). -/
  ringBase : Nat := 2 ^ 38 - 321 * 2 ^ 22
  /-- Arithmetic clock cycles since reset (R127). -/
  cyc : Word := 0
  /-- Counts the model's steps. -/
  tick : Nat := 0
  /-- Counts the free values drawn (Config.freeWord). -/
  free : Nat := 0
  /-- The core whose instruction is executed, or was last. -/
  cur : Nat := 0
  /-- Device steps under way, in order: they come before the next instruction. -/
  pend : List Ev := []
  /-- The device step at hand: what it works on. -/
  msg : Option Ev := none
  /-- Device steps that a clock will bring about. -/
  timers : List Ev := []
  /-- The step in which a clock last brought one about. -/
  rang : Nat := 0
  /-- Inputs from outside, in order. -/
  sched : List Input := []
deriving DecidableEq, Repr

/-- What a byte reads as that nothing has written (log 8). -/
def blankByte : Byte := 0

/-- The canonical form of a memory. -/
def Memory.wf (m : List Host.Cell) : Bool := Map.wf blankByte m

/-- SCB after reset (R161). -/
def scbReset (core : Nat) : BitVec 21 := if core < 384 then 0x1FE000 else if core < 416 then 0x3FC00 else 0

/-- A tile's, link core's or steward core's registers after reset: SCB as R161 gives it, the rest 0 (R6; DESIGN CHOICE where no rule
gives a value, log 9). -/
def Core.reset (core : Nat) : Core := { scb := scbReset core, world := decide (416 ≤ core) }

/-- The machine right after reset (R6, R67, R399): no partition, no firmware running, boot state 0; every table is
empty and reads as its entries' reset values; values that no rule gives, DEVID among them, are those of logs 3, 8, 9 and 11
(DESIGN CHOICE). -/
def State.reset : State := {}

end Sys2Proof.Machine
end

