-- ==== Sys2Proof/Machine/Access.lean ====
section
/-! DEFINITION. Where things are: the geometry of the device (R11, R15, R18, R338), the accessors of State, bit fields,
bytes and words (R2), registers (R97). -/

namespace Sys2Proof.Machine

/-! ### Bit fields -/

/-- Bits [lo + w − 1 : lo] of a word, as a number. -/
def fld (w : Word) (lo width : Nat) : Nat := w.toNat / 2 ^ lo % 2 ^ width

def bitOf (w : Word) (i : Nat) : Bool := w.toNat.testBit i

/-- A word with a field replaced. -/
def setFld (w : Word) (lo width v : Nat) : Word :=
  BitVec.ofNat 64 (w.toNat - fld w lo width * 2 ^ lo + v % 2 ^ width * 2 ^ lo)

/-- A word with reserved fields cleared (R7). -/
def clearFlds (w : Word) (fs : List (Nat × Nat)) : Word := fs.foldl (fun a f => setFld a f.1 f.2 0) w

/-- The tag, the space and the address bits of a pointer (R149). -/
def tagOf (p : Word) : Byte := BitVec.ofNat 8 (fld p 56 8)
def spaceOf (p : Word) : Nat := fld p 52 4

/-- PADD (R117): adds within [55:0] and keeps the tag. -/
def padd (p : Word) (off : Int) : Word :=
  BitVec.ofNat 64 (fld p 56 8 * 2 ^ 56 + (((p.toNat % 2 ^ 56 : Nat) + off) % (2 ^ 56 : Int)).toNat)

/-! ### Bytes and words -/

/-- The number that bytes stand for, least significant first. -/
def leNat : List Byte → Nat
  | [] => 0
  | b :: bs => b.toNat + 256 * leNat bs

/-- `n` bytes of a number, least significant first. -/
def leBytes : Nat → Nat → List Byte
  | 0, _ => []
  | n + 1, v => BitVec.ofNat 8 (v % 256) :: leBytes n (v / 256)

/-- Eight-byte words of bytes. -/
def wordsOf : Nat → List Byte → List Word
  | 0, _ => []
  | n + 1, bs => BitVec.ofNat 64 (leNat (bs.take 8)) :: wordsOf n (bs.drop 8)

def bytesOfWords (ws : List Word) : List Byte := ws.flatMap fun w => leBytes 8 w.toNat

/-- Word `i` of a record. -/
def wd (ws : List Word) (i : Nat) : Word := ws.getD i 0

/-! ### Geometry -/

def isTile (k : Nat) : Bool := k < 384
def isLink (k : Nat) : Bool := 384 ≤ k && k < 416
def isSteward (k : Nat) : Bool := 416 ≤ k && k < 420

def tileX (k : Nat) : Nat := k % 24
def tileY (k : Nat) : Nat := k / 24
def tileAtXY (x y : Nat) : Nat := 24 * y + x

/-- The die of a tile position (R11). -/
def dieXY (x y : Nat) : Nat := 2 * (y / 8) + x / 12

/-- The die of a core. -/
def dieOf (k : Nat) : Nat := if k < 384 then dieXY (tileX k) (tileY k) else if k < 416 then (k - 384) / 8 else (k - 416) % 4

/-- The cluster of a tile on its die (R15). -/
def clusterOf (k : Nat) : Nat := 3 * (tileY k % 8 / 2) + tileX k % 12 / 4

/-- The tile's index in its cluster (R15). -/
def indexOf (k : Nat) : Nat := 4 * (tileY k % 2) + tileX k % 4

/-- The unit that holds a core's rods: its cluster, or the link core itself. -/
def unitOf (k : Nat) : Nat := if k < 384 then 12 * dieOf k + clusterOf k else 48 + (k - 384)

/-- The tile of a cluster with an index (R15). -/
def tileIn (u i : Nat) : Nat :=
  let d := u / 12
  let c := u % 12
  tileAtXY (12 * (d % 2) + 4 * (c % 3) + i % 4) (8 * (d / 2) + 2 * (c / 3) + i / 4)

/-- The cores that pop from a unit's rods. -/
def unitCores (u : Nat) : List Nat := if u < 48 then (List.range 8).map (tileIn u) else [384 + (u - 48)]

def unitDie (u : Nat) : Nat := if u < 48 then u / 12 else (u - 48) / 8

/-- The step that executes a PKL request. -/
def pklEvent (q : PklReq) : Ev :=
  match q.op with
  | .sc => .pkscExecute q
  | .sel => .pkselExecute q
  | .gth => .pkgthExecute q
  | .sct => .pksctExecute q

/-! ### Accessors -/

namespace State

def coreAt (s : State) (k : Nat) : Core := (Map.find? s.cores k).getD (Core.reset k)
def putCore (s : State) (k : Nat) (c : Core) : State := { s with cores := Map.put s.cores k c }
def modCore (s : State) (k : Nat) (f : Core → Core) : State := s.putCore k (f (s.coreAt k))

/-- The core whose instruction is executed. -/
def me (s : State) : Core := s.coreAt s.cur
def setMe (s : State) (c : Core) : State := s.putCore s.cur c

def tileAt (s : State) (k : Nat) : Tile := Map.get s.tiles {} k
def putTile (s : State) (k : Nat) (t : Tile) : State := { s with tiles := Map.put s.tiles k t }
def modTile (s : State) (k : Nat) (f : Tile → Tile) : State := s.putTile k (f (s.tileAt k))

def unitAt (s : State) (u : Nat) : BeadUnit := Map.get s.units {} u
def putUnit (s : State) (u : Nat) (x : BeadUnit) : State := { s with units := Map.put s.units u x }
def modUnit (s : State) (u : Nat) (f : BeadUnit → BeadUnit) : State := s.putUnit u (f (s.unitAt u))

def dieAt (s : State) (d : Nat) : Die := Map.get s.dies {} d
def putDie (s : State) (d : Nat) (x : Die) : State := { s with dies := Map.put s.dies d x }
def modDie (s : State) (d : Nat) (f : Die → Die) : State := s.putDie d (f (s.dieAt d))

def linkAt (s : State) (k : Nat) : Link := Map.get s.links {} k
def putLink (s : State) (k : Nat) (x : Link) : State := { s with links := Map.put s.links k x }

def partAt (s : State) (p : Nat) : Option Part := Map.find? s.parts p
def putPart (s : State) (p : Nat) (x : Part) : State := { s with parts := Map.put s.parts p x }
def modPart (s : State) (p : Nat) (f : Part → Part) : State :=
  match s.partAt p with
  | some x => s.putPart p (f x)
  | none => s

def ctxAt (s : State) (c : Nat) : Option Ctx := Map.find? s.ctxs c
def putCtx (s : State) (c : Nat) (x : Ctx) : State := { s with ctxs := Map.put s.ctxs c x }

/-- Adds device steps behind those under way. -/
def push (s : State) (is : List Ev) : State := { s with pend := s.pend ++ is }

/-- Adds device steps before those under way. -/
def pushFirst (s : State) (is : List Ev) : State := { s with pend := is ++ s.pend }

def arm (s : State) (is : List Ev) : State := { s with timers := s.timers ++ is }

def emit (s : State) (o : Out) : State := { s with outbox := s.outbox ++ [o] }

/-- A free value (log 6). -/
def freeWord (s : State) : Word × State := (Config.freeWord s.free, { s with free := s.free + 1 })

end State

/-! ### Registers (R97, R132) -/

namespace Core

/-- s0 reads as zero. -/
def sReg (c : Core) (n : Nat) : Word := if n = 0 then 0 else Map.get c.s 0 n

/-- A write to s0 is ignored. -/
def setS (c : Core) (n : Nat) (v : Word) : Core := if n = 0 then c else { c with s := Map.set c.s 0 n v }

def vReg (c : Core) (n : Nat) : VecReg := Map.get c.v 0 n
def setV (c : Core) (n : Nat) (x : VecReg) : Core := { c with v := Map.set c.v 0 n x }

def pReg (c : Core) (n : Nat) : PredReg := Map.get c.p 0 n
def setP (c : Core) (n : Nat) (x : PredReg) : Core := { c with p := Map.set c.p 0 n x }

/-- A view register, none when it is unloaded. -/
def tReg (c : Core) (n : Nat) : Option ViewReg := Map.find? c.t n
def setT (c : Core) (n : Nat) (x : ViewReg) : Core := { c with t := Map.put c.t n x }

/-- A handle's bank run, none when it holds no banks. -/
def aReg (c : Core) (n : Nat) : Option (Nat × Nat) := Map.find? c.a n
def setA (c : Core) (n : Nat) (x : Nat × Nat) : Core := { c with a := Map.put c.a n x }
def dropA (c : Core) (n : Nat) : Core := { c with a := Map.del c.a n }

/-- Whether a handle holds banks. -/
def holdsBanks (c : Core) : Bool := !c.a.isEmpty

/-- Raises flags (R37). -/
def raise (c : Core) (f : Flags) : Core := { c with flg := c.flg ||| f }

/-- The instruction commits: the next one follows, ICNT counts it (R127). -/
def commit (c : Core) : Core :=
  { c with pc := c.npc, icnt := c.icnt + 1, windows := c.nextWin, chkRun := 0 }

/-- The instruction commits and the next one is at `t`. -/
def jump (c : Core) (t : Word) : Core :=
  { c with pc := t, icnt := c.icnt + 1, windows := c.nextWin, chkRun := 0 }

end Core

/-! ### Partition of a core, its context and its records -/

/-- A link core that is bound, or still runs a bead of its binding (R338, R383). -/
def State.linkServes (s : State) (k : Nat) : Bool := (s.linkAt (k - 384)).bound || (s.coreAt k).bead.isSome

/-- The partition number of a tile, or of a link core's binding. -/
def State.partOf (s : State) (k : Nat) : Option Nat :=
  if isTile k then (s.tileAt k).part
  else if isLink k then (if s.linkServes k then some (s.linkAt (k - 384)).part else none)
  else none

/-- The kernel descriptor that a core's context comes from (R79, R338). -/
def State.kdOf (s : State) (k : Nat) : List Word :=
  if isTile k then (match (s.tileAt k).part with
    | some p => (match s.partAt p with | some x => x.kd | none => [])
    | none => [])
  else if isLink k then (s.linkAt (k - 384)).kd
  else []

/-- The step at which the core's kernel was launched. -/
def State.bornOf (s : State) (k : Nat) : Nat :=
  if isTile k then (match (s.tileAt k).part with
    | some p => (match s.partAt p with | some x => x.born | none => 0)
    | none => 0)
  else (s.linkAt (k - 384)).born

/-- The die whose steward hears of a partition: that of its north-west tile (R20). -/
def Part.die (p : Part) : Nat := dieXY p.x0 p.y0

/-- The tiles of a rectangle in row-major order. -/
def rectTiles (x0 y0 w h : Nat) : List Nat :=
  (List.range h).flatMap fun j => (List.range w).map fun i => tileAtXY (x0 + i) (y0 + j)

def Part.tiles (p : Part) : List Nat := rectTiles p.x0 p.y0 p.w p.h

/-- The rods of a unit allotted to a partition, ascending (R78). -/
def BeadUnit.rodsOf (u : BeadUnit) (p : Option Nat) : List Nat :=
  (u.rods.filter fun e => e.2.part == p).map Prod.fst

/-- RODM: the mask of the rods of a core's partition (R78, R338).  R338 gives a link core 0x000F while V = 1; of a bead that
still runs after V has been cleared it says nothing, and the model reads 0 (DESIGN CHOICE, log 60). -/
def State.rodMask (s : State) (k : Nat) : Nat :=
  if isTile k then
    match (s.tileAt k).part with
    | none => 0
    | some p => ((s.unitAt (unitOf k)).rodsOf (some p)).foldl (fun m r => m + 2 ^ r) 0
  else if isLink k then (if (s.linkAt (k - 384)).bound then 0xF else 0)
  else 0

/-- The rods that a core may name, in ascending order. -/
def State.myRods (s : State) (k : Nat) : List Nat := (List.range 16).filter fun r => (s.rodMask k).testBit r

/-! ### Slots and where they lie (R46, R78, R128) -/

namespace State

def rodAt (s : State) (u r : Nat) : Option Rod := Map.find? (s.unitAt u).rods r

def slotAt (s : State) (b : SlotId) : Option BeadSlot :=
  match s.rodAt b.unit b.rod with
  | some r => Map.find? r.slots b.slot
  | none => none

/-- A rod's number among the rings of its die: clusters first, then link cores (log 3). -/
def ringIndex (u r : Nat) : Nat := if u < 48 then u % 12 * 16 + r % 16 else 192 + (u - 48) % 8 * 16 + r % 16

/-- The home address of a slot's record, BEAD: rings of up to 2^16 records of 64 bytes, one behind the other from `ringBase`
of the unit's die (R46, R78, log 3).  Its tag is 0x00: R127 names none (DESIGN CHOICE, log 62). -/
def slotAddr (s : State) (b : SlotId) : Word :=
  BitVec.ofNat 64 (unitDie b.unit * 2 ^ 38 + (s.ringBase / 64 * 64 + ringIndex b.unit b.rod * 2 ^ 22 + b.slot % 2 ^ 16 * 64) % 2 ^ 38)

/-- BEAD of a core: 0 while it runs no bead. -/
def beadAddr (s : State) (k : Nat) : Word :=
  match (s.coreAt k).bead with
  | some b => s.slotAddr b
  | none => 0

/-- The slot and the byte of its record that a location of HBM is, if any. -/
def ringByte (s : State) (loc : Nat) : Option (SlotId × Nat) :=
  let o := (loc % 2 ^ 38 + 2 ^ 38 - s.ringBase / 64 * 64 % 2 ^ 38) % 2 ^ 38
  let d := loc / 2 ^ 38
  let j := o / 2 ^ 22
  if 2 ^ 40 ≤ loc ∨ 320 ≤ j then none
  else some (⟨if j < 192 then 12 * d + j / 16 else 48 + 8 * d + (j - 192) / 16, j % 16, o % 2 ^ 22 / 64⟩, o % 64)

/-- Who issues what core `k` does: the uid of its bead (R342), or a number of its own where it runs none. -/
def beadKey (s : State) (k : Nat) : Nat :=
  match (s.coreAt k).bead with
  | some b => (match s.slotAt b with | some x => x.uid | none => 0)
  | none => 2 ^ 60 + k

end State

end Sys2Proof.Machine
end

