-- ==== Sys2Proof/Machine/Mem.lean ====
section
/-! DEFINITION. Memory: bytes, granule metadata and wakes (R165, R189), home indirection (R155-R157), translation and the
checks of every access (R149-R171), system registers (R170).

Memory of other devices that this one reaches is part of the state (log 20): a page of ours that lies on another device is at
a location of its own, so an access through the home hem does there what it would do here (R156); a range that another device
exports is at locations of its own too, and its owner's accesses come as inputs. -/

namespace Sys2Proof.Machine

/-! ### Bytes by location -/

/-- Where a scratchpad, a Commons slice, a tile's accumulator memory, the HBM of another device and an export of another
device begin among the locations; HBM lies below. -/
def scratchBase (k : Nat) : Nat := 2 ^ 40 + k * 2 ^ 21
def commonsBase (u : Nat) : Nat := 2 ^ 41 + u * 2 ^ 23
def accBase (k : Nat) : Nat := 2 ^ 42 + k * 2 ^ 19
def frameBase (dev : Nat) : Nat := 2 ^ 54 + dev * 2 ^ 40
def importBase (dev ent : Nat) : Nat := 2 ^ 56 + (256 * dev + ent) * 2 ^ 40

/-- A location of HBM: this device's, or another's for a home unit that lies there. -/
def isHbm (loc : Nat) : Bool := loc < 2 ^ 40 || (2 ^ 54 ≤ loc && loc < 2 ^ 56)

namespace State

def byte (s : State) (loc : Nat) : Byte := Map.get s.mem blankByte loc

def bytes (s : State) (loc : Nat) : Nat → List Byte
  | 0 => []
  | n + 1 => s.byte loc :: s.bytes (loc + 1) n

def putByte (s : State) (loc : Nat) (b : Byte) : State := { s with mem := Map.set s.mem blankByte loc b }

def putBytes (s : State) (loc : Nat) : List Byte → State
  | [] => s
  | b :: bs => (s.putByte loc b).putBytes (loc + 1) bs

def metaAt (s : State) (g : Nat) : BitVec 12 := Map.get s.gmeta 0 g
def putMeta (s : State) (g : Nat) (m : BitVec 12) : State := { s with gmeta := Map.set s.gmeta 0 g m }

end State

/-! ### Granule metadata (R165) -/

def metaTag (m : BitVec 12) : Byte := BitVec.ofNat 8 (m.toNat % 256)
def metaF (m : BitVec 12) : Bool := m.toNat.testBit 8
def metaW (m : BitVec 12) : Bool := m.toNat.testBit 9
def metaD (m : BitVec 12) : Bool := m.toNat.testBit 10

def mkMeta (d w f : Bool) (tag : Byte) : BitVec 12 :=
  BitVec.ofNat 12 (d.toNat * 1024 + w.toNat * 512 + f.toNat * 256 + tag.toNat)

/-- The granules that `n` bytes at a location touch. -/
def granules (loc n : Nat) : List Nat :=
  if n = 0 then [] else (List.range ((loc + n - 1) / 32 - loc / 32 + 1)).map fun i => loc / 32 + i

/-! ### System registers (R170) -/

def sysKey (block off : Nat) : Nat := block * 2 ^ 40 + off

namespace State

/-- A system register, 0 until written.  DEVID, the ramp defaults and floors of block 0x071 and the throttle steps of 0x072 to
0x075 have no reset value in the spec: DESIGN CHOICE 0 (R6, log 9). -/
def sysReg (s : State) (block off : Nat) : Word := Map.get s.sys 0 (sysKey block off)
def setSys (s : State) (block off : Nat) (v : Word) : State := { s with sys := Map.set s.sys 0 (sysKey block off) v }

/-- The device's own domain number (R170). -/
def devId (s : State) : Nat := fld (s.sysReg 0x002 0) 0 12

end State

/-- The block and the offset of a home unit's indirection entry (R155, R170). -/
def indirBlock (pa : Nat) : Nat := 0x050 + 4 * (pa / 2 ^ 38 % 4) + pa / 2 ^ 12 % 4
def indirOff (pa : Nat) : Nat := 16 * (pa / 2 ^ 14 % 2 ^ 24)

/-- w0 of an entry; an entry never written has CDEV own and CPPN home. -/
def State.indir (s : State) (pa : Nat) : Word :=
  match Map.find? s.sys (sysKey (indirBlock pa) (indirOff pa)) with
  | some w => w
  | none => BitVec.ofNat 64 (s.devId * 2 ^ 32 + pa / 4096)

/-- The home unit whose entry lies at an offset of an indirection block. -/
def indirUnit (block off : Nat) : Nat :=
  let die := (block - 0x050) / 4
  let stack := (block - 0x050) % 4
  die * 2 ^ 26 + off / 16 * 4 + stack

/-- ACNT of a home unit (R155): the accesses of every path, and the device's own to its rings and lists. -/
def State.accesses (s : State) (u : Nat) : Nat :=
  min 0xFFFF (s.units.foldl (fun n e => n + Map.get e.2.hits 0 u) (Map.get s.acnt 0 u))

/-- A system register as a load reads it: an indirection entry's w1 holds ACNT (R155), an entry's w0 its default. -/
def State.readSys (s : State) (block off : Nat) : Word :=
  if 0x050 ≤ block ∧ block < 0x060 then
    let u := indirUnit block off
    if off % 16 = 0 then s.indir (4096 * u) else setFld (s.sysReg block off) 48 16 (s.accesses u)
  else s.sysReg block off

/-- Where an entry says that its unit's data lie (R155). -/
def State.entryPlace (s : State) (w : Word) : Nat :=
  if fld w 32 12 = s.devId then fld w 0 28 * 4096 else frameBase (fld w 32 12) + fld w 0 28 * 4096

/-- Where a home address's bytes lie now (R155). -/
def State.current (s : State) (pa : Nat) : Nat := s.entryPlace (s.indir pa) + pa % 4096

/-- The home unit whose data lie at a location of HBM: the one whose entry names it, else itself (R155). -/
def State.homeUnit (s : State) (loc : Nat) : Nat :=
  match s.sys.find? fun e =>
      decide (0x050 * 2 ^ 40 ≤ e.1) && decide (e.1 < 0x060 * 2 ^ 40) && e.1 % 16 == 0 &&
      s.entryPlace e.2 == loc / 4096 * 4096 with
  | some e => indirUnit (e.1 / 2 ^ 40) (e.1 % 2 ^ 40)
  | none => loc / 4096

/-- What park tables know a granule by (R188): its home address in HBM, else where it lies. -/
def State.granuleKey (s : State) (g : Nat) : Nat :=
  if isHbm (32 * g) then 128 * s.homeUnit (32 * g) + g % 128 else g

/-- A granule's metadata as it reads: D is set too where the device's own write of a bead record or a list's entry has set it
(R165). -/
def State.metaSeen (s : State) (g : Nat) : BitVec 12 :=
  let m := s.metaAt g
  if isHbm (32 * g) && s.units.any (fun e => e.2.wrote.contains (s.granuleKey g)) then mkMeta true (metaW m) (metaF m) (metaTag m)
  else m

/-- What a write does to a granule beside its bytes (R165, R189): D set, W cleared with a wake, an uncorrectable error
overwritten.  `f` is the F bit after it. -/
def State.noteWrite (s : State) (g : Nat) (f : Bool) : State :=
  let m := s.metaAt g
  let s1 := s.putMeta g (mkMeta true false f (metaTag m))
  let s2 := { s1 with
    ckpt := s1.ckpt.filter fun x => x / 2 != g / 2
    poison := s1.poison.filter (· != g) }
  if metaW m then s2.push [.parkTableWake g] else s2

/-! ### Places and issuers -/

/-- What an address resolves to: a location, a system register, or nothing because another device refuses the access
(R159) or a dead link loses it (R156).  `split`: the first `k` bytes lie at `loc` and the rest at `next`, since the heap window
takes the access over the end of a home unit and the next one lies elsewhere (R151, R155). -/
inductive Place
  | mem (loc : Nat)
  | split (loc k next : Nat)
  | gone (dead : Bool)
  | sys (block off : Nat)
deriving DecidableEq, Repr

/-- Whose access it is: the core that issues, the core whose scratchpad space 0x4 names, the partition, the world, the
heap window, the path. -/
structure Issuer where
  core : Nat
  own : Nat
  part : Option Nat
  world : Bool
  heap : Word × Word × Word
  steward : Bool
  path : Path
deriving DecidableEq, Repr

/-- The heap window that a descriptor names (R54, R79). -/
def heapOf (kd : List Word) : Word × Word × Word := (wd kd 9, wd kd 10, wd kd 11)

/-- The issuer that a core is. -/
def State.issuer (s : State) (k : Nat) (path : Path) : Issuer :=
  { core := k, own := k, part := s.partOf k, world := (s.coreAt k).world, heap := heapOf (s.kdOf k),
    steward := isSteward k, path := path }

/-- A fault of a cause at an address; GVA belongs to the check of a granule (R166, R368). -/
def faultAt (i : Issuer) (cause : Nat) (va : Word) : FaultInfo := { cause := cause, path := i.path, va := va }

def cAlign : Nat := 0x06
def cAddress : Nat := 0x07
def cTranslation : Nat := 0x08
def cWorld : Nat := 0x09
def cTag : Nat := 0x0A
def cImport : Nat := 0x0B
def cDead : Nat := 0x0C
def cUncorrectable : Nat := 0x0D

/-- The cause of an access that has not been delivered. -/
def goneCause (dead : Bool) : Nat := if dead then cDead else cImport

/-- The status bit of a write that ended with a cause (R331, R357): DEAD, IMP, POIS, else FLT. -/
def statusBit (cause : Nat) : BitVec 5 :=
  if cause = cDead then 1 else if cause = cImport then 2 else if cause = cUncorrectable then 8 else 4

/-! ### Global space (R151-R153) -/

/-- A home read of 8 bytes without checks, as a walk makes it (R153). -/
def State.homeWord (s : State) (pa : Nat) : Word := BitVec.ofNat 64 (leNat (s.bytes (s.current pa) 8))

/-- The walk (R153): the leaf entry and whether it is a 2 MiB leaf; none for a translation fault.  `lvl` counts down. -/
def State.walkFrom (s : State) (a : Nat) : Nat → Nat → Option (Word × Bool)
  | 0, _ => none
  | lvl + 1, base =>
    -- lvl + 1 = 4 is level 1 of R153
    let idx := match lvl with | 3 => a / 2 ^ 42 % 1024 | 2 => a / 2 ^ 32 % 1024 | 1 => a / 2 ^ 21 % 2048 | _ => a / 2 ^ 16 % 32
    let e := s.homeWord (base + 8 * idx)
    let next := fld e 8 32 * 256
    let size := match lvl with | 3 => 2 ^ 13 | 2 => 2 ^ 14 | 1 => 2 ^ 8 | _ => 1
    if !bitOf e 63 then none
    else if fld e 58 2 = 3 then (if lvl = 0 ∨ next % size ≠ 0 then none else s.walkFrom a lvl next)
    else if fld e 58 2 = 2 then none
    else if lvl = 1 ∧ bitOf e 57 then (if fld e (if fld e 58 2 = 1 then 0 else 16) 5 = 0 then some (e, true) else none)
    else if lvl = 0 ∧ !bitOf e 57 then some (e, false)
    else none

/-- The walk from the root of a world (R171). -/
def State.walk (s : State) (world : Bool) (a : Nat) : Option (Word × Bool) :=
  let root := s.sysReg 0x001 (if world then 8 else 0)
  if bitOf root 0 then s.walkFrom a 4 (fld root 13 27 * 8192) else none

/-- The TLB's entry for an address (R153). -/
def tlbFind (tlb : List TlbEntry) (world : Bool) (a : Nat) : Option (Word × Bool) :=
  match tlb.find? fun e => e.world == world && (if e.big then e.base == a / 2 ^ 21 * 2 ^ 21 else e.base == a / 2 ^ 16 * 2 ^ 16) with
  | some e => some (e.pte, e.big)
  | none => none

/-- The entry that translates an address of an issuer. -/
def State.pteFor (s : State) (i : Issuer) (a : Nat) : Option (Word × Bool) :=
  match tlbFind (s.coreAt i.core).tlb i.world a with
  | some e => some e
  | none => s.walk i.world a

/-- Whether an address lies in the heap window (R151). -/
def inHeap (i : Issuer) (a : Nat) : Bool :=
  let hb := fld i.heap.1 0 52
  i.heap.2.1 != 0 && decide (hb ≤ a) && decide (a - hb < i.heap.2.1.toNat)

/-- A secure range register covers a home address (R169). -/
def State.securePa (s : State) (pa : Nat) : Bool :=
  (List.range 4).any fun d => (List.range 8).any fun k =>
    let w0 := s.sysReg (0x040 + d) (16 * k)
    let w1 := s.sysReg (0x040 + d) (16 * k + 8)
    bitOf w0 63 && decide (fld w0 12 28 ≤ pa / 4096) && decide (pa / 4096 < fld w1 12 28)

/-- The home units of `n` bytes at a home address, each by its first address. -/
def homeUnits (pa n : Nat) : List Nat :=
  (List.range ((pa % 4096 + n + 4095) / 4096)).map fun j => (pa / 4096 + j) * 4096

/-- Some unit of `n` bytes at a home address lies in a secure range (R169). -/
def State.secureIn (s : State) (pa n : Nat) : Bool := (homeUnits pa n).any s.securePa

/-- Some unit of `n` bytes at a home address lies on a device that a dead link cuts off (R156). -/
def State.lostIn (s : State) (pa n : Nat) : Bool := (homeUnits pa n).any fun u => s.lost.contains (fld (s.indir u) 32 12)

/-- `n` bytes at a home address as a place: within HBM, after the secure ranges; two runs where the bytes of its second unit lie
elsewhere, or a unit is being moved. -/
def State.homePlace (s : State) (i : Issuer) (va : Word) (pa n : Nat) : Except FaultInfo Place :=
  let k := 4096 - pa % 4096
  if 2 ^ 40 < pa + n then .error (faultAt i cAddress va)
  else if !i.world && s.secureIn pa n then .error (faultAt i cWorld va)
  else if s.lostIn pa n then .ok (.gone true)
  else if k < n ∧ (s.current (pa + k) ≠ s.current pa + k ∨ s.moves ≠ []) then .ok (.split (s.current pa) k (s.current (pa + k)))
  else .ok (.mem (s.current pa))

/-- What a global address names before indirection: a home address, or an import page's device, entry, key and offset. -/
inductive Home
  | pa (a : Nat)
  | imp (dev ent key off : Nat)
deriving DecidableEq, Repr

/-- TranslateGlobal (R151) up to the home address. -/
def State.globalHome (s : State) (i : Issuer) (va : Word) (n : Nat) (wr ex : Bool) : Except FaultInfo Home :=
  let a := fld va 0 52
  let last := a + (n - 1)
  if i.steward then
    if 2 ^ 40 ≤ last then .error (faultAt i cAddress va) else .ok (.pa a)
  else if 2 ^ 52 ≤ last ∨ inHeap i a ≠ inHeap i last then .error (faultAt i cAddress va)
  else if inHeap i a then .ok (.pa ((a + fld i.heap.2.2 0 52) % 2 ^ 52))
  else
    match s.pteFor i a with
    | none => .error (faultAt i cTranslation va)
    | some (e, big) =>
      let low := if big then a % 2 ^ 21 else a % 2 ^ 16
      if !bitOf e 63 || fld e 58 2 == 2 then .error (faultAt i cTranslation va)
      else if bitOf e 62 && !i.world then .error (faultAt i cWorld va)
      else if wr && !bitOf e 61 then .error (faultAt i cTranslation va)
      else if ex && !bitOf e 60 then .error (faultAt i cTranslation va)
      else if fld e 58 2 = 1 then .ok (.imp (fld e 44 12) (fld e 24 8) (fld e 32 12) (fld e 0 24 * 65536 + low))
      else .ok (.pa (fld e 16 24 * 65536 + low))

/-- The tests that the exporting device makes of an access (R159); SDEV of an export that this device can name is this
device or any. -/
def Export.admits (x : Export) (key off n : Nat) (wr world : Bool) : Bool :=
  x.key == key && decide (off + n ≤ x.len * 65536) && (!wr || x.wr) && (!x.secure || world)

/-- The place of an access to an import page (R158, R159). -/
def State.importPlace (s : State) (i : Issuer) (dev ent key off n : Nat) (wr : Bool) : Place :=
  if s.lost.contains dev then .gone true
  else
    match Map.find? s.exports (256 * dev + ent) with
    | none => .gone false
    | some x => if x.admits key off n wr i.world then .mem (importBase dev ent + off) else .gone false

/-- TranslateGlobal (R151). -/
def State.transGlobal (s : State) (i : Issuer) (va : Word) (n : Nat) (wr ex : Bool) : Except FaultInfo Place :=
  match s.globalHome i va n wr ex with
  | .error f => .error f
  | .ok (.imp dev ent key off) => .ok (s.importPlace i dev ent key off n wr)
  | .ok (.pa a) => s.homePlace i va a n

/-! ### Scratchpad and Commons (R160-R163) -/

/-- The size of a core's scratchpad (R13, R19, R408). -/
def scratchSize (k : Nat) : Nat := if isTile k then 2 ^ 21 else if isLink k then 2 ^ 18 else 0

/-- The window field of a pointer (R160); 0 outside spaces 0x4 and 0x5. -/
def windowOf (va : Word) : Nat := if spaceOf va = 4 ∨ spaceOf va = 5 then fld va 24 4 else 0

/-- The core whose scratchpad a space-0x4 or 0x5 pointer names; none for an address fault (R162). -/
def State.scratchCore (s : State) (i : Issuer) (va : Word) : Option Nat :=
  if spaceOf va = 4 then some i.own
  else if !isTile i.core then none
  else
    let k := tileIn (unitOf i.core) (Nat.xor (indexOf i.core) (fld va 32 3))
    if (s.tileAt k).part == i.part && i.part.isSome then some k else none

/-- The scratchpad's part of translation: the location (R149, R150, R160, R162). -/
def State.transScratch (s : State) (i : Issuer) (va : Word) (n : Nat) : Except FaultInfo Place :=
  let bad := if spaceOf va = 4 then fld va 28 24 != 0 else fld va 35 17 != 0 || fld va 28 4 != 0
  if bad || fld va 21 3 != 0 || 5 < fld va 24 4 then .error (faultAt i cAddress va)
  else
    match s.scratchCore i va with
    | none => .error (faultAt i cAddress va)
    | some k =>
      if scratchSize k < fld va 0 21 + n then .error (faultAt i cAddress va)
      else if !i.world && isTile k && (match (s.tileAt k).part with
          | some p => (match s.partAt p with | some x => x.world | none => false)
          | none => false) then .error (faultAt i cWorld va)
      else .ok (.mem (scratchBase k + fld va 0 21))

/-- The lowest-numbered valid region register that holds a slice offset (R163). -/
def State.regionFor (s : State) (u o : Nat) : Option Word :=
  ((List.range 16).map fun k => s.sysReg (0x010 + u) (8 * k)).find? fun r =>
    bitOf r 63 && decide (fld r 0 7 ≤ o / 65536) && decide (o / 65536 < fld r 0 7 + fld r 8 8)

/-- The check of one 64 KiB unit of a slice (R163).  OWN = 0xFF on a non-secure region admits a secure partition too, whose accesses
reach either world (R169) (DEDUCED, log 64). -/
def State.regionCheck (s : State) (i : Issuer) (va : Word) (u o : Nat) (wr : Bool) : Except FaultInfo Unit :=
  if i.steward then .ok ()
  else
    match s.regionFor u o with
    | none => .error (faultAt i cAddress va)
    | some r =>
      if fld r 48 8 ≠ 0xFF ∧ some (fld r 48 8) ≠ i.part then .error (faultAt i cAddress va)
      else if bitOf r 62 && !i.world then .error (faultAt i cWorld va)
      else if wr && !bitOf r 61 then .error (faultAt i cTranslation va)
      else .ok ()

/-- The Commons slice that a pointer names (R149): the unit, or none. -/
def commonsUnit (i : Issuer) (va : Word) : Option Nat :=
  let c := fld va 28 4
  if 12 ≤ c ∨ fld va 23 5 ≠ 0 then none
  else if spaceOf va = 6 then (if fld va 32 20 = 0 then some (12 * dieOf i.core + c) else none)
  else if fld va 34 18 = 0 then some (12 * fld va 32 2 + c) else none

def State.transCommons (s : State) (i : Issuer) (va : Word) (n : Nat) (wr : Bool) : Except FaultInfo Place :=
  match commonsUnit i va with
  | none => .error (faultAt i cAddress va)
  | some u =>
    let o := fld va 0 23
    if 2 ^ 23 < o + n then .error (faultAt i cAddress va)
    else if !i.steward && s.regionFor u o != s.regionFor u (o + (n - 1)) then .error (faultAt i cAddress va)
    else
      match s.regionCheck i va u o wr with
      | .ok _ => .ok (.mem (commonsBase u + o))
      | .error f => .error f

/-! ### System space (R170) -/

/-- Whether a chapter assigns the block (R150): 08 R170, 09 R188, 17 R338, 21 R386 and R409, 23 R395 and R397. -/
def sysAssigned (block off : Nat) : Bool :=
  (block == 0x001 && off < 16) || (block == 0x002 && off < 8) || (0x010 ≤ block && block < 0x040 && off < 128) ||
  (0x040 ≤ block && block < 0x044 && off < 128) || (block == 0x048 && off < 4096) ||
  (0x050 ≤ block && block < 0x060 && off < 2 ^ 28) || (0x060 ≤ block && block < 0x064 && off < 256) ||
  (block == 0x070 && off < 8) || (block == 0x071 && off < 8) || (0x072 ≤ block && block < 0x076 && off < 8) ||
  (0x078 ≤ block && block < 0x07C && off < 192) || (0x07C ≤ block && block < 0x080 && off < 8)

/-- System space: the world is tested before the form of the access and its block (R169, R170; DEDUCED, log 36). -/
def transSys (i : Issuer) (va : Word) (n : Nat) : Except FaultInfo Place :=
  if !i.world then .error (faultAt i cWorld va)
  else if n ≠ 8 ∨ fld va 0 3 ≠ 0 then .error (faultAt i cAddress va)
  else if sysAssigned (fld va 40 12) (fld va 0 40) then .ok (.sys (fld va 40 12) (fld va 0 40))
  else .error (faultAt i cAddress va)

/-! ### The whole translation (R149-R151) -/

/-- The paths that may reach a space (R149); EVU accesses and records go as the C path; the host reaches home addresses only
(R73, R168). -/
def pathReaches (p : Path) (space : Nat) : Bool :=
  match space with
  | 0x0 => p != .e
  | 0x4 => p != .host
  | 0x5 => p != .host
  | 0x6 => p != .e && p != .k && p != .host
  | 0x7 => p != .e && p != .k && p != .host
  | 0xF => p == .c
  | _ => false

/-- The place of `n` bytes (at least one) at a pointer, or the fault of R150 to R154, R163, R169. -/
def State.translate (s : State) (i : Issuer) (va : Word) (n : Nat) (wr ex : Bool) : Except FaultInfo Place :=
  if !pathReaches i.path (spaceOf va) then .error (faultAt i cAddress va)
  else
    match spaceOf va with
    | 0x0 => s.transGlobal i va n wr ex
    | 0x4 => s.transScratch i va n
    | 0x5 => s.transScratch i va n
    | 0x6 => s.transCommons i va n wr
    | 0x7 => s.transCommons i va n wr
    | _ => transSys i va n

/-- Counts an access to a home unit, saturating (R155, log 26). -/
def State.countUnit (s : State) (loc : Nat) : State :=
  if isHbm loc then
    let u := s.homeUnit loc
    { s with acnt := Map.put s.acnt u (min 0xFFFF (Map.get s.acnt 0 u + 1)) }
  else s

/-- The home addresses of the entries that a walk reads, from the root down. -/
def State.walkReads (s : State) (a : Nat) : Nat → Nat → List Nat
  | 0, _ => []
  | lvl + 1, base =>
    let pa := base + 8 * (match lvl with | 3 => a / 2 ^ 42 % 1024 | 2 => a / 2 ^ 32 % 1024 | 1 => a / 2 ^ 21 % 2048 | _ => a / 2 ^ 16 % 32)
    let e := s.homeWord pa
    pa :: (if bitOf e 63 ∧ fld e 58 2 = 3 then s.walkReads a lvl (fld e 8 32 * 256) else [])

/-- The accesses to home units that a walk of a world makes, found or not; none without a root (R171). -/
def State.countWalk (s : State) (world : Bool) (a : Nat) : State :=
  let root := s.sysReg 0x001 (if world then 8 else 0)
  (if bitOf root 0 then s.walkReads a 4 (fld root 13 27 * 8192) else []).foldl
    (fun (t : State) (pa : Nat) => t.countUnit (t.current pa)) s

/-- An issuer's translation of an address needs a walk: global, outside the heap window, in no entry of its TLB (R151, R153). -/
def State.walks (s : State) (i : Issuer) (va : Word) : Bool :=
  spaceOf va == 0 && !i.steward && !inHeap i (fld va 0 52) && (tlbFind (s.coreAt i.core).tlb i.world (fld va 0 52)).isNone

/-- The table words of the walk that an issuer's translation needs, if it needs one (R155); its TLB stays (log 26). -/
def State.countWalked (s : State) (i : Issuer) (va : Word) : State :=
  if s.walks i va then s.countWalk i.world (fld va 0 52) else s

/-- A translation by walk stays in the TLB of the issuing core (R153, R154); an EVU has none (R384).  A walk that finds nothing
counts too (R155). -/
def State.noteTlb (s : State) (i : Issuer) (va : Word) : State :=
  let c := s.coreAt i.core
  let a := fld va 0 52
  if !s.walks i va then s
  else
    match s.walk i.world a with
    | none => s.countWalk i.world a
    | some (e, big) =>
      let base := if big then a / 2 ^ 21 * 2 ^ 21 else a / 2 ^ 16 * 2 ^ 16
      if 416 ≤ i.core then s.countWalk i.world a
      else (s.countWalk i.world a).putCore i.core { c with tlb := { base := base, big := big, world := i.world, pte := e } :: c.tlb }

/-- A C-path access of the executing core has been translated. -/
def State.useTlb (s : State) (va : Word) : State := s.noteTlb (s.issuer s.cur .c) va

/-! ### The tag check (R166) -/

/-- The first granule of `n` bytes at a location whose tag refuses a pointer's, with the tag found. -/
def State.tagMiss (s : State) (loc n : Nat) (tag : Byte) : Option (Nat × Byte) :=
  match (granules loc n).find? fun g => metaTag (s.metaAt g) != 0 && metaTag (s.metaAt g) != tag with
  | some g => some (g, metaTag (s.metaAt g))
  | none => none

/-- Some granule of `n` bytes at a location has an uncorrectable error. -/
def State.poisoned (s : State) (loc n : Nat) : Bool := (granules loc n).any fun g => s.poison.contains g

/-- Accumulators carry no tags (R165). -/
def tagged (loc : Nat) : Bool := loc < 2 ^ 42 || 2 ^ 54 ≤ loc

def tagFault (i : Issuer) (va : Word) (loc : Nat) (m : Nat × Byte) : FaultInfo :=
  { cause := cTag, path := i.path, va := va, gva := padd va ((32 * m.1 : Nat) - (loc : Int)), exp := tagOf va, fnd := m.2 }

/-- The check at the memory: tag, then an uncorrectable error for a read. -/
def State.memCheck (s : State) (i : Issuer) (va : Word) (loc n : Nat) (rd : Bool) : Except FaultInfo Unit :=
  match s.tagMiss loc n (tagOf va) with
  | some m => .error (tagFault i va loc m)
  | none =>
    if rd then
      match (granules loc n).find? fun g => s.poison.contains g with
      | some g => .error { faultAt i cUncorrectable va with gva := padd va ((32 * g : Nat) - (loc : Int)) }
      | none => .ok ()
    else .ok ()

/-! ### Reads and writes at the memory -/

/-- Counts the access that an issuer makes at a pointer, where it reaches memory. -/
def State.countAt (s : State) (i : Issuer) (va : Word) : State :=
  match s.translate i va 1 false false with
  | .ok (.mem loc) => s.countUnit loc
  | _ => s

/-- Where in its home unit an access begins; the heap window may shift it (R151). -/
def State.unitOffset (s : State) (i : Issuer) (va : Word) : Nat :=
  match s.translate i va 1 false false with
  | .ok (.mem loc) => loc % 4096
  | _ => va.toNat % 4096

/-- A pointer into each of the home units that an access of `n` bytes touches. -/
def State.unitStarts (s : State) (i : Issuer) (va : Word) (n : Nat) : List Word :=
  let o := s.unitOffset i va
  (List.range ((o + n + 4095) / 4096)).map fun j => if j = 0 then va else padd va (4096 * j - o : Int)

/-- Whether an access that ended with a cause has reached the memory: its tag or an uncorrectable error stopped it. -/
def atMemory (cause : Nat) : Bool := cause == cTag || cause == cUncorrectable

/-- Whether a fault of a cause may be what a walk has found, or what an access meets behind its walk (R151, R153, R156, R159). -/
def afterWalk (cause : Nat) : Bool :=
  atMemory cause || cause == cTranslation || cause == cWorld || cause == cImport || cause == cDead

/-- What an access that faults leaves: it counts where it has reached the memory, and so do the table words of its walk, whose
entry the TLB does not keep (R155, log 26). -/
def State.noteFailed (s : State) (i : Issuer) (va : Word) (n : Nat) (f : FaultInfo) : State :=
  let s1 := if afterWalk f.cause then s.countWalked i va else s
  if atMemory f.cause then (s.unitStarts i va n).foldl (fun t p => t.countAt i p) s1 else s1

/-! ### The device-reserved regions as accesses see them (R46, R78, R129, R188) -/

/-- The eight words of a record. -/
def wordsOfRec (r : BeadRec) : List Word := [r.code, r.frame, r.pjoin, r.w3, r.arg0, r.arg1, r.arg2, r.arg3]

def recOfWords (ws : List Word) : BeadRec :=
  { code := wd ws 0, frame := wd ws 1, pjoin := wd ws 2, w3 := wd ws 3, arg0 := wd ws 4, arg1 := wd ws 5,
    arg2 := wd ws 6, arg3 := wd ws 7 }

/-- CLS and GA of a park entry's granule (R188): HBM by its home address, a scratchpad and Commons by die, cluster, tile and
offset. -/
def granuleCode (g : Nat) : Nat :=
  if g < 2 ^ 35 then g
  else if g < 2 ^ 36 then
    let k := (g - 2 ^ 35) / 2 ^ 16
    2 ^ 62 + dieOf k * 2 ^ 23 + clusterOf k * 2 ^ 19 + indexOf k * 2 ^ 16 + g % 2 ^ 16
  else
    let u := (g - 2 ^ 36) / 2 ^ 18
    2 ^ 63 + u / 12 * 2 ^ 22 + u % 12 * 2 ^ 18 + g % 2 ^ 18

/-- The granule that CLS and GA name. -/
def granuleOf (w : Word) : Nat :=
  match fld w 62 2 with
  | 1 => 2 ^ 35 + tileIn (12 * fld w 23 2 + fld w 19 4) (fld w 16 3) * 2 ^ 16 + fld w 0 16
  | 2 => 2 ^ 36 + (12 * fld w 22 2 + fld w 18 4) * 2 ^ 18 + fld w 0 18
  | _ => fld w 0 35

/-- A spill entry's two words (R188). -/
def State.parkWords (s : State) (e : ParkEntry) : List Word :=
  [BitVec.ofNat 64 (granuleCode e.granule),
   BitVec.ofNat 64 (e.seq % 2 ^ 24 * 2 ^ 40 + (s.slotAddr e.slot).toNat / 64 * 64 + e.world.toNat)]

/-- The entry that two words in the place of a spill entry name; a SLOT outside every ring leaves the slot as it was. -/
def State.parkOfWords (s : State) (e : ParkEntry) (ws : List Word) : ParkEntry :=
  { e with
    granule := granuleOf (wd ws 0), seq := fld (wd ws 1) 40 24, world := bitOf (wd ws 1) 0
    slot := match s.ringByte (fld (wd ws 1) 6 34 * 64) with | some (b, _) => b | none => e.slot }

/-- The home address of a location: that of the unit whose data lie there (R155). -/
def State.homeLoc (s : State) (loc : Nat) : Nat := if isHbm loc then 4096 * s.homeUnit loc + loc % 4096 else loc

/-- What stands at a home address of a device-reserved region (R46, R78, R129, R188), with the byte of it that the address is:
a record in its ring, an entry of a cluster's spill list, a record of its overflow list. -/
inductive Reserved
  | slot (b : SlotId) (k : Nat)
  | spill (unit n k : Nat)
  | overflow (unit n k : Nat)
deriving DecidableEq, Repr

/-- The home address of a cluster's spill list (R188). -/
def State.spillBase (s : State) (u : Nat) : Nat := fld (s.sysReg (0x078 + u / 12) (16 * (u % 12))) 12 28 * 4096

/-- The place in a cluster's spill list or overflow list that a home address is (R188). -/
def State.spillAt (s : State) (pa u : Nat) : Option Reserved :=
  let r := s.sysReg (0x078 + u / 12) (16 * (u % 12) + 8)
  let base := s.spillBase u
  let cap := 16 * fld r 0 23
  if pa < base ∨ base + cap + 64 * fld r 32 23 ≤ pa then none
  else if pa < base + cap then some (.spill u ((pa - base) / 16) ((pa - base) % 16))
  else some (.overflow u ((pa - base - cap) / 64) ((pa - base - cap) % 64))

/-- What stands at a home address. -/
def State.reservedAt (s : State) (pa : Nat) : Option Reserved :=
  match s.ringByte pa with
  | some (b, k) => some (.slot b k)
  | none =>
    if pa < 2 ^ 40 ∧ s.sys.any (fun e => decide (0x078 * 2 ^ 40 ≤ e.1)) then (List.range 48).findSome? (s.spillAt pa) else none

/-- The entries of a unit that stand in its spill list. -/
def BeadUnit.spilled (u : BeadUnit) : List ParkEntry := u.park.filter fun e => e.spill.isSome

/-- The bytes of what stands in a device-reserved region, none for a free place. -/
def State.reservedImage (s : State) : Reserved → Option (List Byte)
  | .slot b _ => (s.slotAt b).map fun x => bytesOfWords (wordsOfRec x.record)
  | .spill u n _ => ((s.unitAt u).park.find? fun e => e.spill == some n).map fun e => bytesOfWords (s.parkWords e)
  | .overflow u n _ => ((s.unitAt u).overflow.find? fun e => e.place == n).map fun e => bytesOfWords (wordsOfRec e.record)

def Reserved.byte : Reserved → Nat
  | .slot _ k => k | .spill _ _ k => k | .overflow _ _ k => k

/-- What stands at a location of a device-reserved region, from its byte on. -/
def State.reservedBytes (s : State) (loc : Nat) : Option (List Byte) :=
  match s.reservedAt (s.homeLoc loc) with
  | some r => (s.reservedImage r).map fun bs => bs.drop r.byte
  | none => none

/-- Reads 16-byte units one by one: those of the reserved regions as they stand, else memory's. -/
def State.lookUnits (s : State) : Nat → Nat → Nat → List Byte
  | 0, _, _ => []
  | fuel + 1, loc, n =>
    if n = 0 then []
    else
      let k := min n (16 - loc % 16)
      (match s.reservedBytes loc with | some bs => bs.take k | none => s.bytes loc k) ++ s.lookUnits fuel (loc + k) (n - k)

/-- The bytes that a read returns (R46). -/
def State.look (s : State) (loc n : Nat) : List Byte := s.lookUnits (n / 16 + 2) loc n

/-- Bytes written over an image at a byte of it. -/
def overlay (old : List Byte) (k : Nat) (bs : List Byte) : List Byte := old.take k ++ bs ++ old.drop (k + bs.length)

/-- What stands in a device-reserved region takes the words of an image (R46, R129, R188). -/
def State.putReserved (s : State) (r : Reserved) (img : List Byte) : State :=
  match r with
  | .slot b _ =>
    match s.slotAt b with
    | none => s
    | some x =>
      s.modUnit b.unit fun u => { u with rods := u.rods.map fun e =>
        if e.1 = b.rod then
          (e.1, { e.2 with slots := Map.put e.2.slots b.slot { x with record := { recOfWords (wordsOf 8 img) with evu := x.record.evu } } })
        else e }
  | .spill u n _ => s.modUnit u fun x => { x with
      park := x.park.map fun e => if e.spill = some n then s.parkOfWords e (wordsOf 2 img) else e }
  | .overflow u n _ => s.modUnit u fun x => { x with
      overflow := x.overflow.map fun e =>
        if e.place = n then { e with record := { recOfWords (wordsOf 8 img) with evu := e.record.evu } } else e }

/-- A write of 16-byte units into the reserved regions changes what stands there. -/
def State.pokeUnits (s : State) : Nat → Nat → List Byte → State
  | 0, _, _ => s
  | fuel + 1, loc, bs =>
    if bs.isEmpty then s
    else
      let k := min bs.length (16 - loc % 16)
      (match s.reservedAt (s.homeLoc loc) with
        | none => s
        | some r => (match s.reservedImage r with
          | none => s
          | some old => s.putReserved r (overlay old r.byte (bs.take k)))).pokeUnits fuel (loc + k) (bs.drop k)

/-- A write into a reserved region changes the record or the entry that stands there (R46, R188). -/
def State.pokeRecord (s : State) (loc : Nat) (bs : List Byte) : State :=
  if isHbm loc then s.pokeUnits (bs.length / 16 + 2) loc bs else s

/-! ### Contexts' structures (R59-R66) -/

namespace Ctx

/-- Fields of the header (R59). -/
def hw (c : Ctx) : Nat := fld (wd c.hdr 0) 32 32
def fmt (c : Ctx) : Nat := fld (wd c.hdr 0) 20 4
def eager (c : Ctx) : Bool := !bitOf (wd c.hdr 0) 15
def blk (c : Ctx) : Nat := 2 ^ fld (wd c.hdr 0) 12 3
def layers (c : Ctx) : Nat := fld (wd c.hdr 0) 0 9
def rpri (c : Ctx) : Nat := fld (wd c.hdr 1) 8 2
def rclu (c : Ctx) : Nat := fld (wd c.hdr 1) 4 4
def rrod (c : Ctx) : Nat := fld (wd c.hdr 1) 0 4
def pmap (c : Ctx) : Word := wd c.hdr 4
def pcap (c : Ctx) : Nat := fld (wd c.hdr 5) 32 32
def elog (c : Ctx) : Word := wd c.hdr 6
def elb (c : Ctx) : Nat := fld (wd c.hdr 7) 32 8
def bt (c : Ctx) : Word := wd c.hdr 8
def nb (c : Ctx) : Nat := fld (wd c.hdr 9) 0 17
def spool (c : Ctx) : Word := wd c.hdr 10
def scnt (c : Ctx) : Nat := fld (wd c.hdr 11) 32 16
def sbytes (c : Ctx) : Nat := fld (wd c.hdr 11) 0 32
def free (c : Ctx) : Word := wd c.hdr 12

/-- The bound tag (R286). -/
def tag (c : Ctx) : Byte := tagOf c.spool

/-- The owning EVU (R285). -/
def die (c : Ctx) : Nat := c.home / 2 ^ 38 % 4

/-- The EVU's accesses go through the heap window recorded and the walk root of the context's world (R290). -/
def issuer (c : Ctx) : Issuer :=
  { core := 420, own := 420, part := none, world := c.world, heap := (c.hb, c.hl, c.ho), steward := false, path := .evu }

/-- What the EVU alone writes while the context is bound (R66): pointers and lengths. -/
def owned (c : Ctx) : List (Word × Nat) :=
  [(padd c.desc 0x10, 4), (padd c.desc 0x18, 4), (padd c.desc 0x28, 4), (padd c.desc 0x38, 4), (padd c.desc 0x68, 2),
   (c.pmap, 8 * c.pcap), (c.elog, 16 * 2 ^ c.elb), (c.bt, 32 * (c.layers * c.nb)), (c.free, 2 * c.scnt)]

end Ctx

/-- Some byte of `n` at a location belongs to `len` bytes of a context at a pointer: page by page. -/
def State.rangeMeets (s : State) (c : Ctx) (va : Word) (len loc n : Nat) : Bool :=
  let lo := va.toNat % 4096
  decide (len ≠ 0) && (List.range ((lo + len + 4095) / 4096)).any fun j =>
    match s.translate c.issuer (padd va (4096 * j - lo : Int)) 1 false false with
    | .ok (.mem page) =>
      decide (loc < page + min 4096 (lo + len - 4096 * j)) && decide (page + (if j = 0 then lo else 0) < loc + n)
    | _ => false

/-- A store that software makes to a context's own structures leaves the EVU's results for it unpredictable (R66). -/
def State.taintCtxs (s : State) (loc n : Nat) : State :=
  { s with ctxs := s.ctxs.map fun (e : Nat × Ctx) =>
      if e.2.owned.any fun r => s.rangeMeets e.2 r.1 r.2 loc n then (e.1, { e.2 with tainted := true }) else e }

/-- The step in which the 2-byte words of `n` bytes of global memory are written: an instruction word may lie there (R53). -/
def State.noteWords (s : State) (loc n : Nat) : State :=
  let keys := (List.range ((loc + n + 1) / 2 - loc / 2)).map fun j => loc / 2 + j
  if isHbm loc || 2 ^ 56 ≤ loc then { s with written := keys.foldl (fun m j => Map.put m j s.tick) s.written } else s

/-- Writes bytes where they lie and, while their unit is being moved, where it goes (R157). -/
def State.landBytes (s : State) (loc : Nat) (bs : List Byte) : State :=
  let s1 := ((s.putBytes loc bs).pokeRecord loc bs).noteWords loc bs.length
  match s1.moves.find? fun m => m.1 == loc / 4096 with
  | some m => s1.putBytes (m.2 * 4096 + loc % 4096) bs
  | none => s1

/-- The bytes of a write that no EVU makes for itself. -/
def State.storeBytes (s : State) (loc : Nat) (bs : List Byte) : State :=
  (s.landBytes loc bs).taintCtxs loc bs.length

/-- Counts an access of `n` bytes in each unit that it touches (R155). -/
def State.countRun (s : State) (loc n : Nat) : State := (homeUnits loc n).foldl State.countUnit s

/-- Counts one access to pieces of memory in each unit that it touches (R155). -/
def State.countPieces (s : State) (ps : List (Nat × Nat)) : State :=
  ((ps.flatMap fun p => homeUnits p.1 p.2).eraseDups).foldl State.countUnit s

/-- What a write does beside its bytes: D, wakes (R165, R189). -/
def State.markWrite (s : State) (loc n : Nat) : State :=
  if tagged loc then (granules loc n).foldl (fun t g => t.noteWrite g (metaF (t.metaAt g))) s else s

/-- Bytes that have passed their checks, with what they mark; their access is counted elsewhere. -/
def State.putAt (s : State) (loc : Nat) (bs : List Byte) : State := (s.storeBytes loc bs).markWrite loc bs.length

/-- A write that has passed its checks. -/
def State.writeAt (s : State) (loc : Nat) (bs : List Byte) : State := (s.putAt loc bs).countRun loc bs.length

/-- Bytes that the EVU writes to structures of its own. -/
def State.evuPutAt (s : State) (loc : Nat) (bs : List Byte) : State := (s.landBytes loc bs).markWrite loc bs.length

/-- The two runs of a split access: where each lies, its pointer, its length. -/
def splitRuns (va : Word) (n loc k next : Nat) : List (Nat × Word × Nat) := [(loc, va, k), (next, padd va k, n - k)]

/-- The check of a split access (R166): the tags of both runs, then their uncorrectable errors; the record names the access. -/
def State.checkRuns (s : State) (i : Issuer) (va : Word) (rs : List (Nat × Word × Nat)) (rd : Bool) : Except FaultInfo Unit :=
  let bad (f : Nat → Word → Nat → Option FaultInfo) : Option FaultInfo :=
    (rs.findSome? fun r => f r.1 r.2.1 r.2.2).map fun f => { f with va := va }
  match bad fun loc p n => (s.tagMiss loc n (tagOf p)).map (tagFault i p loc) with
  | some f => .error f
  | none =>
    match bad fun loc p n => match s.memCheck i p loc n rd with | .error f => some f | .ok _ => none with
    | some f => .error f
    | none => .ok ()

/-! ### Objects that lie over the end of a home unit (R155, R157)

An aligned word or granule lies within one home unit but in a heap window whose offset has no alignment (R54).  What is known of
it is the location of its first byte; the rest lies behind, or where the next home unit's data are. -/

/-- Where byte `o` of an object lies whose first byte lies at a location. -/
def State.placeFrom (s : State) (loc o : Nat) : Nat :=
  if isHbm loc && decide (4096 ≤ loc % 4096 + o) then s.current (s.homeLoc loc + o) else loc + o

/-- The runs of `n` bytes of such an object: one, or two over the end of a home unit. -/
def State.runsFrom (s : State) (loc n : Nat) : List (Nat × Nat) :=
  let k := 4096 - loc % 4096
  if isHbm loc && decide (k < n) then [(loc, k), (s.placeFrom loc k, n - k)] else [(loc, n)]

/-- The bytes of such an object. -/
def State.spanLook (s : State) (loc n : Nat) : List Byte := (s.runsFrom loc n).flatMap fun r => s.look r.1 r.2

/-- Some granule of it has an uncorrectable error. -/
def State.spanPoisoned (s : State) (loc n : Nat) : Bool := (s.runsFrom loc n).any fun r => s.poisoned r.1 r.2

/-- The check of an access to it (R166). -/
def State.spanCheck (s : State) (i : Issuer) (va : Word) (loc n : Nat) (rd : Bool) : Except FaultInfo Unit :=
  let k := 4096 - loc % 4096
  s.checkRuns i va (if isHbm loc && decide (k < n) then splitRuns va n loc k (s.placeFrom loc k) else [(loc, va, n)]) rd

/-- Counts an access to it (R155). -/
def State.spanCount (s : State) (loc n : Nat) : State := s.countPieces (s.runsFrom loc n)

/-- A read of any path at one place, checked. -/
def State.readPlace (s : State) (i : Issuer) (va : Word) (n : Nat) : Except FaultInfo (List Byte) :=
  match s.translate i va n false false with
  | .error f => .error f
  | .ok (.mem loc) =>
    match s.memCheck i va loc n true with
    | .error f => .error f
    | .ok _ => .ok (s.look loc n)
  | .ok (.split loc k next) =>
    match s.checkRuns i va (splitRuns va n loc k next) true with
    | .error f => .error f
    | .ok _ => .ok (s.look loc k ++ s.look next (n - k))
  | .ok (.sys b o) => .ok (leBytes 8 (s.readSys b o).toNat)
  | .ok (.gone dead) => .error (faultAt i (goneCause dead) va)

/-- The locations and lengths of a write, checked in full before any byte changes (R166): one, or two of a split access. -/
def State.writeRuns (s : State) (i : Issuer) (va : Word) (n : Nat) : Except FaultInfo (List (Nat × Nat)) :=
  match s.translate i va n true false with
  | .error f => .error f
  | .ok (.mem loc) =>
    match s.memCheck i va loc n false with
    | .error f => .error f
    | .ok _ => .ok [(loc, n)]
  | .ok (.split loc k next) =>
    match s.checkRuns i va (splitRuns va n loc k next) false with
    | .error f => .error f
    | .ok _ => .ok [(loc, k), (next, n - k)]
  | .ok (.gone dead) => .error (faultAt i (goneCause dead) va)
  | .ok (.sys ..) => .error (faultAt i cAddress va)

/-- The location of the first byte of a write that one bank, or one operation of a structure's granule, performs (log 58). -/
def State.writePlace (s : State) (i : Issuer) (va : Word) (n : Nat) : Except FaultInfo Nat :=
  match s.writeRuns i va n with
  | .error f => .error f
  | .ok ((loc, _) :: _) => .ok loc
  | .ok [] => .error (faultAt i cAddress va)

/-- JoinProbe (R138): alignment, translation, tag and world of `n` bytes, changing nothing; the location of the first (log 58). -/
def State.probe (s : State) (i : Issuer) (p : Word) (n align : Nat) : Except FaultInfo Nat :=
  if p.toNat % align ≠ 0 then .error (faultAt i cAlign p)
  else
    match s.translate i p n true false with
    | .error f => .error f
    | .ok (.mem loc) | .ok (.split loc _ _) =>
      match s.spanCheck i p loc n false with
      | .error f => .error f
      | .ok _ => .ok loc
    | .ok (.gone dead) => .error (faultAt i (goneCause dead) p)
    | .ok (.sys ..) => .error (faultAt i cAddress p)

/-- JoinProbe of a join word (R138, R179): as `probe`, and a scratchpad address is an address fault. -/
def State.probeWord (s : State) (i : Issuer) (p : Word) : Except FaultInfo Nat :=
  if p.toNat % 16 = 0 ∧ (spaceOf p = 4 ∨ spaceOf p = 5) then .error (faultAt i cAddress p) else s.probe i p 16 16

/-- Reads `n` bytes piece by piece, each within one 32-byte granule, as an engine does (R166); the record names the access `at_`. -/
def State.readFrom (s : State) (i : Issuer) (at_ va : Word) : Nat → Nat → Except FaultInfo (List Byte)
  | 0, _ => .ok []
  | fuel + 1, n =>
    if n = 0 then .ok []
    else
      let k := min n (32 - va.toNat % 32)
      match s.readPlace i va k with
      | .error f => .error { f with va := at_ }
      | .ok bs =>
        match s.readFrom i at_ (padd va k) fuel (n - k) with
        | .error f => .error f
        | .ok rest => .ok (bs ++ rest)

def State.readPieces (s : State) (i : Issuer) (va : Word) (fuel n : Nat) : Except FaultInfo (List Byte) :=
  s.readFrom i va va fuel n

/-- The locations of `n` bytes to be written, piece by piece, all checked; the record names the access `at_`. -/
def State.writeFrom (s : State) (i : Issuer) (at_ va : Word) : Nat → Nat → Except FaultInfo (List (Nat × Nat))
  | 0, _ => .ok []
  | fuel + 1, n =>
    if n = 0 then .ok []
    else
      let k := min n (32 - va.toNat % 32)
      match s.writeRuns i va k with
      | .error f => .error { f with va := at_ }
      | .ok rs =>
        match s.writeFrom i at_ (padd va k) fuel (n - k) with
        | .error f => .error f
        | .ok rest => .ok (rs ++ rest)

def State.writePieces (s : State) (i : Issuer) (va : Word) (fuel n : Nat) : Except FaultInfo (List (Nat × Nat)) :=
  s.writeFrom i va va fuel n

/-- The region of R150 that a pointer's fields select: space, slice or scratchpad, heap window, Commons region. -/
def State.regionKey (s : State) (i : Issuer) (va : Word) : List Nat :=
  let space := spaceOf va
  if space = 0 then [0, (inHeap i (fld va 0 52)).toNat]
  else if space = 4 ∨ space = 5 then [space, windowOf va, (s.scratchCore i va).getD 999]
  else if space = 6 ∨ space = 7 then
    match commonsUnit i va with
    | some u => [space, u, if i.steward then 0 else ((s.regionFor u (fld va 0 23)).getD 0).toNat]
    | none => [space]
  else [space]

/-- One access of `n` bytes (at least one) lies in one region, which is tested before any of it is translated (R150, R151). -/
def State.oneRegion (s : State) (i : Issuer) (va : Word) (n : Nat) : Bool :=
  s.regionKey i va == s.regionKey i (padd va (n - 1 : Nat))

/-- One access that reads `n` bytes at any alignment. -/
def State.readWhole (s : State) (i : Issuer) (va : Word) (n : Nat) : Except FaultInfo (List Byte) :=
  if s.oneRegion i va n then s.readPieces i va (n / 32 + 2) n else .error (faultAt i cAddress va)

/-- One access that writes `n` bytes at any alignment: its pieces. -/
def State.writeWhole (s : State) (i : Issuer) (va : Word) (n : Nat) : Except FaultInfo (List (Nat × Nat)) :=
  if s.oneRegion i va n then s.writePieces i va (n / 32 + 2) n else .error (faultAt i cAddress va)

/-- Puts bytes to pieces that have been checked. -/
def State.putPieces (s : State) : List (Nat × Nat) → List Byte → State
  | [], _ => s
  | (loc, k) :: ps, bs => (s.putAt loc (bs.take k)).putPieces ps (bs.drop k)

/-- Writes bytes to pieces that have been checked, as one access. -/
def State.fillPieces (s : State) (ps : List (Nat × Nat)) (bs : List Byte) : State := (s.countPieces ps).putPieces ps bs

/-- Writes an object that may lie over the end of a home unit. -/
def State.spanWrite (s : State) (loc : Nat) (bs : List Byte) : State := s.fillPieces (s.runsFrom loc bs.length) bs

/-- The location of a tile's scale byte for an offset (R161), none when it lies beyond the scratchpad. -/
def State.scaleLoc (s : State) (k off : Nat) : Option Nat :=
  let o := (s.coreAt k).scb.toNat + off / 256
  if o < scratchSize k then some (scratchBase k + o) else none

/-- The core and the offset of a scratchpad location. -/
def scratchOf (loc : Nat) : Nat × Nat := ((loc - 2 ^ 40) / 2 ^ 21, (loc - 2 ^ 40) % 2 ^ 21)

end Sys2Proof.Machine
end

