-- ==== Sys2Proof/Machine/Ops.lean ====
section
/-! DEFINITION. The operations that the meanings share: fault records and steward events (R367, R368, R373, R409), taking a
trap and leaving the handler (R370-R372), rods and slots (R128-R131), the end of a run (R146), park entries (R188). -/

namespace Sys2Proof.Machine

/-! ### Steward events (R373) -/

def eventWord (kind part rod id : Nat) : Word :=
  BitVec.ofNat 64 (kind * 2 ^ 56 + part % 256 * 2 ^ 48 + rod % 16 * 2 ^ 40 + id % 2 ^ 40)

/-- KIND and PART of an event word. -/
def eventKey (w : Word) : Nat := fld w 48 16

/-- Sets LOST on the last of a list's events with a key; none when there is no such event. -/
def mergeEvent (key : Nat) : List Word → Option (List Word)
  | [] => none
  | w :: ws =>
    match mergeEvent key ws with
    | some r => some (w :: r)
    | none => if eventKey w = key then some (setFld w 47 1 1 :: ws) else none

/-- An event enters the die's queue of 256, merges with one of its KIND and PART, or is held (R373). -/
def Die.post (d : Die) (w : Word) : Die :=
  if d.events.length < 256 then { d with events := d.events ++ [w] }
  else
    match mergeEvent (eventKey w) d.events with
    | some es => { d with events := es }
    | none => { d with held := d.held ++ [w] }

def State.post (s : State) (die kind : Nat) (part : Option Nat) (rod id : Nat) : State :=
  s.modDie die fun d => d.post (eventWord kind (part.getD 0xFF) rod id)

/-! ### Fault records (R367, R368, R409) -/

def Path.code : Path → Nat
  | .c => 0 | .x => 1 | .e => 2 | .k => 3 | .host => 4 | .evu => 5 | .device => 6

/-- The sixteen words of a record: the initiator's world, place in its rectangle and bead, the fault, the reporting
instruction (R368). -/
def recordWords (world : Bool) (idx idy : Nat) (bead : Word) (f : FaultInfo) (rpc : Word) : List Word :=
  let w0 := f.cause % 256 * 2 ^ 56 + Path.code f.path * 2 ^ 53 + f.late.toNat * 2 ^ 52 + f.unk.toNat * 2 ^ 51
    + world.toNat * 2 ^ 50 + idx % 32 * 2 ^ 40 + idy % 16 * 2 ^ 36 + f.sub % 16 * 2 ^ 32 + f.info % 2 ^ 32
  let w6 : Word := match f.node with
    | some (n, q) => BitVec.ofNat 64 (q % 2 ^ 32 * 2 ^ 32 + n % 2 ^ 32)
    | none => bead
  [BitVec.ofNat 64 w0, f.va, f.gva, BitVec.ofNat 64 (f.exp.toNat * 256 + f.fnd.toNat), rpc, f.cpc.getD rpc, w6, f.tile]
    ++ (List.range 8).map fun k => BitVec.ofNat 64 (f.done.toNat / 2 ^ (64 * k))

/-- The record of a fault of a core. -/
def State.coreRecord (s : State) (k : Nat) (f : FaultInfo) (rpc : Word) : List Word :=
  let c := s.coreAt k
  let xy := if isTile k then ((s.tileAt k).idx, (s.tileAt k).idy) else if isLink k then (0x1F, (k - 384) % 8) else (0, 0)
  recordWords c.world xy.1 xy.2 (s.beadAddr k) f rpc

/-- A record for the steward (R409): the state, its number, its address; none when the area is not valid.  Each word goes
through its own home unit (R155), unchecked (R166). -/
def State.stewardRecord (s : State) (die : Nat) (ws : List Word) : State × Option (Nat × Word) :=
  let r := s.sysReg (0x07C + die) 0
  let sfa := fld r 7 33 * 128
  let nrec := leNat (s.bytes (s.current sfa) 4)
  let head := leNat (s.bytes (s.current (sfa + 8)) 8)
  if !bitOf r 0 || nrec == 0 then (s, none)
  else
    let pa := (sfa + 128 * (1 + head % nrec)) % 2 ^ 40
    let t := (s.countUnit (s.current sfa)).writeAt (s.current pa) (bytesOfWords ws)
    (t.writeAt (s.current (sfa + 8)) (leBytes 8 (head + 1)), some (head, BitVec.ofNat 64 pa))

/-- A record for the steward and its event (R367, R409). -/
def State.tellSteward (s : State) (die kind : Nat) (part : Option Nat) (ws : List Word) : State × Word :=
  let r := s.stewardRecord die ws
  match r.2 with
  | some (n, a) => (r.1.post die kind part 0 n, a)
  | none => (r.1.post die kind part 0 0xFFFFFFFFFF, 0)

/-- The device's writes for a partition: its context and world, tag-checked, on the C path (R367). -/
def deviceIssuer (core : Nat) (part : Option Nat) (world : Bool) (kd : List Word) : Issuer :=
  { core := core, own := core, part := part, world := world, heap := heapOf kd, steward := false, path := .c }

/-- An area takes a record and its new HEAD; the header's access and the walks to both places count (R155). -/
def State.areaFill (s : State) (i : Issuer) (area va : Word) (ps hs : List (Nat × Nat)) (ws : List Word) (head : Nat) : State :=
  ((((s.countWalked i area).countAt i area).countWalked i va).fillPieces ps (bytesOfWords ws)).fillPieces hs (leBytes 8 head)

/-- A record in the fault area at a pointer; none when the area cannot take it (R367). -/
def State.areaWrite (s : State) (i : Issuer) (area : Word) (ws : List Word) : Option (State × Word) :=
  match s.readWhole i area 16 with
  | .error _ => none
  | .ok hd =>
    let nrec := leNat (hd.take 4)
    let head := leNat (hd.drop 8)
    if nrec = 0 then none
    else
      let va := padd area (128 * (1 + head % nrec) : Nat)
      match s.writeWhole i va 128, s.writeWhole i (padd area 8) 8 with
      | .ok ps, .ok hs => some (s.areaFill i area va ps hs ws (head + 1), va)
      | _, _ => none

/-- The accesses to an area that could not take a record (R155). -/
def State.areaTried (s : State) (i : Issuer) (area : Word) : State :=
  match s.readWhole i area 16 with
  | .error f => s.noteFailed i area 16 f
  | .ok hd =>
    let nrec := leNat (hd.take 4)
    let va := padd area (128 * (1 + leNat (hd.drop 8) % nrec) : Nat)
    let s1 := (s.countWalked i area).countAt i area
    match nrec, s.writeWhole i va 128 with
    | 0, _ => s1
    | _, .error f => s1.noteFailed i va 128 f
    | _, .ok _ => s1

/-- A record for a partition's fault area, else for its steward with an event of kind 3. -/
def State.partRecord (s : State) (p : Nat) (ws : List Word) : State × Word :=
  match s.partAt p with
  | none => s.tellSteward 0 3 none ws
  | some x =>
    let s1 := s.putPart p { x with recorded := true }
    let i := deviceIssuer (tileAtXY x.x0 x.y0) (some p) x.world x.kd
    match s1.areaWrite i (wd x.kd 6) ws with
    | some r => r
    | none => (s1.areaTried i (wd x.kd 6)).tellSteward x.die 3 (some p) ws

/-- The die whose steward hears of committed work: that of the partition's north-west tile (R20, R52).  So it is for a link
core's binding, also where the partition lies wholly on another die than the link core (DESIGN CHOICE, log 62). -/
def State.workDie (s : State) (core : Nat) (part : Option Nat) : Nat :=
  match part.bind s.partAt with
  | some x => x.die
  | none => dieOf core

/-- A record of a core's fault where its context sends it (R367, R338, R409): the state and the record's address. -/
def State.fileRecord (s : State) (k : Nat) (ws : List Word) : State × Word :=
  if isTile k then
    match (s.tileAt k).part with
    | some p => s.partRecord p ws
    | none => s.tellSteward (dieOf k) 3 none ws
  else if isLink k then
    let l := s.linkAt (k - 384)
    let i := deviceIssuer k (some l.part) l.world l.kd
    match s.areaWrite i (wd l.kd 6) ws with
    | some r => r
    | none => (s.areaTried i (wd l.kd 6)).tellSteward (s.workDie k (some l.part)) 3 (some l.part) ws
  else s.tellSteward (dieOf k) 3 none ws

/-- A fault record of a core without a trap (causes marked "record" in R366, late records). -/
def State.record (s : State) (k : Nat) (f : FaultInfo) (rpc : Word) : State := (s.fileRecord k (s.coreRecord k f rpc)).1

/-! ### Slots and rods (R128-R131) -/

/-- PSCAP and OVCAP of a unit (R188): a link core's own table has neither list (log 15). -/
def State.parkCaps (s : State) (u : Nat) : Nat × Nat :=
  if u < 48 then
    let w := s.sysReg (0x078 + u / 12) (16 * (u % 12) + 8)
    (fld w 0 23, fld w 32 23)
  else (0, 0)

/-- The lowest place of a list that no entry takes (log 14). -/
def freePlace (taken : List Nat) : Nat := ((List.range taken.length).find? fun n => !taken.contains n).getD taken.length

/-- Counts the device's own accesses to home units of its rings and lists (R155, log 26). -/
def BeadUnit.hit (x : BeadUnit) (us : List Nat) : BeadUnit :=
  { x with hits := us.foldl (fun m u => Map.put m u (Map.get m 0 u + 1)) x.hits }

/-- The device's own writes to granules of its regions set their D (R165); what the checkpoint sent of their lines before keeps
it (R386). -/
def BeadUnit.wroteAt (x : BeadUnit) (gs : List Nat) : BeadUnit :=
  { x.hit ((gs.map fun g => g / 128).eraseDups) with
    wrote := gs.foldl (fun l g => if l.contains g then l else g :: l) x.wrote
    sent := x.sent.filter fun g => !gs.any fun h => h / 2 == g / 2 }

namespace State

def putRod (s : State) (u r : Nat) (x : Rod) : State :=
  s.modUnit u fun b => { b with rods := Map.put b.rods r x }
def modRod (s : State) (u r : Nat) (f : Rod → Rod) : State :=
  match s.rodAt u r with
  | some x => s.putRod u r (f x)
  | none => s

def putSlot (s : State) (b : SlotId) (x : BeadSlot) : State :=
  s.modRod b.unit b.rod fun r => { r with slots := Map.put r.slots b.slot x }

/-- A bead's record is written into its slot of the ring (R46, R165). -/
def wroteSlot (s : State) (b : SlotId) : State := s.modUnit b.unit fun x => x.wroteAt (granules (s.slotAddr b).toNat 64)

def modRecord (s : State) (b : SlotId) (f : BeadRec → BeadRec) : State :=
  match s.slotAt b with
  | some x => (s.putSlot b { x with record := f x.record }).wroteSlot b
  | none => s

/-- The granules of a cluster's spill list and overflow list in which `new` has an entry or a record that does not stand there
yet (R188): a place whose entry has left is not written. -/
def listGranules (s : State) (u : Nat) (new : BeadUnit) : List Nat :=
  let x := s.unitAt u
  let base := s.spillBase u
  let stands (e : ParkEntry) : Bool := x.park.any fun o => o.spill == e.spill && s.parkWords o == s.parkWords e
  if 48 ≤ u then []
  else
    (new.spilled.filter fun e => !stands e).flatMap (fun e => granules (base + 16 * e.spill.getD 0) 16) ++
    (new.overflow.filter fun o => !x.overflow.contains o).flatMap fun o =>
      granules (base + 16 * (s.parkCaps u).1 + 64 * o.place) 64

/-- The home units in which an entry of the spill list, or a record of the overflow list, stands (R188). -/
def spillPage (s : State) (u : Nat) (e : ParkEntry) : Nat := (s.spillBase u + 16 * e.spill.getD 0) / 4096
def overflowPage (s : State) (u : Nat) (o : Overflow) : Nat := (s.spillBase u + 16 * (s.parkCaps u).1 + 64 * o.place) / 4096

/-- A unit whose park entries or overflow records have changed: what the device writes of its lists sets D (R165). -/
def putLists (s : State) (u : Nat) (x : BeadUnit) : State := s.putUnit u (x.wroteAt (s.listGranules u x))

/-- A record joins a unit's overflow list behind those that wait already (R129), at the lowest free place (log 14). -/
def addOverflow (s : State) (u rod : Nat) (rec_ : BeadRec) : State :=
  let x := s.unitAt u
  s.putLists u { x with
    overflow := x.overflow ++ [{ rod := rod, record := rec_, place := freePlace (x.overflow.map Overflow.place) }] }

/-- A slot leaves its use; the overflow list may now enter (R129). -/
def freeSlot (s : State) (b : SlotId) : State :=
  (s.modRod b.unit b.rod fun r => { r with slots := Map.del r.slots b.slot }).push [.overflowListDrain b.unit]

/-- A bead that is enqueued for the first time has a number that no bead had before (R342). -/
def newBead (s : State) : Nat × State := (s.nextBead, { s with nextBead := s.nextBead + 1 })

/-- A slot enters the ready order at its tail (R129). -/
def appendTail (s : State) (b : SlotId) (rec_ : BeadRec) (uid : Nat) : State :=
  (s.modRod b.unit b.rod fun r => { r with
    slots := Map.put r.slots b.slot { record := rec_, use := .ready, uid := uid }
    ready := r.ready ++ [b.slot]
    buffered := if r.ready.length < 4 then r.buffered + 1 else r.buffered }).push [.pickupGrant b.unit]

/-- A record is enqueued in a slot (R129): a new bead at the ready order's tail. -/
def enqueueNew (s : State) (b : SlotId) (rec_ : BeadRec) : State :=
  (s.newBead.2.appendTail b rec_ s.newBead.1).wroteSlot b

/-- A slot enters the ready order at its head (R146). -/
def appendHead (s : State) (b : SlotId) (rec_ : BeadRec) (uid : Nat) : State :=
  (s.modRod b.unit b.rod fun r => { r with
    slots := Map.put r.slots b.slot { record := rec_, use := .ready, uid := uid }
    ready := b.slot :: r.ready
    buffered := min 4 (r.buffered + 1) }).push [.pickupGrant b.unit]

end State

/-- PRI and ROD of an enqueued record are those of its rod (R48); SPN is 0, and so are reserved fields (R7, R45, R47). -/
def fitRecord (rod : Nat) (r : Rod) (x : BeadRec) : BeadRec :=
  { x with w3 := setFld (setFld (clearFlds x.w3 [(54, 10), (35, 13), (0, 32)]) 52 2 r.prio) 48 4 rod }

/-- A record that enters its rod again keeps SPN (R47, R381): PRI and ROD are those of its rod, reserved fields 0. -/
def refitRecord (rod : Nat) (r : Rod) (x : BeadRec) : BeadRec :=
  let y := fitRecord rod r x
  { y with w3 := setFld y.w3 0 32 (fld x.w3 0 32) }

/-- The lowest slot of a ring that is free (the manual says only "a free slot"; log 50). -/
def Rod.freeSlot? (r : Rod) : Option Nat := (List.range r.cap).find? fun i => (Map.find? r.slots i).isNone

/-- Whether the record's S is the rod's world (R48). -/
def worldFits (r : Rod) (x : BeadRec) : Bool := bitOf x.w3 33 == r.world

/-- Clears R in the running bead's record (R147). -/
def State.clearR (s : State) (k : Nat) : State :=
  match (s.coreAt k).bead with
  | some b => s.modRecord b fun r => { r with w3 := setFld r.w3 34 1 0 }
  | none => s

/-! ### The end of a run (R135, R146, R372) -/

/-- The core takes no bead any more; what a pickup sets stays until the next one (R132). -/
def Core.rest (c : Core) : Core :=
  { c with mode := .idle, bead := none, windows := [], chkRun := 0, inh := false }

/-- The table holds nodes of the running bead only (R221): those of a bead that is gone go with it. -/
def Tile.dropNodes (t : Tile) : Tile := { t with nodes := [], order := [], demand := none, reserve := [] }

/-- Pending nodes and held banks of a bead whose run ends are discarded (R146). -/
def State.dropTileWork (s : State) (k : Nat) : State :=
  let s1 := s.modCore k fun c => { c with a := [] }
  if isTile k then s1.modTile k Tile.dropNodes else s1

/-- The evaluation under way is abandoned; the nodes stay pending (R240). -/
def Tile.abandon (t : Tile) : Tile :=
  { t with demand := none, reserve := [],
           nodes := t.nodes.map fun (e : Nat × Node) => (e.1, { e.2 with want := 0, state := .pending }) }

/-- The core becomes idle and asks for a pickup. -/
def State.idleCore (s : State) (k : Nat) : State :=
  (s.modCore k Core.rest).push (if isSteward k then [] else [.pickupGrant (unitOf k)])

/-- Ends a bead's run with its slot marked lost, no join word decremented (R372, R375).  The banks that it held stay held
until the next pickup (R132) or the retirement (R392; log 40). -/
def State.loseBead (s : State) (k : Nat) : State :=
  let s1 := match (s.coreAt k).bead with
    | some b => (match s.slotAt b with | some x => s.putSlot b { x with use := .lost } | none => s)
    | none => s
  (if isTile k then s1.modTile k Tile.dropNodes else s1).idleCore k

/-! ### Taking a trap (R370-R372) -/

/-- The handler's address: TVEC, or SVEC of the die for WSW and on a steward core (R370, R387). -/
def State.trapVector (s : State) (k cause : Nat) : Word :=
  if cause = 0x02 ∨ isSteward k then (s.dieAt (dieOf k)).svec else wd (s.kdOf k) 7

/-- The die whose steward hears of a core's partition (R20). -/
def State.stewardDie (s : State) (k : Nat) : Nat := s.workDie k (s.partOf k)

/-- DoubleTrap (R372): a record of cause 0x20 with the new cause in INFO, the slot lost, an event of kind 2. -/
def State.doubleTrap (s : State) (k cause : Nat) : State :=
  let s1 := s.record k { cause := 0x20, info := cause } (s.coreAt k).pc
  let s2 := s1.post (s1.stewardDie k) 2 (s1.partOf k) 0 0
  if isSteward k then s2.modCore k Core.rest else s2.loseBead k

/-- TrapEntry (R370): `epc` is where ERET resumes.  A fault of any cause but TRAP and WSW writes its record first. -/
def State.trapEntry (s : State) (k : Nat) (f : FaultInfo) (epc : Word) : State :=
  if (s.coreAt k).inh then s.doubleTrap k f.cause
  else
    let r := if f.cause = 0x01 ∨ f.cause = 0x02 then (s, (0 : Word)) else s.fileRecord k (s.coreRecord k f (s.coreAt k).pc)
    r.1.modCore k fun c => { c with
      epc := epc
      ecause := BitVec.ofNat 64 (f.cause % 256 * 2 ^ 56 + f.sub % 16 * 2 ^ 32 + f.info % 2 ^ 32)
      eaddr := if f.cause = 0x01 ∨ f.cause = 0x02 then 0 else f.va
      erec := r.2
      pw := c.world
      inh := true
      world := if f.cause = 0x02 then true else c.world
      pc := r.1.trapVector k f.cause
      windows := []
      chkRun := 0
      mode := .running }

/-- A precise fault of the executing instruction (R370): ERET resumes at it. -/
def State.trap (s : State) (f : FaultInfo) : State := s.trapEntry s.cur f s.me.pc

/-- A fault of a plain cause at the executing instruction. -/
def State.trapCause (s : State) (cause : Nat) : State := s.trap { cause := cause }

/-- ERET (R371): back to EPC and the world before entry. -/
def Core.eret (c : Core) : Core :=
  { c with pc := c.epc, world := c.pw, inh := false, icnt := c.icnt + 1, windows := [], chkRun := 0 }

/-! ### Committing -/

/-- The executing instruction commits. -/
def State.retire (s : State) : State := s.setMe s.me.commit

/-- Runs a meaning that may raise a precise fault: the fault is taken at the instruction. -/
def orTrap (s : State) (r : Except FaultInfo State) : State :=
  match r with
  | .ok t => t
  | .error f => s.trap f

/-- Records an outcome for the CPWAIT or fence that covers it (R331, R357). -/
def State.addOutcome (s : State) (core bead : Nat) (kind : WorkKind) (bits : BitVec 5) : State :=
  if bits = 0 then s else { s with outcomes := s.outcomes ++ [{ core := core, bead := bead, kind := kind, bits := bits }] }

/-- LoadC: `n` bytes at a pointer for the executing core, at issue. -/
def State.loadC (s : State) (va : Word) (n : Nat) : Except FaultInfo (List Byte) := s.readPlace (s.issuer s.cur .c) va n

/-- Two reads, one after the other: a descriptor's two lines may lie in two home units (R155). -/
def bothLines (a b : Except FaultInfo (List Byte)) : Except FaultInfo (List Byte) :=
  match a, b with
  | .ok x, .ok y => .ok (x ++ y)
  | .ok _, r => r
  | r, _ => r

/-- What an access leaves beside its data: the unit's count (R155), the issuer's TLB entry (R153). -/
def State.noteAccess (s : State) (i : Issuer) (va : Word) : State := (s.countAt i va).noteTlb i va

/-- What an access of `n` bytes leaves in each of the home units that it touches (R155, log 26). -/
def State.noteRange (s : State) (i : Issuer) (va : Word) (n : Nat) : State :=
  (s.unitStarts i va n).foldl (fun t p => t.noteAccess i p) s

/-- A read at issue, then the rest of the meaning. -/
def State.withLoad (s : State) (va : Word) (n : Nat) (k : State → List Byte → State) : State :=
  match s.loadC va n with
  | .error f => (s.noteFailed (s.issuer s.cur .c) va n f).trap f
  | .ok bs => k (s.noteRange (s.issuer s.cur .c) va n) bs

/-! ### Park entries (R188, R189) -/

/-- Entries of the table proper and of the spill list. -/
def BeadUnit.tableCount (u : BeadUnit) : Nat := (u.park.filter fun e => e.spill.isNone).length
def BeadUnit.spillCount (u : BeadUnit) : Nat := u.spilled.length

/-- Installs an entry for a granule; none when table and spill list are full.  SEQ counts every entry installed, those that
a test then takes away among them (R188 says "parkings"; DESIGN CHOICE, log 60); a spilled entry takes the lowest free place
(log 14). -/
def State.installPark (s : State) (u granule : Nat) (world : Bool) (b : SlotId) : Option State :=
  let x := s.unitAt u
  let y (spill : Option Nat) : State :=
    let e : ParkEntry :=
      { granule := granule, world := world, slot := b, seq := x.parkSeq, waiting := true, marked := false, spill := spill }
    s.putLists u { x with park := x.park ++ [e], parkSeq := (x.parkSeq + 1) % 2 ^ 24 }
  if x.tableCount < 1024 then some (y none)
  else if x.spillCount < (s.parkCaps u).1 then some (y (some (freePlace (x.spilled.filterMap ParkEntry.spill))))
  else none

/-- Removes a bead's entry. -/
def State.removePark (s : State) (b : SlotId) : State :=
  let x := s.unitAt b.unit
  s.putLists b.unit { x with park := x.park.filter fun e => e.slot != b }

/-- The bead's entry. -/
def State.parkEntry (s : State) (b : SlotId) : Option ParkEntry := (s.unitAt b.unit).park.find? fun e => e.slot == b

/-- Position of SEQ modulo 2^24 before the count of parkings: older entries come first (R188, R189). -/
def parkAge (now seq : Nat) : Nat := (now + 2 ^ 24 - seq) % 2 ^ 24

/-- Insertion by descending age: ascending SEQ. -/
def insertByAge (now : Nat) (e : ParkEntry) : List ParkEntry → List ParkEntry
  | [] => [e]
  | x :: xs => if parkAge now x.seq < parkAge now e.seq then e :: x :: xs else x :: insertByAge now e xs

/-- The demand regions of a bead that is no longer parked on them (R302). -/
def State.dropRegions (s : State) (b : SlotId) : State :=
  (List.range 4).foldl (fun t d => t.modDie d fun y => { y with regions := y.regions.filter fun r => r.bead != b }) s

/-- A parked bead becomes ready again at its rod's tail (R129); a demand region of its goes (R302). -/
def State.wakeSlot (s : State) (b : SlotId) : State :=
  match s.slotAt b with
  | none => s
  | some x => (s.dropRegions b).appendTail b x.record x.uid

/-- A wake in one park table (R189): waiting entries are marked, the others enter their rods in ascending SEQ. -/
def State.wakeUnit (s : State) (u granule : Nat) : State :=
  let x := s.unitAt u
  let hit := x.park.filter fun e => e.granule == granule && !e.waiting
  let rest := (x.park.filter fun e => e.granule != granule || e.waiting).map fun e =>
    if e.granule = granule then { e with marked := true } else e
  let order := hit.foldl (fun acc e => insertByAge x.parkSeq e acc) []
  let seen := (hit.filter fun e => e.spill.isSome).map (s.spillPage u)
  order.foldl (fun t e => t.wakeSlot e.slot) (s.putLists u { x.hit seen with park := rest })

/-- The park tables that a wake for a granule goes to (R189); a granule of HBM by its home address. -/
def wakeUnits (granule : Nat) : List Nat :=
  let loc := granule * 32
  if 2 ^ 40 ≤ loc ∧ loc < 2 ^ 41 then [unitOf (scratchOf loc).1] else List.range 80

/-- Step 3 to 5 of Park (R185): the record takes the resume address and SPN, the slot is parked, the core idle; an entry
already marked by a wake enters its rod at once. -/
def State.parkBead (s : State) (k : Nat) (resume : Word) : State :=
  let c := s.coreAt k
  match c.bead with
  | none => s
  | some b =>
    let s1 := s.modRecord b fun r => { r with code := resume, w3 := setFld r.w3 0 32 c.spn.toNat }
    let s2 := match s1.slotAt b with | some x => s1.putSlot b { x with use := .parked } | none => s1
    let s3 := s2.modUnit b.unit fun x =>
      { x with park := x.park.map fun e => if e.slot == b then { e with waiting := false } else e }
    let s4 := s3.idleCore k
    match s3.parkEntry b with
    | some e => if e.marked then (s4.removePark b).wakeSlot b else s4
    | none => s4

/-! ### Guards (R101, R102) -/

def cIllegal : Nat := 0x03

/-- A page-3 instruction runs on a tile only (R102). -/
def State.onTile (s : State) (r : State) : State := if isTile s.cur then r else s.trapCause cIllegal

/-- SPAWN, END, YIELD and PARK do not run on a steward core (R102). -/
def State.notSteward (s : State) (r : State) : State := if isSteward s.cur then s.trapCause cIllegal else r

/-- Cells marked S run in the secure world (R101). -/
def State.secureOnly (s : State) (r : State) : State := if s.me.world then r else s.trapCause cWorld

end Sys2Proof.Machine
end

