-- ==== Sys2Proof/Machine/Operands.lean ====
section
/-! DEFINITION. Operand forms (R90, R93, R108, R200, R201) and the answers of instructions: a register written and the
chain committed. -/

namespace Sys2Proof.Machine

/-- A register or the sign-extended immediate of R108. -/
def Core.src (c : Core) : Src → Word
  | .reg n => c.sReg n
  | .imm v => BitVec.ofInt 64 v

/-- The executing core's scalar register. -/
def State.sr (s : State) (n : Nat) : Word := s.me.sReg n

/-- Writes s[d] and commits. -/
def State.answer (s : State) (d : Nat) (v : Word) : State := s.setMe (s.me.setS d v).commit

/-- Writes s[d] of two operands and commits. -/
def State.answer2 (s : State) (d a b : Nat) (f : Word → Word → Word) : State := s.answer d (f (s.sr a) (s.sr b))

/-- Writes s[d] of a register and a register or an immediate, and commits. -/
def State.answerSrc (s : State) (d a : Nat) (b : Src) (f : Word → Word → Word) : State :=
  s.answer d (f (s.sr a) (s.me.src b))

/-- Goes on at `t`. -/
def State.goto (s : State) (t : Word) : State := s.setMe (s.me.jump t)

/-- A branch of `disp` words from the address of its chain, when it is taken (R119). -/
def State.branch (s : State) (taken : Bool) (disp : Int) : State :=
  if taken then s.goto (padd s.me.pc (2 * disp)) else s.retire

/-- The truth value that a compare writes (R111). -/
def boolWord (b : Bool) : Word := if b then 1 else 0

/-! ### Lanes of vector and predicate registers (R196, R198, R200) -/

/-- Lanes of a register of `n`-byte elements. -/
def laneCount (n : Nat) : Nat := 128 / n

/-- Lane `i` of a value made of `n`-byte elements. -/
def laneOf {w : Nat} (x : BitVec w) (n i : Nat) : Nat := x.toNat / 2 ^ (8 * n * i) % 2 ^ (8 * n)

/-- The number that lanes of `n` bytes make, lane 0 lowest. -/
def packLanes (n : Nat) : List Nat → Nat
  | [] => 0
  | x :: xs => x % 2 ^ (8 * n) + 2 ^ (8 * n) * packLanes n xs

/-- A register of the given lanes; lanes not given are 0. -/
def vecOf (n : Nat) (xs : List Nat) : VecReg := BitVec.ofNat 1024 (packLanes n xs)

/-- All lanes of a register. -/
def lanesOf (n : Nat) (x : VecReg) : List Nat := (List.range (laneCount n)).map fun i => laneOf x n i

/-- Whether lane `i` of `n` bytes is active under a predicate: bit n·i (R197). -/
def predLane (p : PredReg) (n i : Nat) : Bool := p.toNat.testBit (n * i)

/-- The number with all `n` bits of each lane's group equal (R197). -/
def predNat (n : Nat) : List Bool → Nat
  | [] => 0
  | b :: bs => (if b then 2 ^ n - 1 else 0) + 2 ^ n * predNat n bs

/-- The predicate register that lanes of `n` bytes make. -/
def predOf (n : Nat) (bs : List Bool) : PredReg := BitVec.ofNat 128 (predNat n bs)

/-- Whether lane `i` is active under the governing predicate, all lanes without one (R200). -/
def Core.active (c : Core) (gov : Option Nat) (n i : Nat) : Bool :=
  match gov with
  | none => true
  | some g => predLane (c.pReg g) n i

/-- Writes v[d] with flags and commits. -/
def State.answerV (s : State) (d : Nat) (x : VecReg) (f : Flags) : State := s.setMe ((s.me.setV d x).raise f).commit

/-- Writes p[d] and commits. -/
def State.answerP (s : State) (d : Nat) (x : PredReg) (f : Flags) : State := s.setMe ((s.me.setP d x).raise f).commit

end Sys2Proof.Machine
end

