-- ==== Sys2Proof/Machine/Views.lean ====
section
/-! DEFINITION. Tensor views (R56-R58, R244): their fields, their structure check, where their elements lie, spans (R224,
R228), output tiles (R222) and regions. -/

namespace Sys2Proof.Machine

/-! ### Windows (R160) -/

/-- The element size of a window. -/
def winSize : Nat → Nat
  | 2 => 2 | 3 => 4 | 5 => 4 | _ => 1

/-! ### Fields of a descriptor (R56) -/

namespace View

def word (x : ViewReg) (k : Nat) : Word := BitVec.ofNat 64 (x.toNat / 2 ^ (64 * k))

def ofWords (w0 w1 w2 w3 : Word) : ViewReg :=
  BitVec.ofNat 256 (w0.toNat + 2 ^ 64 * (w1.toNat + 2 ^ 64 * (w2.toNat + 2 ^ 64 * w3.toNat)))

/-- A descriptor with one word replaced (R245). -/
def setWord (x : ViewReg) (k : Nat) (w : Word) : ViewReg :=
  let f (i : Nat) := if i = k then w else word x i
  ofWords (f 0) (f 1) (f 2) (f 3)

def kind (x : ViewReg) : Nat := fld (word x 3) 62 2
def idxt (x : ViewReg) : Nat := fld (word x 3) 58 4
def gdim (x : ViewReg) : Nat := fld (word x 3) 56 2
def base (x : ViewReg) : Word := word x 0
def dim (x : ViewReg) (i : Nat) : Nat := fld (word x 1) (16 * i) 16
def handle (x : ViewReg) : Nat := fld (base x) 0 4

/-- Stride of a dimension in elements; dimension 0 is contiguous. -/
def stride (x : ViewReg) : Nat → Nat
  | 0 => 1
  | 1 => fld (word x 2) 0 32
  | 2 => fld (word x 2) 32 32
  | _ => fld (word x 3) 0 32

/-- The window whose format the elements have; binary32 for KIND 1 (R57). -/
def win (x : ViewReg) : Nat := if kind x = 1 then 3 else fld (base x) 24 4

def esize (x : ViewReg) : Nat := winSize (win x)

/-- Element offset of (r, c) at (i2, i3) (R57). -/
def elem (x : ViewReg) (i3 i2 r c : Nat) : Nat := c + r * stride x 1 + i2 * stride x 2 + i3 * stride x 3

/-- Element offset of the highest element. -/
def top (x : ViewReg) : Nat := elem x (dim x 3 - 1) (dim x 2 - 1) (dim x 1 - 1) (dim x 0 - 1)

/-- The coordinate read in a dimension: 0 where its extent is 1 (R223). -/
def coord (x : ViewReg) (i n : Nat) : Nat := if dim x i = 1 then 0 else n

def sameDims (x y : ViewReg) : Bool := word x 1 == word y 1

/-- A view that an unloaded register starts from (R245). -/
def blank : ViewReg := ofWords 0 0x0001000100010001 0 0

end View

/-- The issuer of a tile's evaluation (R166). -/
def State.evalIssuer (s : State) (k : Nat) : Issuer := s.issuer k .e

/-- The structure check of R244. -/
def State.viewOk (s : State) (k : Nat) (x : ViewReg) : Bool :=
  let b := View.base x
  let dims := (List.range 4).all fun i => decide (1 ≤ View.dim x i)
  if View.kind x = 3 ∨ (View.kind x = 2 ∧ View.gdim x = 0) ∨ fld (View.word x 3) 32 24 ≠ 0 ∨ !dims then false
  else if View.kind x = 1 then fld b 4 28 == 0
  else
    let w := fld b 24 4
    decide (1 ≤ w) && decide (w ≤ 5) && (spaceOf b == 4 || spaceOf b == 5) &&
    decide (fld b 0 21 % winSize w = 0) &&
    decide (fld b 0 21 + winSize w * (View.top x + 1) ≤ 2 ^ 21) &&
    (match s.transScratch (s.evalIssuer k) b (winSize w) with | .ok _ => true | .error _ => false)

/-! ### Where elements lie -/

/-- The location of element offset 0: a KIND 1 view lies in its run's banks. -/
def State.viewLoc (s : State) (k : Nat) (v : Snap) : Nat :=
  if View.kind v.desc = 1 then accBase k + 2048 * v.bank.1 + 4 * fld (View.base v.desc) 32 32
  else
    match s.scratchCore (s.evalIssuer k) (View.base v.desc) with
    | some j => scratchBase j + fld (View.base v.desc) 0 21
    | none => 0

/-- A half-open run of locations. -/
abbrev Run := Nat × Nat

def Run.meets (a b : Run) : Bool := decide (a.1 < b.2) && decide (b.1 < a.2)

/-- The span of a view (R228): its bytes, its banks, and for a DM8 destination whole scale blocks (R224). -/
def State.span (s : State) (k : Nat) (dst : Bool) (v : Snap) : Run :=
  let lo := s.viewLoc k v
  let hi := lo + View.esize v.desc * (View.top v.desc + 1)
  if View.kind v.desc = 1 then (lo / 2048 * 2048, (hi + 2047) / 2048 * 2048)
  else if dst && View.win v.desc == 1 then (lo / 256 * 256, (hi + 255) / 256 * 256)
  else (lo, hi)

/-- The element runs of rows of a view, columns `c0` to `c1`, clipped to its extents, 0 in extents of 1 (R223). -/
def State.rowRuns (s : State) (k : Nat) (v : Snap) (i3 i2 : Nat) (rows : List Nat) (c0 c1 : Nat) : List Run :=
  let x := v.desc
  let loc := s.viewLoc k v
  let e := View.esize x
  let c0 := View.coord x 0 c0
  let c1 := min (View.coord x 0 c1) (View.dim x 0 - 1)
  (rows.filter fun r => View.coord x 1 r < View.dim x 1).map fun r =>
    let o := View.elem x (View.coord x 3 i3) (View.coord x 2 i2) (View.coord x 1 r)
    (loc + e * o c0, loc + e * (o c1 + 1))

def runsMeet (a b : List Run) : Bool := a.any fun x => b.any fun y => x.meets y

/-- All elements of a view, row by row. -/
def State.viewRuns (s : State) (k : Nat) (v : Snap) : List Run :=
  let x := v.desc
  (List.range (View.dim x 3)).flatMap fun i3 => (List.range (View.dim x 2)).flatMap fun i2 =>
    s.rowRuns k v i3 i2 (List.range (View.dim x 1)) 0 (View.dim x 0 - 1)

/-! ### Output tiles (R222) -/

/-- An output tile's coordinates. -/
structure OutTile where
  i3 : Nat
  i2 : Nat
  tr : Nat
  tc : Nat
deriving DecidableEq, Repr

def View.tilesDown (x : ViewReg) : Nat := (View.dim x 1 + 63) / 64
def View.tilesAcross (x : ViewReg) : Nat := (View.dim x 0 + 63) / 64
def View.tileCount (x : ViewReg) : Nat := View.tilesDown x * View.tilesAcross x * View.dim x 2 * View.dim x 3

/-- The k-th output tile. -/
def View.tileAt (x : ViewReg) (k : Nat) : OutTile :=
  let a := View.tilesAcross x
  let d := View.tilesDown x
  { i3 := k / (a * d * View.dim x 2), i2 := k / (a * d) % View.dim x 2, tr := k / a % d, tc := k % a }

/-- The record word TILE (R368). -/
def OutTile.word (t : OutTile) : Word := BitVec.ofNat 64 (t.i3 * 2 ^ 48 + t.i2 * 2 ^ 32 + t.tr * 2 ^ 16 + t.tc)

/-- Rows and columns of an output tile that are present. -/
def View.tileRows (x : ViewReg) (t : OutTile) : List Nat :=
  (List.range (min 64 (View.dim x 1 - 64 * t.tr))).map (64 * t.tr + ·)
def View.tileCols (x : ViewReg) (t : OutTile) : List Nat :=
  (List.range (min 64 (View.dim x 0 - 64 * t.tc))).map (64 * t.tc + ·)

/-- The first and last column of an output tile. -/
def View.tileC0 (t : OutTile) : Nat := 64 * t.tc
def View.tileC1 (x : ViewReg) (t : OutTile) : Nat := min (64 * t.tc + 63) (View.dim x 0 - 1)

/-- The element runs of an output tile of a destination. -/
def State.tileRuns (s : State) (k : Nat) (v : Snap) (t : OutTile) : List Run :=
  s.rowRuns k v t.i3 t.i2 (View.tileRows v.desc t) (View.tileC0 t) (View.tileC1 v.desc t)

/-- The output tiles of a destination that overlap a region. -/
def State.tilesMeeting (s : State) (k : Nat) (v : Snap) (region : List Run) : List Nat :=
  (List.range (View.tileCount v.desc)).filter fun q => runsMeet (s.tileRuns k v (View.tileAt v.desc q)) region

/-! ### Scale blocks (R224) -/

/-- A destination that requantizes whole scale blocks. -/
def Snap.isDm8 (v : Snap) : Bool := View.kind v.desc == 0 && View.win v.desc == 1

/-- The scale blocks that element runs touch. -/
def blocksOf (rs : List Run) : List Nat :=
  (rs.flatMap fun r => (List.range ((r.2 - 1) / 256 - r.1 / 256 + 1)).map (r.1 / 256 + ·)).eraseDups

/-- One closing step: the output tiles that share a scale block with those given. -/
def closeStep (blocks : List (Nat × List Nat)) (ts : List Nat) : List Nat :=
  let bs := (blocks.filter fun e => ts.contains e.1).flatMap Prod.snd
  (blocks.filter fun e => ts.contains e.1 || e.2.any fun b => bs.contains b).map Prod.fst

def closeIter (blocks : List (Nat × List Nat)) : Nat → List Nat → List Nat
  | 0, ts => ts
  | n + 1, ts =>
    let us := closeStep blocks ts
    if us.length = ts.length then us else closeIter blocks n us

/-- BlockClose (R224, R226): of output tiles, ascending. -/
def State.blockClose (s : State) (k : Nat) (v : Snap) (ts : List Nat) : List Nat :=
  if v.isDm8 then
    let blocks := (List.range (View.tileCount v.desc)).map fun q =>
      (q, blocksOf (s.tileRuns k v (View.tileAt v.desc q)))
    closeIter blocks (View.tileCount v.desc) ((List.range (View.tileCount v.desc)).filter fun q => ts.contains q)
  else ts

end Sys2Proof.Machine
end

