-- ==== Sys2Proof/Machine/Pleat.lean ====
section
/-! DEFINITION. Lazy tile work: the Pleat table, demand, evaluation and release (R221-R240), the operations of nodes
(R248-R259), and the device steps of the demand sequencer. -/

namespace Sys2Proof.Machine

/-! ### The table -/

namespace State

def nodeAt (s : State) (k n : Nat) : Option Node := Map.find? (s.tileAt k).nodes n

def putNode (s : State) (k n : Nat) (x : Node) : State :=
  s.modTile k fun t => { t with nodes := Map.put t.nodes n x }

/-- A node leaves the table; links to it are cleared (R227, R238). -/
def removeNode (s : State) (k n : Nat) : State :=
  s.modTile k fun t => { t with
    nodes := (Map.del t.nodes n).map fun e => (e.1, { e.2 with link := e.2.link &&& ~~~(BitVec.ofNat 128 (2 ^ n)) })
    order := t.order.filter (· != n) }

end State

def bit512 (x : BitVec 512) (i : Nat) : Bool := x.toNat.testBit i
def setBits (x : BitVec 512) (is : List Nat) : BitVec 512 := is.foldl (fun a i => a ||| BitVec.ofNat 512 (2 ^ i)) x
def linked (n : Node) (p : Nat) : Bool := n.link.toNat.testBit p

/-- The index view of a gathered operand, as a view. -/
def indexSnap (v : Snap) : List Snap :=
  match v.index with
  | some d => [{ desc := d }]
  | none => []

/-- The spans that a node reads: operands and index views (R228). -/
def State.srcSpans (s : State) (k : Nat) (srcs : List Snap) : List Run :=
  srcs.flatMap fun v => s.span k false v :: (indexSnap v).map (s.span k false)

def Node.allTiles (n : Node) : List Nat := List.range (View.tileCount n.dst.desc)

/-- The pending nodes with a source or a destination span that meets a run, oldest first. -/
def State.nodesOver (s : State) (k : Nat) (r : Run) : List Nat :=
  (s.tileAt k).order.filter fun n =>
    match s.nodeAt k n with
    | some x => (s.span k true x.dst :: s.srcSpans k x.srcs).any fun y => y.meets r
    | none => false

/-- Nodes with all their output tiles: a full force (R228). -/
def State.inFull (s : State) (k : Nat) (ns : List Nat) : List (Nat × List Nat) :=
  ns.filterMap fun n => (s.nodeAt k n).map fun x => (n, x.allTiles)

/-! ### Raising a demand (R225, R228, R236) -/

/-- The executing instruction demands work of its tile's sequencer.  A force in a handler is a double trap (R372, log
24); `afrc` forces are counted. -/
def State.demandWork (s : State) (k : Nat) (d : Demand) (afrc ofrc : Nat) : State :=
  if (s.coreAt k).inh && !d.nodes.isEmpty then s.doubleTrap k 0
  else (s.modTile k fun t => { t with
    demand := some d, reserve := [], afrc := min 255 (t.afrc + afrc), ofrc := min 255 (t.ofrc + ofrc) }).push
      [.demandServe k]

/-- Forces the first of some nodes, the oldest, in full before the executing instruction, which then executes again and
finds the others (R228, R229): each force counts as it begins. -/
def State.forceFirst (s : State) (k : Nat) (ns : List Nat) : State :=
  s.demandWork k { pc := (s.coreAt k).pc, fin := .again, nodes := s.inFull k (ns.take 1) } 1 0

/-! ### Reading on the E path (R166, R230, R248) -/

/-- SUB of an evaluation fault (R366). -/
def evalSub (cause : Nat) : Nat :=
  if cause = cTag then 1 else if cause = cTranslation then 3 else if cause = cWorld then 4
  else if cause = cUncorrectable then 6 else 2

def evalFault (f : FaultInfo) : FaultInfo := { f with cause := 0x19, sub := evalSub f.cause, late := true }

/-- The scale byte that governs a scratchpad location (R161); it is read with the data, so an uncorrectable error there is
one of theirs (R237). -/
def State.scaleOf (s : State) (i : Issuer) (va : Word) (loc : Nat) : Except FaultInfo Byte :=
  match s.scaleLoc (scratchOf loc).1 (scratchOf loc).2 with
  | some l => if s.poisoned l 1 then .error (faultAt i cUncorrectable va) else .ok (s.byte l)
  | none => .error (faultAt i cAddress va)

/-- An element's bytes as binary32 bits (R248, stage 1). -/
def elem32 (win bits : Nat) (sc : Byte) : Nat :=
  match win with
  | 1 => (decodeDM8 (BitVec.ofNat 8 bits) sc).1
  | 2 => (b32.round 0 (b16.decode bits)).1
  | 4 => (b32.round 0 (Val.ofInt (signed 8 bits))).1
  | 5 => (b32.round 0 (Val.ofInt (signed 32 bits))).1
  | _ => (b32.round 0 (b32.decode bits)).1

/-- The bytes of the element at an element offset, and its location. -/
def State.evalRead (s : State) (k : Nat) (v : Snap) (off : Nat) : Except FaultInfo (Nat × Nat) :=
  let e := View.esize v.desc
  if View.kind v.desc = 1 then
    let loc := s.viewLoc k v + 4 * off
    if s.poisoned loc 4 then .error (faultAt (s.evalIssuer k) cUncorrectable (View.base v.desc))
    else .ok (leNat (s.bytes loc 4), loc)
  else
    let va := padd (View.base v.desc) (e * off : Nat)
    match s.translate (s.evalIssuer k) va e false false with
    | .ok (.mem loc) =>
      match s.memCheck (s.evalIssuer k) va loc e true with
      | .ok _ => .ok (leNat (s.bytes loc e), loc)
      | .error f => .error f
    | .ok _ => .error (faultAt (s.evalIssuer k) cAddress va)
    | .error f => .error f

/-- The element (r, c) at (i2, i3) decoded, broadcast coordinates at 0. -/
def State.evalElem (s : State) (k : Nat) (v : Snap) (i3 i2 r c : Nat) : Except FaultInfo Val :=
  let x := v.desc
  let off := View.elem x (View.coord x 3 i3) (View.coord x 2 i2) (View.coord x 1 r) (View.coord x 0 c)
  match s.evalRead k v off with
  | .error f => .error f
  | .ok (bits, loc) =>
    if View.win x = 1 then
      match s.scaleOf (s.evalIssuer k) (padd (View.base x) off) loc with
      | .ok sc => .ok (b32.decode (elem32 1 bits sc))
      | .error f => .error f
    else .ok (b32.decode (elem32 (View.win x) bits 0))

/-- The elements of a row. -/
def State.evalRow (s : State) (k : Nat) (v : Snap) (i3 i2 r : Nat) (cs : List Nat) : Except FaultInfo (List Val) :=
  cs.mapM fun c => s.evalElem k v i3 i2 r c

/-- An INT32 element as an integer (index views, positions). -/
def State.evalInt (s : State) (k : Nat) (v : Snap) (i3 i2 r c : Nat) : Except FaultInfo Int :=
  let x := v.desc
  match s.evalRead k v (View.elem x (View.coord x 3 i3) (View.coord x 2 i2) (View.coord x 1 r) (View.coord x 0 c)) with
  | .ok (bits, _) => .ok (signed 32 bits)
  | .error f => .error f

/-! ### Index maps (R223) -/

/-- The index elements of an output tile's rows. -/
def State.indexRuns (s : State) (k : Nat) (v : Snap) (rows : List Nat) : List Run :=
  (indexSnap v).flatMap fun x => s.rowRuns k x 0 0 [0] (rows.headD 0) (rows.getLastD 0)

/-- The rows of a gathered view that count as read: those of the values held, or all (R226). -/
def gatherRows (x : ViewReg) (held : Option (List Int)) : List Nat :=
  match held with
  | some vs => (vs.filterMap fun (g : Int) => if 0 ≤ g ∧ g < View.dim x 1 then some g.toNat else none).eraseDups
  | none => List.range (View.dim x 1)

/-- The region of operand `o` that output tile `t` of a node reads. -/
def State.operandRuns (s : State) (k : Nat) (n : Node) (o : Nat) (v : Snap) (q : Nat) : List Run :=
  let t := View.tileAt n.dst.desc q
  let rows := View.tileRows n.dst.desc t
  let cols := View.tileCols n.dst.desc t
  let c0 := View.tileC0 t
  let c1 := View.tileC1 n.dst.desc t
  let last := View.dim v.desc 0 - 1
  let runs (rs : List Nat) (a b : Nat) := s.rowRuns k v t.i3 t.i2 rs a b
  let shifted (dr dc : Nat) := runs (rows.map (· + dr)) (c0 + dc) (c1 + dc)
  let left :=
    if View.kind v.desc = 2 then
      s.indexRuns k v rows ++ runs (gatherRows v.desc (Map.find? n.held q)) 0 last
    else runs rows 0 last
  match n.op, o with
  | .mul, 0 => left
  | .mula, 0 => left
  | .mul, _ => runs cols 0 last
  | .mula, _ => runs cols 0 last
  | .add dr dc, 1 => shifted dr dc
  | .sub dr dc, 1 => shifted dr dc
  | .mule dr dc, 1 => shifted dr dc
  | .copy dr dc, _ => shifted dr dc
  | .rmax, _ => runs rows 0 last
  | .rsum, _ => runs rows 0 last
  | .scan, _ => runs rows 0 c1
  | .trn, _ => runs cols (rows.headD 0) (rows.getLastD 0)
  | .mask d _, _ => if (rows.getLastD 0 : Int) + d < c0 then [] else runs rows c0 c1
  | _, _ => runs rows c0 c1

/-- All that output tiles of a node read. -/
def State.readRuns (s : State) (k : Nat) (n : Node) (ts : List Nat) : List Run :=
  n.srcs.zipIdx.flatMap fun e => ts.flatMap fun q => s.operandRuns k n e.2 e.1 q

/-! ### The backward walk (R226) -/

/-- Index values fixed by the walk for an output tile, when no linked node covers them. -/
def State.holdIndex (s : State) (k : Nat) (n : Node) (q : Nat) : Node :=
  match n.srcs with
  | v :: _ =>
    let rows := View.tileRows n.dst.desc (View.tileAt n.dst.desc q)
    let covered := (s.tileAt k).order.any fun p => linked n p &&
      (match s.nodeAt k p with | some y => !(s.tilesMeeting k y.dst (s.indexRuns k v rows)).isEmpty | none => false)
    match indexSnap v with
    | x :: _ =>
      if covered then { n with held := Map.del n.held q }
      else
        match rows.mapM fun r => s.evalInt k x 0 0 0 r with
        | .ok vs => { n with held := Map.put n.held q vs }
        | .error _ => { n with held := Map.del n.held q }
    | [] => n
  | [] => n

/-- Demand(n, T): a node's links are to older ones. -/
def State.walkDemand (k : Nat) : Nat → State → Nat → List Nat → State
  | 0, s, _, _ => s
  | fuel + 1, s, p, ts =>
    match s.nodeAt k p with
    | none => s
    | some n =>
      let new := (s.blockClose k n.dst ts).filter fun q => !bit512 n.done q && !bit512 n.want q
      if new.isEmpty then s
      else
        let n1 := new.foldl (fun m q => s.holdIndex k m q) { n with want := setBits n.want new, state := .evaluating }
        let s1 := s.putNode k p n1
        let region := s1.readRuns k n1 new
        (((s1.tileAt k).order.takeWhile (· != p)).filter (linked n1)).foldl
          (fun t r => match t.nodeAt k r with
            | some y => State.walkDemand k fuel t r (t.tilesMeeting k y.dst region)
            | none => t) s1

/-- The steps that evaluate a node's wanted output tiles in ascending order, release groups together (R233). -/
def State.tileSteps (s : State) (k p : Nat) (dst : Snap) : List Nat → List Nat → List Ev
  | _, [] => []
  | seen, q :: qs =>
    if seen.contains q then s.tileSteps k p dst seen qs
    else
      let grp := (s.blockClose k dst [q]).filter fun r => r == q || qs.contains r
      grp.map (fun r => .outputTileEvaluate k p r) ++ .outputTileRelease k p q ::
        s.tileSteps k p dst (seen ++ grp) qs

/-- The pseudo-node of a TSTORE (R261), number 128. -/
def storeNode (d : Demand) (x : Snap × Snap × Nat) : Node :=
  { seq := 0, apc := d.pc, op := .copy 0 0, relu := false, rm := x.2.2, dst := x.1, srcs := [x.2.1], done := d.storeDone,
    want := BitVec.allOnes 512 }

/-- Serve (R226): the walk, then the steps in forward order. -/
def State.demandServe (s : State) (tile : Nat) : State :=
  match (s.tileAt tile).demand with
  | none => s
  | some d =>
    let deep := (s.tileAt tile).order.length + 1
    let s1 := d.nodes.foldl (fun t e => State.walkDemand tile deep t e.1 e.2) s
    let own := (s1.tileAt tile).order.flatMap fun p =>
      match s1.nodeAt tile p with
      | some n => s1.tileSteps tile p n.dst [] (n.allTiles.filter (bit512 n.want))
      | none => []
    let out := match d.store with
      | some x => s1.tileSteps tile 128 x.1 [] (List.range (View.tileCount x.1.desc))
      | none => []
    (s1.pushFirst (own ++ out ++ [.demandComplete tile]))

/-! ### Computing an output tile (R230-R232, R248-R259) -/

/-- One operand run of a K block: NaN, or unscaled exact elements and the power of two of its scale. -/
structure BlockRun where
  nan : Bool
  vals : List Val
  scale : Int
deriving DecidableEq, Repr

/-- The elements of a K block of a row. -/
def State.evalBlock (s : State) (k : Nat) (v : Snap) (i3 i2 r k0 m : Nat) : Except FaultInfo BlockRun :=
  let x := v.desc
  let off (j : Nat) := View.elem x (View.coord x 3 i3) (View.coord x 2 i2) (View.coord x 1 r) (k0 + j)
  match (List.range m).mapM fun j => s.evalRead k v (off j) with
  | .error f => .error f
  | .ok raw =>
    match View.win x with
    | 1 =>
      match s.scaleOf (s.evalIssuer k) (padd (View.base x) (off 0)) ((raw.headD (0, 0)).2) with
      | .error f => .error f
      | .ok sc =>
        let vals := raw.map fun e => dm8Val (BitVec.ofNat 8 e.1)
        .ok { nan := sc == 0xFF || vals.any Val.isNaN, vals := vals, scale := (sc.toNat : Int) - 127 }
    | 2 =>
      let vals := raw.map fun e => b16.decode e.1
      .ok { nan := vals.any Val.isNaN, vals := vals, scale := 0 }
    | _ => .ok { nan := false, vals := raw.map fun e => Val.ofInt (signed 8 e.1), scale := 0 }

/-- A block's contribution (R42, R43): NaN when the block has one. -/
def contribution (a b : BlockRun) : Val :=
  if a.nan || b.nan then .nan
  else
    let p := (a.vals.zip b.vals).foldl
      (fun acc e =>
        let m := e.1.mul e.2
        let r := acc.1.add 0 m.1
        (r.1, acc.2 || m.2 || r.2)) (Val.zero, false)
    if p.2 then .nan else p.1.scale (a.scale + b.scale)

/-- One rounding of MatrixElement (R43); an exact zero sum is +0. -/
def accumulate (acc : Val) (c : Val) : Val :=
  match c with
  | .nan => .nan
  | _ =>
    let r := (acc.add 0 c).1
    if r.isZero then Val.zero else b32.decode (b32.round 0 r).1

/-- MatrixElement (R43) over the blocks of a row and a column. -/
def matrixElement (as bs : List BlockRun) : Nat :=
  (b32.round 0 ((as.zip bs).foldl (fun acc e => accumulate acc (contribution e.1 e.2)) Val.zero)).1

/-- K block `j` of a row. -/
def State.rowBlock (s : State) (k : Nat) (v : Snap) (i3 i2 j r : Nat) : Except FaultInfo BlockRun :=
  s.evalBlock k v i3 i2 r (256 * j) (min 256 (View.dim v.desc 0 - 256 * j))

/-- A gathered row number, checked against its extent (R58). -/
def State.gatherRow (s : State) (k : Nat) (n : Node) (q : Nat) (v : Snap) (j r : Nat) : Except FaultInfo Nat :=
  match indexSnap v with
  | [] => .ok r
  | x :: _ =>
    let g : Except FaultInfo Int := match Map.find? n.held q with
      | some vs => .ok (vs.getD j 0)
      | none => s.evalInt k x 0 0 0 r
    match g with
    | .error f => .error f
    | .ok g =>
      if 0 ≤ g ∧ g < View.dim v.desc 1 then .ok g.toNat
      else .error { faultAt (s.evalIssuer k) 0x19 (padd (View.base x.desc) (4 * r : Nat)) with sub := 5, late := true }

/-- A product's output tile (R230): the index elements first, each checked, then K block by K block the rows of both
operands. -/
def State.evalProduct (s : State) (k : Nat) (n : Node) (q : Nat) : Except FaultInfo (List Nat) :=
  let t := View.tileAt n.dst.desc q
  match n.srcs with
  | [a, b] => do
    let rows ← (View.tileRows n.dst.desc t).zipIdx.mapM fun e => s.gatherRow k n q a e.2 e.1
    let cols := View.tileCols n.dst.desc t
    let blocks ← (List.range ((View.dim a.desc 0 + 255) / 256)).mapM fun j => do
      let xs ← rows.mapM (s.rowBlock k a t.i3 t.i2 j)
      let ys ← cols.mapM (s.rowBlock k b t.i3 t.i2 j)
      pure (xs, ys)
    pure ((List.range rows.length).flatMap fun r => (List.range cols.length).map fun c =>
      matrixElement (blocks.filterMap fun e => e.1[r]?) (blocks.filterMap fun e => e.2[c]?))
  | _ => .ok []

/-- A sum's exact value; all −0 gives −0, any other zero +0 (R214, R256). -/
def exactSum (rm : Nat) (xs : List Val) : Val × Bool :=
  match xs with
  | [] => (Val.zero, false)
  | x :: ys => ys.foldl (fun acc y => let r := acc.1.add rm y; (r.1, acc.2 || r.2)) (x, false)

/-- The larger with −0 below +0; NaN wins (R256). -/
def maxVal (x y : Val) : Val :=
  if x.isNaN || y.isNaN then .nan else if x.lt true y then y else x

def minVal (x y : Val) : Val :=
  if x.isNaN || y.isNaN then .nan else if y.lt true x then y else x

/-- One rounding to binary32 (R248, stage 2). -/
def r32 (x : Val) : Nat := (b32.round 0 x).1

/-- Every element of the output tile that holds (r, c) is masked by an offset: it reads nothing (R223, R257). -/
def allMasked (x : ViewReg) (r c : Nat) (d : Int) : Bool :=
  decide ((min (r / 64 * 64 + 63) (View.dim x 1 - 1) : Nat) + d < (c / 64 * 64 : Nat))

/-- An element of a node that is no product: (r, c) at (i2, i3). -/
def State.evalPoint (s : State) (k : Nat) (n : Node) (i3 i2 r c : Nat) : Except FaultInfo Nat :=
  let src (o : Nat) : Snap := n.srcs.getD o n.dst
  let at_ (o r c : Nat) := s.evalElem k (src o) i3 i2 r c
  let two (b : Except FaultInfo Val) (f : Val → Val → Nat) : Except FaultInfo Nat := do
    let x ← at_ 0 r c
    let y ← b
    pure (f x y)
  match n.op with
  | .mul => .ok 0
  | .mula => .ok 0
  | .add dr dc => two (at_ 1 (r + dr) (c + dc)) fun x y => r32 (x.add 0 y).1
  | .sub dr dc => two (at_ 1 (r + dr) (c + dc)) fun x y => r32 (x.add 0 y.negate).1
  | .mule dr dc => two (at_ 1 (r + dr) (c + dc)) fun x y => r32 (x.mul y).1
  | .scl f => two (.ok (b32.decode f.toNat)) fun x y => r32 (x.mul y).1
  | .bias => two (at_ 1 0 c) fun x y => r32 (x.add 0 y).1
  | .divr => two (at_ 1 r 0) fun x y => r32 (x.div y).1
  | .act fn => (at_ 0 r c).map (actFn fn)
  | .exp e less =>
    if less then two (at_ 1 r 0) fun x y => tileExp e (x.add 0 y.negate).1 else (at_ 0 r c).map (tileExp e)
  | .rmax =>
    (s.evalRow k (src 0) i3 i2 r (List.range (View.dim (src 0).desc 0))).map fun xs =>
      match xs with
      | [] => 0
      | x :: ys => r32 (ys.foldl maxVal x)
  | .rsum =>
    (s.evalRow k (src 0) i3 i2 r (List.range (View.dim (src 0).desc 0))).map fun xs => r32 (exactSum 0 xs).1
  | .scan => (s.evalRow k (src 0) i3 i2 r (List.range (c + 1))).map fun xs => r32 (exactSum 0 xs).1
  | .mask d zero =>
    let fill := if zero then 0 else b32.signBit true + b32.infBits
    if allMasked n.dst.desc r c d then .ok fill else (at_ 0 r c).map fun x => if (r : Int) + d < c then fill else r32 x
  | .rot theta inv => do
    let x ← at_ 0 r (c / 2 * 2)
    let y ← at_ 0 r (c / 2 * 2 + 1)
    let p ← s.evalInt k (src 1) i3 i2 r 0
    let xy := rotPair theta (c / 2) (View.dim (src 0).desc 0) (if inv then -p else p) x y
    pure (if c % 2 = 0 then xy.1 else xy.2)
  | .qnt => (at_ 0 r c).map r32
  | .copy dr dc => (at_ 0 (r + dr) (c + dc)).map r32
  | .trn => (at_ 0 c r).map r32

/-- `.relu` (R248, stage 3). -/
def relu32 (bits : Nat) : Nat := if 2 ^ 31 ≤ bits ∧ bits ≤ 2 ^ 31 + b32.infBits then 0 else bits

/-- The binary32 values of an output tile in row order, with their epilogue. -/
def State.evalTile (s : State) (k : Nat) (n : Node) (q : Nat) : Except FaultInfo (List (BitVec 32)) :=
  let t := View.tileAt n.dst.desc q
  let raw : Except FaultInfo (List Nat) :=
    if n.op = .mul ∨ n.op = .mula then s.evalProduct k n q
    else (View.tileRows n.dst.desc t).foldlM (fun acc r => (do
        let row ← (View.tileCols n.dst.desc t).mapM fun c => s.evalPoint k n t.i3 t.i2 r c
        pure (acc ++ row) : Except FaultInfo (List Nat))) []
  raw.map fun xs => xs.map fun b => BitVec.ofNat 32 (if n.relu then relu32 b else b)

/-! ### Faults of evaluation (R236, R237) -/

/-- The node that a step names: an entry, or the store of a TSTORE. -/
def State.stepNode (s : State) (k p : Nat) (d : Demand) : Option Node :=
  if p = 128 then d.store.map (storeNode d) else s.nodeAt k p

/-- The first fault of a demand: nothing further starts, unreleased values go, WANT is cleared. -/
def State.evalFail (s : State) (k p q : Nat) (n : Node) (f : FaultInfo) : State :=
  let g : FaultInfo := { f with
    path := .e, late := true, cpc := some n.apc, tile := (View.tileAt n.dst.desc q).word, done := n.done,
    node := some (if p = 128 then (0, 0) else (p, n.seq.toNat)) }
  s.modTile k fun t => { t with
    demand := t.demand.map fun d => if d.fault.isNone then { d with fault := some g } else d
    reserve := []
    nodes := t.nodes.map fun e => (e.1, { e.2 with want := 0, state := .pending }) }

/-- OUTPUT_TILE_EVALUATE: the values enter the reserve; residue failures are retried at most twice (R234, R235). -/
def State.outputTileEvaluate (s : State) (tile node out : Nat) : State :=
  match (s.tileAt tile).demand with
  | none => s
  | some d =>
    match s.stepNode tile node d, d.fault with
    | some n, none =>
      match s.evalTile tile n out with
      | .error f => (s.evalFail tile node out n (if f.cause = 0x19 then f else evalFault f))
      | .ok vals =>
        let m := min 3 (s.tileAt tile).residueMiss
        let s1 := s.modTile tile fun t => { t with residueMiss := t.residueMiss - m, retry := min 255 (t.retry + min 2 m) }
        if m = 3 then (s1.evalFail tile node out n { cause := 0x19, sub := 7, late := true })
        else (s1.modTile tile fun t => { t with reserve := t.reserve ++ [{ node := node, out := out, vals := vals }] })
    | _, _ => s

/-! ### Release (R232, R233) -/

/-- Bytes that a release writes: the output tile they are of, the pointer, the bytes. -/
structure TileWrite where
  out : Nat
  va : Word
  bytes : List Byte
deriving DecidableEq, Repr

/-- A binary32 value in the format of a window (R40); windows 2 to 5. -/
def encode32 (win rm bits : Nat) : Nat :=
  let x := b32.decode bits
  match win with
  | 2 => (b16.round rm x).1
  | 3 => bits
  | 4 => wrapNat 8 (convertInt 8 true rm x).1
  | _ => wrapNat 32 (convertInt 32 true rm x).1

/-- The positions of an output tile's elements: element offset and value, in row order. -/
def tileElems (x : ViewReg) (q : Nat) (vals : List (BitVec 32)) : List (Nat × BitVec 32) :=
  let t := View.tileAt x q
  ((View.tileRows x t).flatMap fun r => (View.tileCols x t).map fun c => View.elem x t.i3 t.i2 r c).zip vals

/-- The writes of a destination in windows 2 to 5. -/
def plainWrites (n : Node) (e : Reserve) : List TileWrite :=
  let x := n.dst.desc
  (tileElems x e.out e.vals).map fun p =>
    { out := e.out, va := padd (View.base x) (View.esize x * p.1 : Nat),
      bytes := leBytes (View.esize x) (encode32 (View.win x) n.rm p.2.toNat) }

/-- The member of a release group that a granule is recorded under: one with an element there, else the first (R237). -/
def memberAt (base : Nat) (x : ViewReg) (grp : List Reserve) (g : Nat) : Nat :=
  match grp.find? fun e => (tileElems x e.out e.vals).any fun p => (base + p.1) / 32 == g with
  | some e => e.out
  | none => (grp.map Reserve.out).headD 0

/-- A scale block rewritten: the writes of its eight granules of codes, and of its scale byte; an uncorrectable error in the
bytes that it keeps is a fault (R224, R237). -/
def State.blockWrite (s : State) (k : Nat) (n : Node) (grp : List Reserve) (news : Table (BitVec 32)) (b : Nat) :
    Except (Nat × FaultInfo) (List TileWrite × Nat × Byte) :=
  let loc := 256 * b
  let x := n.dst.desc
  let base := s.viewLoc k n.dst
  let va (g : Nat) : Word := padd (View.base x) ((32 * g : Int) - base)
  match s.scaleLoc (scratchOf loc).1 (scratchOf loc).2 with
  | none => .error (memberAt base x grp (8 * b), faultAt (s.evalIssuer k) cAddress (View.base x))
  | some l =>
    let old := s.byte l
    let kept := (List.range 256).filter fun j => (Map.find? news (loc + j)).isNone
    match kept.find? fun j => s.poisoned (loc + j) 1 || s.poisoned l 1 with
    | some j => .error (memberAt base x grp ((loc + j) / 32), faultAt (s.evalIssuer k) cUncorrectable (va ((loc + j) / 32)))
    | none =>
      let r := requantize ((List.range 256).map fun j =>
        match Map.find? news (loc + j) with
        | some w => b32.decode w.toNat
        | none => b32.decode (decodeDM8 (s.byte (loc + j)) old).1)
      .ok ((List.range 8).map fun j =>
        { out := memberAt base x grp (8 * b + j), va := va (8 * b + j), bytes := (r.1.drop (32 * j)).take 32 }, l, r.2.1)

/-- Every write of a release checked, the location of each; or the output tile and the fault. -/
def State.checkWrites (s : State) (k : Nat) : List TileWrite → Except (Nat × FaultInfo) (List (Nat × List Byte))
  | [] => .ok []
  | w :: ws =>
    match s.writePlace (s.evalIssuer k) w.va w.bytes.length with
    | .error f => .error (w.out, f)
    | .ok loc =>
      match s.checkWrites k ws with
      | .ok r => .ok ((loc, w.bytes) :: r)
      | .error e => .error e

/-- Adds an output tile into its accumulator elements (R232); an exact zero sum is +0 (R43). -/
def State.addTile (s : State) (k : Nat) (n : Node) (e : Reserve) : State :=
  (tileElems n.dst.desc e.out e.vals).foldl
    (fun t p =>
      let loc := t.viewLoc k n.dst + 4 * p.1
      let z := ((b32.decode (leNat (t.bytes loc 4))).add 0 (b32.decode p.2.toNat)).1
      t.writeAt loc (leBytes 4 (if z.isZero then 0 else r32 z))) s

/-- What a release group writes to memory. -/
def State.releaseGroup (s : State) (k : Nat) (n : Node) (grp : List Reserve) : Except (Nat × FaultInfo) State :=
  let x := n.dst.desc
  if View.kind x = 1 then .ok (grp.foldl (fun t e => t.addTile k n e) s)
  else if View.win x = 1 then
    let base := s.viewLoc k n.dst
    let news := grp.foldl (fun m e => (tileElems x e.out e.vals).foldl (fun m p => Map.put m (base + p.1) p.2) m) []
    let blocks := (news.map fun e => e.1 / 256).eraseDups
    match blocks.mapM fun b => s.blockWrite k n grp news b with
    | .error e => .error e
    | .ok ws =>
      match s.checkWrites k (ws.flatMap Prod.fst) with
      | .error e => .error e
      | .ok ps =>
        let s1 := ps.foldl (fun t p => t.writeAt p.1 p.2) s
        .ok (ws.foldl (fun t w => t.writeAt w.2.1 [w.2.2]) s1)
  else
    match s.checkWrites k (grp.flatMap (plainWrites n)) with
    | .error e => .error e
    | .ok ps => .ok (ps.foldl (fun t p => t.writeAt p.1 p.2) s)

/-- A node whose DONE covers all its output tiles retires (R227). -/
def State.markDone (s : State) (k p : Nat) (outs : List Nat) : State :=
  if p = 128 then
    s.modTile k fun t => { t with demand := t.demand.map fun d => { d with storeDone := setBits d.storeDone outs } }
  else
    match s.nodeAt k p with
    | none => s
    | some n =>
      let want := n.want &&& ~~~(setBits 0 outs)
      let n1 := { n with done := setBits n.done outs, want := want, state := if want = 0 then .pending else .evaluating }
      let s1 := (s.putNode k p n1).modTile k fun t => { t with tev := min 0xFFFF (t.tev + outs.length) }
      if n.allTiles.all (bit512 n1.done) then s1.removeNode k p else s1

/-- OUTPUT_TILE_RELEASE: the whole release group, or nothing of it (R233). -/
def State.outputTileRelease (s : State) (tile node out : Nat) : State :=
  match (s.tileAt tile).demand with
  | none => s
  | some d =>
    match s.stepNode tile node d, d.fault with
    | some n, none =>
      let close := s.blockClose tile n.dst [out]
      let grp := (s.tileAt tile).reserve.filter fun e => e.node == node && close.contains e.out
      match s.releaseGroup tile n grp with
      | .error (q, f) => (s.evalFail tile node q n (evalFault f))
      | .ok s1 =>
        ((s1.modTile tile fun t => { t with reserve := t.reserve.filter fun e => e.node != node || !close.contains e.out
          }).markDone tile node (grp.map Reserve.out))
    | _, _ => s

/-- Whether a bead stands parked in its slot. -/
def State.beadParked (s : State) (b : SlotId) : Bool := match s.slotAt b with | some x => x.use == .parked | none => false

/-- A region is registered for a parked bead (R302). -/
def State.addRegion (s : State) (r : Nat × EvuRegion) : State := s.modDie r.1 fun d => { d with regions := d.regions ++ [r.2] }

/-- The region of a bead that has parked after a force; its context may have a bead to spawn now (R301, R302). -/
def State.lateRegion (s : State) (r : Option (Nat × EvuRegion)) : State :=
  match r with
  | none => s
  | some r => if s.beadParked r.2.bead then (s.addRegion r).push [.evuRecomputeSpawn r.2.ctx] else s

/-- DEMAND_COMPLETE: the instruction commits, executes again, parks its bead, or reports the late fault (R185, R227, R236);
a fault of an instruction that would park takes its park entry away. -/
def State.demandComplete (s : State) (tile : Nat) : State :=
  match (s.tileAt tile).demand with
  | none => s
  | some d =>
    let s1 := s.modTile tile fun t => { t with demand := none, reserve := [] }
    let gone (u : State) : State := match (u.coreAt tile).bead with | some b => u.removePark b | none => u
    match d.fault, d.fin with
    | some f, .park => (gone s1).trapEntry tile f d.pc
    | some f, _ => s1.trapEntry tile f d.pc
    | none, .commit => s1.modCore tile Core.commit
    | none, .again => s1
    | none, .park => (s1.parkBead tile d.pc).lateRegion d.region

/-- Discards nodes that are still pending, each counted in DROP (R238, R262). -/
def State.dropNodes (s : State) (k : Nat) (ns : List Nat) : State :=
  ns.foldl (fun t n => match t.nodeAt k n with
    | some _ => (t.removeNode k n).modTile k fun x => { x with drop := min 255 (x.drop + 1) }
    | none => t) s

/-- TDROP_SERVICE: the TDROP produces its results when it has been served (R262). -/
def State.tdropService (s : State) (tile : Nat) (nodes : List Nat) : State :=
  (s.dropNodes tile nodes).modCore tile Core.commit

/-! ### The device steps of the sequencer -/

def execDemandServe (s : State) : Host.Outcome State Fault Refusal :=
  match s.msg with
  | some (.demandServe tile) => .next (s.demandServe tile)
  | _ => .next s

def execOutputTileEvaluate (s : State) : Host.Outcome State Fault Refusal :=
  match s.msg with
  | some (.outputTileEvaluate tile node out) => .next (s.outputTileEvaluate tile node out)
  | _ => .next s

def execOutputTileRelease (s : State) : Host.Outcome State Fault Refusal :=
  match s.msg with
  | some (.outputTileRelease tile node out) => .next (s.outputTileRelease tile node out)
  | _ => .next s

def execDemandComplete (s : State) : Host.Outcome State Fault Refusal :=
  match s.msg with
  | some (.demandComplete tile) => .next (s.demandComplete tile)
  | _ => .next s

def execTdropService (s : State) : Host.Outcome State Fault Refusal :=
  match s.msg with
  | some (.tdropService tile nodes) => .next (s.tdropService tile nodes)
  | _ => .next s

end Sys2Proof.Machine
end

