-- ==== Sys2Proof/Machine/LoadStore.lean ====
section
/-! DEFINITION. Scalar loads and stores (R172-R178) and the shared issue of every C-path load and store, vector ones
included (R202-R204, R229). -/

namespace Sys2Proof.Machine

/-! ### Sizes, addresses, formats -/

/-- The memory size of a TY outside format windows, on page 1 (R174). -/
def memSize : Ty → Nat
  | .dflt => 8 | t => t.bytes

/-- The access size (R174): the window's element size through windows 1 to 5. -/
def accessSize (va : Word) (ty : Ty) : Nat :=
  if 1 ≤ windowOf va ∧ windowOf va ≤ 5 then winSize (windowOf va) else memSize ty

/-- Width and signedness of a page-1 TY as an integer. -/
def intSigned : Ty → Bool
  | .dflt => true | t => t.isSigned

/-- TY as a float format on page 1: .f16 and .f32. -/
def memFloat : Ty → Bool
  | .f16 => true | .f32 => true | _ => false

/-- WindowDecode (R160): the value of a window's bytes, OF of a DM8 decode (R33), NV of a signalling NaN (R34). -/
def windowVal (w : Nat) (bits : Nat) (sc : Byte) : Val × Flags :=
  match w with
  | 1 => let r := decodeDM8 (BitVec.ofNat 8 bits) sc; (b32.decode r.1, r.2)
  | 2 => (b16.decode bits, if b16.isSNaN bits then fNV else 0)
  | 3 => (b32.decode bits, if b32.isSNaN bits then fNV else 0)
  | 4 => (Val.ofInt (signed 8 bits), 0)
  | _ => (Val.ofInt (signed 32 bits), 0)

/-- WindowEncode (R160): a value in a window's format, window 1 under the existing scale. -/
def windowBits (w rm : Nat) (x : Val) (sc : Byte) : Nat × Flags :=
  match w with
  | 1 => let r := encodeDM8 x sc; (r.1.toNat, r.2)
  | 2 => b16.round rm x
  | 3 => b32.round rm x
  | 4 => let r := convertInt 8 true rm x; (wrapNat 8 r.1, r.2)
  | _ => let r := convertInt 32 true rm x; (wrapNat 32 r.1, r.2)

/-- An integer narrowed into INT8 or INT32 sets SAT alone (R40). -/
def intoWindow (w rm : Nat) (x : Val) (fromInt : Bool) (i : Int) (sc : Byte) : Nat × Flags :=
  if fromInt ∧ (w = 4 ∨ w = 5) then
    let r := clampInt (8 * winSize w) true i
    (wrapNat (8 * winSize w) r.1, if r.2 then fSAT else 0)
  else windowBits w rm x sc

/-- LoadScalar's result from the bytes (R175). -/
def scalarOf (va : Word) (ty : Ty) (rm : Nat) (bits : Nat) (sc : Byte) : Word × Flags :=
  let n := memSize ty
  if windowOf va = 0 then
    ((if memFloat ty || !intSigned ty then BitVec.ofNat 64 bits else BitVec.ofInt 64 (signed (8 * n) bits)), 0)
  else
    let v := windowVal (windowOf va) bits sc
    if memFloat ty then
      let r := ty.fmt.round rm v.1
      (BitVec.ofNat 64 r.1, v.2 ||| (if windowOf va = 1 && ty == .f32 then 0 else r.2))
    else
      let r := convertInt (8 * n) (intSigned ty) rm v.1
      (BitVec.ofInt 64 r.1, v.2 ||| r.2)

/-- StoreScalar's bits from the register (R176). -/
def scalarBits (va : Word) (ty : Ty) (rm : Nat) (data : Word) (sc : Byte) : Nat × Flags :=
  let n := memSize ty
  if windowOf va = 0 then (data.toNat % 2 ^ (8 * n), 0)
  else if memFloat ty then
    let r := windowBits (windowOf va) rm (ty.fmt.decode (data.toNat % 2 ^ (8 * n))) sc
    (r.1, r.2 ||| (if ty.fmt.isSNaN (data.toNat % 2 ^ (8 * n)) then fNV else 0))
  else
    let i := readInt (8 * n) (intSigned ty) data.toNat
    intoWindow (windowOf va) rm (Val.ofInt i) true i sc

/-- Lane conversion of a vector load through window `w` (R202). -/
def laneOfWindow (w : Nat) (ty : Ty) (rm : Nat) (bits : Nat) (sc : Byte) : Nat × Flags :=
  if w = 0 ∨ ty = .dm8 then (bits, 0)
  else
    let v := windowVal w bits sc
    let r := ty.ofVal rm v.1
    (r.1, v.2 ||| (if w = 1 && ty.isFloat && ty != .f16 then 0 else r.2))

/-- Lane conversion of a load, by the window of the lane's own address: that of an indexed lane may differ from the one that gave its
element size (R203; DEDUCED, log 64). -/
def laneOfMem (va : Word) (ty : Ty) (rm : Nat) (bits : Nat) (sc : Byte) : Nat × Flags :=
  laneOfWindow (windowOf va) ty rm bits sc

/-- Lane conversion of a vector store (R202). -/
def laneToMem (va : Word) (ty : Ty) (rm : Nat) (bits : Nat) (sc : Byte) : Nat × Flags :=
  if windowOf va = 0 ∨ ty = .dm8 then (bits, 0)
  else if ty.isFloat then
    let r := windowBits (windowOf va) rm (ty.fmt.decode bits) sc
    (r.1, r.2 ||| ty.snan bits)
  else
    let i := readInt (8 * ty.bytes) ty.isSigned bits
    intoWindow (windowOf va) rm (Val.ofInt i) true i sc

/-! ### Places of an access -/

/-- Address faults come before alignment, every other fault after it (R174). -/
def State.placeAligned (s : State) (i : Issuer) (va : Word) (n align : Nat) (wr : Bool) : Except FaultInfo Place :=
  match s.translate i va n wr false with
  | .error f => if f.cause ≠ cAddress ∧ va.toNat % align ≠ 0 then .error (faultAt i cAlign va) else .error f
  | .ok p => if va.toNat % align ≠ 0 then .error (faultAt i cAlign va) else .ok p

/-- The scale byte that a window-1 access needs, 0 through other windows; an address fault when it lies beyond the
scratchpad (R161). -/
def State.scaleFor (s : State) (i : Issuer) (va : Word) (loc : Nat) : Except FaultInfo Byte :=
  if windowOf va = 1 then s.scaleOf i va loc else .ok 0

/-- What one element of an access resolves to: a lane of memory, a lane in two home units, an access that is not delivered, a
system register. -/
inductive Spot
  | here (l : Lane)
  | parted (l m : Lane)
  | gone (va : Word) (dead : Bool)
  | sys (lane block off : Nat)
deriving DecidableEq, Repr

/-- The elements of an access (lane, pointer), `n` bytes each, translated in order; `scaled` where a window-1 element needs its
scale byte (R202). -/
def State.spotsOf (s : State) (i : Issuer) (n : Nat) (wr scaled : Bool) : List (Nat × Word) → Except FaultInfo (List Spot)
  | [] => .ok []
  | (j, va) :: r =>
    match s.placeAligned i va n n wr with
    | .error f => .error f
    | .ok p =>
      let spot : Spot := match p with
        | .mem loc => .here { lane := j, va := va, loc := loc, n := n }
        | .split loc k next => .parted { lane := j, va := va, loc := loc, n := k }
            { lane := j, va := padd va k, loc := next, n := n - k }
        | .gone dead => .gone va dead
        | .sys b o => .sys j b o
      match p, s.spotsOf i n wr scaled r with
      | .sys .., .ok (_ :: _) => .error (faultAt i cAddress va)
      | _, .error f => .error f
      | .mem loc, .ok l =>
        if scaled then (match s.scaleFor i va loc with | .error f => .error f | .ok _ => .ok (spot :: l)) else .ok (spot :: l)
      | _, .ok l => .ok (spot :: l)

/-- The elements of an access: all lie in the region `key`, which is tested before any is translated (R150, R151, R204). -/
def State.spots (s : State) (i : Issuer) (n : Nat) (wr scaled : Bool) (key : List Nat) (es : List (Nat × Word)) :
    Except FaultInfo (List Spot) :=
  match es.find? fun e => s.regionKey i e.2 != key with
  | some e => .error (faultAt i cAddress e.2)
  | none => s.spotsOf i n wr scaled es

/-- A fault names the address of its access (R166, R368): that of a vector access whose lanes follow one another, else that of
the element (log 36). -/
def ofAccess (f : FaultInfo) (at_ : Option Word) : FaultInfo :=
  match at_ with
  | some va => { f with va := va }
  | none => f

/-- The tag check of a whole access, lowest granule first, then uncorrectable errors of a read (R166); the lowest is that of the
lowest location (log 36). -/
def State.checkLanes (s : State) (i : Issuer) (ls : List Lane) (rd : Bool) : Except FaultInfo Unit :=
  let misses := ls.filterMap fun l => (s.tagMiss l.loc l.n (tagOf l.va)).map fun m => (m.1, tagFault i l.va l.loc m)
  let low := misses.foldl (fun acc m => match acc with
    | none => some m
    | some a => if m.1 < a.1 then some m else some a) (none : Option (Nat × FaultInfo))
  match low with
  | some m => .error m.2
  | none =>
    match ls.findSome? fun l => match s.memCheck i l.va l.loc l.n rd with | .error f => some f | .ok _ => none with
    | some f => .error f
    | none => .ok ()

/-! ### Loads -/

/-- The registers a load leaves (R175, R202): bytes by lane. -/
def State.loadInto (s : State) (k : Nat) (dst : LoadDst) (got : List (Lane × List Byte)) : State :=
  let i := s.issuer k .c
  let sc (l : Lane) : Byte := match s.scaleFor i l.va l.loc with | .ok b => b | .error _ => 0
  match dst with
  | .scalar d ty rm =>
    match got with
    | (l, bs) :: _ =>
      let r := scalarOf l.va ty rm (leNat bs) (sc l)
      s.modCore k fun c => ((c.setS d r.1).raise r.2).commit
    | [] => s.modCore k Core.commit
  | .vector d ty rm =>
    let w := ty.bytes
    let rs := got.map fun e => (e.1.lane, laneOfMem e.1.va ty rm (leNat e.2) (sc e.1))
    let old := lanesOf w ((s.coreAt k).vReg d)
    let lanes := old.zipIdx.map fun e => match rs.find? fun r => r.1 == e.2 with
      | some r => r.2.1
      | none => e.1
    let f := rs.foldl (fun f r => f ||| r.2.2) (0 : Flags)
    s.modCore k fun c => ((c.setV d (vecOf w lanes)).raise f).commit

/-- The two parts of an element that lies in two home units make one (R155). -/
def joinLanes : List (Lane × List Byte) → List (Lane × List Byte)
  | [] => []
  | (l, bs) :: r =>
    match joinLanes r with
    | (m, cs) :: r' => if l.lane = m.lane then (l, bs ++ cs) :: r' else (l, bs) :: (m, cs) :: r'
    | [] => [(l, bs)]

/-- Counts one access that consists of lanes (R155). -/
def State.countLanes (s : State) (ls : List Lane) : State := s.countPieces (ls.map fun l => (l.loc, l.n))

/-- LOAD_DATA_RETURN (R178): checks at the memory, precise at the load, then the data. -/
def State.loadDataReturn (s : State) (q : LoadReq) : State :=
  match s.checkLanes (s.issuer q.core .c) q.lanes true with
  | .error f => (s.countLanes q.lanes).trapEntry q.core (ofAccess f q.at_) q.pc
  | .ok _ => (s.countLanes q.lanes).loadInto q.core q.dst (joinLanes (q.lanes.map fun l => (l, s.look l.loc l.n)))

def spotLanes (ss : List Spot) : List Lane :=
  ss.flatMap fun x => match x with | .here l => [l] | .parted l m => [l, m] | _ => []

/-- The first element that is not delivered: its pointer, and whether a dead link lost it. -/
def firstGone (ss : List Spot) : Option (Word × Bool) := ss.findSome? fun x => match x with | .gone va d => some (va, d) | _ => none

/-- The region of an access: that of its first element. -/
def State.firstKey (s : State) (i : Issuer) (es : List (Nat × Word)) : List Nat :=
  match es with | e :: _ => s.regionKey i e.2 | [] => []

/-- A load issues: translation now, the data when it returns.  A refused or lost access is a precise fault (R156, R159). -/
def State.issueLoad (s : State) (dst : LoadDst) (at_ : Option Word) (n : Nat) (scaled : Bool) (es : List (Nat × Word)) : State :=
  let i := s.issuer s.cur .c
  match s.spots i n false scaled (s.firstKey i es) es with
  | .error f => (s.noteFailed i f.va n f).trap (ofAccess f at_)
  | .ok ss =>
    let s1 := es.foldl (fun t e => t.useTlb e.2) s
    match ss, firstGone ss with
    | [.sys j b o], _ =>
      s1.loadInto s.cur dst [({ lane := j, va := 0, loc := 0, n := 8 }, leBytes 8 (s1.readSys b o).toNat)]
    | _, none => s1.push [.loadDataReturn { core := s.cur, pc := s.me.pc, lanes := spotLanes ss, dst := dst, at_ := at_ }]
    | _, some (va, dead) =>
      let s2 := s1.countLanes (spotLanes ss)
      match s1.checkLanes i (spotLanes ss) true with
      | .error f => s2.trap (ofAccess f at_)
      | .ok _ => s2.trap (ofAccess (faultAt i (goneCause dead) va) at_)

/-- LD and LDX (R175). -/
def State.loadScalar (s : State) (ty : Ty) (rm d : Nat) (ea : Word) : State :=
  s.issueLoad (.scalar d ty rm) none (accessSize ea ty) true [(0, ea)]

/-! ### Stores -/

/-- STORE_COMPLETION (R176, R178): the bytes of a committed store land. -/
def State.storeCompletion (s : State) (q : StoreReq) : State :=
  q.pieces.foldl (fun t p => t.putAt p.loc p.bytes) (s.countPieces (q.pieces.map fun p => (p.loc, p.bytes.length)))

/-- The device steps that a store to a system register brings about (R170, R155, R338, R386). -/
def sysStore (block off : Nat) (v : Word) : List Ev :=
  if 0x050 ≤ block ∧ block < 0x060 then [.indirectionEntryWrite (indirUnit block off) (off / 8 % 2) v]
  else [.systemRegisterWrite block off v]

/-- The status bits of a store's elements that were refused or lost (R156, R159, R357). -/
def goneBits (ss : List Spot) : BitVec 5 :=
  ss.foldl (fun b x => match x with | .gone _ d => b ||| statusBit (goneCause d) | _ => b) 0

/-- The elements that a store writes: none where one is refused (R159, R204); one that a dead link loses keeps no other from being
written (R156; DEDUCED, log 42). -/
def delivered (ss : List Spot) : List Spot :=
  if ss.any fun x => match x with | .gone _ false => true | _ => false then [] else ss

/-- Where an element's bytes go. -/
def Spot.pieces (x : Spot) (bs : List Byte) : List StorePiece :=
  match x with
  | .here l => [{ va := l.va, loc := l.loc, bytes := bs }]
  | .parted l m => [{ va := l.va, loc := l.loc, bytes := bs.take l.n }, { va := m.va, loc := m.loc, bytes := bs.drop l.n }]
  | _ => []

/-- Pending nodes of the tile that a store of its own bead to its own scratchpad must wait for (R229). -/
def State.storeWaits (s : State) (ls : List Lane) : List Nat :=
  if isTile s.cur then
    (s.tileAt s.cur).order.filter fun n => ls.any fun l =>
      decide (scratchBase s.cur ≤ l.loc) && decide (l.loc < scratchBase s.cur + 2 ^ 21) &&
      (s.nodesOver s.cur (l.loc, l.loc + l.n)).contains n
  else []

/-- A store issues: every check first, then the commit, then the write (R166, R176).  `data` gives an element's bytes and
flags. -/
def State.issueStore (s : State) (at_ : Option Word) (n : Nat) (scaled : Bool) (es : List (Nat × Word))
    (data : State → Spot → List Byte × Flags) : State :=
  let i := s.issuer s.cur .c
  match s.spots i n true scaled (s.firstKey i es) es with
  | .error f => (s.noteFailed i f.va n f).trap (ofAccess f at_)
  | .ok ss =>
    let s1 := es.foldl (fun t e => t.useTlb e.2) s
    match s1.checkLanes i (spotLanes ss) false with
    | .error f => (s1.countLanes (spotLanes ss)).trap (ofAccess f at_)
    | .ok _ =>
      let waits := s1.storeWaits (spotLanes ss)
      if !waits.isEmpty then s1.forceFirst s.cur waits
      else
        let f := ss.foldl (fun f x => f ||| (data s1 x).2) (0 : Flags)
        let s2 := (s1.setMe (s1.me.raise f).commit).addOutcome s.cur (s1.beadKey s.cur) .store (goneBits ss)
        let pieces := (delivered ss).flatMap fun x => x.pieces (data s1 x).1
        let sys := ss.flatMap fun x => match x with
          | .sys _ b o => sysStore b o (BitVec.ofNat 64 (leNat (data s1 x).1))
          | _ => []
        s2.push (sys ++ (if pieces.isEmpty then [] else [.storeCompletion { core := s.cur, pieces := pieces }]))

/-- The pointer of a spot. -/
def Spot.va : Spot → Word
  | .here l => l.va | .parted l _ => l.va | .gone va _ => va | .sys .. => 0

/-- The scale byte in force at a spot's place. -/
def State.spotScale (s : State) (x : Spot) : Byte :=
  match x with
  | .here l => (match s.scaleFor (s.issuer s.cur .c) l.va l.loc with | .ok b => b | .error _ => 0)
  | _ => 0

/-- ST and STX (R176). -/
def State.storeScalar (s : State) (ty : Ty) (rm d : Nat) (ea : Word) : State :=
  let n := accessSize ea ty
  s.issueStore none n true [(0, ea)] fun t x =>
    let r := scalarBits x.va ty rm (t.sr d) (t.spotScale x)
    (leBytes n r.1, r.2)

/-! ### The instructions -/

def execLd (_pfx : Pfx) (ty : Ty) (rm d a : Nat) (off : Int) (s : State) : Host.Outcome State Fault Refusal :=
  .next (s.loadScalar ty rm d (padd (s.sr a) off))

def execSt (_pfx : Pfx) (ty : Ty) (rm d a : Nat) (off : Int) (s : State) : Host.Outcome State Fault Refusal :=
  .next (s.storeScalar ty rm d (padd (s.sr a) off))

/-- The indexed address (R174): s[B] signed, times the size that the window of s[A] gives. -/
def State.indexed (s : State) (ty : Ty) (a b : Nat) : Word :=
  padd (s.sr a) ((s.sr b).toInt * accessSize (s.sr a) ty)

def execLdx (_pfx : Pfx) (ty : Ty) (rm d a b : Nat) (s : State) : Host.Outcome State Fault Refusal :=
  .next (s.loadScalar ty rm d (s.indexed ty a b))

def execStx (_pfx : Pfx) (ty : Ty) (rm d a b : Nat) (s : State) : Host.Outcome State Fault Refusal :=
  .next (s.storeScalar ty rm d (s.indexed ty a b))

def execLoadDataReturn (s : State) : Host.Outcome State Fault Refusal :=
  match s.msg with
  | some (.loadDataReturn q) => .next (s.loadDataReturn q)
  | _ => .next s

def execStoreCompletion (s : State) : Host.Outcome State Fault Refusal :=
  match s.msg with
  | some (.storeCompletion q) => .next (s.storeCompletion q)
  | _ => .next s

end Sys2Proof.Machine
end

