-- ==== Sys2Proof/Machine/Atomic.lean ====
section
/-! DEFINITION. Bank atomics, AFADD and BANKOP (R179-R183): issue at the core, application at the bank or hem. -/

namespace Sys2Proof.Machine

/-! ### The operations -/

/-- The new m of R180 on w-bit words; `expected` is ACAS's s[D]. -/
def atomNew (fn : AtomFn) (signed : Bool) (w : Nat) (m b expected : Nat) : Nat :=
  let less (x y : Nat) : Bool := decide (readInt w signed x < readInt w signed y)
  let r := match fn with
    | .add => m + b
    | .min => if less b m then b else m
    | .max => if less m b then b else m
    | .and => Nat.land m b
    | .or => Nat.lor m b
    | .xor => Nat.xor m b
    | .swap => b
    | .cas => if m = expected then b else m
  r % 2 ^ w

/-- The old m as s[D] receives it (R180, R182). -/
def atomOld (sgn : Bool) (w m : Nat) : Word := if sgn then BitVec.ofInt 64 (Sys2Proof.signed w m) else BitVec.ofNat 64 m

/-- One element of BANKOP (R183).  `.set` stores b as it is, a NaN of binary32 too (log 59). -/
def bankNew (fn : BankFn) (signed flt : Bool) (w : Nat) (m b : Nat) : Nat :=
  if flt then
    let x := b32.decode m
    let y := b32.decode b
    match fn with
    | .set => b
    | .add => (b32.round 0 (x.add 0 y).1).1
    | .min => if x.isNaN || y.isNaN then b32.nanBits else if y.lt true x then b else m
    | .max => if x.isNaN || y.isNaN then b32.nanBits else if x.lt true y then b else m
    | _ => m
  else
    match fn with
    | .add => atomNew .add signed w m b 0
    | .min => atomNew .min signed w m b 0
    | .max => atomNew .max signed w m b 0
    | .and => atomNew .and signed w m b 0
    | .or => atomNew .or signed w m b 0
    | .xor => atomNew .xor signed w m b 0
    | .set => b % 2 ^ w

/-! ### Issue -/

/-- Only global memory and Commons take atomics (R179). -/
def atomSpace (va : Word) : Bool := spaceOf va == 0 || spaceOf va == 6 || spaceOf va == 7

/-- A check that the memory makes refuses an aligned atomic: the home hem that of the secure ranges (R169), the bank that of its
region (R163). -/
def State.bankRefuses (s : State) (i : Issuer) (va : Word) (n : Nat) : Bool :=
  va.toNat % n == 0 &&
  (if spaceOf va = 0 then
    match s.globalHome i va n true false with
    | .ok (.pa a) => decide (a + n ≤ 2 ^ 40) && !i.world && s.secureIn a n
    | _ => false
  else
    match commonsUnit i va with
    | some u => decide (fld va 0 23 + n ≤ 2 ^ 23) && !(s.regionCheck i va u (fld va 0 23) true).isOk
    | none => false)

/-- The executing core has sent an atomic: R is cleared, the conversion's flags are raised (R181, R182). -/
def State.sentAtomic (s : State) (va : Word) (f : Flags) : State :=
  ((s.useTlb va).clearR s.cur).modCore s.cur fun c => c.raise f

/-- An atomic or AFADD issues: checks, flags at issue, R cleared, the request sent (R181).  An import page may
refuse it (R159).  One that a check at the memory refuses has been sent: R stays cleared (R181).  One that a dead link loses
may have taken effect or not: a free value decides, and the record says that it is unknown (R156, R181). -/
def State.issueAtomic (s : State) (n : Nat) (fn : AtomFn) (signed : Bool) (d : Nat) (va b expected : Word) (f : Flags) :
    State :=
  let i := s.issuer s.cur .c
  if !atomSpace va then s.trap (faultAt i cAddress va)
  else
    match s.placeAligned i va n n true with
    | .error e => if s.bankRefuses i va n then (s.sentAtomic va f).trap e else (s.noteFailed i va n e).trap e
    | .ok (.mem loc) | .ok (.split loc _ _) =>
      (s.sentAtomic va f).push
        [.bankAtomicApply { core := s.cur, pc := s.me.pc, va := va, loc := loc, n := n, fn := fn, signed := signed,
                            b := b, expected := expected, reply := true, dst := d }]
    | .ok (.gone dead) =>
      let s1 := s.sentAtomic va f
      let fault : FaultInfo := { faultAt i (goneCause dead) va with unk := dead }
      let w := s1.freeWord
      match ({ s with lost := [] } : State).placeAligned i va n n true with
      | .ok (.mem loc) | .ok (.split loc _ _) =>
        if dead && bitOf w.1 0 then
          w.2.push [.bankAtomicApply { core := s.cur, pc := s.me.pc, va := va, loc := loc, n := n, fn := fn, signed := signed,
                                       b := b, expected := expected, reply := false, dst := 0 },
                    .atomicReply s.cur s.me.pc d (.fault fault)]
        else w.2.trap fault
      | _ => w.2.trap fault
    | .ok (.sys ..) => s.trap (faultAt i cAddress va)

/-- The width and the signedness that the TY of an atomic gives (R172, R180). -/
def atomBytes : Ty → Nat
  | .i32 => 4 | .u32 => 4 | _ => 8

/-- The low bits of an operand. -/
def lowBytes (n : Nat) (x : Word) : Word := BitVec.ofNat 64 (x.toNat % 2 ^ (8 * n))

/-- The eight atomics (R180). -/
def State.atomic (s : State) (fn : AtomFn) (ty : Ty) (d a b : Nat) : State :=
  let n := atomBytes ty
  s.issueAtomic n fn (ty != .u32) d (s.sr a) (lowBytes n (s.sr b)) (lowBytes n (s.sr d)) 0

def execAadd (_pfx : Pfx) (ty : Ty) (d a b : Nat) (s : State) : Host.Outcome State Fault Refusal :=
  .next (s.atomic .add ty d a b)
def execAmin (_pfx : Pfx) (ty : Ty) (d a b : Nat) (s : State) : Host.Outcome State Fault Refusal :=
  .next (s.atomic .min ty d a b)
def execAmax (_pfx : Pfx) (ty : Ty) (d a b : Nat) (s : State) : Host.Outcome State Fault Refusal :=
  .next (s.atomic .max ty d a b)
def execAand (_pfx : Pfx) (ty : Ty) (d a b : Nat) (s : State) : Host.Outcome State Fault Refusal :=
  .next (s.atomic .and ty d a b)
def execAor (_pfx : Pfx) (ty : Ty) (d a b : Nat) (s : State) : Host.Outcome State Fault Refusal :=
  .next (s.atomic .or ty d a b)
def execAxor (_pfx : Pfx) (ty : Ty) (d a b : Nat) (s : State) : Host.Outcome State Fault Refusal :=
  .next (s.atomic .xor ty d a b)
def execAswap (_pfx : Pfx) (ty : Ty) (d a b : Nat) (s : State) : Host.Outcome State Fault Refusal :=
  .next (s.atomic .swap ty d a b)
def execAcas (_pfx : Pfx) (ty : Ty) (d a b : Nat) (s : State) : Host.Outcome State Fault Refusal :=
  .next (s.atomic .cas ty d a b)

/-- AFADD (R182): the exact product, one rounding, saturated. -/
def execAfadd (_pfx : Pfx) (ty : Ty) (rm d a b : Nat) (off : Int) (s : State) : Host.Outcome State Fault Refusal :=
  let n := atomBytes ty
  let x := (s.sr b).toNat % 2 ^ 32
  let q := convertInt (8 * n) true rm ((b32.decode x).scale (-off))
  .next (s.issueAtomic n .add true d (s.sr a) (lowBytes n (BitVec.ofInt 64 q.1)) 0 q.2)

/-! ### At the bank -/

/-- BANK_ATOMIC_APPLY (R179, R181): checked, indivisible; only a change counts as a write (R180).  An uncorrectable error
at the bank is a machine check (R375). -/
def State.bankAtomicApply (s : State) (q : AtomicReq) : State :=
  let i := s.issuer q.core .c
  match s.spanCheck i q.va q.loc q.n false with
  | .error f => (s.spanCount q.loc q.n).push (if q.reply then [.atomicReply q.core q.pc q.dst (.fault f)] else [])
  | .ok _ =>
    if s.spanPoisoned q.loc q.n then (s.spanCount q.loc q.n).push [.machineCheck q.core] else
    let m := leNat (s.spanLook q.loc q.n)
    let m' := atomNew q.fn q.signed (8 * q.n) m q.b.toNat q.expected.toNat
    let s1 := if m' = m then s.spanCount q.loc q.n else s.spanWrite q.loc (leBytes q.n m')
    s1.push (if q.reply then [.atomicReply q.core q.pc q.dst (.value (atomOld q.signed (8 * q.n) m))] else [])

/-- ATOMIC_REPLY (R181): s[D] and the next instruction, or a precise fault. -/
def State.atomicReply (s : State) (core : Nat) (pc : Word) (dst : Nat) (r : Reply) : State :=
  match r with
  | .value v => s.modCore core fun c => (c.setS dst v).commit
  | .fault f => s.trapEntry core f pc

/-! ### BANKOP -/

/-- The probe of a range before BANKOP commits (R183): each 64-byte line's region, world and tags. -/
def State.probeLines (s : State) (i : Issuer) (va : Word) : Nat → Except FaultInfo Unit
  | 0 => .ok ()
  | n + 1 =>
    match s.probeLines i va n with
    | .error f => .error f
    | .ok _ =>
      let p := padd va (64 * n : Nat)
      match s.translate i p 64 true false with
      | .error f => .error f
      | .ok (.mem loc) => (match s.tagMiss loc 64 (tagOf p) with
          | some m => .error (tagFault i p loc m)
          | none => .ok ())
      | .ok _ => .error (faultAt i cAddress p)

/-- BANKOP (R183).  The range must lie in one slice; its lines may lie in several regions that admit the issuer.
Alignment is tested before the address faults that the length and the slice raise (DEDUCED, log 36). -/
def execBankop (_pfx : Pfx) (ty : Ty) (fn : BankFn) (d a b : Nat) (s : State) : Host.Outcome State Fault Refusal :=
  let i := s.issuer s.cur .c
  let va := s.sr a
  let len := (s.sr d).toNat
  let n := if ty == .f32 then 4 else atomBytes ty
  .next (
    if spaceOf va ≠ 6 ∧ spaceOf va ≠ 7 then s.trap (faultAt i cAddress va)
    else if va.toNat % 64 ≠ 0 ∨ len % 64 ≠ 0 then s.trap (faultAt i cAlign va)
    else if 0x800000 < len ∨ 2 ^ 23 < fld va 0 23 + len then s.trap (faultAt i cAddress va)
    else if len = 0 then (s.clearR s.cur).retire
    else
      match s.translate i va 64 true false, s.probeLines i va (len / 64) with
      | .error f, _ => s.trap f
      | .ok _, .error f => s.trap f
      | .ok (.mem loc), .ok _ =>
        let line : BankLine :=
          { core := s.cur, loc := loc, left := len / 64, n := n, fn := fn, signed := ty != .u32, flt := ty == .f32,
            b := lowBytes n (s.sr b) }
        ((s.clearR s.cur).retire).push [.bankopLineApply line]
      | .ok _, .ok _ => s.trap (faultAt i cAddress va))

/-- BANKOP_LINE_APPLY (R183): one line, indivisible; then the next.  A line that is read with an uncorrectable error is a
machine check (R375). -/
def State.bankopLineApply (s : State) (q : BankLine) : State :=
  if q.left = 0 then s
  else if q.fn ≠ .set ∧ s.poisoned q.loc 64 then s.push [.machineCheck q.core]
  else
    let old := s.bytes q.loc 64
    let new := (List.range (64 / q.n)).flatMap fun j =>
      leBytes q.n (bankNew q.fn q.signed q.flt (8 * q.n) (leNat ((old.drop (q.n * j)).take q.n)) q.b.toNat)
    (s.writeAt q.loc new).push (if q.left ≤ 1 then [] else [.bankopLineApply { q with loc := q.loc + 64, left := q.left - 1 }])

def execBankAtomicApply (s : State) : Host.Outcome State Fault Refusal :=
  match s.msg with
  | some (.bankAtomicApply q) => .next (s.bankAtomicApply q)
  | _ => .next s

def execAtomicReply (s : State) : Host.Outcome State Fault Refusal :=
  match s.msg with
  | some (.atomicReply core pc dst r) => .next (s.atomicReply core pc dst r)
  | _ => .next s

def execBankopLineApply (s : State) : Host.Outcome State Fault Refusal :=
  match s.msg with
  | some (.bankopLineApply q) => .next (s.bankopLineApply q)
  | _ => .next s

end Sys2Proof.Machine
end

