-- ==== Sys2Proof/Machine/Bead.lean ====
section
/-! DEFINITION. Beads: SPAWN, END, YIELD (R137-R142), join words and continuations (R50-R52, R129), pickup (R130-R133). -/

namespace Sys2Proof.Machine

def cRod : Nat := 0x0E
def cRodFull : Nat := 0x0F
def cHeldAcc : Nat := 0x11
def cPendTile : Nat := 0x12
def cJoinUnder : Nat := 0x30
def cJoinOver : Nat := 0x31
def cContinuation : Nat := 0x38

/-! ### The context that a core's committed work carries (R51, R52) -/

/-- World and descriptor of a core's partition, or of a link core's binding. -/
def State.workContext (s : State) (core : Nat) (part : Option Nat) : Bool × List Word :=
  if isLink core then ((s.linkAt (core - 384)).world, (s.linkAt (core - 384)).kd)
  else
    match part.bind s.partAt with
    | some x => (x.world, x.kd)
    | none => (false, [])

/-- Accesses that the device makes for committed work of a core. -/
def State.workIssuer (s : State) (core : Nat) (part : Option Nat) : Issuer :=
  let w := s.workContext core part
  deviceIssuer core part w.1 w.2

/-- A fault record of committed work: written where the partition's records go, no trap. -/
def State.workRecord (s : State) (core : Nat) (part : Option Nat) (bead : Word) (f : FaultInfo) : State :=
  let xy := if isTile core then ((s.tileAt core).idx, (s.tileAt core).idy) else (0x1F, (core - 384) % 8)
  let ws := recordWords (s.workContext core part).1 xy.1 xy.2 bead f 0
  if isLink core then (s.fileRecord core ws).1
  else
    match part with
    | some p => (s.partRecord p ws).1
    | none => (s.tellSteward (dieOf core) 3 none ws).1

/-- A non-secure change of a granule that only the secure world may reach (R159, R163, R169). -/
def State.worldBarred (s : State) (world : Bool) (loc : Nat) : Bool :=
  !world &&
    (if isHbm loc then s.securePa (4096 * s.homeUnit loc + loc % 4096)
     else if 2 ^ 41 ≤ loc ∧ loc < 2 ^ 42 then
       match s.regionFor ((loc - 2 ^ 41) / 2 ^ 23) ((loc - 2 ^ 41) % 2 ^ 23) with
       | some r => bitOf r 62
       | none => false
     else if 2 ^ 56 ≤ loc then
       match Map.find? s.exports ((loc - 2 ^ 56) / 2 ^ 40) with
       | some x => x.secure
       | none => false
     else false)

/-- An event with an identity that the manual does not give (R373). -/
def State.postFree (s : State) (die kind : Nat) (part : Option Nat) (rod : Nat) : State :=
  let w := s.freeWord
  w.2.post die kind part rod w.1.toNat

/-- A machine check's number is held until MCACK, its event posted (R375, log 16). -/
def State.postCheck (s : State) (die : Nat) (part : Option Nat) (core : Nat) : State :=
  let n := (s.dieAt die).nextCheck
  (s.modDie die fun d => { d with checks := d.checks ++ [(n, core)], nextCheck := n + 1 }).post die 2 part 0 n

/-! ### SPAWN (R138) -/

/-- The k-th rod of a core's partition, with its number. -/
def State.rodOfIndex (s : State) (core k : Nat) : Option (Nat × Rod) :=
  match (s.myRods core)[k]? with
  | none => none
  | some r => (s.rodAt (unitOf core) r).map fun x => (r, x)

/-- JoinProbe of a pointer that may be 0 (R138): the location. -/
def State.probeJoin (s : State) (p : Word) : Except FaultInfo (Option Nat) :=
  if p = 0 then .ok none
  else
    match s.probeWord (s.issuer s.cur .c) p with
    | .ok loc => .ok (some loc)
    | .error f => .error f

/-- SPAWN after its record has been read. -/
def State.spawnRecord (s : State) (k : Nat) (x : BeadRec) : State :=
  match s.rodOfIndex s.cur k with
  | none => s.trapCause cRod
  | some (r, rod) =>
    if !worldFits rod x then s.trapCause cWorld
    else
      match s.probeJoin x.pjoin with
      | .error f => s.trap f
      | .ok join =>
        match rod.freeSlot? with
        | none => s.trapCause cRodFull
        | some n =>
          let b : SlotId := { unit := unitOf s.cur, rod := r, slot := n }
          let child := fitRecord r rod { x with w3 := setFld x.w3 0 32 0 }
          let c := s.me
          let s1 := ((s.clearR s.cur).setMe
            { c with spn := if c.spn = BitVec.allOnes 32 then c.spn else c.spn + 1 }).retire
          match join with
          | none => s1.enqueueNew b child
          | some loc =>
            ((s1.newBead.2.putSlot b { record := child, use := .reserved, uid := s1.nextBead }).wroteSlot b).push [.bankJoinIncrement
              { core := s.cur, part := s.partOf s.cur, world := c.world, va := x.pjoin, loc := loc, cpc := c.pc, bead := s.beadAddr s.cur,
                child := some b }]

def execSpawn (_pfx : Pfx) (a : Nat) (src : Src) (s : State) : Host.Outcome State Fault Refusal :=
  let p := s.sr a
  let k := (s.me.src src).toNat
  .next (s.notSteward (
    if p.toNat % 64 ≠ 0 then s.trap { cause := cAlign, va := p }
    else s.withLoad p 64 fun t bs => t.spawnRecord k (recOfWords (wordsOf 8 bs))))

/-! ### Join words at their bank (R51) -/

/-- The refusal of a join-word change: tag, then world, that in which it was issued (R169). -/
def State.joinRefused (s : State) (j : JoinReq) : Option FaultInfo :=
  let i : Issuer := { s.workIssuer j.core j.part with world := j.world }
  match s.spanCheck i j.va j.loc 16 false with
  | .error f => some { f with late := true, cpc := some j.cpc }
  | .ok _ =>
    if (s.runsFrom j.loc 16).any fun r => s.worldBarred i.world r.1 then some { faultAt i cWorld j.va with late := true, cpc := some j.cpc } else none

/-- CNT of the join word at a location (R50). -/
def State.joinCount (s : State) (loc : Nat) : Nat := leNat (s.spanLook loc 4)

/-- CONT of the join word at a location (R50). -/
def State.joinCont (s : State) (loc : Nat) : Word := BitVec.ofNat 64 (leNat (s.spanLook (s.placeFrom loc 8) 8))

/-- What a word in memory is known by while its home unit moves (R155): its home address, else where it lies. -/
def State.locKey (s : State) (loc : Nat) : Nat := 32 * s.granuleKey (loc / 32) + loc % 32

/-- The child of a SPAWN enters its rod's ready order. -/
def State.enqueueChild (s : State) (child : Option SlotId) : State :=
  match child with
  | none => s
  | some b =>
    match s.slotAt b with
    | some x => s.appendTail b x.record x.uid
    | none => s

/-- BANK_JOIN_INCREMENT: CNT rises, saturating with a record; the child follows the acknowledgement (R138).  After an
uncorrectable error the child's slot stays reserved (log 55). -/
def State.bankJoinIncrement (s : State) (j : JoinReq) : State :=
  match s.joinRefused j with
  | some f =>
    let s1 := match j.child with | some b => s.freeSlot b | none => s
    (s1.spanCount j.loc 16).workRecord j.core j.part j.bead f
  | none =>
    if s.spanPoisoned j.loc 16 then (s.spanCount j.loc 16).push [.machineCheck j.core]
    else
      let n := s.joinCount j.loc
      if n = 2 ^ 32 - 1 then
        ((s.spanCount j.loc 16).workRecord j.core j.part j.bead { cause := cJoinOver, va := j.va, cpc := some j.cpc }).enqueueChild
          j.child
      else (s.spanWrite j.loc (leBytes 4 (n + 1))).enqueueChild j.child

/-- The partitions whose root join word lies at a location. -/
def State.rootParts (s : State) (loc : Nat) : List Nat :=
  (s.parts.filter fun e => e.2.rootLoc == some (s.locKey loc)).map Prod.fst

/-- The root join word reaches zero: pickup stops and the quiesce begins (R392).  The
retirement goes on when no device step is under way; a drained kernel does not retire (R377, log 34). -/
def State.startRetire (s : State) (p : Nat) : State :=
  match s.partAt p with
  | none => s
  | some x =>
    match x.phase with
    | .running => (s.putPart p { x with phase := .quiesce }).arm [.retirementQuiesceComplete p]
    | .draining _ => s.putPart p { x with retiring := true }
    | .drained => s.putPart p { x with retiring := true }
    | .quiesce => s
    | .rampDown => s

/-- BANK_JOIN_DECREMENT: underflow is recorded; from 1 to 0 the continuation follows, or, for a root join word, the
retirement and never a continuation (R51). -/
def State.bankJoinDecrement (s : State) (j : JoinReq) : State :=
  match s.joinRefused j with
  | some f => (s.spanCount j.loc 16).workRecord j.core j.part j.bead f
  | none =>
    if s.spanPoisoned j.loc 16 then (s.spanCount j.loc 16).push [.machineCheck j.core]
    else
      let n := s.joinCount j.loc
      if n = 0 then (s.spanCount j.loc 16).workRecord j.core j.part j.bead { cause := cJoinUnder, va := j.va, cpc := some j.cpc }
      else
        let s1 := s.spanWrite j.loc (leBytes 4 (n - 1))
        if n ≠ 1 then s1
        else
          match s1.rootParts j.loc with
          | p :: ps => (p :: ps).foldl State.startRetire s1
          | [] =>
            let cont := s1.joinCont j.loc
            if cont = 0 then s1 else s1.push [.continuationEnqueue j.core j.part cont]

/-! ### Continuations (R52, R129) -/

/-- A refused continuation: a record of cause 0x38 and an event of kind 6. -/
def State.refuseContinuation (s : State) (core : Nat) (part : Option Nat) (cont : Word) : State :=
  let s1 := s.workRecord core part 0 { cause := cContinuation, va := cont }
  s1.postFree (s1.workDie core part) 6 part 0

/-- A checked continuation enters its rod, or the overflow list behind the records that wait for the same rod; an exhausted
list is a machine check of the core whose decrement it was (R375, log 16). -/
def State.placeContinuation (s : State) (core : Nat) (r : Nat) (rod : Rod) (x : BeadRec) : State :=
  let u := unitOf core
  let waiting := (s.unitAt u).overflow.any fun o => o.rod == r
  match (if waiting then none else rod.freeSlot?) with
  | some n => s.enqueueNew { unit := u, rod := r, slot := n } (fitRecord r rod x)
  | none =>
    if (s.unitAt u).overflow.length < (s.parkCaps u).2 then
      s.addOverflow u r (fitRecord r rod x)
    else s.push [.machineCheck core]

/-- CONTINUATION_ENQUEUE: the record is read and checked in the decrementing bead's context, at any alignment (log 52). -/
def State.continuationEnqueue (s0 : State) (core : Nat) (part : Option Nat) (cont : Word) : State :=
  let s := s0.noteRange (s0.workIssuer core part) cont 64
  match s.readWhole (s.workIssuer core part) cont 64 with
  | .error f => (s0.noteFailed (s0.workIssuer core part) cont 64 f).refuseContinuation core part cont
  | .ok bs =>
    let x := recOfWords (wordsOf 8 bs)
    let r := fld x.w3 48 4
    match s.rodAt (unitOf core) r with
    | none => s.refuseContinuation core part cont
    | some rod =>
      if rod.part != part || !worldFits rod x then s.refuseContinuation core part cont
      else s.placeContinuation core r rod x

/-- OVERFLOW_LIST_DRAIN: the oldest record whose rod has a free slot enters it (R129).  It was tested when it joined the list
(R84); one whose S a secure store has changed since enters its rod and is refused at its pop (DESIGN CHOICE, log 54). -/
def State.overflowListDrain (s : State) (unit : Nat) : State :=
  let list := (s.unitAt unit).overflow
  let fits (o : Overflow) : Bool := match s.rodAt unit o.rod with | some r => r.freeSlot?.isSome | none => false
  match list.findIdx? fits with
  | none => s
  | some j =>
    match list[j]? with
    | none => s
    | some o =>
      match s.rodAt unit o.rod with
      | none => s
      | some rod =>
        let s1 := s.putLists unit { (s.unitAt unit).hit [s.overflowPage unit o] with overflow := list.eraseIdx j }
        match rod.freeSlot? with
        | some n =>
          (s1.enqueueNew { unit := unit, rod := o.rod, slot := n } (refitRecord o.rod rod o.record)).push
            [.overflowListDrain unit]
        | none => s

/-! ### END and YIELD (R136, R139, R140) -/

/-- The running bead's slot, and its record. -/
def State.mySlot (s : State) : BeadSlot := (s.me.bead.bind s.slotAt).getD { record := {}, use := .ready }
def State.myRecord (s : State) : BeadRec := s.mySlot.record

/-- The pending nodes of the executing core's tile: all are the running bead's (R221). -/
def State.pendingNodes (s : State) : List Nat := if isTile s.cur then (s.tileAt s.cur).order else []

/-- END after its checks: nodes discarded, the slot freed, the decrement sent, the core idle. -/
def State.endRun (s : State) (j : Word) (join : Option Nat) : State :=
  let c := s.me
  let s1 := (s.dropNodes s.cur s.pendingNodes).retire
  let s2 := match c.bead with | some b => s1.freeSlot b | none => s1
  let s3 := match join with
    | some loc => s2.push [.bankJoinDecrement
        { core := s.cur, part := s.partOf s.cur, world := c.world, va := j, loc := loc, cpc := c.pc, bead := s.beadAddr s.cur, child := none }]
    | none => s2
  s3.idleCore s.cur

def execEndBead (_pfx : Pfx) (a : Nat) (s : State) : Host.Outcome State Fault Refusal :=
  let j := if a = 0 then s.myRecord.pjoin else s.sr a
  .next (s.notSteward (
    match s.probeJoin j with
    | .error f => s.trap f
    | .ok join =>
      if s.me.holdsBanks then s.trapCause cHeldAcc
      else if !s.pendingNodes.isEmpty && !bitOf s.myRecord.w3 32 then s.trapCause cPendTile
      else s.endRun j join))

/-- YIELD after its tile state: the record takes the next address and SPN and enters its rod's tail. -/
def State.requeue (s : State) : State :=
  let c := s.me
  match c.bead with
  | none => s
  | some b =>
    let x := s.myRecord
    (((s.retire).appendTail b { x with code := c.npc, w3 := setFld x.w3 0 32 c.spn.toNat } s.mySlot.uid).wroteSlot b).idleCore s.cur

def execYield (_pfx : Pfx) (s : State) : Host.Outcome State Fault Refusal :=
  .next (s.notSteward (
    if s.me.inh then s.doubleTrap s.cur 0
    else if s.me.holdsBanks then s.trapCause cHeldAcc
    else if !s.pendingNodes.isEmpty then
      s.demandWork s.cur { pc := s.me.pc, fin := .again, nodes := s.inFull s.cur s.pendingNodes } 0 0
    else s.requeue))

/-! ### Pickup (R130-R133) -/

/-- The non-empty rods that a core may pop from. -/
def State.candRods (s : State) (k : Nat) : List Nat :=
  (s.myRods k).filter fun r => match s.rodAt (unitOf k) r with | some x => !x.ready.isEmpty | none => false

/-- A core that requests a pickup: idle, in service, its partition taking beads, a candidate rod non-empty. -/
def State.canPick (s : State) (k : Nat) : Bool :=
  let serves :=
    if isTile k then
      !(s.tileAt k).fenced && (match (s.tileAt k).part.bind s.partAt with | some p => p.phase == .running | none => false)
    else isLink k && (s.linkAt (k - 384)).bound
  (s.coreAt k).mode == .idle && serves && !(s.candRods k).isEmpty

/-- The rod of lowest priority value, lowest number first. -/
def State.bestRod (s : State) (u : Nat) : List Nat → Nat
  | [] => 0
  | [r] => r
  | r :: rs =>
    let t := s.bestRod u rs
    let prio (x : Nat) : Nat := match s.rodAt u x with | some y => y.prio | none => 4
    if prio t < prio r then t else r

/-- SelectRod (R130): every 64th pickup of the partition serves the highest-numbered candidate. -/
def State.selectRod (s : State) (k n : Nat) : Nat :=
  let cand := s.candRods k
  if n % 64 = 63 then cand.getLastD 0 else s.bestRod (unitOf k) cand

/-- A watchdog that counts is watched by one timer (R374). -/
def State.armWatchdog (s : State) (k : Nat) : State :=
  if s.timers.contains (.rodWatchdogExpiry k) then s else s.arm [.rodWatchdogExpiry k]

/-- The state of R132, the statistics of R239, the watchdog of R374. -/
def State.pickup (s : State) (k : Nat) (b : SlotId) (x : BeadRec) : State :=
  let c := s.coreAt k
  let fresh : Core := { Core.reset k with
    scb := c.scb, ent := c.ent, tlb := c.tlb, chkMiss := c.chkMiss, mode := .running, pc := x.code,
    bead := some b, spn := x.w3.setWidth 32, world := bitOf x.w3 33, wdFrom := s.cyc }
  let core := ((((fresh.setS 1 x.arg0).setS 2 x.arg1).setS 3 x.arg2).setS 4 x.arg3).setS 5 x.frame
  let s1 := (s.putSlot b { (s.slotAt b).getD { record := x, use := .ready } with record := x, use := .running k }).putCore k core
  let s2 := if isTile k then
      s1.modTile k fun t => { t with tev := 0, retry := 0, afrc := 0, ofrc := 0, drop := 0 }
    else s1
  s2.armWatchdog k

/-- A popped record of the other world is not run (R48, R84): its slot is lost, and the steward hears of it as of any bead
discarded (log 54).  No enqueue lets one in; only a secure store to the ring makes one. -/
def State.refusePop (s : State) (k : Nat) (b : SlotId) : State :=
  let s1 := match s.slotAt b with | some x => s.putSlot b { x with use := .lost } | none => s
  let s2 := s1.workRecord k (s1.partOf k) (s1.slotAddr b) { cause := 0x37, path := .device, late := true }
  s2.postFree (s2.workDie k (s2.partOf k)) 6 (s2.partOf k) 0

/-- PICKUP_GRANT: the first requester after the previous grant pops the head of the rod that SelectRod gives. -/
def State.pickupGrant (s : State) (unit : Nat) : State :=
  let ks := unitCores unit
  let u := s.unitAt unit
  let order := (List.range ks.length).map fun j => (u.lastGrant + 1 + j) % ks.length
  match order.find? fun i => s.canPick (ks.getD i 420) with
  | none => s
  | some i =>
    let k := ks.getD i 420
    let p := (s.partOf k).getD 255
    let n := Map.get u.pkc 0 p
    let r := s.selectRod k n.toNat
    let s1 := s.putUnit unit { u with pkc := Map.put u.pkc p (n + 1), lastGrant := i }
    match s1.rodAt unit r with
    | none => s1
    | some rod =>
      match rod.ready with
      | [] => s1
      | slot :: rest =>
        let x := (Map.get rod.slots { record := {}, use := .ready } slot).record
        let s2 := s1.putRod unit r { rod with ready := rest, buffered := rod.buffered - 1 }
        let b : SlotId := { unit := unit, rod := r, slot := slot }
        let s3 := s2.modUnit unit fun y => y.hit [(s2.slotAddr b).toNat / 4096]
        (if worldFits rod x then s3.pickup k b x else s3.refusePop k b).push [.headBufferRefill unit r, .pickupGrant unit]

/-- HEAD_BUFFER_REFILL: the freed place takes the next ready record (R133). -/
def State.headBufferRefill (s : State) (unit rod : Nat) : State :=
  s.modRod unit rod fun r => { r with buffered := if r.buffered < min 4 r.ready.length then r.buffered + 1 else r.buffered }

/-! ### The device steps -/

def execBankJoinIncrement (s : State) : Host.Outcome State Fault Refusal :=
  match s.msg with
  | some (.bankJoinIncrement j) => .next (s.bankJoinIncrement j)
  | _ => .next s

def execBankJoinDecrement (s : State) : Host.Outcome State Fault Refusal :=
  match s.msg with
  | some (.bankJoinDecrement j) => .next (s.bankJoinDecrement j)
  | _ => .next s

def execContinuationEnqueue (s : State) : Host.Outcome State Fault Refusal :=
  match s.msg with
  | some (.continuationEnqueue core part cont) => .next (s.continuationEnqueue core part cont)
  | _ => .next s

def execOverflowListDrain (s : State) : Host.Outcome State Fault Refusal :=
  match s.msg with
  | some (.overflowListDrain unit) => .next (s.overflowListDrain unit)
  | _ => .next s

def execPickupGrant (s : State) : Host.Outcome State Fault Refusal :=
  match s.msg with
  | some (.pickupGrant unit) => .next (s.pickupGrant unit)
  | _ => .next s

def execHeadBufferRefill (s : State) : Host.Outcome State Fault Refusal :=
  match s.msg with
  | some (.headBufferRefill unit rod) => .next (s.headBufferRefill unit rod)
  | _ => .next s

end Sys2Proof.Machine
end

