-- ==== Sys2Proof/Machine/Barrier.lean ====
section
/-! DEFINITION. Rectangle barriers (R319-R323). -/

namespace Sys2Proof.Machine

def cBarrier : Nat := 0x1B

/-! ### Configuration words (R320) -/

namespace BarCfg

def dx (w : Word) : Int := signed 6 (fld w 0 6)
def dy (w : Word) : Int := signed 6 (fld w 6 6)
def width (w : Word) : Nat := fld w 12 5 + 1
def height (w : Word) : Nat := fld w 17 4 + 1
def rows (w : Word) : Nat := fld w 21 16

/-- Reserved bits, rows beyond the height, no row. -/
def wellFormed (w : Word) : Bool := fld w 37 27 == 0 && decide (rows w < 2 ^ height w) && rows w != 0

end BarCfg

/-- The tile at a hop from a core's tile, in its rectangle (R83). -/
def State.hopTile (s : State) (k : Nat) (dx dy : Int) : Option Nat :=
  let t := s.tileAt k
  let x : Int := t.idx + dx
  let y : Int := t.idy + dy
  if 0 ≤ x ∧ x < t.idw ∧ 0 ≤ y ∧ y < t.idh then some (tileAtXY (tileX k + dx).toNat (tileY k + dy).toNat) else none

/-- Every tile of the rectangle lies in the partition. -/
def State.rectInside (s : State) (k : Nat) (w : Word) : Bool :=
  (s.hopTile k (BarCfg.dx w) (BarCfg.dy w)).isSome &&
  (s.hopTile k (BarCfg.dx w + (BarCfg.width w - 1 : Nat)) (BarCfg.dy w + (BarCfg.height w - 1 : Nat))).isSome

/-- KEY of a tile's register, derived from its configuration word (R319). -/
def barKey (k : Nat) (w : Word) : BarKey :=
  { x0 := (tileX k + BarCfg.dx w).toNat, y0 := (tileY k + BarCfg.dy w).toNat, w := BarCfg.width w, h := BarCfg.height w,
    rmask := BitVec.ofNat 16 (BarCfg.rows w) }

/-- A tile takes part in a key's barrier: it lies in the rectangle, in a row of RMASK. -/
def takesPart (q : BarKey) (k : Nat) : Bool :=
  decide (q.x0 ≤ tileX k) && decide (tileX k < q.x0 + q.w) && decide (q.y0 ≤ tileY k) && decide (tileY k < q.y0 + q.h) &&
  q.rmask.toNat.testBit (tileY k - q.y0)

/-! ### Registers and routers -/

namespace State

def barAt (s : State) (k b : Nat) : BarReg := Map.get (s.tileAt k).bars {} b
def putBar (s : State) (k b : Nat) (x : BarReg) : State := s.modTile k fun t => { t with bars := Map.put t.bars b x }
def routerAt (s : State) (k b : Nat) : Router := Map.get (s.tileAt k).routers {} b
def putRouter (s : State) (k b : Nat) (x : Router) : State :=
  s.modTile k fun t => { t with routers := Map.put t.routers b x }

end State

/-- The key of a register. -/
def BarReg.key (r : BarReg) (k : Nat) : BarKey := barKey k (r.cfgw.setWidth 64)

/-! ### The instructions (R320, R321) -/

def execBarcfg (_pfx : Pfx) (d a : Nat) (s : State) : Host.Outcome State Fault Refusal :=
  let w := s.sr a
  .next (
    if (s.barAt s.cur d).arr || !BarCfg.wellFormed w then s.trapCause cBarrier
    else if !s.rectInside s.cur w then s.trapCause cAddress
    else (s.putBar s.cur d { arr := false, cfg := true, ph := 0, cfgw := w.setWidth 37 }).retire)

/-- Copies of the executing core's tile that have not completed (R324, R331). -/
def State.myCopies (s : State) (k : Nat) : List (Nat × Copy) := s.copies.filter fun e => e.2.core == k

/-- The release of ARRIVE waits for the copies of the tile when it covers X, for its PKL requests when it covers K (R323); what has
been sent on C and E is performed before the next instruction (log 1). -/
def State.releaseWaits (s : State) (pm : PathMask) : Bool :=
  (pm.x && !(s.myCopies s.cur).isEmpty) || (pm.k && s.requests.any fun q => q.core == s.cur)

def execArrive (_pfx : Pfx) (_sc : Scope) (pm : PathMask) (d : Nat) (s : State) : Host.Outcome State Fault Refusal :=
  let r := s.barAt s.cur d
  let q := r.key s.cur
  .next (
    if !r.cfg || !takesPart q s.cur then s.trapCause cBarrier
    else if r.arr || s.releaseWaits pm then s
    else ((s.putBar s.cur d { r with arr := true }).retire).push
      [.barrierArrivalMessage { tile := s.cur, b := d, key := q, odd := r.ph.toNat % 2 == 1, via := .own }])

def execBwait (_pfx : Pfx) (_sc : Scope) (d : Nat) (s : State) : Host.Outcome State Fault Refusal :=
  let r := s.barAt s.cur d
  .next (if !r.cfg then s.trapCause cBarrier else if r.arr then s else s.retire)

def execBtry (_pfx : Pfx) (_sc : Scope) (d a : Nat) (s : State) : Host.Outcome State Fault Refusal :=
  let r := s.barAt s.cur a
  .next (if !r.cfg then s.trapCause cBarrier
    else s.answer d (BitVec.ofNat 64 (r.arr.toNat * 2 ^ 32 + r.ph.toNat)))

/-! ### The sweep (R322) -/

/-- A row below `y` of the rectangle takes part: the column sweep brings its arrival. -/
def rowsBelow (q : BarKey) (y : Nat) : Bool := decide (q.rmask.toNat / 2 ^ (y + 1) ≠ 0)

/-- What a router has still to wait for before it forwards or, at the corner, releases. -/
def Router.complete (r : Router) (q : BarKey) (k : Nat) : Bool :=
  let x := tileX k - q.x0
  let y := tileY k - q.y0
  let row := !q.rmask.toNat.testBit y || (r.own && (decide (q.w ≤ x + 1) || r.east))
  row && (x != 0 || !rowsBelow q y || r.south)

/-- The combined arrival that a router sends on: west in its row, north in column 0; the corner releases. -/
def forwardArrival (q : BarMsg) : Ev :=
  if tileX q.tile ≠ q.key.x0 then .barrierArrivalMessage { q with tile := q.tile - 1, via := .east }
  else if tileY q.tile ≠ q.key.y0 then .barrierArrivalMessage { q with tile := q.tile - 24, via := .south }
  else .barrierReleaseMessage q

/-- BARRIER_ARRIVAL_MESSAGE: combined when key and parity are the router's, else held. -/
def State.barrierArrivalMessage (s : State) (q : BarMsg) : State :=
  let r := s.routerAt q.tile q.b
  if r.key.isSome && r.key != some (q.key, q.odd) then s.putRouter q.tile q.b { r with later := r.later ++ [q] }
  else
    let r1 : Router := { r with
      key := some (q.key, q.odd)
      own := r.own || q.via == .own
      east := r.east || q.via == .east
      south := r.south || q.via == .south }
    (s.putRouter q.tile q.b r1).push (if r1.complete q.key q.tile then [forwardArrival q] else [])

/-- BARRIER_RELEASE_MESSAGE: the router's state ends, what it held follows; the register advances where it matches; the
release goes on south along column 0 and east along each participating row. -/
def State.barrierReleaseMessage (s : State) (q : BarMsg) : State :=
  let r := s.routerAt q.tile q.b
  let x := tileX q.tile - q.key.x0
  let y := tileY q.tile - q.key.y0
  let mine := r.key == some (q.key, q.odd)
  let s1 := if mine then s.putRouter q.tile q.b {} else s
  let bar := s1.barAt q.tile q.b
  let s2 := if takesPart q.key q.tile && bar.cfg && bar.key q.tile == q.key then
      s1.putBar q.tile q.b { bar with arr := false, ph := bar.ph + 1 }
    else s1
  s2.push ((if mine then r.later.map Ev.barrierArrivalMessage else []) ++
    (if x = 0 && rowsBelow q.key y then [.barrierReleaseMessage { q with tile := q.tile + 24 }] else []) ++
    (if q.key.rmask.toNat.testBit y && decide (x + 1 < q.key.w) then [.barrierReleaseMessage { q with tile := q.tile + 1 }]
     else []))

/-- The registers of a tile at their reset values and its router's state gone (R382, log 27). -/
def Tile.resetBars (t : Tile) : Tile := { t with bars := [], routers := [] }

def execBarrierArrivalMessage (s : State) : Host.Outcome State Fault Refusal :=
  match s.msg with
  | some (.barrierArrivalMessage q) => .next (s.barrierArrivalMessage q)
  | _ => .next s

def execBarrierReleaseMessage (s : State) : Host.Outcome State Fault Refusal :=
  match s.msg with
  | some (.barrierReleaseMessage q) => .next (s.barrierReleaseMessage q)
  | _ => .next s

end Sys2Proof.Machine
end

