-- ==== Sys2Proof/Machine/HostQueue.lean ====
section
/-! DEFINITION. The host port: command and completion rings (R67-R71), access through the CXL.mem window (R168). -/

namespace Sys2Proof.Machine

/-! ### Host memory -/

def State.hostBytes (s : State) (a : Nat) (n : Nat) : List Byte := (List.range n).map fun i => Map.get s.hostMem blankByte (a + i)

def State.putHost (s : State) (a : Nat) : List Byte → State
  | [] => s
  | b :: bs => State.putHost { s with hostMem := Map.set s.hostMem blankByte a b } (a + 1) bs

def State.modHost (s : State) (f : HostPort → HostPort) : State := { s with host := f s.host }

/-! ### Commands (R67, R68, R71) -/

def HostPort.cmdSize (h : HostPort) : Nat := 2 ^ (h.hcqn + 4)
def HostPort.cplSize (h : HostPort) : Nat := 2 ^ (h.hcpn + 4)

/-- The steps that serve a command. -/
def isCommand : Ev → Bool
  | .hostNopCommand _ => true
  | .hostUnknownCommand _ => true
  | .hostLaunchCommand _ _ => true
  | _ => false

/-- A command that has been read and not yet served, and a launch command that waits, hold back every command behind them
(R71). -/
def State.hostWaits (s : State) : Bool :=
  s.pend.any isCommand || s.launches.any fun l => match l.stream with | .host => true | _ => false

/-- The step that serves a command entry. -/
def commandStep (ws : List Word) : Ev :=
  let ctag := (wd ws 0).setWidth 32
  if fld (wd ws 0) 56 8 = 0 then .hostNopCommand ctag
  else if fld (wd ws 0) 56 8 = 1 then .hostLaunchCommand ctag (wd ws 1)
  else .hostUnknownCommand ctag

/-- The device reads the next command in ring order, in boot state 3 only (R67, R399). -/
def State.hostNext (s : State) : State :=
  let h := s.host
  if h.state ≠ 3 ∨ h.hcqh = h.hcqt ∨ s.hostWaits then s
  else
    let ws := wordsOf 8 (s.hostBytes (h.hcqb.toNat + 64 * h.hcqh) 64)
    (s.modHost fun h => { h with hcqh := (h.hcqh + 1) % h.cmdSize }).push [commandStep ws]

/-- HCQT_DOORBELL: the tail modulo the ring size. -/
def State.hcqtDoorbell (s : State) (v : BitVec 32) : State :=
  (s.modHost fun h => { h with hcqt := v.toNat % h.cmdSize }).hostNext

/-- HCPH_WRITE: held completions may go out, a new message may be sent (R69, R70). -/
def State.hcphWrite (s : State) (v : BitVec 32) : State :=
  (s.modHost fun h => { h with hcph := v.toNat, msiSent := false }).push [.completionWrite]

/-- HOST_QUEUE_REGISTER_WRITE: ring bases and sizes change only while no command waits; RO registers never (R67).  A completion
ring that grows may have room for what is held (R69).  HCQH, HCPT
and the phase P stay as they were then, even beyond a smaller ring: the manual does not say (DESIGN CHOICE, log 60); nor does it say what a base with low bits
set does: it is kept and used as written (DESIGN CHOICE, log 62). -/
def State.hostQueueRegisterWrite (s : State) (off : Nat) (v : Word) : State :=
  let busy := s.host.hcqh ≠ s.host.hcqt
  match off with
  | 0x000 => if busy then s else s.modHost fun h => { h with hcqb := v }
  | 0x008 => if busy then s else s.modHost fun h => { h with hcqn := v.toNat % 16 }
  | 0x010 => s.hcqtDoorbell (v.setWidth 32)
  | 0x020 => if busy then s else s.modHost fun h => { h with hcpb := v }
  | 0x028 => if busy then s else (s.modHost fun h => { h with hcpn := v.toNat % 16 }).push [.completionWrite]
  | 0x030 => s.hcphWrite (v.setWidth 32)
  | 0x040 => s.modHost fun h => { h with hcpi := bitOf v 0 }
  | _ => s

/-! ### Completions (R69, R70) -/

/-- A completion takes its place behind those that wait. -/
def State.complete (s : State) (c : Completion) : State :=
  (s.modHost fun h => { h with held := h.held ++ [c] }).push [.completionWrite]

/-- The 32 bytes of an entry. -/
def completionBytes (c : Completion) (phase : Bool) : List Byte :=
  bytesOfWords [BitVec.ofNat 64 (c.stat * 2 ^ 48 + phase.toNat * 2 ^ 32 + c.ctag.toNat), c.enk, c.cyc, 0]

def HostPort.room (h : HostPort) : Bool := (h.hcpt + 1) % h.cplSize != h.hcph % h.cplSize

/-- COMPLETION_WRITE: the oldest held entry goes out when there is room; then the message (R70). -/
def State.completionWrite (s : State) : State :=
  match s.host.held with
  | [] => s
  | c :: rest =>
    if !s.host.room then s
    else
      let h := s.host
      let s1 := s.putHost (h.hcpb.toNat + 32 * h.hcpt) (completionBytes c h.phase)
      let next := (h.hcpt + 1) % h.cplSize
      let s2 := s1.modHost fun h => { h with
        held := rest
        hcpt := next
        phase := if next = 0 then !h.phase else h.phase
        msiSent := h.msiSent || h.hcpi }
      let s3 := if h.hcpi && !h.msiSent then s2.emit (.msix h.msixAddr h.msixData) else s2
      s3.push (if rest.isEmpty then [] else [.completionWrite])

def State.hostNopCommand (s : State) (ctag : BitVec 32) : State :=
  (s.complete { stat := 0, ctag := ctag, enk := 0, cyc := 0 }).hostNext

def State.hostUnknownCommand (s : State) (ctag : BitVec 32) : State :=
  (s.complete { stat := 6, ctag := ctag, enk := 0, cyc := 0 }).hostNext

/-! ### The host as an issuer (R71, R73, R168) -/

/-- Non-secure, untranslated home addresses. -/
def hostIssuer : Issuer :=
  { core := 0, own := 0, part := none, world := false, heap := (0, 0, 0), steward := true, path := .host }

/-- A failed host access: a record of cause 0x34 in the steward fault area of die 0, an event of kind 5. -/
def State.hostFault (s : State) (pa : Nat) (f : FaultInfo) (read : Bool) : State :=
  let g : FaultInfo := { cause := 0x34, path := .host, va := BitVec.ofNat 64 pa, gva := BitVec.ofNat 64 pa,
                         exp := f.exp, fnd := f.fnd }
  let s1 := (s.tellSteward 0 5 none (recordWords false 0 0 0 g 0)).1
  if read then s1.emit .hostPoison else s1

/-- HOST_MEM_ACCESS: the tag in offset bits [47:40], the home address in [39:0]; a unit that lies elsewhere is served
there (R155, R156). -/
def State.hostMemAccess (s : State) (off : Nat) (n : Nat) (write : Option (List Byte)) : State :=
  let pa := off % 2 ^ 40
  let va : Word := BitVec.ofNat 64 (off / 2 ^ 40 % 256 * 2 ^ 56 + pa)
  match write with
  | none =>
    match s.readPieces hostIssuer va (n + 1) n with
    | .error f => (s.noteFailed hostIssuer va n f).hostFault pa f true
    | .ok bs => (s.noteRange hostIssuer va n).emit (.hostData bs)
  | some bs =>
    match s.writePieces hostIssuer va (bs.length + 1) bs.length with
    | .error f => (s.noteFailed hostIssuer va bs.length f).hostFault pa f false
    | .ok ps => s.fillPieces ps bs

/-! ### The device steps -/

def execHostQueueRegisterWrite (s : State) : Host.Outcome State Fault Refusal :=
  match s.msg with
  | some (.hostQueueRegisterWrite off v) => .next (s.hostQueueRegisterWrite off v)
  | _ => .next s

def execHcqtDoorbell (s : State) : Host.Outcome State Fault Refusal :=
  match s.msg with
  | some (.hcqtDoorbell v) => .next (s.hcqtDoorbell v)
  | _ => .next s

def execHostNopCommand (s : State) : Host.Outcome State Fault Refusal :=
  match s.msg with
  | some (.hostNopCommand ctag) => .next (s.hostNopCommand ctag)
  | _ => .next s

def execHostUnknownCommand (s : State) : Host.Outcome State Fault Refusal :=
  match s.msg with
  | some (.hostUnknownCommand ctag) => .next (s.hostUnknownCommand ctag)
  | _ => .next s

def execHcphWrite (s : State) : Host.Outcome State Fault Refusal :=
  match s.msg with
  | some (.hcphWrite v) => .next (s.hcphWrite v)
  | _ => .next s

def execCompletionWrite (s : State) : Host.Outcome State Fault Refusal :=
  match s.msg with
  | some .completionWrite => .next s.completionWrite
  | _ => .next s

def execHostMemAccess (s : State) : Host.Outcome State Fault Refusal :=
  match s.msg with
  | some (.hostMemAccess off n write) => .next (s.hostMemAccess off n write)
  | _ => .next s

end Sys2Proof.Machine
end

