-- ==== Sys2Proof/Machine/Power.lean ====
section
/-! DEFINITION. Throttle steps, ramps and energy (R85, R86, R394-R398). -/

namespace Sys2Proof.Machine

/-- Cycles of the 1.7 GHz arithmetic clock in a microsecond (R21). -/
def cyclesPerUs : Nat := 1700

/-! ### The step in force (R395) -/

/-- The highest of the ramp step and the steps that the four causes demand. -/
def State.stepTarget (s : State) (k : Nat) : Nat :=
  let t := s.tileAt k
  let d := s.dieAt (dieOf k)
  let ramp := if t.ramp = .steady then 0 else t.rampStep
  max ramp (max (fld (s.sysReg (0x072 + dieOf k) 0) 0 3) (max d.cur (max d.tmp d.row)))

/-- A cause raises the step at once. -/
def State.raiseStep (s : State) (k : Nat) : State := s.modTile k fun t => { t with step := max t.step (s.stepTarget k) }

/-- A microsecond has gone by since the step fell last. -/
def State.mayFall (s : State) (k : Nat) : Bool :=
  match (s.tileAt k).fell with
  | none => true
  | some c => decide (cyclesPerUs ≤ (s.cyc - c).toNat)

/-- The step falls by one at most, and not twice in a microsecond (R395). -/
def State.lowerStep (s : State) (k : Nat) : State :=
  let low := max ((s.tileAt k).step - 1) (s.stepTarget k)
  if (s.tileAt k).step ≤ low then s.modTile k fun t => { t with step := low }
  else if s.mayFall k then s.modTile k fun t => { t with step := low, fell := some s.cyc }
  else s

/-- THROTTLE_STEP_DECAY: one microsecond of every tile. -/
def State.throttleStepDecay (s : State) : State := (List.range 384).foldl State.lowerStep s

def dieTiles (d : Nat) : List Nat := (List.range 384).filter fun k => dieOf k == d

/-- THROTTLE_CAUSE_DEMAND: current limit, die temperature or board row cap. -/
def State.throttleCauseDemand (s : State) (die cause demand : Nat) : State :=
  let v := min demand 7
  let s1 := s.modDie die fun d =>
    if cause = 0 then { d with cur := v } else if cause = 1 then { d with tmp := v } else { d with row := v }
  (dieTiles die).foldl State.raiseStep s1

/-! ### Ramps (R85, R86, R398) -/

/-- Whether the step of a partition's ramp has lasted its microseconds. -/
def State.rampDue (s : State) (p : Part) : Bool := decide (p.rampUs * cyclesPerUs ≤ (s.cyc - p.rampFrom).toNat)

/-- The ramp-up begins at step 7, or at step 0 when UP is 0 (R85), whatever step the tile stood at (log 61); no other cause's step
is undercut. -/
def State.startRampUp (s : State) (p : Nat) : State :=
  match s.partAt p with
  | none => s
  | some x =>
    if x.rampUp = 0 then
      x.tiles.foldl (fun t k => (t.modTile k fun y => { y with ramp := .steady, rampStep := 0, step := 0 }).raiseStep k) s
    else
      let s1 := s.putPart p { x with rampUs := x.rampUp, rampFrom := s.cyc }
      let s2 := x.tiles.foldl (fun t k => (t.modTile k fun y => { y with ramp := .up, rampStep := 7 }).raiseStep k) s1
      s2.arm [.rampUpStep p]

/-- RAMP_UP_STEP. -/
def State.rampUpStep (s : State) (part : Nat) : State :=
  match s.partAt part with
  | none => s
  | some x =>
    let up := x.tiles.filter fun k => (s.tileAt k).ramp == .up
    if up.isEmpty then s
    else if !s.rampDue x then s.arm [.rampUpStep part]
    else
      let s1 := s.putPart part { x with rampFrom := s.cyc }
      let s2 := up.foldl (fun t k =>
        (t.modTile k fun y => { y with rampStep := y.rampStep - 1, ramp := if y.rampStep ≤ 1 then .steady else .up }).lowerStep k) s1
      if up.any fun k => (s2.tileAt k).ramp == .up then s2.arm [.rampUpStep part] else s2

/-! ### Release (R398, R76) -/

/-- The rods of a partition leave every unit. -/
def BeadUnit.release (u : BeadUnit) (p : Nat) : BeadUnit :=
  { u with rods := u.rods.filter fun e => e.2.part != some p, pkc := Map.del u.pkc p }

/-- The identity registers at their reset values (R80). -/
def Tile.unidentify (t : Tile) : Tile :=
  { t with idx := 0, idy := 0, idw := 0, idh := 0, org := [0, 0, 0, 0], ext := [0, 0, 0, 0] }

/-- Tiles, rods and partition number are released; waiting launches are tried again. -/
def State.releasePart (s : State) (p : Nat) : State :=
  match s.partAt p with
  | none => s
  | some x =>
    let s1 := x.tiles.foldl (fun t k => t.modTile k fun y =>
      { y.unidentify with part := none, saved := none, ramp := .steady, rampStep := 0 }) s
    let s2 := (x.tiles.map unitOf).eraseDups.foldl (fun t u => t.modUnit u fun b => b.release p) s1
    ({ s2 with parts := Map.del s2.parts p }.push [.launchRetry])

/-- The ramp-down begins at each tile's step (R398); with DN = 0, or at step 7, the release follows at once. -/
def State.startRampDown (s : State) (p : Nat) : State :=
  match s.partAt p with
  | none => s
  | some x =>
    let s1 := s.putPart p { x with phase := .rampDown, rampUs := x.rampDn, rampFrom := s.cyc }
    let s2 := x.tiles.foldl (fun t k => t.modTile k fun y => { y with ramp := .down, rampStep := y.step }) s1
    if x.rampDn = 0 ∨ x.tiles.all (fun k => 7 ≤ (s2.tileAt k).rampStep) then s2.releasePart p
    else s2.arm [.rampDownStep p]

/-- RAMP_DOWN_STEP. -/
def State.rampDownStep (s : State) (part : Nat) : State :=
  match s.partAt part with
  | none => s
  | some x =>
    if x.phase ≠ .rampDown then s
    else if !s.rampDue x then s.arm [.rampDownStep part]
    else
      let s1 := s.putPart part { x with rampFrom := s.cyc }
      let s2 := x.tiles.foldl (fun t k => (t.modTile k fun y => { y with rampStep := min 7 (y.rampStep + 1) }).raiseStep k) s1
      if x.tiles.all fun k => 7 ≤ (s2.tileAt k).rampStep then s2.releasePart part else s2.arm [.rampDownStep part]

/-! ### Energy (R394) -/

/-- A count of microjoules, which never decreases: it stays at the largest word (R394; DESIGN CHOICE, log 5). -/
def energyWord (n : Nat) : Word := BitVec.ofNat 64 (min n (2 ^ 64 - 1))

/-- Adds to ENT of a tile that a partition holds, or of a bound link core; how much is not stated (log 5). -/
def State.addEnergy (s : State) (k : Nat) : State :=
  if (s.partOf k).isSome then s.modCore k fun c => { c with ent := energyWord (c.ent.toNat + Config.tileEnergy k s.tick) } else s

/-- ENK is the sum of ENT over the partition's tiles. -/
def State.sumEnergy (s : State) (p : Nat) : State :=
  s.modPart p fun x => { x with enk := energyWord (x.tiles.foldl (fun a k => a + (s.coreAt k).ent.toNat) 0) }

/-- ENERGY_UPDATE: both values together. -/
def State.energyUpdate (s : State) : State :=
  let s1 := (List.range 416).foldl State.addEnergy s
  (s1.parts.map Prod.fst).foldl State.sumEnergy s1

/-! ### The device steps -/

def execRampUpStep (s : State) : Host.Outcome State Fault Refusal :=
  match s.msg with
  | some (.rampUpStep part) => .next (s.rampUpStep part)
  | _ => .next s

def execRampDownStep (s : State) : Host.Outcome State Fault Refusal :=
  match s.msg with
  | some (.rampDownStep part) => .next (s.rampDownStep part)
  | _ => .next s

def execEnergyUpdate (s : State) : Host.Outcome State Fault Refusal :=
  match s.msg with
  | some .energyUpdate => .next s.energyUpdate
  | _ => .next s

def execThrottleStepDecay (s : State) : Host.Outcome State Fault Refusal :=
  match s.msg with
  | some .throttleStepDecay => .next s.throttleStepDecay
  | _ => .next s

def execThrottleCauseDemand (s : State) : Host.Outcome State Fault Refusal :=
  match s.msg with
  | some (.throttleCauseDemand die cause demand) => .next (s.throttleCauseDemand die cause demand)
  | _ => .next s

end Sys2Proof.Machine
end

