-- ==== Sys2Proof/Machine/Boot.lean ====
section
/-! DEFINITION. Reset and boot (R6, R387, R399), attestation (R400). -/

namespace Sys2Proof.Machine

/-! ### The boot ROM (R399) -/

/-- What the boot ROM finds of an image, as FAIL reports it: 0 when it may start. -/
def bootCheck (flashOk : Bool) (x : BootImage) : Nat :=
  if !flashOk then 1
  else if Config.sha256 x.key ≠ Config.fusedKeyDigest then 3
  else if x.signature.length ≠ 16224 ∨ !Config.slhDsaVerify x.key (Config.sha256 x.image) x.signature then 2
  else if !x.formatOk then 4
  else 0

/-- The first failure among the dies' images, in the order of the dies; a die without an image is a flash failure. -/
def bootFail (flashOk : Bool) (images : List BootImage) : Nat :=
  if images.length ≠ 4 then 1 else ((images.map (bootCheck flashOk)).find? (· != 0)).getD 0

/-- The machine after a reset: registers at their reset values, SVEC kept (R369); rings written in boot state 0 are kept,
since doorbells before state 3 are (R399).  Row shifts and the fences of failed tiles stay, as hardware that has failed does
(R27, R28, log 9).  The host's memory, other devices and what is still to come are no part of the device. -/
def State.afterReset (s : State) : State :=
  { State.reset with
    hostMem := s.hostMem
    mem := Map.dropRange s.mem 0 (2 ^ 54)
    gmeta := Map.dropRange s.gmeta 0 (2 ^ 49)
    poison := s.poison.filter fun g => decide (2 ^ 49 ≤ g)
    written := Map.dropRange s.written 0 (2 ^ 53)
    exports := s.exports
    lost := s.lost
    peerParks := s.peerParks.filter fun e => decide (2 ^ 49 ≤ e.1)
    tiles := ((List.range 384).filter fun k => (s.tileAt k).fenced).map fun k => (k, { fenced := true })
    dies := (List.range 4).map fun d => (d, { svec := (s.dieAt d).svec, shifted := (s.dieAt d).shifted })
    host := if s.host.state = 0 then s.host else {}
    outbox := s.outbox
    sched := s.sched
    tick := s.tick
    free := s.free }

/-- A steward core at the entry of its image (R387). -/
def stewardStart (d : Nat) (x : BootImage) : Core :=
  (({ Core.reset (416 + d) with mode := .running, world := true, pc := x.entry }).setS 1 x.data).setS 2 (BitVec.ofNat 64 d)

/-- The image of a die is loaded, a write as any other (R165), and its steward starts. -/
def State.startDie (s : State) (d : Nat) (x : BootImage) : State :=
  ((s.writeAt x.load x.image).modDie d fun y => { y with digest := Config.sha256 x.image, boot := true }).putCore (416 + d)
    (stewardStart d x)

/-- A secure range register (R169). -/
def State.setRange (s : State) (die k : Nat) (base limit : Nat) : State :=
  (s.setSys (0x040 + die) (16 * k) (BitVec.ofNat 64 (2 ^ 63 + base / 4096 % 2 ^ 28 * 4096))).setSys (0x040 + die) (16 * k + 8)
    (BitVec.ofNat 64 (limit / 4096 % 2 ^ 28 * 4096))

/-- The secure range registers as boot leaves them (R169): register 0 of a die covers its rod rings, register 1 the rest of its
device-reserved regions (spill lists, indirection tables, page-receiving areas), whose place is not given; the others are
not valid (log 35). -/
def State.bootRanges (s : State) : State :=
  (List.range 4).foldl (fun (t : State) (d : Nat) =>
    let base := d * 2 ^ 38 + s.ringBase / 64 * 64 % 2 ^ 38
    (t.setRange d 0 base (base + 320 * 2 ^ 22 + 4095)).setRange d 1 (d * 2 ^ 38 + (Config.reservedBase d) % 2 ^ 38)
      (d * 2 ^ 38 + (Config.reservedLimit d) % 2 ^ 38)) s

/-- DEVICE_RESET: boot state 4 with FAIL, or 3 with the stewards started and the host's doorbells served. -/
def State.deviceReset (s : State) (flashOk : Bool) (images : List BootImage) : State :=
  let s0 := s.afterReset
  let f := bootFail flashOk images
  if f ≠ 0 then s0.modHost fun h => { h with state := 4, fail := f }
  else
    let s1 := images.zipIdx.foldl (fun (t : State) (e : BootImage × Nat) => t.startDie e.2 e.1) s0.bootRanges
    (s1.modHost fun h => { h with state := 3, fail := 0 }).hostNext

/-- The boot state register at CXL.io offset 0x100. -/
def HostPort.bootWord (h : HostPort) : Word := BitVec.ofNat 64 (h.fail % 256 * 256 + h.state % 16)

/-! ### Attestation (R400, log 19) -/

/-- Bytes of a digest, the most significant first. -/
def digestBytes (x : BitVec 256) : List Byte := (leBytes 32 x.toNat).reverse

/-- The signed part of a report: the identity key, the digests of the boot ROM and of each running image, the boot state,
the nonce. -/
def State.reportBody (s : State) (nonce : BitVec 256) : List Byte :=
  Config.identityKey ++ digestBytes (Config.sha256 Config.bootRom) ++
    ((List.range 4).flatMap fun d => if (s.dieAt d).boot then digestBytes (s.dieAt d).digest else []) ++
    leBytes 8 s.host.bootWord.toNat ++ digestBytes nonce

/-- ATTESTATION_REQUEST: the report with its signature. -/
def State.attestationRequest (s : State) (nonce : BitVec 256) : State :=
  s.emit (.report (s.reportBody nonce ++ Config.slhDsaSign (s.reportBody nonce)))

def execDeviceReset (s : State) : Host.Outcome State Fault Refusal :=
  match s.msg with
  | some (.deviceReset flashOk images) => .next (s.deviceReset flashOk images)
  | _ => .next s

def execAttestationRequest (s : State) : Host.Outcome State Fault Refusal :=
  match s.msg with
  | some (.attestationRequest nonce) => .next (s.attestationRequest nonce)
  | _ => .next s

end Sys2Proof.Machine
end

