-- ==== Sys2Proof/Machine/Control.lean ====
section
/-! DEFINITION. Page 0: branches and jumps (R119-R123). -/

namespace Sys2Proof.Machine

def execB (imm : Int) (s : State) : Host.Outcome State Fault Refusal := .next (s.branch true imm)

/-- PRQ[0] of a core's partition at this moment (R120, R127); 0 on a link
or steward core (R338, R387). -/
def State.prqOf (s : State) (k : Nat) : Bool :=
  if isTile k then
    match s.partOf k with
    | some p => (match s.partAt p with | some x => x.prq | none => false)
    | none => false
  else false

def execBpr (imm : Int) (s : State) : Host.Outcome State Fault Refusal := .next (s.branch (s.prqOf s.cur) imm)

def execBeqz (a : Nat) (imm : Int) (s : State) : Host.Outcome State Fault Refusal :=
  .next (s.branch (decide (s.sr a = 0)) imm)

def execBnez (a : Nat) (imm : Int) (s : State) : Host.Outcome State Fault Refusal :=
  .next (s.branch (decide (s.sr a ≠ 0)) imm)

def execBltz (a : Nat) (imm : Int) (s : State) : Host.Outcome State Fault Refusal :=
  .next (s.branch (decide ((s.sr a).toInt < 0)) imm)

def execBgez (a : Nat) (imm : Int) (s : State) : Host.Outcome State Fault Refusal :=
  .next (s.branch (decide (0 ≤ (s.sr a).toInt)) imm)

def execBeq (a b : Nat) (imm : Int) (s : State) : Host.Outcome State Fault Refusal :=
  .next (s.branch (decide (s.sr a = s.sr b)) imm)

def execBne (a b : Nat) (imm : Int) (s : State) : Host.Outcome State Fault Refusal :=
  .next (s.branch (decide (s.sr a ≠ s.sr b)) imm)

def execBlt (a b : Nat) (imm : Int) (s : State) : Host.Outcome State Fault Refusal :=
  .next (s.branch (decide ((s.sr a).toInt < (s.sr b).toInt)) imm)

def execBltu (a b : Nat) (imm : Int) (s : State) : Host.Outcome State Fault Refusal :=
  .next (s.branch (decide ((s.sr a).toNat < (s.sr b).toNat)) imm)

/-- A jump target with bit 0 set is a precise fetch fault at the jump (R122, R123). -/
def State.jumpTo (s : State) (t : Word) : State :=
  if bitOf t 0 then s.trap { cause := 0x04, va := t } else s.goto t

def execJr (a : Nat) (s : State) : Host.Outcome State Fault Refusal := .next (s.jumpTo (s.sr a))

/-- JTAB (R123): the header, then the entry; an index at or beyond LEN falls through. -/
def execJtab (a b : Nat) (s : State) : Host.Outcome State Fault Refusal :=
  let t := s.sr a
  let i := (s.sr b).toNat
  .next (if t.toNat % 8 ≠ 0 then s.trap { cause := cAlign, va := t }
    else s.withLoad t 8 fun s1 hdr =>
      if leNat hdr % 2 ^ 32 ≤ i then s1.retire
      else s1.withLoad (padd t (8 + 8 * i : Nat)) 8 fun s2 e => s2.jumpTo (BitVec.ofNat 64 (leNat e)))

end Sys2Proof.Machine
end

