-- ==== Sys2Proof/Machine/Copy.lean ====
section
/-! DEFINITION. Copies: PUT, PUTS, GET, RPUT, CPWAIT and their device steps (R324-R332). -/

namespace Sys2Proof.Machine

def cCopy : Nat := 0x1C
def cXLine : Nat := 0x32

/-! ### Issue (R324) -/

/-- The space and the alignment of one pointer of a copy. -/
def copyPointer (i : Issuer) (p : Word) : Except FaultInfo Unit :=
  if !([0, 4, 5, 6, 7].contains (spaceOf p)) || windowOf p != 0 then .error (faultAt i cAddress p)
  else if p.toNat % 32 ≠ 0 then .error (faultAt i cAlign p)
  else .ok ()

/-- The core at the hops, whose scratchpad the remote pointer names (R83). -/
def State.copyTarget (s : State) (i : Issuer) (remote : Word) (dx dy : Int) : Except FaultInfo Nat :=
  if dx = 0 ∧ dy = 0 then .ok s.cur
  else if spaceOf remote ≠ 4 then .error (faultAt i cAddress remote)
  else
    match s.hopTile s.cur dx dy with
    | some k => .ok k
    | none => .error (faultAt i cAddress remote)

/-- The length operand: RPUT has the limit of R328 (log 28). -/
def lengthOk (kind : CopyKind) (b : Word) : Bool :=
  let len := fld b 0 32
  fld b 48 16 == 0 && (if kind = .rput then decide (len ≤ 4088) else len % 32 == 0 && decide (len ≤ 0x1000000))

/-- The counter and the decrement of a PUTS. -/
def signalOk (i : Issuer) (kind : CopyKind) (cnt : Word) (dec : Nat) : Except FaultInfo Unit :=
  if kind ≠ .puts then .ok ()
  else if dec = 0 ∨ cnt.toNat % 8 ≠ 0 then .error { cause := cCopy }
  else if !([0, 6, 7].contains (spaceOf cnt)) then .error (faultAt i cAddress cnt)
  else .ok ()

/-- The checks of R324; the copy that passes them. -/
def State.checkCopy (s : State) (kind : CopyKind) (d a b : Nat) (dx dy : Int) : Except FaultInfo Copy := do
  let i := s.issuer s.cur .x
  let dst := s.sr d
  let src := s.sr a
  let len := s.sr b
  let cnt := s.sr (d + 1)
  let k ← s.copyTarget i (if kind = .get then src else dst) dx dy
  copyPointer i dst
  copyPointer i src
  if !lengthOk kind len then .error { cause := cCopy }
  signalOk i kind cnt (fld len 32 16)
  pure { kind := kind, core := s.cur, bead := s.beadAddr s.cur, uid := s.beadKey s.cur, part := s.partOf s.cur, world := s.me.world, cpc := s.me.pc,
         src := src, srcCore := if kind = .get then k else s.cur, dst := dst, dstCore := if kind = .get then s.cur else k,
         len := fld len 0 32, dec := fld len 32 16, cnt := cnt }

/-- The step that follows a copy's send: its first line, or at once what follows the last one. -/
def Copy.start (c : Copy) (id : Nat) : Ev := if c.len = 0 then .copyLineAck id else .copyLineLand id

/-- A copy issues: at most 64 of a tile are outstanding, any other waits. -/
def State.issueCopy (s : State) (kind : CopyKind) (d a b : Nat) (dx dy : Int) : State :=
  match s.checkCopy kind d a b dx dy with
  | .error f => s.trap f
  | .ok c =>
    if 64 ≤ (s.myCopies s.cur).length then s
    else
      let s1 := (if kind = .get then s else s.clearR s.cur).retire
      let id := s1.nextCopy
      { s1 with copies := Map.put s1.copies id c, nextCopy := id + 1 }.push [c.start id]

def execPut (_pfx : Pfx) (d a b : Nat) (dx dy : Int) (s : State) : Host.Outcome State Fault Refusal :=
  .next (s.issueCopy .put d a b dx dy)
def execPuts (_pfx : Pfx) (d a b : Nat) (dx dy : Int) (s : State) : Host.Outcome State Fault Refusal :=
  .next (s.issueCopy .puts d a b dx dy)
def execGet (_pfx : Pfx) (d a b : Nat) (dx dy : Int) (s : State) : Host.Outcome State Fault Refusal :=
  .next (s.issueCopy .get d a b dx dy)
def execRput (_pfx : Pfx) (d a b : Nat) (dx dy : Int) (s : State) : Host.Outcome State Fault Refusal :=
  .next (s.issueCopy .rput d a b dx dy)

/-- Takes the outcomes that a predicate covers: their bits, and the state in which they are reported (R331, R357). -/
def State.takeOutcomes (s : State) (p : Outcome → Bool) : BitVec 5 × State :=
  ((s.outcomes.filter p).foldl (fun b o => b ||| o.bits) 0, { s with outcomes := s.outcomes.filter fun o => !p o })

/-- CPWAIT: every copy of the tile has completed, whatever bead issued it; the status is reported once (R331). -/
def execCpwait (_pfx : Pfx) (d : Nat) (s : State) : Host.Outcome State Fault Refusal :=
  let r := s.takeOutcomes fun o => o.kind == .copy && o.core == s.cur
  .next (if !(s.myCopies s.cur).isEmpty then s else r.2.answer d (r.1.setWidth 64))

/-! ### Lines (R325, R166) -/

/-- The issuer of a copy's accesses; space-0x4 pointers mean core `own`. -/
def State.copyIssuer (s : State) (c : Copy) (own : Nat) : Issuer :=
  { core := c.core, own := own, part := c.part, world := c.world, heap := heapOf (s.kdOf c.core),
    steward := isSteward c.core, path := .x }

/-- A failed line of the X path: the status bit and a late record of cause 0x32. -/
def State.lineFault (s : State) (core uid : Nat) (bead cpc : Word) (world : Bool) (f : FaultInfo) : State :=
  let xy := if isTile core then ((s.tileAt core).idx, (s.tileAt core).idy)
    else if isLink core then (0x1F, (core - 384) % 8) else (0, 0)
  let g : FaultInfo := { f with cause := cXLine, path := .x, late := true, cpc := some cpc }
  ((s.addOutcome core uid .copy (statusBit f.cause)).fileRecord core (recordWords world xy.1 xy.2 bead g 0)).1

/-- A failed write of the X path: refused or lost, it sets its status bit alone (R156, R159). -/
def State.writeFault (s : State) (core uid : Nat) (bead cpc : Word) (world : Bool) (f : FaultInfo) : State :=
  if f.cause = cImport ∨ f.cause = cDead then s.addOutcome core uid .copy (statusBit f.cause)
  else s.lineFault core uid bead cpc world f

def Copy.readFault (c : Copy) (s : State) (f : FaultInfo) : State := s.lineFault c.core c.uid c.bead c.cpc c.world f
def Copy.writeFault (c : Copy) (s : State) (f : FaultInfo) : State := s.writeFault c.core c.uid c.bead c.cpc c.world f

def State.putCopy (s : State) (id : Nat) (c : Copy) : State := { s with copies := Map.put s.copies id c }

/-- A line has been written or has failed: the next one follows, the acknowledgement returns. -/
def State.lineDone (s : State) (id : Nat) (c : Copy) (n : Nat) (failed : Bool) : State :=
  let c1 : Copy := { c with pos := c.pos + n, failed := c.failed || failed }
  (s.putCopy id c1).push (.copyLineAck id :: (if c1.pos < c.len then [.copyLineLand id] else []))

/-- A fault of a line is one of the access that the line is (R166). -/
def ofLine {α : Type} (va : Word) (r : Except FaultInfo α) : Except FaultInfo α :=
  match r with
  | .ok x => .ok x
  | .error f => .error { f with va := va }

/-- The bytes of a line of up to 64. -/
def State.readLine (s : State) (i : Issuer) (va : Word) (n : Nat) : Except FaultInfo (List Byte) :=
  ofLine va (s.readWhole i va n)

/-- The places of a line, all checked before any byte is written. -/
def State.lineDest (s : State) (i : Issuer) (va : Word) (n : Nat) : Except FaultInfo (List (Nat × Nat)) :=
  ofLine va (s.writeWhole i va n)

/-- A line's translations stay in the TLB: each 64 KiB piece is translated when it is first reached (R154). -/
def State.noteLine (s : State) (i : Issuer) (va : Word) (n : Nat) : State :=
  (s.noteTlb i va).noteTlb i (padd va (n - 1 : Nat))

/-- A line's bytes go to its destination. -/
def State.landLine (s : State) (id : Nat) (c : Copy) (bs : List Byte) : State :=
  let i := s.copyIssuer c c.dstCore
  let va := padd c.dst c.pos
  match s.lineDest i va bs.length with
  | .error f => (c.writeFault (s.noteFailed i va bs.length f) f).lineDone id c bs.length true
  | .ok ps => ((s.noteLine i va bs.length).fillPieces ps bs).lineDone id c bs.length false

/-- COPY_LINE_LAND: one line is read, checked and written; an RPUT gathers its message.  The lines of 64 bytes are counted from the
copy's first byte, whatever the pointers' alignment (R166; DESIGN CHOICE, log 62). -/
def State.copyLineLand (s : State) (id : Nat) : State :=
  match Map.find? s.copies id with
  | none => s
  | some c =>
    let n := min 64 (c.len - c.pos)
    let i := s.copyIssuer c c.srcCore
    let va := padd c.src c.pos
    match s.readLine i va n with
    | .error f => (c.readFault (s.noteFailed i va n f) f).lineDone id c n true
    | .ok bs =>
      let s1 := s.noteRange i va n
      if c.kind = .rput then s1.lineDone id { c with data := c.data ++ bs } n false else s1.landLine id c bs

/-- A copy completes. -/
def State.endCopy (s : State) (id : Nat) : State := { s with copies := Map.del s.copies id }

/-- COPY_LINE_ACK: the last acknowledgement completes the copy, or its signal or message follows (R325). -/
def State.copyLineAck (s : State) (id : Nat) : State :=
  match Map.find? s.copies id with
  | none => s
  | some c =>
    if c.pos < c.len then s
    else
      match c.kind with
      | .put => s.endCopy id
      | .get => s.endCopy id
      | .puts => if c.failed then s.endCopy id else s.push [.putsSignalApply id]
      | .rput => s.push [.rputMessageApply id]

/-! ### The signal of PUTS (R326) -/

/-- PUTS_SIGNAL_APPLY: one atomic subtraction at the counter; an uncorrectable error there is a machine check (R375). -/
def State.putsSignalApply (s : State) (id : Nat) : State :=
  match Map.find? s.copies id with
  | none => s
  | some c =>
    let i := s.copyIssuer c c.core
    match s.writePlace i c.cnt 8 with
    | .error f => (c.writeFault (s.noteFailed i c.cnt 8 f) f).endCopy id
    | .ok loc =>
      if s.spanPoisoned loc 8 then ((s.spanCount loc 8).endCopy id).push [.machineCheck c.core]
      else
        ((s.noteTlb i c.cnt).spanWrite loc
          (leBytes 8 (atomNew .add false 64 (leNat (s.spanLook loc 8)) (2 ^ 64 - c.dec) 0))).endCopy id

/-! ### Message rings (R327-R329) -/

/-- The first four header tests of R329: fields, counts and the data area in the scratchpad. -/
def ringOk (loc : Nat) (ws : List Word) : Bool :=
  let cap := fld (wd ws 0) 0 32
  let head := fld (wd ws 4) 0 32
  let tail := fld (wd ws 5) 0 32
  let k := (scratchOf loc).1
  cap % 32 == 0 && decide (64 ≤ cap) && decide (cap ≤ 0x100000) &&
  fld (wd ws 0) 32 32 == 0 && fld (wd ws 1) 32 32 == 0 && wd ws 2 == 0 && wd ws 3 == 0 &&
  fld (wd ws 4) 32 32 == 0 && fld (wd ws 5) 32 32 == 0 && wd ws 6 == 0 && wd ws 7 == 0 &&
  head % 32 == 0 && tail % 32 == 0 && decide ((tail + 2 ^ 32 - head) % 2 ^ 32 ≤ cap) &&
  decide (2 ^ 40 ≤ loc) && decide (loc < 2 ^ 41) && decide ((scratchOf loc).2 + 64 + cap ≤ scratchSize k)

/-- The bytes of a message: header, payload, zeros to a multiple of 32 (R328). -/
def State.messageBytes (s : State) (c : Copy) : List Byte :=
  let t := s.tileAt c.core
  let m := 32 * ((8 + c.len + 31) / 32)
  let bs := leBytes 8 (t.idy % 256 * 2 ^ 40 + t.idx % 256 * 2 ^ 32 + c.len) ++ c.data.take c.len
  bs ++ List.replicate (m - bs.length) 0

/-- Where the granules of a message lie in its ring. -/
def ringPlaces (loc cap tail m : Nat) : List Nat :=
  (List.range (m / 32)).map fun j => loc + 64 + (tail + 32 * j) % cap

/-- REFUSED advances, saturating. -/
def State.countRefused (s : State) (loc : Nat) : State :=
  let at_ := s.placeFrom loc 8
  s.spanWrite at_ (leBytes 4 (min (2 ^ 32 - 1) (leNat (s.spanLook at_ 4) + 1)))

def State.writeMessage (s : State) : List Nat → List Byte → State
  | [], _ => s
  | p :: ps, bs => (s.writeAt p (bs.take 32)).writeMessage ps (bs.drop 32)

/-- TAIL and the F bit of the granule at +32 change in one operation. -/
def State.advanceTail (s : State) (loc tail : Nat) : State :=
  ((s.storeBytes (loc + 40) (leBytes 4 (tail % 2 ^ 32))).countUnit loc).noteWrite ((loc + 32) / 32) true

/-- RPUT_MESSAGE_APPLY. -/
def State.rputMessageApply (s : State) (id : Nat) : State :=
  match Map.find? s.copies id with
  | none => s
  | some c =>
    let i := s.copyIssuer c c.dstCore
    match s.translate i c.dst 64 true false with
    | .error f => (c.writeFault (s.noteFailed i c.dst 64 f) f).endCopy id
    | .ok (.mem loc) | .ok (.split loc _ _) =>
      match s.spanCheck i c.dst loc 64 true with
      | .error f => (c.writeFault (s.spanCount loc 64) f).endCopy id
      | .ok _ =>
        let ws := wordsOf 8 (s.spanLook loc 64)
        let cap := fld (wd ws 0) 0 32
        let tail := fld (wd ws 5) 0 32
        let used := (tail + 2 ^ 32 - fld (wd ws 4) 0 32) % 2 ^ 32
        let msg := s.messageBytes c
        if c.failed then (s.countRefused loc).endCopy id
        else if !ringOk loc ws || decide (cap < used + msg.length) then
          ((s.countRefused loc).addOutcome c.core c.uid .copy 16).endCopy id
        else
          let places := ringPlaces loc cap tail msg.length
          match places.findSome? fun p => s.tagMiss p 32 (tagOf c.dst) with
          | some m => (c.readFault (s.countRefused loc) (tagFault i c.dst loc m)).endCopy id
          | none => ((s.writeMessage places msg).advanceTail loc (tail + msg.length)).endCopy id
    | .ok (.gone dead) => (c.writeFault s (faultAt i (goneCause dead) c.dst)).endCopy id
    | .ok (.sys ..) => (c.writeFault s (faultAt i cAddress c.dst)).endCopy id

/-! ### The device steps -/

def execCopyLineLand (s : State) : Host.Outcome State Fault Refusal :=
  match s.msg with
  | some (.copyLineLand copy) => .next (s.copyLineLand copy)
  | _ => .next s

def execCopyLineAck (s : State) : Host.Outcome State Fault Refusal :=
  match s.msg with
  | some (.copyLineAck copy) => .next (s.copyLineAck copy)
  | _ => .next s

def execPutsSignalApply (s : State) : Host.Outcome State Fault Refusal :=
  match s.msg with
  | some (.putsSignalApply copy) => .next (s.putsSignalApply copy)
  | _ => .next s

def execRputMessageApply (s : State) : Host.Outcome State Fault Refusal :=
  match s.msg with
  | some (.rputMessageApply copy) => .next (s.rputMessageApply copy)
  | _ => .next s

end Sys2Proof.Machine
end

