-- ==== Sys2Proof/Machine/Csr.lean ====
section
/-! DEFINITION. CSR access (R125-R127, R80, R161, R369, R394, R395, R397). -/

namespace Sys2Proof.Machine

/-- THR (R395): causes of the tile's die, ramp, the step in force.  A core that is no tile has no ramp and no step
(log 22). -/
def State.thr (s : State) (k : Nat) : Word :=
  let d := s.dieAt (dieOf k)
  let fw := fld (s.sysReg (0x072 + dieOf k) 0) 0 3
  let t := s.tileAt k
  let rmp := isTile k && t.ramp != .steady
  BitVec.ofNat 64 ((decide (fw ≠ 0)).toNat * 128 + (decide (d.cur ≠ 0)).toNat * 64 + (decide (d.tmp ≠ 0)).toNat * 32
    + (decide (d.row ≠ 0)).toNat * 16 + rmp.toNat * 8 + (if isTile k then t.step % 8 else 0))

/-- RAMP of the core's partition (R397); 0 on a core that is no tile (log 22). -/
def State.rampReg (s : State) (k : Nat) : Word :=
  if isTile k then
    match s.partOf k with
    | some p => (match s.partAt p with | some x => BitVec.ofNat 64 (x.rampDn % 256 * 256 + x.rampUp % 256) | none => 0)
    | none => 0
  else 0

/-- ENK of the core's partition (R394); 0 on a link core. -/
def State.enkReg (s : State) (k : Nat) : Word :=
  if isTile k then
    match s.partOf k with
    | some p => (match s.partAt p with | some x => x.enk | none => 0)
    | none => 0
  else 0

/-- ESTAT (R369). -/
def Core.estat (c : Core) : Word := BitVec.ofNat 64 (c.pw.toNat * 2 + c.inh.toNat)

/-- CSR[n] as core `k` reads it (R126). -/
def State.csr (s : State) (k n : Nat) : Word :=
  let c := s.coreAt k
  let t := s.tileAt k
  let onTile (v : Nat) : Word := if isTile k then BitVec.ofNat 64 v else 0
  match n with
  | 0x000 => c.flg.setWidth 64
  | 0x001 => s.cyc
  | 0x002 => c.icnt
  | 0x003 => s.beadAddr k
  | 0x004 => boolWord (s.prqOf k)
  | 0x005 => BitVec.ofNat 64 (s.rodMask k)
  | 0x008 => onTile t.idx
  | 0x009 => onTile t.idy
  | 0x00A => onTile t.idw
  | 0x00B => onTile t.idh
  | 0x00C => onTile (t.org.getD 0 0)
  | 0x00D => onTile (t.org.getD 1 0)
  | 0x00E => onTile (t.org.getD 2 0)
  | 0x00F => onTile (t.org.getD 3 0)
  | 0x010 => onTile (t.ext.getD 0 0)
  | 0x011 => onTile (t.ext.getD 1 0)
  | 0x012 => onTile (t.ext.getD 2 0)
  | 0x013 => onTile (t.ext.getD 3 0)
  | 0x018 => s.thr k
  | 0x019 => s.rampReg k
  | 0x01A => s.enkReg k
  | 0x01B => c.ent
  | 0x020 => if isSteward k then 0 else c.scb.setWidth 64
  | 0x040 => c.epc
  | 0x041 => c.ecause
  | 0x042 => c.eaddr
  | 0x043 => c.erec
  | 0x044 => c.estat
  | 0x045 => c.esav0
  | 0x046 => c.esav1
  | 0x047 => c.esav2
  | 0x048 => c.esav3
  | 0x050 => (s.dieAt (dieOf k)).svec
  | _ => 0

/-- A field of RAMP written below its floor takes the floor (R397). -/
def rampFloor (dflt v : Word) : Nat × Nat :=
  (max (fld v 0 8) (fld dflt 16 8), max (fld v 8 8) (fld dflt 24 8))

/-- CSRW's write under R5: RO registers and fields keep their value, FLG clears the bits written as 1. -/
def State.setCsr (s : State) (k n : Nat) (v : Word) : State :=
  match n with
  | 0x000 => s.modCore k fun c => { c with flg := c.flg &&& ~~~(v.setWidth 5) }
  | 0x019 =>
    if isTile k then
      match s.partOf k with
      | some p =>
        let r := rampFloor (s.sysReg 0x071 0) v
        s.modPart p fun x => { x with rampUp := r.1, rampDn := r.2 }
      | none => s
    else s
  | 0x020 => if isSteward k then s else s.modCore k fun c => { c with scb := v.setWidth 21 }
  | 0x040 => s.modCore k fun c => { c with epc := v }
  | 0x045 => s.modCore k fun c => { c with esav0 := v }
  | 0x046 => s.modCore k fun c => { c with esav1 := v }
  | 0x047 => s.modCore k fun c => { c with esav2 := v }
  | 0x048 => s.modCore k fun c => { c with esav3 := v }
  | 0x050 => s.modDie (dieOf k) fun d => { d with svec := v }
  | _ => s

/-- A secure-only CSR in the non-secure world is a world fault (R125). -/
def State.csrBarred (s : State) (n : Nat) : Bool := n == 0x050 && !s.me.world

def execCsrr (d immn : Nat) (s : State) : Host.Outcome State Fault Refusal :=
  .next (if s.csrBarred immn then s.trapCause cWorld else s.answer d (s.csr s.cur immn))

def execCsrw (d immn : Nat) (s : State) : Host.Outcome State Fault Refusal :=
  .next (if s.csrBarred immn then s.trapCause cWorld else (s.setCsr s.cur immn (s.sr d)).retire)

end Sys2Proof.Machine
end

