-- ==== Sys2Proof/Machine/Future.lean ====
section
/-! DEFINITION. Futures: LDF, STF, PARK (R184-R190), tests at the cell's memory, wakes. -/

namespace Sys2Proof.Machine

def cParkFull : Nat := 0x10
def cHeld : Nat := 0x11
def cPending : Nat := 0x12

/-- Whether a pointer names an import page (R158). -/
def State.isImport (s : State) (i : Issuer) (va : Word) (wr : Bool) : Bool :=
  spaceOf va == 0 && (match s.globalHome i va 8 wr false with | .ok (.imp ..) => true | _ => false)

/-- The place of a cell (R184): 32-byte aligned, no import page, no system register.  A cell is known by its first byte (log 58).  Its
value is 8 raw bytes behind every window, with no check of a scale byte (DEDUCED, log 64); a misaligned pointer to an import page
is an alignment fault (DEDUCED, log 36). -/
def State.cellPlace (s : State) (i : Issuer) (va : Word) (wr : Bool) : Except FaultInfo Place :=
  match s.placeAligned i va 8 32 wr with
  | .error f => .error f
  | .ok (.sys ..) => .error (faultAt i cAddress va)
  | .ok p => if s.isImport i va wr then .error (faultAt i cAddress va) else .ok p

/-! ### Handling of tile state before a park (R136, R185) -/

/-- Steps 2 to 5 of Park for core `k` at an instruction whose entry is installed: a held handle faults, pending nodes are
forced in full, then the bead parks (R136, R185, R372). -/
def State.parkOrForce (s : State) (k : Nat) : State :=
  let c := s.coreAt k
  match c.bead with
  | none => s
  | some b =>
    if c.inh then (s.removePark b).doubleTrap k 0
    else if c.holdsBanks then (s.removePark b).trapEntry k { cause := cHeld } c.pc
    else if isTile k && !(s.tileAt k).order.isEmpty then
      s.demandWork k { pc := c.pc, fin := .park, nodes := s.inFull k (s.tileAt k).order } 0 0
    else s.parkBead k c.pc

/-! ### TestAndRegister (R185, R187) -/

/-- Whether a test holds of a cell. -/
def testHolds (t : TestFor) (full : Bool) (v : Nat) : Bool :=
  match t with
  | .ldf _ => full | .full => full | .zero => v == 0

/-- The test holds: the entry goes, the value is written, the instruction commits. -/
def State.testPassed (s : State) (k : Nat) (t : TestFor) (v : Word) : State :=
  let s1 := match (s.coreAt k).bead with | some b => s.removePark b | none => s
  s1.modCore k fun c => ((match t with | .ldf d => c.setS d v | _ => c)).commit

/-- A check of the cell failed: the entry goes, the fault is precise. -/
def State.testFailed (s : State) (k : Nat) (f : FaultInfo) (pc : Word) : State :=
  let s1 := match (s.coreAt k).bead with | some b => s.removePark b | none => s
  s1.trapEntry k f pc

/-- TEST_AND_REGISTER_REPLY: the test at the cell's memory and what the reply does.  A steward core stalls (R387). -/
def State.testAndRegisterReply (s : State) (q : TestReq) : State :=
  match s.spanCheck (s.issuer q.core .c) q.va q.loc 8 true with
  | .error f => (s.spanCount q.loc 8).testFailed q.core f q.pc
  | .ok _ =>
    let g := q.loc / 32
    let m := s.metaAt g
    let v := leNat (s.spanLook q.loc 8)
    let s := s.spanCount q.loc 8
    if testHolds q.test (metaF m) v then s.testPassed q.core q.test (BitVec.ofNat 64 v)
    else if isSteward q.core then s
    else (s.putMeta g (mkMeta (metaD m) true (metaF m) (metaTag m))).parkOrForce q.core

/-- LDF and PARK issue: the entry is installed before the request leaves (R185, R188), so that the park-full fault comes before the
faults that the cell's own tag or an uncorrectable error would raise (DEDUCED, log 64). -/
def State.issueTest (s : State) (va : Word) (t : TestFor) : State :=
  let i := s.issuer s.cur .c
  let install (g : Nat) : Option State :=
    match s.me.bead with
    | some b => if isSteward s.cur then some s else s.installPark b.unit g s.me.world b
    | none => some s
  match s.cellPlace i va false with
  | .error f => (s.noteFailed i va 8 f).trap f
  | .ok (.mem loc) | .ok (.split loc _ _) =>
    match install (s.granuleKey (loc / 32)) with
    | none => s.trapCause cParkFull
    | some s1 => (s1.useTlb va).push
        [.testAndRegisterReply { core := s.cur, pc := s.me.pc, va := va, loc := loc, test := t }]
  | .ok (.gone dead) => s.trap (faultAt i (goneCause dead) va)
  | .ok (.sys ..) => s.trap (faultAt i cAddress va)

def execLdf (_pfx : Pfx) (d a : Nat) (off : Int) (s : State) : Host.Outcome State Fault Refusal :=
  .next (s.issueTest (padd (s.sr a) off) (.ldf d))

/-- A PARK is itself a double trap in a handler (R372), and runs on no steward core (R102). -/
def State.issuePark (s : State) (va : Word) (t : TestFor) : State :=
  s.notSteward (if s.me.inh then s.doubleTrap s.cur 0 else s.issueTest va t)

def execPark (_pfx : Pfx) (a : Nat) (off : Int) (s : State) : Host.Outcome State Fault Refusal :=
  .next (s.issuePark (padd (s.sr a) off) .full)

def execParkZ (_pfx : Pfx) (a : Nat) (off : Int) (s : State) : Host.Outcome State Fault Refusal :=
  .next (s.issuePark (padd (s.sr a) off) .zero)

def execTestAndRegisterReply (s : State) : Host.Outcome State Fault Refusal :=
  match s.msg with
  | some (.testAndRegisterReply q) => .next (s.testAndRegisterReply q)
  | _ => .next s

/-! ### Fills (R186) -/

/-- A cell takes a value and its F bit, that of its first byte's granule, in one operation, waking (R186, R189, log 58). -/
def State.fillCell (s : State) (loc : Nat) (v : Word) (full : Bool) : State :=
  (s.spanWrite loc (leBytes 8 v.toNat)).noteWrite (loc / 32) full

def State.futureFillApply (s : State) (q : FillReq) : State := s.fillCell q.loc q.v q.full

/-- STF and STF.E: checked, committed, then sent (R145, R147). -/
def State.issueFill (s : State) (va v : Word) (full : Bool) : State :=
  let i := s.issuer s.cur .c
  match s.cellPlace i va true with
  | .error f => (s.noteFailed i va 8 f).trap f
  | .ok (.mem loc) | .ok (.split loc _ _) =>
    match s.spanCheck i va loc 8 false with
    | .error f => (s.noteFailed i va 8 f).trap f
    | .ok _ =>
      (((s.useTlb va).clearR s.cur).retire).push [.futureFillApply { loc := loc, v := v, full := full }]
  | .ok (.gone dead) =>
    (((s.useTlb va).clearR s.cur).retire).addOutcome s.cur (s.beadKey s.cur) .store (statusBit (goneCause dead))
  | .ok (.sys ..) => s.trap (faultAt i cAddress va)

def execStf (_pfx : Pfx) (d a : Nat) (off : Int) (s : State) : Host.Outcome State Fault Refusal :=
  .next (s.issueFill (padd (s.sr a) off) (s.sr d) true)

def execStfE (_pfx : Pfx) (d a : Nat) (off : Int) (s : State) : Host.Outcome State Fault Refusal :=
  .next (s.issueFill (padd (s.sr a) off) (s.sr d) false)

def execFutureFillApply (s : State) : Host.Outcome State Fault Refusal :=
  match s.msg with
  | some (.futureFillApply q) => .next (s.futureFillApply q)
  | _ => .next s

/-! ### Wakes (R189) -/

/-- PARK_TABLE_WAKE of a granule where it lies: every park table that its wake goes to, and devices whose beads wait for it
(log 20). -/
def State.parkTableWake (s : State) (granule : Nat) : State :=
  let far := s.peerParks.filter fun e => e.1 == granule
  let s1 : State := { s with
    peerParks := s.peerParks.filter fun e => e.1 != granule
    outbox := s.outbox ++ far.map fun (e : Nat × Nat) => .wake e.2 granule }
  (wakeUnits granule).foldl (fun t u => t.wakeUnit u (s.granuleKey granule)) s1

def execParkTableWake (s : State) : Host.Outcome State Fault Refusal :=
  match s.msg with
  | some (.parkTableWake granule) => .next (s.parkTableWake granule)
  | _ => .next s

end Sys2Proof.Machine
end

