-- ==== Sys2Proof/Machine/Launch.lean ====
section
/-! DEFINITION. Launch and placement (R72-R82), the LAUNCH instruction and its completion record (R141). -/

namespace Sys2Proof.Machine

/-! ### Kernel descriptors (R54, R55) -/

namespace Kd

def secure (kd : List Word) : Bool := bitOf (wd kd 1) 63
def indirect (kd : List Word) : Bool := bitOf (wd kd 1) 62
def eager (kd : List Word) : Bool := bitOf (wd kd 1) 61
def len (kd : List Word) : Nat := fld (wd kd 1) 24 24
def entry (kd : List Word) : Nat := fld (wd kd 1) 0 24
def ring (kd : List Word) : Nat := fld (wd kd 2) 24 5
def prio (kd : List Word) : Nat := fld (wd kd 2) 20 2

/-- NROD; 0 means 1. -/
def nrod (kd : List Word) : Nat := max 1 (fld (wd kd 2) 16 4)

def wdog (kd : List Word) : Nat := fld (wd kd 8) 0 40

/-- Every Reserved field is 0. -/
def reservedZero (kd : List Word) : Bool :=
  fld (wd kd 1) 48 13 == 0 && fld (wd kd 2) 29 35 == 0 && fld (wd kd 2) 22 2 == 0 && fld (wd kd 2) 13 3 == 0 &&
  fld (wd kd 2) 5 3 == 0 && fld (wd kd 8) 40 24 == 0

/-- TVEC is even, carries CODE's tag and lies in the code image. -/
def vectorOk (kd : List Word) : Bool :=
  let c := wd kd 0
  let t := wd kd 7
  !bitOf t 0 && tagOf t == tagOf c && decide (fld c 0 56 ≤ fld t 0 56) && decide (fld t 0 56 < fld c 0 56 + 2 * len kd)

/-- The fields that a link core's binding takes (R338): code image, handler, fault area, heap window. -/
def contextOk (kd : List Word) : Bool :=
  (wd kd 0).toNat % 64 == 0 && decide (1 ≤ len kd) && vectorOk kd && (wd kd 6).toNat % 128 == 0 &&
  (wd kd 9).toNat % 65536 == 0 && (wd kd 10).toNat % 65536 == 0

end Kd

/-- Extents all zero or none; W and H in range. -/
def shapeOk (w h : Nat) (t : Word) : Bool :=
  let xs := (List.range 4).map fun i => fld t (16 * i) 16
  decide (1 ≤ w) && decide (w ≤ 24) && decide (1 ≤ h) && decide (h ≤ 16) && (xs.all (· == 0) || xs.all (· != 0))

/-- R55 without the shape of an indirect launch; `launcher` is the launcher's world. -/
def kdOk (kd : List Word) (launcher : Bool) : Bool :=
  Kd.reservedZero kd && Kd.contextOk kd && decide (Kd.entry kd < Kd.len kd) && decide (6 ≤ Kd.ring kd) &&
  decide (Kd.ring kd ≤ 16) && (wd kd 5).toNat % 16 == 0 && (!Kd.secure kd || launcher) &&
  (if Kd.indirect kd then (wd kd 4).toNat % 16 == 0
   else shapeOk (fld (wd kd 2) 0 5) (fld (wd kd 2) 8 5) (wd kd 3))

/-! ### Completion of a launch (R69, R141) -/

/-- Accesses in the translation context and the world of the launching bead's partition (R73, R141). -/
def Origin.issuer (o : Origin) : Issuer :=
  { core := o.core, own := o.core, part := o.part, world := o.pworld, heap := o.heap, steward := isSteward o.core, path := .c }

/-- The launching bead's address. -/
def State.originBead (s : State) (o : Origin) : Word :=
  match o.slot with
  | some b => s.slotAddr b
  | none => 0

/-- The launching partition, or the link core's binding, has not retired. -/
def State.originAlive (s : State) (o : Origin) : Bool :=
  if isLink o.core then (s.linkAt (o.core - 384)).bound && (s.linkAt (o.core - 384)).born == o.born
  else
    match o.part.bind s.partAt with
    | some x => x.born == o.born && x.phase != .rampDown
    | none => false

/-- The completion record could not be written (R141). -/
def State.fillFault (s : State) (o : Origin) (f : FaultInfo) : State :=
  let g : FaultInfo := { f with path := .device, late := true, cpc := some o.cpc }
  if s.originAlive o then s.workRecord o.core o.part (s.originBead o) g
  else (s.tellSteward o.die 3 o.part (recordWords o.pworld 0 0 (s.originBead o) g 0)).1

/-- w1 to w3 in the layout of R69, then w0 filled as STF fills a cell. -/
def State.fillRecord (s : State) (o : Origin) (stat : Nat) (enk cyc : Word) : State :=
  if o.cr = 0 then s
  else
    match s.probe o.issuer o.cr 32 32 with
    | .error f => (s.noteFailed o.issuer o.cr 32 f).fillFault o f
    | .ok loc =>
      ((s.noteTlb o.issuer o.cr).spanWrite (s.placeFrom loc 8) (bytesOfWords [enk, cyc, 0])).fillCell loc
        (BitVec.ofNat 64 (stat * 2 ^ 48 + 2 ^ 32)) true

/-- The outcome of a launch reaches its completion target. -/
def State.postLaunch (s : State) (l : Launcher) (stat : Nat) (enk cyc : Word) : State :=
  match l with
  | .host ctag => s.complete { stat := stat, ctag := ctag, enk := enk, cyc := cyc }
  | .bead o => s.fillRecord o stat enk cyc

/-! ### At the arbiter (R72-R76) -/

def launcherSecure : Launcher → Bool
  | .host _ => false
  | .bead o => o.world

/-- A launch leaves the arbiter; others may now proceed. -/
def State.dropLaunch (s : State) (id : Nat) : State :=
  { s with launches := s.launches.filter fun l => l.id != id }

/-- A refused launch, or one that counts as retired at once (R54). -/
def State.refuseLaunch (s : State) (l : Launch) (stat : Nat) : State :=
  (((s.dropLaunch l.id).postLaunch l.by_ stat 0 0).push [.launchRetry]).hostNext

/-- A rectangle that meets a fenced position wherever it would lie (R74); tested when the shape becomes known, not again
while the launch waits (log 53). -/
def State.neverFits (s : State) (w h : Nat) : Bool :=
  (List.range (17 - h)).all fun y0 => (List.range (25 - w)).all fun x0 =>
    (rectTiles x0 y0 w h).any fun k => (s.tileAt k).fenced

def State.modLaunch (s : State) (id : Nat) (f : Launch → Launch) : State :=
  { s with launches := s.launches.map fun (l : Launch) => if l.id = id then f l else l }

/-- Step 4 of R72, then waiting for a rectangle.  R74 is applied here and at no later moment (DESIGN CHOICE; log 53). -/
def State.shapeKnown (s : State) (l : Launch) (w h : Nat) (t : Word) : State :=
  if s.neverFits w h then s.refuseLaunch l 4
  else
    (s.modLaunch l.id fun x => { x with w := w, h := h, tshape := t, ready := true }).push [.launchRetry]

/-- A launch whose descriptor has been read arrives (R72 steps 2 to 4); none when the read failed. -/
def State.offerLaunch (s : State) (by_ : Launcher) (stream : LaunchStream) (kd : Option (List Word)) : State :=
  let l : Launch := { id := s.nextLaunch, by_ := by_, stream := stream, kd := kd.getD [] }
  let s1 := { s with nextLaunch := s.nextLaunch + 1 }
  match kd with
  | none => s1.refuseLaunch l 7
  | some ws =>
    let host := match by_ with | .host _ => true | .bead _ => false
    if host && Kd.secure ws then s1.refuseLaunch l 3
    else if !kdOk ws (launcherSecure by_) then s1.refuseLaunch l 2
    else
      let s2 := { s1 with launches := s1.launches ++ [l] }
      if Kd.indirect ws then
        s2.push [if Kd.eager ws then .indirectRecordRead l.id else .launchRetry]
      else s2.shapeKnown l (fld (wd ws 2) 0 5) (fld (wd ws 2) 8 5) (wd ws 3)

/-- A descriptor is one access of 128 bytes: both lines lie in one region (R150, R151), each is read through its own home unit
and page (R153, R155). -/
def State.readKd (s : State) (i : Issuer) (kd : Word) : Except FaultInfo (List Byte) :=
  if s.regionKey i (padd kd 64) != s.regionKey i kd then .error (faultAt i cAddress kd)
  else bothLines (s.readPlace i kd 64) (s.readPlace i (padd kd 64) 64)

/-- HOST_LAUNCH_COMMAND (R72, R73): the descriptor is read from die 0 at a home address.  The next command follows when this
one is placed or refused (R71). -/
def State.hostLaunchCommand (s : State) (ctag : BitVec 32) (kd : Word) : State :=
  if kd.toNat % 64 ≠ 0 then
    (({ s with nextLaunch := s.nextLaunch + 1 }).complete { stat := 2, ctag := ctag, enk := 0, cyc := 0 }).hostNext
  else
    match s.readKd hostIssuer kd with
    | .error f => (s.noteFailed hostIssuer kd 128 f).offerLaunch (.host ctag) .host none
    | .ok bs => (s.noteRange hostIssuer kd 128).offerLaunch (.host ctag) .host (some (wordsOf 16 bs))

/-- Whose accesses the arbiter makes for a launch (R73). -/
def launcherIssuer : Launcher → Issuer
  | .host _ => hostIssuer
  | .bead o => o.issuer

/-- INDIRECT_RECORD_READ (R75).  A record of no tiles with a Reserved bit set is refused with 2 (R55) and not retired at once (R54): the
rules give neither precedence (DESIGN CHOICE, log 63). -/
def State.indirectRecordRead (s : State) (launch : Nat) : State :=
  match s.launches.find? fun l => l.id == launch && !l.ready with
  | none => s
  | some l =>
    let i := launcherIssuer l.by_
    match s.readPlace i (wd l.kd 4) 16 with
    | .error f => (s.noteFailed i (wd l.kd 4) 16 f).refuseLaunch l 7
    | .ok bs =>
      let s := s.noteRange i (wd l.kd 4) 16
      let w0 := wd (wordsOf 2 bs) 0
      let t := wd (wordsOf 2 bs) 1
      if w0 = 0 ∧ t = 0 then s.refuseLaunch l 0
      else if fld w0 13 51 ≠ 0 ∨ fld w0 5 3 ≠ 0 ∨ !shapeOk (fld w0 0 5) (fld w0 8 5) t then s.refuseLaunch l 2
      else s.shapeKnown l (fld w0 0 5) (fld w0 8 5) t

/-! ### Finding a place (R76, R77) -/

/-- The numbers of the free rods of a unit, ascending. -/
def BeadUnit.freeRods (u : BeadUnit) : List Nat := (List.range 16).filter fun r => (Map.find? u.rods r).isNone

/-- The partitions that hold tiles of a cluster (R25). -/
def State.holders (s : State) (u : Nat) : List Nat := ((unitCores u).filterMap fun k => (s.tileAt k).part).eraseDups

/-- A rectangle whose tiles are free and in service and whose clusters have rods and room for a partition. -/
def State.rectFree (s : State) (x0 y0 w h nrod : Nat) : Bool :=
  let ks := rectTiles x0 y0 w h
  (ks.all fun k => (s.tileAt k).part.isNone && !(s.tileAt k).fenced) &&
  (ks.map unitOf).eraseDups.all fun u => decide (nrod ≤ (s.unitAt u).freeRods.length) && decide ((s.holders u).length < 8)

/-- The first origin in row-major order that qualifies. -/
def State.findOrigin (s : State) (w h nrod : Nat) : Option (Nat × Nat) :=
  (((List.range (17 - h)).flatMap fun y => (List.range (25 - w)).map fun x => (x, y))).find? fun o =>
    s.rectFree o.1 o.2 w h nrod

/-- The lowest free partition number (R163). -/
def State.freeNumber (s : State) : Option Nat := (List.range 255).find? fun p => (s.partAt p).isNone

def State.canPlace (s : State) (l : Launch) : Bool :=
  s.freeNumber.isSome && (s.findOrigin l.w l.h (Kd.nrod l.kd)).isSome

/-- An earlier launch of the same stream that waits at the arbiter. -/
def State.waitsBehind (s : State) (l : Launch) : Bool := s.launches.any fun x => x.stream == l.stream && decide (x.id < l.id)

/-- An earlier launch of the same stream that has neither retired nor been refused (R75). -/
def State.streamBusy (s : State) (l : Launch) : Bool :=
  s.waitsBehind l || s.parts.any fun e => e.2.stream == l.stream && decide (e.2.launch < l.id) && e.2.phase != .rampDown

/-- LAUNCH_RETRY (R76): an indirect record whose time has come is read; then the oldest launch that fits is placed. -/
def State.launchRetry (s : State) : State :=
  match s.launches.find? fun l => !l.ready && !s.streamBusy l with
  | some l => s.push [.indirectRecordRead l.id, .launchRetry]
  | none =>
    match s.launches.find? fun l => l.ready && !s.waitsBehind l && s.canPlace l with
    | some l => s.push [.kernelPlacement l.id]
    | none => s

/-! ### Placing (R77-R81) -/

/-- Divide (R81): origin and extent in the four dimensions. -/
def divide (t : Word) (w h ix iy : Nat) : List Nat × List Nat :=
  let d (i : Nat) := fld t (16 * i) 16
  if d 0 = 0 then ([0, 0, 0, 0], [0, 0, 0, 0])
  else
    let c0 := (d 0 + w - 1) / w
    let c1 := (d 1 + h - 1) / h
    let o0 := min (ix * c0) (d 0)
    let o1 := min (iy * c1) (d 1)
    ([o0, o1, 0, 0], [min c0 (d 0 - o0), min c1 (d 1 - o1), d 2, d 3])

/-- The identity registers of a tile of a rectangle (R80). -/
def Tile.identify (t : Tile) (p : Nat) (x : Part) (ix iy : Nat) : Tile :=
  let d := divide x.tshape x.w x.h ix iy
  { t with part := some p, idx := ix, idy := iy, idw := x.w, idh := x.h, org := d.1, ext := d.2 }

/-- Allots the lowest free rods of a cluster (R78) and clears the partition's pickup count (R130). -/
def BeadUnit.allot (u : BeadUnit) (p : Nat) (x : Part) : BeadUnit :=
  let rs := (u.freeRods.take x.nrod).zipIdx
  { u with
    rods := rs.foldl (fun m e => Map.put m e.1
      { part := some p, cap := 2 ^ Kd.ring x.kd, prio := min e.2 3, world := x.world, wdog := Kd.wdog x.kd }) u.rods
    pkc := Map.put u.pkc p 0 }

/-- Sets a placed partition up on its rectangle: tiles, energy, rods. -/
def State.setUp (s : State) (p : Nat) (x : Part) : State :=
  let s1 := s.putPart p x
  let s2 := x.tiles.foldl (fun t k =>
    (t.modTile k fun y => y.identify p x (tileX k - x.x0) (tileY k - x.y0)).modCore k fun c =>
      { c with ent := 0, world := x.world }) s1
  (x.tiles.map unitOf).eraseDups.foldl (fun t u => t.modUnit u fun b => b.allot p x) s2

/-- RAMP at placement: the die defaults, at least their floors (R397). -/
def State.rampDefaults (s : State) : Nat × Nat :=
  let r := s.sysReg 0x071 0
  (max (fld r 0 8) (fld r 16 8), max (fld r 8 8) (fld r 24 8))

/-- The partition that a launch becomes at an origin. -/
def State.newPart (s : State) (l : Launch) (x0 y0 : Nat) : Part :=
  { x0 := x0, y0 := y0, w := l.w, h := l.h, world := Kd.secure l.kd, kd := l.kd, tshape := l.tshape, nrod := Kd.nrod l.kd,
    launcher := l.by_, stream := l.stream, launch := l.id, rampUp := s.rampDefaults.1, rampDn := s.rampDefaults.2,
    born := s.tick }

/-- Adds the initial beads' count to the root join word (R79), saturating (R51); none when the atomic fails.  R51 speaks of a CNT
that is 0xFFFF_FFFF already: where W × H takes a smaller one beyond it, the model saturates with one record, and a ROOTJ in
space 0x6 is in the Commons of the north-west tile's die (DESIGN CHOICE, log 62). -/
def State.addRoot (s : State) (p : Nat) (x : Part) : Option State :=
  let i := deviceIssuer (tileAtXY x.x0 x.y0) (some p) x.world x.kd
  match s.probeWord i (wd x.kd 5) with
  | .error _ => none
  | .ok loc =>
    if s.spanPoisoned loc 16 then none
    else
      let n := s.joinCount loc
      let s1 := (s.noteTlb i (wd x.kd 5)).putPart p { x with rootLoc := some (s.locKey loc) }
      if 2 ^ 32 - 1 < n + x.w * x.h then
        some (((if n = 2 ^ 32 - 1 then s1.spanCount loc 4 else s1.spanWrite loc (leBytes 4 (2 ^ 32 - 1)))).workRecord
          (tileAtXY x.x0 x.y0) (some p) 0 { cause := cJoinOver, va := wd x.kd 5, path := .device })
      else some (s1.spanWrite loc (leBytes 4 (n + x.w * x.h)))

/-- What the failed addition of a launch's root count leaves in home units (R155): an access that has reached the memory, the table
words of its walk. -/
def State.rootTried (s : State) (p : Nat) (x : Part) : State :=
  let i := deviceIssuer (tileAtXY x.x0 x.y0) (some p) x.world x.kd
  match s.probeWord i (wd x.kd 5) with
  | .error f => s.noteFailed i (wd x.kd 5) 16 f
  | .ok loc => (s.countWalked i (wd x.kd 5)).spanCount loc 16

/-- KERNEL_PLACEMENT. -/
def State.kernelPlacement (s : State) (launch : Nat) : State :=
  match s.launches.find? fun l => l.id == launch with
  | none => s
  | some l =>
    match s.freeNumber, s.findOrigin l.w l.h (Kd.nrod l.kd) with
    | some p, some o =>
      let x := s.newPart l o.1 o.2
      match (s.setUp p x).addRoot p x with
      | none => (s.rootTried p x).refuseLaunch l 7
      | some s1 => (((s1.dropLaunch launch).push [.initialBeadEnqueue p, .launchRetry]).hostNext)
    | _, _ => s

/-- An initial bead (R55). -/
def Part.initialBead (x : Part) : BeadRec :=
  { code := padd (wd x.kd 0) (2 * Kd.entry x.kd : Nat), frame := 0, pjoin := wd x.kd 5,
    w3 := setFld 0 33 1 x.world.toNat, arg0 := wd x.kd 12, arg1 := wd x.kd 13, arg2 := wd x.kd 14, arg3 := wd x.kd 15 }

/-- The rod of a tile's initial bead: that of index min(PRI, NROD − 1) in the tile's cluster (R79). -/
def State.initialRod (s : State) (p : Nat) (x : Part) (k : Nat) : Nat :=
  ((s.unitAt (unitOf k)).rodsOf (some p)).getD (min (Kd.prio x.kd) (x.nrod - 1)) 0

/-- One initial bead. -/
def State.enqueueInitial (s : State) (x : Part) (u r : Nat) : State :=
  match s.rodAt u r with
  | none => s
  | some rod =>
    match rod.freeSlot? with
    | none => s
    | some n => s.enqueueNew { unit := u, rod := r, slot := n } (fitRecord r rod x.initialBead)

/-- INITIAL_BEAD_ENQUEUE: one a tile in row-major order, then the ramp (R79, R85). -/
def State.initialBeadEnqueue (s : State) (part : Nat) : State :=
  match s.partAt part with
  | none => s
  | some x =>
    let s1 := (x.tiles.map fun k => (unitOf k, s.initialRod part x k)).foldl (fun t e => t.enqueueInitial x e.1 e.2) s
    (s1.modPart part fun y => { y with startCyc := s.cyc }).startRampUp part

/-! ### LAUNCH (R141) -/

/-- The completion record is emptied before the send. -/
def State.setEmpty (s : State) (loc : Option Nat) : State :=
  match loc with
  | none => s
  | some l =>
    let m := s.metaAt (l / 32)
    s.putMeta (l / 32) (mkMeta (metaD m) (metaW m) false (metaTag m))

/-- Probe of the completion record (R141), as JoinProbe: one on an import page is accepted, although R184 refuses a cell there
(DESIGN CHOICE, log 62). -/
def State.probeRecord (s : State) (cr : Word) : Except FaultInfo (Option Nat) :=
  if cr = 0 then .ok none
  else
    match s.probe (s.issuer s.cur .c) cr 32 32 with
    | .ok loc => .ok (some loc)
    | .error f => .error f

/-- The launch that the executing core sends; a steward core has no partition and is its own context.  The launcher of R84 is in
the core's world, that of a WSW handler too; the descriptor is read in the partition's (R73; DESIGN CHOICE, log 62). -/
def State.origin (s : State) (cr : Word) : Origin :=
  { core := s.cur, slot := s.me.bead, part := s.partOf s.cur, born := s.bornOf s.cur, world := s.me.world,
    pworld := if isSteward s.cur then s.me.world else (s.workContext s.cur (s.partOf s.cur)).1
    heap := heapOf (s.kdOf s.cur)
    die := s.stewardDie s.cur, cr := cr, cpc := s.me.pc }

/-- A LAUNCH goes to the arbiter in its bead record's stream: R75 knows the record by its BEAD address, so the stream is the
slot's, and a later bead of that slot goes on with it (DEDUCED, log 45). -/
def State.sendLaunch (s : State) (cr : Word) (loc : Option Nat) (kd : Option (List Word)) : State :=
  let o := s.origin cr
  let stream : LaunchStream := match s.me.bead with | some b => .bead b | none => .core s.cur
  (((s.clearR s.cur).setEmpty loc).retire).offerLaunch (.bead o) stream kd

/-- LAUNCH: the descriptor is read by the arbiter; a failed read is reported as STAT 7 and never traps (R72, R141). -/
def execLaunch (_pfx : Pfx) (a b : Nat) (s : State) : Host.Outcome State Fault Refusal :=
  let kd := s.sr a
  let cr := s.sr b
  .next (
    if kd.toNat % 64 ≠ 0 then s.trap { cause := cAlign, va := kd }
    else
      match s.probeRecord cr with
      | .error f => s.trap f
      | .ok loc =>
        match s.readKd (s.origin cr).issuer kd with
        | .error f => (s.noteFailed (s.origin cr).issuer kd 128 f).sendLaunch cr loc none
        | .ok bs => (s.noteRange (s.origin cr).issuer kd 128).sendLaunch cr loc (some (wordsOf 16 bs)))

/-! ### The device steps -/

def execHostLaunchCommand (s : State) : Host.Outcome State Fault Refusal :=
  match s.msg with
  | some (.hostLaunchCommand ctag kd) => .next (s.hostLaunchCommand ctag kd)
  | _ => .next s

def execIndirectRecordRead (s : State) : Host.Outcome State Fault Refusal :=
  match s.msg with
  | some (.indirectRecordRead launch) => .next (s.indirectRecordRead launch)
  | _ => .next s

def execLaunchRetry (s : State) : Host.Outcome State Fault Refusal :=
  match s.msg with
  | some .launchRetry => .next s.launchRetry
  | _ => .next s

def execKernelPlacement (s : State) : Host.Outcome State Fault Refusal :=
  match s.msg with
  | some (.kernelPlacement launch) => .next (s.kernelPlacement launch)
  | _ => .next s

def execInitialBeadEnqueue (s : State) : Host.Outcome State Fault Refusal :=
  match s.msg with
  | some (.initialBeadEnqueue part) => .next (s.initialBeadEnqueue part)
  | _ => .next s

end Sys2Proof.Machine
end

