-- ==== Sys2Proof/Machine/Context.lean ====
section
/-! DEFINITION. The structures of a bound context as its EVU reads and writes them (R59-R66): counters, position map, edit
log, block table, versions, free list, the state machine of an entry (R292, R293) and the planning of edits (R296-R299). -/

namespace Sys2Proof.Machine

def cContext : Nat := 0x1A

/-- A context fault with its reason (R289). -/
def ctxFault (reason : Nat) : FaultInfo := { cause := cContext, sub := reason, info := reason }

def State.modCtx (s : State) (n : Nat) (f : Ctx → Ctx) : State :=
  match s.ctxAt n with
  | some c => s.putCtx n (f c)
  | none => s

/-! ### Accesses within the structures (R66, R290) -/

/-- Bytes of a structure that the EVU keeps: unpredictable once software has stored there (R66, log 17). -/
def State.evuRead (s : State) (c : Ctx) (va : Word) (n : Nat) : Except FaultInfo (List Byte) :=
  match s.readPieces c.issuer va (n / 32 + 2) n with
  | .error f => .error f
  | .ok bs => .ok (if c.tainted then (List.range n).map fun j => Config.freeEvu s.free (va.toNat + j) else bs)

/-- Puts bytes to pieces that have been checked, as the EVU's own. -/
def State.evuPutPieces (s : State) : List (Nat × Nat) → List Byte → State
  | [], _ => s
  | (loc, k) :: ps, bs => (s.evuPutAt loc (bs.take k)).evuPutPieces ps (bs.drop k)

/-- Writes pieces that have been checked, as the EVU's own access. -/
def State.evuFill (s : State) (ps : List (Nat × Nat)) (bs : List Byte) : State := (s.countPieces ps).evuPutPieces ps bs

def State.evuWrite (s : State) (c : Ctx) (va : Word) (bs : List Byte) : Except FaultInfo State :=
  match s.writePieces c.issuer va (bs.length / 32 + 2) bs.length with
  | .error f => .error f
  | .ok ps => .ok (s.evuFill ps bs)

/-- A context's counters: offset in the descriptor and bytes (R59). -/
inductive CtxCtr
  | wiss | wset | pcnt | ehead | fcnt
deriving DecidableEq, Repr

def CtxCtr.off : CtxCtr → Nat
  | .wiss => 0x10 | .wset => 0x18 | .pcnt => 0x28 | .ehead => 0x38 | .fcnt => 0x68

def CtxCtr.bytes : CtxCtr → Nat
  | .fcnt => 2 | _ => 4

def State.ctr (s : State) (c : Ctx) (r : CtxCtr) : Except FaultInfo Nat := do
  let bs ← s.evuRead c (padd c.desc r.off) r.bytes
  pure (leNat bs)

def State.setCtr (s : State) (c : Ctx) (r : CtxCtr) (v : Nat) : Except FaultInfo State :=
  s.evuWrite c (padd c.desc r.off) (leBytes r.bytes v)

/-! ### Position map (R61) -/

/-- A map entry: logical start, tokens held, physical block. -/
structure MapEnt where
  start : Nat
  fill : Nat
  pb : Nat
deriving DecidableEq, Repr

def MapEnt.word (e : MapEnt) : Word :=
  BitVec.ofNat 64 (e.start % 2 ^ 24 * 2 ^ 24 + e.fill % 128 * 2 ^ 16 + e.pb % 2 ^ 16)

def mapEntOf (w : Word) : MapEnt := { start := fld w 24 24, fill := fld w 16 7, pb := fld w 0 16 }

/-- The current map; a count above the capacity leads outside (R66). -/
def State.readMap (s : State) (c : Ctx) : Except FaultInfo (List MapEnt) := do
  let n ← s.ctr c .pcnt
  if c.pcap < n then .error (ctxFault 14)
  else
    let bs ← s.evuRead c c.pmap (8 * n)
    pure ((wordsOf n bs).map mapEntOf)

/-- Writes the map entries that change, then PCNT. -/
def State.writeMap (s : State) (c : Ctx) (old new : List MapEnt) : Except FaultInfo State := do
  let s1 ← new.zipIdx.foldlM (fun (t : State) (e : MapEnt × Nat) =>
    if old[e.2]? = some e.1 then pure t
    else t.evuWrite c (padd c.pmap (8 * e.2 : Nat)) (leBytes 8 e.1.word.toNat)) s
  s1.setCtr c .pcnt new.length

/-- Entries laid out one after the other (R61). -/
def layOut (at_ : Nat) : List (Nat × Nat) → List MapEnt
  | [] => []
  | (f, pb) :: r => { start := at_, fill := f, pb := pb } :: layOut (at_ + f) r

/-- The length of a map: the end of its last entry (R296). -/
def mapLen (m : List MapEnt) : Nat :=
  match m.getLast? with
  | some e => e.start + e.fill
  | none => 0

/-- The index of the entry that holds a position. -/
def holds (m : List MapEnt) (p : Nat) : Option Nat :=
  m.findIdx? fun e => decide (e.start ≤ p) && decide (p < e.start + e.fill)

def fills (m : List MapEnt) : List (Nat × Nat) := m.map fun e => (e.fill, e.pb)

def entOf (m : List MapEnt) (b : Nat) : Option MapEnt := m.find? fun e => e.pb == b

/-! ### Edit log (R62) -/

/-- A log entry. -/
structure LogEnt where
  lpos : Nat
  ek : Nat
  gen : Nat
  cnt : Nat
  pb2 : Nat
  pb : Nat
deriving DecidableEq, Repr

def LogEnt.words (e : LogEnt) : List Word :=
  [BitVec.ofNat 64 (e.lpos % 2 ^ 24 * 2 ^ 40 + e.ek % 4 * 2 ^ 32 + e.gen % 2 ^ 32),
   BitVec.ofNat 64 (e.cnt % 2 ^ 24 * 2 ^ 32 + e.pb2 % 2 ^ 16 * 2 ^ 16 + e.pb % 2 ^ 16)]

def logOf (ws : List Word) : LogEnt :=
  { lpos := fld (wd ws 0) 40 24, ek := fld (wd ws 0) 32 2, gen := fld (wd ws 0) 0 32, cnt := fld (wd ws 1) 32 24,
    pb2 := fld (wd ws 1) 16 16, pb := fld (wd ws 1) 0 16 }

/-- The entry written at a count of EHEAD. -/
def State.readLog (s : State) (c : Ctx) (k : Nat) : Except FaultInfo LogEnt := do
  let bs ← s.evuRead c (padd c.elog (16 * (k % 2 ^ c.elb) : Nat)) 16
  pure (logOf (wordsOf 2 bs))

/-- Appends an entry; the wave of one that it overwrites is lost with it.  EHEAD counts modulo 2^32. -/
def State.appendLog (s : State) (n : Nat) (c : Ctx) (e : LogEnt) : Except FaultInfo State := do
  let k ← s.ctr c .ehead
  let old ← s.readLog c k
  let full := match s.ctxAt n with | some x => x.logFull | none => c.logFull
  let s0 := s.modCtx n fun x => { x with
    lost := if full then max x.lost old.gen else x.lost
    logFull := full || decide (2 ^ c.elb ≤ k + 1) }
  let s1 ← s0.evuWrite c (padd c.elog (16 * (k % 2 ^ c.elb) : Nat)) (bytesOfWords e.words)
  s1.setCtr c .ehead (k + 1)

/-- What an EVU knows of a context's log (R62). -/
def State.pastLog (s : State) (n : Nat) (c : Ctx) : PastLog :=
  let x := (s.ctxAt n).getD c
  { ehead := (match s.ctr c .ehead with | .ok k => k | .error _ => 0), lost := x.lost, full := x.logFull }

/-- What binding can tell of a log that no unbinding of this context left: a log whose EHEAD has passed its capacity, or has
wrapped so that WISS and the entry behind it show it, is full.  Of a full log the waves below the oldest entry held are lost, and
that entry's own wave too where it is an insertion, whose split may have been the entry before it (R62; DEDUCED, log 32). -/
def State.logShows (s : State) (c : Ctx) (k : Nat) : Except FaultInfo (Nat × Bool) := do
  let wiss ← s.ctr c .wiss
  let e ← s.readLog c k
  if k < 2 ^ c.elb ∧ ¬ (k < wiss ∧ 0 < e.gen ∧ e.gen ≤ wiss) then pure (0, false)
  else if k = 2 ^ c.elb then pure (0, true)
  else pure (if e.ek = 0 then e.gen else e.gen - 1, true)

/-- The highest wave of an entry overwritten before the binding, and whether the log has wrapped: as the last unbinding left
them, while the log stands where it stood then (R62). -/
def State.lostAtBind (s : State) (c : Ctx) : Except FaultInfo (Nat × Bool) := do
  let k ← s.ctr c .ehead
  match Map.find? s.pastLogs c.home with
  | some x => if x.ehead = k then pure (x.lost, x.full) else s.logShows c k
  | none => s.logShows c k

/-- Undoes one entry in a map of fills and blocks: an insertion's tokens go, a removal's return, a split merges. -/
def undo (m : List (Nat × Nat)) (e : LogEnt) : List (Nat × Nat) :=
  let add (i : Int) : List (Nat × Nat) := m.map fun x => if x.2 = e.pb then (((x.1 : Int) + i).toNat, x.2) else x
  if e.ek = 0 then (add (-(e.cnt : Int))).filter fun x => x.2 != e.pb || x.1 != 0
  else if e.ek = 1 then
    if m.any fun x => x.2 == e.pb then add e.cnt
    else
      let at_ := ((layOut 0 m).takeWhile fun x => decide (x.start < e.lpos)).length
      m.take at_ ++ (e.cnt, e.pb) :: m.drop at_
  else if e.ek = 3 then (add e.cnt).filter fun x => x.2 != e.pb2
  else m

/-- Undoes the newest entries with GEN above `w`, `k` counting down from EHEAD. -/
def State.undoFrom (s : State) (c : Ctx) (w : Nat) : Nat → Nat → List (Nat × Nat) → Except FaultInfo (List (Nat × Nat))
  | 0, _, m => .ok m
  | fuel + 1, k, m => do
    let e ← s.readLog c ((k + 2 ^ 32 - 1) % 2 ^ 32)
    if e.gen ≤ w then .ok m else s.undoFrom c w fuel ((k + 2 ^ 32 - 1) % 2 ^ 32) (undo m e)

/-- Generation `w` is still retained, or reason 6 at the instruction that names it (R62). -/
def State.retained (s : State) (c : Ctx) (w : Nat) : Except FaultInfo Unit := do
  let wiss ← s.ctr c .wiss
  if w ≠ wiss ∧ w < c.lost then .error (ctxFault 6) else pure ()

/-- The map of generation `w` (R62, R300). -/
def State.mapAt (s : State) (c : Ctx) (w : Nat) : Except FaultInfo (List MapEnt) := do
  let m ← s.readMap c
  s.retained c w
  let wiss ← s.ctr c .wiss
  if w = wiss then pure m
  else
    let k ← s.ctr c .ehead
    let old ← s.undoFrom c w (if c.logFull then 2 ^ c.elb else k) k (fills m)
    pure (layOut 0 old)

/-! ### Block table (R63, R64) -/

/-- A block-table entry: ST, DW, REF, the pairs (version, slot) held. -/
structure EvuEntry where
  st : Nat
  dw : Nat
  ref : Nat
  pairs : List (Nat × Nat)
deriving DecidableEq, Repr

def noSlot : Nat := 0xFFFF

/-- ST RUNNING or RUNNING-REDIRTIED. -/
def EvuEntry.running (e : EvuEntry) : Bool := decide (2 ≤ e.st)

/-- The index of an entry in the block table. -/
def Ctx.key (c : Ctx) (l b : Nat) : Nat := l * c.nb + b

def Ctx.entryVa (c : Ctx) (l b : Nat) : Word := padd c.bt (32 * c.key l b : Nat)

def pairOf (bs : List Byte) (k : Nat) : Nat × Nat :=
  (leNat ((bs.drop (8 + 6 * k)).take 4), leNat ((bs.drop (12 + 6 * k)).take 2))

/-- An entry; a block number, a count or a slot number outside the structures is reason 14. -/
def State.readEntry (s : State) (c : Ctx) (l b : Nat) : Except FaultInfo EvuEntry := do
  if c.layers ≤ l ∨ c.nb ≤ b then .error (ctxFault 14)
  else
    let bs ← s.evuRead c (c.entryVa l b) 32
    let w0 : Word := BitVec.ofNat 64 (leNat (bs.take 8))
    if 4 < fld w0 2 3 then .error (ctxFault 14)
    else pure { st := fld w0 0 2, dw := fld w0 32 32, ref := fld w0 16 16, pairs := (List.range (fld w0 2 3)).map (pairOf bs) }

/-- Word 0 and the pairs held; the bytes of pairs that are not held stay. -/
def EvuEntry.bytes (e : EvuEntry) : List Byte :=
  leBytes 8 (e.dw % 2 ^ 32 * 2 ^ 32 + e.ref % 2 ^ 16 * 2 ^ 16 + e.pairs.length % 8 * 4 + e.st % 4) ++
    e.pairs.flatMap fun p => leBytes 4 p.1 ++ leBytes 2 p.2

def State.writeEntry (s : State) (c : Ctx) (l b : Nat) (e : EvuEntry) : Except FaultInfo State :=
  s.evuWrite c (c.entryVa l b) e.bytes

/-- The location of an entry's granule, where its readers park. -/
def State.entryLoc (s : State) (c : Ctx) (l b : Nat) : Except FaultInfo Nat := s.writePlace c.issuer (c.entryVa l b) 32

/-! ### Slots and the free list (R65) -/

def Ctx.slotVa (c : Ctx) (n off : Nat) : Word := padd c.spool (n * c.sbytes + off : Nat)

/-- A slot number within the pool. -/
def Ctx.slotOk (c : Ctx) (n : Nat) : Except FaultInfo Unit := if n < c.scnt then .ok () else .error (ctxFault 14)

/-- Takes the last slot of the free list. -/
def State.takePoolSlot (s : State) (c : Ctx) (fcnt : Nat) : Except FaultInfo (State × Nat) := do
  if c.scnt < fcnt then .error (ctxFault 14)
  else
    let bs ← s.evuRead c (padd c.free (2 * (fcnt - 1) : Nat)) 2
    c.slotOk (leNat bs)
    let s1 ← s.setCtr c .fcnt (fcnt - 1)
    pure (s1, leNat bs)

/-- Returns a slot at the end of the free list; the write of FCNT wakes (R65). -/
def State.givePoolSlot (s : State) (c : Ctx) (slot : Nat) : Except FaultInfo State := do
  let n ← s.ctr c .fcnt
  if c.scnt ≤ n then .error (ctxFault 14)
  else
    let s1 ← s.evuWrite c (padd c.free (2 * n : Nat)) (leBytes 2 slot)
    s1.setCtr c .fcnt (n + 1)

def State.givePoolSlots (s : State) (c : Ctx) (slots : List Nat) : Except FaultInfo State :=
  slots.foldlM (fun (t : State) (n : Nat) => t.givePoolSlot c n) s

/-! ### Owed waves and states (R292, R293) -/

/-- The run wave that the EVU holds for a running entry. -/
def State.runWaveOf (s : State) (n : Nat) (key : Nat) : Option Nat :=
  match s.ctxAt n with
  | some c => Map.find? c.runWave key
  | none => none

/-- The owed wave of an entry. -/
def State.owed (s : State) (n : Nat) (c : Ctx) (l b : Nat) (e : EvuEntry) : Option Nat :=
  if e.st = 0 then none
  else if e.st = 3 then some ((s.runWaveOf n (c.key l b)).getD e.dw)
  else some e.dw

/-- Whether an entry owes a wave at or below `w`. -/
def State.owes (s : State) (n : Nat) (c : Ctx) (l b : Nat) (e : EvuEntry) (w : Nat) : Bool :=
  match s.owed n c l b e with
  | some o => decide (o ≤ w)
  | none => false

/-- The owed waves of the blocks of a map at every layer. -/
def State.owedWaves (s : State) (n : Nat) (c : Ctx) (m : List MapEnt) : Except FaultInfo (List Nat) := do
  let es ← (m.flatMap fun x => (List.range c.layers).map fun l => (l, x.pb)).mapM fun lb => do
    let e ← s.readEntry c lb.1 lb.2
    pure (s.owed n c lb.1 lb.2 e)
  pure (es.filterMap id)

/-- WSET: the smallest wave that a block of the current map owes, minus 1, or WISS (R292; log 32). -/
def State.updateWset (s : State) (n : Nat) (c : Ctx) : Except FaultInfo State := do
  let m ← s.readMap c
  let ws ← s.owedWaves n c m
  let wiss ← s.ctr c .wiss
  match ws with
  | [] => s.setCtr c .wset wiss
  | w :: r => s.setCtr c .wset ((r.foldl min w + 2 ^ 32 - 1) % 2 ^ 32)

/-- An entry is dirtied at wave `w`; `clear` returns its reference (R293, R298). -/
def State.dirtyEntry (s : State) (c : Ctx) (w : Nat) (clear : Bool) (l b : Nat) : Except FaultInfo State := do
  let e ← s.readEntry c l b
  let e1 := { e with st := if e.st = 0 then 1 else if e.st = 2 then 3 else e.st, dw := max e.dw w }
  if clear && e.ref != noSlot then
    let s1 ← if e.pairs.any fun p => p.2 == e.ref then pure s else s.givePoolSlot c e.ref
    s1.writeEntry c l b { e1 with ref := noSlot }
  else s.writeEntry c l b e1

/-- An entry's block leaves the map at wave `w` (R293). -/
def State.leaveEntry (s : State) (c : Ctx) (w : Nat) (l b : Nat) : Except FaultInfo State := do
  let e ← s.readEntry c l b
  s.writeEntry c l b { e with st := if e.st = 1 then 0 else if e.st = 2 then 3 else e.st, dw := w }

/-- Dirties blocks at layers `lo` and above. -/
def State.dirtyBlocks (s : State) (c : Ctx) (w : Nat) (clear : Bool) (lo : Nat) (bs : List Nat) : Except FaultInfo State :=
  (bs.flatMap fun b => (List.range (c.layers - lo)).map fun l => (lo + l, b)).foldlM
    (fun (t : State) (x : Nat × Nat) => t.dirtyEntry c w clear x.1 x.2) s

/-! ### Planning an edit (R296-R299) -/

/-- A token's new place and where it comes from: an old place, or the edit's k-th token. -/
structure TokMove where
  pb : Nat
  ix : Nat
  src : Sum (Nat × Nat) Nat
deriving DecidableEq, Repr

/-- An edit as planned: the new map, its log entries (without GEN), the tokens it writes, the blocks whose tokens it
touches, the blocks dirtied at every layer, those dirtied above layer 0, the block of an EDCHG, a block that leaves. -/
structure EditPlan where
  map : List MapEnt
  logs : List LogEnt
  toks : List TokMove
  touched : List Nat
  all : List Nat := []
  upper : List Nat := []
  kept : Option Nat := none
  left : Option Nat := none
deriving DecidableEq, Repr

/-- A block that R299 lets an edit take. -/
def State.blockFree (s : State) (c : Ctx) (b : Nat) : Except FaultInfo Bool := do
  let es ← (List.range c.layers).mapM fun l => s.readEntry c l b
  pure (es.all fun e => e.pairs.isEmpty && e.ref == noSlot && !e.running)

/-- The first block of a list that an edit may take (R299). -/
def State.newBlock (s : State) (c : Ctx) (m : List MapEnt) : List Nat → Except FaultInfo Nat
  | [] => .error (ctxFault 8)
  | b :: bs => do
    if (entOf m b).isSome then s.newBlock c m bs
    else
      let ok ← s.blockFree c b
      if ok then pure b else s.newBlock c m bs

/-- Blocks of a map at or above a start. -/
def blocksFrom (m : List MapEnt) (start : Nat) : List Nat := (m.filter fun e => decide (start ≤ e.start)).map MapEnt.pb

def startOf (m : List MapEnt) (b dflt : Nat) : Nat := match entOf m b with | some e => e.start | none => dflt

/-- `n` places of a block from an index, each from what `src` gives. -/
def tokRun (pb ix n : Nat) (src : Nat → Sum (Nat × Nat) Nat) : List TokMove :=
  (List.range n).map fun j => { pb := pb, ix := ix + j, src := src j }

/-- EDINS with room in entry `j` (R296). -/
def planRoom (m : List MapEnt) (j : Nat) (k : MapEnt) (p cnt : Nat) : EditPlan :=
  let i := p - k.start
  let m1 := layOut 0 ((fills m).set j (k.fill + cnt, k.pb))
  { map := m1
    logs := [{ lpos := p, ek := 0, gen := 0, cnt := cnt, pb2 := 0xFFFF, pb := k.pb }]
    toks := tokRun k.pb i cnt .inr ++ tokRun k.pb (i + cnt) (k.fill - i) fun x => .inl (k.pb, i + x)
    touched := [k.pb]
    all := [k.pb]
    upper := blocksFrom m1 (startOf m1 k.pb p) }

/-- EDINS that splits entry `j` into itself and block `n` (R296). -/
def planSplit (m : List MapEnt) (j : Nat) (k : MapEnt) (n p cnt : Nat) : EditPlan :=
  let i := p - k.start
  let h := (k.fill + 1) / 2
  let low := decide (i ≤ h)
  let fk := if low then h + cnt else h
  let fn := if low then k.fill - h else k.fill - h + cnt
  let fs := fills m
  let m1 := layOut 0 (fs.take j ++ (fk, k.pb) :: (fn, n) :: fs.drop (j + 1))
  { map := m1
    logs := [{ lpos := k.start + h, ek := 3, gen := 0, cnt := k.fill - h, pb2 := n, pb := k.pb },
             { lpos := p, ek := 0, gen := 0, cnt := cnt, pb2 := 0xFFFF, pb := if low then k.pb else n }]
    toks :=
      if low then
        tokRun n 0 (k.fill - h) (fun x => .inl (k.pb, h + x)) ++ tokRun k.pb i cnt .inr ++
          tokRun k.pb (i + cnt) (h - i) fun x => .inl (k.pb, i + x)
      else
        tokRun n 0 (i - h) (fun x => .inl (k.pb, h + x)) ++ tokRun n (i - h) cnt .inr ++
          tokRun n (i - h + cnt) (k.fill - i) fun x => .inl (k.pb, i + x)
    touched := [k.pb, n]
    all := [k.pb, n]
    upper := blocksFrom m1 (startOf m1 k.pb p) }

/-- EDINS (R296). -/
def State.planInsert (s : State) (c : Ctx) (m : List MapEnt) (pcnt p cnt : Nat) : Except FaultInfo EditPlan := do
  let T := mapLen m
  if c.blk / 2 < cnt ∨ T < p then .error (ctxFault 7)
  else if min (2 ^ 20) (c.nb * c.blk) < T + cnt then .error (ctxFault 8)
  else if m.isEmpty then
    if c.pcap ≤ pcnt then .error (ctxFault 8)
    else
      let n ← s.newBlock c m (List.range c.nb)
      pure { map := [{ start := 0, fill := cnt, pb := n }]
             logs := [{ lpos := p, ek := 0, gen := 0, cnt := cnt, pb2 := 0xFFFF, pb := n }]
             toks := tokRun n 0 cnt .inr, touched := [n], all := [n] }
  else
    let j := (holds m p).getD (m.length - 1)
    let k := m.getD j { start := 0, fill := 0, pb := 0 }
    if k.fill + cnt ≤ c.blk then pure (planRoom m j k p cnt)
    else if c.pcap ≤ pcnt then .error (ctxFault 8)
    else
      let n ← s.newBlock c m (List.range c.nb)
      pure (planSplit m j k n p cnt)

/-- EDDEL (R297). -/
def planDelete (m : List MapEnt) (p cnt : Nat) : Except FaultInfo EditPlan :=
  match holds m p with
  | none => .error (ctxFault 7)
  | some j =>
    let k := m.getD j { start := 0, fill := 0, pb := 0 }
    let i := p - k.start
    if k.fill < i + cnt then .error (ctxFault 7)
    else
      let gone := k.fill = cnt
      let m1 := layOut 0 (if gone then (fills m).eraseIdx j else (fills m).set j (k.fill - cnt, k.pb))
      .ok { map := m1
            logs := [{ lpos := p, ek := 1, gen := 0, cnt := cnt, pb2 := 0xFFFF, pb := k.pb }]
            toks := tokRun k.pb i (k.fill - cnt - i) fun x => .inl (k.pb, i + cnt + x)
            touched := [k.pb]
            all := if gone then [] else [k.pb]
            upper := blocksFrom m1 (startOf m1 k.pb p)
            left := if gone then some k.pb else none }

/-- EDCHG (R297, R298). -/
def planChange (m : List MapEnt) (p cnt : Nat) : Except FaultInfo EditPlan :=
  match holds m p with
  | none => .error (ctxFault 7)
  | some j =>
    let k := m.getD j { start := 0, fill := 0, pb := 0 }
    let i := p - k.start
    if k.fill < i + cnt then .error (ctxFault 7)
    else
      .ok { map := m
            logs := [{ lpos := p, ek := 2, gen := 0, cnt := cnt, pb2 := 0xFFFF, pb := k.pb }]
            toks := tokRun k.pb i cnt .inr
            touched := [k.pb]
            kept := some k.pb }

end Sys2Proof.Machine
end

