-- ==== Sys2Proof/Machine/Evu.lean ====
section
/-! DEFINITION. The context instructions (R285-R313) and the EVU's spawns (R301-R303). -/

namespace Sys2Proof.Machine

/-! ### Context pointers (R286) -/

/-- The context that a pointer names, after the checks at issue; `edit` for edits and SETTLE, `place` where layer and block
are used. -/
def State.ctxCheck (s : State) (p : Word) (edit place : Bool) : Except FaultInfo (Nat × Ctx) :=
  match (if spaceOf p = 0xA then s.ctxAt (fld p 44 8) else none) with
  | none => .error (ctxFault 1)
  | some c =>
    if edit && c.unbinding then .error (ctxFault 1)
    else if c.world && !s.me.world then .error { cause := cWorld, va := p }
    else if tagOf p != c.tag then .error { cause := cTag, va := p, exp := tagOf p, fnd := c.tag }
    else if place && (decide (c.layers ≤ fld p 36 8) || decide (c.nb ≤ fld p 20 16)) then .error (ctxFault 12)
    else .ok (fld p 44 8, c)

/-- The context pointer of a slot (R290). -/
def ctxPtr (n : Nat) (c : Ctx) : Word := BitVec.ofNat 64 (c.tag.toNat * 2 ^ 56 + 0xA * 2 ^ 52 + n * 2 ^ 44)

/-! ### Issue -/

/-- The request that the executing core sends. -/
def State.evuReq (s : State) (op : EvuOp) (ctx arg wave : Word) (d : Nat) : EvuReq :=
  { op := op, core := s.cur, pc := s.me.pc, ctx := ctx, arg := arg, wave := wave, words := [], dst := d, pdst := 0,
    ty := .dflt, rm := 0 }

def State.sendEvu (s : State) (q : EvuReq) : State := s.push [.evuContextRequest q]

/-- Runs a check of the context pointer, then the rest. -/
def State.withCtx (s : State) (p : Word) (edit place : Bool) (go : Nat × Ctx → State) : State :=
  match s.ctxCheck p edit place with
  | .error f => s.trap f
  | .ok c => go c

/-- Space 0x0, or 0x4 or 0x5 through window 0 (R294). -/
def recordPlace (p : Word) : Bool := spaceOf p == 0 || ((spaceOf p == 4 || spaceOf p == 5) && windowOf p == 0)

/-- An edit's record: no Reserved bit, CNT from 1 to 64 (R294, R295). -/
def editOk (ws : List Word) : Bool :=
  fld (wd ws 0) 48 16 == 0 && fld (wd ws 0) 7 17 == 0 && wd ws 3 == 0 && decide (1 ≤ fld (wd ws 0) 0 7) &&
    decide (fld (wd ws 0) 0 7 ≤ 64)

/-- Edit (R295) at issue. -/
def State.issueEdit (s : State) (op : EvuOp) (d a b : Nat) : State :=
  s.withCtx (s.sr a) true false fun _ =>
    let rq := s.sr b
    if rq.toNat % 32 ≠ 0 then s.trap (faultAt (s.issuer s.cur .c) cAlign rq)
    else if !recordPlace rq then s.trap (faultAt (s.issuer s.cur .c) cAddress rq)
    else s.withLoad rq 32 fun t bs =>
      let ws := wordsOf 4 bs
      if !editOk ws then t.trap (ctxFault 7)
      else (t.clearR t.cur).sendEvu { t.evuReq op (t.sr a) rq 0 d with words := ws }

def execEdins (_pfx : Pfx) (d a b : Nat) (s : State) : Host.Outcome State Fault Refusal := .next (s.issueEdit .edins d a b)
def execEddel (_pfx : Pfx) (d a b : Nat) (s : State) : Host.Outcome State Fault Refusal := .next (s.issueEdit .eddel d a b)
def execEdchg (_pfx : Pfx) (d a b : Nat) (s : State) : Host.Outcome State Fault Refusal := .next (s.issueEdit .edchg d a b)

def execEdmap (_pfx : Pfx) (d a b : Nat) (s : State) : Host.Outcome State Fault Refusal :=
  .next (s.withCtx (s.sr a) false false fun _ => s.sendEvu (s.evuReq .edmap (s.sr a) (s.sr d) (s.sr b) d))

/-- Where a CTXDONE buffer may lie (R304). -/
def bufferPlace (p : Word) : Bool := recordPlace p || spaceOf p == 6 || spaceOf p == 7

def execCtxdone (_pfx : Pfx) (d a b : Nat) (s : State) : Host.Outcome State Fault Refusal :=
  let buf := s.sr a
  .next (
    if buf.toNat % 64 ≠ 0 then s.trap (faultAt (s.issuer s.cur .c) cAlign buf)
    else s.withCtx (s.sr b) false true fun _ =>
      if !bufferPlace buf then s.trap (faultAt (s.issuer s.cur .evu) cAddress buf)
      else (s.clearR s.cur).sendEvu (s.evuReq .ctxdone (s.sr b) buf (BitVec.ofNat 64 ((s.sr d).toNat % 2 ^ 32)) d))

def execVldvAt (_pfx : Pfx) (ty : Ty) (rm d a b : Nat) (s : State) : Host.Outcome State Fault Refusal :=
  .next (s.withCtx (s.sr a) false true fun _ =>
    s.sendEvu { s.evuReq .vldvAt (s.sr a) 0 (s.sr b) d with ty := ty, rm := rm })

def execVldvCur (_pfx : Pfx) (ty : Ty) (rm d a b : Nat) (s : State) : Host.Outcome State Fault Refusal :=
  .next (s.withCtx (s.sr a) false true fun _ =>
    s.sendEvu { s.evuReq .vldvCur (s.sr a) 0 0 d with ty := ty, rm := rm, pdst := b })

/-- Region word (R309). -/
def regionOk (c : Ctx) (w : Word) : Bool :=
  decide (fld w 48 8 ≤ fld w 56 8) && decide (fld w 56 8 < c.layers) && decide (fld w 0 24 ≤ fld w 24 24)

def execSettle (_pfx : Pfx) (d a b : Nat) (s : State) : Host.Outcome State Fault Refusal :=
  .next (s.withCtx (s.sr a) true false fun c =>
    if !regionOk c.2 (s.sr d) then s.trap (ctxFault 7)
    else s.sendEvu (s.evuReq .settle (s.sr a) (s.sr d) (s.sr b) d))

def execReclaim (_pfx : Pfx) (d a b : Nat) (s : State) : Host.Outcome State Fault Refusal :=
  .next (s.withCtx (s.sr a) false false fun _ => s.sendEvu (s.evuReq .reclaim (s.sr a) 0 (s.sr b) d))

/-- RECLAIM.BIND (R290) at issue. -/
def execReclaimBind (_pfx : Pfx) (d a : Nat) (s : State) : Host.Outcome State Fault Refusal :=
  let p := s.sr a
  .next (
    if spaceOf p ≠ 0 then s.trap (faultAt (s.issuer s.cur .c) cAddress p)
    else if p.toNat % 4096 ≠ 0 then s.trap (faultAt (s.issuer s.cur .c) cAlign p)
    else s.sendEvu (s.evuReq .bind 0 p 0 d))

def execReclaimUnbind (_pfx : Pfx) (d a : Nat) (s : State) : Host.Outcome State Fault Refusal :=
  .next (s.withCtx (s.sr a) false false fun _ => s.sendEvu (s.evuReq .unbind (s.sr a) 0 0 d))

/-! ### What a request comes to at the EVU -/

/-- Why a request is not completed: a fault, a park on a granule with the demand region that it registers; `upset` is a fault
of a binding that has begun to write. -/
inductive EvuStop
  | fault (f : FaultInfo)
  | upset (c : Ctx) (f : FaultInfo)
  | park (loc : Nat) (region : Option (Nat × Nat × Nat × Nat × Nat))

def liftE {α : Type} : Except FaultInfo α → Except EvuStop α
  | .ok x => .ok x
  | .error f => .error (.fault f)

/-- The reply: what the core writes, and its commit (R145). -/
def State.evuReply (s : State) (q : EvuReq) (f : Core → Core) : State := s.modCore q.core fun c => (f c).commit

/-- A wave operand that an issued wave must cover (R300, R307, R309, R310). -/
def State.waveOk (s : State) (c : Ctx) (w : Word) : Except FaultInfo Unit := do
  let wiss ← s.ctr c .wiss
  if wiss < w.toNat then .error (ctxFault 5) else pure ()

/-- The issuing bead's own accesses, made by the EVU. -/
def State.evuIssuer (s : State) (q : EvuReq) : Issuer := s.issuer q.core .evu

/-! ### Edits (R295-R298) -/

/-- An entry of the token table (R294). -/
def tokVa (c : Ctx) (tokt : Word) (pb ix : Nat) : Except FaultInfo Word :=
  if pb < c.nb ∧ ix < c.blk then .ok (padd tokt (4 * (c.blk * pb + ix) : Nat)) else .error (ctxFault 14)

/-- The tokens of an edit: TOK is read, the old places too; every new place is checked; then all are written. -/
def State.moveTokens (s : State) (c : Ctx) (tokt : Word) (toks : List TokMove) (new : List Byte) : Except FaultInfo State := do
  let vals ← toks.mapM fun (m : TokMove) => do
    let va ← tokVa c tokt m.pb m.ix
    let ps ← s.writePieces c.issuer va 3 4
    let bs ← match m.src with
      | .inr k => pure ((new.drop (4 * k)).take 4)
      | .inl (pb, ix) => do
        let from_ ← tokVa c tokt pb ix
        s.readPieces c.issuer from_ 3 4
    pure (ps, bs)
  pure (vals.foldl (fun (t : State) (e : List (Nat × Nat) × List Byte) => t.fillPieces e.1 e.2) s)

/-- The token ids of a block in a table become unpredictable (R294, log 17). -/
def State.spoilTokens (s : State) (c : Ctx) (tokt : Word) (pb : Nat) : State :=
  (List.range c.blk).foldl (fun (t : State) (ix : Nat) =>
    match tokVa c tokt pb ix with
    | .error _ => t
    | .ok va =>
      match t.writePieces c.issuer va 3 4 with
      | .error _ => t
      | .ok ps => t.fillPieces ps ((List.range 4).map fun j => Config.freeEvu s.free (va.toNat + j))) s

/-- The blocks of a map whose layer-0 entry is not VALID: a recompute of theirs will read token ids. -/
def State.openBlocks (s : State) (c : Ctx) : List Nat :=
  match s.readMap c with
  | .error _ => []
  | .ok m => (m.map MapEnt.pb).filter fun b => match s.readEntry c 0 b with | .ok e => e.st != 0 | .error _ => false

/-- Notes the token table that an edit names; once two have been named, the token ids that later recomputes read are
unpredictable in every table named: those of the blocks whose layer 0 this edit dirties or that are not VALID there (R294). -/
def State.noteTable (s : State) (n : Nat) (c : Ctx) (tokt : Word) (blocks : List Nat) : State :=
  let tables := if c.tokts.contains tokt then c.tokts else c.tokts ++ [tokt]
  let s1 := s.modCtx n fun x => { x with tokts := tables }
  if tables.length < 2 then s1
  else
    (blocks ++ s.openBlocks c).foldl
      (fun (t : State) (b : Nat) => tables.foldl (fun (u : State) (v : Word) => u.spoilTokens c v b) t) s1

/-- The plan of an edit. -/
def State.planEdit (s : State) (c : Ctx) (op : EvuOp) (m : List MapEnt) (p cnt : Nat) : Except FaultInfo EditPlan := do
  let pcnt ← s.ctr c .pcnt
  match op with
  | .edins => s.planInsert c m pcnt p cnt
  | .eddel => planDelete m p cnt
  | _ => planChange m p cnt

/-- The first block of a list whose layer-0 entry runs (R295). -/
def State.busyBlock (s : State) (c : Ctx) : List Nat → Except FaultInfo (Option Nat)
  | [] => .ok none
  | b :: bs => do
    let e ← s.readEntry c 0 b
    if e.running then pure (some b) else s.busyBlock c bs

/-- The map, the log, WISS and the dirtied entries of a planned edit that takes wave `w`. -/
def State.commitEdit (s : State) (n : Nat) (c : Ctx) (old : List MapEnt) (x : EditPlan) (w : Nat) : Except FaultInfo State := do
  let s1 ← if x.kept.isSome then pure s else s.writeMap c old x.map
  let s2 ← x.logs.foldlM (fun (t : State) (e : LogEnt) => t.appendLog n c { e with gen := w }) s1
  let s3 ← s2.setCtr c .wiss w
  let s4 ← s3.dirtyBlocks c w true 0 x.all
  let s5 ← s4.dirtyBlocks c w false 1 (x.upper.filter fun b => !x.all.contains b)
  let s6 ← match x.kept with
    | some b => s5.dirtyEntry c w false 0 b
    | none => pure s5
  let s7 ← match x.left with
    | some b => (List.range c.layers).foldlM (fun (t : State) (l : Nat) => t.leaveEntry c w l b) s6
    | none => pure s6
  s7.updateWset n c

/-- An edit at the EVU (R295). -/
def State.serveEdit (s : State) (q : EvuReq) (n : Nat) (c : Ctx) : Except EvuStop State := do
  let p := fld (wd q.words 0) 24 24
  let cnt := fld (wd q.words 0) 0 7
  let m ← liftE (s.readMap c)
  let x ← liftE (s.planEdit c q.op m p cnt)
  let busy ← liftE (s.busyBlock c x.touched)
  match busy with
  | some b =>
    let loc ← liftE (s.entryLoc c 0 b)
    .error (.park loc none)
  | none =>
    let wiss ← liftE (s.ctr c .wiss)
    if wiss = 2 ^ 32 - 1 then .error (.fault (ctxFault 5))
    else
      let tok := wd q.words 1
      let new ← if q.op = .eddel then pure []
        else if tok.toNat % 4 ≠ 0 then .error (.fault (faultAt (s.evuIssuer q) cAlign tok))
        else liftE (s.readPieces (s.evuIssuer q) tok (4 * cnt / 32 + 2) (4 * cnt))
      let s := if q.op = .eddel then s else s.noteRange (s.evuIssuer q) tok (4 * cnt)
      let s1 ← liftE (s.moveTokens c (wd q.words 2) x.toks new)
      let s2 := s1.noteTable n c (wd q.words 2) (x.all ++ x.kept.toList)
      let s3 ← liftE (s2.commitEdit n c m x (wiss + 1))
      pure (s3.evuReply q fun k => k.setS q.dst (BitVec.ofNat 64 (wiss + 1)))

/-! ### EDMAP (R300) -/

def State.serveEdmap (s : State) (q : EvuReq) (c : Ctx) : Except EvuStop State := do
  liftE (s.waveOk c q.wave)
  let m ← liftE (s.mapAt c q.wave.toNat)
  let v : Word := match holds m q.arg.toNat with
    | some j => (m.getD j { start := 0, fill := 0, pb := 0 }).word
    | none => BitVec.allOnes 64
  pure (s.evuReply q fun k => k.setS q.dst v)

/-! ### CTXDONE (R304, R305) -/

/-- Element `o` of a slot's bytes as binary32 bits, a scale byte for each 256 elements of a DM8 slot. -/
def slotElem (c : Ctx) (bs : List Byte) (o : Nat) : Nat :=
  let e := 2 ^ c.fmt
  let x := leNat ((bs.drop (e * o)).take e)
  if c.fmt = 0 then (decodeDM8 (BitVec.ofNat 8 x) (bs.getD (c.blk * c.hw + o / 256) 0)).1
  else if c.fmt = 1 then (b32.round 0 (b16.decode x)).1
  else x

/-- δ over the elements of two slots: the largest rounded absolute difference, or the canonical NaN (R305). -/
def slotDelta (c : Ctx) (a b : List Byte) (n : Nat) : Nat :=
  (List.range n).foldl (fun (acc o : Nat) =>
    if acc = b32.nanBits then acc
    else
      let d := (Val.add 0 (b32.decode (slotElem c a o)) (b32.decode (slotElem c b o)).negate).1
      if d.isNaN then b32.nanBits else max acc (b32.round 0 d.abs).1) 0

/-- Whether a result propagates (R60): δ above T, either of them NaN, or T negative.  R60 does not say whether a T of −0 is
negative: the model takes it for 0 (DESIGN CHOICE, log 62). -/
def aboveThreshold (delta t : Nat) : Bool :=
  let x := b32.decode t
  delta == b32.nanBits || x.isNaN || (x.isNeg && !x.isZero) || Val.lt false x (b32.decode delta)

/-- The commit's version in the pairs (R64) and the slot that leaves them. -/
def insertPair (ps : List (Nat × Nat)) (r n : Nat) : List (Nat × Nat) × Option Nat :=
  match ps.find? fun p => p.1 == r with
  | some old => (ps.map fun p => if p.1 = r then (r, n) else p, some old.2)
  | none => ((r, n) :: ps.take 3, (ps[3]?).map Prod.snd)

/-- The result word (R304). -/
def resultWord (prop none_ : Bool) (delta : Nat) : Word :=
  BitVec.ofNat 64 (prop.toNat * 2 ^ 33 + none_.toNat * 2 ^ 32 + delta)

/-- The version committed, the reference, the entry's state, what propagates (R304).  A FILL above B in the map would take the
comparison with the reference out of its slot: reason 14 (R61, R66). -/
def State.commitResult (s : State) (n : Nat) (c : Ctx) (l b r slot : Nat) (e : EvuEntry) (data : List Byte) :
    Except FaultInfo (State × Word) := do
  let m ← s.readMap c
  let ent := entOf m b
  let fill := match ent with | some x => x.fill | none => c.blk
  let old ← if e.ref = noSlot then pure []
    else do
      c.slotOk e.ref
      if c.blk < fill then .error (ctxFault 14)
      else s.readPieces c.issuer (c.slotVa e.ref 0) (c.sbytes / 32 + 2) c.sbytes
  let n0 := e.ref == noSlot
  let delta := if n0 then 0x7F800000 else slotDelta c data old (fill * c.hw)
  let ins := insertPair e.pairs r slot
  let s1 ← match ins.2 with
    | some x => if x = e.ref ∨ ins.1.any (fun p => p.2 == x) then pure s else s.givePoolSlot c x
    | none => pure s
  let t ← s1.readPieces c.issuer (padd c.desc (0x100 + 4 * l : Nat)) 2 4
  let prop := n0 || aboveThreshold delta (leNat t)
  let s2 ← if prop && !n0 && !(ins.1.any fun p => p.2 == e.ref) then s1.givePoolSlot c e.ref else pure s1
  let st := if e.st = 2 ∨ ent.isNone then 0 else 1
  let s3 ← s2.writeEntry c l b { e with st := st, pairs := ins.1, ref := if prop then slot else e.ref }
  let s4 := s3.modCtx n fun x => { x with runWave := Map.del x.runWave (c.key l b) }
  let s5 ← match ent with
    | some x =>
      if prop && decide (l + 1 < c.layers) then
        (blocksFrom m x.start).foldlM (fun (t : State) (k : Nat) => t.dirtyEntry c r false (l + 1) k) s4
      else pure s4
    | none => pure s4
  let s6 ← s5.updateWset n c
  pure (s6, resultWord prop n0 delta)

/-- CTXDONE at the EVU (R304). -/
def State.serveDone (s : State) (q : EvuReq) (n : Nat) (c : Ctx) : Except EvuStop State := do
  let l := fld q.ctx 36 8
  let b := fld q.ctx 20 16
  let r := q.wave.toNat
  let e ← liftE (s.readEntry c l b)
  if !e.running || s.runWaveOf n (c.key l b) != some r then .error (.fault (ctxFault 9))
  else
    let fcnt ← liftE (s.ctr c .fcnt)
    if fcnt = 0 then
      let loc ← liftE (s.writePlace c.issuer (padd c.desc 0x60) 32)
      .error (.park loc none)
    else
      let data ← liftE (s.readPieces (s.evuIssuer q) q.arg (c.sbytes / 32 + 2) c.sbytes)
      let s := s.noteRange (s.evuIssuer q) q.arg c.sbytes
      let t ← liftE (s.takePoolSlot c fcnt)
      let ps ← liftE (t.1.writePieces c.issuer (c.slotVa t.2 0) (c.sbytes / 32 + 2) c.sbytes)
      let x ← liftE ((t.1.fillPieces ps data).commitResult n c l b r t.2 e data)
      pure (x.1.evuReply q fun k => k.setS q.dst x.2)

/-! ### VLDV (R306-R308) -/

/-- The element type of a VLDV. -/
def vldvTy : Ty → Ty
  | .dflt => .f32 | t => t

/-- A version read into lanes (R306), one access (R150, R151): the codes unchanged, or each element decoded and converted. -/
def State.readVersion (s : State) (q : EvuReq) (c : Ctx) (slot : Nat) : Except FaultInfo (VecReg × Flags) := do
  c.slotOk slot
  let off := fld q.ctx 0 20
  let ty := vldvTy q.ty
  let e := 2 ^ c.fmt
  let i : Issuer := { c.issuer with path := .c }
  if off % e ≠ 0 then .error { cause := cAlign, va := q.ctx }
  else if ty = .dm8 then
    if c.fmt ≠ 0 ∨ c.sbytes < off + 128 then .error (ctxFault 12)
    else
      let bs ← s.readWhole i (c.slotVa slot off) 128
      pure (vecOf 1 (bs.map fun x => x.toNat), 0)
  else
    let n := laneCount ty.bytes
    if c.blk * c.hw * e < off + e * n then .error (ctxFault 12)
    else
      let bs ← s.readWhole i (c.slotVa slot off) (e * n)
      let first := off / 256
      let sc ← if c.fmt = 0 then
          s.readWhole i (c.slotVa slot (c.blk * c.hw + first)) ((off + n - 1) / 256 - first + 1)
        else pure []
      let rs := (List.range n).map fun j =>
        laneOfWindow (c.fmt + 1) ty q.rm (leNat ((bs.drop (e * j)).take e)) (sc.getD ((off + j) / 256 - first) 0)
      pure (vecOf ty.bytes (rs.map Prod.fst), rs.foldl (fun (f : Flags) (r : Nat × Flags) => f ||| r.2) 0)

/-- What a version's read leaves in its home units (R155). -/
def State.noteVersion (s : State) (q : EvuReq) (c : Ctx) (slot : Nat) : State :=
  let ty := vldvTy q.ty
  s.noteRange c.issuer (c.slotVa slot (fld q.ctx 0 20)) (if ty = .dm8 then 128 else 2 ^ c.fmt * laneCount ty.bytes)

/-- VLDV.AT at the EVU (R307); a generation that the log no longer retains is refused as R62 says (log 32). -/
def State.serveAt (s : State) (q : EvuReq) (n : Nat) (c : Ctx) : Except EvuStop State := do
  let l := fld q.ctx 36 8
  let b := fld q.ctx 20 16
  let w := q.wave.toNat
  liftE (s.waveOk c q.wave)
  liftE (s.retained c w)
  let e ← liftE (s.readEntry c l b)
  if s.owes n c l b e w then
    let loc ← liftE (s.entryLoc c l b)
    let m ← liftE (s.readMap c)
    .error (.park loc ((entOf m b).map fun x => (l, l, x.start, x.start, w)))
  else
    match e.pairs.find? fun p => decide (p.1 ≤ w) with
    | none => .error (.fault (ctxFault 10))
    | some p =>
      let v ← liftE (s.readVersion q c p.2)
      pure ((s.noteVersion q c p.2).evuReply q fun k => (k.setV q.dst v.1).raise v.2)

/-- VLDV.CUR at the EVU (R308). -/
def State.serveCur (s : State) (q : EvuReq) (c : Ctx) : Except EvuStop State := do
  let e ← liftE (s.readEntry c (fld q.ctx 36 8) (fld q.ctx 20 16))
  match e.pairs with
  | [] => .error (.fault (ctxFault 11))
  | p :: _ =>
    let v ← liftE (s.readVersion q c p.2)
    pure ((s.noteVersion q c p.2).evuReply q fun k =>
      ((k.setV q.dst v.1).setP q.pdst (if e.st = 0 then BitVec.allOnes 128 else 0)).raise v.2)

/-! ### SETTLE (R309) -/

/-- The first entry of a list that owes a wave at or below `w`. -/
def State.firstOwing (s : State) (n : Nat) (c : Ctx) (w : Nat) : List (Nat × Nat) → Except FaultInfo (Option (Nat × Nat))
  | [] => .ok none
  | (l, b) :: r => do
    let e ← s.readEntry c l b
    if s.owes n c l b e w then pure (some (l, b)) else s.firstOwing n c w r

def State.serveSettle (s : State) (q : EvuReq) (n : Nat) (c : Ctx) : Except EvuStop State := do
  let lhi := fld q.arg 56 8
  let llo := fld q.arg 48 8
  let phi := fld q.arg 24 24
  let plo := fld q.arg 0 24
  liftE (s.waveOk c q.wave)
  let m ← liftE (s.readMap c)
  let bs := (m.filter fun x => decide (x.start ≤ phi) && decide (plo < x.start + x.fill)).map MapEnt.pb
  let all := (List.range (lhi + 1 - llo)).flatMap fun l => bs.map fun b => (llo + l, b)
  let hit ← liftE (s.firstOwing n c q.wave.toNat all)
  match hit with
  | none => pure (s.evuReply q id)
  | some (l, b) =>
    let loc ← liftE (s.entryLoc c l b)
    .error (.park loc (some (llo, lhi, plo, phi, q.wave.toNat)))

/-! ### RECLAIM (R290, R291, R310) -/

/-- The slots of pairs that leave an entry, each once, but for REF and what other pairs keep. -/
def droppedSlots (gone kept : List (Nat × Nat)) (ref : Nat) : List Nat :=
  ((gone.map Prod.snd).filter fun x => x != ref && !(kept.any fun p => p.2 == x)).eraseDups

/-- Drops the pairs of an entry older than the newest at or below `w`; the slots freed. -/
def State.reclaimEntry (s : State) (c : Ctx) (w l b : Nat) : Except FaultInfo (State × Nat) := do
  let e ← s.readEntry c l b
  match e.pairs.findIdx? fun p => decide (p.1 ≤ w) with
  | none => pure (s, 0)
  | some j =>
    let kept := e.pairs.take (j + 1)
    let gone := e.pairs.drop (j + 1)
    if gone.isEmpty then pure (s, 0)
    else
      let s1 ← s.writeEntry c l b { e with pairs := kept }
      let xs := droppedSlots gone kept e.ref
      let s2 ← s1.givePoolSlots c xs
      pure (s2, xs.length)

/-- Drops every pair and REF of an entry. -/
def State.clearEntry (s : State) (c : Ctx) (l b : Nat) : Except FaultInfo (State × Nat) := do
  let e ← s.readEntry c l b
  let xs := ((e.pairs.map Prod.snd) ++ (if e.ref = noSlot then [] else [e.ref])).eraseDups
  if xs.isEmpty then pure (s, 0)
  else
    let s1 ← s.writeEntry c l b { e with pairs := [], ref := noSlot }
    let s2 ← s1.givePoolSlots c xs
    pure (s2, xs.length)

/-- One block in RECLAIM's pass (R310). -/
def State.reclaimBlock (s : State) (c : Ctx) (w : Nat) (m : List MapEnt) (b : Nat) : Except FaultInfo (State × Nat) := do
  let ls := List.range c.layers
  if (entOf m b).isSome then
    ls.foldlM (fun (t : State × Nat) (l : Nat) => do
      let r ← t.1.reclaimEntry c w l b
      pure (r.1, t.2 + r.2)) (s, 0)
  else
    let es ← ls.mapM fun l => s.readEntry c l b
    if es.all fun e => e.st == 0 && decide (e.dw ≤ w) then
      ls.foldlM (fun (t : State × Nat) (l : Nat) => do
        let r ← t.1.clearEntry c l b
        pure (r.1, t.2 + r.2)) (s, 0)
    else pure (s, 0)

def State.serveReclaim (s : State) (q : EvuReq) (n : Nat) (c : Ctx) : Except EvuStop State := do
  liftE (s.waveOk c q.wave)
  let m ← liftE (s.readMap c)
  let r ← liftE ((List.range c.nb).foldlM (fun (t : State × Nat) (b : Nat) => do
    let x ← t.1.reclaimBlock c q.wave.toNat m b
    pure (x.1, t.2 + x.2)) (s, 0))
  let s1 ← liftE (r.1.updateWset n c)
  pure (s1.evuReply q fun k => k.setS q.dst (BitVec.ofNat 64 r.2))

/-- Every entry of the block table. -/
def Ctx.entries (c : Ctx) : List (Nat × Nat) :=
  (List.range c.layers).flatMap fun l => (List.range c.nb).map fun b => (l, b)

/-- The limits of R59 on a header, its Reserved fields, alignments and spaces (R290).  R59 names no bits of w2, w3, w7, w9,
w11 and w13 above the fields it lists, as Reserved or otherwise: they are not tested (log 56). -/
def hdrOk (c : Ctx) (bs : List Byte) : Bool :=
  let w (k : Nat) := wd c.hdr k
  let ptr (p : Word) (al : Nat) : Bool := spaceOf p == 0 && p.toNat % al == 0
  let need := c.blk * c.hw * 2 ^ c.fmt + (if c.fmt = 0 then c.blk * c.hw / 256 else 0)
  fld (w 0) 24 8 == 0 && fld (w 0) 17 3 == 0 && fld (w 0) 9 3 == 0 && fld (w 1) 10 54 == 0 &&
  (bs.drop 0x70).take 0x90 == List.replicate 0x90 0 && (bs.drop 0xD00) == List.replicate 0x300 0 &&
  c.hw % 256 == 0 && decide (c.fmt ≤ 2) && decide (fld (w 0) 12 3 ≤ 6) && decide (1 ≤ c.layers) &&
  decide (c.layers ≤ 256) && decide (c.rclu ≤ 11) && decide (4 ≤ c.elb) && decide (c.elb ≤ 12) && decide (1 ≤ c.nb) &&
  decide (c.nb ≤ 65535) && decide (1 ≤ c.scnt) && c.sbytes % 256 == 0 && decide (c.sbytes ≤ 0x100000) &&
  decide (need ≤ c.sbytes) && decide (fld (w 5) 0 32 ≤ c.pcap) && decide (fld (w 13) 0 16 ≤ c.scnt) &&
  ptr c.pmap 8 && ptr c.elog 16 && ptr c.bt 32 && ptr c.spool 256 && ptr c.free 2

/-- The first address of the structures that fails its probe (R290). -/
def State.probeStructures (s : State) (c : Ctx) : Option Word :=
  let ends (p : Word) (n : Nat) : List Word := [p, padd p ((max n 1) - 1 : Nat)]
  (ends c.pmap (8 * c.pcap) ++ ends c.elog (16 * 2 ^ c.elb) ++ ends c.bt (32 * (c.layers * c.nb)) ++
    ends c.free (2 * c.scnt) ++ ends c.spool (c.scnt * c.sbytes)).find? fun a =>
      match s.probe c.issuer a 1 1 with | .error _ => true | .ok _ => false

/-- RUNNING entries found at binding become DIRTY. -/
def State.settleEntry (s : State) (c : Ctx) (lb : Nat × Nat) : Except FaultInfo State := do
  let e ← s.readEntry c lb.1 lb.2
  if e.running then s.writeEntry c lb.1 lb.2 { e with st := 1 } else pure s

/-- A context takes its slot: entries settled, WSET computed. -/
def State.beginBinding (s : State) (n : Nat) (c : Ctx) : Except FaultInfo State := do
  let s1 ← c.entries.foldlM (fun (t : State) (lb : Nat × Nat) => t.settleEntry c lb) s
  let lost ← s1.lostAtBind c
  ({ s1.putCtx n { c with lost := lost.1, logFull := lost.2 } with free := s1.free + 1 } : State).updateWset n c

/-- RECLAIM.BIND at the EVU (R290).  The header of the descriptor is read here once, for the whole binding: no rule says what a later
store to it does (DESIGN CHOICE, log 63). -/
def State.serveBind (s : State) (q : EvuReq) : Except EvuStop State := do
  let i := s.issuer q.core .c
  let bs ← liftE (s.readPieces i q.arg 129 4096)
  let home ← match s.globalHome i q.arg 4096 false false with
    | .ok (.pa a) => pure a
    | .ok (.imp ..) => .error (.fault (faultAt i cAddress q.arg))
    | .error f => .error (.fault f)
  let hdr := wordsOf 14 bs
  let c : Ctx := { desc := q.arg, home := home, hdr := hdr, world := bitOf (wd hdr 0) 16, hb := i.heap.1, hl := i.heap.2.1,
                   ho := i.heap.2.2, part := i.part, born := s.bornOf q.core }
  if c.world && !i.world then .error (.fault { cause := cWorld, va := q.arg })
  else if !hdrOk c bs then .error (.fault (ctxFault 2))
  else
    match s.probeStructures c with
    | some va => .error (.fault { ctxFault 2 with va := va })
    | none =>
      if s.ctxs.any fun (e : Nat × Ctx) => e.2.home == home then .error (.fault (ctxFault 4))
      else
        match (List.range 256).find? fun k => (s.ctxAt k).isNone with
        | none => .error (.fault (ctxFault 3))
        | some n =>
          match (s.noteRange i q.arg 4096).beginBinding n c with
          | .ok t => pure (t.evuReply q fun k => k.setS q.dst (ctxPtr n c))
          | .error f => .error (.upset c f)

/-- Writes a granule on which a bead is parked (R291). -/
def State.touchGranule (s : State) (c : Ctx) (va : Word) : State :=
  match s.translate c.issuer va 32 true false with
  | .ok (.mem loc) | .ok (.split loc _ _) =>
    if metaW (s.metaAt (loc / 32)) then s.noteWrite (loc / 32) (metaF (s.metaAt (loc / 32))) else s
  | _ => s

/-- RECLAIM.UNBIND at the EVU (R291). -/
def State.serveUnbind (s : State) (q : EvuReq) (n : Nat) (c : Ctx) : Except EvuStop State := do
  let es ← liftE (c.entries.mapM fun lb => s.readEntry c lb.1 lb.2)
  let count := (es.filter EvuEntry.running).length
  let s1 := s.modCtx n fun x => { x with unbinding := true }
  let s2 : State :=
    if count ≠ 0 then s1
    else
      let t := c.entries.foldl (fun (t : State) (lb : Nat × Nat) => t.touchGranule c (c.entryVa lb.1 lb.2))
        ({ s1 with ctxs := Map.del s1.ctxs n, pastLogs := Map.put s1.pastLogs c.home (s1.pastLog n c) } : State)
      (List.range 128).foldl (fun (t : State) (g : Nat) => t.touchGranule c (padd c.desc (32 * g : Nat))) t
  pure (s2.evuReply q fun k => k.setS q.dst (BitVec.ofNat 64 count))

/-! ### EVU_CONTEXT_REQUEST (R312) -/

/-- Whether a request lets a context spawn again (R301). -/
def evuResumes : EvuOp → Bool
  | .edins => true | .eddel => true | .edchg => true | .settle => true | .reclaim => true | _ => false

def State.serveCtx (s : State) (q : EvuReq) (n : Nat) (c : Ctx) : Except EvuStop State :=
  match q.op with
  | .edins => s.serveEdit q n c
  | .eddel => s.serveEdit q n c
  | .edchg => s.serveEdit q n c
  | .edmap => s.serveEdmap q c
  | .ctxdone => s.serveDone q n c
  | .vldvAt => s.serveAt q n c
  | .vldvCur => s.serveCur q c
  | .settle => s.serveSettle q n c
  | .reclaim => s.serveReclaim q n c
  | .bind => s.serveBind q
  | .unbind => s.serveUnbind q n c

/-- The demand region of a bead, with the die of the EVU that it is registered with (R302). -/
def regionOfPark (n die : Nat) (b : SlotId) (r : Nat × Nat × Nat × Nat × Nat) : Nat × EvuRegion :=
  (die, { ctx := n, llo := r.1, lhi := r.2.1, plo := r.2.2.1, phi := r.2.2.2.1, wave := r.2.2.2.2, bead := b })

/-- A Park reply (R185, R295): the bead parks on the granule and its region is registered, after the force of its pending nodes
where it has any (R136); a steward core stalls (R387). -/
def State.evuPark (s : State) (q : EvuReq) (n : Nat) (c : Ctx) (loc : Nat) (region : Option (Nat × Nat × Nat × Nat × Nat)) :
    State :=
  let k := s.coreAt q.core
  match k.bead with
  | none => s
  | some b =>
    match s.installPark b.unit (s.granuleKey (loc / 32)) k.world b with
    | none => s.trapEntry q.core { cause := cParkFull } q.pc
    | some s1 =>
      let m := s1.metaAt (loc / 32)
      let s2 := (s1.putMeta (loc / 32) (mkMeta (metaD m) true (metaF m) (metaTag m))).parkOrForce q.core
      match region.map (regionOfPark n c.die b) with
      | none => s2
      | some r =>
        if s2.beadParked b then s2.addRegion r
        else if isTile q.core then s2.modTile q.core fun t => { t with demand := t.demand.map fun d => { d with region := some r } }
        else s2

/-- After a reason-14 refusal, what the instruction has changed within the structures is unpredictable (R66, log 17). -/
def State.disturb (s : State) (n : Nat) (c : Ctx) : State :=
  let spots := c.owned.flatMap fun r => (List.range r.2).map fun j => padd r.1 (j : Nat)
  (spots.foldl (fun (t : State) (va : Word) =>
    match t.evuWrite c va [Config.freeEvu s.free va.toNat] with
    | .ok u => u
    | .error _ => t) s).modCtx n fun x => { x with tainted := true }

/-- A refusal at the EVU is precise (R181). -/
def State.evuRefuse (s : State) (q : EvuReq) (n : Nat) (c : Option Ctx) (f : FaultInfo) : State :=
  let changes := q.op = .edins ∨ q.op = .eddel ∨ q.op = .edchg ∨ q.op = .ctxdone ∨ q.op = .reclaim ∨ q.op = .bind
  let s1 := match c with
    | some x => if f.cause = cContext ∧ f.sub = 14 ∧ changes then s.disturb n x else s
    | none => s
  s1.trapEntry q.core f q.pc

/-- The home units in which a context's structures lie. -/
def State.ctxUnits (s : State) (c : Ctx) : List Nat :=
  let pages := ((c.desc, 4096) :: (c.spool, c.scnt * c.sbytes) :: c.owned).flatMap fun r =>
    (List.range (r.2 / 4096 + 2)).map fun j => padd r.1 (min (4096 * j) (r.2 - 1) : Nat)
  (pages.filterMap fun va =>
    match s.translate c.issuer va 1 false false with
    | .ok (.mem loc) => if isHbm loc then some (s.homeUnit loc) else none
    | _ => none).eraseDups

/-- The EVU's own reads of a context's structures count in their home units (R155); how many it makes is a free value
(log 26). -/
def State.countEvu (s : State) (c : Ctx) : State :=
  (s.ctxUnits c).foldl (fun (t : State) (u : Nat) =>
    { t with acnt := Map.put t.acnt u (min 0xFFFF (Map.get t.acnt 0 u + (Config.freeWord t.free).toNat)), free := t.free + 1 }) s

/-- The answer of a request reaches the core. -/
def State.evuDeliver (s : State) (q : EvuReq) (n : Nat) (c : Option Ctx) (r : Except EvuStop State) : State :=
  let resume (t : State) : State := if evuResumes q.op then t.modCtx n fun x => { x with stopped := false } else t
  match r with
  | .ok t => (resume { t with free := t.free + 1 }).push [.evuRecomputeSpawn n]
  | .error (.fault f) => s.evuRefuse q n c f
  | .error (.upset x f) => s.evuRefuse q n (some x) f
  | .error (.park loc region) =>
    match c with
    | some x => (resume (s.evuPark q n x loc region)).push [.evuRecomputeSpawn n]
    | none => s

/-- A request answered, with the count of what the EVU read for it. -/
def State.evuAnswer (s : State) (q : EvuReq) (n : Nat) (c : Option Ctx) (r : Except EvuStop State) : State :=
  let u := s.evuDeliver q n c r
  match c.orElse fun _ => u.ctxAt n with
  | some x => u.countEvu x
  | none => u

/-! ### Recompute (R301-R303) -/

/-- Whether a context is served as eager: its mode, or a region of its that the table of 256 has no room for (R302). -/
def State.eagerNow (s : State) (n : Nat) (c : Ctx) : Bool :=
  c.eager || ((s.dieAt c.die).regions.drop 256).any fun r => r.ctx == n

/-- The cone of a region of the context holds an entry. -/
def State.inCone (s : State) (n : Nat) (c : Ctx) (l start : Nat) : Bool :=
  ((s.dieAt c.die).regions.take 256).any fun r => r.ctx == n && decide (l ≤ r.lhi) && decide (start ≤ r.phi)

/-- The entries of a layer in map order: the first one to spawn, and the lowest start whose entry is not VALID. -/
def State.scanLayer (s : State) (n : Nat) (c : Ctx) (l : Nat) (bad : Option Nat) :
    List MapEnt → Except FaultInfo (Option MapEnt × Option Nat)
  | [] => .ok (none, none)
  | x :: xs => do
    let e ← s.readEntry c l x.pb
    let r ← s.scanLayer n c l bad xs
    let clear := match bad with | some b => decide (x.start < b) | none => true
    let ready := e.st == 1 && clear && (s.eagerNow n c || s.inCone n c l x.start)
    pure (if ready then some x else r.1, if e.st ≠ 0 then some x.start else r.2)

/-- The first ready entry that may be spawned: ascending layer, then ascending start (R301).  `bad` is the lowest start
with an entry below the layer that is not VALID. -/
def State.scanLayers (s : State) (n : Nat) (c : Ctx) (m : List MapEnt) :
    List Nat → Option Nat → Except FaultInfo (Option (Nat × MapEnt))
  | [], _ => .ok none
  | l :: ls, bad => do
    let r ← s.scanLayer n c l bad m
    match r.1 with
    | some x => pure (some (l, x))
    | none =>
      let low := match bad, r.2 with
        | some a, some b => some (min a b)
        | some a, none => some a
        | none, x => x
      s.scanLayers n c m ls low

def State.nextSpawn (s : State) (n : Nat) (c : Ctx) : Except FaultInfo (Option (Nat × MapEnt)) := do
  if c.unbinding || c.stopped then pure none
  else
    let m ← s.readMap c
    s.scanLayers n c m (List.range c.layers) none

/-- Spawning stops for a context: a record for the partition that bound it, or for the home die's steward (R301, R66). -/
def State.stopSpawns (s : State) (n : Nat) (c : Ctx) (f : FaultInfo) : State :=
  let s1 := s.modCtx n fun x => { x with stopped := true }
  let ws := recordWords c.world 0 0 0 { f with path := .evu } 0
  let bound := match c.part with
    | some p => (match s1.partAt p with | some x => x.born == c.born | none => false)
    | none => false
  if bound then (s1.partRecord (c.part.getD 0) ws).1 else (s1.tellSteward c.die 3 c.part ws).1

/-- The cause of a spawn that is not made (R366): a reason in INFO, another fault as it is. -/
def spawnFault (f : FaultInfo) : FaultInfo :=
  if f.cause = cContext then { f with cause := 0x35, sub := 0 } else f

/-- The record of a recompute bead (R303). -/
def recomputeRec (n : Nat) (c : Ctx) (code : Word) (l r : Nat) (x : MapEnt) : BeadRec :=
  { code := code, frame := 0, pjoin := 0
    w3 := BitVec.ofNat 64 (c.rpri * 2 ^ 52 + c.rrod * 2 ^ 48 + c.world.toNat * 2 ^ 33)
    arg0 := BitVec.ofNat 64 ((ctxPtr n c).toNat + l * 2 ^ 36 + x.pb * 2 ^ 20), arg1 := BitVec.ofNat 64 r, arg2 := x.word
    arg3 := c.desc, evu := true }

/-- Spawns an entry into a free slot of its rod. -/
def State.spawnEntry (s : State) (n : Nat) (c : Ctx) (l : Nat) (x : MapEnt) (u slot : Nat) (rod : Rod) : Except FaultInfo State := do
  let e ← s.readEntry c l x.pb
  let code ← s.readPieces c.issuer (padd c.desc (0x500 + 8 * l : Nat)) 2 8
  let s1 ← s.writeEntry c l x.pb { e with st := 2 }
  let s2 := s1.modCtx n fun y => { y with runWave := Map.put y.runWave (c.key l x.pb) e.dw }
  pure (s2.enqueueNew ⟨u, c.rrod, slot⟩
    (fitRecord c.rrod rod (recomputeRec n c (BitVec.ofNat 64 (leNat code)) l e.dw x)))

/-- What serving a context comes to: nothing ready, a wait for a slot, a spawn or a stop. -/
inductive Spawn
  | idle
  | full
  | done (s : State)

/-- One spawn of a context. -/
def State.spawnCtx (s : State) (n : Nat) (c : Ctx) : Spawn :=
  match s.nextSpawn n c with
  | .error f => .done (s.stopSpawns n c (spawnFault f))
  | .ok none => .idle
  | .ok (some (l, x)) =>
    let u := 12 * c.die + c.rclu
    let refused : Spawn := .done (s.stopSpawns n c { cause := 0x35, info := 13 })
    match s.rodAt u c.rrod with
    | none => refused
    | some rod =>
      if rod.part.isNone || rod.freed || rod.world != c.world then refused
      else
        match rod.freeSlot? with
        | none => .full
        | some slot =>
          match s.spawnEntry n c l x u slot rod with
          | .ok t => .done t
          | .error f => .done (s.stopSpawns n c (spawnFault f))

/-- EVU_CONTEXT_REQUEST (R312).  The spawns of its context come first; until they have entered their rod, the instruction is
held back (R316): it has not committed, so its core sends it again at its next turn (log 57). -/
def State.evuContextRequest (s : State) (q : EvuReq) : State :=
  if q.op = .bind then
    let r := s.serveBind q
    let n := ((List.range 256).find? fun k => (s.ctxAt k).isNone).getD 0
    s.evuAnswer q n none r
  else
    let n := fld q.ctx 44 8
    match s.ctxAt n with
    | none => s.trapEntry q.core (ctxFault 1) q.pc
    | some c =>
      match s.spawnCtx n c with
      | .idle => s.evuAnswer q n (some c) (s.serveCtx q n c)
      | .full => s
      | .done _ => s.push [.evuRecomputeSpawn n]

/-- The contexts of an EVU in ascending slot order: the first that spawns or stops; whether one waits for a slot. -/
def State.spawnFirst (s : State) : List (Nat × Ctx) → Bool → Option State × Bool
  | [], w => (none, w)
  | (n, c) :: r, w =>
    match s.spawnCtx n c with
    | .idle => s.spawnFirst r w
    | .full => s.spawnFirst r true
    | .done t => (some t, w)

/-- EVU_RECOMPUTE_SPAWN: one spawn of the EVU that owns the context slot; a context that waits for a rod's slot is tried
again. -/
def State.evuRecomputeSpawn (s : State) (slot : Nat) : State :=
  match s.ctxAt slot with
  | none => s
  | some c =>
    let mine := s.ctxs.filter fun (e : Nat × Ctx) => e.2.die == c.die
    let r := s.spawnFirst mine false
    match r.1 with
    | some t =>
      (mine.foldl (fun (u : State) (e : Nat × Ctx) => u.countEvu e.2) { t with free := t.free + 1 }).push [.evuRecomputeSpawn slot]
    | none => if r.2 && !s.timers.contains (.evuRecomputeSpawn slot) then s.arm [.evuRecomputeSpawn slot] else s

/-- A discarded recompute bead's entry returns to DIRTY (R382). -/
def State.returnEntry (s : State) (x : BeadRec) : State :=
  let n := fld x.arg0 44 8
  let l := fld x.arg0 36 8
  let b := fld x.arg0 20 16
  match (if x.evu then s.ctxAt n else none) with
  | none => s
  | some c =>
    if c.desc != x.arg3 || s.runWaveOf n (c.key l b) != some x.arg1.toNat then s
    else
      let go : Except FaultInfo State := do
        let e ← s.readEntry c l b
        let s1 ← s.writeEntry c l b { e with st := 1 }
        (s1.modCtx n fun y => { y with runWave := Map.del y.runWave (c.key l b) }).updateWset n c
      match go with
      | .ok t => t.push [.evuRecomputeSpawn n]
      | .error f => s.stopSpawns n c (spawnFault f)

/-! ### The device steps -/

def execEvuContextRequest (s : State) : Host.Outcome State Fault Refusal :=
  match s.msg with
  | some (.evuContextRequest q) => .next (s.evuContextRequest q)
  | _ => .next s

def execEvuRecomputeSpawn (s : State) : Host.Outcome State Fault Refusal :=
  match s.msg with
  | some (.evuRecomputeSpawn slot) => .next (s.evuRecomputeSpawn slot)
  | _ => .next s

end Sys2Proof.Machine
end

