-- ==== Sys2Proof/Machine/Fence.lean ====
section
/-! DEFINITION. FENCE and FENCEX (R355-R357). -/

namespace Sys2Proof.Machine

/-- P: the paths named, C alone when none is (R356). -/
def fencePaths (pm : PathMask) : PathMask :=
  if pm.c || pm.x || pm.e || pm.k then pm else { c := true, x := false, e := false, k := false }

/-- An outcome that a fence of the executing bead covers: its paths, whatever core the bead issued the work on (R342,
R357). -/
def State.fenceCovers (s : State) (pm : PathMask) (o : Outcome) : Bool :=
  o.bead == s.beadKey s.cur && (if o.kind = .store then pm.c else pm.x)

/-- Some copy or PKL request of the executing bead has not completed, and the fence names its path (R356).  What the bead has
sent on C and E is performed before the next instruction (log 1); a MODE 2 fence orders reads of copies and requests by waiting
too. -/
def State.fenceWaits (s : State) (pm : PathMask) : Bool :=
  (pm.x && s.copies.any fun e => e.2.uid == s.beadKey s.cur) ||
  (pm.k && s.requests.any fun q => q.uid == s.beadKey s.cur)

/-- The fence waits, then the status goes to s[D] and what it covers is reported (R356, R357). -/
def State.fenceOf (s : State) (pm : PathMask) (d : Nat) : State :=
  let p := fencePaths pm
  let r := s.takeOutcomes (s.fenceCovers p)
  if s.fenceWaits p then s else r.2.answer d (r.1.setWidth 64)

def execFence (_pfx : Pfx) (_sc : Scope) (pm : PathMask) (_fm : FenceMode) (d : Nat) (s : State) :
    Host.Outcome State Fault Refusal :=
  .next (s.fenceOf pm d)

def execFencex (_pfx : Pfx) (_sc : Scope) (pm : PathMask) (_fm : FenceMode) (d : Nat) (s : State) :
    Host.Outcome State Fault Refusal :=
  .next (s.fenceOf pm d)

end Sys2Proof.Machine
end

