-- ==== Sys2Proof/Machine/Stream.lean ====
section
/-! DEFINITION. Hem streams: STRM, STRMW, SLOT and their device steps (R333-R337). -/

namespace Sys2Proof.Machine

def cStream : Nat := 0x1D

/-! ### Stream descriptors (R333, R334) -/

namespace Desc

def rows (d : List Word) : Nat := fld (wd d 1) 48 16
def pitch (d : List Word) : Nat := fld (wd d 1) 0 32
def sb (d : List Word) : Nat := fld (wd d 2) 48 16
def sr (d : List Word) : Nat := fld (wd d 2) 32 16
def rbytes (d : List Word) : Nat := fld (wd d 2) 0 32
def columnMajor (d : List Word) : Bool := bitOf (wd d 4) 21
def sid (d : List Word) : Nat := fld (wd d 4) 16 5
def nslot (d : List Word) : Nat := fld (wd d 4) 8 8
def mask (d : List Word) : Nat := fld (wd d 4) 0 8

/-- Bytes of a slot. -/
def slotBytes (d : List Word) : Nat := sr d * 64 * sb d

/-- Slot positions down and across. -/
def down (d : List Word) : Nat := (rows d + sr d - 1) / sr d
def across (d : List Word) : Nat := (rbytes d + 64 * sb d - 1) / (64 * sb d)
def positions (d : List Word) : Nat := down d * across d

/-- The offset of slot `g` from DST. -/
def slotOff (d : List Word) (g : Nat) : Nat := g % nslot d * slotBytes d

/-- The row and the byte column at which position `g` begins. -/
def corner (d : List Word) (g : Nat) : Nat × Nat :=
  let p := if columnMajor d then (g % down d, g / down d) else (g / across d, g % across d)
  (p.1 * sr d, p.2 * 64 * sb d)

/-- The bits set in MASK. -/
def receivers (d : List Word) : List Nat := (List.range 8).filter (mask d).testBit

/-- Reserved fields and limits. -/
def ok (d : List Word) (back : Bool) : Bool :=
  let dst := wd d 3
  spaceOf (wd d 0) == 0 && (wd d 0).toNat % 64 == 0 && rows d != 0 && fld (wd d 1) 32 16 == 0 && pitch d % 64 == 0 &&
  decide (1 ≤ sb d) && decide (sb d ≤ 256) && decide (1 ≤ sr d) && decide (sr d ≤ 256) &&
  rbytes d % 64 == 0 && decide (64 ≤ rbytes d) && decide (rbytes d ≤ pitch d) &&
  spaceOf dst == 4 && windowOf dst == 0 && fld dst 28 24 == 0 && dst.toNat % 64 == 0 &&
  decide (fld dst 0 24 + nslot d * slotBytes d ≤ 0x200000) && fld (wd d 4) 22 42 == 0 &&
  decide (1 ≤ nslot d) && decide (nslot d ≤ 64) && mask d != 0 && (!back || (receivers d).length == 1) &&
  wd d 5 == 0 && wd d 6 == 0 && wd d 7 == 0

/-- The 64-byte lines of position `g`: offset in the slot, offset in the tensor where it lies within the extents. -/
def lines (d : List Word) (g : Nat) : List (Nat × Option Nat) :=
  (List.range (sr d)).flatMap fun i => (List.range (sb d)).map fun u =>
    let row := (corner d g).1 + i
    let col := (corner d g).2 + 64 * u
    (64 * (sb d * i + u), if row < rows d ∧ col < rbytes d then some (row * pitch d + col) else none)

end Desc

/-! ### The cluster's stream table -/

namespace State

def streamAt (s : State) (u sid : Nat) : Option Stream := Map.find? (s.unitAt u).streams sid
def putStream (s : State) (u sid : Nat) (x : Stream) : State :=
  s.modUnit u fun b => { b with streams := Map.put b.streams sid x }

end State

namespace Stream

/-- Every position moved and every slot returned. -/
def finished (x : Stream) : Bool :=
  let n := Desc.positions x.desc
  (decide (n ≤ x.moved) || x.failed.isSome) &&
    x.tiles.all fun t => decide ((if x.failed.isSome then t.taken else n) ≤ t.returned)

/-- A stream that occupies its SID (R334, R336, log 29). -/
def running (x : Stream) : Bool := !x.stopped && !x.freed && !x.finished

def tileOf (x : Stream) (k : Nat) : Option StreamTile := x.tiles.find? fun t => t.core == k

def modTile (x : Stream) (k : Nat) (f : StreamTile → StreamTile) : Stream :=
  { x with tiles := x.tiles.map fun t => if t.core = k then f t else t }

end Stream

/-! ### STRM and STRMW (R334) -/

/-- A stream that the executing core starts; its device work begins after the commit. -/
def State.startStream (s : State) (back : Bool) (d : List Word) : State :=
  let u := unitOf s.cur
  let ks := (Desc.receivers d).map fun t => tileIn u (Nat.xor (indexOf s.cur) t)
  if !Desc.ok d back then s.trapCause cStream
  else if !isTile s.cur || !(ks.all fun k => (s.tileAt k).part == s.partOf s.cur) then
    s.trap (faultAt (s.issuer s.cur .c) cAddress (wd d 3))
  else if (match s.streamAt u (Desc.sid d) with | some x => x.running | none => false) then s.trapCause cStream
  else
    let x : Stream :=
      { core := s.cur, bead := s.beadAddr s.cur, uid := s.beadKey s.cur, world := s.me.world,
        part := s.partOf s.cur, cpc := s.me.pc, back := back, desc := d,
        tiles := ks.map fun k => { core := k } }
    ((s.putStream u (Desc.sid d) x).retire).push (if back then [] else [.streamSlotWrite u (Desc.sid d)])

/-- The descriptor is read as a 64-byte load. -/
def State.issueStream (s : State) (back : Bool) (va : Word) : State :=
  match s.placeAligned (s.issuer s.cur .c) va 64 64 false with
  | .error f => (s.noteFailed (s.issuer s.cur .c) va 64 f).trap f
  | .ok _ => s.withLoad va 64 fun t bs => t.startStream back (wordsOf 8 bs)

def execStrm (_pfx : Pfx) (a : Nat) (s : State) : Host.Outcome State Fault Refusal := .next (s.issueStream false (s.sr a))
def execStrmw (_pfx : Pfx) (a : Nat) (s : State) : Host.Outcome State Fault Refusal := .next (s.issueStream true (s.sr a))

/-! ### Moving positions (R335, R337) -/

/-- The issuer of a stream's accesses, in the world of the bead that started it (R169); space-0x4 pointers mean core `own`. -/
def State.streamIssuer (s : State) (x : Stream) (own : Nat) : Issuer :=
  { s.workIssuer x.core x.part with own := own, world := x.world, path := .x }

/-- A failed line: its position and fault, the first to be noted, and its status bit. -/
def Stream.fail (x : Stream) (g : Nat) (f : FaultInfo) : Stream :=
  { x with failed := (match x.failed with | some y => some y | none => some (g, f)), status := x.status ||| statusBit f.cause }

/-- One line for one receiving tile, at offset `o` of the slot of position `g`. -/
def State.sendLine (s : State) (g o : Nat) (bs : List Byte) (x : Stream) (t : StreamTile) : State × Stream :=
  let i := s.streamIssuer x t.core
  let va := padd (wd x.desc 3) (Desc.slotOff x.desc g + o : Nat)
  match s.writeRuns i va 64 with
  | .error f => (s.noteFailed i va 64 f, x.fail g f)
  | .ok ps => (s.fillPieces ps bs, x)

/-- One line of position `g` to every receiving tile. -/
def State.deliverLine (s : State) (g : Nat) (e : Nat × Option Nat) (x : Stream) : State × Stream :=
  let i := s.streamIssuer x x.core
  let send (s : State) (bs : List Byte) : State × Stream :=
    x.tiles.foldl (fun acc t => acc.1.sendLine g e.1 bs acc.2 t) (s, x)
  match e.2 with
  | none => send s (List.replicate 64 0)
  | some o =>
    let far := padd (wd x.desc 0) o
    match s.readPlace i far 64 with
    | .error f => (s.noteFailed i far 64 f, x.fail g f)
    | .ok bs => send (s.noteRange i far 64) bs

/-- STREAM_SLOT_WRITE: the next position, once every receiving tile has returned the slot's former contents. -/
def State.streamSlotWrite (s : State) (clu sid : Nat) : State :=
  match s.streamAt clu sid with
  | none => s
  | some x =>
    let g := x.moved
    if x.back || x.stopped || x.failed.isSome || decide (Desc.positions x.desc ≤ g) ||
        (x.tiles.any fun t => decide (t.returned + Desc.nslot x.desc ≤ g)) then s
    else
      let r := (Desc.lines x.desc g).foldl (fun acc e => acc.1.deliverLine g e acc.2) (s, x)
      if r.2.failed.isSome then r.1.putStream clu sid r.2
      else (r.1.putStream clu sid { r.2 with moved := g + 1 }).push [.streamSlotWrite clu sid]

/-- One line of a returned slot to the tensor. -/
def State.storeLine (s : State) (g : Nat) (k : Nat) (e : Nat × Option Nat) (x : Stream) : State × Stream :=
  match e.2 with
  | none => (s, x)
  | some o =>
    let near := padd (wd x.desc 3) (Desc.slotOff x.desc g + e.1 : Nat)
    let far := padd (wd x.desc 0) o
    match s.readPlace (s.streamIssuer x k) near 64 with
    | .error f => (s.noteFailed (s.streamIssuer x k) near 64 f, x.fail g f)
    | .ok bs =>
      let i := s.streamIssuer x x.core
      match s.writeRuns i far 64 with
      | .error f => (s.noteFailed i far 64 f, x.fail g f)
      | .ok ps => ((s.noteTlb i far).fillPieces ps bs, x)

/-- STRMW_SLOT_WRITEBACK: the oldest returned slot that has not been written to the tensor; the bead that returned it hears
of a failure at its next fence (R356, R357). -/
def State.strmwSlotWriteback (s : State) (clu sid : Nat) : State :=
  match s.streamAt clu sid with
  | none => s
  | some x =>
    match x.tiles with
    | [] => s
    | t :: _ =>
      let g := x.moved
      if !x.back || x.stopped || x.failed.isSome || decide (t.returned ≤ g) then s
      else
        let r := (Desc.lines x.desc g).foldl (fun acc e => acc.1.storeLine g t.core e acc.2) (s, x)
        if r.2.failed.isSome then (r.1.putStream clu sid r.2).addOutcome t.core (s.beadKey t.core) .slot r.2.status
        else (r.1.putStream clu sid { r.2 with moved := g + 1 }).push [.strmwSlotWriteback clu sid]

/-! ### SLOT (R336, R337) -/

/-- The record of a failed line, at the SLOT that meets it. -/
def Stream.fault (x : Stream) : FaultInfo :=
  match x.failed with
  | some (_, f) => { f with cause := cStream, path := .x, late := true, cpc := some x.cpc }
  | none => { cause := cStream }

/-- A tile's next slot. -/
def State.takeSlot (s : State) (u sid d : Nat) (x : Stream) (t : StreamTile) : State :=
  let g := t.taken
  if (match x.failed with | some (p, _) => decide (p ≤ g) | none => false) then s.trap x.fault
  else if Desc.positions x.desc ≤ g then s.answer d 0
  else if (if x.back then x.moved + Desc.nslot x.desc else x.moved) ≤ g then s
  else
    (s.putStream u sid (x.modTile s.cur fun y => { y with taken := g + 1 })).answer d
      (padd (wd x.desc 3) (Desc.slotOff x.desc g))

def execSlot (_pfx : Pfx) (d immn : Nat) (s : State) : Host.Outcome State Fault Refusal :=
  let u := unitOf s.cur
  .next (match s.streamAt u immn with
    | none => s.trapCause cStream
    | some x =>
      match x.stopped, x.tileOf s.cur with
      | false, some t => s.takeSlot u immn d x t
      | _, _ => s.trapCause cStream)

/-- The pending nodes that a returned slot forces: readers of an STRM slot, writers of an STRMW slot. -/
def State.slotNodes (s : State) (x : Stream) (g : Nat) : List Nat :=
  let lo := scratchBase s.cur + fld (wd x.desc 3) 0 21 + Desc.slotOff x.desc g
  let r : Run := (lo, lo + Desc.slotBytes x.desc)
  (s.tileAt s.cur).order.filter fun n =>
    match s.nodeAt s.cur n with
    | some y => (if x.back then [s.span s.cur true y.dst] else s.srcSpans s.cur y.srcs).any fun z => z.meets r
    | none => false

/-- The oldest slot taken is returned. -/
def State.returnSlot (s : State) (u sid : Nat) (x : Stream) (t : StreamTile) : State :=
  if t.taken ≤ t.returned then s.trapCause cStream
  else
    match s.slotNodes x t.returned with
    | [] => ((s.putStream u sid (x.modTile s.cur fun y => { y with returned := y.returned + 1 })).retire).push
        [if x.back then .strmwSlotWriteback u sid else .streamSlotWrite u sid]
    | ns => s.forceFirst s.cur ns

def execSlotAck (_pfx : Pfx) (immn : Nat) (s : State) : Host.Outcome State Fault Refusal :=
  let u := unitOf s.cur
  .next (match s.streamAt u immn with
    | none => s.trapCause cStream
    | some x =>
      match x.stopped, x.tileOf s.cur with
      | false, some t => s.returnSlot u immn x t
      | _, _ => s.trapCause cStream)

def execSlotEnd (_pfx : Pfx) (d immn : Nat) (s : State) : Host.Outcome State Fault Refusal :=
  let u := unitOf s.cur
  .next (match s.streamAt u immn with
    | none => s.trapCause cStream
    | some x =>
      if x.stopped then s.trapCause cStream
      else if x.finished then (s.putStream u immn { x with freed := true }).answer d (x.status.setWidth 64)
      else s)

/-! ### Stopping (R377, R392) -/

/-- A partition's running streams of one unit, with their SIDs. -/
def State.runningStreams (s : State) (p u : Nat) : List (Nat × Stream) :=
  (s.unitAt u).streams.filter fun e => e.2.part == some p && e.2.running

/-- One stream stops, with its record. -/
def State.stopStream (s : State) (u : Nat) (e : Nat × Stream) : State :=
  (s.putStream u e.1 { e.2 with stopped := true }).workRecord e.2.core e.2.part e.2.bead
    { cause := cStream, path := .device, late := true, cpc := some e.2.cpc }

/-- Every running stream of a partition stops. -/
def State.stopStreams (s : State) (p : Nat) : State :=
  (List.range 48).foldl (fun t u => (t.runningStreams p u).foldl (fun a e => a.stopStream u e) t) s

/-! ### The device steps -/

def execStreamSlotWrite (s : State) : Host.Outcome State Fault Refusal :=
  match s.msg with
  | some (.streamSlotWrite clu sid) => .next (s.streamSlotWrite clu sid)
  | _ => .next s

def execStrmwSlotWriteback (s : State) : Host.Outcome State Fault Refusal :=
  match s.msg with
  | some (.strmwSlotWriteback clu sid) => .next (s.strmwSlotWriteback clu sid)
  | _ => .next s

end Sys2Proof.Machine
end

