-- ==== Sys2Proof/Machine/Retire.lean ====
section
/-! DEFINITION. Retirement (R392, R393) and the discarding of beads (R383, R392). -/

namespace Sys2Proof.Machine

def cDiscarded : Nat := 0x37

/-! ### Discarding beads -/

/-- The beads of a rod that are not running: ready ones in order, then parked ones. -/
def Rod.waiting (r : Rod) : List Nat := r.ready ++ (r.slots.filter fun e => e.2.use == .parked).map Prod.fst

/-- A bead leaves its rod, its park entry and its demand region; no join word changes. -/
def State.discardSlot (s : State) (b : SlotId) : State :=
  ((s.modRod b.unit b.rod fun r => { r with
    slots := Map.del r.slots b.slot
    ready := r.ready.filter (· != b.slot)
    buffered := if r.ready.contains b.slot then r.buffered - 1 else r.buffered }).removePark b).dropRegions b

/-- Discards a rod's waiting beads, `told` writing the record of each. -/
def State.discardRod (s : State) (u r : Nat) (told : State → SlotId → State) : State :=
  match s.rodAt u r with
  | none => s
  | some rod => rod.waiting.foldl (fun t n => told (t.discardSlot ⟨u, r, n⟩) ⟨u, r, n⟩) s

/-- The overflow entries of a rod go, each told. -/
def State.discardOverflow (s : State) (u r : Nat) (told : State → State) : State :=
  let mine := (s.unitAt u).overflow.filter fun o => o.rod == r
  mine.foldl (fun t _ => told t) (s.putLists u { s.unitAt u with overflow := (s.unitAt u).overflow.filter fun o => o.rod != r })

/-! ### The checks of R392 -/

/-- A finding's record: PATH 6, LATE 1. -/
def State.findRecord (s : State) (p : Nat) (idx idy : Nat) (bead : Word) (cause : Nat) : State :=
  match s.partAt p with
  | none => s
  | some x =>
    (s.partRecord p (recordWords x.world idx idy bead { cause := cause, path := .device, late := true } 0)).1

/-- What a tile still holds: a cause for each handle, Pleat entry and armed barrier register. -/
def State.findings (s : State) (k : Nat) : List Nat :=
  let t := s.tileAt k
  (s.coreAt k).a.map (fun _ => cHeldAcc) ++ t.nodes.map (fun _ => cPendTile) ++
    (t.bars.filter fun e => e.2.arr).map fun _ => cBarrier

/-- A tile's findings are recorded and cleared. -/
def State.checkTile (s : State) (p k : Nat) : State :=
  let t := s.tileAt k
  let s1 := (s.findings k).foldl (fun a c => a.findRecord p t.idx t.idy 0 c) s
  (s1.dropTileWork k).modTile k fun t => { t with bars := t.bars.filter fun e => !e.2.arr, routers := [] }

/-- A rod's beads are recorded and discarded. -/
def State.checkRod (s : State) (p u r : Nat) : State :=
  (s.discardRod u r fun t b => t.findRecord p 0 0 (t.slotAddr b) cDiscarded).discardOverflow u r
    fun t => t.findRecord p 0 0 0 cDiscarded

/-- The units that hold rods of a partition. -/
def Part.units (x : Part) : List Nat := (x.tiles.map unitOf).eraseDups

def State.checkPart (s : State) (p : Nat) (x : Part) : State :=
  let s1 := x.tiles.foldl (fun t k => t.checkTile p k) s
  x.units.foldl (fun t u => ((t.unitAt u).rodsOf (some p)).foldl (fun a r => a.checkRod p u r) t) s1

/-! ### Retirement -/

/-- No core of the rectangle works, and no copy and no PKL request of the partition is outstanding; EVU requests are served
before any timer. -/
def State.quiet (s : State) (p : Nat) (x : Part) : Bool :=
  (x.tiles.all fun k => (s.coreAt k).mode == .idle || (s.coreAt k).mode == .off) &&
  (s.copies.all fun e => e.2.part != some p) && s.requests.all fun q => q.part != some p

/-- Snapshot, post and ramp-down (R392, steps 3 to 5).  R69 gives a command one completion entry; of a host kernel that PRST has
ended with STAT 5 and CTXRS has restored nothing is said, and the model posts a second one (DESIGN CHOICE, log 62). -/
def State.finishPart (s : State) (p : Nat) (stat : Nat) : State :=
  match s.partAt p with
  | none => s
  | some x => ((s.postLaunch x.launcher stat x.enk (s.cyc - x.startCyc)).startRampDown p).push [.launchRetry]

/-- RETIREMENT_QUIESCE_COMPLETE.  STAT is 1 where the streams stopped (step 1) or the findings (step 2) have written a record; one of
a bead that still ran in the quiesce does not count (R392). -/
def State.retirementQuiesceComplete (s : State) (part : Nat) : State :=
  match s.partAt part with
  | none => s
  | some x =>
    if x.phase ≠ .quiesce then s
    else if !s.quiet part x then s.arm [.retirementQuiesceComplete part]
    else
      let s1 := ((s.putPart part { x with recorded := false }).stopStreams part).checkPart part x
      let found := match s1.partAt part with | some y => y.recorded | none => false
      s1.finishPart part (if found then 1 else 0)

def execRetirementQuiesceComplete (s : State) : Host.Outcome State Fault Refusal :=
  match s.msg with
  | some (.retirementQuiesceComplete part) => .next (s.retirementQuiesceComplete part)
  | _ => .next s

end Sys2Proof.Machine
end

