-- ==== Sys2Proof/Machine/System.lean ====
section
/-! DEFINITION. Page 6 but for saved images: TRAP, ERET, WSW, TLBI, IDLE, MCACK, PDRN, PRST (R365-R378, R382, R384); the
watchdog (R374), machine checks (R146, R375), forced saves and drains. -/

namespace Sys2Proof.Machine

/-! ### TRAP, WSW, ERET (R370-R372) -/

/-- TRAP and WSW: the trap resumes after the chain; the instruction counts as committed (log 33). -/
def State.callTrap (s : State) (cause code : Nat) : State :=
  let c := s.me
  (s.setMe { c with icnt := c.icnt + 1, chkRun := 0 }).trapEntry s.cur { cause := cause, info := code } c.npc

def execTrap (_pfx : Pfx) (immn : Nat) (s : State) : Host.Outcome State Fault Refusal := .next (s.callTrap 0x01 immn)

/-- WSW in the secure world is an illegal instruction (R365). -/
def execWsw (_pfx : Pfx) (immn : Nat) (s : State) : Host.Outcome State Fault Refusal :=
  .next (if s.me.world then s.trapCause cIllegal else s.callTrap 0x02 immn)

def execEret (_pfx : Pfx) (s : State) : Host.Outcome State Fault Refusal :=
  .next (if s.me.inh then s.setMe s.me.eret else s.trapCause cIllegal)

/-! ### TLBI (R384) -/

/-- The cores whose TLBs a scope names.  A link core or a steward core belongs to no cluster, and what TLBI.clu names there the
manual does not say: the model takes the issuing core alone (DESIGN CHOICE, log 60). -/
def State.scopeCores (s : State) (sc : Scope) : List Nat :=
  match sc with
  | .tile => [s.cur]
  | .clu => unitCores (unitOf s.cur)
  | .die => (List.range 416).filter fun k => dieOf k == dieOf s.cur
  | _ => List.range 416

/-- Drops the entries that a test names from the TLBs of cores. -/
def State.dropTlb (s : State) (ks : List Nat) (hit : TlbEntry → Bool) : State :=
  ks.foldl (fun (t : State) (k : Nat) => t.modCore k fun c => { c with tlb := c.tlb.filter fun e => !hit e }) s

/-- A leaf of either size covers an address. -/
def TlbEntry.covers (e : TlbEntry) (a : Nat) : Bool := e.base == (if e.big then a / 2 ^ 21 * 2 ^ 21 else a / 2 ^ 16 * 2 ^ 16)

def execTlbi (_pfx : Pfx) (sc : Scope) (s : State) : Host.Outcome State Fault Refusal :=
  .next (s.secureOnly ((s.dropTlb (s.scopeCores sc) fun _ => true).retire))

def execTlbiVa (_pfx : Pfx) (sc : Scope) (a : Nat) (s : State) : Host.Outcome State Fault Refusal :=
  .next (s.secureOnly ((s.dropTlb (s.scopeCores sc) fun e => e.covers (fld (s.sr a) 0 52)).retire))

/-! ### IDLE and MCACK (R373, R376) -/

/-- The oldest event goes; a held one takes the place. -/
def Die.popEvent (d : Die) : Die := { d with events := d.events.tail ++ d.held.take 1, held := d.held.drop 1 }

def execIdle (_pfx : Pfx) (d : Nat) (s : State) : Host.Outcome State Fault Refusal :=
  let die := dieOf s.cur
  .next (s.secureOnly (match (s.dieAt die).events with
    | [] => s
    | w :: _ => (s.modDie die Die.popEvent).answer d w))

def execMcack (_pfx : Pfx) (a : Nat) (s : State) : Host.Outcome State Fault Refusal :=
  let n := fld (s.sr a) 0 40
  .next (s.secureOnly ((s.modDie (dieOf s.cur) fun d => { d with checks := d.checks.filter fun c => c.1 != n }).retire))

/-! ### The watchdog (R374) -/

/-- The watchdog count of a core at this moment. -/
def State.wdNow (s : State) (k : Nat) : Nat := (s.coreAt k).wdCount + (s.cyc - (s.coreAt k).wdFrom).toNat

/-- ROD_WATCHDOG_EXPIRY: the count of the running bead is looked at; one event when it has reached WDOG. -/
def State.rodWatchdogExpiry (s : State) (core : Nat) : State :=
  let c := s.coreAt core
  match c.bead with
  | none => s
  | some b =>
    match s.rodAt b.unit b.rod with
    | none => s
    | some rod =>
      if rod.wdog = 0 ∨ c.wdSent then s
      else if s.wdNow core < rod.wdog then s.arm [.rodWatchdogExpiry core]
      else
        (s.modCore core fun c => { c with wdSent := true }).postFree (s.stewardDie core) 1 (s.partOf core) b.rod

/-! ### Machine checks (R26, R146, R375) -/

/-- The number of a die row in its die's list of shifted rows. -/
def rowNo (y : Nat) : Nat := y % 8

/-- Tiles that are in service: not fenced. -/
def State.tilesInService (s : State) : Nat := ((List.range 384).filter fun k => !(s.tileAt k).fenced).length

/-- The tile is fenced; in a row that has been shifted it stays so, and the host hears of the tiles that are left (R28).  A
link core or a steward core leaves service. -/
def State.fence (s : State) (k : Nat) : State :=
  if isTile k then
    let s1 := s.modTile k fun t => { t with fenced := true }
    if (s.dieAt (dieOf k)).shifted.contains (rowNo (tileY k)) && !(s.tileAt k).fenced then s1.emit (.repair s1.tilesInService)
    else s1
  else s.modCore k fun c => { c with mode := .off }

/-- The end of the run: with R = 1 the bead re-enters the head of its rod, with R = 0 its slot is lost. -/
def State.endByCheck (s : State) (k : Nat) : State :=
  match (s.coreAt k).bead with
  | none => if (s.coreAt k).mode = .off then s else s.modCore k Core.rest
  | some b =>
    match s.slotAt b with
    | none => s.loseBead k
    | some x =>
      if bitOf x.record.w3 34 then (((s.dropTileWork k).modCore k Core.rest).appendHead b x.record x.uid) else s.loseBead k

/-- MACHINE_CHECK: a record and a number held until MCACK. -/
def State.machineCheck (s : State) (core : Nat) : State :=
  let s1 := s.record core { cause := 0x36 } (s.coreAt core).pc
  let s2 := s1.postCheck (s1.stewardDie core) (s1.partOf core) core
  (s2.endByCheck core).fence core

/-! ### Forced saves (R378) -/

/-- A running core's state goes to its tile's save area, SPN to the record (R47), the evaluation under way abandoned
(R240).  Outcomes not yet reported stay with the bead (R377).  Lookahead windows are closed: R99 says so of a trap entry only,
and R378 does not list windows (DESIGN CHOICE, log 60). -/
def State.forcedSave (s : State) (k : Nat) : State :=
  let c := s.coreAt k
  let saved : Core := { c with wdCount := s.wdNow k, wdFrom := s.cyc, windows := [], nextWin := [], chkRun := 0 }
  let s1 := s.modTile k fun t => { t.abandon with saved := some saved }
  let s2 := match c.bead with
    | some b => (match s1.slotAt b with
        | some x =>
          (s1.putSlot b { x with use := .saved, record := { x.record with w3 := setFld x.record.w3 0 32 c.spn.toNat } }).wroteSlot b
        | none => s1)
    | none => s1
  s2.putCore k { (Core.rest c) with a := [] }

/-- A saved bead resumes on its tile (R377). -/
def State.resumeSaved (s : State) (k : Nat) : State :=
  let t := s.tileAt k
  match (if t.fenced then none else t.saved) with
  | none => s
  | some c =>
    let live := s.coreAt k
    let s1 := s.putCore k { c with
      mode := .running, wdFrom := s.cyc, ent := live.ent, scb := live.scb, tlb := live.tlb, chkMiss := live.chkMiss }
    let s2 := s1.modTile k fun t => { t with saved := none }
    let s3 := match c.bead with
      | some b => (match s2.slotAt b with | some x => s2.putSlot b { x with use := .running k } | none => s2)
      | none => s2
    s3.armWatchdog k

/-! ### PDRN (R377) -/

/-- The partition that a PDRN or PRST of the executing core acts on: the steward of its north-west tile's die. -/
def State.pdrnPart (s : State) (a : Nat) : Option (Nat × Part) :=
  let p := fld (s.sr a) 0 8
  match s.partAt p with
  | some x => if s.cur = 416 + x.die then some (p, x) else none
  | none => none

/-- The cores of a partition that run a bead. -/
def State.busyCores (s : State) (x : Part) : List Nat := x.tiles.filter fun k => (s.coreAt k).bead.isSome

/-- The steward waits for the drain; a retirement that has begun waits too (log 34). -/
def State.beginDrain (s : State) (p d : Nat) (wait : Option (Word × Word)) (ended : Nat) (prq : Bool) : State :=
  let s1 := s.modPart p fun x => { x with
    phase := .draining wait, retiring := x.retiring || x.phase == .quiesce, pdrn := some (s.cur, d), ended := ended, prq := prq }
  (s1.setMe { s1.me with mode := .waiting }).arm
    ((match wait with | some _ => [.pdrnDeadlineExpiry p] | none => []) ++ [.drainComplete p])

/-- PDRN.SAVE: the partition is placed and not drained.  One whose kernel has retired and that ramps down has nothing to
save or to drain (log 34). -/
def execPdrnSave (_pfx : Pfx) (d a b : Nat) (s : State) : Host.Outcome State Fault Refusal :=
  .next (s.secureOnly (match s.pdrnPart a with
    | none => s.answer d (BitVec.allOnes 64)
    | some (p, x) =>
      if x.phase = .drained then s.answer d (BitVec.allOnes 64)
      else if x.phase = .rampDown then s.answer d 0
      else s.beginDrain p d (some (s.cyc, s.sr b)) 0 true))

/-- A running or saved bead of a tile ends: its slot lost, no event (R377). -/
def State.killTile (s : State) (k : Nat) : State :=
  match (s.tileAt k).saved with
  | some c =>
    let s1 := (s.modTile k fun t => { t with saved := none }).dropTileWork k
    (match c.bead with
    | some b => (match s1.slotAt b with | some x => s1.putSlot b { x with use := .lost } | none => s1)
    | none => s1)
  | none => if (s.coreAt k).bead.isSome then s.loseBead k else s

/-- PDRN.KILL: the partition is placed, drained or not. -/
def execPdrnKill (_pfx : Pfx) (d a : Nat) (s : State) : Host.Outcome State Fault Refusal :=
  .next (s.secureOnly (match s.pdrnPart a with
    | none => s.answer d (BitVec.allOnes 64)
    | some (p, x) =>
      if x.phase = .rampDown then s.answer d 0
      else
        let mine := x.tiles.filter fun k => (s.coreAt k).bead.isSome || (s.tileAt k).saved.isSome
        (mine.foldl State.killTile s).beginDrain p d none mine.length false))

def execPdrnRun (_pfx : Pfx) (d a : Nat) (s : State) : Host.Outcome State Fault Refusal :=
  .next (s.secureOnly (match s.pdrnPart a with
    | none => s.answer d (BitVec.allOnes 64)
    | some (p, x) =>
      if x.phase ≠ .drained then s.answer d (BitVec.allOnes 64)
      else
        let s1 := if x.retiring
          then (s.putPart p { x with phase := .quiesce, retiring := false }).arm [.retirementQuiesceComplete p]
          else s.putPart p { x with phase := .running }
        let s2 := ((x.tiles.foldl State.resumeSaved s1).startRampUp p).push (x.units.map Ev.pickupGrant)
        s2.answer d 0))

/-- PDRN_DEADLINE_EXPIRY: the cores still running are saved. -/
def State.pdrnDeadlineExpiry (s : State) (part : Nat) : State :=
  match s.partAt part with
  | none => s
  | some x =>
    match x.phase with
    | .draining (some (t0, n)) =>
      if (s.cyc - t0).toNat < n.toNat then s.arm [.pdrnDeadlineExpiry part]
      else
        let busy := s.busyCores x
        (busy.foldl State.forcedSave s).modPart part fun y =>
          { y with ended := y.ended + busy.length, phase := .draining none }
    | _ => s

/-- The PDRN's answer reaches the steward that waits for it. -/
def State.pdrnAnswer (s : State) (w : Option (Nat × Nat)) (v : Word) : State :=
  match w with
  | none => s
  | some (k, d) =>
    if (s.coreAt k).mode = .waiting then s.modCore k fun c => { (c.setS d v).commit with mode := .running } else s

/-- DRAIN_COMPLETE: when nothing of the partition is under way, its streams stop and it is drained. -/
def State.drainComplete (s : State) (part : Nat) : State :=
  match s.partAt part with
  | none => s
  | some x =>
    match x.phase with
    | .draining _ =>
      if !s.quiet part x then s.arm [.drainComplete part]
      else
        let s1 := (s.stopStreams part).modPart part fun y => { y with phase := .drained, prq := false, pdrn := none }
        let s2 : State := { s1 with timers := s1.timers.filter (· != .pdrnDeadlineExpiry part) }
        s2.pdrnAnswer x.pdrn (BitVec.ofNat 64 x.ended)
    | _ => s

/-! ### PRST (R382) -/

/-- Zeroes a tile's scratchpad and its metadata, and resets SCB (R382). -/
def State.clearScratch (s : State) (k : Nat) : State :=
  let lo := scratchBase k
  let s1 : State := { s with
    mem := Map.dropRange s.mem lo (2 ^ 21)
    gmeta := Map.dropRange s.gmeta (lo / 32) (2 ^ 16)
    poison := s.poison.filter fun g => !(decide (lo / 32 ≤ g) && decide (g < lo / 32 + 2 ^ 16)) }
  s1.modCore k fun c => { c with scb := scbReset k }

/-- The registers of a core at their reset values after a reset of its partition (R6); what no partition owns stays. -/
def Core.resetPart (c : Core) (k : Nat) : Core :=
  { Core.reset k with mode := c.mode, ent := c.ent, tlb := c.tlb, chkMiss := c.chkMiss }

/-- The statistics of TSTAT at their reset values (R239). -/
def Tile.zeroStats (t : Tile) : Tile := { t with tev := 0, retry := 0, afrc := 0, ofrc := 0, drop := 0 }

/-- Steps 1 and 2 of PRST on a tile, and its registers (R6). -/
def State.resetTile (s : State) (k : Nat) : State :=
  (((s.clearScratch k).dropTileWork k).modTile k fun t => { t.resetBars.unidentify.zeroStats with saved := none }).modCore k
    fun c => c.resetPart k

/-- Step 3 for a unit: the rods' beads, park and overflow entries go, and the rods take no bead any more. -/
def State.emptyRods (s : State) (p u : Nat) : State :=
  ((s.unitAt u).rodsOf (some p)).foldl (fun (t : State) (r : Nat) =>
    match t.rodAt u r with
    | none => t
    | some rod =>
      let t1 := rod.slots.foldl (fun (a : State) (e : Nat × BeadSlot) => a.discardSlot ⟨u, r, e.1⟩) t
      (t1.discardOverflow u r id).modRod u r fun y => { y with freed := true }) s

/-- The records of a partition's beads: in its rods' slots, and on the overflow list behind them. -/
def State.partRecords (s : State) (p : Nat) (x : Part) : List BeadRec :=
  x.units.flatMap fun u => ((s.unitAt u).rodsOf (some p)).flatMap fun r =>
    (match s.rodAt u r with | some rod => rod.slots.map fun e => e.2.record | none => []) ++
      ((s.unitAt u).overflow.filter fun o => o.rod == r).map Overflow.record

/-- Steps 1 to 4 of PRST. -/
def State.emptied (s : State) (p : Nat) (x : Part) : State :=
  let s1 := x.tiles.foldl State.resetTile s
  let s2 := x.units.foldl (fun (t : State) (u : Nat) => t.emptyRods p u) s1
  (s.partRecords p x).foldl State.returnEntry s2

def State.resetPart (s : State) (p : Nat) (x : Part) : State := (s.emptied p x).finishPart p 5

def execPrst (_pfx : Pfx) (a : Nat) (s : State) : Host.Outcome State Fault Refusal :=
  .next (s.secureOnly (match s.pdrnPart a with
    | none => s.retire
    | some (p, x) => if x.phase = .drained then (s.resetPart p x).retire else s.retire))

/-! ### The device steps -/

def execRodWatchdogExpiry (s : State) : Host.Outcome State Fault Refusal :=
  match s.msg with
  | some (.rodWatchdogExpiry core) => .next (s.rodWatchdogExpiry core)
  | _ => .next s

def execMachineCheck (s : State) : Host.Outcome State Fault Refusal :=
  match s.msg with
  | some (.machineCheck core) => .next (s.machineCheck core)
  | _ => .next s

def execPdrnDeadlineExpiry (s : State) : Host.Outcome State Fault Refusal :=
  match s.msg with
  | some (.pdrnDeadlineExpiry part) => .next (s.pdrnDeadlineExpiry part)
  | _ => .next s

def execDrainComplete (s : State) : Host.Outcome State Fault Refusal :=
  match s.msg with
  | some (.drainComplete part) => .next (s.drainComplete part)
  | _ => .next s

end Sys2Proof.Machine
end

