-- ==== Sys2Proof/Machine/Image.lean ====
section
/-! DEFINITION. The bytes of a saved partition image (R379, R380): coded pages, and the bodies that the manual leaves to the
device (log 18). -/

namespace Sys2Proof.Machine

/-! ### Coded pages (R380) -/

/-- The code and the payload of a 64-byte line. -/
def codeLine (bs : List Byte) : Nat × List Byte :=
  let w := bs.take 8
  if bs.all (· == 0) then (0, [])
  else if bs == (List.replicate 8 w).flatten then (1, w)
  else (2, bs)

/-- A coded page: map, metadata with D written as 0, payloads. -/
def codePage (bs : List Byte) (metas : List (BitVec 12)) : List Byte :=
  let lines := (List.range 64).map fun n => codeLine ((bs.drop (64 * n)).take 64)
  let map := lines.zipIdx.foldl (fun (m : Nat) (e : (Nat × List Byte) × Nat) => m + e.1.1 * 4 ^ e.2) 0
  leBytes 16 map ++ metas.flatMap (fun m => leBytes 2 (mkMeta false (metaW m) (metaF m) (metaTag m)).toNat) ++
    lines.flatMap Prod.snd

/-- The lines of a coded page from its codes and payloads; none for code 3 or a body that is too short. -/
def decodeLines : List Nat → List Byte → Option (List Byte)
  | [], _ => some []
  | c :: cs, bs =>
    let r (line : List Byte) (used : Nat) : Option (List Byte) := (decodeLines cs (bs.drop used)).map fun rest => line ++ rest
    match c with
    | 0 => r (List.replicate 64 0) 0
    | 1 => if bs.length < 8 then none else r (List.replicate 8 (bs.take 8)).flatten 8
    | 2 => if bs.length < 64 then none else r (bs.take 64) 64
    | _ => none

/-- A page's 4,096 bytes and its granules' metadata. -/
def decodePage (body : List Byte) : Option (List Byte × List (BitVec 12)) :=
  if body.length < 272 then none
  else
    let map := leNat (body.take 16)
    let metas := (List.range 128).map fun g => BitVec.ofNat 12 (leNat ((body.drop (16 + 2 * g)).take 2))
    (decodeLines ((List.range 64).map fun n => map / 4 ^ n % 4) (body.drop 272)).map fun bs => (bs, metas)

/-! ### Sections (R379) -/

/-- A section of an image. -/
structure ImgSection where
  kind : Nat
  idx : Nat := 0
  idy : Nat := 0
  loc : Word := 0
  body : List Byte := []
deriving DecidableEq, Repr

/-- Zeros up to a multiple of 16 bytes. -/
def padBody (bs : List Byte) : List Byte := bs ++ List.replicate ((16 - bs.length % 16) % 16) 0

def ImgSection.bytes (x : ImgSection) : List Byte :=
  let b := padBody x.body
  leBytes 8 (x.kind * 2 ^ 56 + x.idx * 2 ^ 40 + x.idy * 2 ^ 36 + b.length) ++ leBytes 8 x.loc.toNat ++ b

/-! ### Words of wide registers and tables -/

def boolNat (b : Bool) : Nat := b.toNat

def nw (n : Nat) : Word := BitVec.ofNat 64 n

/-- The words of a register, lowest first. -/
def wideWords {w : Nat} (n : Nat) (x : BitVec w) : List Word := (List.range n).map fun i => nw (x.toNat / 2 ^ (64 * i) % 2 ^ 64)

/-- The number that words make. -/
def wordsNat : List Word → Nat
  | [] => 0
  | w :: ws => w.toNat + 2 ^ 64 * wordsNat ws

def sliceNat (ws : List Word) (i n : Nat) : Nat := wordsNat ((ws.drop i).take n)

/-! ### Core state (KIND 0x02) -/

/-- A record as an image holds it, without its Reserved bits (R7). -/
def savedRec (x : BeadRec) : BeadRec := { x with w3 := clearFlds x.w3 [(54, 10), (35, 13)] }

/-- A saved core with its bead's rod index and record. -/
def coreWords (c : Core) (rodk : Nat) (x : BeadRec) : List Word :=
  [c.pc, c.flg.setWidth 64, c.icnt, c.epc, c.ecause, c.eaddr, c.erec, nw (2 * boolNat c.pw + boolNat c.inh), c.esav0, c.esav1,
   c.esav2, c.esav3, c.spn.setWidth 64, nw c.wdCount, nw (2 * boolNat c.world + boolNat c.wdSent), nw rodk,
   nw (boolNat x.evu)] ++ wordsOfRec (savedRec x) ++
  (List.range 64).map c.sReg ++ (List.range 32).flatMap (fun i => wideWords 16 (c.vReg i)) ++
  (List.range 8).flatMap (fun i => wideWords 2 (c.pReg i)) ++
  (List.range 16).flatMap (fun i => match c.tReg i with | some t => 1 :: wideWords 4 t | none => List.replicate 5 0) ++
  (List.range 16).map fun i => match c.aReg i with | some r => nw (2 ^ 63 + r.1 * 2 ^ 16 + r.2) | none => 0

/-- Where the parts of a core body begin, in words. -/
def coreS : Nat := 25
def coreV : Nat := 89
def coreP : Nat := 601
def coreT : Nat := 617
def coreA : Nat := 697
def coreLen : Nat := 713

/-- A core from the words of its body; the tile's own parts stay as they are. -/
def coreOfWords (live : Core) (ws : List Word) : Core :=
  let c0 : Core := { live with
    s := [], v := [], p := [], t := [], a := [], pc := wd ws 0, flg := (wd ws 1).setWidth 5, icnt := wd ws 2, epc := wd ws 3,
    ecause := wd ws 4, eaddr := wd ws 5, erec := wd ws 6, pw := bitOf (wd ws 7) 1, inh := bitOf (wd ws 7) 0,
    esav0 := wd ws 8, esav1 := wd ws 9, esav2 := wd ws 10, esav3 := wd ws 11, spn := (wd ws 12).setWidth 32,
    wdCount := (wd ws 13).toNat, world := bitOf (wd ws 14) 1, wdSent := bitOf (wd ws 14) 0,
    windows := [], nextWin := [], chkRun := 0 }
  let c1 := (List.range 64).foldl (fun (c : Core) (i : Nat) => c.setS i (wd ws (coreS + i))) c0
  let c2 := (List.range 32).foldl (fun (c : Core) (i : Nat) => c.setV i (BitVec.ofNat 1024 (sliceNat ws (coreV + 16 * i) 16))) c1
  let c3 := (List.range 8).foldl (fun (c : Core) (i : Nat) => c.setP i (BitVec.ofNat 128 (sliceNat ws (coreP + 2 * i) 2))) c2
  let c4 := (List.range 16).foldl (fun (c : Core) (i : Nat) =>
    if wd ws (coreT + 5 * i) = 0 then c else c.setT i (BitVec.ofNat 256 (sliceNat ws (coreT + 5 * i + 1) 4))) c3
  (List.range 16).foldl (fun (c : Core) (i : Nat) =>
    let w := wd ws (coreA + i)
    if bitOf w 63 then c.setA i (fld w 16 16, fld w 0 16) else c) c4

/-- The bead's rod index and record in a core body. -/
def coreRod (ws : List Word) : Nat := (wd ws 15).toNat
def coreRec (ws : List Word) : BeadRec := { recOfWords (ws.drop 17) with evu := bitOf (wd ws 16) 0 }

/-! ### Pleat table (KIND 0x05) -/

def actNat : ActFn → Nat
  | .relu => 0 | .sigm => 1 | .silu => 2 | .tanh => 3 | .gelu => 4

def actOf : Nat → ActFn
  | 0 => .relu | 1 => .sigm | 2 => .silu | 3 => .tanh | _ => .gelu

def opWords : NodeOp → List Word
  | .mul => [0, 0, 0] | .mula => [1, 0, 0]
  | .add a b => [2, nw a, nw b] | .sub a b => [3, nw a, nw b] | .mule a b => [4, nw a, nw b]
  | .scl f => [5, f.setWidth 64, 0] | .bias => [6, 0, 0] | .divr => [7, 0, 0]
  | .act f => [8, nw (actNat f), 0]
  | .exp e l => [9, nw (boolNat e), nw (boolNat l)]
  | .rmax => [10, 0, 0] | .rsum => [11, 0, 0] | .scan => [12, 0, 0]
  | .mask k z => [13, BitVec.ofInt 64 k, nw (boolNat z)]
  | .rot t i => [14, nw t, nw (boolNat i)]
  | .qnt => [15, 0, 0] | .copy a b => [16, nw a, nw b] | .trn => [17, 0, 0]

def opOf (t : Nat) (a b : Word) : NodeOp :=
  match t with
  | 0 => .mul | 1 => .mula
  | 2 => .add a.toNat b.toNat | 3 => .sub a.toNat b.toNat | 4 => .mule a.toNat b.toNat
  | 5 => .scl (a.setWidth 32) | 6 => .bias | 7 => .divr
  | 8 => .act (actOf a.toNat)
  | 9 => .exp (bitOf a 0) (bitOf b 0)
  | 10 => .rmax | 11 => .rsum | 12 => .scan
  | 13 => .mask a.toInt (bitOf b 0)
  | 14 => .rot a.toNat (bitOf b 0)
  | 15 => .qnt | 16 => .copy a.toNat b.toNat | _ => .trn

def snapWords (v : Snap) : List Word :=
  wideWords 4 v.desc ++ [nw v.bank.1, nw v.bank.2] ++
    (match v.index with | some d => 1 :: wideWords 4 d | none => List.replicate 5 0)

def snapOf (ws : List Word) : Snap :=
  { desc := BitVec.ofNat 256 (sliceNat ws 0 4), bank := ((wd ws 4).toNat, (wd ws 5).toNat)
    index := if wd ws 6 = 0 then none else some (BitVec.ofNat 256 (sliceNat ws 7 4)) }

def heldWords (h : Nat × List Int) : List Word := [nw h.1, nw h.2.length] ++ h.2.map (BitVec.ofInt 64)

/-- A node: a fixed part of 28 words, then its sources, then the index elements that it holds. -/
def nodeWords (e : Nat × Node) : List Word :=
  let n := e.2
  [nw e.1, n.seq.setWidth 64, n.apc] ++ opWords n.op ++ [nw (4 * boolNat n.relu + n.rm)] ++ wideWords 2 n.link ++
    wideWords 8 n.done ++ snapWords n.dst ++ [nw n.srcs.length, nw n.held.length] ++ n.srcs.flatMap snapWords ++
    n.held.flatMap heldWords

/-- The held index elements at the head of a list of words, and the rest. -/
def readHeld : Nat → List Word → Table (List Int) × List Word
  | 0, ws => ([], ws)
  | k + 1, ws =>
    let n := (wd ws 1).toNat
    let r := readHeld k (ws.drop (2 + n))
    (((wd ws 0).toNat, ((ws.drop 2).take n).map BitVec.toInt) :: r.1, r.2)

/-- The nodes at the head of a list of words. -/
def readNodes : Nat → List Word → Table Node
  | 0, _ => []
  | k + 1, ws =>
    let ns := (wd ws 28).toNat
    let h := readHeld (wd ws 29).toNat (ws.drop (30 + 11 * ns))
    let n : Node :=
      { seq := (wd ws 1).setWidth 32, apc := wd ws 2, op := opOf (wd ws 3).toNat (wd ws 4) (wd ws 5),
        relu := bitOf (wd ws 6) 2, rm := fld (wd ws 6) 0 2, dst := snapOf (ws.drop 17),
        srcs := (List.range ns).map fun i => snapOf (ws.drop (30 + 11 * i)),
        link := BitVec.ofNat 128 (sliceNat ws 7 2), done := BitVec.ofNat 512 (sliceNat ws 9 8), held := h.1 }
    ((wd ws 0).toNat, n) :: readNodes k h.2

/-- A tile's table: counts, statistics, the order, the nodes. -/
def pleatWords (t : Tile) : List Word :=
  [nw t.nodes.length, t.seq.setWidth 64, nw t.tev, nw t.retry, nw t.afrc, nw t.ofrc, nw t.drop, nw t.order.length] ++
    t.order.map nw ++ t.nodes.flatMap nodeWords

/-- A tile that takes a saved table. -/
def Tile.withPleat (t : Tile) (ws : List Word) : Tile :=
  let k := (wd ws 7).toNat
  { t with
    nodes := readNodes (wd ws 0).toNat (ws.drop (8 + k)), seq := (wd ws 1).setWidth 32, tev := (wd ws 2).toNat,
    retry := (wd ws 3).toNat, afrc := (wd ws 4).toNat, ofrc := (wd ws 5).toNat, drop := (wd ws 6).toNat,
    order := ((ws.drop 8).take k).map BitVec.toNat }

/-! ### Barrier registers (KIND 0x06, R319) -/

def barWords (r : BarReg) : List Word :=
  [nw (boolNat r.arr * 2 ^ 63 + boolNat r.cfg * 2 ^ 62 + r.ph.toNat), r.cfgw.setWidth 64]

def barOf (ws : List Word) : BarReg :=
  { arr := bitOf (wd ws 0) 63, cfg := bitOf (wd ws 0) 62, ph := (wd ws 0).setWidth 32, cfgw := (wd ws 1).setWidth 37 }

/-! ### The partition (KIND 0x01) -/

def optSlot : Option SlotId → List Word
  | some b => [1, nw b.unit, nw b.rod, nw b.slot]
  | none => [0, 0, 0, 0]

def slotOf (ws : List Word) : Option SlotId :=
  if wd ws 0 = 0 then none else some ⟨(wd ws 1).toNat, (wd ws 2).toNat, (wd ws 3).toNat⟩

def streamWords : LaunchStream → List Word
  | .host => [0, 0, 0, 0] | .core k => [2, nw k, 0, 0] | .bead b => [1, nw b.unit, nw b.rod, nw b.slot]

def streamOf (ws : List Word) : LaunchStream :=
  match (wd ws 0).toNat with
  | 0 => .host
  | 1 => .bead ⟨(wd ws 1).toNat, (wd ws 2).toNat, (wd ws 3).toNat⟩
  | _ => .core (wd ws 1).toNat

def originWords (o : Origin) : List Word :=
  [nw o.core] ++ optSlot o.slot ++
    [nw (match o.part with | some p => p + 1 | none => 0), nw o.born, nw (2 * boolNat o.pworld + boolNat o.world), o.heap.1, o.heap.2.1, o.heap.2.2,
     nw o.die, o.cr, o.cpc]

def originOf_ (ws : List Word) : Origin :=
  { core := (wd ws 0).toNat, slot := slotOf (ws.drop 1), part := if wd ws 5 = 0 then none else some ((wd ws 5).toNat - 1),
    born := (wd ws 6).toNat, world := bitOf (wd ws 7) 0, pworld := bitOf (wd ws 7) 1, heap := (wd ws 8, wd ws 9, wd ws 10), die := (wd ws 11).toNat,
    cr := wd ws 12, cpc := wd ws 13 }

def launcherWords : Launcher → List Word
  | .host ctag => [0, ctag.setWidth 64]
  | .bead o => 1 :: originWords o

def launcherOf (ws : List Word) : Launcher :=
  if wd ws 0 = 0 then .host ((wd ws 1).setWidth 32) else .bead (originOf_ (ws.drop 1))

/-- The kernel descriptor, W, H, TSHAPE, RAMP, the root join pointer, the launch's place in its stream, the completion
target. -/
def partWords (x : Part) : List Word :=
  (List.range 16).map (wd x.kd) ++
    [nw x.w, nw x.h, x.tshape, nw x.rampUp, nw x.rampDn, wd x.kd 5, nw x.launch, x.startCyc, x.enk, nw (boolNat x.recorded)] ++
    streamWords x.stream ++ launcherWords x.launcher

/-- A partition from the words of its section, at an origin. -/
def partOfWords (ws : List Word) (x0 y0 born : Nat) : Part :=
  let kd := ws.take 16
  { x0 := x0, y0 := y0, w := (wd ws 16).toNat, h := (wd ws 17).toNat, world := Kd.secure kd, kd := kd, tshape := wd ws 18,
    nrod := Kd.nrod kd, launcher := launcherOf (ws.drop 30), stream := streamOf (ws.drop 26), launch := (wd ws 22).toNat,
    rampUp := (wd ws 19).toNat, rampDn := (wd ws 20).toNat, startCyc := wd ws 23,
    recorded := bitOf (wd ws 25) 0, born := born }

end Sys2Proof.Machine
end

