-- ==== Sys2Proof/Machine/Link.lean ====
section
/-! DEFINITION. Link cores: block queues, binding and unbinding (R338, R339, R383).  Link core 8d + k is core 384 + 8d + k,
unit 48 + 8d + k; its item lies at offset 32k of block 0x060 + d. -/

namespace Sys2Proof.Machine

def cQueue : Nat := 0x1E

/-! ### The binding registers -/

/-- Word `j` of a link core's item. -/
def State.linkReg (s : State) (link j : Nat) : Word := s.sysReg (0x060 + link / 8) (32 * (link % 8) + 8 * j)

def State.setLinkReg (s : State) (link j : Nat) (v : Word) : State :=
  s.setSys (0x060 + link / 8) (32 * (link % 8) + 8 * j) v

/-! ### Block queues (R339) -/

/-- The queue that a link core's LKPOP names: its number has no high bits, its QMASK bit is set. -/
def State.queueOf (s : State) (a : Word) : Option Nat :=
  let q := fld a 0 4
  if fld a 4 60 ≠ 0 ∨ !bitOf (s.linkReg (s.cur - 384) 0) q then none else some q

def State.queueAt (s : State) (die q : Nat) : BlockQueue := Map.get (s.dieAt die).queues {} q

def State.putQueue (s : State) (die q : Nat) (x : BlockQueue) : State :=
  s.modDie die fun d => { d with queues := Map.put d.queues q x }

/-- LKPOP is available on a link core only (R102). -/
def State.onLink (s : State) (r : State) : State := if isLink s.cur then r else s.trapCause cIllegal

def execLkpop (_pfx : Pfx) (d a : Nat) (s : State) : Host.Outcome State Fault Refusal :=
  .next (s.onLink (match s.queueOf (s.sr a) with
    | none => s.trapCause cQueue
    | some q =>
      let x := s.queueAt (dieOf s.cur) q
      if x.next < x.count then (s.putQueue (dieOf s.cur) q { x with next := x.next + 1 }).answer d (x.next.setWidth 64)
      else s.answer d (BitVec.allOnes 64)))

def execLkpopSet (_pfx : Pfx) (d a b : Nat) (s : State) : Host.Outcome State Fault Refusal :=
  .next (s.onLink (match s.queueOf (s.sr a) with
    | none => s.trapCause cQueue
    | some q =>
      let x := s.queueAt (dieOf s.cur) q
      (s.putQueue (dieOf s.cur) q { count := (s.sr b).setWidth 32, next := 0 }).answer d
        (BitVec.ofNat 64 (x.count.toNat - min x.next.toNat x.count.toNat))))

/-! ### Binding (R338) -/

/-- The four rods of a binding, of 64 slots, rod k at priority k. -/
def linkRods (part : Nat) (world : Bool) (wdog : Nat) : Table Rod :=
  (List.range 4).map fun k => (k, { part := some part, cap := 64, prio := k, world := world, wdog := wdog })

/-- Reads of a binding: its world's root, the heap window given. -/
def bindIssuer (link part : Nat) (world : Bool) (heap : Word × Word × Word) : Issuer :=
  { core := 384 + link, own := 384 + link, part := some part, world := world, heap := heap, steward := false, path := .c }

/-- A binding that fails leaves V at 0 and tells the steward (log 31): of the partition's die where it is placed (R20). -/
def State.bindFails (s : State) (link part : Nat) : State :=
  s.post (s.workDie (384 + link) (some part)) 3 (some part) 0 0xFFFFFFFFFF

/-- The bound core: context, rods, its initial bead in rod 0. -/
def State.bindLink (s : State) (link part : Nat) (world : Bool) (kd : List Word) (x : BeadRec) : State :=
  let k := 384 + link
  let u := 48 + link
  let s1 := s.setLinkReg link 0 (setFld (s.linkReg link 0) 63 1 1)
  let s2 := s1.putLink link { bound := true, world := world, part := part, kd := kd, born := s.tick }
  let s3 := s2.putUnit u { s2.unitAt u with rods := linkRods part world (Kd.wdog kd), pkc := [] }
  let s4 := s3.modCore k fun c => { c with world := world, ent := 0 }
  match s4.rodAt u 0 with
  | some rod => s4.enqueueNew ⟨u, 0, 0⟩ (fitRecord 0 rod x)
  | none => s4

/-! ### Unbinding (R383), binding (R338) -/

/-- A discarded bead of a link core: a record of cause 0x37 to the steward, an event of kind 6; the steward is that of the
binding's partition (R20). -/
def State.tellDiscard (s : State) (link : Nat) (b : SlotId) : State :=
  let l := s.linkAt link
  let f : FaultInfo := { cause := cDiscarded, path := .device }
  let die := s.workDie (384 + link) (some l.part)
  ((s.stewardRecord die (recordWords l.world 0x1F (link % 8) (s.slotAddr b) f 0)).1).postFree die 6 (some l.part) 0

/-- The ready and parked beads of a link core go. -/
def State.discardLink (s : State) (link : Nat) : State :=
  (List.range 4).foldl (fun t r => t.discardRod (48 + link) r fun a b => a.tellDiscard link b) s

/-- LINK_CORE_UNBIND: pickup stops; when no bead runs, the ready and parked ones go.  A binding made since stands: it has
discarded the beads of the one before. -/
def State.linkCoreUnbind (s : State) (link : Nat) : State :=
  if bitOf (s.linkReg link 0) 63 then s
  else
    let s1 := s.putLink link { s.linkAt link with bound := false }
    if (s.coreAt (384 + link)).bead.isSome then s1.arm [.linkCoreUnbind link] else s1.discardLink link

/-- LINK_CORE_BIND; a bead of an earlier binding is waited for, then what that binding left is discarded (R383). -/
def State.linkCoreBind (s0 : State) (link : Nat) : State :=
  let s := if (s0.coreAt (384 + link)).bead.isSome then s0 else s0.discardLink link
  let w0 := s.linkReg link 0
  let world := bitOf w0 62
  let part := fld w0 48 8
  if (s.coreAt (384 + link)).bead.isSome then s.arm [.linkCoreBind link]
  else
    let kdp := s.linkReg link 2
    let i := bindIssuer link part world (0, 0, 0)
    if kdp.toNat % 64 ≠ 0 then s.bindFails link part
    else
      match s.readWhole i kdp 128 with
      | .error f => (s.noteFailed i kdp 128 f).bindFails link part
      | .ok bs =>
        let s := s.noteRange i kdp 128
        let kd := wordsOf 16 bs
        let init := s.linkReg link 1
        if !Kd.contextOk kd || Kd.secure kd != world || init.toNat % 64 ≠ 0 then s.bindFails link part
        else
          let j := bindIssuer link part world (heapOf kd)
          match s.readWhole j init 64 with
          | .error f => (s.noteFailed j init 64 f).bindFails link part
          | .ok rs =>
            let s := s.noteRange j init 64
            let x := recOfWords (wordsOf 8 rs)
            if bitOf x.w3 33 != world then s.bindFails link part else s.bindLink link part world kd x

/-- A write to w0 of an item: V rises only when the binding succeeds; clearing it unbinds. -/
def State.writeLinkBinding (s : State) (link : Nat) (v : Word) : State :=
  let was := bitOf (s.linkReg link 0) 63
  let stored := setFld (setFld v 56 6 0) 16 32 0
  let s1 : State := { s with timers := s.timers.filter (· != .linkCoreBind link) }
  if bitOf v 63 && !was then (s1.setLinkReg link 0 (setFld stored 63 1 0)).push [.linkCoreBind link]
  else if !bitOf v 63 && was then (s1.setLinkReg link 0 stored).push [.linkCoreUnbind link]
  else s1.setLinkReg link 0 stored

def execLinkCoreBind (s : State) : Host.Outcome State Fault Refusal :=
  match s.msg with
  | some (.linkCoreBind link) => .next (s.linkCoreBind link)
  | _ => .next s

def execLinkCoreUnbind (s : State) : Host.Outcome State Fault Refusal :=
  match s.msg with
  | some (.linkCoreUnbind link) => .next (s.linkCoreUnbind link)
  | _ => .next s

end Sys2Proof.Machine
end

