-- ==== Sys2Proof/Machine/Tag.lean ====
section
/-! DEFINITION. Granule tags and the L1 data cache (R191-R195). -/

namespace Sys2Proof.Machine

/-- TAGST on one granule (R191): TAG and D; with zeroing also the bytes, F and a wake. -/
def State.retag (s : State) (g : Nat) (tag : Byte) (zero : Bool) : State :=
  let s1 := if zero then (s.storeBytes (32 * g) (List.replicate 32 0)).noteWrite g false else s
  let m := s1.metaAt g
  let s1 : State := { s1 with ckpt := s1.ckpt.filter fun x => x / 2 != g / 2 }
  s1.putMeta g (mkMeta true (metaW m) (metaF m) tag)

/-- Spaces that TAGST reaches, scratchpad through window 0 only. -/
def tagSpace (va : Word) : Bool :=
  spaceOf va == 0 || spaceOf va == 6 || spaceOf va == 7 || ((spaceOf va == 4 || spaceOf va == 5) && windowOf va == 0)

/-- A range cut at multiples of 4 KiB: each home unit has an indirection entry of its own (R155); a heap window that shifts
them splits a piece in two. -/
def unitPieces (va : Word) : Nat → Nat → List (Word × Nat)
  | 0, _ => []
  | fuel + 1, n =>
    if n = 0 then []
    else
      let m := min n (4096 - va.toNat % 4096)
      (va, m) :: unitPieces (padd va m) fuel (n - m)

/-- The pieces of a range, each checked as a write; a refused or lost one is a precise fault as any other (R174, R191). -/
def State.tagPieces (s : State) (i : Issuer) : List (Word × Nat) → Except FaultInfo (List (Nat × Nat))
  | [] => .ok []
  | (va, n) :: ps =>
    match s.writeRuns i va n, s.tagPieces i ps with
    | .error f, _ => .error f
    | _, .error f => .error f
    | .ok rs, .ok r => .ok (rs ++ r)

/-- TAGST and TAGST.Z: every granule checked as a write before any changes.  Alignment is tested before the address faults that LEN and
the block raise (DEDUCED, log 36). -/
def State.tagRange (s : State) (va : Word) (len : Nat) (tag : Byte) (zero : Bool) : State :=
  let i := s.issuer s.cur .c
  if !tagSpace va then s.trap (faultAt i cAddress va)
  else if va.toNat % 32 ≠ 0 ∨ len % 32 ≠ 0 then s.trap (faultAt i cAlign va)
  else if 65536 < len ∨ (len ≠ 0 ∧ 65536 < va.toNat % 65536 + len) then s.trap (faultAt i cAddress va)
  else if len = 0 then s.retire
  else
    match s.translate i va len true false, s.tagPieces i (unitPieces va 17 len) with
    | .error f, _ => (s.noteFailed i va len f).trap f
    | .ok _, .error f => (s.noteFailed i f.va 1 f).trap { f with va := va }
    | .ok _, .ok ps =>
      (ps.foldl (fun (t : State) (e : Nat × Nat) =>
        (granules e.1 e.2).foldl (fun a g => a.retag g tag zero) t) ((s.useTlb va).countPieces ps)).retire

def execTagst (_pfx : Pfx) (d a b : Nat) (s : State) : Host.Outcome State Fault Refusal :=
  .next (s.tagRange (s.sr a) (s.sr d).toNat (BitVec.ofNat 8 (s.sr b).toNat) false)

def execTagstZ (_pfx : Pfx) (d a b : Nat) (s : State) : Host.Outcome State Fault Refusal :=
  .next (s.tagRange (s.sr a) (s.sr d).toNat (BitVec.ofNat 8 (s.sr b).toNat) true)

/-- TAGLD (R192): the granule's metadata, no alignment and no tag check. -/
def execTagld (_pfx : Pfx) (d a : Nat) (s : State) : Host.Outcome State Fault Refusal :=
  let i := s.issuer s.cur .c
  let va := s.sr a
  .next (
    match s.translate i va 1 false false with
    | .error f => (s.noteFailed i va 1 f).trap f
    | .ok (.mem loc) | .ok (.split loc _ _) =>
      ((s.countUnit loc).useTlb va).answer d (BitVec.ofNat 64 ((s.metaSeen (loc / 32)).toNat % 2 ^ 11))
    | .ok (.gone dead) => s.trap (faultAt i (goneCause dead) va)
    | .ok (.sys ..) => s.trap (faultAt i cAddress va))

/-! The L1 data cache is transparent in this model (log 12): no line of it is ever dirty. -/

/-- Translates `n` bytes of global space from an address on, piece by piece of 64 KiB; a piece that does not translate is passed
over (R154, R194). -/
def State.translatePieces (s : State) (va : Word) (n : Nat) : State :=
  let a := fld va 0 52
  let last := min (a + n) (2 ^ 52)
  (List.range (if n = 0 then 0 else (last + 65535) / 65536 - a / 65536)).foldl (fun (t : State) (j : Nat) =>
    t.useTlb (if j = 0 then va else padd va ((65536 * (a / 65536 + j) : Nat) - (a : Int)))) s

/-- DCWB and DCINV of `s[d]` bytes at `s[a]`: the range is translated, and no line is written back (R194, log 12). -/
def State.cacheRange (s : State) (d a : Nat) : State := (s.translatePieces (s.sr a) (s.sr d).toNat).retire

def execDcwb (_pfx : Pfx) (d a : Nat) (s : State) : Host.Outcome State Fault Refusal := .next (s.cacheRange d a)

def execDcinv (_pfx : Pfx) (d a : Nat) (s : State) : Host.Outcome State Fault Refusal := .next (s.cacheRange d a)

def execPref (_pfx : Pfx) (_a : Nat) (_off : Int) (s : State) : Host.Outcome State Fault Refusal := .next s.retire

end Sys2Proof.Machine
end

