-- ==== Sys2Proof/Machine/Device.lean ====
section
/-! DEFINITION. The device's own steps: accesses from other devices (R156, R158, R159), home indirection (R155, R157), system
registers (R170), checkpoints (R386), row shifts (R27, R28), dead links (R385). -/

namespace Sys2Proof.Machine

/-! ### Accesses from other devices -/

/-- The runs of `n` bytes from an address on, unit by unit of 4 KiB, each where `place` says that it lies (R155). -/
def unitRuns (place : Nat → Nat) (a n : Nat) : List (Nat × Nat) :=
  (homeUnits a n).map fun u => (place (max u a), min (a + n) (u + 4096) - max u a)

/-- The bytes of some runs. -/
def State.lookRuns (s : State) (rs : List (Nat × Nat)) : List Byte := rs.flatMap fun r => s.look r.1 r.2

/-- The first location of some runs, where what is known by one location is (log 58). -/
def firstRun (rs : List (Nat × Nat)) : Nat := (rs.head?.map Prod.fst).getD 0

/-- A TestAndRegister for another device (R185): F and the value; a test that fails sets W and notes who waits. -/
def State.peerTest (s : State) (q : PeerReq) (rs : List (Nat × Nat)) (zero : Bool) : State × PeerReply :=
  let g := firstRun rs / 32
  let m := s.metaAt g
  let bs := s.lookRuns rs
  let r : PeerReply := .data (BitVec.ofNat 8 (metaF m).toNat :: bs)
  if (if zero then leNat bs == 0 else metaF m) then (s.countPieces rs, r)
  else
    let s1 := (s.countPieces rs).putMeta g (mkMeta (metaD m) true (metaF m) (metaTag m))
    ({ s1 with peerParks := (g, q.dev) :: s1.peerParks }, r)

/-- A line of a unit that another device moves arrives here: its bytes, and its metadata as they were (R157). -/
def State.lineIn (s : State) (loc : Nat) (bs : List Byte) (ms : List (BitVec 12)) : State :=
  let s1 : State := { s.landBytes loc bs with poison := s.poison.filter fun g => !(granules loc bs.length).contains g }
  ms.zipIdx.foldl (fun (t : State) (e : BitVec 12 × Nat) => t.putMeta (loc / 32 + e.2) e.1) s1

/-- A line of a unit that another device moves away: its bytes, and its metadata, two bytes a granule (R157). -/
def State.lineOut (s : State) (loc : Nat) : List Byte :=
  s.look loc 64 ++ [0, 1].flatMap fun j => leBytes 2 (s.metaSeen (loc / 32 + j)).toNat

/-- What an access of another device does where its bytes lie, once its tag has passed (R156, R166): an uncorrectable error of a
read, then its effect. -/
def State.peerDo (s : State) (q : PeerReq) (rs : List (Nat × Nat)) : State × PeerReply :=
  let loc := firstRun rs
  let seen := s.countPieces rs
  let bad := rs.any fun r => s.poisoned r.1 r.2
  match q.op with
  | .write bs => (s.fillPieces rs bs, .data [])
  | .fill v full => ((s.fillPieces rs (leBytes 8 v.toNat)).noteWrite (loc / 32) full, .data [])
  | .tagst new zero => ((rs.flatMap fun r => granules r.1 r.2).foldl (fun (t : State) (g : Nat) => t.retag g new zero) seen, .data [])
  | .read => if bad then (seen, .bad) else (seen, .data (s.lookRuns rs))
  | .test zero => if bad then (seen, .bad) else s.peerTest q rs zero
  | .atomic fn signed b expected =>
    if bad then (seen, .bad)
    else
      let m := leNat (s.lookRuns rs)
      let m' := atomNew fn signed (8 * q.n) m b.toNat expected.toNat
      (if m' = m then seen else s.fillPieces rs (leBytes q.n m'), .data (leBytes q.n m))
  | .tagld => (seen, .data (leBytes 2 ((s.metaSeen (loc / 32)).toNat % 2 ^ 11)))
  | .lineIn bs ms => (s.lineIn loc bs ms, .data [])
  | .lineOut => if s.poisoned loc 64 then (s, .bad) else (s, .data (s.lineOut loc))

/-- An access whose tag is checked: neither a TAGLD nor a line of a move. -/
def PeerOp.checked : PeerOp → Bool
  | .tagld => false
  | .lineIn _ _ => false
  | .lineOut => false
  | _ => true

/-- An access of another device at the memory that holds its bytes: the tag check of the whole (R166), then what it does.  One that
its tag stops counts (R155). -/
def State.peerServe (s : State) (q : PeerReq) (rs : List (Nat × Nat)) : State × PeerReply :=
  match (if PeerOp.checked q.op then rs.findSome? fun r => s.tagMiss r.1 r.2 q.tag else none) with
  | some m => (s.countPieces rs, .tag m.2)
  | none => s.peerDo q rs

/-- Serves an access at its places on this device, or on another one that holds a unit of ours, and sends the reply. -/
def State.peerAnswer (s : State) (q : PeerReq) (rs : List (Nat × Nat)) : State :=
  let r := s.peerServe q rs
  r.1.emit (.reply q.dev r.2)

/-- FORWARDED_ACCESS (R156): this device holds the data of another device's unit; the offset is their address here. -/
def State.forwardedAccess (s : State) (q : PeerReq) : State :=
  if 2 ^ 40 < q.off + q.n then s.emit (.reply q.dev .refused) else s.peerAnswer q (unitRuns id q.off q.n)

/-- Whether an access writes, for WR of R159. -/
def PeerOp.writes : PeerOp → Bool
  | .read => false
  | .tagld => false
  | .test _ => false
  | .lineOut => false
  | _ => true

/-- A line of a move is a home hem's own, never an access through the import table. -/
def PeerOp.moves : PeerOp → Bool
  | .lineOut => true
  | .lineIn _ _ => true
  | _ => false

/-- The tests of R159, except the secure ranges: true when the entry admits the access. -/
def ingressAdmits (w0 : Word) (q : PeerReq) : Bool :=
  !PeerOp.moves q.op && bitOf w0 63 && fld w0 24 12 == q.key && (fld w0 36 12 == 0xFFF || fld w0 36 12 == q.dev) &&
  decide (q.off + q.n ≤ fld w0 0 24 * 65536) && (!PeerOp.writes q.op || bitOf w0 61) && (!bitOf w0 62 || q.secure)

/-- INGRESS_IMPORT_ACCESS (R159): refused, or performed at BASE × 64 KiB + offset, each home unit where its entry says (R155). -/
def State.ingressImportAccess (s : State) (q : PeerReq) : State :=
  let w0 := s.sysReg 0x048 (16 * (q.ent % 256))
  let w1 := s.sysReg 0x048 (16 * (q.ent % 256) + 8)
  let pa := fld w1 16 24 * 65536 + q.off
  if !ingressAdmits w0 q then s.emit (.reply q.dev .refused)
  else if !q.secure && s.secureIn pa q.n then s.emit (.reply q.dev .world)
  else if 2 ^ 40 < pa + q.n then s.emit (.reply q.dev .refused)
  else if s.lostIn pa q.n then s.emit (.reply q.dev .dead)
  else s.peerAnswer q (unitRuns s.current pa q.n)

/-! ### Home indirection (R155, R157) -/

/-- The location of a home unit's indirection words. -/
def unitBlock (u : Nat) : Nat := indirBlock (4096 * u)
def unitOff (u : Nat) : Nat := indirOff (4096 * u)

/-- Stores a word of an entry: an entry that has been written holds zeros as they are. -/
def State.putIndir (s : State) (u word : Nat) (v : Word) : State :=
  { s with sys := Map.put s.sys (sysKey (unitBlock u) (unitOff u + 8 * word)) v }

/-- Where the copy of a unit goes (R157): NDEV and NPPN of its entry. -/
def State.moveTarget (s : State) (u : Nat) : Nat :=
  let w1 := s.sysReg (unitBlock u) (unitOff u + 8)
  if fld w1 32 12 = s.devId then fld w1 0 28 * 4096 else frameBase (fld w1 32 12) + fld w1 0 28 * 4096

/-- Starts the copy of a unit: from then on writes to it also go to the new location. -/
def State.startMove (s : State) (u : Nat) : State :=
  { s with moves := (s.current (4096 * u) / 4096, s.moveTarget u / 4096) :: s.moves }.arm [.pageMoveComplete u]

/-- INDIRECTION_ENTRY_WRITE: ignored while CP = 1; a write that sets CP starts the copy. -/
def State.indirectionEntryWrite (s : State) (u word : Nat) (v : Word) : State :=
  if bitOf (s.indir (4096 * u)) 62 then s
  else if word = 0 then
    let s1 := s.putIndir u 0 (clearFlds v [(44, 18), (28, 4)])
    if bitOf v 62 then s1.startMove u else s1
  else
    let s1 : State := { s with
      acnt := Map.put s.acnt u (fld v 48 16)
      units := s.units.map fun (e : Nat × BeadUnit) => (e.1, { e.2 with hits := Map.del e.2.hits u }) }
    s1.putIndir u 1 (clearFlds v [(44, 20), (28, 4)])

/-- A page's bytes and metadata as they stand. -/
def State.pageOf (s : State) (loc : Nat) : List Byte × List (BitVec 12) :=
  (s.bytes loc 4096, (List.range 128).map fun g => s.metaAt (loc / 32 + g))

/-- Puts a page's bytes and metadata at a location. -/
def State.putPage (s : State) (loc : Nat) (p : List Byte × List (BitVec 12)) : State :=
  p.2.zipIdx.foldl (fun (t : State) (e : BitVec 12 × Nat) => t.putMeta (loc / 32 + e.2) e.1) (s.putBytes loc p.1)

/-- What else goes with a page that moves: uncorrectable errors, the steps of its words' writes, what the checkpoint has
sent, which devices wait for its granules.  Park entries know a granule by its home address and stay. -/
def State.movePageNotes (s : State) (src dst : Nat) : State :=
  let goes (g : Nat) : List Nat :=
    if g / 128 = src / 4096 then [g, g - src / 32 + dst / 32] else if g / 128 = dst / 4096 then [] else [g]
  { s with
    poison := s.poison.flatMap goes
    ckpt := s.ckpt.flatMap goes
    peerParks := s.peerParks.flatMap fun (e : Nat × Nat) => (goes e.1).map fun g => (g, e.2)
    written := Map.copyRange s.written (src / 2) (dst / 2) 2048 }

/-- The entry after a move: CDEV and CPPN are NDEV and NPPN, MV says whether that is the home location, CP is clear. -/
def movedEntry (own u : Nat) (w1 : Word) : Word :=
  let home := decide (fld w1 32 12 = own ∧ fld w1 0 28 = u)
  BitVec.ofNat 64 ((!home).toNat * 2 ^ 63 + fld w1 32 12 * 2 ^ 32 + fld w1 0 28)

/-- PAGE_MOVE_COMPLETE: bytes and metadata stand at the new location, on whichever device it is, and the entry names it. -/
def State.pageMoveComplete (s : State) (u : Nat) : State :=
  if !bitOf (s.indir (4096 * u)) 62 then s
  else
    let src := s.current (4096 * u)
    let dst := s.moveTarget u
    let s1 := if src = dst then s else (s.putPage dst (s.pageOf src)).movePageNotes src dst
    ({ s1 with moves := s1.moves.filter fun m => m.1 != src / 4096 } : State).putIndir u 0
      (movedEntry s.devId u (s.sysReg (unitBlock u) (unitOff u + 8)))

/-! ### Checkpoints (R386) -/

/-- The lines of HBM with a granule whose D is set, the device's own rings and lists among them. -/
def State.dirtyLines (s : State) : List Nat :=
  (((s.gmeta.filter fun e => metaD e.2).map Prod.fst ++
    s.units.flatMap fun (e : Nat × BeadUnit) => e.2.wrote.map fun g => s.current (32 * g) / 32).filterMap fun g =>
      if g < 2 ^ 35 then some (g / 2) else none).eraseDups

/-- A line as it is sent: its code, then the payload (R380). -/
def lineBytes (bs : List Byte) : List Byte := BitVec.ofNat 8 (codeLine bs).1 :: (codeLine bs).2

/-- CHECKPOINT_GO: BUSY, and every dirty line to both buddies, whose acknowledgements come as inputs. -/
def State.checkpointGo (s : State) : State :=
  let w := s.sysReg 0x070 0
  let lines := s.dirtyLines
  let out := lines.flatMap fun (l : Nat) =>
    [Out.checkpoint (fld w 32 12) (64 * l) (lineBytes (s.look (64 * l) 64)),
     Out.checkpoint (fld w 44 12) (64 * l) (lineBytes (s.look (64 * l) 64))]
  let s1 : State := { s with
    ckpt := lines.flatMap fun l => [2 * l, 2 * l + 1], ckptAcks := [], outbox := s.outbox ++ out
    units := s.units.map fun (e : Nat × BeadUnit) =>
      (e.1, { e.2 with sent := e.2.wrote.filter fun g => decide (s.current (32 * g) < 2 ^ 40) }) }
  s1.setSys 0x070 0 (setFld w 1 1 1)

/-- Both buddies that CKCTL names have acknowledged. -/
def State.bothAcked (s : State) : Bool :=
  let w := s.sysReg 0x070 0
  bitOf w 1 && s.ckptAcks.contains (fld w 32 12) && s.ckptAcks.contains (fld w 44 12)

/-- CHECKPOINT_COMPLETE, once both buddies have acknowledged: D of every granule that nothing has written since, and BUSY, are
cleared. -/
def State.checkpointComplete (s : State) : State :=
  if !s.bothAcked then s else
  let s1 := s.ckpt.foldl (fun (t : State) (g : Nat) =>
    let m := t.metaAt g
    t.putMeta g (mkMeta false (metaW m) (metaF m) (metaTag m))) s
  let own := s1.units.map fun (e : Nat × BeadUnit) =>
    (e.1, { e.2 with wrote := e.2.wrote.filter fun g => !e.2.sent.contains g, sent := [] })
  ({ s1 with units := own, ckpt := [], ckptAcks := [] } : State).setSys 0x070 0 (setFld (s.sysReg 0x070 0) 1 1 0)

/-! ### System registers (R170) -/

/-- A write to CKCTL: BUD1, BUD2 and GO; GO starts a checkpoint unless one runs. -/
def State.writeCkctl (s : State) (v : Word) : State :=
  let w := s.sysReg 0x070 0
  let busy := bitOf w 1
  let kept := setFld (clearFlds v [(56, 8), (2, 30)]) 1 1 (fld w 1 1)
  let s1 := s.setSys 0x070 0 (if busy then setFld kept 0 1 (fld w 0 1) else kept)
  if bitOf v 0 && !busy then s1.push [.checkpointGo] else s1

/-- The lists of a unit under new capacities: those whose entries stand beyond them close up from place 0 (log 14). -/
def BeadUnit.closeUp (x : BeadUnit) (pscap ovcap : Nat) : BeadUnit :=
  let places := x.spilled.filterMap ParkEntry.spill
  { x with
    park := if places.all fun n => decide (n < pscap) then x.park
      else x.park.map fun e => { e with spill := e.spill.map fun n => (places.filter fun m => decide (m < n)).length }
    overflow := if x.overflow.all fun o => decide (o.place < ovcap) then x.overflow
      else x.overflow.zipIdx.map fun o => { o.1 with place := o.2 } }

/-- The capacities of a unit's lists change: what closes up is written at its new place, and every record where PSCAP moves the
overflow list (R188). -/
def State.setCaps (s : State) (die off : Nat) (new : Word) : State :=
  let u := 12 * die + off / 16
  let x := (s.unitAt u).closeUp (fld new 0 23) (fld new 32 23)
  let moved := fld new 0 23 ≠ (s.parkCaps u).1
  let s1 := s.setSys (0x078 + die) off new
  let s2 := if moved then s1.modUnit u fun y => { y with overflow := [] } else s1
  s2.putLists u x

/-- A write to a spill region's register (R188): ignored where it would strand an entry.  A capacity above 2^22, which R188 does not
give, is taken as it is written (DESIGN CHOICE, log 63). -/
def State.writeSpill (s : State) (die off : Nat) (v : Word) : State :=
  let u := s.unitAt (12 * die + off / 16)
  let old := s.sysReg (0x078 + die) off
  if off % 16 = 0 then
    let new := clearFlds v [(40, 24), (0, 12)]
    if new ≠ old ∧ (u.spillCount ≠ 0 ∨ !u.overflow.isEmpty) then s else s.setSys (0x078 + die) off new
  else
    let new := clearFlds v [(55, 9), (23, 9)]
    if fld new 0 23 < u.spillCount ∨ fld new 32 23 < u.overflow.length then s else s.setCaps die off new

/-- The firmware's throttle step of a die (R395). -/
def State.writeThrottle (s : State) (die : Nat) (v : Word) : State :=
  (dieTiles die).foldl State.raiseStep (s.setSys (0x072 + die) 0 (clearFlds v [(3, 61)]))

/-- SYSTEM_REGISTER_WRITE: a store of 8 bytes to a block that has no step of its own.  Reserved and read-only fields keep
their values (R5, R7); the ingress import table is read-only (R158, log 25). -/
def State.systemRegisterWrite (s : State) (block off : Nat) (v : Word) : State :=
  if block = 0x001 then s.setSys block off (clearFlds v [(40, 24), (1, 12)])
  else if block = 0x002 then s.setSys block off (clearFlds v [(12, 52)])
  else if 0x010 ≤ block ∧ block < 0x040 then s.setSys block off (clearFlds v [(56, 5), (16, 32), (7, 1)])
  else if 0x040 ≤ block ∧ block < 0x044 then
    s.setSys block off (clearFlds v (if off % 16 = 0 then [(40, 23), (0, 12)] else [(40, 24), (0, 12)]))
  else if 0x060 ≤ block ∧ block < 0x064 then
    let link := 8 * (block - 0x060) + off / 32
    if off / 8 % 4 = 0 then s.writeLinkBinding link v
    else if off / 8 % 4 = 3 then s
    else s.setLinkReg link (off / 8 % 4) v
  else if block = 0x070 then s.writeCkctl v
  else if block = 0x071 then s.setSys block off (clearFlds v [(32, 32)])
  else if 0x072 ≤ block ∧ block < 0x076 then s.writeThrottle (block - 0x072) v
  else if 0x078 ≤ block ∧ block < 0x07C then s.writeSpill (block - 0x078) off v
  else if 0x07C ≤ block ∧ block < 0x080 then s.setSys block off (clearFlds v [(40, 24), (1, 6)])
  else s

/-! ### Row shifts (R27, R28) -/

/-- The logical tiles of a die row at or east of a column, west to east. -/
def rowEast (x y : Nat) : List Nat := ((List.range 12).map fun i => tileAtXY (12 * (x / 12) + i) y).filter fun k => x ≤ tileX k

/-- Logical tile `k` becomes the physical tile that logical tile `j` was. -/
def State.shiftTile (s : State) (j k : Nat) : State :=
  let s1 : State := { s with
    mem := Map.copyRange (Map.copyRange s.mem (scratchBase j) (scratchBase k) (2 ^ 21)) (accBase j) (accBase k) (2 ^ 19)
    gmeta := Map.copyRange s.gmeta (scratchBase j / 32) (scratchBase k / 32) (2 ^ 16)
    poison := (s.poison.filter fun g => g / 2 ^ 16 != scratchBase k / 2 ^ 21) ++
      (s.poison.filter fun g => g / 2 ^ 16 == scratchBase j / 2 ^ 21).map fun g => g - scratchBase j / 32 + scratchBase k / 32 }
  (s1.putTile k (s.tileAt j)).putCore k (s.coreAt j)

/-- The spare tile, as it is after reset, at a logical position. -/
def State.spareTile (s : State) (k : Nat) : State :=
  let s1 : State := { s with
    mem := Map.dropRange (Map.dropRange s.mem (scratchBase k) (2 ^ 21)) (accBase k) (2 ^ 19)
    gmeta := Map.dropRange s.gmeta (scratchBase k / 32) (2 ^ 16)
    poison := s.poison.filter fun g => g / 2 ^ 16 != scratchBase k / 2 ^ 21 }
  (s1.putTile k {}).putCore k (Core.reset k)

/-- Each tile of a row takes its eastern neighbour's place, the last the spare. -/
def State.shiftRow (s : State) : List Nat → State
  | [] => s
  | [k] => s.spareTile k
  | k :: j :: r => (s.shiftTile j k).shiftRow (j :: r)

/-- ROW_SHIFT_REPAIR of the fenced tile at (x, y): the row shift, once no partition holds the tiles that move; a row is
shifted once only, and a tile that fails in it afterwards stays fenced (R28; State.fence tells the host).  Of two tiles of a row
that fail before it is shifted, the shift replaces the one that the step names and the other stays fenced, without a reduced
count for the host: the manual speaks only of a failure in a row already shifted (DESIGN CHOICE, log 60). -/
def State.rowShiftRepair (s : State) (x y : Nat) : State :=
  let row := rowEast x y
  let die := dieXY x y
  if 24 ≤ x ∨ 16 ≤ y ∨ !(s.tileAt (tileAtXY x y)).fenced ∨ (s.dieAt die).shifted.contains (rowNo y) then s
  else if row.any fun k => (s.tileAt k).part.isSome then s
  else ((s.shiftRow row).modDie die fun d => { d with shifted := rowNo y :: d.shifted }).push [.launchRetry]

/-! ### Dead links (R385) -/

/-- A dead link, this device's or one of which another device's update tells, is an event of kind 4 for each steward (R385). -/
def State.tellDeadLink (s : State) : State := (List.range 4).foldl (fun (t : State) (d : Nat) => t.postFree d 4 none 0) s

/-- LINK_DEAD_DECLARATION: a link-state update to every device, an event to every steward, the first drain round. -/
def State.linkDeadDeclaration (s : State) (die port : Nat) : State :=
  if (s.dieAt die).deadPorts.contains port then s
  else
    let s1 := (s.modDie die fun d => { d with deadPorts := port :: d.deadPorts }).emit (.linkDead die port)
    s1.tellDeadLink.arm [.drainRoundExpiry die port 1]

/-- DRAIN_ROUND_EXPIRY: the next round, until the third has ended.  The model's accesses are delivered in the step that makes
them, so none is in flight then; that packets to a device are lost from now on is an input (log 20). -/
def State.drainRoundExpiry (s : State) (die port round : Nat) : State :=
  if round < 3 then s.arm [.drainRoundExpiry die port (round + 1)] else s

/-! ### The device steps -/

def execForwardedAccess (s : State) : Host.Outcome State Fault Refusal :=
  match s.msg with
  | some (.forwardedAccess q) => .next (s.forwardedAccess q)
  | _ => .next s

def execIngressImportAccess (s : State) : Host.Outcome State Fault Refusal :=
  match s.msg with
  | some (.ingressImportAccess q) => .next (s.ingressImportAccess q)
  | _ => .next s

def execIndirectionEntryWrite (s : State) : Host.Outcome State Fault Refusal :=
  match s.msg with
  | some (.indirectionEntryWrite unit word v) => .next (s.indirectionEntryWrite unit word v)
  | _ => .next s

def execPageMoveComplete (s : State) : Host.Outcome State Fault Refusal :=
  match s.msg with
  | some (.pageMoveComplete unit) => .next (s.pageMoveComplete unit)
  | _ => .next s

def execCheckpointGo (s : State) : Host.Outcome State Fault Refusal :=
  match s.msg with
  | some .checkpointGo => .next s.checkpointGo
  | _ => .next s

def execCheckpointComplete (s : State) : Host.Outcome State Fault Refusal :=
  match s.msg with
  | some .checkpointComplete => .next s.checkpointComplete
  | _ => .next s

def execSystemRegisterWrite (s : State) : Host.Outcome State Fault Refusal :=
  match s.msg with
  | some (.systemRegisterWrite block off v) => .next (s.systemRegisterWrite block off v)
  | _ => .next s

def execRowShiftRepair (s : State) : Host.Outcome State Fault Refusal :=
  match s.msg with
  | some (.rowShiftRepair x y) => .next (s.rowShiftRepair x y)
  | _ => .next s

def execLinkDeadDeclaration (s : State) : Host.Outcome State Fault Refusal :=
  match s.msg with
  | some (.linkDeadDeclaration die port) => .next (s.linkDeadDeclaration die port)
  | _ => .next s

def execDrainRoundExpiry (s : State) : Host.Outcome State Fault Refusal :=
  match s.msg with
  | some (.drainRoundExpiry die port round) => .next (s.drainRoundExpiry die port round)
  | _ => .next s

end Sys2Proof.Machine
end

