-- ==== Sys2Proof/Machine/Pkl.lean ====
section
/-! DEFINITION. The product-key lookup units (R268-R279). -/

namespace Sys2Proof.Machine

def cRequest : Nat := 0x1F
def cPkl : Nat := 0x33

/-! ### Issue (R270-R272) -/

/-- The count fields of a request record, k last, and whether every count and every Reserved field is in order. -/
def recordCounts (op : PklOp) (ws : List Word) : List Nat :=
  match op with
  | .sc => [fld (wd ws 3) 0 7]
  | .gth => [fld (wd ws 3) 0 7]
  | .sel => [fld (wd ws 4) 16 7, fld (wd ws 4) 8 7, fld (wd ws 4) 0 7]
  | .sct => [fld (wd ws 6) 16 7, fld (wd ws 6) 8 7, fld (wd ws 6) 0 7]

def recordOk (op : PklOp) (ws : List Word) : Bool :=
  let zero (xs : List Nat) : Bool := xs.all fun i => wd ws i == 0
  let pad (w : Word) : Bool := bitOf w 7 || bitOf w 15 || fld w 23 41 != 0
  ((recordCounts op ws).all fun c => decide (1 ≤ c) && decide (c ≤ 64)) &&
  (match op with
    | .sc => fld (wd ws 3) 7 57 == 0 && zero [4, 5, 6, 7]
    | .gth => fld (wd ws 3) 7 57 == 0 && zero [4, 5, 6, 7]
    | .sel => !pad (wd ws 4) && zero [5, 6, 7]
    | .sct => !pad (wd ws 6) && zero [7])

/-- Where records, lists and vectors may lie (R271): space 0x0, or 0x4 and 0x5 through window 0. -/
def plainPlace (p : Word) : Bool := spaceOf p == 0 || ((spaceOf p == 4 || spaceOf p == 5) && windowOf p == 0)

/-- The device on which a request's layer descriptor lies decides the unit (R269); a descriptor without a home address goes to
the issuer's own die. -/
def State.unitOfLayer (s : State) (i : Issuer) (ld : Word) : Nat :=
  match s.globalHome i ld 64 false false with
  | .ok (.pa a) => a / 2 ^ 38 % 4
  | _ => dieOf i.core

/-- The issuer of a request's accesses. -/
def State.pklIssuer (_s : State) (q : PklReq) : Issuer :=
  { core := q.core, own := q.core, part := q.part, world := q.world, heap := q.heap, steward := isSteward q.core, path := .k }

/-- Requests that a unit holds (R272). -/
def State.unitLoad (s : State) (die : Nat) : Nat :=
  (s.requests.filter fun q => s.unitOfLayer (s.pklIssuer q) q.ld == die).length

/-- Commit, SetEmpty and Send: the request joins its unit's queue, and the bead goes on (R272, log 1). -/
def State.sendRequest (s : State) (q : PklReq) (loc : Nat) : State :=
  let s1 := if q.op = .sct then s.clearR s.cur else s
  let s2 := (s1.retire).setEmpty (some loc)
  { s2 with requests := s2.requests ++ [q] }

/-- Probe of FUT, as JoinProbe on a granule (R272): a cell on an import page is an address fault (R184). -/
def State.probeCell (s : State) (i : Issuer) (p : Word) : Except FaultInfo Nat :=
  if p.toNat % 32 = 0 ∧ s.isImport i p true = true then .error (faultAt i cAddress p) else s.probe i p 32 32

/-- The checks after the record has been read. -/
def State.acceptRequest (s : State) (q : PklReq) : State :=
  match s.probeCell (s.issuer s.cur .c) (wd q.words 0) with
  | .error f => s.trap f
  | .ok loc =>
    if !recordOk q.op q.words then s.trapCause cRequest
    else if 64 ≤ s.unitLoad (s.unitOfLayer (s.issuer s.cur .k) q.ld) then s
    else s.sendRequest q loc

/-- PKxx (R272). -/
def State.issueRequest (s : State) (op : PklOp) (ty : Ty) (rm : Nat) (k2 : Bool) (ld rq : Word) : State :=
  let i := s.issuer s.cur .c
  if ld.toNat % 64 ≠ 0 then s.trap (faultAt i cAlign ld)
  else if rq.toNat % 64 ≠ 0 then s.trap (faultAt i cAlign rq)
  else if spaceOf ld ≠ 0 then s.trap (faultAt i cAddress ld)
  else if !plainPlace rq then s.trap (faultAt i cAddress rq)
  else s.withLoad rq 64 fun t bs => t.acceptRequest
    { op := op, core := t.cur, bead := t.me.bead, part := t.partOf t.cur, world := t.me.world, cpc := t.me.pc, ld := ld,
      uid := t.beadKey t.cur, heap := heapOf (t.kdOf t.cur), words := wordsOf 8 bs, ty := ty, rm := rm, k2 := k2 }

def execPksc (_pfx : Pfx) (ty : Ty) (rm : Nat) (k2 : Bool) (a b : Nat) (s : State) : Host.Outcome State Fault Refusal :=
  .next (s.issueRequest .sc ty rm k2 (s.sr a) (s.sr b))
def execPksel (_pfx : Pfx) (a b : Nat) (s : State) : Host.Outcome State Fault Refusal :=
  .next (s.issueRequest .sel .dflt 0 false (s.sr a) (s.sr b))
def execPkgth (_pfx : Pfx) (rm a b : Nat) (s : State) : Host.Outcome State Fault Refusal :=
  .next (s.issueRequest .gth .dflt rm false (s.sr a) (s.sr b))
def execPksct (_pfx : Pfx) (ty : Ty) (rm a b : Nat) (s : State) : Host.Outcome State Fault Refusal :=
  .next (s.issueRequest .sct ty rm false (s.sr a) (s.sr b))

/-! ### How a request ends (R273, R274) -/

/-- CAUSE of the status word for a fault. -/
def pklCause (cause : Nat) : Nat :=
  if cause = cTranslation then 2 else if cause = cWorld then 3 else if cause = cTag then 4 else if cause = cImport then 5
  else if cause = cUncorrectable then 6 else if cause = cDead then 10 else 1

/-- Why a request stops before its end: a cause with its fault. -/
abbrev PklStop := Nat × FaultInfo

/-- What a request comes to: the memory it leaves, its cause (0 none), the flags gathered, COUNT, the fault. -/
structure PklEnd where
  s : State
  cause : Nat := 0
  fl : Flags := 0
  count : Nat := 0
  f : FaultInfo := { cause := cPkl }

/-- A request stopped by a fault. -/
def PklEnd.stop (e : PklEnd) (f : FaultInfo) : PklEnd := { e with cause := pklCause f.cause, f := f }

/-- Runs the rest of a request when a check succeeds. -/
def PklEnd.after {α : Type} (e : PklEnd) (r : Except PklStop α) (k : α → PklEnd) : PklEnd :=
  match r with
  | .ok a => k a
  | .error (c, f) => { e with cause := c, f := f }

/-- Two requests of one bead to one unit. -/
def State.sameQueue (s : State) (a b : PklReq) : Bool :=
  a.uid == b.uid && s.unitOfLayer (s.pklIssuer a) a.ld == s.unitOfLayer (s.pklIssuer b) b.ld

/-- A later request of the bead is skipped (R274). -/
def State.markSkip (s : State) (q x : PklReq) : PklReq := if s.sameQueue q x then { x with skip := true } else x

/-- The requests that stand in the unit's queue behind one that has ended with an error (R274). -/
def State.skipLater (s : State) (q : PklReq) : State := { s with requests := s.requests.map (s.markSkip q) }

/-- The status word. -/
def pklStatus (e : PklEnd) : Word :=
  BitVec.ofNat 64 ((decide (e.cause ≠ 0)).toNat * 2 ^ 63 + e.cause % 128 * 2 ^ 56 + e.fl.toNat * 2 ^ 32 + e.count % 2 ^ 32)

/-- The address of a request's bead. -/
def State.pklBead (s : State) (q : PklReq) : Word :=
  match q.bead with
  | some b => s.slotAddr b
  | none => 0

/-- A late record of a request (R273). -/
def State.pklRecord (s : State) (q : PklReq) (f : FaultInfo) (status : Word) : State :=
  let xy := if isTile q.core then ((s.tileAt q.core).idx, (s.tileAt q.core).idy)
    else if isLink q.core then (0x1F, (q.core - 384) % 8) else (0, 0)
  let g : FaultInfo := { f with
    cause := cPkl, path := .k, late := true, info := status.toNat % 2 ^ 32, tile := status, cpc := some q.cpc }
  (s.fileRecord q.core (recordWords q.world xy.1 xy.2 (s.pklBead q) g 0)).1

/-- FUT is filled as STF fills a cell; a cell that can be reached no more is recorded. -/
def State.fillFuture (s : State) (q : PklReq) (status : Word) : State :=
  match s.probe { s.pklIssuer q with path := .c } (wd q.words 0) 32 32 with
  | .ok loc => s.fillCell loc status true
  | .error f => (s.noteFailed { s.pklIssuer q with path := .c } (wd q.words 0) 32 f).pklRecord q f status

/-- The end of a request. -/
def State.endRequest (q : PklReq) (e : PklEnd) : State :=
  let status := pklStatus e
  let s1 := if e.cause = 0 ∨ e.cause = 9 then e.s else e.s.pklRecord q e.f status
  let s2 := if e.cause = 0 then s1 else s1.skipLater q
  s2.fillFuture q status

/-! ### Reads and writes of a unit (R166, R269, R271) -/

/-- Cause 8 unless an address meets its location rule. -/
def placeOk (p : Word) (ok : Bool) : Except PklStop Unit :=
  if ok then .ok () else .error (8, { cause := cPkl, path := .k, va := p })

/-- A fault of an access ends the request with its cause. -/
def orStop {α : Type} : Except FaultInfo α → Except PklStop α
  | .ok x => .ok x
  | .error f => .error (pklCause f.cause, f)

/-- Bytes of a list or a vector, line by line of 64 bytes: the check of each names that line (R166, R273). -/
def State.pklLines (s : State) (q : PklReq) (va : Word) : Nat → Nat → Except PklStop (List Byte)
  | 0, _ => .ok []
  | fuel + 1, n =>
    if n = 0 then .ok []
    else do
      let m := min n (64 - va.toNat % 64)
      let bs ← orStop (s.readLine (s.pklIssuer q) va m)
      let rest ← s.pklLines q (padd va m) fuel (n - m)
      pure (bs ++ rest)

def State.pklRead (s : State) (q : PklReq) (va : Word) (n : Nat) : Except PklStop (List Byte) := s.pklLines q va (n / 64 + 2) n

/-- Cause 7 for an import page or a home address on another die (R269); no home address at all is an address fault (R151). -/
def State.tablePlace (s : State) (q : PklReq) (die : Nat) (va : Word) (n : Nat) (wr : Bool) : Except PklStop Unit :=
  let i := s.pklIssuer q
  match s.globalHome i va n wr false with
  | .error f => .error (pklCause f.cause, f)
  | .ok (.imp ..) => .error (7, { cause := cPkl, path := .k, va := va })
  | .ok (.pa a) =>
    if 2 ^ 40 ≤ a then .error (pklCause cAddress, faultAt i cAddress va)
    else if a / 2 ^ 38 = die ∧ (a + n - 1) / 2 ^ 38 = die then .ok ()
    else .error (7, { cause := cPkl, path := .k, va := va })

/-- Bytes of a table, line by line of 64 bytes (R166). -/
def State.tableRead (s : State) (q : PklReq) (die : Nat) (va : Word) : Nat → Nat → Except PklStop (List Byte)
  | 0, _ => .ok []
  | fuel + 1, n =>
    if n = 0 then .ok []
    else do
      let m := min n (64 - va.toNat % 64)
      s.tablePlace q die va m false
      let bs ← orStop (s.readLine (s.pklIssuer q) va m)
      let rest ← s.tableRead q die (padd va m) fuel (n - m)
      pure (bs ++ rest)

def State.tableBytes (s : State) (q : PklReq) (die : Nat) (va : Word) (n : Nat) : Except PklStop (List Byte) :=
  s.tableRead q die va (n / 64 + 2) n

/-- What the reads of a request leave in home units and in the TLB (R154, R155). -/
def PklEnd.read (e : PklEnd) (q : PklReq) (ranges : List (Word × Nat)) : PklEnd :=
  { e with s := ranges.foldl (fun (t : State) (r : Word × Nat) => t.noteRange (t.pklIssuer q) r.1 r.2) e.s }

/-- The part of some ranges that has been read when a fault stops the reading: all before it, and its line too where that has
reached the memory (R155). -/
def readBefore (f : FaultInfo) : List (Word × Nat) → List (Word × Nat)
  | [] => []
  | (va, n) :: r =>
    let m := (f.va - va).toNat
    if m < n then (if atMemory f.cause then [(va, m + 1)] else if m = 0 then [] else [(va, m)])
    else (va, n) :: readBefore f r

/-- A part of a request that reads some ranges, then the rest on the state that the reads leave.  Cause 8 stops it before it reads. -/
def PklEnd.reads {α : Type} (e : PklEnd) (q : PklReq) (ranges : List (Word × Nat)) (r : Except PklStop α) (k : PklEnd → α → PklEnd) :
    PklEnd :=
  match r with
  | .ok a => k (e.read q ranges) a
  | .error (c, f) => { (if c = 8 then e else e.read q (readBefore f ranges)) with cause := c, f := f }

/-- The 64-byte lines of bytes at a pointer. -/
def linesAt (va : Word) : Nat → List Byte → List (Word × List Byte)
  | 0, _ => []
  | fuel + 1, bs =>
    if bs.isEmpty then []
    else
      let m := 64 - va.toNat % 64
      (va, bs.take m) :: linesAt (padd va m) fuel (bs.drop m)

/-- A line of up to 64 bytes is checked as one and written, or writes nothing (R166). -/
def State.writeLine (s : State) (i : Issuer) (va : Word) (bs : List Byte) : Except FaultInfo State :=
  match s.lineDest i va bs.length with
  | .error f => .error f
  | .ok ps => .ok ((s.noteLine i va bs.length).fillPieces ps bs)

/-- Writes bytes line by line, each checked on its own: the state, which lines were written, the first failure. -/
def State.writeLines (s : State) (i : Issuer) : List (Word × List Byte) → State × List Bool × Option FaultInfo
  | [] => (s, [], none)
  | (va, bs) :: ls =>
    match s.writeLine i va bs with
    | .error f => let r := (s.noteFailed i va bs.length f).writeLines i ls; (r.1, false :: r.2.1, some f)
    | .ok t => let r := t.writeLines i ls; (r.1, true :: r.2.1, r.2.2)

/-- Writes bytes, then the rest of the request on the memory they leave.  `part` is COUNT of what a partly failed write has
written, from the lines that it wrote. -/
def PklEnd.write (e : PklEnd) (q : PklReq) (va : Word) (bs : List Byte) (part : (Nat → Bool) → Nat) (k : PklEnd → PklEnd) :
    PklEnd :=
  let r := e.s.writeLines (e.s.pklIssuer q) (linesAt va (bs.length / 64 + 2) bs)
  let wrote (o : Nat) : Bool := r.2.1.getD ((va.toNat % 64 + o) / 64) false
  match r.2.2 with
  | none => k { e with s := r.1 }
  | some f => { e with s := r.1, count := part wrote }.stop f

/-! ### Layers, vectors, lists and rows (R268, R271) -/

/-- The fields of a layer descriptor; Reserved ones are ignored (R7). -/
structure Layer where
  k1 : Word
  k2 : Word
  v : Word
  vs : Word
  gv : Word
  eg : Int
  n : Nat
  dk : Nat
  dv : Nat
deriving DecidableEq, Repr

/-- A layer descriptor of 64 bytes: the limits of R268, then the space of every table pointer (R269). -/
def layerOf (q : PklReq) (bs : List Byte) : Except PklStop Layer := do
  let ws := wordsOf 8 bs
  let w5 := wd ws 5
  let l : Layer := { k1 := wd ws 0, k2 := wd ws 1, v := wd ws 2, vs := wd ws 3, gv := wd ws 4, eg := signed 8 (fld w5 48 8),
                     n := fld w5 32 13, dk := fld w5 16 11, dv := fld w5 0 14 }
  placeOk q.ld (decide (1 ≤ l.n) && decide (l.n ≤ 4096) && l.dk % 16 == 0 && decide (16 ≤ l.dk) &&
    decide (l.dk ≤ 1024) && l.dv % 256 == 0 && decide (256 ≤ l.dv) && decide (l.dv ≤ 8192))
  [l.k1, l.k2, l.v, l.vs, l.gv].forM fun p => placeOk p (spaceOf p == 0)
  pure l

/-- Reads a request's layer descriptor. -/
def State.readLayer (s : State) (q : PklReq) (die : Nat) : Except PklStop Layer := do
  let bs ← s.tableBytes q die q.ld 64
  layerOf q bs

/-- A request that begins with its layer descriptor. -/
def PklEnd.withLayer (e : PklEnd) (q : PklReq) (die : Nat) (k : PklEnd → Layer → PklEnd) : PklEnd :=
  e.reads q [(q.ld, 64)] (e.s.tableBytes q die q.ld 64) fun e1 bs => e1.after (layerOf q bs) (k e1)

/-- Elements of bytes, `n` each. -/
def elemsOf (n : Nat) : Nat → List Byte → List Nat
  | 0, _ => []
  | k + 1, bs => leNat (bs.take n) :: elemsOf n k (bs.drop n)

/-- Values with the flag of their signalling NaNs (R34). -/
def valuesOf (fmt : Fmt) (xs : List Nat) : List Val × Flags :=
  (xs.map fmt.decode, if xs.any fmt.isSNaN then fNV else 0)

/-- The size of an element of Q or GRAD. -/
def elemBytes (q : PklReq) : Nat := if q.ty = .f16 then 2 else 4

/-- Q or GRAD: elements of the instruction's TY. -/
def State.readVector (s : State) (q : PklReq) (va : Word) (n : Nat) : Except PklStop (List Val × Flags) := do
  placeOk va (plainPlace va)
  let e := elemBytes q
  let bs ← s.pklRead q va (e * n)
  pure (valuesOf (if q.ty = .f16 then b16 else b32) (elemsOf e n bs))

/-- A list entry: VAL and IDX. -/
structure Cand where
  val : Nat
  idx : Nat
deriving DecidableEq, Repr

/-- The index of an empty entry. -/
def noIdx : Nat := 0xFFFFFFFF

def State.readList (s : State) (q : PklReq) (va : Word) (n : Nat) : Except PklStop (List Cand) := do
  placeOk va (plainPlace va && va.toNat % 8 == 0)
  let bs ← s.pklRead q va (8 * n)
  pure ((elemsOf 8 n bs).map fun w => ({ val := w / 2 ^ 32, idx := w % 2 ^ 32 } : Cand))

def candBytes (c : Cand) : List Byte := leBytes 4 c.idx ++ leBytes 4 c.val

/-- A list of `k` entries, the rest empty with a VAL (R275). -/
def listBytes (cs : List Cand) (k emptyVal : Nat) : List Byte :=
  (cs ++ List.replicate (k - cs.length) ({ val := emptyVal, idx := noIdx } : Cand)).flatMap candBytes

/-- A value row decoded under its scales, with the flags of R33. -/
def State.readRow (s : State) (q : PklReq) (die : Nat) (l : Layer) (idx : Nat) : Except PklStop (List Val × Flags) := do
  let nb := l.dv / 256
  let codes ← s.tableBytes q die (padd l.v (l.dv * idx : Nat)) l.dv
  let scl ← s.tableBytes q die (padd l.vs (nb * idx : Nat)) nb
  let rs := codes.zipIdx.map fun e => decodeDM8 e.1 (scl.getD (e.2 / 256) 0)
  pure (rs.map fun r => b32.decode r.1, rs.foldl (fun f r => f ||| r.2) 0)

/-! ### Exact sums (R276-R279) -/

/-- An exact sum rounded once to binary32, NV for an invalid operation; an exact zero is +0 (RoundB32, R43). -/
def sum32 (rm : Nat) (xs : List (Val × Bool)) : Nat × Flags :=
  let r := exactSum rm (xs.map Prod.fst)
  b32.finish rm (if r.1.isZero then Val.zero else r.1, r.2 || xs.any Prod.snd)

/-- The exact scalar product, rounded once. -/
def dot32 (rm : Nat) (xs ys : List Val) : Nat × Flags := sum32 rm ((xs.zip ys).map fun e => e.1.mul e.2)

/-! ### Selection (R275) -/

/-- A candidate comes before another: larger value, then lower index. -/
def candBefore (a b : Cand) : Bool :=
  let c := (b32.decode a.val).cmp (b32.decode b.val)
  decide (0 < c) || (c == 0 && decide (a.idx < b.idx))

def candInsert (x : Cand) : List Cand → List Cand
  | [] => [x]
  | y :: ys => if candBefore x y then x :: y :: ys else y :: candInsert x ys

/-- The first `k` of the candidates that are neither empty nor NaN. -/
def selectCands (cs : List Cand) (k : Nat) : List Cand :=
  ((cs.filter fun c => c.idx != noIdx && !(b32.decode c.val).isNaN).foldl (fun acc c => candInsert c acc) []).take k

/-- The non-empty entries of a list in the lines that were written. -/
def entriesIn (cs : List Cand) (wrote : Nat → Bool) : Nat := ((List.range cs.length).filter fun j => wrote (8 * j)).length

/-! ### PKSC (R276) -/

/-- Scores of the keys `i` to `i + n − 1`. -/
def State.scoreKeys (s : State) (q : PklReq) (die : Nat) (l : Layer) (table : Word) (x : List Val) :
    Nat → Nat → Except PklStop (List Cand × Flags)
  | 0, _ => .ok ([], 0)
  | n + 1, i => do
    let bs ← s.tableBytes q die (padd table (2 * l.dk * i : Nat)) (2 * l.dk)
    let key := valuesOf b16 (elemsOf 2 l.dk bs)
    let r := dot32 q.rm x key.1
    let rest ← s.scoreKeys q die l table x n (i + 1)
    pure ({ val := r.1, idx := i } :: rest.1, key.2 ||| r.2 ||| rest.2)

def State.runPksc (s : State) (q : PklReq) (die : Nat) : PklEnd :=
  let k := fld (wd q.words 3) 0 7
  let out := wd q.words 2
  ({ s := s } : PklEnd).withLayer q die fun e l =>
    e.reads q [(wd q.words 1, elemBytes q * l.dk)] (s.readVector q (wd q.words 1) l.dk) fun e x =>
      let e1 : PklEnd := { e with fl := x.2 }
      let table := if q.k2 then l.k2 else l.k1
      e1.after (placeOk out (plainPlace out && out.toNat % 8 == 0)) fun _ =>
        e1.reads q [(table, 2 * l.dk * l.n)] (s.scoreKeys q die l table x.1 l.n 0) fun e c =>
          let sel := selectCands c.1 k
          ({ e with fl := x.2 ||| c.2 }).write q out (listBytes sel k b32.nanBits) (entriesIn sel) fun e2 =>
            { e2 with count := sel.length }

/-! ### PKSEL (R277) -/

/-- The sums of two lists' pairs. -/
def pairSums (n : Nat) (c1 c2 : List Cand) : List (Cand × Flags) :=
  (c1.filter fun a => a.idx != noIdx).flatMap fun a => (c2.filter fun b => b.idx != noIdx).map fun b =>
    let r := sum32 0 [(b32.decode a.val, false), (b32.decode b.val, false)]
    let sn : Flags := if b32.isSNaN a.val || b32.isSNaN b.val then fNV else 0
    (({ val := r.1, idx := (a.idx * n + b.idx) % 2 ^ 32 } : Cand), r.2 ||| sn)

/-- The softmax of a selection: weights in order, and flags. -/
def softmax (sel : List Cand) : List Cand × Flags :=
  match sel with
  | [] => ([], 0)
  | top :: _ =>
    let m := b32.decode top.val
    let es := sel.map fun c =>
      let x := b32.decode c.val
      if x.cmp m = 0 then b32.roundRat 0 false 1 1 0 else exp32 (x.add 0 m.negate).1
    let z := sum32 0 (es.map fun r => (b32.decode r.1, false))
    let ws := es.map fun r => b32.finish 0 ((b32.decode r.1).div (b32.decode z.1))
    ((sel.zip ws).map fun e => ({ val := e.2.1, idx := e.1.idx } : Cand),
      (es ++ z :: ws).foldl (fun f r => f ||| r.2) 0)

def State.runPksel (s : State) (q : PklReq) (die : Nat) : PklEnd :=
  let w4 := wd q.words 4
  let out := wd q.words 3
  ({ s := s } : PklEnd).withLayer q die fun e l =>
    e.reads q [(wd q.words 1, 8 * fld w4 8 7)] (s.readList q (wd q.words 1) (fld w4 8 7)) fun e c1 =>
      e.reads q [(wd q.words 2, 8 * fld w4 16 7)] (s.readList q (wd q.words 2) (fld w4 16 7)) fun e c2 =>
        e.after (placeOk out (plainPlace out && out.toNat % 8 == 0)) fun _ =>
          let ps := pairSums l.n c1 c2
          let r := softmax (selectCands (ps.map Prod.fst) (fld w4 0 7))
          let fl := ps.foldl (fun f p => f ||| p.2) r.2
          ({ e with fl := fl }).write q out (listBytes r.1 (fld w4 0 7) 0) (entriesIn r.1) fun e1 => { e1 with count := r.1.length }

/-! ### PKGTH (R278) -/

/-- Rows of the entries that are not empty, with their weights. -/
def State.readRows (s : State) (q : PklReq) (die : Nat) (l : Layer) : List Cand → Except PklStop (List (Cand × List Val) × Flags)
  | [] => .ok ([], 0)
  | c :: cs =>
    if c.idx = noIdx then s.readRows q die l cs
    else do
      let r ← s.readRow q die l c.idx
      let rest ← s.readRows q die l cs
      let sn : Flags := if b32.isSNaN c.val then fNV else 0
      pure ((c, r.1) :: rest.1, r.2 ||| sn ||| rest.2)

/-- The weighted sum of the rows. -/
def gatherSum (dv : Nat) (rows : List (Cand × List Val)) : List (Nat × Flags) :=
  (List.range dv).map fun c =>
    sum32 0 (rows.map fun r => (b32.decode r.1.val).mul (r.2.getD c Val.zero))

/-- The value rows and scale bytes that the entries of a list read. -/
def rowRanges (l : Layer) (cs : List Cand) : List (Word × Nat) :=
  (cs.filter fun c => c.idx != noIdx).flatMap fun c =>
    [(padd l.v (l.dv * c.idx : Nat), l.dv), (padd l.vs (l.dv / 256 * c.idx : Nat), l.dv / 256)]

/-- One scale block of a row through window 1: all its lines and its scale byte, or none; an uncorrectable error in the bytes
that it keeps is a fault, and the flags of their decoding are the request's too (R33, R224, R273). -/
def State.writeBlock (s : State) (q : PklReq) (out : Word) (loc : Nat) (ys : List Nat) (b : Nat) :
    State × Flags × Option FaultInfo :=
  let i := s.pklIssuer q
  let at_ (j : Nat) : Word := padd out ((256 * b + 64 * j : Nat) - (loc : Int))
  match (List.range 4).mapM fun j => s.writePlace i (at_ j) 64 with
  | .error f => (s, 0, some f)
  | .ok _ =>
    match s.scaleLoc (scratchOf loc).1 (256 * b - scratchBase (scratchOf loc).1) with
    | none => (s, 0, some (faultAt i cAddress out))
    | some l =>
      let old := s.byte l
      let mine (p : Nat) : Bool := decide (loc ≤ p) && decide (p < loc + ys.length)
      match (List.range 256).find? fun j => !mine (256 * b + j) && (s.poisoned (256 * b + j) 1 || s.poisoned l 1) with
      | some j => (s, 0, some (faultAt i cUncorrectable (padd out ((256 * b + j : Nat) - (loc : Int)))))
      | none =>
        let xs : List (Nat × Flags) := (List.range 256).map fun j =>
          let p := 256 * b + j
          if mine p then (ys.getD (p - loc) 0, 0) else decodeDM8 (s.byte p) old
        let r := requantize (xs.map fun x => b32.decode x.1)
        ((s.writeAt (256 * b) r.1).writeAt l [r.2.1], xs.foldl (fun (f : Flags) (x : Nat × Flags) => f ||| x.2) r.2.2, none)

/-- The row through window 1, block by block; the first failure. -/
def State.writeBlocks (s : State) (q : PklReq) (out : Word) (loc : Nat) (ys : List Nat) :
    List Nat → State × Flags × Option FaultInfo
  | [] => (s, 0, none)
  | b :: bs =>
    let r := s.writeBlock q out loc ys b
    let t := r.1.writeBlocks q out loc ys bs
    (t.1, r.2.1 ||| t.2.1, match r.2.2 with | some f => some f | none => t.2.2)

/-- The output row through its window, at a multiple of the window's element size (R160). -/
def PklEnd.writeRow (e : PklEnd) (q : PklReq) (out : Word) (ys : List Nat) : PklEnd :=
  if out.toNat % (if windowOf out = 3 then 4 else if windowOf out = 2 then 2 else 1) ≠ 0 then
    e.stop (faultAt (e.s.pklIssuer q) cAlign out)
  else
  match windowOf out with
  | 3 => e.write q out (ys.flatMap (leBytes 4)) (fun _ => 0) fun t => { t with count := 1 }
  | 2 =>
    let rs : List (Nat × Flags) := ys.map fun y => b16.round q.rm (b32.decode y)
    ({ e with fl := rs.foldl (fun f (r : Nat × Flags) => f ||| r.2) e.fl }).write q out (rs.flatMap fun (r : Nat × Flags) => leBytes 2 r.1)
      (fun _ => 0) fun t => { t with count := 1 }
  | _ =>
    match e.s.translate (e.s.pklIssuer q) out 1 true false with
    | .ok (.mem loc) =>
      let n := (loc + ys.length - 1) / 256 - loc / 256 + 1
      let r := e.s.writeBlocks q out loc ys ((List.range n).map fun j => loc / 256 + j)
      match r.2.2 with
      | none => { e with s := r.1, fl := e.fl ||| r.2.1, count := 1 }
      | some f => { e with s := r.1, fl := e.fl ||| r.2.1 }.stop f
    | .error f => e.stop f
    | .ok _ => e.stop (faultAt (e.s.pklIssuer q) cAddress out)

def State.runPkgth (s : State) (q : PklReq) (die : Nat) : PklEnd :=
  let out := wd q.words 2
  let k := fld (wd q.words 3) 0 7
  ({ s := s } : PklEnd).withLayer q die fun e l =>
    e.reads q [(wd q.words 1, 8 * k)] (s.readList q (wd q.words 1) k) fun e sel =>
      e.after (placeOk out ((spaceOf out == 4 || spaceOf out == 5) && [1, 2, 3].contains (windowOf out))) fun _ =>
        e.reads q (rowRanges l sel) (s.readRows q die l sel) fun e rows =>
          let y : List (Nat × Flags) := gatherSum l.dv rows.1
          ({ e with fl := y.foldl (fun (f : Flags) (r : Nat × Flags) => f ||| r.2) rows.2 }).writeRow q out (y.map Prod.fst)

/-! ### PKSCT (R279) -/

/-- GS of one list: the sums of ds over the pairs whose half index is the entry's. -/
def gradScores (cs : List Cand) (ds : List (Nat × Nat)) : List (Nat × Flags) :=
  cs.map fun c =>
    if c.idx = noIdx then (0, 0)
    else sum32 0 ((ds.filter fun d => d.1 == c.idx).map fun d => (b32.decode d.2, false))

/-- The cells of one line of GV with what is added to each. -/
def addCells (l : Layer) (rm : Nat) (w : Val) (g : List Val) (old : List Byte) : List Byte × Flags :=
  let rs := ((elemsOf 4 (old.length / 4) old).zip g).map fun e =>
    let c := convertInt 32 true rm (((w.mul e.2).1).scale (-l.eg))
    (leBytes 4 ((e.1 + wrapNat 32 c.1) % 2 ^ 32), c.2)
  (rs.flatMap Prod.fst, rs.foldl (fun f r => f ||| r.2) 0)

/-- The bytes of the cells that begin in the 64-byte line of a pointer (R166), of `n` cells left; a cell over two lines goes
with the line in which it begins (log 48). -/
def cellBytes (va : Word) (n : Nat) : Nat := 4 * min n ((67 - va.toNat % 64) / 4)

/-- The rest of one pair's row of GV from a cell on, line by line, each read, checked and written in one operation. -/
def PklEnd.scatterLines (e : PklEnd) (q : PklReq) (die : Nat) (l : Layer) (w : Val) : Nat → Word → List Val → PklEnd
  | 0, _, _ => e
  | fuel + 1, va, g =>
    let n := cellBytes va g.length
    let i := e.s.pklIssuer q
    if g.isEmpty then e
    else
      e.after (e.s.tablePlace q die va n true) fun _ =>
        e.reads q [(va, n)] (e.s.tableBytes q die va n) fun e old =>
          let r := addCells l q.rm w g old
          let e1 : PklEnd := { e with fl := e.fl ||| r.2 }
          match e1.s.writeLine i va r.1 with
          | .error f => ({ e1 with s := e1.s.noteFailed i va n f }).stop f
          | .ok t => ({ e1 with s := t }).scatterLines q die l w fuel (padd va n) (g.drop (n / 4))

/-- The pairs ascending; COUNT those completed. -/
def PklEnd.scatter (e : PklEnd) (q : PklReq) (die : Nat) (l : Layer) (g : List Val) : List (Cand × List Val) → PklEnd
  | [] => e
  | r :: rs =>
    let e1 := e.scatterLines q die l (b32.decode r.1.val) (l.dv / 16 + 1) (padd l.gv (4 * l.dv * r.1.idx : Nat)) g
    if e1.cause ≠ 0 then e1 else ({ e1 with count := e1.count + 1 }).scatter q die l g rs

/-- d, dot and ds of the selected pairs: the index and ds of each, and flags. -/
def pairGrads (g : List Val) (rows : List (Cand × List Val)) : List (Nat × Nat) × Flags :=
  let d := rows.map fun r => dot32 0 g r.2
  let dot := sum32 0 ((rows.zip d).map fun e => (b32.decode e.1.1.val).mul (b32.decode e.2.1))
  let ds := (rows.zip d).map fun e =>
    let inner := (b32.decode e.2.1).add 0 (b32.decode dot.1).negate
    let p := (b32.decode e.1.1.val).mul inner.1
    (e.1.1.idx, b32.finish 0 (p.1, p.2 || inner.2))
  (ds.map fun x => (x.1, x.2.1), (d ++ dot :: ds.map Prod.snd).foldl (fun f r => f ||| r.2) 0)

def State.runPksct (s : State) (q : PklReq) (die : Nat) : PklEnd :=
  let w6 := wd q.words 6
  let gs := wd q.words 5
  ({ s := s } : PklEnd).withLayer q die fun e l =>
    e.after (placeOk l.gv (l.gv != 0)) fun _ =>
      e.reads q [(wd q.words 2, elemBytes q * l.dv)] (s.readVector q (wd q.words 2) l.dv) fun e g =>
        e.reads q [(wd q.words 1, 8 * fld w6 0 7)] (s.readList q (wd q.words 1) (fld w6 0 7)) fun e sel =>
          e.reads q [(wd q.words 3, 8 * fld w6 8 7)] (s.readList q (wd q.words 3) (fld w6 8 7)) fun e c1 =>
            e.reads q [(wd q.words 4, 8 * fld w6 16 7)] (s.readList q (wd q.words 4) (fld w6 16 7)) fun e c2 =>
              e.after (placeOk gs (plainPlace gs)) fun _ =>
                e.reads q (rowRanges l sel) (s.readRows q die l sel) fun e rows =>
                  let p := pairGrads g.1 rows.1
                  let g1 := gradScores c1 (p.1.map fun x => (x.1 / l.n, x.2))
                  let g2 := gradScores c2 (p.1.map fun x => (x.1 % l.n, x.2))
                  let fl := (g1 ++ g2).foldl (fun f r => f ||| r.2) (g.2 ||| rows.2 ||| p.2)
                  ({ e with fl := fl }).write q gs ((g1 ++ g2).flatMap fun (r : Nat × Flags) => leBytes 4 r.1)
                    (fun _ => 0) fun e1 => e1.scatter q die l g.1 rows.1

/-! ### The device steps -/

/-- A request at its unit: skipped after an error, else run (R274). -/
def State.runRequest (s : State) (q : PklReq) (run : State → PklReq → Nat → PklEnd) : State :=
  if q.skip then State.endRequest q { s := s, cause := 9 }
  else State.endRequest q (run s q (s.unitOfLayer (s.pklIssuer q) q.ld))

def execPkscExecute (s : State) : Host.Outcome State Fault Refusal :=
  match s.msg with
  | some (.pkscExecute q) => .next (s.runRequest q State.runPksc)
  | _ => .next s

def execPkselExecute (s : State) : Host.Outcome State Fault Refusal :=
  match s.msg with
  | some (.pkselExecute q) => .next (s.runRequest q State.runPksel)
  | _ => .next s

def execPkgthExecute (s : State) : Host.Outcome State Fault Refusal :=
  match s.msg with
  | some (.pkgthExecute q) => .next (s.runRequest q State.runPkgth)
  | _ => .next s

def execPksctExecute (s : State) : Host.Outcome State Fault Refusal :=
  match s.msg with
  | some (.pksctExecute q) => .next (s.runRequest q State.runPksct)
  | _ => .next s

end Sys2Proof.Machine
end

