-- ==== Sys2Proof/Machine/Save.lean ====
section
/-! DEFINITION. CTXSV and CTXRS (R379-R381). -/

namespace Sys2Proof.Machine

/-! ### CTXSV (R379) -/

/-- The position of a tile in its rectangle, and its number in row-major order there. -/
def Part.pos (x : Part) (k : Nat) : Nat × Nat := (tileX k - x.x0, tileY k - x.y0)
def Part.ordinal (x : Part) (k : Nat) : Nat := (x.pos k).2 * x.w + (x.pos k).1

/-- The banks of a core's handles, in order of the handles. -/
def State.bankBytes (s : State) (k : Nat) (c : Core) : List Byte :=
  (List.range 16).flatMap fun i => match c.aReg i with
    | some r => s.bytes (accBase k + 2048 * r.1) (2048 * r.2)
    | none => []

/-- KIND 0x02, 0x04 and 0x05 of a force-saved core. -/
def State.savedSections (s : State) (p : Nat) (x : Part) (k : Nat) : List ImgSection :=
  match (s.tileAt k).saved with
  | none => []
  | some c =>
    let xy := x.pos k
    let at_ (kind : Nat) (bs : List Byte) : ImgSection := { kind := kind, idx := xy.1, idy := xy.2, body := bs }
    let bead := match c.bead with | some b => s.slotAt b | none => none
    let rod := match c.bead with | some b => ((s.unitAt b.unit).rodsOf (some p)).findIdx (· == b.rod) | none => 0
    [at_ 2 (bytesOfWords (coreWords c rod (match bead with | some y => y.record | none => {}))),
     at_ 4 (s.bankBytes k c), at_ 5 (bytesOfWords (pleatWords (s.tileAt k)))]

def State.barSection (s : State) (x : Part) (k : Nat) : ImgSection :=
  { kind := 6, idx := (x.pos k).1, idy := (x.pos k).2
    body := bytesOfWords ((List.range 8).flatMap fun b => barWords (s.barAt k b)) }

/-- A rod's ready records in order, then its parked ones, then those that wait for it on the overflow list (log 18). -/
def State.rodRecords (s : State) (u r : Nat) : List BeadRec :=
  match s.rodAt u r with
  | none => []
  | some rod =>
    rod.waiting.filterMap (fun n => (Map.find? rod.slots n).map BeadSlot.record) ++
      ((s.unitAt u).overflow.filter fun o => o.rod == r).map Overflow.record

/-- KIND 0x07 of a unit, LOC the rod's index; the units of the rectangle follow one another (log 18). -/
def State.rodSections (s : State) (p : Nat) (u : Nat) : List ImgSection :=
  ((s.unitAt u).rodsOf (some p)).zipIdx.map fun e =>
    { kind := 7, loc := nw e.2, body := bytesOfWords ((s.rodRecords u e.1).flatMap fun r => wordsOfRec (savedRec r)) }

/-- A granule of a 4 KiB page has D = 1. -/
def State.pageDirty (s : State) (loc : Nat) : Bool := (List.range 128).any fun g => metaD (s.metaSeen (loc / 32 + g))

def State.codedPage (s : State) (loc : Nat) : List Byte :=
  codePage (s.look loc 4096) ((List.range 128).map fun g => s.metaAt (loc / 32 + g))

def State.scratchSections (s : State) (x : Part) (k : Nat) : List ImgSection :=
  ((List.range 512).filter fun j => s.pageDirty (scratchBase k + 4096 * j)).map fun j =>
    { kind := 3, idx := (x.pos k).1, idy := (x.pos k).2, loc := nw (4096 * j), body := s.codedPage (scratchBase k + 4096 * j) }

/-- The home units that the heap window touches, from HB + HO on, modulo 2^52: none without a window, and none of addresses beyond
2^52 (R151). -/
def heapUnits (x : Part) : List Nat :=
  let w := heapOf x.kd
  let len := min w.2.1.toNat (2 ^ 52 - fld w.1 0 52)
  let base := (fld w.1 0 52 + fld w.2.2 0 52) % 2 ^ 52
  if len = 0 then []
  else
    ((List.range (min (2 ^ 40) ((base % 4096 + len + 4095) / 4096))).map fun j => (base / 4096 * 4096 + 4096 * j) % 2 ^ 52).filter
      fun pa => decide (pa < 2 ^ 40)

/-- The heap window's units with D, by home address, wherever their data lie (R155). -/
def State.heapSections (s : State) (x : Part) : List ImgSection :=
  ((heapUnits x).filter fun pa => s.pageDirty (s.current pa)).map fun pa =>
    { kind := 8, loc := nw pa, body := s.codedPage (s.current pa) }

/-- A unit of the heap window lies on a device that a dead link cuts off: reading it is a dead-link fault (R156). -/
def State.heapLost (s : State) (x : Part) : Bool := (heapUnits x).any fun pa => s.lost.contains (fld (s.indir pa) 32 12)

def State.imageSections (s : State) (p : Nat) (x : Part) (mem : Bool) : List ImgSection :=
  [{ kind := 1, body := bytesOfWords (partWords x) }] ++ x.tiles.flatMap (s.savedSections p x) ++
    x.tiles.map (s.barSection x) ++ x.units.flatMap (s.rodSections p) ++ x.tiles.flatMap (s.scratchSections x) ++
    (if mem then s.heapSections x else []) ++ [{ kind := 0x0F }]

/-- Writes bytes behind the image's first 16, checked in full first. -/
def State.writeImage (s : State) (va : Word) (bs : List Byte) : Except FaultInfo State :=
  match s.writePieces (s.issuer s.cur .c) (padd va 16) (bs.length / 32 + 2) bs.length with
  | .error f => .error f
  | .ok ps => .ok (s.fillPieces ps bs)

/-- The home units of the global pages among some sections, each read or written, count one access (R155). -/
def State.countUnits (s : State) (xs : List ImgSection) : State :=
  (xs.filter fun x => x.kind == 8).foldl (fun (t : State) (x : ImgSection) => t.countUnit (t.current x.loc.toNat)) s

/-- CTXSV of a drained partition with the capacity read; beyond it, what has been written is no image. -/
def State.saveImage (s0 : State) (d p : Nat) (x : Part) (va : Word) (cap : Nat) (mem : Bool) : State :=
  let xs := s0.imageSections p x mem
  let bs := xs.flatMap ImgSection.bytes
  let s := s0.countUnits xs
  if cap < 16 + bs.length then
    match s.writeImage va ((List.range (cap - 16)).map (Config.freeEvu s.free)) with
    | .error f => (s.noteFailed (s.issuer s.cur .c) f.va 1 f).trap f
    | .ok t => ({ t with free := t.free + 1 } : State).answer d (BitVec.allOnes 64)
  else
    match s.writeImage va bs with
    | .error f => (s.noteFailed (s.issuer s.cur .c) f.va 1 f).trap f
    | .ok t => t.answer d (nw (16 + bs.length))

/-- An image pointer: global, 4 KiB aligned (R379). -/
def State.withImage (s : State) (va : Word) (go : State) : State :=
  if spaceOf va ≠ 0 then s.trap (faultAt (s.issuer s.cur .c) cAddress va)
  else if va.toNat % 4096 ≠ 0 then s.trap (faultAt (s.issuer s.cur .c) cAlign va)
  else go

/-- CTXSV; of a partition that is not drained the result is not stated (log 18). -/
def execCtxsv (_pfx : Pfx) (d a b : Nat) (mem : Bool) (s : State) : Host.Outcome State Fault Refusal :=
  let p := fld (s.sr a) 0 8
  let va := s.sr b
  .next (s.secureOnly (s.withImage va (s.withLoad va 8 fun t bs =>
    match (match t.partAt p with | some x => if x.phase = .drained then some x else none | none => none) with
    | none => t.freeWord.2.answer d t.freeWord.1
    | some x => if mem && t.heapLost x then t.trapCause cDead else t.saveImage d p x va (leNat bs) mem)))

/-! ### Reading an image (R381) -/

def knownKind (k : Nat) : Bool := decide (1 ≤ k ∧ k ≤ 8) || k == 0x0F

/-- The sections from an offset up to KIND 0x0F; none for a bad header or a missing end. -/
def State.readSections (s : State) (i : Issuer) (va : Word) (cap : Nat) :
    Nat → Nat → Except FaultInfo (Option (List ImgSection))
  | 0, _ => .ok none
  | fuel + 1, off =>
    if cap < off + 16 then .ok none
    else do
      let hd ← s.readPieces i (padd va off) 2 16
      let w0 := wd (wordsOf 2 hd) 0
      let len := fld w0 0 32
      let x : ImgSection := { kind := fld w0 56 8, idx := fld w0 40 5, idy := fld w0 36 4, loc := wd (wordsOf 2 hd) 1 }
      if !knownKind x.kind || len % 16 != 0 || decide (cap < off + 16 + len) then pure none
      else if x.kind = 0x0F then pure (some [])
      else
        let body ← s.readPieces i (padd va (off + 16 : Nat)) (len / 32 + 2) len
        let rest ← s.readSections i va cap fuel (off + 16 + len)
        pure (rest.map fun r => { x with body := body } :: r)

def ImgSection.words (x : ImgSection) : List Word := wordsOf (x.body.length / 8) x.body

/-- A section that fits a W by H partition of NROD rods. -/
def sectionOk (w h nrod : Nat) (x : ImgSection) : Bool :=
  let inRect := decide (x.idx < w) && decide (x.idy < h)
  match x.kind with
  | 1 => decide (32 * 8 ≤ x.body.length)
  | 2 => inRect && decide (8 * coreLen ≤ x.body.length) && decide (coreRod x.words < nrod)
  | 3 => inRect && x.loc.toNat % 4096 == 0 && decide (x.loc.toNat < 2 ^ 21) && (decodePage x.body).isSome
  | 4 => inRect
  | 5 => inRect
  | 6 => inRect && x.body.length == 128
  | 7 => x.body.length % 64 == 0 && decide (x.loc.toNat < nrod)
  | 8 => x.loc.toNat % 4096 == 0 && decide (x.loc.toNat < 2 ^ 40) && (decodePage x.body).isSome
  | _ => false

/-- The partition section of an image whose sections are all good. -/
def imagePart (xs : List ImgSection) : Option (List Word) :=
  match xs.filter fun x => x.kind == 1 with
  | [x] =>
    let ws := x.words
    let w := (wd ws 16).toNat
    let h := (wd ws 17).toNat
    if decide (1 ≤ w) && decide (w ≤ 24) && decide (1 ≤ h) && decide (h ≤ 16) && xs.all (sectionOk w h (Kd.nrod (ws.take 16)))
    then some ws else none
  | _ => none

/-! ### Restoring (R381) -/

/-- A page's bytes and metadata: a write of every granule (R165), TAG, F and W as saved. -/
def State.restorePage (s : State) (loc : Nat) (body : List Byte) : State :=
  match decodePage body with
  | none => s
  | some (bs, ms) =>
    ms.zipIdx.foldl (fun (t : State) (e : BitVec 12 × Nat) =>
      t.putMeta (loc / 32 + e.2) (mkMeta true (metaW e.1) (metaF e.1) (metaTag e.1))) (s.writeAt loc bs)

/-- A bead that an EVU spawned is known by its operands: its entry runs under its run wave. -/
def State.knowRecompute (s : State) (x : BeadRec) : BeadRec :=
  let n := fld x.arg0 44 8
  match (if spaceOf x.arg0 = 0xA then s.ctxAt n else none) with
  | none => x
  | some c =>
    { x with evu := c.desc == x.arg3 && s.runWaveOf n (c.key (fld x.arg0 36 8) (fld x.arg0 20 16)) == some x.arg1.toNat }

/-- A record that finds the overflow list at its capacity exhausts it and is not enqueued (R129): the partition's steward receives
a machine check, with its record; no core failed in a CTXRS, so none is taken out of service (DESIGN CHOICE, log 16). -/
def State.listExhausted (s : State) (p : Nat) : State :=
  match s.partAt p with
  | none => s
  | some x =>
    ((s.partRecord p (recordWords x.world 0 0 0 { cause := 0x36, path := .device } 0)).1).postCheck x.die (some p) 420

/-- A record enters the rod of an index of a unit at its tail, as a new bead; a full rod leaves it on the overflow list, as far as
OVCAP goes (R129).  A record of the other world enters none (R84, log 18). -/
def State.restoreRecord (s : State) (p u rodk : Nat) (x : BeadRec) : State :=
  let r := ((s.unitAt u).rodsOf (some p)).getD rodk 0
  match s.rodAt u r with
  | none => s
  | some rod =>
    if !worldFits rod x then s
    else
      match rod.freeSlot? with
      | some n => s.enqueueNew ⟨u, r, n⟩ (refitRecord r rod (s.knowRecompute x))
      | none =>
        if (s.unitAt u).overflow.length < (s.parkCaps u).2 then s.addOverflow u r (refitRecord r rod (s.knowRecompute x))
        else s.listExhausted p

/-- A force-saved bead resumes on its tile, unless its record is of the other world (R84). -/
def State.restoreCore (s : State) (p k : Nat) (ws : List Word) : State :=
  let u := unitOf k
  let r := ((s.unitAt u).rodsOf (some p)).getD (coreRod ws) 0
  match s.rodAt u r with
  | none => s
  | some rod =>
    if !worldFits rod (coreRec ws) then s
    else
      match rod.freeSlot? with
      | none => s
      | some n =>
        let x := refitRecord r rod (s.knowRecompute (coreRec ws))
        let c := coreOfWords (s.coreAt k) ws
        (((s.newBead.2.putSlot ⟨u, r, n⟩ { record := x, use := .running k, uid := s.nextBead }).wroteSlot ⟨u, r, n⟩).putCore k
          { c with mode := .running, bead := some ⟨u, r, n⟩, wdFrom := s.cyc }).armWatchdog k

/-- The banks of a restored core's handles. -/
def State.restoreBanks (s : State) (k : Nat) (body : List Byte) : State :=
  ((List.range 16).foldl (fun (t : State × List Byte) (i : Nat) =>
    match (t.1.coreAt k).aReg i with
    | some r => (t.1.putBytes (accBase k + 2048 * r.1) (t.2.take (2048 * r.2)), t.2.drop (2048 * r.2))
    | none => t) (s, body)).1

/-- The barrier registers of a tile; a saved ARRIVE counts as arrived (R378). -/
def State.restoreBars (s : State) (k : Nat) (ws : List Word) : State :=
  (List.range 8).foldl (fun (t : State) (b : Nat) =>
    let r := barOf (ws.drop (2 * b))
    let t1 := if r = {} then t else t.putBar k b r
    if r.arr then t1.push [.barrierArrivalMessage { tile := k, b := b, key := r.key k, odd := r.ph.toNat % 2 == 1, via := .own }]
    else t1) s

/-- One section, the tile at its IDX and IDY. -/
def State.restoreSection (s : State) (p : Nat) (x : Part) (kind : Nat) (e : ImgSection) : State :=
  let k := tileAtXY (x.x0 + e.idx) (x.y0 + e.idy)
  if e.kind ≠ kind then s
  else
    match kind with
    | 2 => s.restoreCore p k e.words
    | 3 => s.restorePage (scratchBase k + e.loc.toNat) e.body
    | 4 => s.restoreBanks k e.body
    | 5 => s.modTile k fun t => t.withPleat e.words
    | 6 => s.restoreBars k e.words
    | 8 => s.restorePage (s.current e.loc.toNat) e.body
    | _ => s

/-- The records of a rod section. -/
def ImgSection.records (e : ImgSection) : List BeadRec :=
  (List.range (e.body.length / 64)).map fun n => recOfWords (e.words.drop (8 * n))

/-- The rod sections: of those with one index, the n-th is for the n-th unit of the rectangle (log 18). -/
def State.restoreRods (s : State) (p : Nat) (x : Part) (xs : List ImgSection) : State :=
  let rods := xs.filter fun e => e.kind == 7
  rods.zipIdx.foldl (fun (t : State) (e : ImgSection × Nat) =>
    let n := ((rods.take e.2).filter fun y => y.loc == e.1.loc).length
    let u := x.units.getD (n % x.units.length) 0
    e.1.records.foldl (fun (a : State) (y : BeadRec) => a.restoreRecord p u e.1.loc.toNat y) t) s

/-- The partition on its rectangle with everything that the image holds.  It counts as launched again for its image words (R53): a
word stored to before the save is memory's from here on (DESIGN CHOICE, log 63). -/
def State.restorePart (s : State) (p : Nat) (x : Part) (xs : List ImgSection) : State :=
  let s1 := x.tiles.foldl State.clearScratch (s.setUp p x)
  let put (t : State) (kinds : List Nat) : State := kinds.foldl (fun (t : State) (kind : Nat) =>
    xs.foldl (fun (a : State) (e : ImgSection) => a.restoreSection p x kind e) t) t
  let s2 := put ((put s1 [2, 4, 5, 6]).restoreRods p x xs) [3, 8]
  let root := match s2.probeWord (deviceIssuer (tileAtXY x.x0 x.y0) (some p) x.world x.kd) (wd x.kd 5) with
    | .ok loc => some (s2.locKey loc)
    | .error _ => none
  (s2.modPart p fun y => { y with rootLoc := root }).startRampUp p

/-- CTXRS with the sections read. -/
def State.restoreImage (s : State) (d : Nat) (r : Option (List ImgSection)) : State :=
  match (match r with | some xs => (imagePart xs).map fun ws => (xs, ws) | none => none) with
  | none => s.answer d (BitVec.allOnes 64)
  | some (xs, ws) =>
    match s.freeNumber, s.findOrigin (wd ws 16).toNat (wd ws 17).toNat (Kd.nrod (ws.take 16)) with
    | some p, some o => (s.restorePart p (partOfWords ws o.1 o.2 s.tick) xs).answer d (nw p)
    | _, _ => s.answer d (BitVec.allOnes 64)

/-- The bytes behind the first 16 that an image's sections and its end take; of what is no image, its first header. -/
def imageLength (r : Option (List ImgSection)) : Nat :=
  match r with
  | some xs => xs.foldl (fun n x => n + 16 + x.body.length) 16
  | none => 16

def execCtxrs (_pfx : Pfx) (d a : Nat) (s : State) : Host.Outcome State Fault Refusal :=
  let va := s.sr a
  .next (s.secureOnly (s.withImage va (s.withLoad va 8 fun t bs =>
    let cap := leNat bs
    match t.readSections (t.issuer t.cur .c) va cap (cap / 16) 16 with
    | .error f => (t.noteFailed (t.issuer t.cur .c) f.va 1 f).trap f
    | .ok r => (t.noteRange (t.issuer t.cur .c) (padd va 16) (imageLength r)).restoreImage d r)))

end Sys2Proof.Machine
end

