-- ==== Sys2Proof/Machine/Scalar.lean ====
section
/-! DEFINITION. Page 0: integer, logic, bit, move, compare and address arithmetic (R107-R118). -/

namespace Sys2Proof.Machine

/-! ### The functions f(a, b) of R109 to R118 -/

/-- A shift amount: b[5:0] (R109). -/
def amt (b : Word) : Nat := b.toNat % 64

def rolW (a b : Word) : Word := a.rotateLeft (amt b)

def minW (a b : Word) : Word := if a.toInt ≤ b.toInt then a else b
def maxW (a b : Word) : Word := if a.toInt ≤ b.toInt then b else a
def minuW (a b : Word) : Word := if a.toNat ≤ b.toNat then a else b
def maxuW (a b : Word) : Word := if a.toNat ≤ b.toNat then b else a

/-- Bits [127:64] of the signed and of the unsigned product (R110). -/
def mulhW (a b : Word) : Word := BitVec.ofInt 64 (a.toInt * b.toInt / 2 ^ 64)
def mulhuW (a b : Word) : Word := BitVec.ofNat 64 (a.toNat * b.toNat / 2 ^ 64)

/-- DIV and REM (R110): toward zero; by zero −1 and a; the one overflow wraps to −2^63 and 0. -/
def divW (a b : Word) : Word := if b = 0 then BitVec.ofInt 64 (-1) else BitVec.ofInt 64 (a.toInt.tdiv b.toInt)
def remW (a b : Word) : Word := if b = 0 then a else BitVec.ofInt 64 (a.toInt.tmod b.toInt)
def divuW (a b : Word) : Word := if b = 0 then BitVec.ofInt 64 (-1) else BitVec.ofNat 64 (a.toNat / b.toNat)
def remuW (a b : Word) : Word := if b = 0 then a else BitVec.ofNat 64 (a.toNat % b.toNat)

/-- CLZ, CTZ, POPC (R112). -/
def clzW (a : Word) : Word := if a = 0 then 64 else BitVec.ofNat 64 (63 - Nat.log2 a.toNat)
def ctzW (a : Word) : Word := BitVec.ofNat 64 (((List.range 64).find? fun i => bitOf a i).getD 64)
def popcW (a : Word) : Word := BitVec.ofNat 64 ((List.range 64).filter fun i => bitOf a i).length

/-- The low `n` bits, sign- or zero-extended (R112). -/
def sextW (n : Nat) (a : Word) : Word := BitVec.ofInt 64 (signed n a.toNat)
def zextW (n : Nat) (a : Word) : Word := BitVec.ofNat 64 (a.toNat % 2 ^ n)

/-- PADD of words (R117). -/
def paddW (a b : Word) : Word := padd a b.toInt

/-- A pointer with a new tag (R118). -/
def ptagW (a t : Word) : Word := BitVec.ofNat 64 (t.toNat % 256 * 2 ^ 56 + fld a 0 56)

/-- BINS (R113): the low `len` bits of `a` put over a field of `d`. -/
def binsW (d a : Word) (pos len : Nat) : Word := setFld d pos len (a.toNat % 2 ^ len)

/-! ### The instructions -/

def execAdd (d a b : Nat) (s : State) : Host.Outcome State Fault Refusal := .next (s.answer2 d a b (· + ·))
def execSub (d a b : Nat) (s : State) : Host.Outcome State Fault Refusal := .next (s.answer2 d a b (· - ·))
def execAnd (d a : Nat) (src : Src) (s : State) : Host.Outcome State Fault Refusal := .next (s.answerSrc d a src (· &&& ·))
def execOr (d a : Nat) (src : Src) (s : State) : Host.Outcome State Fault Refusal := .next (s.answerSrc d a src (· ||| ·))
def execXor (d a : Nat) (src : Src) (s : State) : Host.Outcome State Fault Refusal := .next (s.answerSrc d a src (· ^^^ ·))
def execAndn (d a b : Nat) (s : State) : Host.Outcome State Fault Refusal := .next (s.answer2 d a b fun a b => a &&& ~~~b)
def execMov (d a : Nat) (s : State) : Host.Outcome State Fault Refusal := .next (s.answer d (id (s.sr a)))
def execMin (d a b : Nat) (s : State) : Host.Outcome State Fault Refusal := .next (s.answer2 d a b minW)
def execMax (d a b : Nat) (s : State) : Host.Outcome State Fault Refusal := .next (s.answer2 d a b maxW)
def execMinu (d a b : Nat) (s : State) : Host.Outcome State Fault Refusal := .next (s.answer2 d a b minuW)
def execMaxu (d a b : Nat) (s : State) : Host.Outcome State Fault Refusal := .next (s.answer2 d a b maxuW)
def execShl (d a : Nat) (src : Src) (s : State) : Host.Outcome State Fault Refusal := .next (s.answerSrc d a src fun a b => a <<< amt b)
def execShr (d a : Nat) (src : Src) (s : State) : Host.Outcome State Fault Refusal := .next (s.answerSrc d a src fun a b => a >>> amt b)
def execSar (d a : Nat) (src : Src) (s : State) : Host.Outcome State Fault Refusal := .next (s.answerSrc d a src fun a b => a.sshiftRight (amt b))
def execRol (d a : Nat) (src : Src) (s : State) : Host.Outcome State Fault Refusal := .next (s.answerSrc d a src rolW)
def execMul (d a : Nat) (src : Src) (s : State) : Host.Outcome State Fault Refusal := .next (s.answerSrc d a src (· * ·))
def execMulh (d a b : Nat) (s : State) : Host.Outcome State Fault Refusal := .next (s.answer2 d a b mulhW)
def execMulhu (d a b : Nat) (s : State) : Host.Outcome State Fault Refusal := .next (s.answer2 d a b mulhuW)
def execDiv (d a b : Nat) (s : State) : Host.Outcome State Fault Refusal := .next (s.answer2 d a b divW)
def execDivu (d a b : Nat) (s : State) : Host.Outcome State Fault Refusal := .next (s.answer2 d a b divuW)
def execRem (d a b : Nat) (s : State) : Host.Outcome State Fault Refusal := .next (s.answer2 d a b remW)
def execRemu (d a b : Nat) (s : State) : Host.Outcome State Fault Refusal := .next (s.answer2 d a b remuW)

/-- SEL: D is read as the condition (R114). -/
def execSel (d a b : Nat) (s : State) : Host.Outcome State Fault Refusal :=
  .next (s.answer d (if s.sr d ≠ 0 then s.sr a else s.sr b))

def execSeq (d a : Nat) (src : Src) (s : State) : Host.Outcome State Fault Refusal :=
  .next (s.answerSrc d a src fun a b => boolWord (decide (a = b)))
def execSne (d a : Nat) (src : Src) (s : State) : Host.Outcome State Fault Refusal :=
  .next (s.answerSrc d a src fun a b => boolWord (decide (a ≠ b)))
def execSlt (d a : Nat) (src : Src) (s : State) : Host.Outcome State Fault Refusal :=
  .next (s.answerSrc d a src fun a b => boolWord (decide (a.toInt < b.toInt)))
def execSltu (d a : Nat) (src : Src) (s : State) : Host.Outcome State Fault Refusal :=
  .next (s.answerSrc d a src fun a b => boolWord (decide (a.toNat < b.toNat)))
def execSle (d a : Nat) (src : Src) (s : State) : Host.Outcome State Fault Refusal :=
  .next (s.answerSrc d a src fun a b => boolWord (decide (a.toInt ≤ b.toInt)))
def execSleu (d a : Nat) (src : Src) (s : State) : Host.Outcome State Fault Refusal :=
  .next (s.answerSrc d a src fun a b => boolWord (decide (a.toNat ≤ b.toNat)))
def execClz (d a : Nat) (s : State) : Host.Outcome State Fault Refusal := .next (s.answer d (clzW (s.sr a)))
def execCtz (d a : Nat) (s : State) : Host.Outcome State Fault Refusal := .next (s.answer d (ctzW (s.sr a)))
def execPopc (d a : Nat) (s : State) : Host.Outcome State Fault Refusal := .next (s.answer d (popcW (s.sr a)))
def execPgtag (d a : Nat) (s : State) : Host.Outcome State Fault Refusal :=
  .next (s.answer d (BitVec.ofNat 64 (fld (s.sr a) 56 8)))
def execSextB (d a : Nat) (s : State) : Host.Outcome State Fault Refusal := .next (s.answer d (sextW 8 (s.sr a)))
def execSextH (d a : Nat) (s : State) : Host.Outcome State Fault Refusal := .next (s.answer d (sextW 16 (s.sr a)))
def execSextW (d a : Nat) (s : State) : Host.Outcome State Fault Refusal := .next (s.answer d (sextW 32 (s.sr a)))
def execZextB (d a : Nat) (s : State) : Host.Outcome State Fault Refusal := .next (s.answer d (zextW 8 (s.sr a)))
def execZextH (d a : Nat) (s : State) : Host.Outcome State Fault Refusal := .next (s.answer d (zextW 16 (s.sr a)))
def execZextW (d a : Nat) (s : State) : Host.Outcome State Fault Refusal := .next (s.answer d (zextW 32 (s.sr a)))
def execPadd (d a : Nat) (src : Src) (s : State) : Host.Outcome State Fault Refusal := .next (s.answerSrc d a src paddW)
def execPtag (d a : Nat) (src : Src) (s : State) : Host.Outcome State Fault Refusal := .next (s.answerSrc d a src ptagW)
def execShadd (k d a b : Nat) (s : State) : Host.Outcome State Fault Refusal :=
  .next (s.answer2 d a b fun x y => x + y * BitVec.ofNat 64 (2 ^ k))

/-- BEXT (R113). -/
def execBext (d a pos len : Nat) (s : State) : Host.Outcome State Fault Refusal :=
  .next (s.answer d (BitVec.ofNat 64 (fld (s.sr a) pos len)))

def execBins (d a pos len : Nat) (s : State) : Host.Outcome State Fault Refusal :=
  .next (s.answer d (binsW (s.sr d) (s.sr a) pos len))

/-- ADDI and LI (R115). -/
def execAddi (d : Nat) (imm : Int) (s : State) : Host.Outcome State Fault Refusal :=
  .next (s.answer d (s.sr d + BitVec.ofInt 64 imm))

def execLi (d : Nat) (imm : Int) (s : State) : Host.Outcome State Fault Refusal := .next (s.answer d (BitVec.ofInt 64 imm))

end Sys2Proof.Machine
end

