-- ==== Sys2Proof/Machine/Tile.lean ====
section
/-! DEFINITION. Page 3: view registers, appends to the Pleat table, demand, store and drop, accumulator handles
(R241-R265). -/

namespace Sys2Proof.Machine

def cView : Nat := 0x13
def cShape : Nat := 0x14
def cType : Nat := 0x15
def cOverlap : Nat := 0x16
def cHandle : Nat := 0x17
def cAccFull : Nat := 0x18

/-- Fails with a precise fault unless the check holds. -/
def need (ok : Bool) (cause : Nat) : Except FaultInfo Unit := if ok then .ok () else .error { cause := cause }

/-! ### View registers (R243-R245) -/

def execTview (_pfx : Pfx) (d a : Nat) (off : Int) (s : State) : Host.Outcome State Fault Refusal :=
  let ea := padd (s.sr a) off
  .next (s.onTile (
    if ea.toNat % 32 ≠ 0 then s.trap { cause := cAlign, va := ea }
    else s.withLoad ea 32 fun t bs =>
      let x : ViewReg := BitVec.ofNat 256 (leNat bs)
      if t.viewOk t.cur x then (t.setMe (t.me.setT d x)).retire else t.trapCause cView))

def execTvset (_pfx : Pfx) (word d a : Nat) (s : State) : Host.Outcome State Fault Refusal :=
  let x := View.setWord ((s.me.tReg d).getD View.blank) word (s.sr a)
  .next (s.onTile (if s.viewOk s.cur x then (s.setMe (s.me.setT d x)).retire else s.trapCause cView))

/-! ### The checks of an append (R246) -/

/-- A loaded view register. -/
def State.loaded (s : State) (n : Nat) : Except FaultInfo ViewReg :=
  match s.me.tReg n with
  | some x => .ok x
  | none => .error { cause := cView }

/-- The bank run of a KIND 1 view, which must hold all its elements. -/
def State.bankRun (s : State) (x : ViewReg) : Except FaultInfo (Nat × Nat) :=
  if View.kind x = 1 then
    match s.me.aReg (View.handle x) with
    | none => .error { cause := cHandle }
    | some (b, n) =>
      if 512 * n ≤ fld (View.base x) 32 32 + View.top x then .error { cause := cHandle } else .ok (b, n)
  else .ok (0, 0)

/-- The index view of a KIND 2 view (R58). -/
def State.indexView (s : State) (x : ViewReg) : Except FaultInfo (Option ViewReg) :=
  if View.kind x = 2 then
    match s.me.tReg (View.idxt x) with
    | none => .error { cause := cView }
    | some y =>
      if View.kind y = 0 ∧ View.win y = 5 ∧ View.dim y 0 = View.dim x 1 ∧
          View.dim y 1 * View.dim y 2 * View.dim y 3 = 1 ∧ View.gdim x = 1 then .ok (some y)
      else .error { cause := cView }
  else .ok none

/-- The snapshots of the views that an append names: all loaded, then the handles, then the index views. -/
def State.snaps (s : State) (ns : List Nat) : Except FaultInfo (List Snap) := do
  let xs ← ns.mapM s.loaded
  let banks ← xs.mapM s.bankRun
  let idx ← xs.mapM s.indexView
  pure ((xs.zip (banks.zip idx)).map fun e => { desc := e.1, bank := e.2.1, index := e.2.2 })

/-- An extent that is the destination's, or 1 and broadcast (R253). -/
def fitsDim (x d : ViewReg) (i : Nat) : Bool := View.dim x i == View.dim d i || View.dim x i == 1

def fitsHigh (x d : ViewReg) : Bool := fitsDim x d 2 && fitsDim x d 3

def fitsAll (x d : ViewReg) : Bool := fitsDim x d 0 && fitsDim x d 1 && fitsHigh x d

/-- The origin offset in an immediate (R253): rows, columns. -/
def originOf (imm : Int) : Nat × Nat := (imm.toNat / 2 ^ 15 % 2 ^ 14, imm.toNat % 2 ^ 15)

/-- One dimension of an operand read at an offset (R253). -/
def originDim (x d : ViewReg) (i o : Nat) (moved : Bool) : Bool :=
  (View.dim x i == 1 && o == 0) ||
    (if moved then decide (View.dim d i - 1 + o < View.dim x i) else View.dim x i == View.dim d i)

def fitsOrigin (x d : ViewReg) (imm : Int) : Bool :=
  let o := originOf imm
  originDim x d 0 o.2 (imm != 0) && originDim x d 1 o.1 (imm != 0) && fitsHigh x d

/-- The residues modulo 256 at which the rows of a view start (R250). -/
def rowResidues (x : ViewReg) : List Nat :=
  let f (rs : List Nat) (i : Nat) : List Nat :=
    (rs.flatMap fun a => (List.range (min 256 (View.dim x i))).map fun j => (a + j * View.stride x i) % 256).eraseDups
  f (f (f [fld (View.base x) 0 8] 1) 2) 3

/-- Each run of 256 K positions lies in one scale block (R250). -/
def dm8Rows (x : ViewReg) : Bool :=
  if 256 ≤ View.dim x 0 then (rowResidues x).all (· == 0)
  else (rowResidues x).all fun a => decide (a + View.dim x 0 ≤ 256)

/-- The map of a source is identity (R223, R247): `plain` for an operand read at its own coordinates. -/
def isIdentity (x d : ViewReg) (plain : Bool) : Bool := plain && View.sameDims x d

/-- SelfOverlap (R247): sources with whether their map is identity. -/
def State.selfOverlap (s : State) (d : Snap) (srcs : List (Snap × Bool)) : Except FaultInfo Unit :=
  let sp := s.span s.cur true d
  need (srcs.all fun e =>
    (!sp.meets (s.span s.cur false e.1) || (e.2 && e.1.desc == d.desc)) &&
    (indexSnap e.1).all fun x => !sp.meets (s.span s.cur false x)) cOverlap

/-- A checked node: snapshots and whether each source's map is identity. -/
structure Appended where
  dst : Snap
  srcs : List (Snap × Bool)
deriving DecidableEq, Repr

/-- The KINDs, shapes and types of a product (R249, R250). -/
def productOk (dk : Nat) (aks : List Nat) (d a b : ViewReg) : Except FaultInfo Unit := do
  need (View.kind d == dk && aks.contains (View.kind a) && View.kind b == 0) cView
  need (View.dim a 0 == View.dim b 0 && View.dim d 1 == View.dim a 1 && View.dim d 0 == View.dim b 1 &&
    fitsHigh a d && fitsHigh b d) cShape
  need (View.win a == View.win b && [1, 2, 4].contains (View.win a)) cType
  need (View.win a != 1 || (dm8Rows a && dm8Rows b)) cType

/-- Checks of a product's append up to self-overlap. -/
def State.checkProduct (s : State) (dk : Nat) (aks : List Nat) (d a b : Nat) : Except FaultInfo Appended := do
  match ← s.snaps [d, a, b] with
  | [x, y, z] =>
    productOk dk aks x.desc y.desc z.desc
    need (decide (View.tileCount x.desc ≤ 512)) cShape
    s.selfOverlap x [(y, false), (z, false)]
    pure { dst := x, srcs := [(y, false), (z, false)] }
  | _ => .error { cause := cView }

/-- Checks of any other append: no KIND 2 view, the shape of each operand, the type, the number of output tiles,
self-overlap.  `shape d srcs` is the instruction's rule, `plain i` says whether operand `i` is read at its own
coordinates. -/
def State.checkPlain (s : State) (d : Nat) (srcs : List Nat) (shape : ViewReg → List ViewReg → Bool)
    (typeOk : ViewReg → Bool) (plain : Nat → Bool) : Except FaultInfo Appended := do
  match ← s.snaps (d :: srcs) with
  | x :: ys =>
    need ((x :: ys).all fun v => View.kind v.desc != 2) cView
    need (shape x.desc (ys.map Snap.desc)) cShape
    need (typeOk x.desc) cType
    need (decide (View.tileCount x.desc ≤ 512)) cShape
    let es := ys.zipIdx.map fun e => (e.1, isIdentity e.1.desc x.desc (plain e.2))
    s.selfOverlap x es
    pure { dst := x, srcs := es }
  | [] => .error { cause := cView }

/-! ### Installing a node (R228, R238, R246) -/

/-- The lowest free entry. -/
def Tile.freeEntry (t : Tile) : Option Nat := (List.range 128).find? fun n => (Map.find? t.nodes n).isNone

/-- LINK of a new node: the older nodes whose destinations its operands meet. -/
def State.linksOf (s : State) (k : Nat) (srcs : List Snap) : BitVec 128 :=
  (s.tileAt k).order.foldl (fun m n =>
    match s.nodeAt k n with
    | some p => if runsMeet [s.span k true p.dst] (s.srcSpans k srcs) then m ||| BitVec.ofNat 128 (2 ^ n) else m
    | none => m) 0

/-- Alias, overflow, install: forces come first and the instruction executes again after them. -/
def State.installNode (s : State) (op : NodeOp) (relu : Bool) (rm : Nat) (a : Appended) : State :=
  let k := s.cur
  let forced := s.nodesOver k (s.span k true a.dst)
  if !forced.isEmpty then s.forceFirst k forced
  else
    match (s.tileAt k).freeEntry with
    | none => s.demandWork k { pc := s.me.pc, fin := .again, nodes := s.inFull k ((s.tileAt k).order.take 1) } 0 1
    | some n =>
      let t := s.tileAt k
      let srcs := a.srcs.map Prod.fst
      let x : Node := { seq := t.seq, apc := s.me.pc, op := op, relu := relu, rm := rm, dst := a.dst, srcs := srcs,
                        link := s.linksOf k srcs }
      (s.putTile k { t with nodes := Map.put t.nodes n x, order := t.order ++ [n], seq := t.seq + 1 }).retire

/-- An append on a tile: the checks are precise. -/
def State.append (s : State) (op : NodeOp) (relu : Bool) (rm : Nat) (r : Except FaultInfo Appended) : State :=
  s.onTile (match r with
    | .error f => s.trap f
    | .ok a => s.installNode op relu rm a)

/-! ### Products (R249) -/

def execTmul (_pfx : Pfx) (rm : Nat) (relu : Bool) (d a b : Nat) (s : State) : Host.Outcome State Fault Refusal :=
  .next (s.append .mul relu rm (s.checkProduct 0 [0] d a b))

def execTmulg (_pfx : Pfx) (rm : Nat) (relu : Bool) (d a b : Nat) (s : State) : Host.Outcome State Fault Refusal :=
  .next (s.append .mul relu rm (s.checkProduct 0 [2] d a b))

def execTmula (_pfx : Pfx) (d a b : Nat) (s : State) : Host.Outcome State Fault Refusal :=
  .next (s.append .mula false 0 (s.checkProduct 1 [0, 2] d a b))

/-! ### Element-wise operations (R252-R255) -/

/-- The first operand has the destination's shape or broadcasts to it, the second one meets its rule. -/
def shapeTwo (second : ViewReg → ViewReg → Bool) (d : ViewReg) (xs : List ViewReg) : Bool :=
  match xs with
  | [a] => fitsAll a d
  | [a, b] => fitsAll a d && second b d
  | _ => false

def rowShape (b d : ViewReg) : Bool := View.dim b 1 == 1 && View.dim b 0 == View.dim d 0 && fitsHigh b d
def colShape (b d : ViewReg) : Bool := View.dim b 1 == View.dim d 1 && View.dim b 0 == 1 && fitsHigh b d

def anyType (_ : ViewReg) : Bool := true

/-- TADD, TSUB and TMULE: B at an origin offset. -/
def State.checkOrigin (s : State) (d a b : Nat) (off : Int) : Except FaultInfo Appended :=
  s.checkPlain d [a, b] (shapeTwo fun y x => fitsOrigin y x off) anyType fun i => i == 0 || off == 0

def execTadd (_pfx : Pfx) (rm : Nat) (relu : Bool) (d a b : Nat) (off : Int) (s : State) :
    Host.Outcome State Fault Refusal :=
  .next (s.append (.add (originOf off).1 (originOf off).2) relu rm (s.checkOrigin d a b off))

def execTsub (_pfx : Pfx) (rm : Nat) (relu : Bool) (d a b : Nat) (off : Int) (s : State) :
    Host.Outcome State Fault Refusal :=
  .next (s.append (.sub (originOf off).1 (originOf off).2) relu rm (s.checkOrigin d a b off))

def execTmule (_pfx : Pfx) (rm : Nat) (relu : Bool) (d a b : Nat) (off : Int) (s : State) :
    Host.Outcome State Fault Refusal :=
  .next (s.append (.mule (originOf off).1 (originOf off).2) relu rm (s.checkOrigin d a b off))

def allPlain (_ : Nat) : Bool := true
def nonePlain (_ : Nat) : Bool := false
def firstPlain (i : Nat) : Bool := i == 0

def execTscl (_pfx : Pfx) (rm : Nat) (relu : Bool) (d a b : Nat) (s : State) : Host.Outcome State Fault Refusal :=
  .next (s.append (.scl ((s.sr b).setWidth 32)) relu rm (s.checkPlain d [a] (shapeTwo rowShape) anyType allPlain))

def execTbias (_pfx : Pfx) (rm : Nat) (relu : Bool) (d a b : Nat) (s : State) : Host.Outcome State Fault Refusal :=
  .next (s.append .bias relu rm (s.checkPlain d [a, b] (shapeTwo rowShape) anyType firstPlain))

def execTdivr (_pfx : Pfx) (rm d a b : Nat) (s : State) : Host.Outcome State Fault Refusal :=
  .next (s.append .divr false rm (s.checkPlain d [a, b] (shapeTwo colShape) anyType firstPlain))

def execTact (_pfx : Pfx) (rm : Nat) (fn : ActFn) (d a : Nat) (s : State) : Host.Outcome State Fault Refusal :=
  .next (s.append (.act fn) false rm (s.checkPlain d [a] (shapeTwo rowShape) anyType allPlain))

def execTexp (_pfx : Pfx) (rm : Nat) (e : Bool) (d a : Nat) (sub : Option Nat) (s : State) :
    Host.Outcome State Fault Refusal :=
  .next (s.append (.exp e sub.isSome) false rm (s.checkPlain d (a :: sub.toList) (shapeTwo colShape) anyType firstPlain))

/-! ### Reductions and scan (R256) -/

/-- A column of row results. -/
def reduceShape (d : ViewReg) (xs : List ViewReg) : Bool :=
  match xs with
  | [a] => View.dim d 1 == View.dim a 1 && View.dim d 0 == 1 && fitsHigh a d
  | _ => false

def execTrmax (_pfx : Pfx) (rm d a : Nat) (s : State) : Host.Outcome State Fault Refusal :=
  .next (s.append .rmax false rm (s.checkPlain d [a] reduceShape anyType nonePlain))

def execTrsum (_pfx : Pfx) (rm d a : Nat) (s : State) : Host.Outcome State Fault Refusal :=
  .next (s.append .rsum false rm (s.checkPlain d [a] reduceShape anyType nonePlain))

def execTscan (_pfx : Pfx) (rm d a : Nat) (s : State) : Host.Outcome State Fault Refusal :=
  .next (s.append .scan false rm (s.checkPlain d [a] (fun x ys => ys.all (View.sameDims x)) anyType nonePlain))

/-! ### Mask, rotation, moves (R257-R259) -/

/-- TMASK's map is the causal mask and not identity, so it may not work in place (R223, R247). -/
def execTmask (_pfx : Pfx) (rm : Nat) (zero : Bool) (d a : Nat) (off : Int) (s : State) :
    Host.Outcome State Fault Refusal :=
  .next (s.append (.mask off zero) false rm (s.checkPlain d [a] (shapeTwo rowShape) anyType nonePlain))

/-- Positions (R258): an INT32 column in window 5. -/
def rotShape (d : ViewReg) (xs : List ViewReg) : Bool :=
  match xs with
  | [a, b] => fitsAll a d && View.dim a 0 % 2 == 0 && View.dim a 0 == View.dim d 0 && colShape b d &&
      View.kind b == 0 && View.win b == 5
  | _ => false

def execTrot (_pfx : Pfx) (rm : Nat) (inv : Bool) (d a b : Nat) (theta : Option Int) (s : State) :
    Host.Outcome State Fault Refusal :=
  .next (s.append (.rot (theta.getD 10000).toNat inv) false rm (s.checkPlain d [a, b] rotShape anyType firstPlain))

def execTqnt (_pfx : Pfx) (d a : Nat) (s : State) : Host.Outcome State Fault Refusal :=
  .next (s.append .qnt false 0 (s.checkPlain d [a] (shapeTwo rowShape)
    (fun x => View.kind x == 0 && View.win x == 1) allPlain))

def execTcopy (_pfx : Pfx) (rm d a : Nat) (off : Int) (s : State) : Host.Outcome State Fault Refusal :=
  .next (s.append (.copy (originOf off).1 (originOf off).2) false rm
    (s.checkPlain d [a] (fun x ys => ys.all fun y => fitsOrigin y x off) anyType fun _ => off == 0))

/-- TTRN's shape (R259). -/
def transShape (d : ViewReg) (xs : List ViewReg) : Bool :=
  match xs with
  | [a] => View.dim d 1 == View.dim a 0 && View.dim d 0 == View.dim a 1 && fitsHigh a d
  | _ => false

def execTtrn (_pfx : Pfx) (rm d a : Nat) (s : State) : Host.Outcome State Fault Refusal :=
  .next (s.append .trn false rm (s.checkPlain d [a] transShape anyType nonePlain))

/-! ### Demand, store, drop (R260-R263) -/

/-- The region that TFORCE and TDROP name: none for a KIND 1 view whose handle holds no banks. -/
def State.regionOf (s : State) (n : Nat) : Except FaultInfo (Option Snap) := do
  let x ← s.loaded n
  need (View.kind x != 2) cView
  if View.kind x = 1 then pure ((s.me.aReg (View.handle x)).map fun r => { desc := x, bank := r })
  else pure (some { desc := x })

/-- The output tiles of pending nodes that a region demands (R226). -/
def State.regionNodes (s : State) (k : Nat) (v : Snap) : List (Nat × List Nat) :=
  let region := s.viewRuns k v
  (s.tileAt k).order.filterMap fun n =>
    match s.nodeAt k n with
    | some x => (match s.tilesMeeting k x.dst region with | [] => none | ts => some (n, ts))
    | none => none

/-- The demand of a TFORCE. -/
def State.forceDemand (s : State) (nodes : List (Nat × List Nat)) : State :=
  s.demandWork s.cur { pc := s.me.pc, fin := .commit, nodes := nodes } 0 0

def execTforce (_pfx : Pfx) (a : Nat) (s : State) : Host.Outcome State Fault Refusal :=
  .next (s.onTile (match s.regionOf a with
    | .error f => s.trap f
    | .ok none => s.retire
    | .ok (some v) => s.forceDemand (s.regionNodes s.cur v)))

def execTforceAll (_pfx : Pfx) (s : State) : Host.Outcome State Fault Refusal :=
  .next (s.onTile (s.forceDemand (s.inFull s.cur (s.tileAt s.cur).order)))

/-- The checks of a TSTORE (R261): destination and source snapshots. -/
def State.checkStore (s : State) (d a : Nat) : Except FaultInfo (Snap × Snap) := do
  let x ← s.loaded d
  let y ← s.loaded a
  need (View.kind x == 0 && View.kind y != 2) cView
  let run ← s.bankRun y
  need (View.sameDims x y) cShape
  let dst : Snap := { desc := x }
  let src : Snap := { desc := y, bank := run }
  need (!(s.span s.cur true dst).meets (s.span s.cur false src)) cOverlap
  pure (dst, src)

def execTstore (_pfx : Pfx) (rm d a : Nat) (s : State) : Host.Outcome State Fault Refusal :=
  .next (s.onTile (match s.checkStore d a with
    | .error f => s.trap f
    | .ok (dst, src) =>
      match s.nodesOver s.cur (s.span s.cur true dst) with
      | [] => s.demandWork s.cur { pc := s.me.pc, fin := .commit, nodes := s.regionNodes s.cur src, store := some (dst, src, rm) } 0 0
      | ns => s.forceFirst s.cur ns))

/-- The nodes that a TDROP discards when it is served (R262). -/
def State.dropSet (s : State) (k : Nat) (v : Snap) : List Nat :=
  let region := s.viewRuns k v
  (s.tileAt k).order.filter fun n =>
    match s.nodeAt k n with
    | some x => runsMeet [s.span k true x.dst] region
    | none => false

def execTdrop (_pfx : Pfx) (a : Nat) (s : State) : Host.Outcome State Fault Refusal :=
  .next (s.onTile (match s.regionOf a with
    | .error f => s.trap f
    | .ok none => s.retire
    | .ok (some v) => s.push [.tdropService s.cur (s.dropSet s.cur v)]))

def execTdropAll (_pfx : Pfx) (s : State) : Host.Outcome State Fault Refusal :=
  .next (s.onTile (s.push [.tdropService s.cur (s.tileAt s.cur).order]))

/-- The statistics (R239). -/
def Tile.stats (t : Tile) : Word :=
  BitVec.ofNat 64 (t.tev * 2 ^ 48 + t.retry * 2 ^ 40 + t.afrc * 2 ^ 32 + t.ofrc * 2 ^ 24 + t.drop * 2 ^ 16 + t.nodes.length)

def execTstat (_pfx : Pfx) (d : Nat) (s : State) : Host.Outcome State Fault Refusal :=
  .next (s.onTile (s.answer d (s.tileAt s.cur).stats))

/-! ### Accumulator handles (R264, R265) -/

/-- A bank that some handle holds. -/
def Core.bankHeld (c : Core) (b : Nat) : Bool := c.a.any fun e => decide (e.2.1 ≤ b) && decide (b < e.2.1 + e.2.2)

/-- The lowest run of `n` free banks in 64 to 255. -/
def Core.freeRun (c : Core) (n : Nat) : Option Nat :=
  ((List.range (193 - n)).map (64 + ·)).find? fun b => (List.range n).all fun j => !c.bankHeld (b + j)

/-- Every byte of a run of locations becomes 0, which is what an unlisted byte reads as; what was there before, an uncorrectable
error too, is gone (R264). -/
def State.zeroRun (s : State) (lo hi : Nat) : State :=
  { s with
    mem := s.mem.filter fun e => e.1 < lo || hi ≤ e.1
    poison := s.poison.filter fun g => decide (32 * g < lo) || decide (hi ≤ 32 * g) }

def execAcq (_pfx : Pfx) (d : Nat) (srcA : Src) (s : State) : Host.Outcome State Fault Refusal :=
  let n := (s.me.src srcA).toNat
  .next (s.onTile (
    if (s.me.aReg d).isSome ∨ n = 0 ∨ 192 < n then s.trapCause cHandle
    else
      match s.me.freeRun n with
      | none => s.trapCause cAccFull
      | some b =>
        let s1 := s.zeroRun (accBase s.cur + 2048 * b) (accBase s.cur + 2048 * (b + n))
        (s1.setMe (s1.me.setA d (b, n))).retire))

/-- Nodes with a snapshot that names a bank of a run. -/
def State.nodesOnBanks (s : State) (k : Nat) (r : Nat × Nat) : List Nat :=
  (s.tileAt k).order.filter fun n =>
    match s.nodeAt k n with
    | some x => (x.dst :: x.srcs).any fun v =>
        View.kind v.desc == 1 && decide (v.bank.1 < r.1 + r.2) && decide (r.1 < v.bank.1 + v.bank.2)
    | none => false

def execArel (_pfx : Pfx) (a : Nat) (s : State) : Host.Outcome State Fault Refusal :=
  .next (s.onTile (match s.me.aReg a with
    | none => s.trapCause cHandle
    | some r =>
      match s.nodesOnBanks s.cur r with
      | [] => (s.setMe (s.me.dropA a)).retire
      | ns => s.forceFirst s.cur ns))

end Sys2Proof.Machine
end

