-- ==== Sys2Proof/Machine/Vector.lean ====
section
/-! DEFINITION. Vector lanes: arithmetic, compares, conversions, quantization, reductions, functions, predicates
(R196-R201, R205-R219). -/

namespace Sys2Proof.Machine

/-! ### Lanes -/

/-- Computes the active lanes of v[d]; inactive lanes keep their contents and set no flag (R198). -/
def State.lanewise (s : State) (ty : Ty) (gov : Option Nat) (d : Nat) (f : Nat → Nat × Flags) : State :=
  let w := ty.bytes
  let rs := (lanesOf w (s.me.vReg d)).zipIdx.map fun e => if s.me.active gov w e.2 then f e.2 else (e.1, (0 : Flags))
  s.answerV d (vecOf w (rs.map Prod.fst)) (rs.foldl (fun g r => g ||| r.2) 0)

/-- Lane `i` of v[n] under a type. -/
def State.lane (s : State) (ty : Ty) (n i : Nat) : Nat := laneOf (s.me.vReg n) ty.bytes i

/-- NV of signalling operands (R34). -/
def snan2 (ty : Ty) (a b : Nat) : Flags := ty.snan a ||| ty.snan b

/-! ### Lane operations (R206) -/

/-- VADD, VSUB and VMUL: wrapped on integers, IEEE on floats. -/
def laneArith (ty : Ty) (rm : Nat) (fi : Int → Int → Int) (fv : Val → Val → Val × Bool) (a b : Nat) : Nat × Flags :=
  if ty.isFloat then
    let r := ty.fmt.finish rm (fv (ty.fmt.decode a) (ty.fmt.decode b))
    (r.1, r.2 ||| snan2 ty a b)
  else (wrapNat (8 * ty.bytes) (fi a b), 0)

def laneFma (ty : Ty) (rm a b d : Nat) : Nat × Flags :=
  let m := (ty.fmt.decode a).mul (ty.fmt.decode b)
  let x := m.1.add rm (ty.fmt.decode d)
  let r := ty.fmt.finish rm (x.1, m.2 || x.2)
  (r.1, r.2 ||| snan2 ty a b ||| ty.snan d)

/-- VMIN and VMAX: `less` says which operand wins. -/
def laneExtreme (ty : Ty) (max : Bool) (a b : Nat) : Nat × Flags :=
  if ty.isFloat then
    let x := ty.fmt.decode a
    let y := ty.fmt.decode b
    if x.isNaN || y.isNaN then (ty.fmt.nanBits, snan2 ty a b)
    else (if (if max then x.lt true y else y.lt true x) then b else a, 0)
  else
    let x := readInt (8 * ty.bytes) ty.isSigned a
    let y := readInt (8 * ty.bytes) ty.isSigned b
    (if (if max then x < y else y < x) then b else a, 0)

def laneAbs (ty : Ty) (a : Nat) : Nat × Flags :=
  if ty.isFloat then
    (if (ty.fmt.decode a).isNaN then ty.fmt.nanBits else a % 2 ^ (8 * ty.bytes - 1), ty.snan a)
  else (wrapNat (8 * ty.bytes) ((signed (8 * ty.bytes) a).natAbs : Nat), 0)

def laneNeg (ty : Ty) (a : Nat) : Nat × Flags :=
  if ty.isFloat then
    (if (ty.fmt.decode a).isNaN then ty.fmt.nanBits else Nat.xor a (2 ^ (8 * ty.bytes - 1)), ty.snan a)
  else (wrapNat (8 * ty.bytes) (-(a : Int)), 0)

def execVadd (_pfx : Pfx) (ty : Ty) (rm : Nat) (gov : Option Nat) (d a b : Nat) (s : State) :
    Host.Outcome State Fault Refusal :=
  .next (s.lanewise ty gov d fun j => laneArith ty rm (· + ·) (Val.add rm) (s.lane ty a j) (s.lane ty b j))

def execVsub (_pfx : Pfx) (ty : Ty) (rm : Nat) (gov : Option Nat) (d a b : Nat) (s : State) :
    Host.Outcome State Fault Refusal :=
  .next (s.lanewise ty gov d fun j =>
    laneArith ty rm (· - ·) (fun x y => Val.add rm x y.negate) (s.lane ty a j) (s.lane ty b j))

def execVmul (_pfx : Pfx) (ty : Ty) (rm : Nat) (gov : Option Nat) (d a b : Nat) (s : State) :
    Host.Outcome State Fault Refusal :=
  .next (s.lanewise ty gov d fun j => laneArith ty rm (· * ·) Val.mul (s.lane ty a j) (s.lane ty b j))

def execVfma (_pfx : Pfx) (ty : Ty) (rm : Nat) (gov : Option Nat) (d a b : Nat) (s : State) :
    Host.Outcome State Fault Refusal :=
  .next (s.lanewise ty gov d fun j => laneFma ty rm (s.lane ty a j) (s.lane ty b j) (s.lane ty d j))

def execVmin (_pfx : Pfx) (ty : Ty) (gov : Option Nat) (d a b : Nat) (s : State) : Host.Outcome State Fault Refusal :=
  .next (s.lanewise ty gov d fun j => laneExtreme ty false (s.lane ty a j) (s.lane ty b j))

def execVmax (_pfx : Pfx) (ty : Ty) (gov : Option Nat) (d a b : Nat) (s : State) : Host.Outcome State Fault Refusal :=
  .next (s.lanewise ty gov d fun j => laneExtreme ty true (s.lane ty a j) (s.lane ty b j))

def execVabs (_pfx : Pfx) (ty : Ty) (gov : Option Nat) (d a : Nat) (s : State) : Host.Outcome State Fault Refusal :=
  .next (s.lanewise ty gov d fun j => laneAbs ty (s.lane ty a j))

def execVneg (_pfx : Pfx) (ty : Ty) (gov : Option Nat) (d a : Nat) (s : State) : Host.Outcome State Fault Refusal :=
  .next (s.lanewise ty gov d fun j => laneNeg ty (s.lane ty a j))

/-! ### Logic and shifts (R207) -/

def execVand (_pfx : Pfx) (ty : Ty) (gov : Option Nat) (d a b : Nat) (s : State) : Host.Outcome State Fault Refusal :=
  .next (s.lanewise ty gov d fun j => (Nat.land (s.lane ty a j) (s.lane ty b j), 0))

def execVor (_pfx : Pfx) (ty : Ty) (gov : Option Nat) (d a b : Nat) (s : State) : Host.Outcome State Fault Refusal :=
  .next (s.lanewise ty gov d fun j => (Nat.lor (s.lane ty a j) (s.lane ty b j), 0))

def execVxor (_pfx : Pfx) (ty : Ty) (gov : Option Nat) (d a b : Nat) (s : State) : Host.Outcome State Fault Refusal :=
  .next (s.lanewise ty gov d fun j => (Nat.xor (s.lane ty a j) (s.lane ty b j), 0))

/-- A lane's shift amount: the low log2(8w) bits of v[b]'s lane, or the immediate. -/
def State.laneAmount (s : State) (ty : Ty) (b : Src) (j : Nat) : Nat :=
  match b with
  | .reg n => s.lane ty n j % (8 * ty.bytes)
  | .imm v => v.toNat

def execVshl (_pfx : Pfx) (ty : Ty) (gov : Option Nat) (d a : Nat) (src : Src) (s : State) :
    Host.Outcome State Fault Refusal :=
  .next (s.lanewise ty gov d fun j => (s.lane ty a j * 2 ^ s.laneAmount ty src j % 2 ^ (8 * ty.bytes), 0))

def execVshr (_pfx : Pfx) (ty : Ty) (gov : Option Nat) (d a : Nat) (src : Src) (s : State) :
    Host.Outcome State Fault Refusal :=
  .next (s.lanewise ty gov d fun j => (s.lane ty a j / 2 ^ s.laneAmount ty src j, 0))

def execVsar (_pfx : Pfx) (ty : Ty) (gov : Option Nat) (d a : Nat) (src : Src) (s : State) :
    Host.Outcome State Fault Refusal :=
  .next (s.lanewise ty gov d fun j =>
    (wrapNat (8 * ty.bytes) (signed (8 * ty.bytes) (s.lane ty a j) / 2 ^ s.laneAmount ty src j), 0))

/-! ### Moves, compares and selection (R205, R208-R210) -/

def execVbc (_pfx : Pfx) (ty : Ty) (gov : Option Nat) (d a : Nat) (s : State) : Host.Outcome State Fault Refusal :=
  .next (s.lanewise ty gov d fun _ => ((s.sr a).toNat % 2 ^ (8 * ty.bytes), 0))

/-- A lane as a scalar: sign-extended for signed integers, else zero-extended (R205). -/
def extendLane (ty : Ty) (x : Nat) : Word :=
  if ty.isSigned then BitVec.ofInt 64 (signed (8 * ty.bytes) x) else BitVec.ofNat 64 x

def execVmovs (_pfx : Pfx) (ty : Ty) (d a : Nat) (off : Int) (s : State) : Host.Outcome State Fault Refusal :=
  .next (s.answer d (extendLane ty (s.lane ty a off.toNat)))

/-- The relation of VCMP (R208); DM8 codes compare by their unscaled values. -/
def laneRel (ty : Ty) (rel : CmpRel) (a b : Nat) : Bool :=
  let x := ty.val a
  let y := ty.val b
  let un := x.isNaN || y.isNaN
  match rel with
  | .eq => !un && x.cmp y == 0
  | .ne => un || x.cmp y != 0
  | .lt => !un && decide (x.cmp y < 0)
  | .le => !un && decide (x.cmp y ≤ 0)
  | .un => un

def execVcmp (_pfx : Pfx) (ty : Ty) (rel : CmpRel) (d a b : Nat) (s : State) : Host.Outcome State Fault Refusal :=
  let js := List.range (laneCount ty.bytes)
  let f := js.foldl (fun g j => g ||| snan2 ty (s.lane ty a j) (s.lane ty b j)) (0 : Flags)
  .next (s.answerP d (predOf ty.bytes (js.map fun j => laneRel ty rel (s.lane ty a j) (s.lane ty b j))) f)

/-- VSEL writes every lane (R209). -/
def execVsel (_pfx : Pfx) (ty : Ty) (gov : Option Nat) (d a b : Nat) (s : State) : Host.Outcome State Fault Refusal :=
  .next (s.lanewise ty none d fun j =>
    ((if s.me.active gov ty.bytes j then s.lane ty a j else s.lane ty b j), 0))

def execVperm (_pfx : Pfx) (ty : Ty) (gov : Option Nat) (d a b : Nat) (s : State) : Host.Outcome State Fault Refusal :=
  .next (s.lanewise ty gov d fun j =>
    let x := s.lane ty b j
    ((if x < laneCount ty.bytes then s.lane ty a x else 0), 0))

/-! ### Conversions (R211-R213) -/

def execVcvt (_pfx : Pfx) (ty sty : Ty) (rm d a : Nat) (s : State) : Host.Outcome State Fault Refusal :=
  let n := 128 / max sty.bytes ty.bytes
  let rs := (List.range n).map fun j => convertBits sty ty rm (s.lane sty a j)
  .next (s.answerV d (vecOf ty.bytes (rs.map Prod.fst)) (rs.foldl (fun g r => g ||| r.2) 0))

/-- The elements of `k` registers from v[a], register by register, lane by lane. -/
def State.groupLanes (s : State) (ty : Ty) (a k : Nat) : List Nat :=
  (List.range k).flatMap fun r => lanesOf ty.bytes (s.me.vReg (a + r))

/-- Writes the 256 codes of a block over v[d] and v[d+1]. -/
def Core.setCodes (c : Core) (d : Nat) (codes : List Byte) : Core :=
  (c.setV d (vecOf 1 ((codes.take 128).map BitVec.toNat))).setV (d + 1) (vecOf 1 ((codes.drop 128).map BitVec.toNat))

/-- NV of the signalling NaNs of a list (R34). -/
def snans (ty : Ty) (xs : List Nat) : Flags := xs.foldl (fun g x => g ||| ty.snan x) 0

def execVqnt (_pfx : Pfx) (ty : Ty) (fix : Bool) (d a b : Nat) (s : State) : Host.Outcome State Fault Refusal :=
  let xs := s.groupLanes ty a (if ty == .f16 then 4 else 8)
  let vs := xs.map ty.fmt.decode
  if fix then
    let rs := vs.map fun x => encodeDM8 x (BitVec.ofNat 8 (s.sr b).toNat)
    .next (s.setMe ((s.me.setCodes d (rs.map Prod.fst)).raise (rs.foldl (fun g r => g ||| r.2) (snans ty xs))).commit)
  else
    let r := requantize vs
    .next (s.setMe (((s.me.setCodes d r.1).setS b (r.2.1.setWidth 64)).raise (r.2.2 ||| snans ty xs)).commit)

def execVdq (_pfx : Pfx) (ty : Ty) (rm sel d a b : Nat) (s : State) : Host.Outcome State Fault Refusal :=
  let n := laneCount ty.bytes
  let sc : Byte := BitVec.ofNat 8 (s.sr b).toNat
  let rs := (List.range n).map fun j =>
    let r := decodeDM8 (BitVec.ofNat 8 (laneOf (s.me.vReg a) 1 (n * sel + j))) sc
    if ty == .f16 then
      let h := b16.round rm (b32.decode r.1)
      (h.1, h.2 ||| r.2)
    else r
  .next (s.answerV d (vecOf ty.bytes (rs.map Prod.fst)) (rs.foldl (fun g r => g ||| r.2) 0))

/-! ### Reductions, scan, selection (R214-R216) -/

/-- VRSUM over the lanes given (R214): bits of the result and flags.  A NaN lane gives the canonical NaN without NV even where
both infinities are present: R214's rows do not say which of them then holds (DESIGN CHOICE, log 60). -/
def reduceSum (ty : Ty) (rm : Nat) (xs : List Nat) : Word × Flags :=
  if ty.isFloat then
    let vs := xs.map ty.fmt.decode
    let nv := snans ty xs
    if vs.any Val.isNaN then (BitVec.ofNat 64 ty.fmt.nanBits, nv)
    else
      let r := exactSum 0 vs
      let x := if r.1.isZero then r.1.setSign (!vs.isEmpty && (rm == 3 || vs.all Val.isNeg)) else r.1
      let b := ty.fmt.finish rm (x, r.2)
      (BitVec.ofNat 64 b.1, b.2 ||| nv)
  else (BitVec.ofInt 64 (xs.foldl (fun t x => t + readInt (8 * ty.bytes) ty.isSigned x) 0), 0)

/-- VRMAX and VRMIN over the lanes given (R214). -/
def reduceExtreme (ty : Ty) (max : Bool) (xs : List Nat) : Word × Flags :=
  match xs with
  | [] =>
    if ty.isFloat then (BitVec.ofNat 64 ty.fmt.nanBits, 0)
    else (BitVec.ofInt 64 (if max then intMin (8 * ty.bytes) ty.isSigned else intMax (8 * ty.bytes) ty.isSigned), 0)
  | x :: ys =>
    let start : Nat × Flags :=
      if ty.isFloat && (ty.fmt.decode x).isNaN then (ty.fmt.nanBits, ty.snan x) else (x, 0)
    let r := ys.foldl (fun acc y => let e := laneExtreme ty max acc.1 y; (e.1, acc.2 ||| e.2)) start
    (extendLane ty r.1, r.2)

/-- The active lanes of v[a], with their numbers. -/
def State.activeLanes (s : State) (ty : Ty) (gov : Option Nat) (a : Nat) : List (Nat × Nat) :=
  ((lanesOf ty.bytes (s.me.vReg a)).zipIdx).filter fun e => s.me.active gov ty.bytes e.2

def State.answerF (s : State) (d : Nat) (r : Word × Flags) : State := s.setMe ((s.me.setS d r.1).raise r.2).commit

def execVrsum (_pfx : Pfx) (ty : Ty) (rm : Nat) (gov : Option Nat) (d a : Nat) (s : State) :
    Host.Outcome State Fault Refusal :=
  .next (s.answerF d (reduceSum ty rm ((s.activeLanes ty gov a).map Prod.fst)))

def execVrmax (_pfx : Pfx) (ty : Ty) (gov : Option Nat) (d a : Nat) (s : State) : Host.Outcome State Fault Refusal :=
  .next (s.answerF d (reduceExtreme ty true ((s.activeLanes ty gov a).map Prod.fst)))

def execVrmin (_pfx : Pfx) (ty : Ty) (gov : Option Nat) (d a : Nat) (s : State) : Host.Outcome State Fault Refusal :=
  .next (s.answerF d (reduceExtreme ty false ((s.activeLanes ty gov a).map Prod.fst)))

def execVscan (_pfx : Pfx) (ty : Ty) (rm : Nat) (gov : Option Nat) (d a : Nat) (s : State) :
    Host.Outcome State Fault Refusal :=
  .next (s.lanewise ty gov d fun j =>
    let r := reduceSum ty rm (((s.activeLanes ty gov a).filter fun e => decide (e.2 ≤ j)).map Prod.fst)
    (r.1.toNat % 2 ^ (8 * ty.bytes), r.2))

/-- Whether a lane value comes before another in VTOPK's order, apart from ties (R216). -/
def topBefore (ty : Ty) (a b : Nat) : Bool :=
  let x := ty.val a
  let y := ty.val b
  !x.isNaN && (y.isNaN || decide (0 < x.cmp y))

/-- Insertion behind everything that is not smaller: ties keep the lower lane first. -/
def topInsert (ty : Ty) (e : Nat × Nat) : List (Nat × Nat) → List (Nat × Nat)
  | [] => [e]
  | x :: xs => if topBefore ty e.1 x.1 then e :: x :: xs else x :: topInsert ty e xs

/-- Lanes in VTOPK's order. -/
def topSort (ty : Ty) (es : List (Nat × Nat)) : List (Nat × Nat) := es.foldl (fun acc e => topInsert ty e acc) []

def execVtopk (_pfx : Pfx) (ty : Ty) (gov : Option Nat) (d a : Nat) (off : Int) (s : State) :
    Host.Outcome State Fault Refusal :=
  let w := ty.bytes
  let top := (topSort ty (s.activeLanes ty gov a)).take off.toNat
  let pad := laneCount w - top.length
  .next (s.setMe (((s.me.setV d (vecOf w (top.map Prod.fst ++ List.replicate pad 0))).setV (d + 1)
    (vecOf w (top.map Prod.snd ++ List.replicate pad (2 ^ (8 * w) - 1)))).raise
      (snans ty ((s.activeLanes ty gov a).map Prod.fst))).commit)

/-! ### Functions (R217) -/

/-- One function of R217 on each active lane; a NaN operand, signalling or not, sets no flag: the table names NV for other
operands only. -/
def State.laneFun (s : State) (ty : Ty) (gov : Option Nat) (d a : Nat) (f : Fmt → Val → Nat × Flags) : State :=
  s.lanewise ty gov d fun j => f ty.fmt (ty.fmt.decode (s.lane ty a j))

def execVexp2 (_pfx : Pfx) (ty : Ty) (rm : Nat) (gov : Option Nat) (d a : Nat) (s : State) :
    Host.Outcome State Fault Refusal :=
  .next (s.laneFun ty gov d a fun f x => vexp2 f rm x)

def execVlog2 (_pfx : Pfx) (ty : Ty) (rm : Nat) (gov : Option Nat) (d a : Nat) (s : State) :
    Host.Outcome State Fault Refusal :=
  .next (s.laneFun ty gov d a fun f x => vlog2 f rm x)

def execVrcp (_pfx : Pfx) (ty : Ty) (rm : Nat) (gov : Option Nat) (d a : Nat) (s : State) :
    Host.Outcome State Fault Refusal :=
  .next (s.laneFun ty gov d a fun f x => vrcp f rm x)

def execVrsq (_pfx : Pfx) (ty : Ty) (rm : Nat) (gov : Option Nat) (d a : Nat) (s : State) :
    Host.Outcome State Fault Refusal :=
  .next (s.laneFun ty gov d a fun f x => vrsq f rm x)

/-! ### Block addition (R218) -/

/-- One lane of BADDQ.f32: the payload of the first NaN is kept.  A signalling NaN sets NV, also where it is kept and nothing is
rounded (R34 and R218; DEDUCED, log 64). -/
def addqLane (x y : Nat) : Nat × Flags :=
  let nv := Ty.f32.snan x ||| Ty.f32.snan y
  if (b32.decode x).isNaN then (x, nv)
  else if (b32.decode y).isNaN then (y, nv)
  else
    let r := b32.finish 0 ((b32.decode x).add 0 (b32.decode y))
    (r.1, r.2 ||| nv)

/-- One element of BADDQ.dm8 before requantization. -/
def addqCode (sd sa : Byte) (x y : Byte) : Val × Flags :=
  let u := decodeDM8 x sd
  let v := decodeDM8 y sa
  let r := b32.finish 0 ((b32.decode u.1).add 0 (b32.decode v.1))
  (b32.decode r.1, u.2 ||| v.2 ||| r.2)

def execBaddq (_pfx : Pfx) (ty : Ty) (d a b : Nat) (s : State) : Host.Outcome State Fault Refusal :=
  if ty = .dm8 then
    let x := (s.groupLanes .dm8 d 2).zip (s.groupLanes .dm8 a 2)
    let sd : Byte := BitVec.ofNat 8 (s.sr b).toNat
    let sa : Byte := BitVec.ofNat 8 ((s.sr b).toNat / 256)
    let vs := x.map fun e => addqCode sd sa (BitVec.ofNat 8 e.1) (BitVec.ofNat 8 e.2)
    let r := requantize (vs.map Prod.fst)
    .next (s.setMe (((s.me.setCodes d r.1).setS b (r.2.1.setWidth 64)).raise
      (vs.foldl (fun g v => g ||| v.2) r.2.2)).commit)
  else .next (s.lanewise .f32 none d fun j => addqLane (s.lane .f32 d j) (s.lane .f32 a j))

/-! ### Predicates (R219) -/

def execPand (_pfx : Pfx) (d a b : Nat) (s : State) : Host.Outcome State Fault Refusal :=
  .next (s.answerP d (s.me.pReg a &&& s.me.pReg b) 0)

def execPor (_pfx : Pfx) (d a b : Nat) (s : State) : Host.Outcome State Fault Refusal :=
  .next (s.answerP d (s.me.pReg a ||| s.me.pReg b) 0)

def execPnot (_pfx : Pfx) (d a : Nat) (s : State) : Host.Outcome State Fault Refusal :=
  .next (s.answerP d (~~~(s.me.pReg a)) 0)

def execPset (_pfx : Pfx) (ty : Ty) (d : Nat) (srcA : Src) (s : State) : Host.Outcome State Fault Refusal :=
  let n := laneCount ty.bytes
  let c := (s.me.src srcA).toNat
  .next (s.answerP d (predOf ty.bytes ((List.range n).map fun j => decide (j < c))) 0)

end Sys2Proof.Machine
end

