-- ==== Sys2Proof/Machine/VectorMem.lean ====
section
/-! DEFINITION. Vector memory access (R202-R204). -/

namespace Sys2Proof.Machine

/-- The element size through the window of a base pointer (R202). -/
def laneSize (va : Word) (ty : Ty) : Nat :=
  if 1 ≤ windowOf va ∧ windowOf va ≤ 5 then winSize (windowOf va) else ty.bytes

/-- `.dm8` through windows 2 to 5 is an address fault (R202). -/
def dm8Barred (va : Word) (ty : Ty) : Bool := ty == .dm8 && decide (2 ≤ windowOf va)

/-- The active lanes with their pointers. -/
def State.lanePtrs (s : State) (ty : Ty) (gov : Option Nat) (ptr : Nat → Word) : List (Nat × Word) :=
  ((List.range (laneCount ty.bytes)).filter fun j => s.me.active gov ty.bytes j).map fun j => (j, ptr j)

/-- A lane's bytes as a vector store writes them. -/
def State.laneBytes (s : State) (ty : Ty) (rm d e j : Nat) (x : Spot) : List Byte × Flags :=
  let r := laneToMem x.va ty rm (laneOf (s.me.vReg d) ty.bytes j) (s.spotScale x)
  (leBytes e r.1, r.2)

def Spot.lane : Spot → Nat
  | .here l => l.lane | .parted l _ => l.lane | .gone .. => 0 | .sys j _ _ => j

/-- VLD and VST with no active lane still test ea (R202); with one, its own access does (log 36). -/
def State.vectorAt (s : State) (ea : Word) (ty : Ty) (es : List (Nat × Word)) (go : State) : State :=
  let i := s.issuer s.cur .c
  if dm8Barred ea ty then s.trap (faultAt i cAddress ea)
  else if es = [] ∧ ea.toNat % laneSize ea ty ≠ 0 then s.trap (faultAt i cAlign ea)
  else go

def execVld (_pfx : Pfx) (ty : Ty) (rm : Nat) (gov : Option Nat) (d a : Nat) (off : Int) (s : State) :
    Host.Outcome State Fault Refusal :=
  let ea := padd (s.sr a) off
  let e := laneSize ea ty
  let es := s.lanePtrs ty gov fun j => padd ea (e * j : Nat)
  .next (s.vectorAt ea ty es (s.issueLoad (.vector d ty rm) (some ea) e (ty != .dm8) es))

def execVst (_pfx : Pfx) (ty : Ty) (rm : Nat) (gov : Option Nat) (d a : Nat) (off : Int) (s : State) :
    Host.Outcome State Fault Refusal :=
  let ea := padd (s.sr a) off
  let e := laneSize ea ty
  let es := s.lanePtrs ty gov fun j => padd ea (e * j : Nat)
  .next (s.vectorAt ea ty es (s.issueStore (some ea) e (ty != .dm8) es fun t x => t.laneBytes ty rm d e x.lane x))

/-- The pointer of an indexed lane (R203): the index read as a signed w-byte integer. -/
def State.indexedPtr (s : State) (ty : Ty) (base : Word) (e b j : Nat) : Word :=
  padd base (signed (8 * ty.bytes) (laneOf (s.me.vReg b) ty.bytes j) * e)

def execVldx (_pfx : Pfx) (ty : Ty) (rm : Nat) (gov : Option Nat) (d a b : Nat) (s : State) :
    Host.Outcome State Fault Refusal :=
  let base := s.sr a
  let e := laneSize base ty
  .next (if dm8Barred base ty then s.trap (faultAt (s.issuer s.cur .c) cAddress base)
    else s.issueLoad (.vector d ty rm) none e (ty != .dm8) (s.lanePtrs ty gov (s.indexedPtr ty base e b)))

def execVstx (_pfx : Pfx) (ty : Ty) (rm : Nat) (gov : Option Nat) (d a b : Nat) (s : State) :
    Host.Outcome State Fault Refusal :=
  let base := s.sr a
  let e := laneSize base ty
  .next (if dm8Barred base ty then s.trap (faultAt (s.issuer s.cur .c) cAddress base)
    else s.issueStore none e (ty != .dm8) (s.lanePtrs ty gov (s.indexedPtr ty base e b)) fun t x => t.laneBytes ty rm d e x.lane x)

end Sys2Proof.Machine
end

