-- ==== Sys2Proof/Machine/Dispatch.lean ====
section
/-! DEFINITION. The dispatch: one arm a constructor of Instr. -/

namespace Sys2Proof.Machine

def exec (i : Instr) (s : State) : Host.Outcome State Fault Refusal :=
  match i with
  | .add d a b => Sys2Proof.Machine.execAdd d a b s
  | .sub d a b => Sys2Proof.Machine.execSub d a b s
  | .and d a src => Sys2Proof.Machine.execAnd d a src s
  | .or d a src => Sys2Proof.Machine.execOr d a src s
  | .xor d a src => Sys2Proof.Machine.execXor d a src s
  | .andn d a b => Sys2Proof.Machine.execAndn d a b s
  | .mov d a => Sys2Proof.Machine.execMov d a s
  | .min d a b => Sys2Proof.Machine.execMin d a b s
  | .max d a b => Sys2Proof.Machine.execMax d a b s
  | .minu d a b => Sys2Proof.Machine.execMinu d a b s
  | .maxu d a b => Sys2Proof.Machine.execMaxu d a b s
  | .shl d a src => Sys2Proof.Machine.execShl d a src s
  | .shr d a src => Sys2Proof.Machine.execShr d a src s
  | .sar d a src => Sys2Proof.Machine.execSar d a src s
  | .rol d a src => Sys2Proof.Machine.execRol d a src s
  | .mul d a src => Sys2Proof.Machine.execMul d a src s
  | .mulh d a b => Sys2Proof.Machine.execMulh d a b s
  | .mulhu d a b => Sys2Proof.Machine.execMulhu d a b s
  | .div d a b => Sys2Proof.Machine.execDiv d a b s
  | .divu d a b => Sys2Proof.Machine.execDivu d a b s
  | .rem d a b => Sys2Proof.Machine.execRem d a b s
  | .remu d a b => Sys2Proof.Machine.execRemu d a b s
  | .sel d a b => Sys2Proof.Machine.execSel d a b s
  | .seq d a src => Sys2Proof.Machine.execSeq d a src s
  | .sne d a src => Sys2Proof.Machine.execSne d a src s
  | .slt d a src => Sys2Proof.Machine.execSlt d a src s
  | .sltu d a src => Sys2Proof.Machine.execSltu d a src s
  | .sle d a src => Sys2Proof.Machine.execSle d a src s
  | .sleu d a src => Sys2Proof.Machine.execSleu d a src s
  | .clz d a => Sys2Proof.Machine.execClz d a s
  | .ctz d a => Sys2Proof.Machine.execCtz d a s
  | .popc d a => Sys2Proof.Machine.execPopc d a s
  | .pgtag d a => Sys2Proof.Machine.execPgtag d a s
  | .sextB d a => Sys2Proof.Machine.execSextB d a s
  | .sextH d a => Sys2Proof.Machine.execSextH d a s
  | .sextW d a => Sys2Proof.Machine.execSextW d a s
  | .zextB d a => Sys2Proof.Machine.execZextB d a s
  | .zextH d a => Sys2Proof.Machine.execZextH d a s
  | .zextW d a => Sys2Proof.Machine.execZextW d a s
  | .padd d a src => Sys2Proof.Machine.execPadd d a src s
  | .ptag d a src => Sys2Proof.Machine.execPtag d a src s
  | .shadd k d a b => Sys2Proof.Machine.execShadd k d a b s
  | .bext d a pos len => Sys2Proof.Machine.execBext d a pos len s
  | .bins d a pos len => Sys2Proof.Machine.execBins d a pos len s
  | .jr a => Sys2Proof.Machine.execJr a s
  | .jtab a b => Sys2Proof.Machine.execJtab a b s
  | .addi d imm => Sys2Proof.Machine.execAddi d imm s
  | .li d imm => Sys2Proof.Machine.execLi d imm s
  | .csrr d immn => Sys2Proof.Machine.execCsrr d immn s
  | .csrw d immn => Sys2Proof.Machine.execCsrw d immn s
  | .b imm => Sys2Proof.Machine.execB imm s
  | .bpr imm => Sys2Proof.Machine.execBpr imm s
  | .beqz a imm => Sys2Proof.Machine.execBeqz a imm s
  | .bnez a imm => Sys2Proof.Machine.execBnez a imm s
  | .bltz a imm => Sys2Proof.Machine.execBltz a imm s
  | .bgez a imm => Sys2Proof.Machine.execBgez a imm s
  | .beq a b imm => Sys2Proof.Machine.execBeq a b imm s
  | .bne a b imm => Sys2Proof.Machine.execBne a b imm s
  | .blt a b imm => Sys2Proof.Machine.execBlt a b imm s
  | .bltu a b imm => Sys2Proof.Machine.execBltu a b imm s
  | .ld pfx ty rm d a off => Sys2Proof.Machine.execLd pfx ty rm d a off s
  | .st pfx ty rm d a off => Sys2Proof.Machine.execSt pfx ty rm d a off s
  | .ldx pfx ty rm d a b => Sys2Proof.Machine.execLdx pfx ty rm d a b s
  | .stx pfx ty rm d a b => Sys2Proof.Machine.execStx pfx ty rm d a b s
  | .ldf pfx d a off => Sys2Proof.Machine.execLdf pfx d a off s
  | .stf pfx d a off => Sys2Proof.Machine.execStf pfx d a off s
  | .stfE pfx d a off => Sys2Proof.Machine.execStfE pfx d a off s
  | .park pfx a off => Sys2Proof.Machine.execPark pfx a off s
  | .parkZ pfx a off => Sys2Proof.Machine.execParkZ pfx a off s
  | .aadd pfx ty d a b => Sys2Proof.Machine.execAadd pfx ty d a b s
  | .amin pfx ty d a b => Sys2Proof.Machine.execAmin pfx ty d a b s
  | .amax pfx ty d a b => Sys2Proof.Machine.execAmax pfx ty d a b s
  | .aand pfx ty d a b => Sys2Proof.Machine.execAand pfx ty d a b s
  | .aor pfx ty d a b => Sys2Proof.Machine.execAor pfx ty d a b s
  | .axor pfx ty d a b => Sys2Proof.Machine.execAxor pfx ty d a b s
  | .aswap pfx ty d a b => Sys2Proof.Machine.execAswap pfx ty d a b s
  | .acas pfx ty d a b => Sys2Proof.Machine.execAcas pfx ty d a b s
  | .afadd pfx ty rm d a b off => Sys2Proof.Machine.execAfadd pfx ty rm d a b off s
  | .bankop pfx ty fn d a b => Sys2Proof.Machine.execBankop pfx ty fn d a b s
  | .tagst pfx d a b => Sys2Proof.Machine.execTagst pfx d a b s
  | .tagstZ pfx d a b => Sys2Proof.Machine.execTagstZ pfx d a b s
  | .tagld pfx d a => Sys2Proof.Machine.execTagld pfx d a s
  | .dcwb pfx d a => Sys2Proof.Machine.execDcwb pfx d a s
  | .dcinv pfx d a => Sys2Proof.Machine.execDcinv pfx d a s
  | .pref pfx a off => Sys2Proof.Machine.execPref pfx a off s
  | .vld pfx ty rm gov d a off => Sys2Proof.Machine.execVld pfx ty rm gov d a off s
  | .vst pfx ty rm gov d a off => Sys2Proof.Machine.execVst pfx ty rm gov d a off s
  | .vldx pfx ty rm gov d a b => Sys2Proof.Machine.execVldx pfx ty rm gov d a b s
  | .vstx pfx ty rm gov d a b => Sys2Proof.Machine.execVstx pfx ty rm gov d a b s
  | .vbc pfx ty gov d a => Sys2Proof.Machine.execVbc pfx ty gov d a s
  | .vmovs pfx ty d a off => Sys2Proof.Machine.execVmovs pfx ty d a off s
  | .vadd pfx ty rm gov d a b => Sys2Proof.Machine.execVadd pfx ty rm gov d a b s
  | .vsub pfx ty rm gov d a b => Sys2Proof.Machine.execVsub pfx ty rm gov d a b s
  | .vmul pfx ty rm gov d a b => Sys2Proof.Machine.execVmul pfx ty rm gov d a b s
  | .vfma pfx ty rm gov d a b => Sys2Proof.Machine.execVfma pfx ty rm gov d a b s
  | .vmin pfx ty gov d a b => Sys2Proof.Machine.execVmin pfx ty gov d a b s
  | .vmax pfx ty gov d a b => Sys2Proof.Machine.execVmax pfx ty gov d a b s
  | .vabs pfx ty gov d a => Sys2Proof.Machine.execVabs pfx ty gov d a s
  | .vneg pfx ty gov d a => Sys2Proof.Machine.execVneg pfx ty gov d a s
  | .vand pfx ty gov d a b => Sys2Proof.Machine.execVand pfx ty gov d a b s
  | .vor pfx ty gov d a b => Sys2Proof.Machine.execVor pfx ty gov d a b s
  | .vxor pfx ty gov d a b => Sys2Proof.Machine.execVxor pfx ty gov d a b s
  | .vshl pfx ty gov d a src => Sys2Proof.Machine.execVshl pfx ty gov d a src s
  | .vshr pfx ty gov d a src => Sys2Proof.Machine.execVshr pfx ty gov d a src s
  | .vsar pfx ty gov d a src => Sys2Proof.Machine.execVsar pfx ty gov d a src s
  | .vcmp pfx ty rel d a b => Sys2Proof.Machine.execVcmp pfx ty rel d a b s
  | .vsel pfx ty gov d a b => Sys2Proof.Machine.execVsel pfx ty gov d a b s
  | .vcvt pfx ty sty rm d a => Sys2Proof.Machine.execVcvt pfx ty sty rm d a s
  | .vqnt pfx ty fix d a b => Sys2Proof.Machine.execVqnt pfx ty fix d a b s
  | .vdq pfx ty rm sel d a b => Sys2Proof.Machine.execVdq pfx ty rm sel d a b s
  | .vrsum pfx ty rm gov d a => Sys2Proof.Machine.execVrsum pfx ty rm gov d a s
  | .vrmax pfx ty gov d a => Sys2Proof.Machine.execVrmax pfx ty gov d a s
  | .vrmin pfx ty gov d a => Sys2Proof.Machine.execVrmin pfx ty gov d a s
  | .vscan pfx ty rm gov d a => Sys2Proof.Machine.execVscan pfx ty rm gov d a s
  | .vtopk pfx ty gov d a off => Sys2Proof.Machine.execVtopk pfx ty gov d a off s
  | .vexp2 pfx ty rm gov d a => Sys2Proof.Machine.execVexp2 pfx ty rm gov d a s
  | .vlog2 pfx ty rm gov d a => Sys2Proof.Machine.execVlog2 pfx ty rm gov d a s
  | .vrcp pfx ty rm gov d a => Sys2Proof.Machine.execVrcp pfx ty rm gov d a s
  | .vrsq pfx ty rm gov d a => Sys2Proof.Machine.execVrsq pfx ty rm gov d a s
  | .vperm pfx ty gov d a b => Sys2Proof.Machine.execVperm pfx ty gov d a b s
  | .baddq pfx ty d a b => Sys2Proof.Machine.execBaddq pfx ty d a b s
  | .pand pfx d a b => Sys2Proof.Machine.execPand pfx d a b s
  | .por pfx d a b => Sys2Proof.Machine.execPor pfx d a b s
  | .pnot pfx d a => Sys2Proof.Machine.execPnot pfx d a s
  | .pset pfx ty d srcA => Sys2Proof.Machine.execPset pfx ty d srcA s
  | .tview pfx d a off => Sys2Proof.Machine.execTview pfx d a off s
  | .tvset pfx word d a => Sys2Proof.Machine.execTvset pfx word d a s
  | .tforce pfx a => Sys2Proof.Machine.execTforce pfx a s
  | .tforceAll pfx => Sys2Proof.Machine.execTforceAll pfx s
  | .tstore pfx rm d a => Sys2Proof.Machine.execTstore pfx rm d a s
  | .tdrop pfx a => Sys2Proof.Machine.execTdrop pfx a s
  | .tdropAll pfx => Sys2Proof.Machine.execTdropAll pfx s
  | .tstat pfx d => Sys2Proof.Machine.execTstat pfx d s
  | .acq pfx d srcA => Sys2Proof.Machine.execAcq pfx d srcA s
  | .arel pfx a => Sys2Proof.Machine.execArel pfx a s
  | .tmul pfx rm relu d a b => Sys2Proof.Machine.execTmul pfx rm relu d a b s
  | .tmulg pfx rm relu d a b => Sys2Proof.Machine.execTmulg pfx rm relu d a b s
  | .tmula pfx d a b => Sys2Proof.Machine.execTmula pfx d a b s
  | .tadd pfx rm relu d a b off => Sys2Proof.Machine.execTadd pfx rm relu d a b off s
  | .tsub pfx rm relu d a b off => Sys2Proof.Machine.execTsub pfx rm relu d a b off s
  | .tmule pfx rm relu d a b off => Sys2Proof.Machine.execTmule pfx rm relu d a b off s
  | .tscl pfx rm relu d a b => Sys2Proof.Machine.execTscl pfx rm relu d a b s
  | .tbias pfx rm relu d a b => Sys2Proof.Machine.execTbias pfx rm relu d a b s
  | .tact pfx rm fn d a => Sys2Proof.Machine.execTact pfx rm fn d a s
  | .texp pfx rm e d a sub => Sys2Proof.Machine.execTexp pfx rm e d a sub s
  | .trmax pfx rm d a => Sys2Proof.Machine.execTrmax pfx rm d a s
  | .trsum pfx rm d a => Sys2Proof.Machine.execTrsum pfx rm d a s
  | .tdivr pfx rm d a b => Sys2Proof.Machine.execTdivr pfx rm d a b s
  | .tmask pfx rm zero d a off => Sys2Proof.Machine.execTmask pfx rm zero d a off s
  | .trot pfx rm inv d a b theta => Sys2Proof.Machine.execTrot pfx rm inv d a b theta s
  | .tqnt pfx d a => Sys2Proof.Machine.execTqnt pfx d a s
  | .tcopy pfx rm d a off => Sys2Proof.Machine.execTcopy pfx rm d a off s
  | .ttrn pfx rm d a => Sys2Proof.Machine.execTtrn pfx rm d a s
  | .tscan pfx rm d a => Sys2Proof.Machine.execTscan pfx rm d a s
  | .spawn pfx a src => Sys2Proof.Machine.execSpawn pfx a src s
  | .endBead pfx a => Sys2Proof.Machine.execEndBead pfx a s
  | .yield pfx => Sys2Proof.Machine.execYield pfx s
  | .launch pfx a b => Sys2Proof.Machine.execLaunch pfx a b s
  | .barcfg pfx d a => Sys2Proof.Machine.execBarcfg pfx d a s
  | .arrive pfx sc pm d => Sys2Proof.Machine.execArrive pfx sc pm d s
  | .bwait pfx sc d => Sys2Proof.Machine.execBwait pfx sc d s
  | .btry pfx sc d a => Sys2Proof.Machine.execBtry pfx sc d a s
  | .put pfx d a b dx dy => Sys2Proof.Machine.execPut pfx d a b dx dy s
  | .puts pfx d a b dx dy => Sys2Proof.Machine.execPuts pfx d a b dx dy s
  | .get pfx d a b dx dy => Sys2Proof.Machine.execGet pfx d a b dx dy s
  | .rput pfx d a b dx dy => Sys2Proof.Machine.execRput pfx d a b dx dy s
  | .strm pfx a => Sys2Proof.Machine.execStrm pfx a s
  | .strmw pfx a => Sys2Proof.Machine.execStrmw pfx a s
  | .slot pfx d immn => Sys2Proof.Machine.execSlot pfx d immn s
  | .slotAck pfx immn => Sys2Proof.Machine.execSlotAck pfx immn s
  | .slotEnd pfx d immn => Sys2Proof.Machine.execSlotEnd pfx d immn s
  | .cpwait pfx d => Sys2Proof.Machine.execCpwait pfx d s
  | .lkpop pfx d a => Sys2Proof.Machine.execLkpop pfx d a s
  | .lkpopSet pfx d a b => Sys2Proof.Machine.execLkpopSet pfx d a b s
  | .fence pfx sc pm fm d => Sys2Proof.Machine.execFence pfx sc pm fm d s
  | .fencex pfx sc pm fm d => Sys2Proof.Machine.execFencex pfx sc pm fm d s
  | .pksc pfx ty rm k2 a b => Sys2Proof.Machine.execPksc pfx ty rm k2 a b s
  | .pksel pfx a b => Sys2Proof.Machine.execPksel pfx a b s
  | .pkgth pfx rm a b => Sys2Proof.Machine.execPkgth pfx rm a b s
  | .pksct pfx ty rm a b => Sys2Proof.Machine.execPksct pfx ty rm a b s
  | .edins pfx d a b => Sys2Proof.Machine.execEdins pfx d a b s
  | .eddel pfx d a b => Sys2Proof.Machine.execEddel pfx d a b s
  | .edchg pfx d a b => Sys2Proof.Machine.execEdchg pfx d a b s
  | .edmap pfx d a b => Sys2Proof.Machine.execEdmap pfx d a b s
  | .ctxdone pfx d a b => Sys2Proof.Machine.execCtxdone pfx d a b s
  | .vldvAt pfx ty rm d a b => Sys2Proof.Machine.execVldvAt pfx ty rm d a b s
  | .vldvCur pfx ty rm d a b => Sys2Proof.Machine.execVldvCur pfx ty rm d a b s
  | .settle pfx d a b => Sys2Proof.Machine.execSettle pfx d a b s
  | .reclaim pfx d a b => Sys2Proof.Machine.execReclaim pfx d a b s
  | .reclaimBind pfx d a => Sys2Proof.Machine.execReclaimBind pfx d a s
  | .reclaimUnbind pfx d a => Sys2Proof.Machine.execReclaimUnbind pfx d a s
  | .trap pfx immn => Sys2Proof.Machine.execTrap pfx immn s
  | .eret pfx => Sys2Proof.Machine.execEret pfx s
  | .tlbi pfx sc => Sys2Proof.Machine.execTlbi pfx sc s
  | .tlbiVa pfx sc a => Sys2Proof.Machine.execTlbiVa pfx sc a s
  | .idle pfx d => Sys2Proof.Machine.execIdle pfx d s
  | .wsw pfx immn => Sys2Proof.Machine.execWsw pfx immn s
  | .mcack pfx a => Sys2Proof.Machine.execMcack pfx a s
  | .pdrnSave pfx d a b => Sys2Proof.Machine.execPdrnSave pfx d a b s
  | .pdrnKill pfx d a => Sys2Proof.Machine.execPdrnKill pfx d a s
  | .pdrnRun pfx d a => Sys2Proof.Machine.execPdrnRun pfx d a s
  | .prst pfx a => Sys2Proof.Machine.execPrst pfx a s
  | .ctxsv pfx d a b mem => Sys2Proof.Machine.execCtxsv pfx d a b mem s
  | .ctxrs pfx d a => Sys2Proof.Machine.execCtxrs pfx d a s
  | .deviceReset => Sys2Proof.Machine.execDeviceReset s
  | .attestationRequest => Sys2Proof.Machine.execAttestationRequest s
  | .hostQueueRegisterWrite => Sys2Proof.Machine.execHostQueueRegisterWrite s
  | .hcqtDoorbell => Sys2Proof.Machine.execHcqtDoorbell s
  | .hostNopCommand => Sys2Proof.Machine.execHostNopCommand s
  | .hostLaunchCommand => Sys2Proof.Machine.execHostLaunchCommand s
  | .hostUnknownCommand => Sys2Proof.Machine.execHostUnknownCommand s
  | .hcphWrite => Sys2Proof.Machine.execHcphWrite s
  | .completionWrite => Sys2Proof.Machine.execCompletionWrite s
  | .hostMemAccess => Sys2Proof.Machine.execHostMemAccess s
  | .indirectRecordRead => Sys2Proof.Machine.execIndirectRecordRead s
  | .launchRetry => Sys2Proof.Machine.execLaunchRetry s
  | .kernelPlacement => Sys2Proof.Machine.execKernelPlacement s
  | .initialBeadEnqueue => Sys2Proof.Machine.execInitialBeadEnqueue s
  | .rampUpStep => Sys2Proof.Machine.execRampUpStep s
  | .pickupGrant => Sys2Proof.Machine.execPickupGrant s
  | .headBufferRefill => Sys2Proof.Machine.execHeadBufferRefill s
  | .bankJoinIncrement => Sys2Proof.Machine.execBankJoinIncrement s
  | .bankJoinDecrement => Sys2Proof.Machine.execBankJoinDecrement s
  | .continuationEnqueue => Sys2Proof.Machine.execContinuationEnqueue s
  | .overflowListDrain => Sys2Proof.Machine.execOverflowListDrain s
  | .retirementQuiesceComplete => Sys2Proof.Machine.execRetirementQuiesceComplete s
  | .rampDownStep => Sys2Proof.Machine.execRampDownStep s
  | .bankAtomicApply => Sys2Proof.Machine.execBankAtomicApply s
  | .atomicReply => Sys2Proof.Machine.execAtomicReply s
  | .bankopLineApply => Sys2Proof.Machine.execBankopLineApply s
  | .futureFillApply => Sys2Proof.Machine.execFutureFillApply s
  | .testAndRegisterReply => Sys2Proof.Machine.execTestAndRegisterReply s
  | .parkTableWake => Sys2Proof.Machine.execParkTableWake s
  | .loadDataReturn => Sys2Proof.Machine.execLoadDataReturn s
  | .storeCompletion => Sys2Proof.Machine.execStoreCompletion s
  | .rodWatchdogExpiry => Sys2Proof.Machine.execRodWatchdogExpiry s
  | .machineCheck => Sys2Proof.Machine.execMachineCheck s
  | .rowShiftRepair => Sys2Proof.Machine.execRowShiftRepair s
  | .pdrnDeadlineExpiry => Sys2Proof.Machine.execPdrnDeadlineExpiry s
  | .drainComplete => Sys2Proof.Machine.execDrainComplete s
  | .barrierArrivalMessage => Sys2Proof.Machine.execBarrierArrivalMessage s
  | .barrierReleaseMessage => Sys2Proof.Machine.execBarrierReleaseMessage s
  | .copyLineLand => Sys2Proof.Machine.execCopyLineLand s
  | .copyLineAck => Sys2Proof.Machine.execCopyLineAck s
  | .putsSignalApply => Sys2Proof.Machine.execPutsSignalApply s
  | .rputMessageApply => Sys2Proof.Machine.execRputMessageApply s
  | .streamSlotWrite => Sys2Proof.Machine.execStreamSlotWrite s
  | .strmwSlotWriteback => Sys2Proof.Machine.execStrmwSlotWriteback s
  | .pkscExecute => Sys2Proof.Machine.execPkscExecute s
  | .pkselExecute => Sys2Proof.Machine.execPkselExecute s
  | .pkgthExecute => Sys2Proof.Machine.execPkgthExecute s
  | .pksctExecute => Sys2Proof.Machine.execPksctExecute s
  | .demandServe => Sys2Proof.Machine.execDemandServe s
  | .outputTileEvaluate => Sys2Proof.Machine.execOutputTileEvaluate s
  | .outputTileRelease => Sys2Proof.Machine.execOutputTileRelease s
  | .demandComplete => Sys2Proof.Machine.execDemandComplete s
  | .tdropService => Sys2Proof.Machine.execTdropService s
  | .evuContextRequest => Sys2Proof.Machine.execEvuContextRequest s
  | .evuRecomputeSpawn => Sys2Proof.Machine.execEvuRecomputeSpawn s
  | .ingressImportAccess => Sys2Proof.Machine.execIngressImportAccess s
  | .linkDeadDeclaration => Sys2Proof.Machine.execLinkDeadDeclaration s
  | .drainRoundExpiry => Sys2Proof.Machine.execDrainRoundExpiry s
  | .indirectionEntryWrite => Sys2Proof.Machine.execIndirectionEntryWrite s
  | .pageMoveComplete => Sys2Proof.Machine.execPageMoveComplete s
  | .linkCoreBind => Sys2Proof.Machine.execLinkCoreBind s
  | .linkCoreUnbind => Sys2Proof.Machine.execLinkCoreUnbind s
  | .checkpointGo => Sys2Proof.Machine.execCheckpointGo s
  | .checkpointComplete => Sys2Proof.Machine.execCheckpointComplete s
  | .systemRegisterWrite => Sys2Proof.Machine.execSystemRegisterWrite s
  | .energyUpdate => Sys2Proof.Machine.execEnergyUpdate s
  | .throttleStepDecay => Sys2Proof.Machine.execThrottleStepDecay s
  | .throttleCauseDemand => Sys2Proof.Machine.execThrottleCauseDemand s
  | .forwardedAccess => Sys2Proof.Machine.execForwardedAccess s

end Sys2Proof.Machine
end

