-- ==== Sys2Proof/Machine/Fetch.lean ====
section
/-! DEFINITION. Fetching a chain (R53, R87, R88), the tests before issue (R99, R101, R102, R144), and which step comes
next. -/

namespace Sys2Proof.Machine

def cFetch : Nat := 0x04
def cLookahead : Nat := 0x05

/-- Whether a word address lies in the code image (R53): 64-bit tagged addresses, compared on their address bits; a
steward's firmware image has no bound of R53. -/
def inImage (kd : List Word) (pc : Word) : Bool :=
  let a := fld pc 0 56
  let base := fld (wd kd 0) 0 56
  decide (base ≤ a) && decide (a < base + 2 * fld (wd kd 1) 24 24)

/-- The secure service handler of WSW runs: it lies outside the kernel's image (R370; log 21). -/
def Core.inService (c : Core) : Bool := c.inh && fld c.ecause 56 8 == 0x02

/-- A fault on a word is an instruction fetch fault (R88). -/
def fetchFault (f : FaultInfo) : FaultInfo := { f with cause := cFetch }

/-- A byte of the image that has been stored to since the kernel's launch makes its instruction word unpredictable (R53,
log 13). -/
def State.staleByte (s : State) (k loc : Nat) : Bool :=
  !isSteward k && decide (s.bornOf k < Map.get s.written 0 (loc / 2))

/-- An instruction word at a location, of which a byte has been stored to since the kernel's launch. -/
def State.staleWord (s : State) (k loc : Nat) : Bool := s.staleByte k loc || s.staleByte k (loc + 1)

/-- A word that a core reads: the bytes that stand there, or a free value where the word is stale. -/
def State.wordRead (s : State) (k : Nat) (pc : Word) (stale : Bool) (bs : List Byte) : List Byte :=
  if stale && !(s.coreAt k).inService then leBytes 2 (Config.freeWord (s.free + pc.toNat / 2 % 5)).toNat else bs

/-- No word is fetched at an odd address, outside global space, or outside the image (R53, R87). -/
def State.fetchBarred (s : State) (k : Nat) (pc : Word) : Bool :=
  bitOf pc 0 || spaceOf pc != 0 || (!isSteward k && !(s.coreAt k).inService && !inImage (s.kdOf k) pc)

/-- One instruction word at a tagged address (R87). -/
def State.fetchWord (s : State) (k : Nat) (pc : Word) : Except FaultInfo (List Byte) :=
  let i := s.issuer k .c
  if s.fetchBarred k pc then .error (faultAt i cFetch pc)
  else
    match s.translate i pc 2 false true with
    | .error f => .error (fetchFault f)
    | .ok (.gone dead) => .error (fetchFault (faultAt i (goneCause dead) pc))
    | .ok (.sys ..) => .error (faultAt i cFetch pc)
    | .ok (.split loc k1 next) =>
      match s.checkRuns i pc (splitRuns pc 2 loc k1 next) true with
      | .error f => .error (fetchFault f)
      | .ok _ => .ok (s.wordRead k pc (s.staleByte k loc || s.staleByte k next) (s.look loc k1 ++ s.look next (2 - k1)))
    | .ok (.mem loc) =>
      match s.memCheck i pc loc 2 true with
      | .error f => .error (fetchFault f)
      | .ok _ => .ok (s.wordRead k pc (s.staleWord k loc) (s.look loc 2))

/-- The words of a chain: up to the first base word or the fifth prefix word (R88). -/
def State.fetchChain (s : State) (k : Nat) : Nat → Word → Except FaultInfo (List IWord)
  | 0, _ => .ok []
  | n + 1, pc =>
    match s.fetchWord k pc with
    | .ok bs =>
      let w : IWord := BitVec.ofNat 16 (leNat (bs.take 2))
      if isPfx w then
        match s.fetchChain k n (padd pc 2) with
        | .ok ws => .ok (w :: ws)
        | .error f => .error f
      else .ok [w]
    | .error f => .error f

/-- What a fetch that faults leaves in home units (R155): the words before the faulting one, the table words of its walk, and that
word too where it has reached the memory. -/
def State.noteFetch (s : State) (k : Nat) (pc : Word) (f : FaultInfo) : State :=
  let i := s.issuer k .c
  let n := (f.va - pc).toNat
  let s1 := if n = 0 ∨ 10 < n then s else s.noteRange i pc n
  if s.fetchBarred k f.va then s1
  else s1.noteFailed i f.va 2 { f with cause := if f.fnd = 0 ∧ f.gva = 0 then cTranslation else cTag }

/-- The decode tests 6 and 7 (R101, R102): the mnemonics that a kind of core lacks, the cells marked S. -/
def State.decodeBars (s : State) (k : Nat) (i : Instr) : Bool :=
  match Sys2Proof.parts i with
  | none => false
  | some (op, _) =>
    let h := shape op
    (h.page == 3 && !isTile k) || (h.page == 4 && h.op == 3 && h.x == 0 && !isLink k) ||
    (isSteward k && (op == .spawn || op == .endBead || op == .yield || op == .park || op == .parkZ)) ||
    (h.page == 6 && !(s.coreAt k).world && op != .trap && op != .eret && op != .wsw)

/-- The registers that an instruction reads through the views that it names (R246, R260, R261): the handle of a KIND 1 view, the
index view of a KIND 2 view that an append names.  TVSET reads no more than its own register. -/
def Core.viewReads (c : Core) (i : Instr) : List (File × Nat) :=
  let appends := match Sys2Proof.parts i with
    | some (op, _) => op != .tforce && op != .tstore && op != .tdrop
    | none => false
  (regsRead i).flatMap fun r =>
    if r.1 != .t || (regsWritten i).contains r then []
    else
      match c.tReg r.2 with
      | none => []
      | some x =>
        if View.kind x = 1 then [(.a, View.handle x)]
        else if View.kind x = 2 ∧ appends = true then [(.t, View.idxt x)]
        else []

/-- A register that an open window of a core holds is read or written (R99). -/
def Core.violates (c : Core) (i : Instr) : Bool :=
  c.windows.any fun w => (regsRead i ++ c.viewReads i ++ regsWritten i).any fun r => w.2.contains r

/-- The windows after an instruction has been counted, its own among them (R98). -/
def windowsAfter (windows : List (Nat × List (File × Nat))) (i : Instr) : List (Nat × List (File × Nat)) :=
  (windows.filterMap fun w => if w.1 ≤ 1 then none else some (w.1 - 1, w.2)) ++
    (if lookahead i = 0 then [] else [(lookahead i, regsWritten i)])

/-- What issuing a decoded instruction sets before its meaning: the executing core, the address after the chain, the
windows that its commit leaves. -/
def State.atIssue (s : State) (k : Nat) (i : Instr) (words : Nat) : State :=
  let c := s.coreAt k
  { s with cur := k }.putCore k { c with npc := padd c.pc (2 * words : Nat), nextWin := windowsAfter c.windows i }

/-- What a core's turn comes to before any meaning: an instruction to execute, or the state that a fault or a checker
mismatch leaves. -/
inductive Turn
  | execute (i : Instr) (s : State)
  | done (s : State)

/-- A request that core `k` has sent is one turn older. -/
def PklReq.older (k : Nat) (q : PklReq) : PklReq := if q.core = k then { q with age := q.age + 1 } else q

/-- The turn goes to core `k`, and the requests that it has sent are one turn older (log 1). -/
def State.takeTurn (s : State) (k : Nat) : State := { s with cur := k, requests := s.requests.map (PklReq.older k) }

/-- One turn of a running core (R88, R99, R101, R144). -/
def State.turn (s : State) (k : Nat) : Turn :=
  let c := s.coreAt k
  let s0 := s.takeTurn k
  if c.chkMiss ≠ 0 then
    -- a mismatch produces nothing; the third raises a machine check (R144)
    let s1 := s0.putCore k { c with chkMiss := c.chkMiss - 1, chkRun := c.chkRun + 1 }
    if c.chkRun + 1 = 3 then .done ((s1.modCore k fun c => { c with chkRun := 0 }).push [.machineCheck k]) else .done s1
  else
    match s.fetchChain k 5 c.pc with
    | .error f => .done ((s0.noteFetch k c.pc f).trap f)
    | .ok ws =>
      let s1 := s0.noteRange (s0.issuer k .c) c.pc (2 * ws.length)
      match decode ws with
      | .error _ => .done (s1.trapCause cIllegal)
      | .ok (i, n) =>
        if c.violates i && !s0.decodeBars k i then .done (s1.trapCause cLookahead)
        else .execute i ({ s0 with free := s0.free + 5 }.atIssue k i n |>.noteRange (s0.issuer k .c) c.pc (2 * n))

/-- The cores that can issue, the next after the current one first. -/
def State.nextCore (s : State) : Option Nat :=
  ((List.range 420).map fun j => (s.cur + 1 + j) % 420).find? fun k => (s.coreAt k).mode == .running

/-- An input that is no device step and no turn. -/
def State.applyInput (s : State) : Input → State
  | .mismatch k => s.modCore k fun c => { c with chkMiss := c.chkMiss + 1 }
  | .residue t => s.modTile t fun x => { x with residueMiss := x.residueMiss + 1 }
  | .poison loc => { s with poison := loc / 32 :: s.poison }
  | .granted entry w0 w1 =>
    (s.setSys 0x048 (16 * (entry % 256)) (clearFlds w0 [(48, 13)])).setSys 0x048 (16 * (entry % 256) + 8)
      (clearFlds w1 [(40, 24), (0, 16)])
  | .exported dev ent (some x) => { s with exports := Map.put s.exports (256 * dev + ent) x }
  | .exported dev ent none => { s with exports := Map.del s.exports (256 * dev + ent) }
  | .outside q => (s.peerServe q (unitRuns id (importBase q.dev (q.ent % 256) + q.off) q.n)).1
  | .lost dev down => { s with lost := (s.lost.filter (· != dev)) ++ (if down then [dev] else []) }
  | .linkUpdate .. => s.tellDeadLink
  | .msixTable a d => { s with host := { s.host with msixAddr := a, msixData := d } }
  | .ckptAck dev =>
    let s1 : State := { s with ckptAcks := dev :: s.ckptAcks }
    if s1.bothAcked then s1.push [.checkpointComplete] else s1
  | .event _ => s
  | .turn _ => s

/-- Time passes with every step (R127, log 4). -/
def State.pass (s : State) : State :=
  { s with tick := s.tick + 1, cyc := s.cyc + 1 + BitVec.ofNat 64 (Config.stepCycles s.tick) }

/-- A core whose bead's watchdog count has reached the limit of its rod and which has not said so (R374). -/
def State.watchdogDue (s : State) : Option Nat :=
  (s.timers.filterMap fun e => match e with | .rodWatchdogExpiry k => some k | _ => none).find? fun k =>
    let c := s.coreAt k
    match c.bead.bind fun b => s.rodAt b.unit b.rod with
    | some rod => rod.wdog != 0 && !c.wdSent && decide (rod.wdog ≤ s.wdNow k)
    | none => false

/-- What the machine does next. -/
inductive Choice
  | event (e : Ev) (s : State)
  | core (k : Nat)
  | done (s : State)

/-- A clock's turn: the oldest timer. -/
def State.ring (s : State) : Choice :=
  match s.timers with
  | i :: is => .event i { s with timers := is, rang := s.tick }
  | [] => .done s

/-- A PKL unit takes up a request when the core that sent it has had 64 turns since, or runs its bead no more: until then the bead's
next requests join it in the queue (R274, log 1). -/
def State.requestDue (s : State) (q : PklReq) : Bool :=
  decide (64 ≤ q.age) || (s.coreAt q.core).mode != .running || s.beadKey q.core != q.uid

/-- The request that a unit executes next: the oldest of the bead and the unit of the first that is due (R274). -/
def State.nextRequest (s : State) : Option PklReq :=
  (s.requests.find? s.requestDue).bind fun q => s.requests.find? fun x => s.sameQueue x q

/-- Device steps under way come first, then inputs, then a PKL request that is due, then what a clock brings once 64 steps have gone
by without it, then the next running core, then the clock again (log 1, log 11). -/
def State.order (s : State) : Choice :=
  match s.pend with
  | i :: is => .event i { s with pend := is }
  | [] =>
    match s.sched with
    | .event i :: r => .event i { s with sched := r }
    | .turn k :: r => if ((s.coreAt k).mode == .running) then .done { s with sched := r, cur := (k + 419) % 420 } else .done { s with sched := r }
    | x :: r => .done ({ s with sched := r }.applyInput x)
    | [] =>
      match s.nextRequest with
      | some q => .event (pklEvent q) { s with requests := s.requests.erase q }
      | none =>
        if decide (s.rang + 64 ≤ s.tick) && !s.timers.isEmpty then s.ring
        else
          match s.nextCore with
          | some k => .core k
          | none => s.ring

/-- A watchdog count that has reached its limit comes before everything: its bead cannot leave the core unnoticed (R374). -/
def State.choose (s : State) : Choice :=
  match s.watchdogDue with
  | some k => .event (.rodWatchdogExpiry k) { s with timers := s.timers.filter (· != .rodWatchdogExpiry k) }
  | none => s.order

/-- Where withFetchWord puts the chain: CODE of the partition that it places. -/
def slotZeroCode : Word := 0x100000

/-- The descriptor of that partition: an image of 2^24 − 1 words at CODE, a heap window that is the whole of HBM at its
own addresses, the handler at CODE. -/
def slotZeroKd : List Word :=
  [slotZeroCode, BitVec.ofNat 64 ((2 ^ 24 - 1) * 2 ^ 24), BitVec.ofNat 64 (6 * 2 ^ 24 + 2 ^ 16 + 2 ^ 8 + 1), 0, 0, 0, 0,
   slotZeroCode, 0, 0, BitVec.ofNat 64 (2 ^ 40), 0, 0, 0, 0, 0]

/-- Writes plain bytes without any of a write's side effects, as a loader does before the machine runs. -/
def State.loadBytes (s : State) (loc : Nat) (bs : List Byte) : State := s.putBytes loc bs

end Sys2Proof.Machine
end

