-- ==== Sys2Proof/Machine/Step.lean ====
section
/-! DEFINITION. One step of the machine, and the state in which the next step executes given words. -/

namespace Sys2Proof.Machine

/-- One step: a device step or an instruction, whole and indivisible. -/
def step (s : State) : Host.Outcome State Fault Refusal :=
  match s.pass.choose with
  | .event e t => exec e.instr { t with msg := some e }
  | .done t => .next t
  | .core k =>
    match s.pass.turn k with
    | .done t => .next t
    | .execute i t => exec i t

/-- A one-tile partition on tile 0 runs a bead whose next chain is the given words; nothing else is under way. -/
def State.withFetchWord (s : State) (nbits w : Nat) : State :=
  let rod : Rod := { part := some 0, cap := 64, prio := 0, world := false, wdog := 0,
                     slots := [(0, { record := { code := slotZeroCode }, use := .running 0 })] }
  let part : Part := { x0 := 0, y0 := 0, w := 1, h := 1, world := false, kd := slotZeroKd, tshape := 0, nrod := 1,
                       launcher := .host 0, stream := .host, launch := 0, born := s.tick + 1 }
  let s1 := s.loadBytes slotZeroCode.toNat (Sys2Proof.tableBytes nbits w)
  let s2 := (s1.putPart 0 part).putRod 0 0 rod
  let s3 := s2.putTile 0 { s2.tileAt 0 with part := some 0, idw := 1, idh := 1 }
  let s4 := s3.putCore 0 { Core.reset 0 with mode := .running, pc := slotZeroCode, bead := some ⟨0, 0, 0⟩ }
  { s4 with cur := 419, pend := [], sched := [], timers := [], requests := [], gmeta := s4.gmeta.filter fun e => e.1 != 0x8000 }

end Sys2Proof.Machine
end

