-- ==== Sys2Proof/WellFormed.lean ====
section
/-! DEFINITION. Which terms of `Instr` stand for an encoding: the fields are the cell's own and a chain of R92 holds them. -/

namespace Sys2Proof

/-- An instruction is well formed when its cell takes its operands (R95, R97, R101, R105) and nothing of it is lost in the
fields of the chain; a device step has no encoding and is well formed as it is. -/
def Instr.wf (i : Instr) : Bool :=
  match parts i with
  | some (op, o) => partsLegal op o && decide (mk op o = i)
  | none => true

/-- The device steps: the rows of the table that no chain encodes (log 2). -/
def Instr.isEvent (i : Instr) : Bool := (parts i).isNone

end Sys2Proof
end

