-- ==== Sys2Proof/Safety.lean ====
section
/-! DEFINITION. What a safe run is, the invariant of every run, and the terms in which the statements speak of one step:
what an instruction writes, what it leaves alone, how it commits, traps or hands a device step on. -/

namespace Sys2Proof.Machine

/-! ### Safe runs -/

/-- The sparse memories of a state stand in their canonical form. -/
def State.memWf (s : State) : Bool := Memory.wf s.mem && Memory.wf s.hostMem && Map.wf 0 s.gmeta

/-- A run of `n` steps is safe when none of them stops and every state on it has its memories in canonical form. -/
def safeRun : Nat → State → Bool
  | 0, s => s.memWf
  | n + 1, s =>
    s.memWf && match step s with
      | .next t => safeRun n t
      | .fault _ => false
      | .refused _ => false

/-- The answer is a next state of which `P` holds. -/
def Answers (r : Host.Outcome State Fault Refusal) (P : State → Prop) : Prop := ∃ t, r = .next t ∧ P t

/-! ### What a step leaves alone -/

/-- Every byte and every granule's stored metadata are as before; the D that the device's own writes of bead records and list
entries set stands in their unit (log 14). -/
def SameMemory (s t : State) : Prop := (∀ a, t.byte a = s.byte a) ∧ ∀ g, t.metaAt g = s.metaAt g

/-- Every core but `k` is as before. -/
def OthersSame (s t : State) (k : Nat) : Prop := ∀ j, j ≠ k → t.coreAt j = s.coreAt j

/-- Nothing changes but core `k`. -/
def OnlyCore (s t : State) (k : Nat) : Prop := t = { s with cores := t.cores } ∧ OthersSame s t k ∧ SameMemory s t

/-- Registers that are not listed keep their values. -/
structure RegsSame (c c' : Core) (ws : List (File × Nat)) : Prop where
  scalar : ∀ r, (File.s, r) ∉ ws → c'.sReg r = c.sReg r
  vector : ∀ r, (File.v, r) ∉ ws → c'.vReg r = c.vReg r
  predicate : ∀ r, (File.p, r) ∉ ws → c'.pReg r = c.pReg r
  view : ∀ r, (File.t, r) ∉ ws → c'.tReg r = c.tReg r
  handle : ∀ r, (File.a, r) ∉ ws → c'.aReg r = c.aReg r

/-- What committing makes of a core beside its register files (R37, R98, R127): flags raised, the next instruction at
`pc`, ICNT counted; exception registers, CSRs and the rest as they were. -/
def CommitsAt (c c' : Core) (pc : Word) (fl : Flags) : Prop :=
  c' = { c with
    s := c'.s, v := c'.v, p := c'.p, t := c'.t, a := c'.a, flg := c.flg ||| fl, pc := pc, icnt := c.icnt + 1,
    windows := c.nextWin, chkRun := 0 }

/-- The executing instruction commits and goes on at `pc`; it writes no register but those listed, raises the flags `fl`,
and changes nothing else of the machine. -/
structure CommitsTo (s t : State) (pc : Word) (ws : List (File × Nat)) (fl : Flags) : Prop where
  only : OnlyCore s t s.cur
  regs : RegsSame s.me t.me ws
  core : CommitsAt s.me t.me pc fl

/-- Commits, the next chain following. -/
def Commits (s t : State) (ws : List (File × Nat)) (fl : Flags) : Prop := CommitsTo s t s.me.npc ws fl

/-- The instruction answers a next state in which s[d] holds `v` (s0 reads zero) and nothing else has changed but for the
commit. -/
def PutsScalar (i : Instr) (s : State) (d : Nat) (v : Word) : Prop :=
  Answers (exec i s) fun t => Commits s t [(.s, d)] 0 ∧ t.sr d = if d = 0 then 0 else v

/-- The instruction answers a next state that goes on at `pc`, no register or flag written. -/
def GoesTo (i : Instr) (s : State) (pc : Word) : Prop := Answers (exec i s) fun t => CommitsTo s t pc [] 0

/-- A lane instruction (R196 to R198): each active lane of v[d] takes `f j`, the others keep their contents, and the flags
raised are those of the active lanes; nothing else changes but for the commit. -/
def Lanewise (i : Instr) (s : State) (ty : Ty) (gov : Option Nat) (d : Nat) (f : Nat → Nat × Flags) : Prop :=
  let w := ty.bytes
  Answers (exec i s) fun t =>
    Commits s t [(.v, d)] (((List.range (laneCount w)).filter fun j => s.me.active gov w j).foldl
      (fun g j => g ||| (f j).2) 0) ∧
    ∀ j, j < laneCount w → laneOf (t.me.vReg d) w j =
      if s.me.active gov w j then (f j).1 % 2 ^ (8 * w) else laneOf (s.me.vReg d) w j

/-! ### Numbers (R35, R38) -/

/-- The integer `i` is the value `v` rounded under RM (R35). -/
def RoundsInt (rm : Nat) (v : Val) (i : Int) : Prop :=
  let half (j : Int) : Val := .fin (decide (j < 0)) j.natAbs 1 (-1)
  match rm with
  | 0 => 0 ≤ v.cmp (half (2 * i - 1)) ∧ v.cmp (half (2 * i + 1)) ≤ 0 ∧
      ((v.cmp (half (2 * i - 1)) = 0 ∨ v.cmp (half (2 * i + 1)) = 0) → i % 2 = 0)
  | 1 => if v.isNeg then v.cmp (Val.ofInt i) ≤ 0 ∧ 0 < v.cmp (Val.ofInt (i - 1))
      else 0 ≤ v.cmp (Val.ofInt i) ∧ v.cmp (Val.ofInt (i + 1)) < 0
  | 2 => v.cmp (Val.ofInt i) ≤ 0 ∧ 0 < v.cmp (Val.ofInt (i - 1))
  | _ => 0 ≤ v.cmp (Val.ofInt i) ∧ v.cmp (Val.ofInt (i + 1)) < 0

/-- `m` is the code below 0x80 whose value is nearest to a magnitude, of two the larger (R38). -/
def NearestCode (y : Val) (m : Nat) : Prop :=
  let dist (k : Nat) : Val := (y.add 0 (.fin true (dm8Mag k) 1 (-19))).1.abs
  m < 128 ∧ ∀ k, k < 128 → (dist m).cmp (dist k) ≤ 0 ∧ ((dist m).cmp (dist k) = 0 → k ≤ m)

/-! ### Exceptions (R367, R370) -/

/-- What the writing of a record may change: memory and what a write marks (the records of rings among it), the events of
dies, the note that a partition has a record. -/
structure Filed (s t : State) : Prop where
  rest : t = { s with
    mem := t.mem, ctxs := t.ctxs, acnt := t.acnt, gmeta := t.gmeta, written := t.written, ckpt := t.ckpt,
    poison := t.poison, pend := t.pend, units := t.units, dies := t.dies, parts := t.parts }
  svec : ∀ d, (t.dieAt d).svec = (s.dieAt d).svec
  kd : ∀ p, (t.partAt p).map Part.kd = (s.partAt p).map Part.kd

/-- What taking a trap makes of core `k`: saved registers, world, handler address, mode; register files as they were. -/
def Enters (s t : State) (k : Nat) (f : FaultInfo) (epc erec : Word) : Prop :=
  t.coreAt k = { s.coreAt k with
    epc := epc
    ecause := BitVec.ofNat 64 (f.cause % 256 * 2 ^ 56 + f.sub % 16 * 2 ^ 32 + f.info % 2 ^ 32)
    eaddr := if f.cause = 0x01 ∨ f.cause = 0x02 then 0 else f.va
    erec := erec
    pw := (s.coreAt k).world
    inh := true
    world := if f.cause = 0x02 then true else (s.coreAt k).world
    pc := s.trapVector k f.cause
    windows := []
    chkRun := 0
    mode := .running }

/-- The fault area of a core's context and the device's access to it (R367, R338): that of its tile's partition or of its binding. -/
def State.AreaOf (s : State) (k : Nat) (i : Issuer) (area : Word) : Prop :=
  (isTile k = true ∧ ∃ p x, (s.tileAt k).part = some p ∧ s.partAt p = some x ∧
    i = deviceIssuer (tileAtXY x.x0 x.y0) (some p) x.world x.kd ∧ area = wd x.kd 6) ∨
  (isLink k = true ∧ i = deviceIssuer k (some (s.linkAt (k - 384)).part) (s.linkAt (k - 384)).world (s.linkAt (k - 384)).kd ∧
    area = wd (s.linkAt (k - 384)).kd 6)

/-- Where the handler of a core stands (R370, R338, R387): at TVEC of the descriptor of its tile's partition or of its binding, and
at SVEC of its die for WSW and on a steward core. -/
def State.HandlerAt (s : State) (k cause : Nat) (pc : Word) : Prop :=
  (cause = 0x02 ∨ isSteward k = true → pc = (s.dieAt (dieOf k)).svec) ∧
    (cause ≠ 0x02 → isTile k = true → ∀ p x, (s.tileAt k).part = some p → s.partAt p = some x → pc = wd x.kd 7) ∧
    (cause ≠ 0x02 → isLink k = true → pc = wd (s.linkAt (k - 384)).kd 7)

/-! ### Memory -/

/-- `n` bytes at `va` lie at location `loc` of this device, aligned to their size, and pass every check that the executing
core's C path makes (R150 to R154, R163, R166, R169, R174). -/
def State.Reaches (s : State) (va : Word) (n : Nat) (wr : Bool) (loc : Nat) : Prop :=
  va.toNat % n = 0 ∧ s.translate (s.issuer s.cur .c) va n wr false = .ok (.mem loc) ∧
    s.memCheck (s.issuer s.cur .c) va loc n (!wr) = .ok ()

/-- The addresses that a write of `n` bytes at a location stores to: its own and, while their home unit is being moved, those
where the unit goes (R157). -/
def State.Stores (s : State) (loc n a : Nat) : Prop :=
  (loc ≤ a ∧ a < loc + n) ∨
    ∃ m ∈ s.moves, m.1 = loc / 4096 ∧ m.2 * 4096 + loc % 4096 ≤ a ∧ a < m.2 * 4096 + loc % 4096 + n

/-- An access is to memory from a location on: its bytes lie there, or over the end of a home unit in two runs (log 58). -/
def Begins (p : Place) (loc : Nat) : Prop := p = .mem loc ∨ ∃ k next, p = .split loc k next

/-- No piece of memory lies over another, and no page is being moved to where one lies (R157); one piece alone is apart. -/
def State.Apart (s : State) (ps : List (Nat × Nat)) : Prop :=
  (∃ p, ps = [p] ∧ p.2 ≤ 4096) ∨
    (ps.Pairwise (fun p q => p.1 + p.2 ≤ q.1 ∨ q.1 + q.2 ≤ p.1) ∧
      (s.moves = [] ∨ ∀ p ∈ ps, p.1 % 4096 + p.2 ≤ 4096 ∧ ∀ m ∈ s.moves, m.2 ≠ p.1 / 4096))

/-- The bytes that stand in pieces of memory. -/
def State.bytesIn (s : State) (ps : List (Nat × Nat)) : List Byte := ps.flatMap fun p => s.bytes p.1 p.2

/-- Pieces of memory have taken bytes: apart, they hold them; every byte that none of them stores to is as before. -/
def State.Holds (s : State) (ps : List (Nat × Nat)) (bs : List Byte) (u : State) : Prop :=
  (∀ y, (∀ p ∈ ps, ¬ s.Stores p.1 p.2 y) → u.byte y = s.byte y) ∧ (s.Apart ps → u.bytesIn ps = bs)

/-- Where the fault area of a core's context takes a record, its sixteen words land at FAREA + 128 × (1 + HEAD mod NREC), which is
the record's address, HEAD counts one more, and every other byte is as before (R367). -/
def State.AreaTakes (s : State) (k : Nat) (ws : List Word) (r : State × Word) : Prop :=
  ∀ (i : Issuer) (area : Word) (hd : List Byte) (ps hs : List (Nat × Nat)), s.AreaOf k i area →
    s.readWhole i area 16 = .ok hd → leNat (hd.take 4) ≠ 0 →
    let n := leNat (hd.drop 8)
    let at_ := padd area (128 * (1 + n % leNat (hd.take 4)) : Nat)
    s.writeWhole i at_ 128 = .ok ps → s.writeWhole i (padd area 8) 8 = .ok hs →
    r.2 = at_ ∧ s.Holds (ps ++ hs) (bytesOfWords ws ++ leBytes 8 (n + 1)) r.1

/-- What writes to pieces make of a granule's metadata (R165, R189): D set and W cleared where one touches it, else as before. -/
def State.marked (s : State) (ps : List (Nat × Nat)) (g : Nat) : BitVec 12 :=
  if ps.any fun p => tagged p.1 && (granules p.1 p.2).contains g then mkMeta true false (metaF (s.metaAt g)) (metaTag (s.metaAt g))
  else s.metaAt g

/-- Nothing changes but memory and what a write marks beside it (a record whose ring is written among it), cores and device
steps under way. -/
def OnlyStores (s t : State) : Prop :=
  t = { s with
    cores := t.cores, mem := t.mem, gmeta := t.gmeta, acnt := t.acnt, written := t.written, ckpt := t.ckpt,
    poison := t.poison, ctxs := t.ctxs, units := t.units, pend := t.pend, msg := t.msg }

/-! ### The checks of an append (R246, R247, R250, R253) -/

/-- A KIND 1 view's handle holds banks for all its elements. -/
def State.BankFits (s : State) (x : ViewReg) : Prop := View.kind x = 1 →
  ∃ b n, s.me.aReg (View.handle x) = some (b, n) ∧ fld (View.base x) 32 32 + View.top x < 512 * n

/-- A KIND 2 view's index view is a loaded INT32 column of its rows. -/
def State.IndexFits (s : State) (x : ViewReg) : Prop := View.kind x = 2 →
  ∃ y, s.me.tReg (View.idxt x) = some y ∧ View.kind y = 0 ∧ View.win y = 5 ∧ View.dim y 0 = View.dim x 1 ∧
    View.dim y 1 * View.dim y 2 * View.dim y 3 = 1 ∧ View.gdim x = 1

/-- The snapshot of a view: a KIND 1 view's bank run, a KIND 2 view's index view. -/
def State.snapOf (s : State) (x : ViewReg) : Snap :=
  { desc := x
    bank := if View.kind x = 1 then (s.me.aReg (View.handle x)).getD (0, 0) else (0, 0)
    index := if View.kind x = 2 then s.me.tReg (View.idxt x) else none }

/-- The destination's span meets a source's, unless its map is identity and its descriptor the same, or an index view's (R247). -/
def State.Overlaps (s : State) (d : Snap) (es : List (Snap × Bool)) : Prop :=
  let meets (v : Snap) : Prop :=
    let p := s.span s.cur true d
    let q := s.span s.cur false v
    p.1 < q.2 ∧ q.1 < p.2
  ∃ e ∈ es, (meets e.1 ∧ ¬ (e.2 = true ∧ e.1.desc = d.desc)) ∨ ∃ y, e.1.index = some y ∧ meets { desc := y }

/-- The extents of dimensions are the destination's or 1 (R253). -/
def Broadcasts (x d : ViewReg) (is : List Nat) : Prop := ∀ i ∈ is, View.dim x i = View.dim d i ∨ View.dim x i = 1

/-- An operand read at the origin offset of an immediate (R253). -/
def Moved (x d : ViewReg) (off : Int) : Prop :=
  (∀ p ∈ [(0, off.toNat % 2 ^ 15), (1, off.toNat / 2 ^ 15 % 2 ^ 14)], (View.dim x p.1 = 1 ∧ p.2 = 0) ∨
    if off = 0 then View.dim x p.1 = View.dim d p.1 else View.dim d p.1 - 1 + p.2 < View.dim x p.1) ∧ Broadcasts x d [2, 3]

/-- Each run of 256 K positions of every row lies in one scale block (R250). -/
def BlockRows (x : ViewReg) : Prop := ∀ i3 i2 r, i3 < View.dim x 3 → i2 < View.dim x 2 → r < View.dim x 1 →
  let a := (fld (View.base x) 0 21 + View.elem x i3 i2 r 0) % 256
  if 256 ≤ View.dim x 0 then a = 0 else a + View.dim x 0 ≤ 256

/-- What the checks of an append answer: an unloaded view is a view fault; over loaded views, in their order: handles, index views, KINDs, shapes, types, the number
of output tiles, self-overlap; `plain i` says that operand `i` is read at its own coordinates. -/
def State.Checks (s : State) (ns : List Nat) (kinds shape type : ViewReg → List ViewReg → Prop) (plain : Nat → Bool)
    (chk : Except FaultInfo Appended) : Prop :=
  ((∃ n ∈ ns, s.me.tReg n = none) → chk = .error { cause := 0x13 }) ∧ ∀ x ys, ns.map s.me.tReg = (x :: ys).map some →
    let es := ys.zipIdx.map fun e => (s.snapOf e.1, plain e.2 && View.word e.1 1 == View.word x 1)
    let ok1 : Prop := ∀ v ∈ x :: ys, s.BankFits v
    let ok2 : Prop := ok1 ∧ ∀ v ∈ x :: ys, s.IndexFits v
    let ok3 : Prop := ok2 ∧ kinds x ys
    let ok4 : Prop := ok3 ∧ shape x ys
    let ok5 : Prop := ok4 ∧ type x ys
    let ok6 : Prop := ok5 ∧ (View.dim x 1 + 63) / 64 * ((View.dim x 0 + 63) / 64) * View.dim x 2 * View.dim x 3 ≤ 512
    (¬ ok1 → chk = .error { cause := 0x17 }) ∧ (ok1 → ¬ ok2 → chk = .error { cause := 0x13 }) ∧
    (ok2 → ¬ ok3 → chk = .error { cause := 0x13 }) ∧ (ok3 → ¬ ok4 → chk = .error { cause := 0x14 }) ∧
    (ok4 → ¬ ok5 → chk = .error { cause := 0x15 }) ∧ (ok5 → ¬ ok6 → chk = .error { cause := 0x14 }) ∧
    (ok6 → s.Overlaps (s.snapOf x) es → chk = .error { cause := 0x16 }) ∧
    (ok6 → ¬ s.Overlaps (s.snapOf x) es → chk = .ok { dst := s.snapOf x, srcs := es })

/-! ### Tile work -/

/-- What the operation of a node gives the element (r, c) at (i2, i3) of output tile `q`, before `.relu`: a product from the
K blocks of its row and its column, each block's exact sum added with one rounding (R42, R43, R230), every other operation
from decoded elements with one rounding (R248 to R259). -/
def State.TileValue (s : State) (k : Nat) (n : Node) (q i3 i2 r c v : Nat) : Prop :=
  let src (o : Nat) : Snap := n.srcs.getD o n.dst
  let Elem (o r c : Nat) (x : Val) : Prop := s.evalElem k (src o) i3 i2 r c = .ok x
  let One (r c : Nat) (f : Val → Nat) : Prop := ∃ x, Elem 0 r c x ∧ v = f x
  let Two (r' c' : Nat) (f : Val → Val → Val) : Prop := ∃ x y, Elem 0 r c x ∧ Elem 1 r' c' y ∧ v = (b32.round 0 (f x y)).1
  let Row (m : Nat) (P : List Val → Prop) : Prop :=
    ∃ xs : List Val, xs.length = m ∧ (∀ j x, xs[j]? = some x → Elem 0 r j x) ∧ P xs
  let width := View.dim (src 0).desc 0
  let step (acc : Val) (e : BlockRun × BlockRun) : Val :=
    let p := contribution e.1 e.2
    if acc.isNaN || p.isNaN then .nan
    else if (acc.add 0 p).1.isZero then Val.zero else b32.decode (b32.round 0 (acc.add 0 p).1).1
  let Product : Prop := ∃ (g : Nat) (xs ys : List BlockRun), s.gatherRow k n q (src 0) (r % 64) r = .ok g ∧
    xs.length = (width + 255) / 256 ∧ ys.length = (width + 255) / 256 ∧
    (∀ j x, xs[j]? = some x → s.rowBlock k (src 0) i3 i2 j g = .ok x) ∧
    (∀ j y, ys[j]? = some y → s.rowBlock k (src 1) i3 i2 j c = .ok y) ∧
    v = (b32.round 0 ((xs.zip ys).foldl step Val.zero)).1
  match n.op with
  | .mul => Product
  | .mula => Product
  | .add dr dc => Two (r + dr) (c + dc) fun x y => (x.add 0 y).1
  | .sub dr dc => Two (r + dr) (c + dc) fun x y => (x.add 0 y.negate).1
  | .mule dr dc => Two (r + dr) (c + dc) fun x y => (x.mul y).1
  | .scl f => One r c fun x => (b32.round 0 (x.mul (b32.decode f.toNat)).1).1
  | .bias => Two 0 c fun x y => (x.add 0 y).1
  | .divr => Two r 0 fun x y => (x.div y).1
  | .act fn => One r c (actFn fn)
  | .exp e false => One r c (tileExp e)
  | .exp e true => ∃ x y, Elem 0 r c x ∧ Elem 1 r 0 y ∧ v = tileExp e (x.add 0 y.negate).1
  | .rmax => Row width fun xs => xs ≠ [] →
      (xs.any Val.isNaN = true → v = b32.nanBits) ∧
      (xs.any Val.isNaN = false → ∃ m ∈ xs, v = (b32.round 0 m).1 ∧ ∀ x ∈ xs, m.lt true x = false)
  | .rsum => Row width fun xs => v = (b32.round 0 (exactSum 0 xs).1).1
  | .scan => Row (c + 1) fun xs => v = (b32.round 0 (exactSum 0 xs).1).1
  | .mask d zero =>
    if (r : Int) + d < c then v = (if zero then 0 else b32.signBit true + b32.infBits) else One r c fun x => (b32.round 0 x).1
  | .rot theta inv => ∃ x y p, Elem 0 r (c / 2 * 2) x ∧ Elem 0 r (c / 2 * 2 + 1) y ∧ s.evalInt k (src 1) i3 i2 r 0 = .ok p ∧
      let xy := rotPair theta (c / 2) width (if inv then -p else p) x y
      v = if c % 2 = 0 then xy.1 else xy.2
  | .qnt => One r c fun x => (b32.round 0 x).1
  | .copy dr dc => One (r + dr) (c + dc) fun x => (b32.round 0 x).1
  | .trn => One c r fun x => (b32.round 0 x).1

/-- The elements of a release group at their locations, window-1 bytes from `base` (R233). -/
def groupElems (base : Nat) (x : ViewReg) (grp : List Reserve) : List (Nat × BitVec 32) :=
  grp.flatMap fun e => (tileElems x e.out e.vals).map fun p => (base + p.1, p.2)

/-- The steps of node `p` in a demand: evaluations of its output tiles, each before the release of its group, the releases in
ascending order (R226, R233). -/
def State.StepsOf (s : State) (k p : Nat) (dst : Snap) (es : List Ev) : Prop :=
  (∀ e ∈ es, ∃ q, e = .outputTileEvaluate k p q ∨ e = .outputTileRelease k p q) ∧
  (∀ q, Ev.outputTileEvaluate k p q ∈ es → ∃ as r bs, es = as ++ .outputTileRelease k p r :: bs ∧
    Ev.outputTileEvaluate k p q ∈ as ∧ q ∈ s.blockClose k dst [r]) ∧
  ∀ as q bs r, es = as ++ .outputTileRelease k p q :: bs → Ev.outputTileRelease k p r ∈ bs → q < r

/-- The steps `f m` of the nodes `m` are those that a demand wants (R225, R226): the output tiles that it names, closed over scale
blocks and not done; of each older node that a wanted one is linked to, those that lie over what the wanted output tile reads;
and no others but those wanted before. -/
def State.Walks (s u : State) (k : Nat) (dm : Demand) (f : Nat → List Ev) : Prop :=
  let older (m : Nat) := (s.tileAt k).order.takeWhile (· != m)
  let Wants (m : Nat) (y : Node) (ts : List Nat) : Prop := ∀ q ∈ s.blockClose k y.dst ts,
    q < min 512 (View.tileCount y.dst.desc) → bit512 y.done q = false → Ev.outputTileEvaluate k m q ∈ f m
  (∀ e ∈ dm.nodes, ∀ y, e.1 ∈ (s.tileAt k).order → s.nodeAt k e.1 = some y → Wants e.1 y e.2) ∧
  (∀ m y z p w q, m ∈ (s.tileAt k).order → s.nodeAt k m = some y → u.nodeAt k m = some z → p ∈ older m →
    s.nodeAt k p = some w → linked y p = true → Ev.outputTileEvaluate k m q ∈ f m → bit512 y.want q = false →
    Wants p w (s.tilesMeeting k w.dst (u.readRuns k z [q]))) ∧
  ∀ m y q, s.nodeAt k m = some y → Ev.outputTileEvaluate k m q ∈ f m → bit512 y.want q = true ∨
    (∃ e ∈ dm.nodes, e.1 = m ∧ q ∈ s.blockClose k y.dst e.2) ∨
    ∃ n z w ts, s.nodeAt k n = some z ∧ u.nodeAt k n = some w ∧ m ∈ older n ∧ linked z m = true ∧
      q ∈ s.blockClose k y.dst (s.tilesMeeting k y.dst (u.readRuns k w ts)) ∧
      ∀ t ∈ ts, t < min 512 (View.tileCount z.dst.desc) → Ev.outputTileEvaluate k n t ∈ f n

/-! ### Writes of several lines -/

/-- Nothing changes but memory and what a write marks beside it: metadata, counts, clocks of words, what the checkpoint and the
errors know of granules, contexts tainted, records of rings and lists, wakes under way. -/
def OnlyWrites (s v : State) : Prop :=
  v = { s with
    mem := v.mem, gmeta := v.gmeta, acnt := v.acnt, written := v.written, ckpt := v.ckpt, poison := v.poison, ctxs := v.ctxs,
    units := v.units, pend := v.pend }

/-- Pieces of memory take bytes, and nothing changes but memory and what a write marks. -/
def State.Lands (s : State) (ps : List (Nat × Nat)) (bs : List Byte) (v : State) : Prop :=
  OnlyWrites s v ∧ s.Holds ps bs v

/-- Lines of up to 64 bytes that are all checked and written, one after the other (R166). -/
def PutsLines (i : Issuer) : List (Word × List Byte) → State → State → Prop
  | [], s, v => v = s
  | l :: ls, s, v => ∃ ps s1, s.lineDest i l.1 l.2.length = .ok ps ∧
    (s.noteLine i l.1 l.2.length).Lands ps l.2 s1 ∧ PutsLines i ls s1 v

/-- Scale blocks of a row of binary32 values from a location on, in turn (R278, R39, R161): each block that the row touches is
requantized as a whole, its bytes outside the row with their present values, and its codes and its scale byte are written
together. -/
def PutsBlocks (loc : Nat) (row : List Nat) : List Nat → State → State → Prop
  | [], s, v => v = s
  | b :: bs, s, v => ∃ sl s1, s.scaleLoc (scratchOf loc).1 (256 * b - scratchBase (scratchOf loc).1) = some sl ∧
    (let r := requantize ((List.range 256).map fun j =>
        let p := 256 * b + j
        if loc ≤ p ∧ p < loc + row.length then b32.decode (row.getD (p - loc) 0)
        else b32.decode (decodeDM8 (s.byte p) (s.byte sl)).1)
     s.Lands [(256 * b, 256), (sl, 1)] (r.1 ++ [r.2.1]) s1) ∧
    PutsBlocks loc row bs s1 v

/-! ### Product-key lookups (R275 to R279) -/

/-- What the reads of a request leave: counts of the units and the TLB entries of walks (R154, R155). -/
def State.notes (s : State) (q : PklReq) (ranges : List (Word × Nat)) : State :=
  ranges.foldl (fun (t : State) (r : Word × Nat) => t.noteRange (t.pklIssuer q) r.1 r.2) s

/-- A candidate may stand before another: a larger value, or an equal one and no higher index (R275). -/
def Ranks (x y : Cand) : Prop :=
  let c := (b32.decode x.val).cmp (b32.decode y.val)
  0 < c ∨ (c = 0 ∧ x.idx ≤ y.idx)

/-- Cells of one row of GV from `va` on, line by line: each cell takes its old value plus w × g × 2^−EG as an integer, modulo
2^32 (R279). -/
def AddsRow (q : PklReq) (die : Nat) (l : Layer) (w : Val) : Nat → Word → List Val → State → State → Prop
  | _, _, [], s, v => v = s
  | 0, _, _ :: _, _, _ => False
  | fuel + 1, va, g, s, v => ∃ old ps s2,
    let n := cellBytes va g.length
    let i := s.pklIssuer q
    let s1 := s.noteRange i va n
    let cell (j : Nat) : Nat := leNat ((old.drop (4 * j)).take 4)
    let add (j : Nat) : Nat :=
      wrapNat 32 (convertInt 32 true q.rm (((w.mul (g.getD j Val.zero)).1).scale (-l.eg))).1
    s.tableBytes q die va n = .ok old ∧ s1.lineDest i va n = .ok ps ∧
    (s1.noteLine i va n).Lands ps ((List.range (n / 4)).flatMap fun j => leBytes 4 ((cell j + add j) % 2 ^ 32)) s2 ∧
    AddsRow q die l w fuel (padd va n) (g.drop (n / 4)) s2 v

/-- The rows of GV of the selected pairs, in their order. -/
def AddsRows (q : PklReq) (die : Nat) (l : Layer) (g : List Val) : List Cand → State → State → Prop
  | [], s, v => v = s
  | c :: cs, s, v => ∃ s1, AddsRow q die l (b32.decode c.val) (l.dv / 16 + 1) (padd l.gv (4 * l.dv * c.idx : Nat)) g s s1 ∧
    AddsRows q die l g cs s1 v

/-! ### Streams (R335) -/

/-- A stream whose position `g` has met a fault: the first is kept, every one sets its status bit. -/
def Stream.Meets (x : Stream) (g : Nat) (f : FaultInfo) : Stream :=
  { x with failed := x.failed.orElse fun _ => some (g, f), status := x.status ||| statusBit f.cause }

/-- One line of 64 bytes for every receiving tile in turn, at offset `o` of the slot of position `g`. -/
def Sends (g o : Nat) (bs : List Byte) : List StreamTile → State → Stream → State → Stream → Prop
  | [], s, x, v, y => v = s ∧ y = x
  | t :: ts, s, x, v, y => ∃ s1 x1,
    let i := s.streamIssuer x t.core
    let va := padd (wd x.desc 3) (Desc.slotOff x.desc g + o : Nat)
    ((∃ ps, s.writeRuns i va 64 = .ok ps ∧ s.Lands ps bs s1 ∧ x1 = x) ∨
      (∃ f, s.writeRuns i va 64 = .error f ∧ s1 = s.noteFailed i va 64 f ∧ x1 = x.Meets g f)) ∧
    Sends g o bs ts s1 x1 v y

/-- One line of an STRM position: read from the tensor, or zeros outside its extents, then sent. -/
def LineIn (g : Nat) (e : Nat × Option Nat) (s : State) (x : Stream) (v : State) (y : Stream) : Prop :=
  let i := s.streamIssuer x x.core
  match e.2 with
  | none => Sends g e.1 (List.replicate 64 0) x.tiles s x v y
  | some k =>
    let far := padd (wd x.desc 0) k
    (∃ f, s.readPlace i far 64 = .error f ∧ v = s.noteFailed i far 64 f ∧ y = x.Meets g f) ∨
    ∃ bs, s.readPlace i far 64 = .ok bs ∧ Sends g e.1 bs x.tiles (s.noteRange i far 64) x v y

/-- One line of an STRMW position: read from the slot of tile `k` and written to the tensor; none outside its extents. -/
def LineOut (k g : Nat) (e : Nat × Option Nat) (s : State) (x : Stream) (v : State) (y : Stream) : Prop :=
  match e.2 with
  | none => v = s ∧ y = x
  | some o =>
    let i := s.streamIssuer x x.core
    let near := padd (wd x.desc 3) (Desc.slotOff x.desc g + e.1 : Nat)
    let far := padd (wd x.desc 0) o
    (∃ f, s.readPlace (s.streamIssuer x k) near 64 = .error f ∧ v = s.noteFailed (s.streamIssuer x k) near 64 f ∧
      y = x.Meets g f) ∨
    ∃ bs, s.readPlace (s.streamIssuer x k) near 64 = .ok bs ∧
      ((∃ f, s.writeRuns i far 64 = .error f ∧ v = s.noteFailed i far 64 f ∧ y = x.Meets g f) ∨
        (∃ ps, s.writeRuns i far 64 = .ok ps ∧ (s.noteTlb i far).Lands ps bs v ∧ y = x))

/-- The lines of a position, one after the other. -/
def Moves (line : Nat × Option Nat → State → Stream → State → Stream → Prop) :
    List (Nat × Option Nat) → State → Stream → State → Stream → Prop
  | [], s, x, v, y => v = s ∧ y = x
  | e :: es, s, x, v, y => ∃ s1 x1, line e s x s1 x1 ∧ Moves line es s1 x1 v y

/-! ### Restored images (R381) -/

/-- The tile that a section of an image goes to, its rectangle at an origin. -/
def ImgSection.tileOf (e : ImgSection) (o : Nat × Nat) : Nat := tileAtXY (o.1 + e.idx) (o.2 + e.idy)

/-- Where the page of a section goes: in its tile's scratchpad, or where the data of its home unit lie. -/
def State.pageOfSection (s : State) (o : Nat × Nat) (e : ImgSection) : Nat :=
  if e.kind = 3 then scratchBase (e.tileOf o) + e.loc.toNat else s.current e.loc.toNat

/-- The sections of an image that hold pages. -/
def pageSections (xs : List ImgSection) : List ImgSection := xs.filter fun e => e.kind == 3 || e.kind == 8

/-- The rod sections of one index: the n-th is for the n-th unit of the rectangle (log 18). -/
def rodSectionsOf (xs : List ImgSection) (z : Nat) : List ImgSection := xs.filter fun e => e.kind == 7 && e.loc.toNat == z

/-- The units of a rectangle, and the rod of an index that a partition placed there is allotted in one (R78). -/
def rectUnits (o : Nat × Nat) (w h : Nat) : List Nat := ((rectTiles o.1 o.2 w h).map unitOf).eraseDups
def State.newRod (s : State) (kd : List Word) (u z : Nat) : Option Nat := ((s.unitAt u).freeRods.take (Kd.nrod kd))[z]?

/-- An image whose pages lie apart and over no ring, whose beads are of its world and all find a slot, and a machine that moves no
page and whose tables stand in order. -/
structure State.Restorable (s : State) (kd : List Word) (o : Nat × Nat) (w h n : Nat) (xs : List ImgSection) : Prop where
  still : s.moves = []
  apart : (pageSections xs).Pairwise fun a b =>
    s.pageOfSection o a + 4096 ≤ s.pageOfSection o b ∨ s.pageOfSection o b + 4096 ≤ s.pageOfSection o a
  rings : ∀ e ∈ xs, e.kind = 8 → ∀ z, z < 4096 → s.ringByte (s.homeLoc (s.current e.loc.toNat + z)) = none
  room : (xs.map fun e => if e.kind = 2 then 1 else if e.kind = 7 then e.body.length / 64 else 0).sum ≤ 2 ^ Kd.ring kd
  once : ∀ e ∈ xs, (rodSectionsOf xs e.loc.toNat).length ≤ (rectUnits o w h).length
  ready : ∀ e ∈ xs, e.kind = 7 → ∀ y ∈ e.records, bitOf y.w3 33 = Kd.secure kd
  saved : ∀ e ∈ xs, e.kind = 2 → bitOf (coreRec e.words).w3 33 = Kd.secure kd
  tables : ∀ u ∈ rectUnits o w h, Map.rising none (s.unitAt u).rods = true ∧ (s.unitAt u).rodsOf (some n) = []

/-- What CTXRS makes of an image beside its partition: its pages with their metadata, D set; zeros in every other byte of the
scratchpads; the records of its rod sections ready in their order, PRI and ROD those of the new rods, parked ones among them; each
force-saved bead running again on the tile at its IDX and IDY; the barrier registers of its tiles. -/
structure State.Restored (s t : State) (kd : List Word) (o : Nat × Nat) (w h n : Nat) (xs : List ImgSection) : Prop where
  pages : ∀ e ∈ pageSections xs, ∀ bs ms, decodePage e.body = some (bs, ms) → t.bytes (s.pageOfSection o e) 4096 = bs ∧
    ∀ (g : Nat) m, ms[g]? = some m → t.metaAt (s.pageOfSection o e / 32 + g) = mkMeta true (metaW m) (metaF m) (metaTag m)
  zeros : ∀ k ∈ rectTiles o.1 o.2 w h, ∀ z, z < 2 ^ 21 →
    (∀ e ∈ pageSections xs, scratchBase k + z < s.pageOfSection o e ∨ s.pageOfSection o e + 4096 ≤ scratchBase k + z) →
    t.byte (scratchBase k + z) = 0 ∧ t.metaAt ((scratchBase k + z) / 32) = 0
  rods : ∀ (j : Nat) u z r, (rectUnits o w h)[j]? = some u → s.newRod kd u z = some r →
    let ys := ((rodSectionsOf xs z)[j]?.map ImgSection.records).getD []
    ∃ rod, t.rodAt u r = some rod ∧ rod.part = some n ∧ rod.ready.length = ys.length ∧
      ∀ (i : Nat) y slot, ys[i]? = some y → rod.ready[i]? = some slot → ∃ uid, s.nextBead ≤ uid ∧
        t.slotAt ⟨u, r, slot⟩ = some { record := refitRecord r rod (s.knowRecompute y), use := .ready, uid := uid }
  cores : ∀ e ∈ xs, ∀ k r, e.kind = 2 → k = e.tileOf o → k ≠ s.cur →
    (xs.filter fun y => y.kind == 2 && y.tileOf o == k) = [e] → s.newRod kd (unitOf k) (coreRod e.words) = some r →
    ∃ slot rod uid, t.rodAt (unitOf k) r = some rod ∧ s.nextBead ≤ uid ∧
      t.slotAt ⟨unitOf k, r, slot⟩ = some
        { record := refitRecord r rod (s.knowRecompute (coreRec e.words)), use := .running k, uid := uid } ∧
      t.coreAt k = { coreOfWords { s.coreAt k with ent := 0, scb := scbReset k } e.words with
        mode := .running, bead := some ⟨unitOf k, r, slot⟩, wdFrom := s.cyc }
  bars : ∀ e ∈ xs, ∀ k, e.kind = 6 → k = e.tileOf o → (xs.filter fun y => y.kind == 6 && y.tileOf o == k) = [e] →
    (s.tileAt k).bars = [] → ∀ b, b < 8 → t.barAt k b = barOf (e.words.drop (2 * b))

/-! ### Device steps -/

/-- The device step `e`, executed in the state `t`, answers a next state of which `P` holds. -/
def Delivers (t : State) (e : Ev) (P : State → Prop) : Prop := Answers (exec e.instr { t with msg := some e }) P

/-- With the device step `e` at hand, executing it answers a next state of which `P` holds. -/
def Performs (s : State) (e : Ev) (P : State → Prop) : Prop := s.msg = some e → Answers (exec e.instr s) P

end Sys2Proof.Machine
end

