-- ==== Sys2Proof/Certificates/Slice0/Obligations.lean ====
section
/-! DEFINITION. The statements for the provers.  Each docstring names the rules of the manual that a statement formalises, or
the log entry of the model's own choice that it rests on. -/

open Sys2Proof Sys2Proof.Machine

/-! ## Page 0 -/

/-- R107, R109: ADD, SUB, AND, OR, XOR, ANDN; R112: MOV; R114: SEL; R115: ADDI, LI; R116: SHADD.  Each writes s[D], raises no
flag, changes no memory and commits. -/
def Obligations.ScalarSumsAndLogic : Prop :=
  ∀ (s : State) (d a b k : Nat) (src : Src) (imm : Int),
    PutsScalar (.add d a b) s d (s.sr a + s.sr b) ∧
    PutsScalar (.sub d a b) s d (s.sr a - s.sr b) ∧
    PutsScalar (.and d a src) s d (s.sr a &&& s.me.src src) ∧
    PutsScalar (.or d a src) s d (s.sr a ||| s.me.src src) ∧
    PutsScalar (.xor d a src) s d (s.sr a ^^^ s.me.src src) ∧
    PutsScalar (.andn d a b) s d (s.sr a &&& ~~~(s.sr b)) ∧
    PutsScalar (.mov d a) s d (s.sr a) ∧
    PutsScalar (.sel d a b) s d (if s.sr d ≠ 0 then s.sr a else s.sr b) ∧
    PutsScalar (.addi d imm) s d (s.sr d + BitVec.ofInt 64 imm) ∧
    PutsScalar (.li d imm) s d (BitVec.ofInt 64 imm) ∧
    PutsScalar (.shadd k d a b) s d (s.sr a + (s.sr b) * BitVec.ofNat 64 (2 ^ k))

/-- R109, R111: MIN, MAX, MINU, MAXU, SHL, SHR, SAR and ROL, the amounts taken from b[5:0]; a compare writes 1 when its relation
holds and 0 otherwise, an immediate compared as its sign-extended 64-bit pattern. -/
def Obligations.ScalarShiftsAndCompares : Prop :=
  ∀ (s : State) (d a b : Nat) (src : Src),
    PutsScalar (.seq d a src) s d (if s.sr a = s.me.src src then 1 else 0) ∧
    PutsScalar (.sne d a src) s d (if s.sr a = s.me.src src then 0 else 1) ∧
    PutsScalar (.slt d a src) s d (if (s.sr a).toInt < (s.me.src src).toInt then 1 else 0) ∧
    PutsScalar (.sltu d a src) s d (if (s.sr a).toNat < (s.me.src src).toNat then 1 else 0) ∧
    PutsScalar (.sle d a src) s d (if (s.sr a).toInt ≤ (s.me.src src).toInt then 1 else 0) ∧
    PutsScalar (.sleu d a src) s d (if (s.sr a).toNat ≤ (s.me.src src).toNat then 1 else 0) ∧
    (∃ v, PutsScalar (.min d a b) s d v ∧ v.toInt = min (s.sr a).toInt (s.sr b).toInt) ∧
    (∃ v, PutsScalar (.max d a b) s d v ∧ v.toInt = max (s.sr a).toInt (s.sr b).toInt) ∧
    (∃ v, PutsScalar (.minu d a b) s d v ∧ v.toNat = min (s.sr a).toNat (s.sr b).toNat) ∧
    (∃ v, PutsScalar (.maxu d a b) s d v ∧ v.toNat = max (s.sr a).toNat (s.sr b).toNat) ∧
    (∃ v, PutsScalar (.shl d a src) s d v ∧
      v.toNat = (s.sr a).toNat * 2 ^ ((s.me.src src).toNat % 64) % 2 ^ 64) ∧
    (∃ v, PutsScalar (.shr d a src) s d v ∧ v.toNat = (s.sr a).toNat / 2 ^ ((s.me.src src).toNat % 64)) ∧
    (∃ v, PutsScalar (.sar d a src) s d v ∧ v.toInt = (s.sr a).toInt / 2 ^ ((s.me.src src).toNat % 64)) ∧
    (∃ v, PutsScalar (.rol d a src) s d v ∧
      ∀ i, i < 64 → v.getLsbD ((i + (s.me.src src).toNat % 64) % 64) = (s.sr a).getLsbD i)

/-- R110: the products and the quotients, with the results of a division by zero and of the one overflow. -/
def Obligations.ScalarMultiplyDivide : Prop :=
  ∀ (s : State) (d a b : Nat) (src : Src),
    (∃ v, PutsScalar (.mul d a src) s d v ∧ v.toNat = (s.sr a).toNat * (s.me.src src).toNat % 2 ^ 64) ∧
    (∃ v, PutsScalar (.mulh d a b) s d v ∧ v.toInt = (s.sr a).toInt * (s.sr b).toInt / 2 ^ 64) ∧
    (∃ v, PutsScalar (.mulhu d a b) s d v ∧ v.toNat = (s.sr a).toNat * (s.sr b).toNat / 2 ^ 64) ∧
    (∃ v, PutsScalar (.div d a b) s d v ∧ v.toInt =
      if s.sr b = 0 then -1
      else if (s.sr a).toInt = -2 ^ 63 ∧ (s.sr b).toInt = -1 then -2 ^ 63
      else (s.sr a).toInt.tdiv (s.sr b).toInt) ∧
    (∃ v, PutsScalar (.rem d a b) s d v ∧ v.toInt =
      if s.sr b = 0 then (s.sr a).toInt
      else if (s.sr a).toInt = -2 ^ 63 ∧ (s.sr b).toInt = -1 then 0
      else (s.sr a).toInt - (s.sr a).toInt.tdiv (s.sr b).toInt * (s.sr b).toInt) ∧
    (∃ v, PutsScalar (.divu d a b) s d v ∧ v.toNat =
      if s.sr b = 0 then 2 ^ 64 - 1 else (s.sr a).toNat / (s.sr b).toNat) ∧
    (∃ v, PutsScalar (.remu d a b) s d v ∧ v.toNat =
      if s.sr b = 0 then (s.sr a).toNat else (s.sr a).toNat - (s.sr a).toNat / (s.sr b).toNat * (s.sr b).toNat)

/-- R112, R113, R117, R118: counts of bits, extensions of the low byte, half and word, and the bit fields of BEXT and BINS, bit
by bit; PADD keeps the tag and adds within the 56 address bits; PTAG and PGTAG set and read the tag. -/
def Obligations.ScalarBitsAndPointers : Prop :=
  ∀ (s : State) (d a : Nat) (src : Src),
    (∃ v, PutsScalar (.padd d a src) s d v ∧
      v.toNat = (s.sr a).toNat / 2 ^ 56 * 2 ^ 56 + ((s.sr a).toNat % 2 ^ 56 + (s.me.src src).toNat) % 2 ^ 56) ∧
    (∃ v, PutsScalar (.ptag d a src) s d v ∧
      v.toNat = (s.me.src src).toNat % 256 * 2 ^ 56 + (s.sr a).toNat % 2 ^ 56) ∧
    (∃ v, PutsScalar (.pgtag d a) s d v ∧ v.toNat = (s.sr a).toNat / 2 ^ 56) ∧
    (∃ v, PutsScalar (.clz d a) s d v ∧
      v.toNat = ((List.range 64).takeWhile fun i => !(s.sr a).getLsbD (63 - i)).length) ∧
    (∃ v, PutsScalar (.ctz d a) s d v ∧ v.toNat = ((List.range 64).takeWhile fun i => !(s.sr a).getLsbD i).length) ∧
    (∃ v, PutsScalar (.popc d a) s d v ∧ v.toNat = (List.range 64).countP fun i => (s.sr a).getLsbD i) ∧
    PutsScalar (.sextB d a) s d (((s.sr a).setWidth 8).signExtend 64) ∧
    PutsScalar (.sextH d a) s d (((s.sr a).setWidth 16).signExtend 64) ∧
    PutsScalar (.sextW d a) s d (((s.sr a).setWidth 32).signExtend 64) ∧
    PutsScalar (.zextB d a) s d (((s.sr a).setWidth 8).setWidth 64) ∧
    PutsScalar (.zextH d a) s d (((s.sr a).setWidth 16).setWidth 64) ∧
    PutsScalar (.zextW d a) s d (((s.sr a).setWidth 32).setWidth 64) ∧
    (∀ pos len, 1 ≤ len → pos + len ≤ 64 →
      (∃ v, PutsScalar (.bext d a pos len) s d v ∧
        ∀ i, i < 64 → v.getLsbD i = (decide (i < len) && (s.sr a).getLsbD (pos + i))) ∧
      (∃ v, PutsScalar (.bins d a pos len) s d v ∧
        ∀ i, i < 64 → v.getLsbD i =
          if pos ≤ i ∧ i < pos + len then (s.sr a).getLsbD (i - pos) else (s.sr d).getLsbD i))

/-- R119 to R121: a taken branch goes to PADD(its address, 2 × disp), any other to the chain that follows; BPR is taken when
PRQ[0] of the core's partition is 1. -/
def Obligations.Branches : Prop :=
  ∀ (s : State) (a b : Nat) (disp : Int),
    let dest (taken : Prop) [Decidable taken] : Word := if taken then padd s.me.pc (2 * disp) else s.me.npc
    GoesTo (.b disp) s (padd s.me.pc (2 * disp)) ∧
    GoesTo (.bpr disp) s (dest (s.prqOf s.cur = true)) ∧
    GoesTo (.beqz a disp) s (dest (s.sr a = 0)) ∧
    GoesTo (.bnez a disp) s (dest (s.sr a ≠ 0)) ∧
    GoesTo (.bltz a disp) s (dest ((s.sr a).toInt < 0)) ∧
    GoesTo (.bgez a disp) s (dest (0 ≤ (s.sr a).toInt)) ∧
    GoesTo (.beq a b disp) s (dest (s.sr a = s.sr b)) ∧
    GoesTo (.bne a b disp) s (dest (s.sr a ≠ s.sr b)) ∧
    GoesTo (.blt a b disp) s (dest ((s.sr a).toInt < (s.sr b).toInt)) ∧
    GoesTo (.bltu a b disp) s (dest ((s.sr a).toNat < (s.sr b).toNat))

/-- R122, R123: JR goes to s[A] when its bit 0 is 0; JTAB reads LEN at s[A], falls through when s[B] is at least LEN, and goes
to entry s[B] otherwise.  A target with bit 0 set is an instruction fetch fault with that target as its address. -/
def Obligations.Jumps : Prop :=
  ∀ (s : State) (a b : Nat),
    let t0 := s.sr a
    let i := s.issuer s.cur .c
    let s1 := s.noteRange i t0 8
    let at_ := padd t0 (8 + 8 * (s.sr b).toNat : Nat)
    let s2 := s1.noteRange i at_ 8
    (t0.toNat % 2 = 0 → GoesTo (.jr a) s t0) ∧
    (t0.toNat % 2 = 1 → exec (.jr a) s = .next (s.trap { cause := 0x04, va := t0 })) ∧
    (∀ hdr, t0.toNat % 8 = 0 → s.loadC t0 8 = .ok hdr →
      (leNat hdr % 2 ^ 32 ≤ (s.sr b).toNat → Answers (exec (.jtab a b) s) fun t => CommitsTo s1 t s.me.npc [] 0) ∧
      ∀ e, (s.sr b).toNat < leNat hdr % 2 ^ 32 → s1.loadC at_ 8 = .ok e →
        (leNat e % 2 = 0 → Answers (exec (.jtab a b) s) fun t => CommitsTo s2 t (BitVec.ofNat 64 (leNat e)) [] 0) ∧
        (leNat e % 2 = 1 → exec (.jtab a b) s = .next (s2.trap { cause := 0x04, va := BitVec.ofNat 64 (leNat e) })))

/-! ## CSRs, traps and worlds -/

/-- R125 to R127, R369: CSRR writes the CSR's value as it stands; the values of the general CSRs, the trap CSRs, and of the
tile's identity registers on a tile. -/
def Obligations.CsrReads : Prop :=
  ∀ (s : State) (d n : Nat), (n ≠ 0x050 ∨ s.me.world = true) →
    PutsScalar (.csrr d n) s d (s.csr s.cur n) ∧
    s.csr s.cur 0x000 = s.me.flg.setWidth 64 ∧ s.csr s.cur 0x001 = s.cyc ∧ s.csr s.cur 0x002 = s.me.icnt ∧
    s.csr s.cur 0x003 = s.beadAddr s.cur ∧ s.csr s.cur 0x004 = (if s.prqOf s.cur then 1 else 0) ∧
    s.csr s.cur 0x005 = BitVec.ofNat 64 (s.rodMask s.cur) ∧ s.csr s.cur 0x01B = s.me.ent ∧
    s.csr s.cur 0x040 = s.me.epc ∧ s.csr s.cur 0x041 = s.me.ecause ∧ s.csr s.cur 0x042 = s.me.eaddr ∧
    s.csr s.cur 0x043 = s.me.erec ∧ s.csr s.cur 0x044 = BitVec.ofNat 64 (2 * s.me.pw.toNat + s.me.inh.toNat) ∧
    s.csr s.cur 0x045 = s.me.esav0 ∧ s.csr s.cur 0x046 = s.me.esav1 ∧ s.csr s.cur 0x047 = s.me.esav2 ∧
    s.csr s.cur 0x048 = s.me.esav3 ∧ s.csr s.cur 0x050 = (s.dieAt (dieOf s.cur)).svec ∧
    (s.cur < 384 →
      s.csr s.cur 0x008 = BitVec.ofNat 64 (s.tileAt s.cur).idx ∧ s.csr s.cur 0x009 = BitVec.ofNat 64 (s.tileAt s.cur).idy ∧
      s.csr s.cur 0x00A = BitVec.ofNat 64 (s.tileAt s.cur).idw ∧ s.csr s.cur 0x00B = BitVec.ofNat 64 (s.tileAt s.cur).idh ∧
      s.csr s.cur 0x020 = s.me.scb.setWidth 64 ∧
      ∀ i, i < 4 → s.csr s.cur (0x00C + i) = BitVec.ofNat 64 ((s.tileAt s.cur).org.getD i 0) ∧
        s.csr s.cur (0x010 + i) = BitVec.ofNat 64 ((s.tileAt s.cur).ext.getD i 0))

/-- R125, R5, R36, R369: CSRW clears the flags written as 1, writes EPC, ESAV0 to ESAV3, SCB, SVEC and RAMP (each field of RAMP
at least its floor, R397), and ignores a write to any other CSR; nothing else changes but for the commit.  That a RAMP write off
a tile and an SCB write of a steward core are ignored is the model's choice (log 22, DEDUCED). -/
def Obligations.CsrWrites : Prop :=
  ∀ (s : State) (d n : Nat), (n ≠ 0x050 ∨ s.me.world = true) →
    Answers (exec (.csrw d n) s) fun t =>
      t = { s with cores := t.cores, dies := t.dies, parts := t.parts } ∧ OthersSame s t s.cur ∧ SameMemory s t ∧
      t.me = { s.me with
        flg := if n = 0x000 then s.me.flg &&& ~~~((s.sr d).setWidth 5) else s.me.flg
        scb := if n = 0x020 ∧ isSteward s.cur = false then (s.sr d).setWidth 21 else s.me.scb
        epc := if n = 0x040 then s.sr d else s.me.epc
        esav0 := if n = 0x045 then s.sr d else s.me.esav0
        esav1 := if n = 0x046 then s.sr d else s.me.esav1
        esav2 := if n = 0x047 then s.sr d else s.me.esav2
        esav3 := if n = 0x048 then s.sr d else s.me.esav3
        pc := s.me.npc, icnt := s.me.icnt + 1, windows := s.me.nextWin, chkRun := 0 } ∧
      (∀ e, t.dieAt e = if n = 0x050 ∧ e = dieOf s.cur then { s.dieAt e with svec := s.sr d } else s.dieAt e) ∧
      ∀ p, t.partAt p = if n = 0x019 ∧ s.cur < 384 ∧ s.partOf s.cur = some p then
          (s.partAt p).map fun x => { x with
            rampUp := max (fld (s.sr d) 0 8) (fld (s.sysReg 0x071 0) 16 8)
            rampDn := max (fld (s.sr d) 8 8) (fld (s.sysReg 0x071 0) 24 8) }
        else s.partAt p

/-- R370, R367: a trap outside a handler files its record (none for TRAP and WSW), saves EPC, ECAUSE, EADDR, EREC and the world,
sets INH and goes on at TVEC of its partition's or its binding's descriptor (SVEC of its die for WSW, in the secure world, and on
a steward core, R387); the register files, the
flags and the other cores keep their values.  Where the fault area of the core's context takes the record, its sixteen words
land at FAREA + 128 × (1 + HEAD mod NREC), HEAD counts one more, EREC is the record's address, and every other byte is as
before. -/
def Obligations.TrapEntry : Prop :=
  ∀ (s : State) (k : Nat) (f : FaultInfo) (epc : Word), (s.coreAt k).inh = false →
    let ws := s.coreRecord k f (s.coreAt k).pc
    s.AreaTakes k ws (s.fileRecord k ws) ∧
    ∃ (u : State) (erec : Word), Filed s u ∧ OnlyCore u (s.trapEntry k f epc) k ∧
      Enters s (s.trapEntry k f epc) k f epc erec ∧ s.HandlerAt k f.cause ((s.trapEntry k f epc).coreAt k).pc ∧
      ((f.cause = 0x01 ∨ f.cause = 0x02) → u = s ∧ erec = 0) ∧
      (f.cause ≠ 0x01 → f.cause ≠ 0x02 → (u, erec) = s.fileRecord k ws)

/-- R365, R370, R371: TRAP and WSW save the address after the chain and go to the handler, TRAP at TVEC of the descriptor of its
core's partition or binding (at SVEC on a steward core), WSW in the secure world at SVEC;
WSW in the secure world is illegal; ERET goes back to EPC in the world before entry, and is illegal outside a handler.  That
ICNT counts one more after TRAP and WSW is the model's choice (log 33, DEDUCED). -/
def Obligations.TrapInstructions : Prop :=
  ∀ (s : State) (pfx : Pfx) (code : Nat),
    (s.me.inh = false → Answers (exec (.trap pfx code) s) fun t => OnlyCore s t s.cur ∧ s.HandlerAt s.cur 0x01 t.me.pc ∧
      t.me = { s.me with
        icnt := s.me.icnt + 1, epc := s.me.npc, ecause := BitVec.ofNat 64 (1 * 2 ^ 56 + code % 2 ^ 32), eaddr := 0, erec := 0,
        pw := s.me.world, inh := true, pc := s.trapVector s.cur 0x01, windows := [], chkRun := 0, mode := .running }) ∧
    (s.me.inh = false → s.me.world = false → Answers (exec (.wsw pfx code) s) fun t => OnlyCore s t s.cur ∧
      t.me = { s.me with
        icnt := s.me.icnt + 1, epc := s.me.npc, ecause := BitVec.ofNat 64 (2 * 2 ^ 56 + code % 2 ^ 32), eaddr := 0, erec := 0,
        pw := false, inh := true, world := true, pc := (s.dieAt (dieOf s.cur)).svec, windows := [], chkRun := 0,
        mode := .running }) ∧
    (s.me.world = true → exec (.wsw pfx code) s = .next (s.trap { cause := 0x03 })) ∧
    (s.me.inh = true → Answers (exec (.eret pfx) s) fun t => OnlyCore s t s.cur ∧ t.me = { s.me with
        pc := s.me.epc, world := s.me.pw, inh := false, icnt := s.me.icnt + 1, windows := [], chkRun := 0 }) ∧
    (s.me.inh = false → exec (.eret pfx) s = .next (s.trap { cause := 0x03 }))

/-- R372: a fault while a handler runs is a double trap: it writes a record of cause 0x20 with the new cause in INFO, which lands in
the fault area of the core's context where that takes it (R367); the core becomes idle with no bead, and the slot of the bead that
it ran is marked lost; an event of kind 2 with ID 0 goes to the steward. -/
def Obligations.DoubleTrap : Prop :=
  ∀ (s : State) (k : Nat) (f : FaultInfo) (epc : Word) (b : SlotId) (x : BeadSlot),
    k < 416 → (s.coreAt k).inh = true → (s.coreAt k).bead = some b → s.slotAt b = some x →
    let ws := s.coreRecord k { cause := 0x20, info := f.cause } (s.coreAt k).pc
    let r := s.fileRecord k ws
    let t := s.trapEntry k f epc
    let die := s.stewardDie k
    fld (wd ws 0) 56 8 = 0x20 ∧ fld (wd ws 0) 0 32 = f.cause % 2 ^ 32 ∧ wd ws 6 = s.slotAddr b ∧
    s.AreaTakes k ws r ∧ SameMemory r.1 t ∧
    ((r.1.dieAt die).events.length < 256 → ∃ w, (t.dieAt die).events = (r.1.dieAt die).events ++ [w] ∧ fld w 56 8 = 2 ∧
      fld w 48 8 = (s.partOf k).getD 0xFF % 256 ∧ fld w 0 40 = 0) ∧
    (t.coreAt k).mode = .idle ∧ (t.coreAt k).bead = none ∧ (t.coreAt k).inh = false ∧
    (t.slotAt b).map BeadSlot.use = some .lost ∧ (t.slotAt b).map BeadSlot.uid = some x.uid ∧ OthersSame s t k

/-- R368: where the fields of a fault record lie in its words. -/
def Obligations.RecordLayout : Prop :=
  ∀ (world : Bool) (idx idy : Nat) (bead rpc : Word) (f : FaultInfo),
    let ws := recordWords world idx idy bead f rpc
    ws.length = 16 ∧ fld (wd ws 0) 56 8 = f.cause % 256 ∧ fld (wd ws 0) 53 3 = Path.code f.path ∧
    bitOf (wd ws 0) 52 = f.late ∧ bitOf (wd ws 0) 51 = f.unk ∧ bitOf (wd ws 0) 50 = world ∧ fld (wd ws 0) 45 5 = 0 ∧
    fld (wd ws 0) 40 5 = idx % 32 ∧ fld (wd ws 0) 36 4 = idy % 16 ∧ fld (wd ws 0) 32 4 = f.sub % 16 ∧
    fld (wd ws 0) 0 32 = f.info % 2 ^ 32 ∧ wd ws 1 = f.va ∧ wd ws 2 = f.gva ∧ fld (wd ws 3) 8 8 = f.exp.toNat ∧
    fld (wd ws 3) 0 8 = f.fnd.toNat ∧ fld (wd ws 3) 16 48 = 0 ∧ wd ws 4 = rpc ∧ wd ws 5 = f.cpc.getD rpc ∧
    wd ws 6 = (match f.node with
      | some (n, q) => BitVec.ofNat 64 (q % 2 ^ 32 * 2 ^ 32 + n % 2 ^ 32)
      | none => bead) ∧
    wd ws 7 = f.tile ∧ ∀ k, k < 512 → bitOf (wd ws (8 + k / 64)) (k % 64) = f.done.getLsbD k

/-! ## Page 1 -/

/-- R174, R175, R178, R160: LD and LDX send their request; the data that returns goes to s[D], decoded through the pointer's
window, its flags raised; nothing else changes but the access counts of the units, the TLB entry of a walk and the commit.
Through no format window, signed types (and no type at all) sign-extend and the others zero-extend. -/
def Obligations.ScalarLoads : Prop :=
  ∀ (s : State) (pfx : Pfx) (ty : Ty) (rm d a b : Nat) (off : Int) (ea : Word) (loc : Nat) (sc : Byte),
    s.Reaches ea (accessSize ea ty) false loc → s.scaleFor (s.issuer s.cur .c) ea loc = .ok sc →
    let n := accessSize ea ty
    let s1 := s.useTlb ea
    let m := leNat (s.look loc n)
    let r := scalarOf ea ty rm m sc
    let Loads (i : Instr) : Prop := Answers (exec i s) fun t => ∃ q, t.pend = s.pend ++ [.loadDataReturn q] ∧
      Delivers t (.loadDataReturn q) fun u =>
        u.sr d = (if d = 0 then 0 else r.1) ∧ RegsSame s.me u.me [(.s, d)] ∧ CommitsAt s1.me u.me s.me.npc r.2 ∧
        OthersSame s u s.cur ∧ SameMemory s u ∧
        u = { s with cores := u.cores, acnt := u.acnt, pend := u.pend, msg := u.msg }
    (ea = padd (s.sr a) off → Loads (.ld pfx ty rm d a off)) ∧
    (ea = s.indexed ty a b → Loads (.ldx pfx ty rm d a b)) ∧
    (windowOf ea = 0 → ty ≠ .dm8 → r = (if intSigned ty && !memFloat ty
      then (BitVec.ofNat (8 * memSize ty) m).signExtend 64 else (BitVec.ofNat (8 * memSize ty) m).setWidth 64, 0))

/-- R174, R176, R178, R165: ST and STX check first, commit, and send their bytes; the bytes land at the place that the pointer
names, encoded through its window, and set D and clear W of their granule; every other address reads as before. -/
def Obligations.ScalarStores : Prop :=
  ∀ (s : State) (pfx : Pfx) (ty : Ty) (rm d a b : Nat) (off : Int) (ea : Word) (loc : Nat) (sc : Byte),
    s.Reaches ea (accessSize ea ty) true loc → s.scaleFor (s.issuer s.cur .c) ea loc = .ok sc →
    (s.useTlb ea).storeWaits [{ lane := 0, va := ea, loc := loc, n := accessSize ea ty }] = [] →
    let n := accessSize ea ty
    let s1 := s.useTlb ea
    let r := scalarBits ea ty rm (s.sr d) sc
    let Stores (i : Instr) : Prop := Answers (exec i s) fun t => ∃ q, t.pend = s.pend ++ [.storeCompletion q] ∧
      RegsSame s.me t.me [] ∧ CommitsAt s1.me t.me s.me.npc r.2 ∧ OthersSame s t s.cur ∧ SameMemory s t ∧
      Delivers t (.storeCompletion q) fun u =>
        u.bytes loc n = leBytes n r.1 ∧ (∀ x, ¬ s.Stores loc n x → u.byte x = s.byte x) ∧ u.cores = t.cores ∧
        (∀ g, u.metaAt g = if tagged loc = true ∧ g ∈ granules loc n
          then mkMeta true false (metaF (s.metaAt g)) (metaTag (s.metaAt g)) else s.metaAt g) ∧ OnlyStores s u
    (ea = padd (s.sr a) off → Stores (.st pfx ty rm d a off)) ∧
    (ea = s.indexed ty a b → Stores (.stx pfx ty rm d a b)) ∧
    (windowOf ea = 0 → r = ((s.sr d).toNat % 2 ^ (8 * memSize ty), 0))

/-- R170, R156, R158, R159: an 8-byte LD of a system register commits with its value; an access to an import page goes to the
exported range when the other device's tests admit it; a LD that another device refuses is an import fault, and one that a
dead link loses a dead-link fault, at the instruction.  That an access to another device is performed and answered in its step is
the model's reading (log 42, DEDUCED); what other devices export, which links are dead and where an exported range lies among the
locations (`importBase`) are inputs and choices of the model (log 20, DESIGN CHOICE). -/
def Obligations.LoadsElsewhere : Prop :=
  ∀ (s : State) (pfx : Pfx) (ty : Ty) (rm d a : Nat) (off : Int),
    let i := s.issuer s.cur .c
    let ea := padd (s.sr a) off
    let n := accessSize ea ty
    let s1 := s.useTlb ea
    (∀ blk o, (ty = .dflt ∨ ty = .i64) → ea.toNat % 8 = 0 → s.translate i ea 8 false false = .ok (.sys blk o) →
      windowOf ea = 0 → Answers (exec (.ld pfx ty rm d a off) s) fun t =>
        t.sr d = (if d = 0 then 0 else s1.readSys blk o) ∧ Commits s1 t [(.s, d)] 0) ∧
    (∀ dead, ea.toNat % n = 0 → s.translate i ea n false false = .ok (.gone dead) →
      exec (.ld pfx ty rm d a off) s = .next (s1.trap { cause := if dead then 0x0C else 0x0B, va := ea })) ∧
    ∀ dev ent key o wr, spaceOf ea = 0 → s.globalHome i ea n wr false = .ok (.imp dev ent key o) →
      (s.lost.contains dev = true → s.translate i ea n wr false = .ok (.gone true)) ∧
      (s.lost.contains dev = false →
        (Map.find? s.exports (256 * dev + ent) = none → s.translate i ea n wr false = .ok (.gone false)) ∧
        ∀ x, Map.find? s.exports (256 * dev + ent) = some x →
          s.translate i ea n wr false = .ok (if x.key = key ∧ o + n ≤ x.len * 65536 ∧ (wr = true → x.wr = true) ∧
            (x.secure = true → s.me.world = true) then .mem (importBase dev ent + o) else .gone false))

/-- R174: an access of LD, ST, LDX or STX that translates and is not aligned to its size is an alignment fault at the
instruction, and one that does not translate for want of an address is an address fault whatever its alignment: the order of
these two faults, which R174 does not give, is the model's choice (log 36, DEDUCED).  A fault that a walk finds leaves the counts
of the table words that it read (log 26, DESIGN CHOICE). -/
def Obligations.AccessFaults : Prop :=
  ∀ (s : State) (pfx : Pfx) (ty : Ty) (rm d a b : Nat) (off : Int) (ea : Word) (wr : Bool),
    let i := s.issuer s.cur .c
    let n := accessSize ea ty
    let Faults (s0 : State) (f : FaultInfo) : Prop :=
      (wr = false → ea = padd (s.sr a) off → exec (.ld pfx ty rm d a off) s = .next (s0.trap f)) ∧
      (wr = false → ea = s.indexed ty a b → exec (.ldx pfx ty rm d a b) s = .next (s0.trap f)) ∧
      (wr = true → ea = padd (s.sr a) off → exec (.st pfx ty rm d a off) s = .next (s0.trap f)) ∧
      (wr = true → ea = s.indexed ty a b → exec (.stx pfx ty rm d a b) s = .next (s0.trap f))
    (∀ p, s.translate i ea n wr false = .ok p → ea.toNat % n ≠ 0 → Faults s { cause := 0x06, va := ea }) ∧
    (∀ f, s.translate i ea n wr false = .error f → f.cause = 0x07 → Faults s f) ∧
    (∀ f, s.translate i ea n wr false = .error f → ea.toNat % n = 0 → Faults (s.noteFailed i ea n f) f)

/-- R179 to R182: the eight atomics and AFADD read the word at s[A], put the new one in its place in one operation at the
bank, and write the old one to s[D]; every other address reads as before.  Where a device-reserved list stands (R46, R188) the
word is the one that the list shows, and no claim is made of the bytes beneath it.  A word over two home units is one operation
on the bytes of both, the model's choice (log 58). -/
def Obligations.Atomics : Prop :=
  ∀ (s : State) (pfx : Pfx) (ty : Ty) (rm d a b : Nat) (off : Int) (place : Place) (loc : Nat),
    atomSpace (s.sr a) = true → (s.sr a).toNat % atomBytes ty = 0 →
    s.translate (s.issuer s.cur .c) (s.sr a) (atomBytes ty) true false = .ok place → Begins place loc →
    s.spanCheck (s.issuer s.cur .c) (s.sr a) loc (atomBytes ty) false = .ok () → s.spanPoisoned loc (atomBytes ty) = false →
    let n := atomBytes ty
    let s1 := s.useTlb (s.sr a)
    let s2 := s.clearR s.cur
    let rs := s.runsFrom loc n
    let m := leNat (s2.spanLook loc n)
    let x := (s.sr b).toNat % 2 ^ (8 * n)
    let e := (s.sr d).toNat % 2 ^ (8 * n)
    let val (v : Nat) : Int := if ty = .u32 then v else signed (8 * n) v
    let q := convertInt (8 * n) true rm ((b32.decode ((s.sr b).toNat % 2 ^ 32)).scale (-off))
    let Puts (i : Instr) (new : Nat) (sgn : Bool) (fl : Flags) : Prop :=
      Answers (exec i s) fun t => ∃ r, t.pend = s.pend ++ [.bankAtomicApply r] ∧ SameMemory s t ∧
        t.units = (s.clearR s.cur).units ∧
        Delivers t (.bankAtomicApply r) fun u =>
          (∀ y, (∀ p ∈ rs, ¬ s.Stores p.1 p.2 y) → u.byte y = s.byte y) ∧
          (s.Apart rs → s2.spanLook loc n = s.bytesIn rs → u.bytesIn rs = leBytes n new) ∧
          ∃ v, Ev.atomicReply s.cur s.me.pc d (.value v) ∈ u.pend ∧
            v = (if sgn then (BitVec.ofNat (8 * n) m).signExtend 64 else BitVec.ofNat 64 m) ∧
            Delivers u (.atomicReply s.cur s.me.pc d (.value v)) fun w =>
              w.sr d = (if d = 0 then 0 else v) ∧ RegsSame s.me w.me [(.s, d)] ∧ CommitsAt s1.me w.me s.me.npc fl ∧
              OthersSame s w s.cur ∧ w.units = u.units ∧ (∀ y, w.byte y = u.byte y)
    Puts (.aadd pfx ty d a b) ((m + x) % 2 ^ (8 * n)) (ty != .u32) 0 ∧
    Puts (.amin pfx ty d a b) (if val x < val m then x else m) (ty != .u32) 0 ∧
    Puts (.amax pfx ty d a b) (if val m < val x then x else m) (ty != .u32) 0 ∧
    Puts (.aand pfx ty d a b) (Nat.land m x) (ty != .u32) 0 ∧
    Puts (.aor pfx ty d a b) (Nat.lor m x) (ty != .u32) 0 ∧
    Puts (.axor pfx ty d a b) (Nat.xor m x) (ty != .u32) 0 ∧
    Puts (.aswap pfx ty d a b) x (ty != .u32) 0 ∧
    Puts (.acas pfx ty d a b) (if m = e then x else m) (ty != .u32) 0 ∧
    Puts (.afadd pfx ty rm d a b off) ((m + (BitVec.ofInt 64 q.1).toNat) % 2 ^ (8 * n)) true q.2

/-- R183, R147: BANKOP of Commons tests every 64-byte line of its range, clears R, commits and sends its operation with the low
bytes of s[B], the width, signedness and format of TY; the operation is applied line by line, each line indivisibly.  A length
of zero only clears R and commits.  Both constructors complete: BANKOP under the tests of R183 on its operands, the
application of a line always where the line has no uncorrectable error.  What an element m becomes: the wrapped sum, the lesser
or greater under the signedness, the bitwise functions, or b; in binary32 the sum rounded to nearest even, the lesser or
greater with −0 below +0, and 0x7FC0_0000 where an operand is a NaN, but for `.set`, which stores b as it is (the model's
choice, log 59). -/
def Obligations.BankOperations : Prop :=
  (∀ (sg : Bool) (w m b : Nat), (w = 32 ∨ w = 64) → m < 2 ^ w → b < 2 ^ w →
    let val (x : Nat) : Int := if sg = true ∧ 2 ^ (w - 1) ≤ x then (x : Int) - 2 ^ w else x
    let new (fn : BankFn) := bankNew fn sg false w m b
    new .add = (m + b) % 2 ^ w ∧ new .min = (if val b < val m then b else m) ∧ new .max = (if val m < val b then b else m) ∧
    new .and = Nat.land m b ∧ new .or = Nat.lor m b ∧ new .xor = Nat.xor m b ∧ new .set = b) ∧
  (∀ (sg : Bool) (m b : Nat), m < 2 ^ 32 → b < 2 ^ 32 →
    let x := b32.decode m
    let y := b32.decode b
    let new (fn : BankFn) := bankNew fn sg true 32 m b
    let below (u v : Val) : Prop := u.cmp v < 0 ∨ (u.cmp v = 0 ∧ u.isNeg = true ∧ v.isNeg = false)
    new .set = b ∧
    ((x.isNaN = true ∨ y.isNaN = true) → new .add = 0x7FC00000 ∧ new .min = 0x7FC00000 ∧ new .max = 0x7FC00000) ∧
    (x.isNaN = false → y.isNaN = false → new .add = (b32.round 0 (x.add 0 y).1).1 ∧
      (below y x → new .min = b) ∧ (¬ below y x → new .min = m) ∧
      (below x y → new .max = b) ∧ (¬ below x y → new .max = m))) ∧
  ∀ (s : State) (pfx : Pfx) (ty : Ty) (fn : BankFn) (d a b : Nat),
    (∀ loc : Nat → Nat,
      (spaceOf (s.sr a) = 6 ∨ spaceOf (s.sr a) = 7) → (s.sr a).toNat % 64 = 0 → (s.sr d).toNat % 64 = 0 →
      fld (s.sr a) 0 23 + (s.sr d).toNat ≤ 0x800000 →
      (∀ j, j < (s.sr d).toNat / 64 →
        s.translate (s.issuer s.cur .c) (padd (s.sr a) (64 * j : Nat)) 64 true false = .ok (.mem (loc j)) ∧
        s.tagMiss (loc j) 64 (tagOf (s.sr a)) = none) →
      ∃ t, exec (.bankop pfx ty fn d a b) s = .next t ∧
        RegsSame s.me t.me [] ∧ CommitsAt s.me t.me s.me.npc 0 ∧ OthersSame s t s.cur ∧ SameMemory s t ∧
        t.units = (s.clearR s.cur).units ∧
        ((s.sr d).toNat = 0 → t.pend = s.pend) ∧
        ((s.sr d).toNat ≠ 0 → ∃ q, t.pend = s.pend ++ [.bankopLineApply q] ∧
          q.core = s.cur ∧ q.loc = loc 0 ∧ q.left = (s.sr d).toNat / 64 ∧ q.fn = fn ∧
          q.n = (if ty = .i32 ∨ ty = .u32 ∨ ty = .f32 then 4 else 8) ∧ q.b.toNat = (s.sr b).toNat % 2 ^ (8 * q.n) ∧
          q.signed = decide (ty ≠ .u32) ∧ q.flt = decide (ty = .f32))) ∧
    ∀ q, s.msg = some (.bankopLineApply q) →
      (q.left = 0 → exec .bankopLineApply s = .next s) ∧
      (q.left ≠ 0 → (q.n = 4 ∨ q.n = 8) → (q.fn ≠ .set → s.poisoned q.loc 64 = false) →
        ∃ u, exec .bankopLineApply s = .next u ∧
          (∀ j, j < 64 / q.n → u.bytes (q.loc + q.n * j) q.n =
            leBytes q.n (bankNew q.fn q.signed q.flt (8 * q.n) (leNat (s.bytes (q.loc + q.n * j) q.n)) q.b.toNat)) ∧
          (∀ y, ¬ s.Stores q.loc 64 y → u.byte y = s.byte y) ∧ u.cores = s.cores ∧
          (1 < q.left → Ev.bankopLineApply { q with loc := q.loc + 64, left := q.left - 1 } ∈ u.pend))

/-- R145, R147, R186, R189: STF and STF.E check their cell, clear R, commit and fill it: the value and the F bit in one
operation, W cleared; every other address and every other granule's metadata read as before.  Where a heap window lays a cell over
two granules or home units, it is filled in both, and F is that of its first byte's granule, the model's choice (log 58). -/
def Obligations.FutureFills : Prop :=
  ∀ (s : State) (pfx : Pfx) (d a loc : Nat) (off : Int) (place : Place),
    let ea := padd (s.sr a) off
    let s1 := s.useTlb ea
    let rs := s.runsFrom loc 8
    s.cellPlace (s.issuer s.cur .c) ea true = .ok place → Begins place loc → s.spanCheck (s.issuer s.cur .c) ea loc 8 false = .ok () →
    let Fills (i : Instr) (full : Bool) : Prop :=
      Answers (exec i s) fun t => t.pend = s.pend ++ [.futureFillApply { loc := loc, v := s.sr d, full := full }] ∧
        RegsSame s.me t.me [] ∧ CommitsAt s1.me t.me s.me.npc 0 ∧ OthersSame s t s.cur ∧ SameMemory s t ∧
        t.units = (s.clearR s.cur).units ∧
        Delivers t (.futureFillApply { loc := loc, v := s.sr d, full := full }) fun u =>
          s.Holds rs (leBytes 8 (s.sr d).toNat) u ∧
          u.metaAt (loc / 32) = mkMeta true false full (metaTag (s.metaAt (loc / 32))) ∧
          (∀ g, g ≠ loc / 32 → u.metaAt g = s.marked rs g) ∧ (loc % 32 + 8 ≤ 32 → rs = [(loc, 8)]) ∧ u.cores = t.cores ∧
          (metaW (s.metaAt (loc / 32)) = true → Ev.parkTableWake (loc / 32) ∈ u.pend)
    Fills (.stf pfx d a off) true ∧ Fills (.stfE pfx d a off) false

/-- R185, R187, R188: LDF and PARK install a park entry and test their cell; where the test holds (full for LDF and PARK, a
zero word for PARK.z) the entry goes again, LDF writes s[D], and the instruction commits.  A PARK in a handler is a double
trap (R372), of INFO 0 (log 24, DEDUCED).  That SEQ counts an entry that goes again (log 60) and that a link core's entry stands in
a table of its own of 1,024 (log 15) are the model's choices (DESIGN CHOICE). -/
def Obligations.FutureTests : Prop :=
  ∀ (s : State) (pfx : Pfx) (d a loc : Nat) (off : Int) (place : Place) (b : SlotId),
    let ea := padd (s.sr a) off
    let s1 := s.useTlb ea
    s.cur < 416 → s.me.bead = some b →
    (s.me.inh = true → exec (.park pfx a off) s = .next (s.doubleTrap s.cur 0) ∧
      exec (.parkZ pfx a off) s = .next (s.doubleTrap s.cur 0)) ∧
    ((s.unitAt b.unit).tableCount < 1024 →
      s.cellPlace (s.issuer s.cur .c) ea false = .ok place → Begins place loc →
      s.spanCheck (s.issuer s.cur .c) ea loc 8 true = .ok () →
      let Passes (i : Instr) (ws : List (File × Nat)) : Prop :=
        Answers (exec i s) fun t => ∃ q, t.pend = s.pend ++ [.testAndRegisterReply q] ∧ SameMemory s t ∧
          (∃ e, (t.unitAt b.unit).park = (s.unitAt b.unit).park ++ [e] ∧ e.granule = s.granuleKey (loc / 32) ∧
            e.slot = b ∧ e.world = s.me.world ∧ e.waiting = true ∧ e.seq = (s.unitAt b.unit).parkSeq) ∧
          Delivers t (.testAndRegisterReply q) fun u =>
            RegsSame s.me u.me ws ∧ CommitsAt s1.me u.me s.me.npc 0 ∧ OthersSame s u s.cur ∧ SameMemory s u ∧
            (u.unitAt b.unit).park = (s.unitAt b.unit).park.filter (fun e => e.slot != b) ∧
            ((File.s, d) ∈ ws → u.sr d = if d = 0 then 0 else BitVec.ofNat 64 (leNat (s.spanLook loc 8)))
      (metaF (s.metaAt (loc / 32)) = true → Passes (.ldf pfx d a off) [(.s, d)] ∧
        (s.me.inh = false → Passes (.park pfx a off) [])) ∧
      (leNat (s.spanLook loc 8) = 0 → s.me.inh = false → Passes (.parkZ pfx a off) []))

/-- R185, R136, R189: a test that does not hold parks a bead that holds no bank and has no pending node: W is set, the record
takes the instruction's address and SPN, the slot is parked and the core idle; the wake of the granule makes the slot ready
at the tail of its rod.  A wake of any number of entries, those of the spill list among them, makes the beads of a table ready in
ascending SEQ, counted modulo 2^24 from the number of parkings; an entry whose test is still under way is marked. -/
def Obligations.ParkingAndWaking : Prop :=
  (∀ (s : State) (g v : Nat) (es : List ParkEntry),
    let u := s.unitAt v
    let key := s.granuleKey g
    v ∈ wakeUnits g → (u.park.map ParkEntry.slot).Nodup →
    (∀ e, e ∈ es ↔ e ∈ u.park ∧ e.granule = key ∧ e.waiting = false) →
    es.Pairwise (fun a b => parkAge u.parkSeq b.seq < parkAge u.parkSeq a.seq) →
    (∀ e ∈ es, e.slot.unit = v ∧ (s.slotAt e.slot).isSome = true) →
    (∀ w, w ≠ v → ∀ e ∈ (s.unitAt w).park, e.slot.unit ≠ v) →
    Performs s (.parkTableWake g) fun t => SameMemory s t ∧ t.cores = s.cores ∧
      (t.unitAt v).park = (u.park.filter fun e => e.granule != key || e.waiting).map (fun e =>
        if e.granule = key then { e with marked := true } else e) ∧
      (∀ e ∈ es, ∀ x, s.slotAt e.slot = some x → t.slotAt e.slot = some { x with use := .ready }) ∧
      ∀ r rod, s.rodAt v r = some rod →
        (t.rodAt v r).map Rod.ready = some (rod.ready ++ (es.filter fun e => e.slot.rod == r).map fun e => e.slot.slot)) ∧
  ∀ (s : State) (q : TestReq) (b : SlotId) (x : BeadSlot) (e : ParkEntry) (r : Rod),
    q.core < 416 → (s.coreAt q.core).bead = some b → s.rodAt b.unit b.rod = some r → Map.find? r.slots b.slot = some x →
    s.spanCheck (s.issuer q.core .c) q.va q.loc 8 true = .ok () →
    testHolds q.test (metaF (s.metaAt (q.loc / 32))) (leNat (s.spanLook q.loc 8)) = false →
    (s.coreAt q.core).inh = false → (s.coreAt q.core).a = [] → (s.tileAt q.core).order = [] →
    (s.unitAt b.unit).park = [e] → e.slot = b → e.granule = s.granuleKey (q.loc / 32) → e.marked = false →
    b.unit ∈ wakeUnits (q.loc / 32) → (∀ v, v ≠ b.unit → (s.unitAt v).park = []) → s.peerParks = [] →
    Performs s (.testAndRegisterReply q) fun t =>
      metaW (t.metaAt (q.loc / 32)) = true ∧ (∀ y, t.byte y = s.byte y) ∧
      (t.coreAt q.core).mode = .idle ∧ (t.coreAt q.core).bead = none ∧ OthersSame s t q.core ∧
      t.slotAt b = some { x with
        record := { x.record with
          code := (s.coreAt q.core).pc, w3 := setFld x.record.w3 0 32 (s.coreAt q.core).spn.toNat }
        use := .parked } ∧
      Delivers t (.parkTableWake (q.loc / 32)) fun u =>
        (u.slotAt b).map BeadSlot.use = some .ready ∧ (u.slotAt b).map BeadSlot.uid = some x.uid ∧
        (u.unitAt b.unit).park = [] ∧ (u.rodAt b.unit b.rod).map Rod.ready = some (r.ready ++ [b.slot])

/-- R191, R192: TAGST sets the tag and D of each granule of its range and no byte; TAGST.Z also zeroes the bytes, F and W;
TAGLD reads D, W, F and the tag. -/
def Obligations.GranuleTags : Prop :=
  ∀ (s : State) (pfx : Pfx) (d a b : Nat),
    let va := s.sr a
    let i := s.issuer s.cur .c
    let len := (s.sr d).toNat
    let tag : Byte := BitVec.ofNat 8 (s.sr b).toNat
    let s1 := s.useTlb va
    (tagSpace va = true → va.toNat % 32 = 0 → len % 32 = 0 → len = 0 →
      (Answers (exec (.tagst pfx d a b) s) fun t => Commits s t [] 0) ∧
      Answers (exec (.tagstZ pfx d a b) s) fun t => Commits s t [] 0) ∧
    (∀ place ps, tagSpace va = true → va.toNat % 32 = 0 → len % 32 = 0 → len ≠ 0 → va.toNat % 65536 + len ≤ 65536 →
      s.translate i va len true false = .ok place → s.tagPieces i (unitPieces va 17 len) = .ok ps →
      let Touched (g : Nat) : Prop := ∃ p ∈ ps, g ∈ granules p.1 p.2
      (Answers (exec (.tagst pfx d a b) s) fun t =>
        (∀ y, t.byte y = s.byte y) ∧
        (∀ g, Touched g → t.metaAt g = mkMeta true (metaW (s.metaAt g)) (metaF (s.metaAt g)) tag) ∧
        (∀ g, ¬ Touched g → t.metaAt g = s.metaAt g) ∧ RegsSame s.me t.me [] ∧ CommitsAt s1.me t.me s.me.npc 0 ∧
        OthersSame s t s.cur) ∧
      Answers (exec (.tagstZ pfx d a b) s) fun t =>
        (∀ y, Touched (y / 32) → t.byte y = 0) ∧
        (∀ y, (∀ g, Touched g → ¬ s.Stores (32 * g) 32 y) → t.byte y = s.byte y) ∧
        (∀ g, Touched g → t.metaAt g = mkMeta true false false tag) ∧
        (∀ g, ¬ Touched g → t.metaAt g = s.metaAt g) ∧ RegsSame s.me t.me [] ∧ CommitsAt s1.me t.me s.me.npc 0 ∧
        OthersSame s t s.cur) ∧
    ∀ loc, s.translate i va 1 false false = .ok (.mem loc) →
      Answers (exec (.tagld pfx d a) s) fun t => Commits ((s.countUnit loc).useTlb va) t [(.s, d)] 0 ∧
        (d ≠ 0 → fld (t.sr d) 0 8 = (metaTag (s.metaAt (loc / 32))).toNat ∧
          bitOf (t.sr d) 8 = metaF (s.metaAt (loc / 32)) ∧ bitOf (t.sr d) 9 = metaW (s.metaAt (loc / 32)) ∧
          bitOf (t.sr d) 10 = metaD (s.metaSeen (loc / 32)) ∧ fld (t.sr d) 11 53 = 0)

/-- R193 to R195, R154: with the data cache transparent in this model (log 12), DCWB, DCINV and PREF commit and change no memory;
PREF never faults whatever its address.  DCWB and DCINV translate their range piece by piece, passing over what does not
translate: the TLB of the core keeps the entries of the walks, whose table words count (log 26), and nothing else changes. -/
def Obligations.CacheInstructions : Prop :=
  ∀ (s : State) (pfx : Pfx) (d a : Nat) (off : Int),
    let va := s.sr a
    let n := (s.sr d).toNat
    let s1 := s.translatePieces va n
    (Answers (exec (.pref pfx a off) s) fun t => Commits s t [] 0) ∧
    (∀ i ∈ [Instr.dcwb pfx d a, .dcinv pfx d a], Answers (exec i s) fun t => Commits s1 t [] 0) ∧
    s1 = { s with cores := s1.cores, acnt := s1.acnt } ∧ SameMemory s s1 ∧ OthersSame s s1 s.cur ∧
    s1.me = { s.me with tlb := s1.me.tlb } ∧ (∀ e ∈ s.me.tlb, e ∈ s1.me.tlb) ∧ (spaceOf va ≠ 0 ∨ n = 0 → s1 = s) ∧
    ∀ y e, spaceOf va = 0 → s.cur < 416 → fld va 0 52 ≤ y → y < fld va 0 52 + n → y < 2 ^ 52 →
      let piece := max (fld va 0 52) (y / 65536 * 65536)
      inHeap (s.issuer s.cur .c) piece = false → s.walk s.me.world piece = some e → (tlbFind s1.me.tlb s.me.world y).isSome = true

/-! ## Page 2 -/

/-- R196 to R198, R206, R207: the integer lane arithmetic and shifts, lane by lane, wrapped to the lane's width. -/
def Obligations.VectorIntegerLanes : Prop :=
  ∀ (s : State) (pfx : Pfx) (ty : Ty) (rm : Nat) (gov : Option Nat) (d a b : Nat) (src : Src),
    ty.isFloat = false → ty ≠ .dm8 →
    let w := ty.bytes
    let m := 2 ^ (8 * w)
    let x (j : Nat) := laneOf (s.me.vReg a) w j
    let y (j : Nat) := laneOf (s.me.vReg b) w j
    let val (v : Nat) : Int := if ty.isSigned then signed (8 * w) v else v
    let k (j : Nat) : Nat := match src with
      | .reg n => laneOf (s.me.vReg n) w j % (8 * w)
      | .imm v => v.toNat
    Lanewise (.vadd pfx ty rm gov d a b) s ty gov d (fun j => ((x j + y j) % m, 0)) ∧
    Lanewise (.vsub pfx ty rm gov d a b) s ty gov d (fun j => ((x j + (m - y j)) % m, 0)) ∧
    Lanewise (.vmul pfx ty rm gov d a b) s ty gov d (fun j => (x j * y j % m, 0)) ∧
    Lanewise (.vmin pfx ty gov d a b) s ty gov d (fun j => (if val (y j) < val (x j) then y j else x j, 0)) ∧
    Lanewise (.vmax pfx ty gov d a b) s ty gov d (fun j => (if val (x j) < val (y j) then y j else x j, 0)) ∧
    (ty.isSigned = true →
      Lanewise (.vabs pfx ty gov d a) s ty gov d (fun j => ((val (x j)).natAbs % m, 0)) ∧
      Lanewise (.vneg pfx ty gov d a) s ty gov d (fun j => ((m - x j) % m, 0))) ∧
    Lanewise (.vshl pfx ty gov d a src) s ty gov d (fun j => (x j * 2 ^ k j % m, 0)) ∧
    Lanewise (.vshr pfx ty gov d a src) s ty gov d (fun j => (x j / 2 ^ k j, 0)) ∧
    Lanewise (.vsar pfx ty gov d a src) s ty gov d (fun j => ((signed (8 * w) (x j) / 2 ^ k j % m).toNat, 0))

/-- R196 to R198, R206, R207, R217, R34: the float lane operations: every lane of a NaN operand gives the canonical NaN; the
sum, the product and the fused sum round the exact value once; VMIN and VMAX take the smaller and the larger with −0 below +0;
the functions give the values of the table of special operands, VRCP elsewhere the exact quotient rounded once; no lane that
is inactive changes or raises a flag. -/
def Obligations.VectorFloatLanes : Prop :=
  ∀ (s : State) (pfx : Pfx) (ty : Ty) (rm : Nat) (gov : Option Nat) (d a b : Nat), ty.isFloat = true →
    let w := ty.bytes
    let x (j : Nat) := laneOf (s.me.vReg a) w j
    let y (j : Nat) := laneOf (s.me.vReg b) w j
    let z (j : Nat) := laneOf (s.me.vReg d) w j
    let dec := ty.fmt.decode
    let nan (v : Nat) : Bool := (dec v).isNaN
    let less (u v : Nat) : Bool :=
      decide ((dec u).cmp (dec v) < 0) || ((dec u).cmp (dec v) == 0 && (dec u).isNeg && !(dec v).isNeg)
    let qnan := ty.fmt.nanBits
    let sgn := 2 ^ (8 * w - 1)
    let inf := ty.fmt.infBits
    let one := if ty = .f16 then 0x3C00 else 0x3F800000
    let Rounds (i : Instr) (exact : Nat → Val × Bool) (sn : Nat → Flags) (isNan : Nat → Bool) : Prop :=
      Lanewise i s ty gov d (fun j => ((ty.fmt.finish rm (exact j)).1, (ty.fmt.finish rm (exact j)).2 ||| sn j)) ∧
        ∀ j, isNan j = true → (ty.fmt.finish rm (exact j)).1 = qnan
    let Function (i : Instr) (f : Nat → Nat × Flags) (p0 n0 pinf ninf : Nat × Flags) : Prop :=
      Lanewise i s ty gov d (fun j => f (x j)) ∧ f 0 = p0 ∧ f sgn = n0 ∧ f inf = pinf ∧ f (sgn + inf) = ninf ∧
        ∀ v, nan v = true → f v = (qnan, 0)
    Rounds (.vadd pfx ty rm gov d a b) (fun j => Val.add rm (dec (x j)) (dec (y j)))
      (fun j => ty.snan (x j) ||| ty.snan (y j)) (fun j => nan (x j) || nan (y j)) ∧
    Rounds (.vsub pfx ty rm gov d a b) (fun j => Val.add rm (dec (x j)) (dec (y j)).negate)
      (fun j => ty.snan (x j) ||| ty.snan (y j)) (fun j => nan (x j) || nan (y j)) ∧
    Rounds (.vmul pfx ty rm gov d a b) (fun j => Val.mul (dec (x j)) (dec (y j)))
      (fun j => ty.snan (x j) ||| ty.snan (y j)) (fun j => nan (x j) || nan (y j)) ∧
    Rounds (.vfma pfx ty rm gov d a b)
      (fun j =>
        let p := Val.mul (dec (x j)) (dec (y j))
        let q := Val.add rm p.1 (dec (z j))
        (q.1, p.2 || q.2))
      (fun j => ty.snan (x j) ||| ty.snan (y j) ||| ty.snan (z j)) (fun j => nan (x j) || nan (y j) || nan (z j)) ∧
    Lanewise (.vabs pfx ty gov d a) s ty gov d (fun j => (if nan (x j) then qnan else x j % sgn, ty.snan (x j))) ∧
    Lanewise (.vneg pfx ty gov d a) s ty gov d (fun j => (if nan (x j) then qnan else Nat.xor (x j) sgn, ty.snan (x j))) ∧
    Lanewise (.vmin pfx ty gov d a b) s ty gov d (fun j =>
      if nan (x j) || nan (y j) then (qnan, ty.snan (x j) ||| ty.snan (y j))
      else (if less (y j) (x j) then y j else x j, 0)) ∧
    Lanewise (.vmax pfx ty gov d a b) s ty gov d (fun j =>
      if nan (x j) || nan (y j) then (qnan, ty.snan (x j) ||| ty.snan (y j))
      else (if less (x j) (y j) then y j else x j, 0)) ∧
    Function (.vexp2 pfx ty rm gov d a) (fun v => vexp2 ty.fmt rm (dec v)) (one, 0) (one, 0) (inf, 0) (0, 0) ∧
    Function (.vlog2 pfx ty rm gov d a) (fun v => vlog2 ty.fmt rm (dec v)) (sgn + inf, 0) (sgn + inf, 0) (inf, 0)
      (qnan, fNV) ∧
    Function (.vrcp pfx ty rm gov d a) (fun v => vrcp ty.fmt rm (dec v)) (inf, 0) (sgn + inf, 0) (0, 0) (sgn, 0) ∧
    Function (.vrsq pfx ty rm gov d a) (fun v => vrsq ty.fmt rm (dec v)) (inf, 0) (sgn + inf, 0) (0, 0) (qnan, fNV) ∧
    vlog2 ty.fmt rm (dec one) = (0, 0) ∧
    (∀ v, sgn < v → v < sgn + inf → vlog2 ty.fmt rm (dec v) = (qnan, fNV) ∧ vrsq ty.fmt rm (dec v) = (qnan, fNV)) ∧
    ∀ v, v % sgn ≠ 0 → v % sgn < inf → vrcp ty.fmt rm (dec v) = ty.fmt.round rm (Val.div (Val.ofInt 1) (dec v)).1

/-- R205, R207 to R210, R219, R197, R34: bitwise logic, broadcasts, lane moves, compares, selection, permutation, and the predicate
instructions, which write every bit of a lane's group alike.  VCMP compares integers by TY, floats as IEEE values with a NaN
unordered, DM8 codes by their unscaled values with 0x80 unordered; a signalling NaN in any lane sets NV, and nothing else sets a
flag. -/
def Obligations.VectorMovesAndPredicates : Prop :=
  ∀ (s : State) (pfx : Pfx) (ty : Ty) (rel : CmpRel) (gov : Option Nat) (d a b : Nat) (off : Int) (src : Src),
    let w := ty.bytes
    let x (j : Nat) := laneOf (s.me.vReg a) w j
    let y (j : Nat) := laneOf (s.me.vReg b) w j
    let val (v : Nat) : Int := if ty.isSigned then signed (8 * w) v else v
    let Preds (i : Instr) (fl : Flags) (p : Nat → Bool) : Prop := Answers (exec i s) fun t =>
      Commits s t [(.p, d)] fl ∧ ∀ n, n < 128 → (t.me.pReg d).getLsbD n = p n
    let dec := ty.fmt.decode
    let signals (v : Nat) : Prop := ty.isFloat = true ∧ (dec v).isNaN = true ∧ v / 2 ^ (ty.fmt.p - 2) % 2 = 0
    let code (v : Nat) : Int := if v < 128 then dm8Mag v else -dm8Mag (v - 128)
    let holds (un : Bool) (c : Int) : Bool := match rel with
      | .eq => !un && decide (c = 0) | .ne => un || decide (c ≠ 0) | .lt => !un && decide (c < 0)
      | .le => !un && decide (c ≤ 0) | .un => un
    Lanewise (.vand pfx ty gov d a b) s ty gov d (fun j => (Nat.land (x j) (y j), 0)) ∧
    Lanewise (.vor pfx ty gov d a b) s ty gov d (fun j => (Nat.lor (x j) (y j), 0)) ∧
    Lanewise (.vxor pfx ty gov d a b) s ty gov d (fun j => (Nat.xor (x j) (y j), 0)) ∧
    Lanewise (.vbc pfx ty gov d a) s ty gov d (fun _ => ((s.sr a).toNat, 0)) ∧
    PutsScalar (.vmovs pfx ty d a off) s d
      (if ty.isSigned then (BitVec.ofNat (8 * w) (x off.toNat)).signExtend 64 else BitVec.ofNat 64 (x off.toNat)) ∧
    Lanewise (.vsel pfx ty gov d a b) s ty none d (fun j => (if s.me.active gov w j then x j else y j, 0)) ∧
    Lanewise (.vperm pfx ty gov d a b) s ty gov d (fun j => (if y j < laneCount w then x (y j) else 0, 0)) ∧
    (ty.isFloat = false → ty ≠ .dm8 → Preds (.vcmp pfx ty rel d a b) 0 fun n =>
      match rel with
      | .eq => decide (val (x (n / w)) = val (y (n / w)))
      | .ne => decide (val (x (n / w)) ≠ val (y (n / w)))
      | .lt => decide (val (x (n / w)) < val (y (n / w)))
      | .le => decide (val (x (n / w)) ≤ val (y (n / w)))
      | .un => false) ∧
    (ty.isFloat = true → ∃ fl, Preds (.vcmp pfx ty rel d a b) fl (fun n =>
        holds ((dec (x (n / w))).isNaN || (dec (y (n / w))).isNaN) ((dec (x (n / w))).cmp (dec (y (n / w))))) ∧
      ((∃ j, j < laneCount w ∧ (signals (x j) ∨ signals (y j))) → fl = fNV) ∧
      ((∀ j, j < laneCount w → ¬ signals (x j) ∧ ¬ signals (y j)) → fl = 0)) ∧
    (ty = .dm8 → Preds (.vcmp pfx ty rel d a b) 0 fun n =>
      holds (x (n / w) == 0x80 || y (n / w) == 0x80) (code (x (n / w)) - code (y (n / w)))) ∧
    Preds (.pand pfx d a b) 0 (fun n => (s.me.pReg a).getLsbD n && (s.me.pReg b).getLsbD n) ∧
    Preds (.por pfx d a b) 0 (fun n => (s.me.pReg a).getLsbD n || (s.me.pReg b).getLsbD n) ∧
    Preds (.pnot pfx d a) 0 (fun n => !(s.me.pReg a).getLsbD n) ∧
    Preds (.pset pfx ty d src) 0 (fun n => decide (n / w < (s.me.src src).toNat))

/-- R214 to R216, R198: the reductions use active lanes alone.  An integer sum is exact modulo 2^64; a float sum is the exact
sum rounded once, NaN with a NaN lane, a zero sum signed as R214 says; an extreme is a lane's value that no active lane
passes, with −0 below +0, NaN with a NaN lane, and with no active lane the identity or NaN; VSCAN gives each active lane the
sum of the active lanes up to it; each position of VTOPK holds the lane that comes first of those not yet taken, and its value,
and the unused ones 0 and all ones.  A NaN lane beside both infinities gives NaN without NV, the model's choice (log 60). -/
def Obligations.VectorReductions : Prop :=
  ∀ (s : State) (pfx : Pfx) (ty : Ty) (rm : Nat) (gov : Option Nat) (d a : Nat) (off : Int),
    let w := ty.bytes
    let x (j : Nat) := laneOf (s.me.vReg a) w j
    let val (v : Nat) : Int := if ty.isSigned then signed (8 * w) v else v
    let act := (List.range (laneCount w)).filter fun j => s.me.active gov w j
    let dec := ty.fmt.decode
    let qnan := ty.fmt.nanBits
    let less (u v : Nat) : Bool :=
      decide ((dec u).cmp (dec v) < 0) || ((dec u).cmp (dec v) == 0 && (dec u).isNeg && !(dec v).isNeg)
    let snan (js : List Nat) : Flags := (js.map fun j => ty.snan (x j)).foldl (· ||| ·) 0
    let sum (js : List Nat) : Nat × Flags :=
      let vs := js.map fun j => dec (x j)
      let e := exactSum 0 vs
      if vs.any Val.isNaN then (qnan, snan js)
      else if e.1.isZero then (if js ≠ [] ∧ (rm = 3 ∨ vs.all Val.isNeg = true) then 2 ^ (8 * w - 1) else 0, 0)
      else ty.fmt.finish rm e
    let Puts (i : Instr) (v : Nat) (fl : Flags) : Prop :=
      Answers (exec i s) fun t => Commits s t [(.s, d)] fl ∧ t.sr d = if d = 0 then 0 else BitVec.ofNat 64 v
    let before (u v : Nat) : Bool :=
      !(ty.val u).isNaN && ((ty.val v).isNaN || decide (0 < (ty.val u).cmp (ty.val v)))
    let first (i j : Nat) : Prop := before (x i) (x j) = true ∨ (before (x j) (x i) = false ∧ i < j)
    (ty.isFloat = false → ty ≠ .dm8 →
      PutsScalar (.vrsum pfx ty rm gov d a) s d (BitVec.ofInt 64 ((act.map fun j => val (x j)).sum)) ∧
      (act = [] → PutsScalar (.vrmax pfx ty gov d a) s d
          (BitVec.ofInt 64 (if ty.isSigned then -2 ^ (8 * w - 1) else 0)) ∧
        PutsScalar (.vrmin pfx ty gov d a) s d
          (BitVec.ofInt 64 (if ty.isSigned then 2 ^ (8 * w - 1) - 1 else 2 ^ (8 * w) - 1))) ∧
      (act ≠ [] →
        (∃ j ∈ act, PutsScalar (.vrmax pfx ty gov d a) s d (BitVec.ofInt 64 (val (x j))) ∧
          ∀ i ∈ act, val (x i) ≤ val (x j)) ∧
        ∃ j ∈ act, PutsScalar (.vrmin pfx ty gov d a) s d (BitVec.ofInt 64 (val (x j))) ∧
          ∀ i ∈ act, val (x j) ≤ val (x i)) ∧
      Lanewise (.vscan pfx ty rm gov d a) s ty gov d
        (fun j => ((((act.filter fun i => i ≤ j).map fun i => val (x i)).sum % 2 ^ (8 * w)).toNat, 0))) ∧
    (ty.isFloat = true →
      Puts (.vrsum pfx ty rm gov d a) (sum act).1 (sum act).2 ∧
      Lanewise (.vscan pfx ty rm gov d a) s ty gov d (fun j => sum (act.filter fun i => i ≤ j)) ∧
      ((act = [] ∨ ∃ j ∈ act, (dec (x j)).isNaN = true) →
        Puts (.vrmax pfx ty gov d a) qnan (snan act) ∧ Puts (.vrmin pfx ty gov d a) qnan (snan act)) ∧
      (act ≠ [] → (∀ j ∈ act, (dec (x j)).isNaN = false) →
        (∃ j ∈ act, Puts (.vrmax pfx ty gov d a) (x j) 0 ∧ ∀ i ∈ act, less (x j) (x i) = false) ∧
        ∃ j ∈ act, Puts (.vrmin pfx ty gov d a) (x j) 0 ∧ ∀ i ∈ act, less (x i) (x j) = false)) ∧
    Answers (exec (.vtopk pfx ty gov d a off) s) fun t => Commits s t [(.v, d), (.v, d + 1)] (snan act) ∧
      let q (k : Nat) := laneOf (t.me.vReg (d + 1)) w k
      ∀ k, k < laneCount w →
        (min off.toNat act.length ≤ k → laneOf (t.me.vReg d) w k = 0 ∧ q k = 2 ^ (8 * w) - 1) ∧
        (k < min off.toNat act.length → q k ∈ act ∧ laneOf (t.me.vReg d) w k = x (q k) ∧ (∀ i, i < k → q i ≠ q k) ∧
          ∀ j ∈ act, (∀ i, i ≤ k → q i ≠ j) → first (q k) j)

/-- R211 to R213, R218, R30, R32 to R34, R38 to R40: conversions write the converted lanes and zero the others; VQNT writes the codes of its
elements to two registers, raises the flags of the encodings and NV of a signalling NaN, and in MODE 0 writes the scale to
s[B]; VDQ writes decoded lanes, in `.f16` rounded once more; BADDQ.f32 adds lane by lane and keeps the bits of a NaN, that of
the destination first; BADDQ.dm8 adds the decoded codes and requantizes, with both scales in s[B].  The values: a DM8 code
under its scale, exact below 2^128 and else an infinity with OF; the code nearest to a value, a tie going to the larger, with
saturation from 15.75 on; the scale ⌊log2 of the largest magnitude⌋ − 3 + 127 within 0x00 to 0xFE; and each row of the
conversion table.  VDQ raises OF of the decoding and the flags of its rounding, BADDQ.dm8 those of its decodings, sums and
encodings.  That an integer converted to another signedness of no lesser width saturates with SAT, as a narrowed one does, is the
model's choice (log 60, DESIGN CHOICE); that a NaN converted between identical formats becomes the canonical NaN, NV raised where it
signals, is the model's reading (log 38, DEDUCED: R40's row for identical formats leaves a value as it is). -/
def Obligations.VectorConversions : Prop :=
  (∀ E F : Nat, E < 4 →
    (F < 16 → dm8Mag (64 + 16 * E + F) = (16 + F) * 2 ^ (E + 15)) ∧ (F < 8 → dm8Mag (32 + 8 * E + F) = (8 + F) * 2 ^ (E + 12)) ∧
    (F < 4 → dm8Mag (16 + 4 * E + F) = (4 + F) * 2 ^ (E + 9)) ∧ (F < 2 → dm8Mag (8 + 2 * E + F) = (2 + F) * 2 ^ (E + 6)) ∧
    dm8Mag (4 + E) = 2 ^ (E + 3) ∧ dm8Mag 3 = 4 ∧ dm8Mag 2 = 2 ∧ dm8Mag 1 = 1 ∧ dm8Mag 0 = 0) ∧
  (∀ c S : Byte,
    ((c = 0x80 ∨ S = 0xFF) → decodeDM8 c S = (0x7FC00000, 0)) ∧
    (c ≠ 0x80 → S ≠ 0xFF →
      let m := dm8Mag (c.toNat % 128)
      let neg := decide (128 ≤ c.toNat)
      let v := b32.decode (decodeDM8 c S).1
      (m * 2 ^ S.toNat < 2 ^ 274 → (decodeDM8 c S).2 = 0 ∧ v.isNaN = false ∧ v.cmp (.fin neg m 1 ((S.toNat : Int) - 146)) = 0) ∧
      (2 ^ 274 ≤ m * 2 ^ S.toNat → decodeDM8 c S = (if neg then 0xFF800000 else 0x7F800000, fOF)))) ∧
  (∀ (x : Val) (S : Byte),
    ((S = 0xFF ∨ x = .nan) → encodeDM8 x S = (0x80, 0)) ∧
    (∀ n, S ≠ 0xFF → x = .inf n → encodeDM8 x S = (if n then 0xFF else 0x7F, fSAT)) ∧
    ∀ n a b e, S ≠ 0xFF → 0 < b → x = .fin n a b e →
      let y : Val := .fin false a b (e + 127 - (S.toNat : Int))
      let top : Val := .fin false 63 1 (-2)
      (0 ≤ y.cmp top → encodeDM8 x S = (if n then 0xFF else 0x7F, fSAT)) ∧
      (y.cmp top < 0 → ∃ m, NearestCode y m ∧ encodeDM8 x S = (BitVec.ofNat 8 (if m ≠ 0 ∧ n = true then m + 128 else m), 0))) ∧
  (∀ (ty : Ty) (zs : List Nat),
    let vs := zs.map ty.fmt.decode
    let q := requantize vs
    q.1 = vs.map (fun x => (encodeDM8 x q.2.1).1) ∧ q.2.2 = vs.foldl (fun g x => g ||| (encodeDM8 x q.2.1).2) 0 ∧
    ((∀ x ∈ vs, x.isNaN = true ∨ x.isZero = true) → q.2.1 = 0) ∧ ((∃ x ∈ vs, x.isInf = true) → q.2.1 = 0xFE) ∧
    ∀ m ∈ vs, m.isNaN = false → m.isZero = false → m.isInf = false → (∀ x ∈ vs, x.isNaN = false → x.abs.cmp m.abs ≤ 0) →
      ∀ k : Int, 0 ≤ m.abs.cmp (.fin false 1 1 k) → m.abs.cmp (.fin false 1 1 (k + 1)) < 0 →
        (q.2.1.toNat : Int) = max 0 (min 254 (k + 124))) ∧
  (∀ (sty ty : Ty) (rm v : Nat), sty ≠ .dm8 → ty ≠ .dm8 →
    let r := convertBits sty ty rm v
    let x := sty.fmt.decode v
    let W := 8 * ty.bytes
    let lo : Int := if ty.isSigned then -2 ^ (W - 1) else 0
    let hi : Int := if ty.isSigned then 2 ^ (W - 1) - 1 else 2 ^ W - 1
    let fits (i : Int) : Nat := wrapNat W (max lo (min hi i))
    let j : Int := readInt (8 * sty.bytes) sty.isSigned v
    (sty.isFloat = true → ty.isFloat = true →
      r = ((ty.fmt.round rm x).1, (ty.fmt.round rm x).2 ||| sty.snan v) ∧ (x.isNaN = true → r.1 = ty.fmt.nanBits) ∧
      (x.isNaN = false → (sty.fmt = ty.fmt ∨ ty.fmt = b32) →
        (ty.fmt.decode r.1).isNaN = false ∧ (ty.fmt.decode r.1).cmp x = 0 ∧ r.2 = 0)) ∧
    (sty.isFloat = true → ty.isFloat = false →
      (x.isNaN = true → r = (0, fNV)) ∧ (∀ n, x = .inf n → r = (fits (if n then lo else hi), fNV ||| fSAT)) ∧
      ∀ n a b e i, x = .fin n a b e → RoundsInt rm x i →
        r = (fits i, if i < lo ∨ hi < i then fSAT else if x.cmp (Val.ofInt i) = 0 then 0 else fNX)) ∧
    (sty.isFloat = false → ty.isFloat = true → r = ty.fmt.round rm (Val.ofInt j)) ∧
    (sty.isFloat = false → ty.isFloat = false → r = (fits j, if j < lo ∨ hi < j then fSAT else 0))) ∧
  ∀ (s : State) (pfx : Pfx) (ty sty : Ty) (rm sel d a b : Nat),
    let w := ty.bytes
    let n := 128 / max sty.bytes w
    let low : Byte := BitVec.ofNat 8 (s.sr b).toNat
    let xs := s.groupLanes ty a (if ty == .f16 then 4 else 8)
    let nv : Flags := xs.foldl (fun g v => g ||| ty.snan v) 0
    let codes := xs.map fun v => encodeDM8 (ty.fmt.decode v) low
    let r := requantize (xs.map ty.fmt.decode)
    let code (q j : Nat) : Byte := BitVec.ofNat 8 (laneOf (s.me.vReg (q + j / 128)) 1 (j % 128))
    let dq (j : Nat) := decodeDM8 (BitVec.ofNat 8 (laneOf (s.me.vReg a) 1 (laneCount w * sel + j))) low
    let f32 (v : Nat) := b32.decode v
    let D (j : Nat) := laneOf (s.me.vReg d) 4 j
    let A (j : Nat) := laneOf (s.me.vReg a) 4 j
    (Answers (exec (.vcvt pfx ty sty rm d a) s) fun t =>
      Commits s t [(.v, d)] ((List.range n).foldl
        (fun g j => g ||| (convertBits sty ty rm (laneOf (s.me.vReg a) sty.bytes j)).2) 0) ∧
      ∀ j, j < laneCount w → laneOf (t.me.vReg d) w j =
        if j < n then (convertBits sty ty rm (laneOf (s.me.vReg a) sty.bytes j)).1 % 2 ^ (8 * w) else 0) ∧
    (Answers (exec (.vqnt pfx ty true d a b) s) fun t =>
      Commits s t [(.v, d), (.v, d + 1)] (codes.foldl (fun g e => g ||| e.2) nv) ∧
      ((ty = .f16 ∨ ty = .f32 ∨ ty = .dflt) → ∀ j, j < 256 →
        laneOf (t.me.vReg (d + j / 128)) 1 (j % 128) = (encodeDM8
          (ty.fmt.decode (laneOf (s.me.vReg (a + j / laneCount w)) w (j % laneCount w))) low).1.toNat)) ∧
    (Answers (exec (.vqnt pfx ty false d a b) s) fun t =>
      Commits s t [(.v, d), (.v, d + 1), (.s, b)] (r.2.2 ||| nv) ∧ (t.sr b = if b = 0 then 0 else r.2.1.setWidth 64) ∧
      ((ty = .f16 ∨ ty = .f32 ∨ ty = .dflt) → ∀ j, j < 256 →
        laneOf (t.me.vReg (d + j / 128)) 1 (j % 128) = (encodeDM8
          (ty.fmt.decode (laneOf (s.me.vReg (a + j / laneCount w)) w (j % laneCount w))) r.2.1).1.toNat)) ∧
    (Answers (exec (.vdq pfx ty rm sel d a b) s) fun t =>
      Commits s t [(.v, d)] ((List.range (laneCount w)).foldl
        (fun g j => g ||| ((if ty = .f16 then (b16.round rm (f32 (dq j).1)).2 else 0) ||| (dq j).2)) 0) ∧
      ((ty = .f32 ∨ ty = .dflt) → ∀ j, j < 32 → laneOf (t.me.vReg d) 4 j = (dq j).1 % 2 ^ 32) ∧
      (ty = .f16 → ∀ j, j < 64 → laneOf (t.me.vReg d) 2 j = (b16.round rm (f32 (dq j).1)).1 % 2 ^ 16)) ∧
    (ty ≠ .dm8 → Lanewise (.baddq pfx ty d a b) s .f32 none d fun j =>
      let e := b32.finish 0 ((f32 (D j)).add 0 (f32 (A j)))
      let sn := Ty.f32.snan (D j) ||| Ty.f32.snan (A j)
      if (f32 (D j)).isNaN then (D j, sn) else if (f32 (A j)).isNaN then (A j, sn) else (e.1, e.2 ||| sn)) ∧
    Answers (exec (.baddq pfx .dm8 d a b) s) fun t =>
      let high : Byte := BitVec.ofNat 8 ((s.sr b).toNat / 256)
      let u (j : Nat) := decodeDM8 (code d j) low
      let v (j : Nat) := decodeDM8 (code a j) high
      let sum (j : Nat) := b32.finish 0 ((f32 (u j).1).add 0 (f32 (v j).1))
      let r := requantize ((List.range 256).map fun j => f32 (sum j).1)
      Commits s t [(.v, d), (.v, d + 1), (.s, b)]
        ((List.range 256).foldl (fun g j => g ||| ((u j).2 ||| (v j).2 ||| (sum j).2)) r.2.2) ∧ (t.sr b = if b = 0 then 0 else r.2.1.setWidth 64) ∧
      ∀ j, j < 256 → BitVec.ofNat 8 (laneOf (t.me.vReg (d + j / 128)) 1 (j % 128)) = r.1.getD j 0

/-- R202 to R204, R198, R33, R34, R40: a vector load writes the lanes that it accesses, decoded through the pointer's window, and keeps
the others; a vector store writes the places of its lanes and no other address.  Both raise the flags of the conversions of the
lanes that they access, each under its block's scale, and no other. -/
def Obligations.VectorMemory : Prop :=
  ∀ (s : State) (pfx : Pfx) (ty : Ty) (rm : Nat) (gov : Option Nat) (d a b : Nat) (off : Int) (ls : List Lane)
      (indexed wr : Bool),
    let i := s.issuer s.cur .c
    let ea := if indexed then s.sr a else padd (s.sr a) off
    let e := laneSize ea ty
    let es := s.lanePtrs ty gov (if indexed then s.indexedPtr ty ea e b else fun j => padd ea (e * j : Nat))
    let s1 := es.foldl (fun t l => t.useTlb l.2) s
    dm8Barred ea ty = false → (indexed = false → es = [] → ea.toNat % e = 0) →
    s.spots i e wr (ty != .dm8) (s.firstKey i es) es = .ok (ls.map Spot.here) →
    s1.checkLanes i ls (!wr) = .ok () →
    let load : Instr := if indexed then .vldx pfx ty rm gov d a b else .vld pfx ty rm gov d a off
    let store : Instr := if indexed then .vstx pfx ty rm gov d a b else .vst pfx ty rm gov d a off
    let Scales (sc : Lane → Byte) : Prop := ∀ l ∈ ls, ty = .dm8 ∨ s1.scaleFor i l.va l.loc = .ok (sc l)
    (wr = false → Answers (exec load s) fun t => ∃ q, t.pend = s.pend ++ [.loadDataReturn q] ∧
      Delivers t (.loadDataReturn q) fun u =>
        RegsSame s.me u.me [(.v, d)] ∧ OthersSame s u s.cur ∧ SameMemory s u ∧
        (∃ fl, CommitsAt s1.me u.me s.me.npc fl ∧ ∀ sc : Lane → Byte, Scales sc →
          fl = ls.foldl (fun g l => g ||| (laneOfMem l.va ty rm (leNat (s.look l.loc l.n)) (sc l)).2) 0) ∧
        (∀ j, j < laneCount ty.bytes → (∀ l ∈ ls, l.lane ≠ j) →
          laneOf (u.me.vReg d) ty.bytes j = laneOf (s.me.vReg d) ty.bytes j) ∧
        ∀ l ∈ ls, ∀ sc, (ty = .dm8 ∨ s1.scaleFor i l.va l.loc = .ok sc) →
          laneOf (u.me.vReg d) ty.bytes l.lane =
            (laneOfMem l.va ty rm (leNat (s.look l.loc l.n)) sc).1 % 2 ^ (8 * ty.bytes)) ∧
    (wr = true → s1.storeWaits ls = [] → Answers (exec store s) fun t =>
      RegsSame s.me t.me [] ∧ OthersSame s t s.cur ∧ SameMemory s t ∧
      (∃ fl, CommitsAt s1.me t.me s.me.npc fl ∧ ∀ sc : Lane → Byte, Scales sc →
        fl = ls.foldl (fun g l => g ||| (laneToMem l.va ty rm (laneOf (s.me.vReg d) ty.bytes l.lane) (sc l)).2) 0) ∧
      (ls = [] → t.pend = s.pend) ∧
      (ls ≠ [] → ∃ q, t.pend = s.pend ++ [.storeCompletion q] ∧ Delivers t (.storeCompletion q) fun u =>
        (∀ y, (∀ l ∈ ls, ¬ s.Stores l.loc l.n y) → u.byte y = s.byte y) ∧ u.cores = t.cores ∧
        ∀ l ∈ ls, s.moves = [] → (∀ l' ∈ ls, l' ≠ l → l'.loc + l'.n ≤ l.loc ∨ l.loc + l.n ≤ l'.loc) →
          ∀ sc, (ty = .dm8 ∨ s1.scaleFor i l.va l.loc = .ok sc) →
            u.bytes l.loc l.n =
              leBytes l.n (laneToMem l.va ty rm (laneOf (s.me.vReg d) ty.bytes l.lane) sc).1))

/-! ## Page 3 -/

/-- R102, R101, R365, R125: a page-3 instruction on a core that is no tile, and SPAWN, END, YIELD and PARK on a steward core, are
illegal at the instruction; in the non-secure world every instruction marked S, and a CSR access to SVEC, is a world fault at
the instruction. -/
def Obligations.WhereInstructionsRun : Prop :=
  ∀ (s : State) (pfx : Pfx) (rm d a b : Nat) (off : Int) (src : Src) (relu e : Bool) (fn : ActFn) (sub : Option Nat)
      (theta : Option Int) (sc : Scope),
    (s.me.world = false →
      ∀ i ∈ [Instr.tlbi pfx sc, .tlbiVa pfx sc a, .idle pfx d, .mcack pfx a, .pdrnSave pfx d a b, .pdrnKill pfx d a,
          .pdrnRun pfx d a, .prst pfx a, .ctxsv pfx d a b e, .ctxrs pfx d a, .csrr d 0x050, .csrw d 0x050],
        exec i s = .next (s.trap { cause := 0x09 })) ∧
    (isTile s.cur = false →
      ∀ i ∈ [Instr.tview pfx d a off, .tvset pfx d a b, .tforce pfx a, .tforceAll pfx, .tstore pfx rm d a, .tdrop pfx a,
          .tdropAll pfx, .tstat pfx d, .acq pfx d src, .arel pfx a, .tmul pfx rm relu d a b, .tmulg pfx rm relu d a b,
          .tmula pfx d a b, .tadd pfx rm relu d a b off, .tsub pfx rm relu d a b off, .tmule pfx rm relu d a b off,
          .tscl pfx rm relu d a b, .tbias pfx rm relu d a b, .tact pfx rm fn d a, .texp pfx rm e d a sub,
          .trmax pfx rm d a, .trsum pfx rm d a, .tdivr pfx rm d a b, .tmask pfx rm e d a off, .trot pfx rm e d a b theta,
          .tqnt pfx d a, .tcopy pfx rm d a off, .ttrn pfx rm d a, .tscan pfx rm d a],
        exec i s = .next (s.trap { cause := 0x03 })) ∧
    (isSteward s.cur = true →
      ∀ i ∈ [Instr.spawn pfx a src, .endBead pfx a, .yield pfx, .park pfx a off, .parkZ pfx a off],
        exec i s = .next (s.trap { cause := 0x03 }))

/-- R243 to R245, R239: TVIEW loads a descriptor from 32 aligned bytes and TVSET replaces one word of a view register, an
unloaded one starting with extents of 1; a descriptor that fails the structure check is a view fault and loads nothing.
The check: a KIND of 0 to 2 with no Reserved bit set, GDIM for KIND 2, extents of at least 1, and but for KIND 1 a base in a
format window of the tile's own scratchpad or that of a tile of its partition, aligned to the window's elements, with its highest
element below 0x20_0000.  TSTAT writes the statistics. -/
def Obligations.ViewRegisters : Prop :=
  (∀ (s : State) (k : Nat) (x : ViewReg), isTile k = true →
    let b := View.word x 0
    let w3 := View.word x 3
    let kind := fld w3 62 2
    let win := fld b 24 4
    let size := if win = 2 then 2 else if win = 3 ∨ win = 5 then 4 else 1
    let D (i : Nat) := fld (View.word x 1) (16 * i) 16
    let high := D 0 - 1 + (D 1 - 1) * fld (View.word x 2) 0 32 + (D 2 - 1) * fld (View.word x 2) 32 32 + (D 3 - 1) * fld w3 0 32
    let named := if spaceOf b = 4 then k else tileIn (unitOf k) (Nat.xor (indexOf k) (fld b 32 3))
    (s.viewOk k x = true ↔ kind ≠ 3 ∧ (kind = 2 → fld w3 56 2 ≠ 0) ∧ fld w3 32 24 = 0 ∧ (∀ i, i < 4 → 1 ≤ D i) ∧
      (kind = 1 → fld b 4 28 = 0) ∧
      (kind ≠ 1 → 1 ≤ win ∧ win ≤ 5 ∧ fld b 21 3 = 0 ∧ fld b 0 21 % size = 0 ∧ fld b 0 21 + size * (high + 1) ≤ 2 ^ 21 ∧
        ((spaceOf b = 4 ∧ fld b 28 24 = 0) ∨
          (spaceOf b = 5 ∧ fld b 35 17 = 0 ∧ fld b 28 4 = 0 ∧ s.partOf k ≠ none ∧ (s.tileAt named).part = s.partOf k)) ∧
        ((s.coreAt k).world = true ∨ isTile named = false ∨
          ∀ p y, (s.tileAt named).part = some p → s.partAt p = some y → y.world = false)))) ∧
  ∀ (s : State) (pfx : Pfx) (d a w : Nat) (off : Int), isTile s.cur = true →
    let ea := padd (s.sr a) off
    let s1 := s.noteRange (s.issuer s.cur .c) ea 32
    let y := View.setWord ((s.me.tReg d).getD View.blank) w (s.sr a)
    (∀ bs, ea.toNat % 32 = 0 → s.loadC ea 32 = .ok bs →
      let x : ViewReg := BitVec.ofNat 256 (leNat bs)
      (s1.viewOk s1.cur x = true → Answers (exec (.tview pfx d a off) s) fun t =>
        Commits s1 t [(.t, d)] 0 ∧ t.me.tReg d = some x) ∧
      (s1.viewOk s1.cur x = false → exec (.tview pfx d a off) s = .next (s1.trap { cause := 0x13 }))) ∧
    (ea.toNat % 32 ≠ 0 → exec (.tview pfx d a off) s = .next (s.trap { cause := 0x06, va := ea })) ∧
    (s.viewOk s.cur y = true → Answers (exec (.tvset pfx w d a) s) fun t =>
      Commits s t [(.t, d)] 0 ∧ t.me.tReg d = some y) ∧
    (s.viewOk s.cur y = false → exec (.tvset pfx w d a) s = .next (s.trap { cause := 0x13 })) ∧
    (∀ j, j < 4 → w < 4 → View.word y j =
      if j = w then s.sr a else View.word ((s.me.tReg d).getD View.blank) j) ∧
    PutsScalar (.tstat pfx d) s d (BitVec.ofNat 64 ((s.tileAt s.cur).tev * 2 ^ 48 + (s.tileAt s.cur).retry * 2 ^ 40 +
      (s.tileAt s.cur).afrc * 2 ^ 32 + (s.tileAt s.cur).ofrc * 2 ^ 24 + (s.tileAt s.cur).drop * 2 ^ 16 +
      (s.tileAt s.cur).nodes.length))

/-- R264, R265: ACQ takes the lowest run of free banks from bank 64 on, zeroes it and gives it to an empty handle; a length of
0 or above 192 or a handle in use is a handle fault, no such run an accumulator fault.  AREL empties a handle that no pending
node names, and forces the oldest node that names one of its banks first; a handle that holds no banks is a handle fault. -/
def Obligations.AccumulatorHandles : Prop :=
  ∀ (s : State) (pfx : Pfx) (d a : Nat) (src : Src), isTile s.cur = true →
    let n := (s.me.src src).toNat
    (∀ b, s.me.aReg d = none → 1 ≤ n → n ≤ 192 → s.me.freeRun n = some b →
      64 ≤ b ∧ b + n ≤ 256 ∧ (∀ j, j < n → s.me.bankHeld (b + j) = false) ∧
      (∀ c, 64 ≤ c → c < b → ∃ j, j < n ∧ s.me.bankHeld (c + j) = true) ∧
      Answers (exec (.acq pfx d src) s) fun t => RegsSame s.me t.me [(.a, d)] ∧ CommitsAt s.me t.me s.me.npc 0 ∧
        OthersSame s t s.cur ∧ t.me.aReg d = some (b, n) ∧ t = { s with cores := t.cores, mem := t.mem } ∧
        ∀ y, t.byte y = if accBase s.cur + 2048 * b ≤ y ∧ y < accBase s.cur + 2048 * (b + n) then 0 else s.byte y) ∧
    (s.me.aReg d = none → 1 ≤ n → n ≤ 192 → s.me.freeRun n = none →
      exec (.acq pfx d src) s = .next (s.trap { cause := 0x18 })) ∧
    (s.me.aReg d ≠ none ∨ n = 0 ∨ 192 < n → exec (.acq pfx d src) s = .next (s.trap { cause := 0x17 })) ∧
    (s.me.aReg a = none → exec (.arel pfx a) s = .next (s.trap { cause := 0x17 })) ∧
    ∀ r, s.me.aReg a = some r →
      (s.nodesOnBanks s.cur r = [] → Answers (exec (.arel pfx a) s) fun t =>
        Commits s t [(.a, a)] 0 ∧ t.me.aReg a = none) ∧
      (s.nodesOnBanks s.cur r ≠ [] → s.me.inh = false → Answers (exec (.arel pfx a) s) fun t =>
        t = { s with tiles := t.tiles, pend := s.pend ++ [.demandServe s.cur] } ∧
        (t.tileAt s.cur).demand = some
          { pc := s.me.pc, fin := .again, nodes := s.inFull s.cur ((s.nodesOnBanks s.cur r).take 1) } ∧
        (t.tileAt s.cur).afrc = min 255 ((s.tileAt s.cur).afrc + 1))

/-- R246, R247, R249, R250, R252, R253, R256, R258, R259, R228, R238: every append of page 3.  With its checks passed, no pending node over the span of its destination and
an entry free, the lowest free entry takes the node with its operation, its snapshots, the address of the append and the next
sequence number, as the youngest; nothing else changes but for the commit.  A check that fails is a precise fault, an unloaded
view a view fault; the oldest pending node over the destination's span, or the oldest of a full table, is forced first, and
the append executes again after it.  What the checks test: handles, index views, the KINDs, shapes and types of each
instruction, at most 512 output tiles, no self-overlap but of an identity map.  That operand A of TQNT, TROT and TCOPY may
broadcast, that a TROT whose position view is not of window 5 is a shape fault, and that the span of a KIND 1 view is whole
banks, is the model's reading (log 40, DEDUCED). -/
def Obligations.TileAppends : Prop :=
  ∀ (s : State) (pfx : Pfx) (rm d a b : Nat) (off : Int) (relu z : Bool) (fn : ActFn) (sub : Option Nat)
      (theta : Option Int), isTile s.cur = true →
    let o := originOf off
    let dim := View.dim
    let plainKinds (x : ViewReg) (ys : List ViewReg) : Prop := ∀ v ∈ x :: ys, View.kind v ≠ 2
    let all_ (v d : ViewReg) : Prop := Broadcasts v d [0, 1, 2, 3]
    let row (v d : ViewReg) : Prop := dim v 1 = 1 ∧ dim v 0 = dim d 0 ∧ Broadcasts v d [2, 3]
    let col (v d : ViewReg) : Prop := dim v 1 = dim d 1 ∧ dim v 0 = 1 ∧ Broadcasts v d [2, 3]
    let One (p : ViewReg → ViewReg → Prop) (x : ViewReg) (ys : List ViewReg) : Prop := ∃ y, ys = [y] ∧ p y x
    let Two (p q : ViewReg → ViewReg → Prop) (x : ViewReg) (ys : List ViewReg) : Prop := ∃ y z, ys = [y, z] ∧ p y x ∧ q z x
    let any_ (_ : ViewReg) (_ : List ViewReg) : Prop := True
    let Plain (chk : Except FaultInfo Appended) (srcs : List Nat) (shape : ViewReg → List ViewReg → Prop)
        (plain : Nat → Bool) : Prop := s.Checks (d :: srcs) plainKinds shape any_ plain chk
    let Product (chk : Except FaultInfo Appended) (dk : Nat) (aks : List Nat) : Prop := s.Checks [d, a, b]
      (fun x ys => View.kind x = dk ∧ ∃ y z, ys = [y, z] ∧ View.kind y ∈ aks ∧ View.kind z = 0)
      (fun x ys => ∃ y z, ys = [y, z] ∧ dim y 0 = dim z 0 ∧ dim x 1 = dim y 1 ∧ dim x 0 = dim z 1 ∧
        Broadcasts y x [2, 3] ∧ Broadcasts z x [2, 3])
      (fun _ ys => ∃ y z, ys = [y, z] ∧ View.win y = View.win z ∧ View.win y ∈ [1, 2, 4] ∧
        (View.win y = 1 → BlockRows y ∧ BlockRows z)) (fun _ => false) chk
    let Forces (i : Instr) (ns : List Nat) (afrc ofrc : Nat) : Prop := Answers (exec i s) fun t =>
      t = { s with tiles := t.tiles, pend := s.pend ++ [.demandServe s.cur] } ∧
      (t.tileAt s.cur).demand = some { pc := s.me.pc, fin := .again, nodes := s.inFull s.cur (ns.take 1) } ∧
      (t.tileAt s.cur).afrc = min 255 ((s.tileAt s.cur).afrc + afrc) ∧
      (t.tileAt s.cur).ofrc = min 255 ((s.tileAt s.cur).ofrc + ofrc)
    let Appends (i : Instr) (op : NodeOp) (relu : Bool) (rm : Nat) (chk : Except FaultInfo Appended) : Prop :=
      (∀ f, chk = .error f → exec i s = .next (s.trap f)) ∧
      (s.me.tReg d = none ∨ s.me.tReg a = none → chk = .error { cause := 0x13 }) ∧
      ∀ ap, chk = .ok ap →
        let lap := s.nodesOver s.cur (s.span s.cur true ap.dst)
        (∀ n, lap = [] → (s.tileAt s.cur).freeEntry = some n →
          Answers (exec i s) fun t =>
            t = { s with cores := t.cores, tiles := t.tiles } ∧
            (∃ x, t.nodeAt s.cur n = some x ∧ x.op = op ∧ x.relu = relu ∧ x.rm = rm ∧ x.dst = ap.dst ∧
              x.srcs = ap.srcs.map Prod.fst ∧ x.apc = s.me.pc ∧ x.seq = (s.tileAt s.cur).seq ∧ x.state = .pending ∧
              x.done = 0 ∧ x.want = 0 ∧ x.link = s.linksOf s.cur (ap.srcs.map Prod.fst)) ∧
            (∀ m, m ≠ n → t.nodeAt s.cur m = s.nodeAt s.cur m) ∧ (∀ k, k ≠ s.cur → t.tileAt k = s.tileAt k) ∧
            (t.tileAt s.cur).order = (s.tileAt s.cur).order ++ [n] ∧
            (t.tileAt s.cur).seq = (s.tileAt s.cur).seq + 1 ∧ RegsSame s.me t.me [] ∧
            CommitsAt s.me t.me s.me.npc 0 ∧ OthersSame s t s.cur) ∧
        (lap ≠ [] → s.me.inh = false → Forces i lap 1 0) ∧
        (lap = [] → (s.tileAt s.cur).freeEntry = none → s.me.inh = false → Forces i (s.tileAt s.cur).order 0 1)
    Appends (.tmul pfx rm relu d a b) .mul relu rm (s.checkProduct 0 [0] d a b) ∧
    Appends (.tmulg pfx rm relu d a b) .mul relu rm (s.checkProduct 0 [2] d a b) ∧
    Appends (.tmula pfx d a b) .mula false 0 (s.checkProduct 1 [0, 2] d a b) ∧
    Appends (.tadd pfx rm relu d a b off) (.add o.1 o.2) relu rm (s.checkOrigin d a b off) ∧
    Appends (.tsub pfx rm relu d a b off) (.sub o.1 o.2) relu rm (s.checkOrigin d a b off) ∧
    Appends (.tmule pfx rm relu d a b off) (.mule o.1 o.2) relu rm (s.checkOrigin d a b off) ∧
    Appends (.tscl pfx rm relu d a b) (.scl ((s.sr b).setWidth 32)) relu rm
      (s.checkPlain d [a] (shapeTwo rowShape) anyType allPlain) ∧
    Appends (.tbias pfx rm relu d a b) .bias relu rm (s.checkPlain d [a, b] (shapeTwo rowShape) anyType firstPlain) ∧
    Appends (.tdivr pfx rm d a b) .divr false rm (s.checkPlain d [a, b] (shapeTwo colShape) anyType firstPlain) ∧
    Appends (.tact pfx rm fn d a) (.act fn) false rm (s.checkPlain d [a] (shapeTwo rowShape) anyType allPlain) ∧
    Appends (.texp pfx rm z d a sub) (.exp z sub.isSome) false rm
      (s.checkPlain d (a :: sub.toList) (shapeTwo colShape) anyType firstPlain) ∧
    Appends (.trmax pfx rm d a) .rmax false rm (s.checkPlain d [a] reduceShape anyType nonePlain) ∧
    Appends (.trsum pfx rm d a) .rsum false rm (s.checkPlain d [a] reduceShape anyType nonePlain) ∧
    Appends (.tscan pfx rm d a) .scan false rm
      (s.checkPlain d [a] (fun x ys => ys.all (View.sameDims x)) anyType nonePlain) ∧
    Appends (.tmask pfx rm z d a off) (.mask off z) false rm
      (s.checkPlain d [a] (shapeTwo rowShape) anyType nonePlain) ∧
    Appends (.trot pfx rm z d a b theta) (.rot (theta.getD 10000).toNat z) false rm
      (s.checkPlain d [a, b] rotShape anyType firstPlain) ∧
    Appends (.tqnt pfx d a) .qnt false 0 (s.checkPlain d [a] (shapeTwo rowShape)
      (fun x => View.kind x == 0 && View.win x == 1) allPlain) ∧
    Appends (.tcopy pfx rm d a off) (.copy o.1 o.2) false rm
      (s.checkPlain d [a] (fun x ys => ys.all fun y => fitsOrigin y x off) anyType fun _ => off == 0) ∧
    Appends (.ttrn pfx rm d a) .trn false rm (s.checkPlain d [a] transShape anyType nonePlain) ∧
    Product (s.checkProduct 0 [0] d a b) 0 [0] ∧ Product (s.checkProduct 0 [2] d a b) 0 [2] ∧
    Product (s.checkProduct 1 [0, 2] d a b) 1 [0, 2] ∧
    Plain (s.checkOrigin d a b off) [a, b] (Two all_ fun z x => Moved z x off) (fun i => i == 0 || off == 0) ∧
    Plain (s.checkPlain d [a] (shapeTwo rowShape) anyType allPlain) [a] (One all_) (fun _ => true) ∧
    Plain (s.checkPlain d [a, b] (shapeTwo rowShape) anyType firstPlain) [a, b] (Two all_ row) (fun i => i == 0) ∧
    Plain (s.checkPlain d [a, b] (shapeTwo colShape) anyType firstPlain) [a, b] (Two all_ col) (fun i => i == 0) ∧
    Plain (s.checkPlain d (a :: sub.toList) (shapeTwo colShape) anyType firstPlain) (a :: sub.toList)
      (fun x ys => (sub = none → One all_ x ys) ∧ (sub ≠ none → Two all_ col x ys)) (fun i => i == 0) ∧
    Plain (s.checkPlain d [a] reduceShape anyType nonePlain) [a]
      (One fun y x => dim x 1 = dim y 1 ∧ dim x 0 = 1 ∧ Broadcasts y x [2, 3]) (fun _ => false) ∧
    Plain (s.checkPlain d [a] (fun x ys => ys.all (View.sameDims x)) anyType nonePlain) [a]
      (One fun y x => View.word y 1 = View.word x 1) (fun _ => false) ∧
    Plain (s.checkPlain d [a] (shapeTwo rowShape) anyType nonePlain) [a] (One all_) (fun _ => false) ∧
    Plain (s.checkPlain d [a, b] rotShape anyType firstPlain) [a, b]
      (Two (fun y x => all_ y x ∧ dim y 0 % 2 = 0 ∧ dim y 0 = dim x 0)
        fun z x => col z x ∧ View.kind z = 0 ∧ View.win z = 5) (fun i => i == 0) ∧
    s.Checks [d, a] plainKinds (One all_) (fun x _ => View.kind x = 0 ∧ View.win x = 1) (fun _ => true)
      (s.checkPlain d [a] (shapeTwo rowShape) (fun x => View.kind x == 0 && View.win x == 1) allPlain) ∧
    Plain (s.checkPlain d [a] (fun x ys => ys.all fun y => fitsOrigin y x off) anyType fun _ => off == 0) [a]
      (One fun y x => Moved y x off) (fun _ => off == 0) ∧
    Plain (s.checkPlain d [a] transShape anyType nonePlain) [a]
      (One fun y x => dim x 1 = dim y 0 ∧ dim x 0 = dim y 1 ∧ Broadcasts y x [2, 3]) (fun _ => false)

/-- R226, R260 to R262, R225: TFORCE and TFORCE.all demand the pending output tiles of their region, TSTORE those that it reads
and the store of its region, after the oldest node over its destination has been forced in full; each commits when its demand
completes.  TDROP and TDROP.all discard pending nodes, nothing evaluated. -/
def Obligations.TileForces : Prop :=
  ∀ (s : State) (pfx : Pfx) (rm d a : Nat), isTile s.cur = true →
    let Demands (i : Instr) (dm : Demand) : Prop := Answers (exec i s) fun t =>
      t = { s with tiles := t.tiles, pend := s.pend ++ [.demandServe s.cur] } ∧
      (t.tileAt s.cur).demand = some dm ∧ (t.tileAt s.cur).nodes = (s.tileAt s.cur).nodes ∧
      (t.tileAt s.cur).order = (s.tileAt s.cur).order ∧ ∀ k, k ≠ s.cur → t.tileAt k = s.tileAt k
    (s.me.inh = false →
      (∀ v, s.regionOf a = .ok (some v) →
        Demands (.tforce pfx a) { pc := s.me.pc, fin := .commit, nodes := s.regionNodes s.cur v }) ∧
      Demands (.tforceAll pfx) { pc := s.me.pc, fin := .commit, nodes := s.inFull s.cur (s.tileAt s.cur).order } ∧
      ∀ x y, s.checkStore d a = .ok (x, y) →
        let lap := s.nodesOver s.cur (s.span s.cur true x)
        (lap = [] → Demands (.tstore pfx rm d a)
          { pc := s.me.pc, fin := .commit, nodes := s.regionNodes s.cur y, store := some (x, y, rm) }) ∧
        (lap ≠ [] → Demands (.tstore pfx rm d a) { pc := s.me.pc, fin := .again, nodes := s.inFull s.cur (lap.take 1) })) ∧
    (s.regionOf a = .ok none → (Answers (exec (.tforce pfx a) s) fun t => Commits s t [] 0) ∧
      Answers (exec (.tdrop pfx a) s) fun t => Commits s t [] 0) ∧
    (∀ f, s.regionOf a = .error f → exec (.tforce pfx a) s = .next (s.trap f) ∧
      exec (.tdrop pfx a) s = .next (s.trap f)) ∧
    (∀ f, s.checkStore d a = .error f → exec (.tstore pfx rm d a) s = .next (s.trap f)) ∧
    (∀ v, s.regionOf a = .ok (some v) → Answers (exec (.tdrop pfx a) s) fun t =>
      t = { s with pend := s.pend ++ [.tdropService s.cur (s.dropSet s.cur v)] }) ∧
    (Answers (exec (.tdropAll pfx) s) fun t =>
      t = { s with pend := s.pend ++ [.tdropService s.cur (s.tileAt s.cur).order] }) ∧
    ∀ ns, (∀ n ∈ ns, (s.nodeAt s.cur n).isSome = true) → ns.Nodup → (s.tileAt s.cur).drop ≤ 255 →
      Performs s (.tdropService s.cur ns) fun u =>
        (∀ n, (u.nodeAt s.cur n).isSome = ((s.nodeAt s.cur n).isSome && !ns.contains n)) ∧
        (u.tileAt s.cur).order = (s.tileAt s.cur).order.filter (fun n => !ns.contains n) ∧
        (u.tileAt s.cur).drop = min 255 ((s.tileAt s.cur).drop + ns.length) ∧ RegsSame s.me u.me [] ∧
        CommitsAt s.me u.me s.me.npc 0 ∧ OthersSame s u s.cur ∧ SameMemory s u

/-- R225 to R227, R230 to R233, R236, R39, R42, R43, R248 to R259: the sequencer serves a demand with steps of its own tile that
end in the demand's completion: the oldest node first, the output tiles that the demand names, closed over scale blocks and not
done, and of every older linked node those that lie over what they read, then each output tile of a TSTORE, each evaluated and
then released with its group in ascending order, and no other; each element of an evaluated output tile has the value
of its node's operation, with `.relu` applied after it; the values enter the reserve and reach memory at the release alone: in
the format of windows 2 to 5 at the places of their elements, in window 1 with every scale block that the group touches
requantized as a whole, in an accumulator added with one rounding, an exact zero sum giving +0; a fault ends the demand and is
trapped when it completes; a bead that an EVU's reply parks after the demand takes its region with it (R302). -/
def Obligations.DemandSteps : Prop :=
  ∀ (s : State) (k p q : Nat) (dm : Demand) (n : Node), (s.tileAt k).demand = some dm →
    let x := n.dst.desc
    let grp := (s.tileAt k).reserve.filter fun e => e.node == p && (s.blockClose k n.dst [q]).contains e.out
    let base := s.viewLoc k n.dst
    let elems := groupElems base x grp
    let hit (b : Nat) : Prop := ∃ e ∈ elems, e.1 / 256 = b
    (Performs s (.demandServe k) fun u => SameMemory s u ∧ u.cores = s.cores ∧
      (∀ m y, s.nodeAt k m = some y → ∃ z, u.nodeAt k m = some z ∧ z = { y with want := z.want, held := z.held, state := z.state }) ∧
      ∃ (f : Nat → List Ev) (out : List Ev),
        u.pend = (s.tileAt k).order.flatMap f ++ out ++ [.demandComplete k] ++ s.pend ∧ s.Walks u k dm f ∧
        (∀ m, s.nodeAt k m = none → f m = []) ∧ (∀ m y, s.nodeAt k m = some y → s.StepsOf k m y.dst (f m)) ∧
        (dm.store = none → out = []) ∧ ∀ x, dm.store = some x → s.StepsOf k 128 x.1 out ∧
          ∀ q, q < View.tileCount x.1.desc → Ev.outputTileEvaluate k 128 q ∈ out) ∧
    (∀ vals, s.evalTile k n q = .ok vals → ((n.op = .mul ∨ n.op = .mula) → n.srcs.length = 2) →
      let t := View.tileAt x q
      vals.length = (View.tileRows x t).length * (View.tileCols x t).length ∧
      ∀ i j r c, (View.tileRows x t)[i]? = some r → (View.tileCols x t)[j]? = some c →
        ∃ v, s.TileValue k n q t.i3 t.i2 r c v ∧
          vals[i * (View.tileCols x t).length + j]? = some (BitVec.ofNat 32 (if n.relu then relu32 v else v))) ∧
    (∀ xs ys : List Int, xs.length = ys.length →
      (contribution { nan := false, vals := xs.map Val.ofInt, scale := 0 } { nan := false, vals := ys.map Val.ofInt, scale := 0 }).cmp
        (Val.ofInt ((xs.zip ys).map fun e => e.1 * e.2).sum) = 0) ∧
    (s.stepNode k p dm = some n → dm.fault = none →
      (∀ vals, s.evalTile k n q = .ok vals → (s.tileAt k).residueMiss ≤ 2 →
        Performs s (.outputTileEvaluate k p q) fun u => SameMemory s u ∧ u.cores = s.cores ∧
          (u.tileAt k).reserve = (s.tileAt k).reserve ++ [{ node := p, out := q, vals := vals }]) ∧
      (∀ f, s.evalTile k n q = .error f → Performs s (.outputTileEvaluate k p q) fun u =>
        SameMemory s u ∧ u.cores = s.cores ∧ (u.tileAt k).reserve = [] ∧
        ∃ d1 g, (u.tileAt k).demand = some d1 ∧ d1.fault = some g ∧ g.cause = 0x19 ∧ g.late = true ∧
          g.cpc = some n.apc) ∧
      (∀ ps, View.kind x ≠ 1 → View.win x ≠ 1 → s.checkWrites k (grp.flatMap (plainWrites n)) = .ok ps →
        Performs s (.outputTileRelease k p q) fun u => u.cores = s.cores ∧
          (∀ y, (∀ w ∈ ps, ¬ s.Stores w.1 w.2.length y) → u.byte y = s.byte y) ∧
          ∀ w ∈ ps, s.moves = [] → (∀ v ∈ ps, v ≠ w → v.1 + v.2.length ≤ w.1 ∨ w.1 + w.2.length ≤ v.1) →
            u.bytes w.1 w.2.length = w.2) ∧
      (View.kind x = 1 → s.moves = [] → (elems.map Prod.fst).Nodup →
        Performs s (.outputTileRelease k p q) fun u => u.cores = s.cores ∧
          (∀ y, (∀ e ∈ grp, ∀ w ∈ tileElems x e.out e.vals, y < base + 4 * w.1 ∨ base + 4 * w.1 + 4 ≤ y) →
            u.byte y = s.byte y) ∧
          ∀ e ∈ grp, ∀ w ∈ tileElems x e.out e.vals,
            let z := ((b32.decode (leNat (s.bytes (base + 4 * w.1) 4))).add 0 (b32.decode w.2.toNat)).1
            u.bytes (base + 4 * w.1) 4 = leBytes 4 (if z.isZero then 0 else (b32.round 0 z).1)) ∧
      ∀ scale : Nat → Nat, View.kind x ≠ 1 → View.win x = 1 → s.moves = [] → (elems.map Prod.fst).Nodup →
        (∀ b, hit b → s.scaleLoc (scratchOf (256 * b)).1 (scratchOf (256 * b)).2 = some (scale b) ∧
          s.poisoned (scale b) 1 = false ∧ (∀ j, j < 256 → s.poisoned (256 * b + j) 1 = false) ∧
          (∀ c, hit c → (c ≠ b → scale c ≠ scale b) ∧ (scale c < 256 * b ∨ 256 * b + 256 ≤ scale c)) ∧
          ∀ g, g / 8 = b → s.writePlace (s.evalIssuer k) (padd (View.base x) ((32 * g : Int) - base)) 32 = .ok (32 * g)) →
        Performs s (.outputTileRelease k p q) fun u => u.cores = s.cores ∧
          (∀ b, hit b →
            let r := requantize ((List.range 256).map fun j =>
              match elems.find? fun e => e.1 == 256 * b + j with
              | some e => b32.decode e.2.toNat
              | none => b32.decode (decodeDM8 (s.byte (256 * b + j)) (s.byte (scale b))).1)
            (∀ j, j < 256 → u.byte (256 * b + j) = r.1.getD j 0) ∧ u.byte (scale b) = r.2.1) ∧
          ∀ y, ¬ hit (y / 256) → (∀ b, hit b → y ≠ scale b) → u.byte y = s.byte y) ∧
    (dm.fault = none → Performs s (.demandComplete k) fun u => SameMemory s u ∧ OthersSame s u k ∧
      (u.tileAt k).demand = none ∧ (u.tileAt k).nodes = (s.tileAt k).nodes ∧
      (dm.fin = .commit → u.coreAt k = (s.coreAt k).commit) ∧ (dm.fin = .again → u.coreAt k = s.coreAt k) ∧
      (dm.fin = .park →
        let t := (s.modTile k fun t => { t with demand := none, reserve := [] }).parkBead k dm.pc
        (dm.region = none → u = t) ∧
        ∀ r, dm.region = some r →
          ((t.slotAt r.2.bead).map BeadSlot.use = some .parked →
            u = (t.modDie r.1 fun d => { d with regions := d.regions ++ [r.2] }).push [.evuRecomputeSpawn r.2.ctx]) ∧
          ((t.slotAt r.2.bead).map BeadSlot.use ≠ some .parked → u = t))) ∧
    ∀ f, dm.fault = some f → Performs s (.demandComplete k) fun u =>
      let s1 := s.modTile k fun t => { t with demand := none, reserve := [] }
      (dm.fin ≠ .park → u = s1.trapEntry k f dm.pc) ∧
      ∀ b, dm.fin = .park → (s.coreAt k).bead = some b → u = (s1.removePark b).trapEntry k f dm.pc

/-! ## Beads -/

/-- R138, R51, R147, R48: SPAWN reads the record at s[A] and takes a free slot of the rod that it names; the child, its PRI and
ROD those of the rod and its SPN 0, is ready at the tail at once when it has no join word, else once the join word has been
incremented at its bank (where a heap window lays it over two home units, in both: log 58, DESIGN CHOICE).  SPN counts the spawn and R in the spawner's record is cleared, every other slot as before; nothing is
written where a check fails. -/
def Obligations.Spawning : Prop :=
  ∀ (s : State) (pfx : Pfx) (a : Nat) (src : Src), isSteward s.cur = false →
    let p := s.sr a
    let s1 := s.noteRange (s.issuer s.cur .c) p 64
    (p.toNat % 64 ≠ 0 → exec (.spawn pfx a src) s = .next (s.trap { cause := 0x06, va := p })) ∧
    (∀ bs, p.toNat % 64 = 0 → s.loadC p 64 = .ok bs →
      let x := recOfWords (wordsOf 8 bs)
      (s.rodOfIndex s.cur (s.me.src src).toNat = none → exec (.spawn pfx a src) s = .next (s1.trap { cause := 0x0E })) ∧
      ∀ r rod, s.rodOfIndex s.cur (s.me.src src).toNat = some (r, rod) →
        (worldFits rod x = false → exec (.spawn pfx a src) s = .next (s1.trap { cause := 0x09 })) ∧
        (∀ f, worldFits rod x = true → s1.probeJoin x.pjoin = .error f →
          exec (.spawn pfx a src) s = .next (s1.trap f)) ∧
        (∀ o, worldFits rod x = true → s1.probeJoin x.pjoin = .ok o → rod.freeSlot? = none →
          exec (.spawn pfx a src) s = .next (s1.trap { cause := 0x0F })) ∧
        ∀ n, worldFits rod x = true → rod.freeSlot? = some n →
          let b : SlotId := { unit := unitOf s.cur, rod := r, slot := n }
          let child := fitRecord r rod { x with w3 := setFld x.w3 0 32 0 }
          let Spawned (t : State) : Prop := OthersSame s t s.cur ∧ SameMemory s t ∧
            (∀ c, c ≠ b → t.slotAt c = (s.clearR s.cur).slotAt c) ∧
            (∀ c y, s.me.bead = some c → s.slotAt c = some y →
              t.slotAt c = some { y with record := { y.record with w3 := setFld y.record.w3 34 1 0 } }) ∧
            t.me = { s1.me with
              spn := if s.me.spn = BitVec.allOnes 32 then s.me.spn else s.me.spn + 1
              pc := s.me.npc, icnt := s.me.icnt + 1, windows := s.me.nextWin, chkRun := 0 }
          (x.pjoin = 0 → Answers (exec (.spawn pfx a src) s) fun t => Spawned t ∧
            t.slotAt b = some { record := child, use := .ready, uid := s.nextBead } ∧
            (t.rodAt b.unit r).map Rod.ready = some (rod.ready ++ [n]) ∧ t.pend = s.pend ++ [.pickupGrant b.unit]) ∧
          ∀ loc, x.pjoin ≠ 0 → s1.probeJoin x.pjoin = .ok (some loc) →
            Answers (exec (.spawn pfx a src) s) fun t => Spawned t ∧
              t.slotAt b = some { record := child, use := .reserved, uid := s.nextBead } ∧
              (t.rodAt b.unit r).map Rod.ready = some rod.ready ∧
              t.pend = s.pend ++ [.bankJoinIncrement
                { core := s.cur, part := s.partOf s.cur, world := s.me.world, va := x.pjoin, loc := loc, cpc := s.me.pc,
                  bead := s.beadAddr s.cur, child := some b }]) ∧
    ∀ j c y, j.child = some c → s.slotAt c = some y → s.joinRefused j = none → s.spanPoisoned j.loc 16 = false →
      s.joinCount j.loc < 2 ^ 32 - 1 → Performs s (.bankJoinIncrement j) fun u =>
        s.Holds (s.runsFrom j.loc 4) (leBytes 4 (s.joinCount j.loc + 1)) u ∧
        (j.loc % 16 = 0 → s.reservedBytes j.loc = none → u.joinCount j.loc = s.joinCount j.loc + 1 ∧
          u.slotAt c = some { y with use := .ready }) ∧ (u.slotAt c).map BeadSlot.use = some .ready ∧
        Ev.pickupGrant c.unit ∈ u.pend ∧ u.cores = s.cores

/-- R139, R140, R136, R47: END frees the slot of a bead that holds no bank, discards its pending nodes where bit D of its record
allows it (a bead that holds a bank, or has pending nodes that D does not let go, faults at the END), decrements its join word
and leaves its core idle; YIELD writes the next address and SPN to the record, which is ready again at the tail of its rod.
That the decrement is made before the core's next pickup is the model's order of device steps (log 1, DESIGN CHOICE). -/
def Obligations.EndingAndYielding : Prop :=
  ∀ (s : State) (pfx : Pfx) (a : Nat) (b : SlotId), isSteward s.cur = false → s.me.bead = some b →
    let j := if a = 0 then s.myRecord.pjoin else s.sr a
    let mayEnd : Prop := s.pendingNodes = [] ∨ bitOf s.myRecord.w3 32 = true
    let Left (t : State) : Prop := (t.coreAt s.cur).mode = .idle ∧ (t.coreAt s.cur).bead = none ∧
      (t.coreAt s.cur).icnt = s.me.icnt + 1 ∧ OthersSame s t s.cur ∧ SameMemory s t
    (∀ f, s.probeJoin j = .error f → exec (.endBead pfx a) s = .next (s.trap f)) ∧
    (∀ o, s.probeJoin j = .ok o →
      (s.me.a ≠ [] → exec (.endBead pfx a) s = .next (s.trap { cause := 0x11 })) ∧
      (s.me.a = [] → ¬ mayEnd → exec (.endBead pfx a) s = .next (s.trap { cause := 0x12 })) ∧
      (s.me.a = [] → mayEnd → Answers (exec (.endBead pfx a) s) fun t => Left t ∧ t.slotAt b = none ∧
        (∀ n ∈ s.pendingNodes, t.nodeAt s.cur n = none) ∧
        t.pend = s.pend ++ .overflowListDrain b.unit :: (match o with
          | some loc => [.bankJoinDecrement
              { core := s.cur, part := s.partOf s.cur, world := s.me.world, va := j, loc := loc, cpc := s.me.pc,
                bead := s.beadAddr s.cur, child := none }]
          | none => []) ++ [.pickupGrant (unitOf s.cur)])) ∧
    (s.me.inh = false →
      (s.me.a ≠ [] → exec (.yield pfx) s = .next (s.trap { cause := 0x11 })) ∧
      (s.me.a = [] → s.pendingNodes ≠ [] → Answers (exec (.yield pfx) s) fun t =>
        t = { s with tiles := t.tiles, pend := s.pend ++ [.demandServe s.cur] } ∧
        (t.tileAt s.cur).demand =
          some { pc := s.me.pc, fin := .again, nodes := s.inFull s.cur s.pendingNodes }) ∧
      ∀ r x, s.me.a = [] → s.pendingNodes = [] → s.rodAt b.unit b.rod = some r → Map.find? r.slots b.slot = some x →
        Answers (exec (.yield pfx) s) fun t => Left t ∧ (t.rodAt b.unit b.rod).map Rod.ready = some (r.ready ++ [b.slot]) ∧
          t.slotAt b = some { x with
            record := { x.record with code := s.me.npc, w3 := setFld x.record.w3 0 32 s.me.spn.toNat }
            use := .ready })

/-- R51, R52, R129: a join word's count falls by one at its bank, an underflow is recorded and writes no join word; from 1 to 0
its continuation is enqueued, or each partition whose root join word it is begins its retirement and no continuation follows;
a continuation record enters its rod, where the write sets D of its granules (R165), or waits on the overflow list until a slot
of its rod is free.  That each partition with
the same root join word retires is the model's reading (log 45, DEDUCED), and that a continuation's record is read at any
alignment (log 52), that a waiting record takes the lowest free place of the list (log 14) and that a join word over two home units
is changed in both (log 58) are its choices (DESIGN CHOICE). -/
def Obligations.JoinsAndContinuations : Prop :=
  ∀ (s : State),
    (∀ j, s.joinRefused j = none → s.spanPoisoned j.loc 16 = false →
      let n := s.joinCount j.loc
      let cont : Word := BitVec.ofNat 64 (leNat (s.bytes (j.loc + 8) 8))
      (n = 0 → Performs s (.bankJoinDecrement j) fun u =>
        u = (s.spanCount j.loc 16).workRecord j.core j.part j.bead
          { cause := 0x30, va := j.va, cpc := some j.cpc }) ∧
      (n ≠ 0 → Performs s (.bankJoinDecrement j) fun u =>
        s.Holds (s.runsFrom j.loc 4) (leBytes 4 (n - 1)) u ∧
        (j.loc % 16 = 0 → s.reservedBytes j.loc = none → u.joinCount j.loc = n - 1 ∧ u.units = s.units) ∧ u.cores = s.cores ∧
        (n ≠ 1 → u.parts = s.parts) ∧
        (n = 1 → s.rootParts j.loc = [] → u.parts = s.parts ∧
          (cont ≠ 0 → j.loc % 16 = 0 → s.reservedBytes j.loc = none → s.reservedBytes (j.loc + 8) = none →
            Ev.continuationEnqueue j.core j.part cont ∈ u.pend)) ∧
        (n = 1 → ∀ p x, p ∈ s.rootParts j.loc → s.partAt p = some x →
          (x.phase = .running → (u.partAt p).map Part.phase = some .quiesce ∧
            Ev.retirementQuiesceComplete p ∈ u.timers) ∧
          ∀ c, Ev.continuationEnqueue j.core j.part c ∈ u.pend → Ev.continuationEnqueue j.core j.part c ∈ s.pend))) ∧
    (∀ core part cont bs rod,
      let s1 := s.noteRange (s.workIssuer core part) cont 64
      s1.readWhole (s1.workIssuer core part) cont 64 = .ok bs →
      let x := recOfWords (wordsOf 8 bs)
      let r := fld x.w3 48 4
      let u := unitOf core
      s.rodAt u r = some rod → rod.part = part → worldFits rod x = true →
      (∀ n, (∀ o ∈ (s.unitAt u).overflow, o.rod ≠ r) → rod.freeSlot? = some n →
        Performs s (.continuationEnqueue core part cont) fun t =>
          t.slotAt { unit := u, rod := r, slot := n } =
            some { record := fitRecord r rod x, use := .ready, uid := s.nextBead } ∧
          (t.rodAt u r).map Rod.ready = some (rod.ready ++ [n]) ∧ t.pend = s.pend ++ [.pickupGrant u] ∧
          (∀ g ∈ granules (s.slotAddr { unit := u, rod := r, slot := n }).toNat 64, g ∈ (t.unitAt u).wrote) ∧
          t.cores = s1.cores ∧ SameMemory s t) ∧
      (rod.freeSlot? = none → (s.unitAt u).overflow.length < (s.parkCaps u).2 →
        Performs s (.continuationEnqueue core part cont) fun t =>
          (∃ n, (∀ o ∈ (s.unitAt u).overflow, o.place ≠ n) ∧
            (∀ m, m < n → ∃ o ∈ (s.unitAt u).overflow, o.place = m) ∧
            (t.unitAt u).overflow = (s.unitAt u).overflow ++ [{ rod := r, record := fitRecord r rod x, place := n }]) ∧
          (t.unitAt u).rods = (s.unitAt u).rods ∧ t.cores = s1.cores ∧ SameMemory s t)) ∧
    ∀ unit o rest rod n, (s.unitAt unit).overflow = o :: rest → s.rodAt unit o.rod = some rod → rod.freeSlot? = some n →
      Performs s (.overflowListDrain unit) fun t => (t.unitAt unit).overflow = rest ∧
        t.slotAt { unit := unit, rod := o.rod, slot := n } =
          some { record := refitRecord o.rod rod o.record, use := .ready, uid := s.nextBead } ∧
        (t.rodAt unit o.rod).map Rod.ready = some (rod.ready ++ [n]) ∧ t.cores = s.cores ∧ SameMemory s t

/-- R130 to R133, R84: the next core in turn that can take a bead pops the head of the candidate rod with the lowest priority
value, of several the lowest-numbered (of the highest-numbered candidate at every 64th pickup), and starts with the record's world, address and arguments, every other
register 0, no view loaded and no bank held.  A record of the other world starts no run (log 54). -/
def Obligations.Pickup : Prop :=
  ∀ (s : State) (unit i j k r slot : Nat) (rest : List Nat) (rod : Rod) (y : BeadSlot),
    let ks := unitCores unit
    let u := s.unitAt unit
    let at_ (m : Nat) := (u.lastGrant + 1 + m) % ks.length
    let pkc := Map.get u.pkc 0 ((s.partOf k).getD 255)
    let b : SlotId := { unit := unit, rod := r, slot := slot }
    j < ks.length → i = at_ j → (∀ m, m < j → s.canPick (ks.getD (at_ m) 420) = false) → k = ks.getD i 420 →
    s.canPick k = true → r = s.selectRod k pkc.toNat → s.rodAt unit r = some rod → rod.ready = slot :: rest →
    Map.find? rod.slots slot = some y →
    (pkc.toNat % 64 = 63 → ∀ q ∈ s.candRods k, q ≤ r) ∧
    (pkc.toNat % 64 ≠ 63 → ∀ q ∈ s.candRods k, ∀ z, s.rodAt unit q = some z → rod.prio < z.prio ∨ (rod.prio = z.prio ∧ r ≤ q)) ∧
    (worldFits rod y.record = true → Performs s (.pickupGrant unit) fun t =>
      let c := t.coreAt k
      c.mode = .running ∧ c.pc = y.record.code ∧ c.bead = some b ∧ c.world = bitOf y.record.w3 33 ∧
      c.spn = y.record.w3.setWidth 32 ∧ c.sReg 1 = y.record.arg0 ∧ c.sReg 2 = y.record.arg1 ∧ c.sReg 3 = y.record.arg2 ∧
      c.sReg 4 = y.record.arg3 ∧ c.sReg 5 = y.record.frame ∧ (∀ n, 6 ≤ n → c.sReg n = 0) ∧ (∀ n, c.vReg n = 0) ∧
      (∀ n, c.pReg n = 0) ∧ (∀ n, c.tReg n = none) ∧ (∀ n, c.aReg n = none) ∧ c.flg = 0 ∧ c.icnt = 0 ∧ c.inh = false ∧
      t.slotAt b = some { y with use := .running k } ∧ (t.rodAt unit r).map Rod.ready = some rest ∧
      (t.unitAt unit).lastGrant = i ∧ Map.get (t.unitAt unit).pkc 0 ((s.partOf k).getD 255) = pkc + 1 ∧
      t.pend = s.pend ++ [.headBufferRefill unit r, .pickupGrant unit] ∧ OthersSame s t k ∧ SameMemory s t) ∧
    (worldFits rod y.record = false → Performs s (.pickupGrant unit) fun t =>
      t.cores = s.cores ∧ (t.slotAt b).map BeadSlot.use = some .lost ∧ (t.rodAt unit r).map Rod.ready = some rest) ∧
    Performs s (.headBufferRefill unit r) fun t => t.rodAt unit r = some { rod with
      buffered := if rod.buffered < min 4 rod.ready.length then rod.buffered + 1 else rod.buffered } ∧
      t.cores = s.cores ∧ SameMemory s t

/-! ## Barriers and copies -/

/-- R319 to R323: BARCFG configures a register whose rectangle lies in the partition, phase 0; ARRIVE, once the copies of its tile
are complete where it covers X and its tile's K requests where it covers K, sets ARR and sends the arrival, BWAIT waits while ARR is set, BTRY writes ARR and PH; a router forwards once what it waits for has arrived, and the
release clears ARR and advances PH of a register with the same key. -/
def Obligations.Barriers : Prop :=
  ∀ (s : State) (pfx : Pfx) (sc : Scope) (pm : PathMask) (d a : Nat) (q : BarMsg),
    let w := s.sr a
    let r := s.barAt s.cur d
    let Sets (i : Instr) (x : BarReg) (es : List Ev) : Prop := Answers (exec i s) fun t => t.barAt s.cur d = x ∧
      (∀ b, b ≠ d → t.barAt s.cur b = s.barAt s.cur b) ∧ (∀ k, k ≠ s.cur → t.tileAt k = s.tileAt k) ∧
      t.pend = s.pend ++ es ∧ t = { s with cores := t.cores, tiles := t.tiles, pend := t.pend } ∧
      RegsSame s.me t.me [] ∧ CommitsAt s.me t.me s.me.npc 0 ∧ OthersSame s t s.cur
    (r.arr = true ∨ BarCfg.wellFormed w = false → exec (.barcfg pfx d a) s = .next (s.trap { cause := 0x1B })) ∧
    (r.arr = false → BarCfg.wellFormed w = true → s.rectInside s.cur w = false →
      exec (.barcfg pfx d a) s = .next (s.trap { cause := 0x07 })) ∧
    (r.arr = false → BarCfg.wellFormed w = true → s.rectInside s.cur w = true →
      Sets (.barcfg pfx d a) { arr := false, cfg := true, ph := 0, cfgw := w.setWidth 37 } []) ∧
    (r.cfg = false → ∀ i ∈ [Instr.arrive pfx sc pm d, .bwait pfx sc d, .btry pfx sc a d],
      exec i s = .next (s.trap { cause := 0x1B })) ∧
    (r.cfg = true → takesPart (r.key s.cur) s.cur = false →
      exec (.arrive pfx sc pm d) s = .next (s.trap { cause := 0x1B })) ∧
    (r.cfg = true → takesPart (r.key s.cur) s.cur = true →
      let waits : Prop := (pm.x = true ∧ ∃ e ∈ s.copies, e.2.core = s.cur) ∨ (pm.k = true ∧ ∃ q ∈ s.requests, q.core = s.cur)
      (r.arr = true ∨ waits → exec (.arrive pfx sc pm d) s = .next s) ∧
      (r.arr = false → ¬ waits → Sets (.arrive pfx sc pm d) { r with arr := true }
        [.barrierArrivalMessage { tile := s.cur, b := d, key := r.key s.cur, odd := r.ph.toNat % 2 == 1, via := .own }])) ∧
    (r.cfg = true → (r.arr = true → exec (.bwait pfx sc d) s = .next s) ∧
      (r.arr = false → Answers (exec (.bwait pfx sc d) s) fun t => Commits s t [] 0) ∧
      PutsScalar (.btry pfx sc a d) s a (BitVec.ofNat 64 (r.arr.toNat * 2 ^ 32 + r.ph.toNat))) ∧
    (let o := s.routerAt q.tile q.b
     let x : Router := { o with
       key := some (q.key, q.odd), own := o.own || q.via == .own, east := o.east || q.via == .east,
       south := o.south || q.via == .south }
     Performs s (.barrierArrivalMessage q) fun t => t.cores = s.cores ∧ SameMemory s t ∧
       (∀ k b, t.barAt k b = s.barAt k b) ∧
       (o.key = none ∨ o.key = some (q.key, q.odd) → t.routerAt q.tile q.b = x ∧
         t.pend = s.pend ++ if x.complete q.key q.tile then [forwardArrival q] else []) ∧
       (o.key ≠ none → o.key ≠ some (q.key, q.odd) → t.routerAt q.tile q.b = { o with later := o.later ++ [q] } ∧
         t.pend = s.pend)) ∧
    Performs s (.barrierReleaseMessage q) fun t =>
      let x := s.barAt q.tile q.b
      t.cores = s.cores ∧ SameMemory s t ∧
      t.barAt q.tile q.b = (if takesPart q.key q.tile = true ∧ x.cfg = true ∧ x.key q.tile = q.key then
        { x with arr := false, ph := x.ph + 1 } else x) ∧
      (tileX q.tile + 1 < q.key.x0 + q.key.w → q.key.x0 ≤ tileX q.tile →
        q.key.rmask.toNat.testBit (tileY q.tile - q.key.y0) = true →
        Ev.barrierReleaseMessage { q with tile := q.tile + 1 } ∈ t.pend)

/-- R324, R325, R326, R328, R331, R83: PUT, PUTS, GET and RPUT check their operands, take one of 64 places and commit; a copy goes
between the issuing core and the tile at its hops, which hold the scratchpads that its pointers name, the remote one that of the
destination, for a GET that of the source; a hop outside the rectangle, or from a remote pointer of another space than 0x4, is an
address fault.  CPWAIT waits until the tile has none and reports the status once. -/
def Obligations.CopyIssue : Prop :=
  ∀ (s : State) (pfx : Pfx) (d a b : Nat) (dx dy : Int),
    let mine := s.copies.filter fun e => e.2.core == s.cur
    let covered (o : Outcome) : Bool := o.kind == .copy && o.core == s.cur
    let status := (s.outcomes.filter covered).foldl (fun b o => b ||| o.bits) 0
    let Issues (i : Instr) (kind : CopyKind) (clears : Bool) : Prop :=
      let s0 := if clears then s.clearR s.cur else s
      (∀ f, s.checkCopy kind d a b dx dy = .error f → exec i s = .next (s.trap f)) ∧
      ∀ c, s.checkCopy kind d a b dx dy = .ok c →
        (64 ≤ mine.length → exec i s = .next s) ∧
        (mine.length < 64 → Answers (exec i s) fun t => Map.find? t.copies s.nextCopy = some c ∧
          (∀ n, n ≠ s.nextCopy → Map.find? t.copies n = Map.find? s.copies n) ∧ t.nextCopy = s.nextCopy + 1 ∧
          t.pend = s.pend ++ [if c.len = 0 then .copyLineAck s.nextCopy else .copyLineLand s.nextCopy] ∧
          RegsSame s.me t.me [] ∧ CommitsAt s.me t.me s.me.npc 0 ∧ OthersSame s t s.cur ∧ SameMemory s t ∧
          t.units = s0.units)
    Issues (.put pfx d a b dx dy) .put true ∧ Issues (.puts pfx d a b dx dy) .puts true ∧
    Issues (.get pfx d a b dx dy) .get false ∧ Issues (.rput pfx d a b dx dy) .rput true ∧
    (∀ kind,
      let x := s.tileAt s.cur
      let remote := if kind = .get then s.sr a else s.sr d
      let inside : Prop := 0 ≤ (x.idx : Int) + dx ∧ (x.idx : Int) + dx < x.idw ∧ 0 ≤ (x.idy : Int) + dy ∧ (x.idy : Int) + dy < x.idh
      (¬ (dx = 0 ∧ dy = 0) → (spaceOf remote ≠ 4 ∨ ¬ inside) →
        s.checkCopy kind d a b dx dy = .error (faultAt (s.issuer s.cur .x) 0x07 remote)) ∧
      ∀ c, s.checkCopy kind d a b dx dy = .ok c →
        let far := if kind = .get then c.srcCore else c.dstCore
        c.kind = kind ∧ c.core = s.cur ∧ (if kind = .get then c.dstCore else c.srcCore) = s.cur ∧
        (dx = 0 ∧ dy = 0 → far = s.cur) ∧
        (¬ (dx = 0 ∧ dy = 0) → spaceOf remote = 4 ∧ inside ∧
          far = 24 * ((tileY s.cur : Int) + dy).toNat + ((tileX s.cur : Int) + dx).toNat)) ∧
    (∀ kind c, s.checkCopy kind d a b dx dy = .ok c → c.src = s.sr a ∧ c.dst = s.sr d ∧ c.len = fld (s.sr b) 0 32 ∧
      c.pos = 0 ∧ c.src.toNat % 32 = 0 ∧ c.dst.toNat % 32 = 0 ∧
      (kind ≠ .rput → c.len % 32 = 0 ∧ c.len ≤ 0x1000000) ∧ (kind = .rput → c.len ≤ 4088) ∧
      (kind = .puts → c.dec ≠ 0 ∧ c.cnt = s.sr (d + 1) ∧ c.cnt.toNat % 8 = 0)) ∧
    (mine ≠ [] → exec (.cpwait pfx d) s = .next s) ∧
    (mine = [] → Answers (exec (.cpwait pfx d) s) fun t =>
      t = { s with cores := t.cores, outcomes := s.outcomes.filter fun o => !covered o } ∧ OthersSame s t s.cur ∧
      SameMemory s t ∧ RegsSame s.me t.me [(.s, d)] ∧
      t.sr d = (if d = 0 then 0 else status.setWidth 64) ∧ CommitsAt s.me t.me s.me.npc 0)

/-- R325, R326, R328, R329: a line of a copy goes from its source to its destination and nowhere else, a line that fails only
sets its status; the last acknowledgement ends a PUT or a GET, while a PUTS then subtracts its decrement from its counter in one
operation, and an RPUT puts its message (its header, the bytes that it has read, zeros) into the ring at TAIL, wrapping at CAP,
and then advances TAIL and sets F.  That lines are counted from the copy's first byte (log 62) and that a counter over two home
units is changed in both (log 58) are the model's choices (DESIGN CHOICE). -/
def Obligations.CopyDelivery : Prop :=
  ∀ (s : State) (id : Nat) (c : Copy), Map.find? s.copies id = some c →
    let n := min 64 (c.len - c.pos)
    let si := s.copyIssuer c c.srcCore
    let di := s.copyIssuer c c.dstCore
    let s1 := s.noteRange si (padd c.src c.pos) n
    (∀ (bs : List Byte) (ps : List (Nat × Nat)), c.pos < c.len → c.kind ≠ .rput →
      s.readLine si (padd c.src c.pos) n = .ok bs → bs.length = n → s1.lineDest di (padd c.dst c.pos) n = .ok ps →
      Performs s (.copyLineLand id) fun u => u.cores = (s1.noteLine di (padd c.dst c.pos) n).cores ∧
        Map.find? u.copies id = some { c with pos := c.pos + n } ∧
        Ev.copyLineAck id ∈ u.pend ∧ (c.pos + n < c.len → Ev.copyLineLand id ∈ u.pend) ∧
        s.Holds ps bs u) ∧
    (∀ bs, c.pos < c.len → c.kind = .rput → s.readLine si (padd c.src c.pos) n = .ok bs →
      Performs s (.copyLineLand id) fun u => u.cores = s1.cores ∧ SameMemory s u ∧
        Map.find? u.copies id = some { c with pos := c.pos + n, data := c.data ++ bs } ∧ Ev.copyLineAck id ∈ u.pend ∧
        (c.pos + n < c.len → Ev.copyLineLand id ∈ u.pend)) ∧
    (∀ bs f, c.pos < c.len → c.kind ≠ .rput → s.readLine si (padd c.src c.pos) n = .ok bs → bs.length = n →
      s1.lineDest di (padd c.dst c.pos) n = .error f →
      Performs s (.copyLineLand id) fun u => Map.find? u.copies id = some { c with pos := c.pos + n, failed := true } ∧
        ({ core := c.core, bead := c.uid, kind := .copy, bits := statusBit f.cause } : Outcome) ∈ u.outcomes ∧
        Ev.copyLineAck id ∈ u.pend) ∧
    (∀ f, c.pos < c.len → s.readLine si (padd c.src c.pos) n = .error f →
      Performs s (.copyLineLand id) fun u => Map.find? u.copies id = some { c with pos := c.pos + n, failed := true } ∧
        ({ core := c.core, bead := c.uid, kind := .copy, bits := statusBit f.cause } : Outcome) ∈ u.outcomes) ∧
    (Performs s (.copyLineAck id) fun u => u.cores = s.cores ∧ SameMemory s u ∧
      (c.pos < c.len → u.copies = s.copies ∧ u.pend = s.pend) ∧
      (c.len ≤ c.pos → c.kind = .put ∨ c.kind = .get ∨ (c.kind = .puts ∧ c.failed = true) →
        Map.find? u.copies id = none ∧ u.pend = s.pend) ∧
      (c.len ≤ c.pos → c.kind = .puts → c.failed = false → u.copies = s.copies ∧ u.pend = s.pend ++ [.putsSignalApply id]) ∧
      (c.len ≤ c.pos → c.kind = .rput → u.copies = s.copies ∧ u.pend = s.pend ++ [.rputMessageApply id])) ∧
    (∀ loc, s.writePlace (s.copyIssuer c c.core) c.cnt 8 = .ok loc → s.spanPoisoned loc 8 = false → c.dec < 2 ^ 64 →
      Performs s (.putsSignalApply id) fun u => u.cores = (s.noteTlb (s.copyIssuer c c.core) c.cnt).cores ∧
        Map.find? u.copies id = none ∧
        s.Holds (s.runsFrom loc 8) (leBytes 8 ((leNat (s.spanLook loc 8) + (2 ^ 64 - c.dec)) % 2 ^ 64)) u) ∧
    ∀ place loc, s.translate di c.dst 64 true false = .ok place → Begins place loc → s.spanCheck di c.dst loc 64 true = .ok () →
      let ws := wordsOf 8 (s.spanLook loc 64)
      let cap := fld (wd ws 0) 0 32
      let tail := fld (wd ws 5) 0 32
      let used := (tail + 2 ^ 32 - fld (wd ws 4) 0 32) % 2 ^ 32
      let msg := s.messageBytes c
      let places := ringPlaces loc cap tail msg.length
      let at_ := s.placeFrom loc 8
      let Refused (u : State) : Prop := Map.find? u.copies id = none ∧ u.cores = s.cores ∧
        s.Holds (s.runsFrom at_ 4) (leBytes 4 (min (2 ^ 32 - 1) (leNat (s.spanLook at_ 4) + 1))) u
      (c.failed = false → ringOk loc ws = true → used + msg.length ≤ cap →
        (∀ p ∈ places, s.tagMiss p 32 (tagOf c.dst) = none) →
        Performs s (.rputMessageApply id) fun u => u.cores = s.cores ∧ Map.find? u.copies id = none ∧
          leNat (u.bytes (loc + 40) 4) = (tail + msg.length) % 2 ^ 32 ∧ metaF (u.metaAt ((loc + 32) / 32)) = true ∧
          (∀ y, (∀ p ∈ places, ¬ s.Stores p 32 y) → ¬ s.Stores (loc + 40) 4 y → u.byte y = s.byte y) ∧
          (s.moves = [] → c.len ≤ c.data.length → places.Pairwise (fun p q => p + 32 ≤ q ∨ q + 32 ≤ p) →
            (places.flatMap fun p => u.bytes p 32) = msg ∧ msg.take 8 = leBytes 8 ((s.tileAt c.core).idy % 256 * 2 ^ 40 +
              (s.tileAt c.core).idx % 256 * 2 ^ 32 + c.len) ∧ (msg.drop 8).take c.len = c.data.take c.len)) ∧
      (c.failed = false → ringOk loc ws = false ∨ cap < used + msg.length → Performs s (.rputMessageApply id) fun u =>
        Refused u ∧ u.outcomes = s.outcomes ++ [{ core := c.core, bead := c.uid, kind := .copy, bits := 16 }]) ∧
      (c.failed = true → Performs s (.rputMessageApply id) fun u => Refused u ∧ u.outcomes = s.outcomes)

/-! ## Streams, link cores, fences, lookups -/

/-- R333 to R337, R357: STRM and STRMW start a stream from its descriptor where the SID is free; SLOT gives a tile its next slot
once it holds data (for STRMW once it is empty), 0 after the last one, and traps at a failed position; SLOT.ack returns the
oldest slot taken, once no pending node over it is left (the oldest is forced first), SLOT.end waits for the end, gives the
status and frees the SID.  A position moves line by line when every receiving tile has room for it: the line at (row, column) of
the tensor, zeros outside its extents, to the slot of each; a line that cannot be read or written stops the stream with its
status, and a STRMW slot's failure is left for the fence of the bead that returned it. -/
def Obligations.Streams : Prop :=
  ∀ (s : State) (pfx : Pfx) (d a sid : Nat),
    let va := s.sr a
    let s1 := s.noteRange (s.issuer s.cur .c) va 64
    let u := unitOf s.cur
    (∀ bs back p, s.placeAligned (s.issuer s.cur .c) va 64 64 false = .ok p → s.loadC va 64 = .ok bs →
      let ds := wordsOf 8 bs
      let ks := (Desc.receivers ds).map fun t => tileIn u (Nat.xor (indexOf s.cur) t)
      let i : Instr := if back then .strmw pfx a else .strm pfx a
      (Desc.ok ds back = false → exec i s = .next (s1.trap { cause := 0x1D })) ∧
      (Desc.ok ds back = true → isTile s.cur = false ∨ (∃ k ∈ ks, (s.tileAt k).part ≠ s.partOf s.cur) →
        exec i s = .next (s1.trap (faultAt (s1.issuer s1.cur .c) 0x07 (wd ds 3)))) ∧
      (Desc.ok ds back = true → isTile s.cur = true → (∀ k ∈ ks, (s.tileAt k).part = s.partOf s.cur) →
        (∀ x, s.streamAt u (Desc.sid ds) = some x → x.running = true → exec i s = .next (s1.trap { cause := 0x1D })) ∧
        ((∀ x, s.streamAt u (Desc.sid ds) = some x → x.running = false) → Answers (exec i s) fun t =>
          t.streamAt u (Desc.sid ds) = some
            { core := s.cur, bead := s.beadAddr s.cur, uid := s.beadKey s.cur, world := s.me.world,
              part := s.partOf s.cur, cpc := s.me.pc, back := back, desc := ds, tiles := ks.map fun k => { core := k } } ∧
          t.pend = s.pend ++ (if back then [] else [.streamSlotWrite u (Desc.sid ds)]) ∧ RegsSame s.me t.me [] ∧
          CommitsAt s1.me t.me s.me.npc 0 ∧ OthersSame s t s.cur ∧ SameMemory s t))) ∧
    (s.streamAt u sid = none → ∀ i ∈ [Instr.slot pfx d sid, .slotAck pfx sid, .slotEnd pfx d sid],
      exec i s = .next (s.trap { cause := 0x1D })) ∧
    (∀ x t, s.streamAt u sid = some x → x.stopped = false → x.tileOf s.cur = some t →
      let n := Desc.positions x.desc
      let ready := if x.back then x.moved + Desc.nslot x.desc else x.moved
      (∀ p f, x.failed = some (p, f) → p ≤ t.taken → exec (.slot pfx d sid) s = .next
        (s.trap { f with cause := 0x1D, path := .x, late := true, cpc := some x.cpc })) ∧
      (x.failed = none → n ≤ t.taken → PutsScalar (.slot pfx d sid) s d 0) ∧
      (x.failed = none → t.taken < n → ready ≤ t.taken → exec (.slot pfx d sid) s = .next s) ∧
      (x.failed = none → t.taken < n → t.taken < ready → Answers (exec (.slot pfx d sid) s) fun v =>
        v.sr d = (if d = 0 then 0 else padd (wd x.desc 3) (t.taken % Desc.nslot x.desc * Desc.slotBytes x.desc : Nat)) ∧
        RegsSame s.me v.me [(.s, d)] ∧ CommitsAt s.me v.me s.me.npc 0 ∧ OthersSame s v s.cur ∧ SameMemory s v ∧
        ∃ y, v.streamAt u sid = some y ∧ y.tileOf s.cur = some { t with taken := t.taken + 1 } ∧ y.moved = x.moved) ∧
      (t.taken ≤ t.returned → exec (.slotAck pfx sid) s = .next (s.trap { cause := 0x1D })) ∧
      (t.returned < t.taken → s.slotNodes x t.returned = [] → Answers (exec (.slotAck pfx sid) s) fun v =>
        RegsSame s.me v.me [] ∧ CommitsAt s.me v.me s.me.npc 0 ∧ OthersSame s v s.cur ∧ SameMemory s v ∧
        v.pend = s.pend ++ [if x.back then .strmwSlotWriteback u sid else .streamSlotWrite u sid] ∧
        ∃ y, v.streamAt u sid = some y ∧ y.tileOf s.cur = some { t with returned := t.returned + 1 } ∧ y.moved = x.moved) ∧
      (∀ n ns, t.returned < t.taken → s.slotNodes x t.returned = n :: ns → s.me.inh = false →
        Answers (exec (.slotAck pfx sid) s) fun v =>
          v = { s with tiles := v.tiles, pend := s.pend ++ [.demandServe s.cur] } ∧
          (v.tileAt s.cur).demand = some { pc := s.me.pc, fin := .again, nodes := s.inFull s.cur [n] } ∧
          (v.tileAt s.cur).afrc = min 255 ((s.tileAt s.cur).afrc + 1)) ∧
      (let lo := scratchBase s.cur + fld (wd x.desc 3) 0 21 + t.returned % Desc.nslot x.desc * Desc.slotBytes x.desc
       let hi := lo + Desc.slotBytes x.desc
       let meets (r : Run) : Prop := r.1 < hi ∧ lo < r.2
       ∀ n, n ∈ s.slotNodes x t.returned ↔ n ∈ (s.tileAt s.cur).order ∧ ∃ y, s.nodeAt s.cur n = some y ∧
         if x.back then meets (s.span s.cur true y.dst) else ∃ r ∈ s.srcSpans s.cur y.srcs, meets r) ∧
      (x.finished = false → exec (.slotEnd pfx d sid) s = .next s) ∧
      (x.finished = true → Answers (exec (.slotEnd pfx d sid) s) fun v =>
        v.sr d = (if d = 0 then 0 else x.status.setWidth 64) ∧ RegsSame s.me v.me [(.s, d)] ∧
        CommitsAt s.me v.me s.me.npc 0 ∧ OthersSame s v s.cur ∧ SameMemory s v ∧
        (v.streamAt u sid).map Stream.running = some false)) ∧
    (∀ ds g i j, i < Desc.sr ds → j < Desc.sb ds →
      let down := (Desc.rows ds + Desc.sr ds - 1) / Desc.sr ds
      let across := (Desc.rbytes ds + 64 * Desc.sb ds - 1) / (64 * Desc.sb ds)
      let row := (if Desc.columnMajor ds then g % down else g / across) * Desc.sr ds + i
      let col := (if Desc.columnMajor ds then g / down else g % across) * 64 * Desc.sb ds + 64 * j
      (Desc.lines ds g)[Desc.sb ds * i + j]? = some (64 * (Desc.sb ds * i + j),
        if row < Desc.rows ds ∧ col < Desc.rbytes ds then some (row * Desc.pitch ds + col) else none)) ∧
    ∀ clu x, s.streamAt clu sid = some x → x.stopped = false → x.failed = none →
      let g := x.moved
      let ls := Desc.lines x.desc g
      let Ends (e : Ev) (line : Nat × Option Nat → State → Stream → State → Stream → Prop)
          (os : Stream → List Outcome) : Prop :=
        Performs s e fun u => ∃ v y, Moves line ls s x v y ∧ (∀ a, u.byte a = v.byte a) ∧ u.cores = v.cores ∧
          (y.failed = none → u.streamAt clu sid = some { y with moved := g + 1 } ∧ e ∈ u.pend) ∧
          (y.failed ≠ none → u.streamAt clu sid = some y ∧ u.outcomes = s.outcomes ++ os y)
      (x.back = false → g < Desc.positions x.desc →
        ((∃ t ∈ x.tiles, t.returned + Desc.nslot x.desc ≤ g) → Performs s (.streamSlotWrite clu sid) fun v => v = s) ∧
        ((∀ t ∈ x.tiles, g < t.returned + Desc.nslot x.desc) →
          Ends (.streamSlotWrite clu sid) (LineIn g) fun _ => [])) ∧
      ∀ t ts, x.back = true → x.tiles = t :: ts →
        (t.returned ≤ g → Performs s (.strmwSlotWriteback clu sid) fun v => v = s) ∧
        (g < t.returned → Ends (.strmwSlotWriteback clu sid) (LineOut t.core g) fun y =>
          if y.status = 0 then [] else [{ core := t.core, bead := s.beadKey t.core, kind := .slot, bits := y.status }])

/-- R339, R338, R383, R356, R357: LKPOP takes the next block of a queue or gives all ones, LKPOP.set sets the queue and gives
what was left; a binding that succeeds sets V, allots four rods and enqueues the initial bead, what an earlier binding left
discarded; an unbinding discards the waiting beads.  A fence that names X waits for the copies of its bead, one that names K for
its bead's K requests; it then reports the outcomes that it covers once.  The model's choices: the whole of s[A] is the queue's number (log 30, DEDUCED), a store of V = 1
discards what an earlier binding left (log 48, DEDUCED), and a fence of every MODE waits for the copies (log 1, DESIGN CHOICE;
R356 has MODE 0 and 1 wait). -/
def Obligations.LinkCoresAndFences : Prop :=
  ∀ (s : State) (pfx : Pfx) (d a b link : Nat) (sc : Scope) (pm : PathMask) (fm : FenceMode),
    (isLink s.cur = false → ∀ i ∈ [Instr.lkpop pfx d a, .lkpopSet pfx d a b],
      exec i s = .next (s.trap { cause := 0x03 })) ∧
    (isLink s.cur = true → s.queueOf (s.sr a) = none → ∀ i ∈ [Instr.lkpop pfx d a, .lkpopSet pfx d a b],
      exec i s = .next (s.trap { cause := 0x1E })) ∧
    (∀ q, isLink s.cur = true → s.queueOf (s.sr a) = some q →
      let x := s.queueAt (dieOf s.cur) q
      let Pops (i : Instr) (v : Word) (y : BlockQueue) : Prop := Answers (exec i s) fun t =>
        t.sr d = (if d = 0 then 0 else v) ∧ RegsSame s.me t.me [(.s, d)] ∧ CommitsAt s.me t.me s.me.npc 0 ∧
        OthersSame s t s.cur ∧ SameMemory s t ∧ t.queueAt (dieOf s.cur) q = y ∧
        ∀ e p, (e, p) ≠ (dieOf s.cur, q) → t.queueAt e p = s.queueAt e p
      (x.next < x.count → Pops (.lkpop pfx d a) (x.next.setWidth 64) { x with next := x.next + 1 }) ∧
      (¬ x.next < x.count → Pops (.lkpop pfx d a) (BitVec.allOnes 64) x) ∧
      Pops (.lkpopSet pfx d a b) (BitVec.ofNat 64 (x.count.toNat - x.next.toNat))
        { count := (s.sr b).setWidth 32, next := 0 }) ∧
    (∀ bs rs,
      let k := 384 + link
      let s0 := s.discardLink link
      let w0 := s.linkReg link 0
      let world := bitOf w0 62
      let part := fld w0 48 8
      let kd := wordsOf 16 bs
      let x := recOfWords (wordsOf 8 rs)
      link < 32 → (s.coreAt k).bead = none → (s.linkReg link 2).toNat % 64 = 0 → (s.linkReg link 1).toNat % 64 = 0 →
      s0.readWhole (bindIssuer link part world (0, 0, 0)) (s.linkReg link 2) 128 = .ok bs → Kd.contextOk kd = true →
      Kd.secure kd = world → (s0.noteRange (bindIssuer link part world (0, 0, 0)) (s.linkReg link 2) 128).readWhole
        (bindIssuer link part world (heapOf kd)) (s.linkReg link 1) 64 = .ok rs →
      bitOf x.w3 33 = world → Performs s (.linkCoreBind link) fun t =>
        bitOf (t.linkReg link 0) 63 = true ∧ (t.linkAt link).bound = true ∧ (t.linkAt link).kd = kd ∧
        (t.linkAt link).world = world ∧
        (∃ r, t.slotAt ⟨48 + link, 0, 0⟩ = some { record := fitRecord 0 r x, use := .ready, uid := s.nextBead } ∧
          r.cap = 64 ∧ r.prio = 0) ∧
        (∀ j, j < 4 → (t.rodAt (48 + link) j).map (fun r => (r.cap, r.prio, r.part)) = some (64, j, some part)) ∧
        OthersSame s t k ∧ SameMemory s0 t) ∧
    (Performs s (.linkCoreUnbind link) fun t =>
      (bitOf (s.linkReg link 0) 63 = true → t = s) ∧
      (bitOf (s.linkReg link 0) 63 = false → (t.linkAt link).bound = false ∧ t.cores = s.cores ∧
        ((s.coreAt (384 + link)).bead ≠ none → t.timers = s.timers ++ [.linkCoreUnbind link]) ∧
        ((s.coreAt (384 + link)).bead = none → ∀ r rod, r < 4 → t.rodAt (48 + link) r = some rod →
          rod.ready = [] ∧ ∀ e ∈ rod.slots, e.2.use ≠ .parked))) ∧
    let p : PathMask := if pm.c || pm.x || pm.e || pm.k then pm else { c := true, x := false, e := false, k := false }
    let covered (o : Outcome) : Bool := o.bead == s.beadKey s.cur && (if o.kind = .store then p.c else p.x)
    let waits : Prop := (p.x = true ∧ ∃ e ∈ s.copies, e.2.uid = s.beadKey s.cur) ∨
      (p.k = true ∧ ∃ q ∈ s.requests, q.uid = s.beadKey s.cur)
    ∀ i ∈ [Instr.fence pfx sc pm fm d, .fencex pfx sc pm fm d],
      (waits → exec i s = .next s) ∧
      (¬ waits → Answers (exec i s) fun t =>
        t = { s with cores := t.cores, outcomes := s.outcomes.filter fun o => !covered o } ∧ OthersSame s t s.cur ∧
        RegsSame s.me t.me [(.s, d)] ∧ CommitsAt s.me t.me s.me.npc 0 ∧
        t.sr d = (if d = 0 then 0
          else (((s.outcomes.filter covered).foldl (fun b o => b ||| o.bits) (0 : BitVec 5)).setWidth 64)))

/-- R271 to R279, R184: PKSC, PKSEL, PKGTH and PKSCT check their operands and their record, a future on an import page being an
address fault, empty the future, commit and send: the request joins its unit's queue.  A request that ends fills the future with
its status word, whose CAUSE is 0 where nothing failed, that of the fault where one ended it, and 9 where an earlier request of the
bead to the unit did, which marks those behind it.  A selection is in the order of descending value, then of lower index.  PKSC
writes the best scores of a half table, PKSEL the weights of the best pairs; PKGTH writes the weighted sum of the rows through
its window: binary32 through window 3, binary16 rounded under RM through window 2, requantized block by block through window 1,
all +0 where no entry is left; PKSCT writes the gradients of the scores and adds those of the values to GV.  That a cell of GV over
two lines goes with the line in which it begins is the model's reading (log 48, DEDUCED); that a request waits until its core
has had 64 turns since or runs its bead no more (log 1) and that a cell over two home units is filled in both (log 58) are its choices (DESIGN CHOICE). -/
def Obligations.Lookups : Prop :=
  ∀ (s : State) (pfx : Pfx) (ty : Ty) (rm a b : Nat) (k2 : Bool) (q : PklReq),
    let ld := s.sr a
    let rq := s.sr b
    let s1 := s.noteRange (s.issuer s.cur .c) rq 64
    let Asks (i : Instr) (op : PklOp) (ty : Ty) (rm : Nat) (k2 clears : Bool) : Prop :=
      (ld.toNat % 64 ≠ 0 → exec i s = .next (s.trap (faultAt (s.issuer s.cur .c) 0x06 ld))) ∧
      (ld.toNat % 64 = 0 → rq.toNat % 64 = 0 →
        (spaceOf ld ≠ 0 → exec i s = .next (s.trap (faultAt (s.issuer s.cur .c) 0x07 ld))) ∧
        ∀ bs loc, spaceOf ld = 0 → plainPlace rq = true → s.loadC rq 64 = .ok bs →
          let q : PklReq :=
            { op := op, core := s.cur, bead := s.me.bead, part := s.partOf s.cur, world := s.me.world, cpc := s.me.pc,
              ld := ld, uid := s.beadKey s.cur, heap := heapOf (s.kdOf s.cur), words := wordsOf 8 bs, ty := ty, rm := rm, k2 := k2 }
          let fut := wd q.words 0
          let imp := fut.toNat % 32 = 0 ∧ s1.isImport (s1.issuer s1.cur .c) fut true = true
          (imp → exec i s = .next (s1.trap (faultAt (s1.issuer s1.cur .c) 0x07 fut))) ∧
          (∀ f, ¬ imp → s1.probe (s1.issuer s1.cur .c) fut 32 32 = .error f → exec i s = .next (s1.trap f)) ∧
          (¬ imp → s1.probe (s1.issuer s1.cur .c) fut 32 32 = .ok loc →
            (recordOk op q.words = false → exec i s = .next (s1.trap { cause := 0x1F })) ∧
            (recordOk op q.words = true → 64 ≤ s1.unitLoad (s1.unitOfLayer (s1.issuer s1.cur .k) ld) →
              exec i s = .next s1) ∧
            (recordOk op q.words = true → s1.unitLoad (s1.unitOfLayer (s1.issuer s1.cur .k) ld) < 64 →
              Answers (exec i s) fun t => t.requests = s.requests ++ [q] ∧ t.pend = s.pend ∧ RegsSame s.me t.me [] ∧
                CommitsAt s1.me t.me s.me.npc 0 ∧ OthersSame s t s.cur ∧ (∀ y, t.byte y = s.byte y) ∧
                metaF (t.metaAt (loc / 32)) = false ∧ (∀ g, g ≠ loc / 32 → t.metaAt g = s.metaAt g) ∧
                t.units = (if clears then s.clearR s.cur else s).units)))
    let Fills (e : Ev) (s2 : State) (v : Nat) : Prop := ∀ loc,
      s2.probe { s2.pklIssuer q with path := .c } (wd q.words 0) 32 32 = .ok loc → Performs s e fun u =>
        s2.Holds (s2.runsFrom loc 8) (leBytes 8 v) u ∧ metaF (u.metaAt (loc / 32)) = true ∧ u.requests = s2.requests ∧
        u.cores = s2.cores
    let Ends (e : Ev) (run : State → PklReq → Nat → PklEnd) : Prop :=
      let r := run s q (s.unitOfLayer (s.pklIssuer q) q.ld)
      (q.skip = false → r.cause = 0 → Fills e r.s (r.fl.toNat * 2 ^ 32 + r.count % 2 ^ 32)) ∧
      (q.skip = false → 0 < r.cause → r.cause < 128 → r.cause ≠ 9 →
        Fills e ((r.s.pklRecord q r.f (pklStatus r)).skipLater q)
          (2 ^ 63 + r.cause * 2 ^ 56 + r.fl.toNat * 2 ^ 32 + r.count % 2 ^ 32)) ∧
      (q.skip = true → Fills e (s.skipLater q) (2 ^ 63 + 9 * 2 ^ 56))
    Asks (.pksc pfx ty rm k2 a b) .sc ty rm k2 false ∧ Asks (.pksel pfx a b) .sel .dflt 0 false false ∧
    Asks (.pkgth pfx rm a b) .gth .dflt rm false false ∧ Asks (.pksct pfx ty rm a b) .sct ty rm false true ∧
    Ends (.pkscExecute q) State.runPksc ∧ Ends (.pkselExecute q) State.runPksel ∧
    Ends (.pkgthExecute q) State.runPkgth ∧ Ends (.pksctExecute q) State.runPksct ∧
    (∀ (u : State), (u.skipLater q).requests = u.requests.map fun x =>
      if q.uid = x.uid ∧ u.unitOfLayer (u.pklIssuer q) q.ld = u.unitOfLayer (u.pklIssuer x) x.ld then { x with skip := true } else x) ∧
    (∀ cs k, let sel := selectCands cs k
      let good := cs.filter fun c => c.idx != 0xFFFFFFFF && !(b32.decode c.val).isNaN
      sel.length = min k good.length ∧ (∀ c ∈ sel, c ∈ good) ∧ sel.Pairwise Ranks ∧
        ∀ c ∈ good, c ∉ sel → ∀ x ∈ sel, Ranks x c) ∧
    ∀ l, let die := s.unitOfLayer (s.pklIssuer q) q.ld
      s.readLayer q die = .ok l →
      let ws := q.words
      let full (c : Cand) : Bool := c.idx != 0xFFFFFFFF
      let Writes (rs : List (Word × Nat)) (va : Word) (bs : List Byte) (u : State) : Prop :=
        PutsLines (s.pklIssuer q) (linesAt va (bs.length / 64 + 2) bs) (s.notes q ((q.ld, 64) :: rs)) u
      let rowsOf (cs : List Cand) : List (Word × Nat) := (cs.filter full).flatMap fun c =>
        [(padd l.v (l.dv * c.idx : Nat), l.dv), (padd l.vs (l.dv / 256 * c.idx : Nat), l.dv / 256)]
      let Lists (r : PklEnd) (rs : List (Word × Nat)) (va : Word) (sel : List Cand) (k empty : Nat) : Prop := r.cause = 0 →
        r.count = sel.length ∧ Writes rs va ((sel ++ List.replicate (k - sel.length) ({ val := empty, idx := 0xFFFFFFFF } : Cand)).flatMap
          fun c => leBytes 4 c.idx ++ leBytes 4 c.val) r.s
      (∀ x (rows : Nat → List Byte), s.readVector q (wd ws 1) l.dk = .ok x → (∀ j, j < l.n →
          s.tableBytes q die (padd (if q.k2 then l.k2 else l.k1) (2 * l.dk * j : Nat)) (2 * l.dk) = .ok (rows j)) →
        let score (j : Nat) : Nat := (sum32 q.rm ((x.1.zip ((elemsOf 2 l.dk (rows j)).map b16.decode)).map fun e => e.1.mul e.2)).1
        let k := fld (wd ws 3) 0 7
        Lists (s.runPksc q die) [(wd ws 1, elemBytes q * l.dk), (if q.k2 then l.k2 else l.k1, 2 * l.dk * l.n)] (wd ws 2) (selectCands ((List.range l.n).map fun j => { val := score j, idx := j }) k) k
          0x7FC00000) ∧
      (∀ c1 c2, s.readList q (wd ws 1) (fld (wd ws 4) 8 7) = .ok c1 → s.readList q (wd ws 2) (fld (wd ws 4) 16 7) = .ok c2 →
        let pairs := (c1.filter full).flatMap fun a => (c2.filter full).map fun b : Cand => ({
          val := (sum32 0 [(b32.decode a.val, false), (b32.decode b.val, false)]).1
          idx := (a.idx * l.n + b.idx) % 2 ^ 32 } : Cand)
        let k := fld (wd ws 4) 0 7
        let sel := selectCands pairs k
        let m := b32.decode ((sel.map Cand.val).headD 0)
        let e (c : Cand) : Nat :=
          if (b32.decode c.val).cmp m = 0 then 0x3F800000 else (exp32 ((b32.decode c.val).add 0 m.negate).1).1
        let z := b32.decode (sum32 0 (sel.map fun c => (b32.decode (e c), false))).1
        Lists (s.runPksel q die) [(wd ws 1, 8 * fld (wd ws 4) 8 7), (wd ws 2, 8 * fld (wd ws 4) 16 7)] (wd ws 3)
          (sel.map fun c => { val := (b32.round 0 ((b32.decode (e c)).div z).1).1, idx := c.idx }) k 0) ∧
      (∀ sel rows, s.readList q (wd ws 1) (fld (wd ws 3) 0 7) = .ok sel → s.readRows q die l sel = .ok rows →
        let r := s.runPkgth q die
        let out := wd ws 2
        let row := (List.range l.dv).map fun c => (sum32 0 (rows.1.map fun e => (b32.decode e.1.val).mul (e.2.getD c Val.zero))).1
        let rs := (wd ws 1, 8 * fld (wd ws 3) 0 7) :: rowsOf sel
        r.cause = 0 → rows.1.map Prod.fst = sel.filter full ∧ r.count = 1 ∧ (windowOf out = 1 ∨ windowOf out = 2 ∨ windowOf out = 3) ∧
          (sel.filter full = [] → row = List.replicate l.dv 0) ∧
          (windowOf out = 3 → Writes rs out (row.flatMap (leBytes 4)) r.s) ∧
          (windowOf out = 2 → Writes rs out (row.flatMap fun y => leBytes 2 (b16.round q.rm (b32.decode y)).1) r.s) ∧
          (windowOf out = 1 →
            let t := s.notes q ((q.ld, 64) :: rs)
            ∃ loc, t.translate (s.pklIssuer q) out 1 true false = .ok (.mem loc) ∧
              PutsBlocks loc row ((List.range ((loc + l.dv - 1) / 256 - loc / 256 + 1)).map fun j => loc / 256 + j) t r.s)) ∧
      ∀ g sel c1 c2 rows, s.readVector q (wd ws 2) l.dv = .ok g → s.readList q (wd ws 1) (fld (wd ws 6) 0 7) = .ok sel →
        s.readList q (wd ws 3) (fld (wd ws 6) 8 7) = .ok c1 → s.readList q (wd ws 4) (fld (wd ws 6) 16 7) = .ok c2 →
        s.readRows q die l sel = .ok rows →
        let r := s.runPksct q die
        let w (c : Cand) : Val := b32.decode c.val
        let d (v : List Val) : Val := b32.decode (sum32 0 ((g.1.zip v).map fun e => e.1.mul e.2)).1
        let dot := b32.decode (sum32 0 (rows.1.map fun e => (w e.1).mul (d e.2))).1
        let ds := rows.1.map fun e => (e.1.idx, (b32.round 0 ((w e.1).mul ((d e.2).add 0 dot.negate).1).1).1)
        let gs (half : Nat → Nat) (c : Cand) : Nat := if c.idx = 0xFFFFFFFF then 0
          else (sum32 0 ((ds.filter fun x => half x.1 == c.idx).map fun x => (b32.decode x.2, false))).1
        (l.gv = 0 → r.cause = 8) ∧
        (r.cause = 0 → rows.1.map Prod.fst = sel.filter full ∧ r.count = rows.1.length ∧ ∃ u,
          Writes ([(wd ws 2, elemBytes q * l.dv), (wd ws 1, 8 * fld (wd ws 6) 0 7), (wd ws 3, 8 * fld (wd ws 6) 8 7),
            (wd ws 4, 8 * fld (wd ws 6) 16 7)] ++ rowsOf sel) (wd ws 5) ((c1.map (gs fun x => x / l.n) ++ c2.map (gs fun x => x % l.n)).flatMap (leBytes 4)) u ∧
          AddsRows q die l g.1 (sel.filter full) u r.s)

/-! ## Contexts -/

/-- R286, R294, R295, R300, R304, R307 to R310, R290, R291: the context instructions check their context pointer and operands and
send their request to the EVU, the bead waiting for its reply; a pointer that names no bound context is a context fault of
reason 1. -/
def Obligations.ContextRequests : Prop :=
  ∀ (s : State) (pfx : Pfx) (ty : Ty) (rm d a b : Nat),
    let Sends (i : Instr) (q : EvuReq) (s0 : State) : Prop := Answers (exec i s) fun t =>
      t = { s0 with pend := s0.pend ++ [.evuContextRequest q] }
    let rq := s.sr b
    (∀ c, s.ctxCheck (s.sr a) false false = .ok c →
      Sends (.edmap pfx d a b) (s.evuReq .edmap (s.sr a) (s.sr d) (s.sr b) d) s ∧
      Sends (.reclaim pfx d a b) (s.evuReq .reclaim (s.sr a) 0 (s.sr b) d) s ∧
      Sends (.reclaimUnbind pfx d a) (s.evuReq .unbind (s.sr a) 0 0 d) s) ∧
    (∀ c, s.ctxCheck (s.sr a) false true = .ok c →
      Sends (.vldvAt pfx ty rm d a b) { s.evuReq .vldvAt (s.sr a) 0 (s.sr b) d with ty := ty, rm := rm } s ∧
      Sends (.vldvCur pfx ty rm d a b) { s.evuReq .vldvCur (s.sr a) 0 0 d with ty := ty, rm := rm, pdst := b } s) ∧
    (∀ c, s.ctxCheck (s.sr a) true false = .ok c →
      (regionOk c.2 (s.sr d) = true →
        Sends (.settle pfx d a b) (s.evuReq .settle (s.sr a) (s.sr d) (s.sr b) d) s) ∧
      (regionOk c.2 (s.sr d) = false → exec (.settle pfx d a b) s = .next (s.trap { cause := 0x1A, sub := 7, info := 7 })) ∧
      ∀ bs, rq.toNat % 32 = 0 → recordPlace rq = true → s.loadC rq 32 = .ok bs →
        let ws := wordsOf 4 bs
        let s1 := s.noteRange (s.issuer s.cur .c) rq 32
        ∀ e ∈ [(Instr.edins pfx d a b, EvuOp.edins), (.eddel pfx d a b, .eddel), (.edchg pfx d a b, .edchg)],
          (editOk ws = true → Sends e.1 { s.evuReq e.2 (s.sr a) rq 0 d with words := ws } (s1.clearR s.cur)) ∧
          (editOk ws = false → exec e.1 s = .next (s1.trap { cause := 0x1A, sub := 7, info := 7 }))) ∧
    (∀ c, (s.sr a).toNat % 64 = 0 → s.ctxCheck (s.sr b) false true = .ok c → bufferPlace (s.sr a) = true →
      Sends (.ctxdone pfx d a b) (s.evuReq .ctxdone (s.sr b) (s.sr a) (BitVec.ofNat 64 ((s.sr d).toNat % 2 ^ 32)) d)
        (s.clearR s.cur)) ∧
    (spaceOf (s.sr a) = 0 → (s.sr a).toNat % 4096 = 0 →
      Sends (.reclaimBind pfx d a) (s.evuReq .bind 0 (s.sr a) 0 d) s) ∧
    (∀ p e l, (spaceOf p ≠ 0xA ∨ s.ctxAt (fld p 44 8) = none) →
      s.ctxCheck p e l = .error { cause := 0x1A, sub := 1, info := 1 }) ∧
    (∀ f, s.ctxCheck (s.sr a) false false = .error f →
      ∀ i ∈ [Instr.edmap pfx d a b, .reclaim pfx d a b, .reclaimUnbind pfx d a], exec i s = .next (s.trap f)) ∧
    (∀ f, s.ctxCheck (s.sr a) false true = .error f →
      ∀ i ∈ [Instr.vldvAt pfx ty rm d a b, .vldvCur pfx ty rm d a b], exec i s = .next (s.trap f)) ∧
    ∀ f, s.ctxCheck (s.sr a) true false = .error f →
      ∀ i ∈ [Instr.settle pfx d a b, .edins pfx d a b, .eddel pfx d a b, .edchg pfx d a b], exec i s = .next (s.trap f)

/-- R295, R300, R304, R306 to R310, R290, R291, R301, R303, R316: what the EVU's reply writes: an edit its wave, EDMAP the map
entry of the position, CTXDONE its result word, VLDV a version and whether it is current, RECLAIM the slots freed, the binding a
context pointer, the unbinding the running entries left; a wave that no edit has issued is a context fault of reason 5, one that the log no longer retains of reason 6 (R62; that VLDV.AT too makes
this test is the model's reading, log 32); a spawn
puts a recompute bead into its rod, and an instruction on a context that has a spawn to make is held back: that it stays with its
core, which sends it again, is the model's choice (log 57, DESIGN CHOICE).  How many reads of
its own the EVU counts in the context's home units is a free number (`countEvu`, log 26, DESIGN CHOICE). -/
def Obligations.ContextReplies : Prop :=
  (∀ (s : State) (r : EvuReq) (t : State), r.op = .bind → s.serveBind r = .ok t →
    let s0 := s.noteRange (s.issuer r.core .c) r.arg 4096
    Performs s (.evuContextRequest r) fun u => ∃ m x, s.ctxAt m = none ∧ u.ctxAt m = some x ∧ x.desc = r.arg ∧
      u.coreAt r.core = ((s0.coreAt r.core).setS r.dst (ctxPtr m x)).commit ∧ OthersSame s u r.core) ∧
  ∀ (s : State) (q : EvuReq) (n : Nat) (c : Ctx), n = fld q.ctx 44 8 → s.ctxAt n = some c → q.op ≠ .bind →
    (s.spawnCtx n c = .full → Performs s (.evuContextRequest q) fun u => u = s) ∧
    (∀ x, s.spawnCtx n c = .done x → Performs s (.evuContextRequest q) fun u =>
      u = { s with pend := s.pend ++ [.evuRecomputeSpawn n] }) ∧
    let l := fld q.ctx 36 8
    let b := fld q.ctx 20 16
    let w := q.wave.toNat
    let Replies (s0 : State) (f : Core → Core) (P : State → Prop) : Prop :=
      s.spawnCtx n c = .idle → Performs s (.evuContextRequest q) fun u =>
        u.coreAt q.core = (f (s0.coreAt q.core)).commit ∧ OthersSame s0 u q.core ∧ Ev.evuRecomputeSpawn n ∈ u.pend ∧ P u
    let Refuses (reason : Nat) : Prop := s.spawnCtx n c = .idle → Performs s (.evuContextRequest q) fun u =>
      u = (s.trapEntry q.core { cause := 0x1A, sub := reason, info := reason } q.pc).countEvu c
    (∀ wiss, s.ctr c .wiss = .ok wiss →
      (wiss < w → (q.op = .edmap ∨ q.op = .vldvAt ∨ q.op = .settle ∨ q.op = .reclaim) → Refuses 5) ∧
      (w ≤ wiss →
        (∀ m, q.op = .edmap → s.mapAt c w = .ok m →
          Replies s (fun k => k.setS q.dst (match holds m q.arg.toNat with
            | some j => (m.getD j { start := 0, fill := 0, pb := 0 }).word
            | none => BitVec.allOnes 64)) (SameMemory s)) ∧
        (w ≠ wiss → w < c.lost → (q.op = .vldvAt ∨ (q.op = .edmap ∧ ∃ m, s.readMap c = .ok m)) → Refuses 6) ∧
        (∀ e p v, q.op = .vldvAt → (w = wiss ∨ c.lost ≤ w) → s.readEntry c l b = .ok e → s.owes n c l b e w = false →
          (e.pairs.find? fun p => decide (p.1 ≤ w)) = some p → s.readVersion q c p.2 = .ok v →
          Replies (s.noteVersion q c p.2) (fun k => (k.setV q.dst v.1).raise v.2) (SameMemory s)) ∧
        (∀ e, q.op = .vldvAt → (w = wiss ∨ c.lost ≤ w) → s.readEntry c l b = .ok e → s.owes n c l b e w = false →
          (e.pairs.find? fun p => decide (p.1 ≤ w)) = none → Refuses 10) ∧
        (∀ m, q.op = .settle → s.readMap c = .ok m →
          s.firstOwing n c w ((List.range (fld q.arg 56 8 + 1 - fld q.arg 48 8)).flatMap fun j =>
            ((m.filter fun x => decide (x.start ≤ fld q.arg 24 24) && decide (fld q.arg 0 24 < x.start + x.fill)).map
              MapEnt.pb).map fun y => (fld q.arg 48 8 + j, y)) = .ok none → Replies s id (SameMemory s)) ∧
        ∀ m r t, q.op = .reclaim → s.readMap c = .ok m →
          ((List.range c.nb).foldlM (fun (t : State × Nat) (b : Nat) => do
            let x ← t.1.reclaimBlock c w m b
            pure (x.1, t.2 + x.2)) (s, 0) : Except FaultInfo (State × Nat)) = .ok r →
          r.1.updateWset n c = .ok t →
          Replies s (fun k => k.setS q.dst (BitVec.ofNat 64 r.2)) fun u => u.mem = t.mem)) ∧
    (∀ e p ps v, q.op = .vldvCur → s.readEntry c l b = .ok e → e.pairs = p :: ps → s.readVersion q c p.2 = .ok v →
      Replies (s.noteVersion q c p.2)
        (fun k => ((k.setV q.dst v.1).setP q.pdst (if e.st = 0 then BitVec.allOnes 128 else 0)).raise v.2) (SameMemory s)) ∧
    (∀ e, q.op = .vldvCur → s.readEntry c l b = .ok e → e.pairs = [] → Refuses 11) ∧
    (∀ m x wiss new t u, (q.op = .edins ∨ q.op = .eddel ∨ q.op = .edchg) → s.readMap c = .ok m →
      s.planEdit c q.op m (fld (wd q.words 0) 24 24) (fld (wd q.words 0) 0 7) = .ok x → s.busyBlock c x.touched = .ok none →
      s.ctr c .wiss = .ok wiss → wiss ≠ 2 ^ 32 - 1 →
      let cnt := fld (wd q.words 0) 0 7
      let s0 := if q.op = .eddel then s else s.noteRange (s.evuIssuer q) (wd q.words 1) (4 * cnt)
      ((q.op = .eddel ∧ new = []) ∨ (q.op ≠ .eddel ∧ (wd q.words 1).toNat % 4 = 0 ∧
        s.readPieces (s.evuIssuer q) (wd q.words 1) (4 * cnt / 32 + 2) (4 * cnt) = .ok new)) →
      s0.moveTokens c (wd q.words 2) x.toks new = .ok t →
      (t.noteTable n c (wd q.words 2) (x.all ++ x.kept.toList)).commitEdit n c m x (wiss + 1) = .ok u →
      Replies s0 (fun k => k.setS q.dst (BitVec.ofNat 64 (wiss + 1))) fun v => v.mem = u.mem) ∧
    (∀ e, q.op = .ctxdone → s.readEntry c l b = .ok e →
      (e.running = false ∨ s.runWaveOf n (c.key l b) ≠ some w → Refuses 9) ∧
      (∀ fcnt data t ps x, e.running = true → s.runWaveOf n (c.key l b) = some w → s.ctr c .fcnt = .ok fcnt → fcnt ≠ 0 →
        s.readPieces (s.evuIssuer q) q.arg (c.sbytes / 32 + 2) c.sbytes = .ok data →
        let s0 := s.noteRange (s.evuIssuer q) q.arg c.sbytes
        s0.takePoolSlot c fcnt = .ok t → t.1.writePieces c.issuer (c.slotVa t.2 0) (c.sbytes / 32 + 2) c.sbytes = .ok ps →
        (t.1.fillPieces ps data).commitResult n c l b w t.2 e data = .ok x →
        Replies s0 (fun k => k.setS q.dst x.2) fun u => u.mem = x.1.mem)) ∧
    (∀ es, q.op = .unbind → (c.entries.mapM fun lb => s.readEntry c lb.1 lb.2) = .ok es →
      Replies s (fun k => k.setS q.dst (BitVec.ofNat 64 (es.filter EvuEntry.running).length)) fun u =>
        (∀ y, u.byte y = s.byte y) ∧ ((es.filter EvuEntry.running) = [] → u.ctxAt n = none) ∧
        ((es.filter EvuEntry.running) ≠ [] → u.ctxAt n = some { c with unbinding := true })) ∧
    (s.ctxs = [(n, c)] →
      (c.unbinding = true ∨ c.stopped = true → Performs s (.evuRecomputeSpawn n) fun u => u = s) ∧
      ∀ y x rod slot e code t, c.unbinding = false → c.stopped = false → s.nextSpawn n c = .ok (some (y, x)) →
        s.rodAt (12 * c.die + c.rclu) c.rrod = some rod → rod.part ≠ none → rod.freed = false → rod.world = c.world →
        rod.freeSlot? = some slot → s.readEntry c y x.pb = .ok e →
        s.readPieces c.issuer (padd c.desc (0x500 + 8 * y : Nat)) 2 8 = .ok code →
        s.writeEntry c y x.pb { e with st := 2 } = .ok t → Performs s (.evuRecomputeSpawn n) fun u =>
          u.mem = t.mem ∧ u.cores = s.cores ∧ u.runWaveOf n (c.key y x.pb) = some e.dw ∧
          ∃ z, u.slotAt ⟨12 * c.die + c.rclu, c.rrod, slot⟩ = some z ∧ z.use = .ready ∧ z.uid = s.nextBead ∧
            z.record.code = BitVec.ofNat 64 (leNat code) ∧ z.record.arg1 = BitVec.ofNat 64 e.dw ∧
            z.record.arg2 = x.word ∧ z.record.arg3 = c.desc ∧ z.record.pjoin = 0)

/-! ## Page 6 -/

/-- R384, R373, R376, R374, R375, R146: TLBI drops every TLB entry of the cores in its scope, TLBI.va those that cover its
address; IDLE waits for an event and takes the oldest; MCACK releases a machine check's number; a watchdog that has reached its
limit posts one event of kind 1; a machine check fences its tile, and its bead starts again at the head of its rod where R is
1 and is lost where R is 0; in a row that has been shifted the host hears of the tiles that are left (R28).  The model's choices:
MCACK acts on the issuer's own die, whose machine checks are numbered from 1 by `nextCheck` (log 16, DESIGN CHOICE), the host
hears in the step in which the tile fails (log 47, DESIGN CHOICE), and TLBI.clu of a link core or a steward core names that core
alone (log 60, DESIGN CHOICE). -/
def Obligations.SystemInstructions : Prop :=
  ∀ (s : State) (pfx : Pfx) (sc : Scope) (d a : Nat),
    let die := dieOf s.cur
    let Drops (i : Instr) (hit : TlbEntry → Bool) : Prop := Answers (exec i s) fun t =>
      t = { s with cores := t.cores } ∧ RegsSame s.me t.me [] ∧ CommitsAt { s.me with tlb := t.me.tlb } t.me s.me.npc 0 ∧
      (∀ k ∈ s.scopeCores sc, (t.coreAt k).tlb = (s.coreAt k).tlb.filter fun e => !hit e) ∧
      (∀ k, k ∉ s.scopeCores sc → (t.coreAt k).tlb = (s.coreAt k).tlb) ∧
      ∀ k, k ≠ s.cur → t.coreAt k = { s.coreAt k with tlb := (t.coreAt k).tlb }
    (s.me.world = true → Drops (.tlbi pfx sc) (fun _ => true) ∧
      Drops (.tlbiVa pfx sc a) (fun e => e.base ==
        (if e.big then fld (s.sr a) 0 52 / 2 ^ 21 * 2 ^ 21 else fld (s.sr a) 0 52 / 2 ^ 16 * 2 ^ 16))) ∧
    (s.me.world = true → (s.dieAt die).events = [] → exec (.idle pfx d) s = .next s) ∧
    (∀ w ws, s.me.world = true → (s.dieAt die).events = w :: ws → Answers (exec (.idle pfx d) s) fun t =>
      t = { s with cores := t.cores, dies := t.dies } ∧ t.sr d = (if d = 0 then 0 else w) ∧ RegsSame s.me t.me [(.s, d)] ∧
      CommitsAt s.me t.me s.me.npc 0 ∧ OthersSame s t s.cur ∧ (∀ e, e ≠ die → t.dieAt e = s.dieAt e) ∧
      t.dieAt die = { s.dieAt die with
        events := ws ++ (s.dieAt die).held.take 1, held := (s.dieAt die).held.drop 1 }) ∧
    (s.me.world = true → Answers (exec (.mcack pfx a) s) fun t =>
      t = { s with cores := t.cores, dies := t.dies } ∧ RegsSame s.me t.me [] ∧ CommitsAt s.me t.me s.me.npc 0 ∧
      OthersSame s t s.cur ∧ (∀ e, e ≠ die → t.dieAt e = s.dieAt e) ∧
      t.dieAt die = { s.dieAt die with checks := (s.dieAt die).checks.filter fun c => c.1 != fld (s.sr a) 0 40 }) ∧
    (∀ core b rod, (s.coreAt core).bead = some b → s.rodAt b.unit b.rod = some rod → rod.wdog ≠ 0 →
      (s.coreAt core).wdSent = false →
      (s.wdNow core < rod.wdog → Performs s (.rodWatchdogExpiry core) fun u =>
        u = { s with timers := s.timers ++ [.rodWatchdogExpiry core] }) ∧
      (rod.wdog ≤ s.wdNow core → Performs s (.rodWatchdogExpiry core) fun u =>
        u = { s with cores := u.cores, dies := u.dies, free := u.free } ∧ OthersSame s u core ∧
        u.coreAt core = { s.coreAt core with wdSent := true } ∧
        ((s.dieAt (s.stewardDie core)).events.length < 256 → ∃ w,
          (u.dieAt (s.stewardDie core)).events = (s.dieAt (s.stewardDie core)).events ++ [w] ∧ fld w 56 8 = 1 ∧
          fld w 48 8 = (s.partOf core).getD 0xFF % 256 ∧ fld w 40 4 = b.rod % 16))) ∧
    ∀ core b x rod,
      let s1 := s.record core { cause := 0x36 } (s.coreAt core).pc
      core < 384 → (s.coreAt core).bead = some b → s1.rodAt b.unit b.rod = some rod →
      Map.find? rod.slots b.slot = some x → Performs s (.machineCheck core) fun u =>
        (∀ y, u.byte y = s1.byte y) ∧ (u.tileAt core).fenced = true ∧ (u.coreAt core).mode = .idle ∧ (u.coreAt core).bead = none ∧ OthersSame s u core ∧
        (∀ k, k ≠ core → u.tileAt k = s.tileAt k) ∧
        (u.dieAt (s.stewardDie core)).checks =
          (s.dieAt (s.stewardDie core)).checks ++ [((s.dieAt (s.stewardDie core)).nextCheck, core)] ∧
        (bitOf x.record.w3 34 = true → u.slotAt b = some { record := x.record, use := .ready, uid := x.uid } ∧
          (u.rodAt b.unit b.rod).map Rod.ready = some (b.slot :: rod.ready) ∧ (u.coreAt core).a = [] ∧
          (u.tileAt core).nodes = []) ∧
        (bitOf x.record.w3 34 = false → u.slotAt b = some { x with use := .lost } ∧
          (u.rodAt b.unit b.rod).map Rod.ready = some rod.ready) ∧
        ((s.dieAt (dieOf core)).shifted.contains (rowNo (tileY core)) = true → (s.tileAt core).fenced = false →
          u.outbox = s1.outbox ++ [.repair u.tilesInService])

/-- R377, R378, R382, R47, R6: PDRN.SAVE of a partition that is not drained sets PRQ and lets its cores run until the deadline,
then saves them on their tiles, SPN in their records; PDRN.KILL ends them; both answer the number of beads once nothing is under
way, and PDRN.RUN lets the saved beads go on.  PRST of a drained partition discards its beads, puts its cores' registers at their
reset values, zeroes its scratchpads and their metadata, posts STAT 5 to the host or to the completion record of its LAUNCH, and
lets it ramp down.  A partition number of another die, none, or a drain that the partition's standing does not
allow answers all ones.  That a partition which already ramps down answers 0 is the model's choice (log 34), and that a forced save closes the lookahead
windows (log 60, DESIGN CHOICE). -/
def Obligations.Draining : Prop :=
  ∀ (s : State) (pfx : Pfx) (d a b : Nat),
    (s.me.world = true → s.pdrnPart a = none →
      PutsScalar (.pdrnSave pfx d a b) s d (BitVec.allOnes 64) ∧ PutsScalar (.pdrnKill pfx d a) s d (BitVec.allOnes 64) ∧
      PutsScalar (.pdrnRun pfx d a) s d (BitVec.allOnes 64) ∧ Answers (exec (.prst pfx a) s) fun t => Commits s t [] 0) ∧
    (∀ p x, s.me.world = true → s.pdrnPart a = some (p, x) →
      (x.phase = .drained → PutsScalar (.pdrnSave pfx d a b) s d (BitVec.allOnes 64)) ∧
      (x.phase = .rampDown → PutsScalar (.pdrnSave pfx d a b) s d 0 ∧ PutsScalar (.pdrnKill pfx d a) s d 0) ∧
      (x.phase ≠ .drained → x.phase ≠ .rampDown → Answers (exec (.pdrnSave pfx d a b) s) fun t =>
        t = { s with cores := t.cores, parts := t.parts, timers := s.timers ++ [.pdrnDeadlineExpiry p, .drainComplete p] } ∧
        t.me = { s.me with mode := .waiting } ∧ OthersSame s t s.cur ∧
        t.partAt p = some { x with
          phase := .draining (some (s.cyc, s.sr b)), retiring := x.retiring || x.phase == .quiesce
          pdrn := some (s.cur, d), ended := 0, prq := true }) ∧
      (x.phase ≠ .rampDown → Answers (exec (.pdrnKill pfx d a) s) fun t =>
        t.me.mode = .waiting ∧ SameMemory s t ∧ t.timers = s.timers ++ [.drainComplete p] ∧
        (∀ k, k ≠ s.cur → k ∉ x.tiles → t.coreAt k = s.coreAt k) ∧
        (∀ k ∈ x.tiles, (t.tileAt k).saved = none ∧ ((s.tileAt k).saved = none → (t.coreAt k).bead = none)) ∧
        t.partAt p = some { x with
          phase := .draining none, retiring := x.retiring || x.phase == .quiesce, pdrn := some (s.cur, d), prq := false
          ended := (x.tiles.filter fun k => (s.coreAt k).bead.isSome || (s.tileAt k).saved.isSome).length }) ∧
      (x.phase ≠ .drained → PutsScalar (.pdrnRun pfx d a) s d (BitVec.allOnes 64) ∧
        Answers (exec (.prst pfx a) s) fun t => Commits s t [] 0) ∧
      (x.phase = .drained → (∀ k ∈ x.tiles, k < 384) → Answers (exec (.pdrnRun pfx d a) s) fun t =>
        t.sr d = 0 ∧ RegsSame s.me t.me [(.s, d)] ∧ CommitsAt s.me t.me s.me.npc 0 ∧ SameMemory s t ∧
        (t.partAt p).map Part.phase = some (if x.retiring then .quiesce else .running) ∧
        (x.retiring = true → Ev.retirementQuiesceComplete p ∈ t.timers) ∧
        ∀ k ∈ x.tiles, ∀ c, x.tiles.Nodup → (s.tileAt k).fenced = false → (s.tileAt k).saved = some c →
          t.coreAt k = { c with
            mode := .running, wdFrom := s.cyc, ent := (s.coreAt k).ent, scb := (s.coreAt k).scb, tlb := (s.coreAt k).tlb
            chkMiss := (s.coreAt k).chkMiss }) ∧
      (x.phase = .drained → (∀ k ∈ x.tiles, k < 384) → Answers (exec (.prst pfx a) s) fun t =>
        RegsSame s.me t.me [] ∧ CommitsAt { s.me with tlb := t.me.tlb } t.me s.me.npc 0 ∧
        (∀ k, k ∉ x.tiles → k ≠ s.cur → t.coreAt k = { s.coreAt k with tlb := (t.coreAt k).tlb }) ∧
        ((t.partAt p = none) ∨ (t.partAt p).map Part.phase = some .rampDown) ∧
        (∀ k ∈ x.tiles, t.coreAt k = { Core.reset k with
            mode := (s.coreAt k).mode, ent := (s.coreAt k).ent, tlb := (t.coreAt k).tlb, chkMiss := (s.coreAt k).chkMiss } ∧
          (t.tileAt k).saved = none ∧ (t.tileAt k).nodes = [] ∧ (t.tileAt k).bars = [] ∧ (t.tileAt k).idw = 0 ∧
          (t.tileAt k).tev = 0 ∧ (t.tileAt k).retry = 0 ∧ (t.tileAt k).afrc = 0 ∧ (t.tileAt k).ofrc = 0 ∧
          (t.tileAt k).drop = 0) ∧
        (∀ u ∈ x.units, ∀ r rod, t.rodAt u r = some rod → rod.part = some p → rod.slots = []) ∧
        let s1 := s.emptied p x
        ((∀ r ∈ s.partRecords p x, r.evu = false) → ∀ k ∈ x.tiles, (∀ z, z < 2 ^ 21 → s1.byte (scratchBase k + z) = 0) ∧
          ∀ z, z < 2 ^ 16 → s1.metaAt (scratchBase k / 32 + z) = 0) ∧
        (∀ ctag, x.launcher = .host ctag → SameMemory s1 t ∧ t.host.held = s.host.held ++
          [{ stat := 5, ctag := ctag, enk := x.enk, cyc := s.cyc - x.startCyc }]) ∧
        ∀ o, x.launcher = .bead o → (o.cr = 0 → SameMemory s1 t) ∧
          ∀ loc, o.cr ≠ 0 → s1.probe o.issuer o.cr 32 32 = .ok loc →
            s1.Holds (s1.runsFrom loc 8 ++ s1.runsFrom (s1.placeFrom loc 8) 24) (leBytes 8 (5 * 2 ^ 48 + 2 ^ 32) ++
              leBytes 8 x.enk.toNat ++ leBytes 8 (s.cyc - x.startCyc).toNat ++ List.replicate 8 0) t ∧
            metaF (t.metaAt (loc / 32)) = true)) ∧
    (∀ p x t0 n, s.partAt p = some x → x.phase = .draining (some (t0, n)) →
      ((s.cyc - t0).toNat < n.toNat → Performs s (.pdrnDeadlineExpiry p) fun u =>
        u = { s with timers := s.timers ++ [.pdrnDeadlineExpiry p] }) ∧
      (n.toNat ≤ (s.cyc - t0).toNat → x.tiles.Nodup → Performs s (.pdrnDeadlineExpiry p) fun u =>
        u.partAt p = some { x with phase := .draining none, ended := x.ended + (s.busyCores x).length } ∧ SameMemory s u ∧
        ∀ k ∈ s.busyCores x, (u.coreAt k).mode = .idle ∧ (u.coreAt k).bead = none ∧
          (u.tileAt k).saved = some { s.coreAt k with
            wdCount := s.wdNow k, wdFrom := s.cyc, windows := [], nextWin := [], chkRun := 0 } ∧
          ∀ c y, (s.coreAt k).bead = some c → s.slotAt c = some y →
            (∀ j ∈ x.tiles, j ≠ k → (s.coreAt j).bead ≠ some c) → u.slotAt c = some { y with
              use := .saved, record := { y.record with w3 := setFld y.record.w3 0 32 (s.coreAt k).spn.toNat } })) ∧
    ∀ p x w, s.partAt p = some x → x.phase = .draining w →
      (s.quiet p x = false → Performs s (.drainComplete p) fun u =>
        u = { s with timers := s.timers ++ [.drainComplete p] }) ∧
      (s.quiet p x = true → Performs s (.drainComplete p) fun u =>
        (u.partAt p).map (fun y => (y.phase, y.prq)) = some (.drained, false) ∧
        Ev.pdrnDeadlineExpiry p ∉ u.timers ∧ ∀ k r, x.pdrn = some (k, r) → (s.coreAt k).mode = .waiting →
          u.coreAt k = { ((s.coreAt k).setS r (BitVec.ofNat 64 x.ended)).commit with mode := .running } ∧ OthersSame s u k)

/-- R379 to R381, R27, R28: CTXSV of a drained partition writes its image behind the size word and answers its length, or all
ones where the capacity does not hold it; a heap window that a dead link cuts off is a dead-link fault; CTXRS answers all ones for bytes that are no image, and where no number
or no origin is free, and otherwise the number of the partition that it sets up: pages, rods, force-saved beads and barrier
registers stand as the image holds them, and every other byte of the scratchpads is zero with metadata 0.  A coded page holds its
bytes and its granules' TAG, F and W.  A row shift moves each tile of a row to its western neighbour's place and puts the spare last.
What CTXSV answers for a partition that is not drained is the model's free value, and its dead-link fault over the heap window is
the model's choice (log 18, DESIGN CHOICE both), and of the rod sections of one index the n-th goes to the rectangle's n-th unit (log 18); so is that the row's last position takes the spare tile in its reset state (log
47, DESIGN CHOICE) and that one shift of a row serves one failed tile of it (log 60, DESIGN CHOICE). -/
def Obligations.SavedImages : Prop :=
  ∀ (s : State) (pfx : Pfx) (d a b : Nat) (mem : Bool),
    let p := fld (s.sr a) 0 8
    let va := s.sr b
    let s1 := s.noteRange (s.issuer s.cur .c) va 8
    (∀ hd, s.me.world = true → spaceOf va = 0 → va.toNat % 4096 = 0 → s.loadC va 8 = .ok hd →
      ((s.partAt p).map Part.phase ≠ some .drained → Answers (exec (.ctxsv pfx d a b mem) s) fun t =>
        t = { s with cores := t.cores, free := t.free, acnt := t.acnt } ∧ RegsSame s.me t.me [(.s, d)] ∧
        CommitsAt s1.me t.me s.me.npc 0 ∧ OthersSame s t s.cur) ∧
      (∀ x, s.partAt p = some x → x.phase = .drained → mem = true → s1.heapLost x = true →
        exec (.ctxsv pfx d a b mem) s = .next (s1.trap { cause := 0x0C })) ∧
      ∀ x, s.partAt p = some x → x.phase = .drained → (mem = true → s1.heapLost x = false) →
        let img := (s1.imageSections p x mem).flatMap ImgSection.bytes
        let s2 := s1.countUnits (s1.imageSections p x mem)
        let i2 := s2.issuer s2.cur .c
        let Wrote (n v : Nat) (ps : List (Nat × Nat)) (t : State) : Prop :=
          s2.writePieces i2 (padd va 16) (n / 32 + 2) n = .ok ps ∧ t.sr d = (if d = 0 then 0 else BitVec.ofNat 64 v) ∧
          RegsSame s.me t.me [(.s, d)] ∧ CommitsAt s1.me t.me s.me.npc 0 ∧ OthersSame s t s.cur ∧
          ∀ y, (∀ q ∈ ps, ¬ s.Stores q.1 q.2 y) → t.byte y = s.byte y
        (∀ ps, 16 + img.length ≤ leNat hd →
          s2.writePieces i2 (padd va 16) (img.length / 32 + 2) img.length = .ok ps →
          Answers (exec (.ctxsv pfx d a b mem) s) fun t => Wrote img.length (16 + img.length) ps t ∧ s.Holds ps img t) ∧
        (∀ ps, leNat hd < 16 + img.length →
          s2.writePieces i2 (padd va 16) ((leNat hd - 16) / 32 + 2) (leNat hd - 16) = .ok ps →
          Answers (exec (.ctxsv pfx d a b mem) s) fun t => Wrote (leNat hd - 16) (2 ^ 64 - 1) ps t) ∧
        (s1.imageSections p x mem).head?.map ImgSection.kind = some 1 ∧
        (s1.imageSections p x mem).getLast? = some { kind := 0x0F }) ∧
    (∀ e : ImgSection, e.kind < 256 → e.idx < 32 → e.idy < 16 → e.body.length < 2 ^ 31 →
      let w0 : Word := BitVec.ofNat 64 (leNat (e.bytes.take 8))
      fld w0 56 8 = e.kind ∧ fld w0 40 5 = e.idx ∧ fld w0 36 4 = e.idy ∧ fld w0 0 32 = e.bytes.length - 16 ∧
      e.bytes.length % 16 = 0 ∧ leNat ((e.bytes.drop 8).take 8) = e.loc.toNat ∧
      (e.bytes.drop 16).take e.body.length = e.body) ∧
    (let im := s.sr a
     let t1 := s.noteRange (s.issuer s.cur .c) im 8
     ∀ hd r, s.me.world = true → spaceOf im = 0 → im.toNat % 4096 = 0 → s.loadC im 8 = .ok hd →
      t1.readSections (t1.issuer t1.cur .c) im (leNat hd) (leNat hd / 16) 16 = .ok r →
      (r = none ∨ (∃ xs, r = some xs ∧ imagePart xs = none) → Answers (exec (.ctxrs pfx d a) s) fun t =>
        Commits (t1.noteRange (t1.issuer t1.cur .c) (padd im 16) (imageLength r)) t [(.s, d)] 0 ∧ t.sr d = if d = 0 then 0 else BitVec.allOnes 64) ∧
      (∀ xs ws, r = some xs → imagePart xs = some ws →
        (s.freeNumber = none ∨ s.findOrigin (wd ws 16).toNat (wd ws 17).toNat (Kd.nrod (ws.take 16)) = none) →
        Answers (exec (.ctxrs pfx d a) s) fun t =>
          Commits (t1.noteRange (t1.issuer t1.cur .c) (padd im 16) (imageLength r)) t [(.s, d)] 0 ∧
          t.sr d = if d = 0 then 0 else BitVec.allOnes 64) ∧
      ∀ xs ws n o, r = some xs → imagePart xs = some ws → s.freeNumber = some n →
        s.findOrigin (wd ws 16).toNat (wd ws 17).toNat (Kd.nrod (ws.take 16)) = some o →
        Answers (exec (.ctxrs pfx d a) s) fun t => t.sr d = (if d = 0 then 0 else BitVec.ofNat 64 n) ∧
          (t.partAt n).map (fun y => (y.x0, y.y0, y.w, y.h)) = some (o.1, o.2, (wd ws 16).toNat, (wd ws 17).toNat) ∧
          (t.partAt n).map (fun y => (y.kd, y.phase)) = some (ws.take 16, .running) ∧
          (∀ k ∈ rectTiles o.1 o.2 (wd ws 16).toNat (wd ws 17).toNat, (t.tileAt k).part = some n) ∧
          (s.Restorable (ws.take 16) o (wd ws 16).toNat (wd ws 17).toNat n xs →
            s.Restored t (ws.take 16) o (wd ws 16).toNat (wd ws 17).toNat n xs)) ∧
    (∀ bs ms, bs.length = 4096 → ms.length = 128 → decodePage (padBody (codePage bs ms)) =
      some (bs, ms.map fun m => mkMeta false (metaW m) (metaF m) (metaTag m))) ∧
    ∀ x y, x < 24 → y < 16 → (s.tileAt (tileAtXY x y)).fenced = true →
      let row := rowEast x y
      ((s.dieAt (dieXY x y)).shifted.contains (rowNo y) = true → Performs s (.rowShiftRepair x y) fun u => u = s) ∧
      ((s.dieAt (dieXY x y)).shifted.contains (rowNo y) = false →
        ((∃ k ∈ row, (s.tileAt k).part ≠ none) → Performs s (.rowShiftRepair x y) fun u => u = s) ∧
        ((∀ k ∈ row, (s.tileAt k).part = none) → Performs s (.rowShiftRepair x y) fun u =>
          (u.dieAt (dieXY x y)).shifted = rowNo y :: (s.dieAt (dieXY x y)).shifted ∧
          (∀ n k j, row[n]? = some k → row[n + 1]? = some j →
            u.tileAt k = s.tileAt j ∧ u.coreAt k = s.coreAt j ∧
            (∀ z, z < 2 ^ 21 → u.byte (scratchBase k + z) = s.byte (scratchBase j + z)) ∧
            ∀ z, z < 2 ^ 19 → u.byte (accBase k + z) = s.byte (accBase j + z)) ∧
          (∀ k, row.getLast? = some k → u.tileAt k = {} ∧ u.coreAt k = Core.reset k) ∧
          (∀ k, k ∉ row → u.tileAt k = s.tileAt k ∧ u.coreAt k = s.coreAt k) ∧ ∀ z, z < 2 ^ 40 → u.byte z = s.byte z))

/-! ## Launch and placement -/

/-- R141, R54, R55, R72 to R81: LAUNCH and the host's command read a descriptor and offer it to the arbiter; one that breaks
R55 is refused with STAT 2, a secure one of the host with STAT 3, one that fits nowhere with STAT 4; LAUNCH_RETRY reads an
indirect record in its turn and places the oldest launch that fits: the tiles take the partition's number and place, its
clusters its rods, the root join word the number of initial beads, and one bead a tile is enqueued, the tiles in row-major
order.  A descriptor is one access:
where it leaves its region, or its read fails, STAT is 7.  The model's readings: a secure descriptor of the host is refused with
STAT 3 also where it breaks R55, and the root join word is known by its home address (log 45, DEDUCED both).  Its choices: a
completion record on an import page is accepted, and the launcher of a WSW handler is in its core's world (log 62), a word or a
record over two home units is changed in both (log 58), and a ramp-up with UP = 0 puts the step at 0 (log 61; DESIGN CHOICE all). -/
def Obligations.Launching : Prop :=
  ∀ (s : State),
    let direct (ws : List Word) : Prop := Kd.indirect ws = false ∧ s.neverFits (fld (wd ws 2) 0 5) (fld (wd ws 2) 8 5) = false
    let Waits (u : State) (id : Nat) (by_ : Launcher) (kd : List Word) (w h : Nat) : Prop := ∃ m ∈ u.launches,
      m.id = id ∧ m.by_ = by_ ∧ m.kd = kd ∧ m.w = w ∧ m.h = h ∧ m.ready = true ∧ Ev.launchRetry ∈ u.pend
    let Refused (u : State) (id stat : Nat) (ctag : BitVec 32) : Prop := (∀ m ∈ u.launches, m ∈ s.launches ∧ m.id ≠ id) ∧
      u.host.held = s.host.held ++ [{ stat := stat, ctag := ctag, enk := 0, cyc := 0 }]
    let Fills (s2 u : State) (l stat : Nat) : Prop :=
      s2.Holds (s2.runsFrom l 8 ++ s2.runsFrom (s2.placeFrom l 8) 24) (leBytes 8 (stat * 2 ^ 48 + 2 ^ 32) ++ List.replicate 24 0) u ∧
        metaF (u.metaAt (l / 32)) = true
    (∀ (pfx : Pfx) (a b : Nat),
      let kd := s.sr a
      let cr := s.sr b
      (kd.toNat % 64 ≠ 0 → exec (.launch pfx a b) s = .next (s.trap { cause := 0x06, va := kd })) ∧
      (∀ f, kd.toNat % 64 = 0 → s.probeRecord cr = .error f → exec (.launch pfx a b) s = .next (s.trap f)) ∧
      (∀ loc f, kd.toNat % 64 = 0 → s.probeRecord cr = .ok loc → s.readKd (s.origin cr).issuer kd = .error f →
        let s2 := (((s.noteFailed (s.origin cr).issuer kd 128 f).clearR s.cur).setEmpty loc).retire
        Answers (exec (.launch pfx a b) s) fun t =>
          RegsSame s.me t.me [] ∧ CommitsAt { s.me with tlb := t.me.tlb } t.me s.me.npc 0 ∧ OthersSame s t s.cur ∧
          t.nextLaunch = s.nextLaunch + 1 ∧ (∀ m ∈ t.launches, m ∈ s.launches) ∧
          ∀ l, cr ≠ 0 → s2.probe (s.origin cr).issuer cr 32 32 = .ok l → Fills s2 t l 7) ∧
      ∀ loc bs, kd.toNat % 64 = 0 → s.probeRecord cr = .ok loc →
        let i := (s.origin cr).issuer
        s.readKd i kd = .ok bs →
        let ws := wordsOf 16 bs
        let s2 := (((s.noteRange i kd 128).clearR s.cur).setEmpty loc).retire
        Answers (exec (.launch pfx a b) s) fun t =>
          RegsSame s.me t.me [] ∧ CommitsAt { s.me with tlb := t.me.tlb } t.me s.me.npc 0 ∧ OthersSame s t s.cur ∧ t.nextLaunch = s.nextLaunch + 1 ∧
          (kdOk ws s.me.world = true → direct ws →
            Waits t s.nextLaunch (.bead (s.origin cr)) ws (fld (wd ws 2) 0 5) (fld (wd ws 2) 8 5) ∧
            (∀ y, t.byte y = s.byte y) ∧ ∀ l, loc = some l → metaF (t.metaAt (l / 32)) = false) ∧
          (kdOk ws s.me.world = false → (∀ m ∈ t.launches, m ∈ s.launches) ∧
            ∀ l, cr ≠ 0 → s2.probe i cr 32 32 = .ok l → Fills s2 t l 2)) ∧
    (∀ (i : Issuer) (kd : Word) bs, s.readKd i kd = .ok bs ↔ s.regionKey i (padd kd 64) = s.regionKey i kd ∧
      bothLines (s.readPlace i kd 64) (s.readPlace i (padd kd 64) 64) = .ok bs) ∧
    (∀ ctag kd,
      (kd.toNat % 64 ≠ 0 → Performs s (.hostLaunchCommand ctag kd) fun u => u.launches = s.launches ∧
        u.host.held = s.host.held ++ [{ stat := 2, ctag := ctag, enk := 0, cyc := 0 }]) ∧
      (∀ f, kd.toNat % 64 = 0 → s.readKd hostIssuer kd = .error f →
        Performs s (.hostLaunchCommand ctag kd) fun u => Refused u s.nextLaunch 7 ctag) ∧
      ∀ bs, kd.toNat % 64 = 0 → s.readKd hostIssuer kd = .ok bs →
        let ws := wordsOf 16 bs
        (Kd.secure ws = true → Performs s (.hostLaunchCommand ctag kd) fun u => Refused u s.nextLaunch 3 ctag) ∧
        (Kd.secure ws = false → kdOk ws false = false →
          Performs s (.hostLaunchCommand ctag kd) fun u => Refused u s.nextLaunch 2 ctag) ∧
        (Kd.secure ws = false → kdOk ws false = true → Kd.indirect ws = false →
          s.neverFits (fld (wd ws 2) 0 5) (fld (wd ws 2) 8 5) = true →
          Performs s (.hostLaunchCommand ctag kd) fun u => Refused u s.nextLaunch 4 ctag) ∧
        (Kd.secure ws = false → kdOk ws false = true → direct ws → Performs s (.hostLaunchCommand ctag kd) fun u =>
          Waits u s.nextLaunch (.host ctag) ws (fld (wd ws 2) 0 5) (fld (wd ws 2) 8 5) ∧ SameMemory s u ∧ u.cores = s.cores)) ∧
    (∀ id l ctag bs, (s.launches.find? fun m => m.id == id && !m.ready) = some l → l.by_ = .host ctag →
      s.readPlace hostIssuer (wd l.kd 4) 16 = .ok bs →
      let w0 := wd (wordsOf 2 bs) 0
      let sh := wd (wordsOf 2 bs) 1
      let good : Prop := fld w0 13 51 = 0 ∧ fld w0 5 3 = 0 ∧ shapeOk (fld w0 0 5) (fld w0 8 5) sh = true
      (w0 = 0 → sh = 0 → Performs s (.indirectRecordRead id) fun u => Refused u id 0 ctag) ∧
      (¬ (w0 = 0 ∧ sh = 0) → ¬ good → Performs s (.indirectRecordRead id) fun u => Refused u id 2 ctag) ∧
      (¬ (w0 = 0 ∧ sh = 0) → good → s.neverFits (fld w0 0 5) (fld w0 8 5) = true →
        Performs s (.indirectRecordRead id) fun u => Refused u id 4 ctag) ∧
      (¬ (w0 = 0 ∧ sh = 0) → good → s.neverFits (fld w0 0 5) (fld w0 8 5) = false → Performs s (.indirectRecordRead id) fun u =>
        Waits u id (.host ctag) l.kd (fld w0 0 5) (fld w0 8 5) ∧ SameMemory s u ∧ u.cores = s.cores)) ∧
    (∀ l, (s.launches.find? fun l => !l.ready && !s.streamBusy l) = some l → Performs s .launchRetry fun u =>
      u = { s with pend := s.pend ++ [.indirectRecordRead l.id, .launchRetry] }) ∧
    ((s.launches.find? fun l => !l.ready && !s.streamBusy l) = none →
      (∀ l, (s.launches.find? fun l => l.ready && !s.waitsBehind l && s.canPlace l) = some l → Performs s .launchRetry fun u =>
        u = { s with pend := s.pend ++ [.kernelPlacement l.id] }) ∧
      ((s.launches.find? fun l => l.ready && !s.waitsBehind l && s.canPlace l) = none →
        Performs s .launchRetry fun u => u = s)) ∧
    (∀ id l p o loc, (s.launches.find? fun m => m.id == id) = some l → s.freeNumber = some p →
      s.findOrigin l.w l.h (Kd.nrod l.kd) = some o →
      let x := s.newPart l o.1 o.2
      let s1 := s.setUp p x
      s1.probeWord (deviceIssuer (tileAtXY o.1 o.2) (some p) x.world l.kd) (wd l.kd 5) = .ok loc →
      s1.spanPoisoned loc 16 = false → s1.joinCount loc + l.w * l.h ≤ 2 ^ 32 - 1 →
      Performs s (.kernelPlacement id) fun u =>
        s1.Holds (s1.runsFrom loc 4) (leBytes 4 (s1.joinCount loc + l.w * l.h)) u ∧
        u.partAt p = some { x with rootLoc := some (s1.locKey loc) } ∧ (∀ m ∈ u.launches, m.id ≠ id) ∧
        Ev.initialBeadEnqueue p ∈ u.pend ∧
        (∀ k ∈ rectTiles o.1 o.2 l.w l.h,
          let t := u.tileAt k
          let D (i : Nat) := fld l.tshape (16 * i) 16
          t.part = some p ∧ t.idx = tileX k - o.1 ∧ t.idy = tileY k - o.2 ∧ t.idw = l.w ∧ t.idh = l.h ∧ (u.coreAt k).ent = 0 ∧
          (D 0 ≠ 0 →
            t.org = [min (t.idx * ((D 0 + l.w - 1) / l.w)) (D 0), min (t.idy * ((D 1 + l.h - 1) / l.h)) (D 1), 0, 0] ∧
            t.ext = [min ((D 0 + l.w - 1) / l.w) (D 0 - t.org.getD 0 0), min ((D 1 + l.h - 1) / l.h) (D 1 - t.org.getD 1 0),
              D 2, D 3])) ∧
        ∀ k ∈ rectTiles o.1 o.2 l.w l.h, ∀ j r,
          ((s.unitAt (unitOf k)).freeRods.take (Kd.nrod l.kd))[j]? = some r → u.rodAt (unitOf k) r =
            some { part := some p, cap := 2 ^ Kd.ring l.kd, prio := min j 3, world := Kd.secure l.kd, wdog := Kd.wdog l.kd }) ∧
    ∀ p x, s.partAt p = some x →
      (Performs s (.initialBeadEnqueue p) fun u => u.cores = s.cores ∧ SameMemory s u ∧
        (u.partAt p).map Part.startCyc = some s.cyc ∧ ∀ k ∈ x.tiles,
          (u.tileAt k).ramp = (if x.rampUp = 0 then .steady else .up) ∧
          (u.tileAt k).rampStep = (if x.rampUp = 0 then 0 else 7) ∧ u.stepTarget k ≤ (u.tileAt k).step ∧
          (x.rampUp = 0 → (u.tileAt k).step = u.stepTarget k)) ∧
      (let first : BeadRec :=
          { code := padd (wd x.kd 0) (2 * Kd.entry x.kd : Nat), frame := 0, pjoin := wd x.kd 5,
            w3 := setFld 0 33 1 x.world.toNat, arg0 := wd x.kd 12, arg1 := wd x.kd 13, arg2 := wd x.kd 14,
            arg3 := wd x.kd 15 }
       let r (k : Nat) : Nat := ((s.unitAt (unitOf k)).rodsOf (some p)).getD (min (Kd.prio x.kd) (x.nrod - 1)) 0
       let frees (rod : Rod) : List Nat := (List.range rod.cap).filter fun n => (Map.find? rod.slots n).isNone
       let among (ks : List Nat) (k : Nat) : Nat := (ks.filter fun j => unitOf j == unitOf k).length
       (∀ k ∈ x.tiles, ∃ rod, s.rodAt (unitOf k) (r k) = some rod ∧ among x.tiles k ≤ (frees rod).length) →
       Performs s (.initialBeadEnqueue p) fun u => ∀ i k rod, x.tiles[i]? = some k → s.rodAt (unitOf k) (r k) = some rod →
         (u.rodAt (unitOf k) (r k)).map Rod.ready = some (rod.ready ++ (frees rod).take (among x.tiles k)) ∧
         Ev.pickupGrant (unitOf k) ∈ u.pend ∧
         ∃ n, (frees rod)[among (x.tiles.take i) k]? = some n ∧
           u.slotAt ⟨unitOf k, r k, n⟩ = some { use := .ready, record := fitRecord (r k) rod first, uid := s.nextBead + i })

/-! ## The host -/

/-- R67 to R71, R168: writes of the host queue registers, the doorbell that makes the device read the next command in boot
state 3, NOP and unknown commands, completions written in order while the ring has room, with the phase of the pass and one
message, and the host's accesses to the device's memory.  The model's choices: HCQH, HCPT and P stay when a ring's base or size is
rewritten (log 60, DESIGN CHOICE), and a base is kept and used as it is written, low bits and all (log 62, DESIGN CHOICE). -/
def Obligations.HostQueues : Prop :=
  ∀ (s : State),
    let h := s.host
    let Gives (e : Ev) (h' : HostPort) : Prop := Performs s e fun u => u = { s with host := h' }
    let size := 2 ^ (h.hcqn + 4)
    (∀ v,
      (h.hcqh = h.hcqt → Gives (.hostQueueRegisterWrite 0x000 v) { h with hcqb := v } ∧
        Gives (.hostQueueRegisterWrite 0x008 v) { h with hcqn := v.toNat % 16 } ∧
        Gives (.hostQueueRegisterWrite 0x020 v) { h with hcpb := v } ∧
        Performs s (.hostQueueRegisterWrite 0x028 v) fun u =>
          u = { s with host := { h with hcpn := v.toNat % 16 }, pend := s.pend ++ [.completionWrite] }) ∧
      (h.hcqh ≠ h.hcqt → ∀ off ∈ [0x000, 0x008, 0x020, 0x028], Gives (.hostQueueRegisterWrite off v) h) ∧
      Gives (.hostQueueRegisterWrite 0x040 v) { h with hcpi := bitOf v 0 } ∧
      (Performs s (.hostQueueRegisterWrite 0x010 v) fun u => u = s.hcqtDoorbell (v.setWidth 32)) ∧
      (Performs s (.hostQueueRegisterWrite 0x030 v) fun u => u = s.hcphWrite (v.setWidth 32)) ∧
      ∀ off ∈ [0x018, 0x038, 0x100], Gives (.hostQueueRegisterWrite off v) h) ∧
    (∀ v : BitVec 32,
      let tail := v.toNat % size
      (h.state ≠ 3 ∨ h.hcqh = tail ∨ s.hostWaits = true → Gives (.hcqtDoorbell v) { h with hcqt := tail }) ∧
      (h.state = 3 → h.hcqh ≠ tail → s.hostWaits = false → Performs s (.hcqtDoorbell v) fun u =>
        let ws := wordsOf 8 (s.hostBytes (h.hcqb.toNat + 64 * h.hcqh) 64)
        let ctag : BitVec 32 := (wd ws 0).setWidth 32
        u = { s with host := { h with hcqt := tail, hcqh := (h.hcqh + 1) % size }, pend := u.pend } ∧
        (fld (wd ws 0) 56 8 = 0 → u.pend = s.pend ++ [.hostNopCommand ctag]) ∧
        (fld (wd ws 0) 56 8 = 1 → u.pend = s.pend ++ [.hostLaunchCommand ctag (wd ws 1)]) ∧
        (1 < fld (wd ws 0) 56 8 → u.pend = s.pend ++ [.hostUnknownCommand ctag])) ∧
      Performs s (.hcphWrite v) fun u =>
        u = { s with host := { h with hcph := v.toNat, msiSent := false }, pend := s.pend ++ [.completionWrite] }) ∧
    (∀ ctag, (Performs s (.hostNopCommand ctag) fun u => SameMemory s u ∧ u.cores = s.cores ∧
        u.host.held = h.held ++ [{ stat := 0, ctag := ctag, enk := 0, cyc := 0 }]) ∧
      Performs s (.hostUnknownCommand ctag) fun u => SameMemory s u ∧ u.cores = s.cores ∧
        u.host.held = h.held ++ [{ stat := 6, ctag := ctag, enk := 0, cyc := 0 }]) ∧
    (let csize := 2 ^ (h.hcpn + 4)
     let full : Prop := (h.hcpt + 1) % csize = h.hcph % csize
     (h.held = [] ∨ full → Performs s .completionWrite fun u => u = s) ∧
     ∀ c rest, h.held = c :: rest → ¬ full → c.stat < 256 → Performs s .completionWrite fun u =>
        let a := h.hcpb.toNat + 32 * h.hcpt
        let w0 : Word := BitVec.ofNat 64 (leNat (u.hostBytes a 8))
        fld w0 48 8 = c.stat ∧ bitOf w0 32 = h.phase ∧ fld w0 0 32 = c.ctag.toNat ∧
        leNat (u.hostBytes (a + 8) 8) = c.enk.toNat ∧ leNat (u.hostBytes (a + 16) 8) = c.cyc.toNat ∧
        (∀ y, y < a ∨ a + 32 ≤ y → u.hostBytes y 1 = s.hostBytes y 1) ∧
        u.host = { h with
          held := rest, hcpt := (h.hcpt + 1) % csize, phase := if (h.hcpt + 1) % csize = 0 then !h.phase else h.phase
          msiSent := h.msiSent || h.hcpi } ∧
        u.outbox = s.outbox ++ (if h.hcpi && !h.msiSent then [.msix h.msixAddr h.msixData] else []) ∧ SameMemory s u ∧ u.cores = s.cores) ∧
    ∀ off n write,
      let pa := off % 2 ^ 40
      let va : Word := BitVec.ofNat 64 (off / 2 ^ 40 % 256 * 2 ^ 56 + pa)
      (∀ bs, s.readPieces hostIssuer va (n + 1) n = .ok bs → Performs s (.hostMemAccess off n none) fun u =>
        u = { s with outbox := s.outbox ++ [.hostData bs], acnt := u.acnt }) ∧
      (∀ bs ps, s.writePieces hostIssuer va (bs.length + 1) bs.length = .ok ps →
        Performs s (.hostMemAccess off n (some bs)) fun u =>
          s.Holds ps bs u ∧ u.cores = s.cores) ∧
      ∀ f, (write = none ∧ s.readPieces hostIssuer va (n + 1) n = .error f) ∨
          (∃ bs, write = some bs ∧ s.writePieces hostIssuer va (bs.length + 1) bs.length = .error f) →
        Performs s (.hostMemAccess off n write) fun u =>
          u.cores = s.cores ∧ u.host = h ∧ u.outbox = s.outbox ++ (if write.isNone then [.hostPoison] else []) ∧
          ((s.dieAt 0).events.length < 256 → ∃ w, (u.dieAt 0).events = (s.dieAt 0).events ++ [w] ∧ fld w 56 8 = 5)

/-! ## Retirement, power, the device -/

/-- R392, R393, R394 to R398, R85, R141: a partition whose root join word has reached 0 posts its completion once nothing of it is
under way, to the host or as the completion record of its LAUNCH, with STAT 1 when what R392 stops or checks finds
something: a running stream, a held handle, a pending node, an armed barrier, a waiting bead; ramps move by one step when the step's time is over, and a ramp-down that has
reached step 7 releases the partition; a tile's step falls by one at most and not twice in a microsecond, whoever lowers it, and a
cause raises it at once.  ENT and ENK never decrease: the energy added is the model's open constant, and a sum beyond 64 bits stays at
the largest word (log 5, DESIGN CHOICE); a completion record over two home units is filled
in both, which is the model's choice (log 58, DESIGN CHOICE). -/
def Obligations.PowerAndRetirement : Prop :=
  ∀ (s : State) (p : Nat) (x : Part), s.partAt p = some x →
    let lowered (t : Tile) (k target : Nat) : Nat × Option Word :=
      let low := max (t.step - 1) target
      if t.step ≤ low then (low, t.fell) else if s.mayFall k then (low, some s.cyc) else (t.step, t.fell)
    (∀ k, s.mayFall k = true ↔ ∀ c, (s.tileAt k).fell = some c → 1700 ≤ (s.cyc - c).toNat) ∧
    (x.phase = .quiesce → s.quiet p x = false → Performs s (.retirementQuiesceComplete p) fun u =>
      u = { s with timers := s.timers ++ [.retirementQuiesceComplete p] }) ∧
    (∀ k c, c ∈ s.findings k ↔ (c = 0x11 ∧ (s.coreAt k).a ≠ []) ∨ (c = 0x12 ∧ (s.tileAt k).nodes ≠ []) ∨
      (c = 0x1B ∧ ∃ e ∈ (s.tileAt k).bars, e.2.arr = true)) ∧
    (let found : Prop := (∃ v, v < 48 ∧ s.runningStreams p v ≠ []) ∨ (∃ k ∈ x.tiles, s.findings k ≠ []) ∨
      ∃ v ∈ x.units, ∃ r ∈ (s.unitAt v).rodsOf (some p), (∃ rod, s.rodAt v r = some rod ∧ rod.waiting ≠ []) ∨
        ∃ o ∈ (s.unitAt v).overflow, o.rod = r
     let Retires (stat : Nat) : Prop := Performs s (.retirementQuiesceComplete p) fun u =>
      (∀ ctag, x.launcher = .host ctag → u.host.held = s.host.held ++
          [{ stat := stat, ctag := ctag, enk := x.enk, cyc := s.cyc - x.startCyc }]) ∧
      (let s1 := ((s.putPart p { x with recorded := false }).stopStreams p).checkPart p x
       ∀ o loc, x.launcher = .bead o → o.cr ≠ 0 → s1.probe o.issuer o.cr 32 32 = .ok loc →
        s1.Holds (s1.runsFrom loc 8 ++ s1.runsFrom (s1.placeFrom loc 8) 24) (leBytes 8 (stat * 2 ^ 48 + 2 ^ 32) ++
          leBytes 8 x.enk.toNat ++ leBytes 8 (s.cyc - x.startCyc).toNat ++ List.replicate 8 0) u ∧
        metaF (u.metaAt (loc / 32)) = true) ∧
      (∀ k ∈ x.tiles, k < 384 → (u.coreAt k).a = [] ∧ (u.tileAt k).nodes = [] ∧
        ∀ e ∈ (u.tileAt k).bars, e.2.arr = false) ∧
      (u.partAt p = none ∨ (u.partAt p).map Part.phase = some .rampDown) ∧ Ev.launchRetry ∈ u.pend
     x.phase = .quiesce → s.quiet p x = true →
      (found → Retires 1) ∧ (¬ found → Retires 0)) ∧
    ((∀ k ∈ x.tiles, (s.tileAt k).ramp = .up) → x.tiles ≠ [] →
      (s.rampDue x = false → Performs s (.rampUpStep p) fun u => u = { s with timers := s.timers ++ [.rampUpStep p] }) ∧
      (s.rampDue x = true → x.tiles.Nodup → Performs s (.rampUpStep p) fun u =>
        u.partAt p = some { x with rampFrom := s.cyc } ∧ u.cores = s.cores ∧ SameMemory s u ∧
        ∀ k ∈ x.tiles, (u.tileAt k).rampStep = (s.tileAt k).rampStep - 1 ∧
          ((u.tileAt k).step, (u.tileAt k).fell) = lowered (s.tileAt k) k (u.stepTarget k) ∧
          (u.tileAt k).ramp = if (s.tileAt k).rampStep ≤ 1 then .steady else .up)) ∧
    (x.phase = .rampDown →
      (s.rampDue x = false → Performs s (.rampDownStep p) fun u => u = { s with timers := s.timers ++ [.rampDownStep p] }) ∧
      (s.rampDue x = true → x.tiles.Nodup →
        ((∃ k ∈ x.tiles, (s.tileAt k).rampStep < 6) → Performs s (.rampDownStep p) fun u =>
          u.partAt p = some { x with rampFrom := s.cyc } ∧ u.timers = s.timers ++ [.rampDownStep p] ∧
          ∀ k ∈ x.tiles, (u.tileAt k).rampStep = min 7 ((s.tileAt k).rampStep + 1) ∧
            (s.tileAt k).step ≤ (u.tileAt k).step) ∧
        ((∀ k ∈ x.tiles, 6 ≤ (s.tileAt k).rampStep) → Performs s (.rampDownStep p) fun u =>
          u.partAt p = none ∧ (∀ k ∈ x.tiles, (u.tileAt k).part = none ∧ (u.tileAt k).ramp = .steady) ∧
          (∀ k ∈ x.tiles, ∀ r rod, u.rodAt (unitOf k) r = some rod → rod.part ≠ some p) ∧
          u.pend = s.pend ++ [.launchRetry]))) ∧
    (Performs s .energyUpdate fun u => u = { s with cores := u.cores, parts := u.parts } ∧
      (∀ k, k < 416 → u.coreAt k = { s.coreAt k with ent := (u.coreAt k).ent } ∧ (u.coreAt k).ent.toNat =
        if s.partOf k = none then (s.coreAt k).ent.toNat
        else min (2 ^ 64 - 1) ((s.coreAt k).ent.toNat + Config.tileEnergy k s.tick)) ∧
      ∃ y, u.partAt p = some { x with enk := y } ∧
        y.toNat = min (2 ^ 64 - 1) (x.tiles.map fun k => (u.coreAt k).ent.toNat).sum ∧
        (x.enk.toNat ≤ (x.tiles.map fun k => (s.coreAt k).ent.toNat).sum → x.enk.toNat ≤ y.toNat)) ∧
    (Performs s .throttleStepDecay fun u => u = { s with tiles := u.tiles } ∧ ∀ k, k < 384 →
      let y := lowered (s.tileAt k) k (s.stepTarget k)
      u.tileAt k = { s.tileAt k with step := y.1, fell := y.2 }) ∧
    ∀ die cause demand, Performs s (.throttleCauseDemand die cause demand) fun u =>
      u = { s with tiles := u.tiles, dies := u.dies } ∧
      (u.dieAt die).cur = (if cause = 0 then min demand 7 else (s.dieAt die).cur) ∧
      (u.dieAt die).tmp = (if cause = 1 then min demand 7 else (s.dieAt die).tmp) ∧
      (u.dieAt die).row = (if cause ≠ 0 ∧ cause ≠ 1 then min demand 7 else (s.dieAt die).row) ∧
      ∀ k, k < 384 → dieOf k = die → (u.tileAt k).step = max (s.tileAt k).step (u.stepTarget k)

/-- R155 to R159, R170, R385, R386: an access of another device is refused, or performed at its home address, each home unit where its entry says; the lines of a unit
that another device's home hem moves here or away go with their metadata; an entry of the
home indirection is written unless its unit moves, and a move puts the unit's bytes at their new place; a checkpoint sends every
dirty line to both buddies and, once both have acknowledged, clears D of what nothing has written since; a dead link is told to
every device and every steward, one of which another device tells to every steward; system registers keep their Reserved fields, and the ingress import table is read-only
(log 25, DEDUCED).  The model's choices: an access beyond 2^40 is refused, and a device is dead through the input `lost` (log 20,
DESIGN CHOICE both). -/
def Obligations.DeviceSteps : Prop :=
  ∀ (s : State),
    let Replies (u : State) (q : PeerReq) (r : PeerReply) : Prop := u.outbox = s.outbox ++ [.reply q.dev r]
    let Serves (e : Ev) (q : PeerReq) (rs : List (Nat × Nat)) : Prop :=
      let loc := firstRun rs
      let miss := rs.findSome? fun r => s.tagMiss r.1 r.2 q.tag
      let bad : Bool := rs.any fun r => s.poisoned r.1 r.2
      let bs := rs.flatMap fun r => s.look r.1 r.2
      (PeerOp.checked q.op = true → ∀ g t, miss = some (g, t) → Performs s e fun u => Replies u q (.tag t) ∧ SameMemory s u) ∧
      (∀ bs ms, q.op = .lineIn bs ms → bs.length ≤ 64 → Performs s e fun u => Replies u q (.data []) ∧
        u.bytes loc bs.length = bs ∧ (∀ y, ¬ s.Stores loc bs.length y → u.byte y = s.byte y) ∧ u.cores = s.cores ∧
        (s.moves = [] → ∀ j m, ms[j]? = some m → u.metaAt (loc / 32 + j) = m)) ∧
      (q.op = .lineOut → s.poisoned loc 64 = false → Performs s e fun u => SameMemory s u ∧ Replies u q
        (.data (s.look loc 64 ++ leBytes 2 (s.metaSeen (loc / 32)).toNat ++ leBytes 2 (s.metaSeen (loc / 32 + 1)).toNat))) ∧
      (miss = none →
        (q.op = .read → bad = false → Performs s e fun u => Replies u q (.data bs) ∧ SameMemory s u ∧ u.cores = s.cores) ∧
        (q.op = .read → bad = true → Performs s e fun u => Replies u q .bad ∧ SameMemory s u) ∧
        (∀ fn signed b x, q.op = .atomic fn signed b x → bad = false → Performs s e fun u =>
          Replies u q (.data (leBytes q.n (leNat bs))) ∧ u.cores = s.cores ∧
          (∀ y, (∀ r ∈ rs, ¬ s.Stores r.1 r.2 y) → u.byte y = s.byte y) ∧
          (s.Apart rs → bs = s.bytesIn rs →
            u.bytesIn rs = leBytes q.n (atomNew fn signed (8 * q.n) (leNat bs) b.toNat x.toNat))) ∧
        ∀ bs, q.op = .write bs → bs.length = q.n → Performs s e fun u =>
          Replies u q (.data []) ∧ s.Holds rs bs u ∧ u.cores = s.cores)
    let Only (e : Ev) (q : PeerReq) (r : PeerReply) : Prop := Performs s e fun u =>
      u = { s with outbox := s.outbox ++ [.reply q.dev r] }
    (∀ (place : Nat → Nat) (a n : Nat), (unitRuns place a n).flatMap (fun r => (List.range r.2).map (r.1 + ·)) =
      (List.range n).map fun j =>
        let b := max ((a + j) / 4096 * 4096) a
        place b + (a + j - b)) ∧
    (∀ q : PeerReq,
      let w0 := s.sysReg 0x048 (16 * (q.ent % 256))
      let pa := fld (s.sysReg 0x048 (16 * (q.ent % 256) + 8)) 16 24 * 65536 + q.off
      let admitted : Prop := PeerOp.moves q.op = false ∧ bitOf w0 63 = true ∧ fld w0 24 12 = q.key ∧ (fld w0 36 12 = 0xFFF ∨ fld w0 36 12 = q.dev) ∧
        q.off + q.n ≤ fld w0 0 24 * 65536 ∧ (PeerOp.writes q.op = true → bitOf w0 61 = true) ∧
        (bitOf w0 62 = true → q.secure = true)
      let gone := s.lostIn pa q.n
      (¬ admitted → Only (.ingressImportAccess q) q .refused) ∧
      (admitted → q.secure = false → s.secureIn pa q.n = true → Only (.ingressImportAccess q) q .world) ∧
      (admitted → (q.secure = true ∨ s.secureIn pa q.n = false) →
        (2 ^ 40 < pa + q.n → Only (.ingressImportAccess q) q .refused) ∧
        (pa + q.n ≤ 2 ^ 40 → gone = true → Only (.ingressImportAccess q) q .dead) ∧
        (pa + q.n ≤ 2 ^ 40 → gone = false → Serves (.ingressImportAccess q) q (unitRuns s.current pa q.n))) ∧
      (2 ^ 40 < q.off + q.n → Only (.forwardedAccess q) q .refused) ∧
      (q.off + q.n ≤ 2 ^ 40 → Serves (.forwardedAccess q) q (unitRuns id q.off q.n))) ∧
    (∀ pa n, 0 < n → (s.secureIn pa n = true ↔ ∃ y, pa ≤ y ∧ y < pa + n ∧ s.securePa y = true) ∧
      (s.lostIn pa n = true ↔ ∃ y, pa ≤ y ∧ y < pa + n ∧ s.lost.contains (fld (s.indir y) 32 12) = true)) ∧
    (∀ n v,
      (bitOf (s.indir (4096 * n)) 62 = true → ∀ w, Performs s (.indirectionEntryWrite n w v) fun u => u = s) ∧
      (bitOf (s.indir (4096 * n)) 62 = false →
        (bitOf v 62 = false → Performs s (.indirectionEntryWrite n 0 v) fun u => u = { s with sys := u.sys } ∧
          u.indir (4096 * n) = clearFlds v [(44, 18), (28, 4)]) ∧
        (bitOf v 62 = true → Performs s (.indirectionEntryWrite n 0 v) fun u =>
          u.indir (4096 * n) = clearFlds v [(44, 18), (28, 4)] ∧ u.timers = s.timers ++ [.pageMoveComplete n] ∧
          u.moves = (u.current (4096 * n) / 4096, u.moveTarget n / 4096) :: s.moves ∧ SameMemory s u ∧ u.cores = s.cores) ∧
        Performs s (.indirectionEntryWrite n 1 v) fun u => u = { s with sys := u.sys, acnt := u.acnt, units := u.units } ∧
          (∀ k, u.unitAt k = { s.unitAt k with hits := Map.del (s.unitAt k).hits n }) ∧ u.accesses n = fld v 48 16 ∧
          u.sysReg (unitBlock n) (unitOff n + 8) = clearFlds v [(44, 20), (28, 4)])) ∧
    (∀ n,
      let w1 := s.sysReg (unitBlock n) (unitOff n + 8)
      let src := s.current (4096 * n)
      let dst := s.moveTarget n
      (bitOf (s.indir (4096 * n)) 62 = false → Performs s (.pageMoveComplete n) fun u => u = s) ∧
      (bitOf (s.indir (4096 * n)) 62 = true → Performs s (.pageMoveComplete n) fun u =>
        u.bytes dst 4096 = s.bytes src 4096 ∧ (∀ y, y < dst ∨ dst + 4096 ≤ y → u.byte y = s.byte y) ∧
        (∀ g, g < 128 → u.metaAt (dst / 32 + g) = s.metaAt (src / 32 + g)) ∧
        fld (u.indir (4096 * n)) 32 12 = fld w1 32 12 ∧ fld (u.indir (4096 * n)) 0 28 = fld w1 0 28 ∧
        bitOf (u.indir (4096 * n)) 62 = false ∧
        (bitOf (u.indir (4096 * n)) 63 = true ↔ ¬ (fld w1 32 12 = s.devId ∧ fld w1 0 28 = n)) ∧ u.cores = s.cores)) ∧
    (Performs s .checkpointGo fun u => SameMemory s u ∧ u.cores = s.cores ∧ bitOf (u.sysReg 0x070 0) 1 = true ∧
      u.ckptAcks = [] ∧
      ∀ g, g < 2 ^ 35 →
        ((∃ m, (g, m) ∈ s.gmeta ∧ metaD m = true) ∨
          ∃ v h, h ∈ (s.unitAt v).wrote ∧ h ∈ (u.unitAt v).sent ∧ g = s.current (32 * h) / 32) → g ∈ u.ckpt ∧
        ∀ buddy ∈ [fld (s.sysReg 0x070 0) 32 12, fld (s.sysReg 0x070 0) 44 12],
          Out.checkpoint buddy (64 * (g / 2)) (lineBytes (s.look (64 * (g / 2)) 64)) ∈ u.outbox) ∧
    (s.bothAcked = false → Performs s .checkpointComplete fun u => u = s) ∧
    (s.bothAcked = true → Performs s .checkpointComplete fun u => (∀ y, u.byte y = s.byte y) ∧ u.cores = s.cores ∧ u.ckpt = [] ∧
      bitOf (u.sysReg 0x070 0) 1 = false ∧ (∀ g, g ∉ s.ckpt → u.metaAt g = s.metaAt g) ∧
      (∀ v, (u.unitAt v).wrote = (s.unitAt v).wrote.filter fun g => !(s.unitAt v).sent.contains g) ∧
      ∀ g ∈ s.ckpt, u.metaAt g = mkMeta false (metaW (s.metaAt g)) (metaF (s.metaAt g)) (metaTag (s.metaAt g))) ∧
    (∀ die port,
      ((s.dieAt die).deadPorts.contains port = true → Performs s (.linkDeadDeclaration die port) fun u => u = s) ∧
      ((s.dieAt die).deadPorts.contains port = false → Performs s (.linkDeadDeclaration die port) fun u =>
        (u.dieAt die).deadPorts = port :: (s.dieAt die).deadPorts ∧ u.timers = s.timers ++ [.drainRoundExpiry die port 1] ∧
        u.outbox = s.outbox ++ [.linkDead die port] ∧
        u.cores = s.cores ∧ SameMemory s u ∧ ∀ d, d < 4 → (s.dieAt d).events.length < 256 →
          ∃ w, (u.dieAt d).events = (s.dieAt d).events ++ [w] ∧ fld w 56 8 = 4) ∧
      ∀ round, Performs s (.drainRoundExpiry die port round) fun u => u = { s with
        timers := s.timers ++ (if round < 3 then [.drainRoundExpiry die port (round + 1)] else []) }) ∧
    (∀ dev die port r, s.pass.watchdogDue = none → s.pend = [] → s.sched = .linkUpdate dev die port :: r →
      Answers (step s) fun u => u = { s.pass with sched := r, dies := u.dies, free := u.free } ∧
        ∀ d, d < 4 → (s.dieAt d).events.length < 256 →
          ∃ w, (u.dieAt d).events = (s.dieAt d).events ++ [w] ∧ fld w 56 8 = 4) ∧
    ∀ block off v, off < 2 ^ 40 →
      let Holds (res : List (Nat × Nat)) : Prop := Performs s (.systemRegisterWrite block off v) fun u =>
        u = { s with sys := u.sys } ∧ u.sysReg block off = clearFlds v res ∧
        ∀ b o, o < 2 ^ 40 → (b, o) ≠ (block, off) → u.sysReg b o = s.sysReg b o
      (block = 0x001 → Holds [(40, 24), (1, 12)]) ∧ (block = 0x002 → Holds [(12, 52)]) ∧
      (0x010 ≤ block → block < 0x040 → Holds [(56, 5), (16, 32), (7, 1)]) ∧
      (0x040 ≤ block → block < 0x044 → off % 16 = 0 → Holds [(40, 23), (0, 12)]) ∧
      (0x040 ≤ block → block < 0x044 → off % 16 ≠ 0 → Holds [(40, 24), (0, 12)]) ∧
      (block = 0x071 → Holds [(32, 32)]) ∧ (0x07C ≤ block → block < 0x080 → Holds [(40, 24), (1, 6)]) ∧
      (block = 0x048 → Performs s (.systemRegisterWrite block off v) fun u => u = s) ∧
      (block = 0x070 → off = 0 → bitOf v 0 = true → bitOf (s.sysReg 0x070 0) 1 = false →
        Performs s (.systemRegisterWrite block off v) fun u => u.pend = s.pend ++ [.checkpointGo] ∧
          fld (u.sysReg 0x070 0) 32 24 = fld v 32 24)

/-- R399, R369, R387, R400: a reset whose four images pass the boot ROM's checks ends in boot state 3 with each steward core at
its image's entry in the secure world, its data address in s1 and its die in s2; any failure ends in boot state 4 with FAIL;
SVEC is kept.  The model's choices: the boot is one step, the first image that fails decides FAIL, and then no steward core
starts (log 47, DESIGN CHOICE); the reset clears every memory, and the fences and row shifts stay (log 9, DESIGN CHOICE).  A report is the key, the digests, the boot state and the nonce, with its signature (layout: log 19). -/
def Obligations.ResetAndBoot : Prop :=
  (∀ x : BootImage, bootCheck true x = 0 ↔ Config.sha256 x.key = Config.fusedKeyDigest ∧ x.signature.length = 16224 ∧
    Config.slhDsaVerify x.key (Config.sha256 x.image) x.signature = true ∧ x.formatOk = true) ∧
  (∀ x : BootImage, Config.sha256 x.key ≠ Config.fusedKeyDigest → bootCheck true x = 3) ∧
  ∀ (s : State) (flashOk : Bool) (images : List BootImage),
    (flashOk = false → bootFail flashOk images = 1) ∧
    (images.length = 4 → (bootFail true images = 0 ↔ ∀ x ∈ images, bootCheck true x = 0)) ∧
    (bootFail flashOk images ≠ 0 → Performs s (.deviceReset flashOk images) fun u =>
      u.host.state = 4 ∧ u.host.fail = bootFail flashOk images ∧ (∀ k, u.coreAt k = Core.reset k) ∧ u.parts = [] ∧
      (∀ y, y < 2 ^ 54 → u.byte y = 0) ∧ (∀ k, k < 384 → (u.tileAt k).fenced = (s.tileAt k).fenced) ∧
      ∀ d, d < 4 → (u.dieAt d).svec = (s.dieAt d).svec ∧ (u.dieAt d).shifted = (s.dieAt d).shifted) ∧
    (bootFail flashOk images = 0 → Performs s (.deviceReset flashOk images) fun u =>
      u.host.state = 3 ∧ u.host.fail = 0 ∧ u.parts = [] ∧ u.launches = [] ∧
      (∀ k, k < 384 → u.tileAt k = { fenced := (s.tileAt k).fenced }) ∧
      (∀ k, k < 416 → u.coreAt k = Core.reset k) ∧
      (∀ y, y < 2 ^ 54 → (∀ x ∈ images, y < x.load ∨ x.load + x.image.length ≤ y) → u.byte y = 0) ∧
      ∀ d x, images[d]? = some x →
        (u.coreAt (416 + d)).mode = .running ∧ (u.coreAt (416 + d)).world = true ∧ (u.coreAt (416 + d)).pc = x.entry ∧
        (u.coreAt (416 + d)).sReg 1 = x.data ∧ (u.coreAt (416 + d)).sReg 2 = BitVec.ofNat 64 d ∧
        (u.dieAt d).digest = Config.sha256 x.image ∧ (u.dieAt d).svec = (s.dieAt d).svec) ∧
    Config.identityKey.length = 48 ∧ ∀ nonce, Performs s (.attestationRequest nonce) fun u => ∃ body,
      u = { s with outbox := s.outbox ++ [.report (body ++ Config.slhDsaSign body)] } ∧
      body = Config.identityKey ++ digestBytes (Config.sha256 Config.bootRom) ++
        ([0, 1, 2, 3].flatMap fun d => if (s.dieAt d).boot then digestBytes (s.dieAt d).digest else []) ++
        leBytes 8 (s.host.fail % 256 * 256 + s.host.state % 16) ++ digestBytes nonce

/-! ## The machine as a whole -/

/-- R6, R67, R161, R399, R369: the machine right after reset: every register of every core reads 0 but SCB, which has the value
of R161 (0 where the manual gives no reset value: the model's choice, log 9); no partition, no launch, no copy; boot state 0;
the memories are in their canonical form (log 8). -/
def Obligations.ResetState : Prop :=
  let s := State.reset
  s.memWf = true ∧ s.parts = [] ∧ s.launches = [] ∧ s.copies = [] ∧ s.ctxs = [] ∧ s.host.state = 0 ∧ s.host.fail = 0 ∧
  s.cyc = 0 ∧ (∀ b o, s.sysReg b o = 0) ∧
  ∀ k, (s.coreAt k).mode = .idle ∧ (s.coreAt k).pc = 0 ∧ (s.coreAt k).flg = 0 ∧ (s.coreAt k).inh = false ∧
    (s.coreAt k).epc = 0 ∧ (s.coreAt k).ecause = 0 ∧ (s.dieAt k).svec = 0 ∧ (s.tileAt k).part = none ∧
    (∀ r, (s.coreAt k).sReg r = 0 ∧ (s.coreAt k).vReg r = 0 ∧ (s.coreAt k).pReg r = 0 ∧ (s.coreAt k).tReg r = none ∧
      (s.coreAt k).aReg r = none) ∧
    (k < 384 → (s.coreAt k).scb = 0x1FE000) ∧ (384 ≤ k → k < 416 → (s.coreAt k).scb = 0x3FC00)

/-- R87, R88, R98, R99, R101, R144, R374: a step runs the device step of a watchdog whose count has reached its limit, then the
device step that is under way first, and otherwise, on the core whose turn it is,
the instruction that its chain decodes to, with the address after the chain and the windows that its commit leaves noted; a
chain that does not decode is an illegal instruction; an instruction that mismatches produces nothing, its third mismatch a
machine check.  Which step comes next is the model's order: a PKL request is due once its core has had 64 turns since it was sent or
runs its bead no more, and then the oldest of that bead to that unit goes (log 1); what a fetch that faults counts in
home units is its choice too (log 26, DESIGN CHOICE both). -/
def Obligations.StepRunsDecoded : Prop :=
  ∀ (s : State),
    let p := s.pass
    (∀ k, p.watchdogDue = some k → Ev.rodWatchdogExpiry k ∈ s.timers ∧
      (∃ b rod, (s.coreAt k).bead = some b ∧ s.rodAt b.unit b.rod = some rod ∧ rod.wdog ≠ 0 ∧ rod.wdog ≤ p.wdNow k ∧
        (s.coreAt k).wdSent = false) ∧
      step s = exec (Ev.rodWatchdogExpiry k).instr
        { p with timers := s.timers.filter (· != .rodWatchdogExpiry k), msg := some (.rodWatchdogExpiry k) }) ∧
    (p.watchdogDue = none →
    (∀ e es, s.pend = e :: es → step s = exec e.instr { p with pend := es, msg := some e }) ∧
    (∀ e es, s.pend = [] → s.sched = .event e :: es → step s = exec e.instr { p with sched := es, msg := some e }) ∧
    (∀ e es, s.pend = [] → s.sched = [] → p.nextRequest = none → s.timers = e :: es →
      (s.nextCore = none ∨ s.rang + 64 ≤ p.tick) →
      step s = exec e.instr { p with timers := es, rang := p.tick, msg := some e }) ∧
    (∀ q, s.pend = [] → s.sched = [] → p.nextRequest = some q →
      step s = exec (pklEvent q).instr { p with requests := s.requests.erase q, msg := some (pklEvent q) }) ∧
    (let Due (q : PklReq) : Prop := 64 ≤ q.age ∨ (s.coreAt q.core).mode ≠ .running ∨ s.beadKey q.core ≠ q.uid
     let Same (x q : PklReq) : Prop := x.uid = q.uid ∧ s.unitOfLayer (s.pklIssuer x) x.ld = s.unitOfLayer (s.pklIssuer q) q.ld
     (p.nextRequest = none ↔ ∀ q ∈ s.requests, ¬ Due q) ∧
     ∀ q, p.nextRequest = some q → ∃ as x bs cs ds, s.requests = as ++ x :: bs ∧ Due x ∧ (∀ y ∈ as, ¬ Due y) ∧
       s.requests = cs ++ q :: ds ∧ Same q x ∧ ∀ y ∈ cs, ¬ Same y x) ∧
    ∀ k, s.pend = [] → s.sched = [] → p.nextRequest = none → (s.timers = [] ∨ p.tick < s.rang + 64) → s.nextCore = some k →
      let c := s.coreAt k
      let p0 : State := { p with cur := k, requests := s.requests.map fun q => if q.core = k then { q with age := q.age + 1 } else q }
      (c.chkMiss ≠ 0 → ∃ t, step s = .next t ∧ SameMemory s t ∧ OthersSame s t k ∧
        t.coreAt k = { c with chkMiss := c.chkMiss - 1, chkRun := if c.chkRun + 1 = 3 then 0 else c.chkRun + 1 } ∧
        t.pend = if c.chkRun + 1 = 3 then [.machineCheck k] else []) ∧
      (∀ f, c.chkMiss = 0 → p.fetchChain k 5 c.pc = .error f → step s = .next ((p0.noteFetch k c.pc f).trap f)) ∧
      ∀ ws, c.chkMiss = 0 → p.fetchChain k 5 c.pc = .ok ws →
        let p1 := p0.noteRange (p0.issuer k .c) c.pc (2 * ws.length)
        (∀ e, decode ws = .error e → step s = .next (p1.trap { cause := 0x03 })) ∧
        (∀ i n, decode ws = .ok (i, n) → c.violates i = false → ∃ t, step s = exec i t ∧
          t = { p0 with cores := t.cores, free := s.free + 5, acnt := t.acnt } ∧ OthersSame s t k ∧
          t.me = { c with npc := padd c.pc (2 * n : Nat), nextWin := windowsAfter c.windows i, tlb := t.me.tlb }) ∧
        (∀ i n, decode ws = .ok (i, n) → c.violates i = true → p0.decodeBars k i = false →
          step s = .next (p1.trap { cause := 0x05 })) ∧
        ∀ pc loc, pc.toNat % 2 = 0 → spaceOf pc = 0 → inImage (p.kdOf k) pc = true →
          p.translate (p.issuer k .c) pc 2 false true = .ok (.mem loc) → p.memCheck (p.issuer k .c) pc loc 2 true = .ok () →
          p.staleWord k loc = false → ∃ w : IWord, p.fetchWord k pc = .ok (p.look loc 2) ∧
            w = BitVec.ofNat 16 (leNat ((p.look loc 2).take 2)) ∧ (isPfx w = false → p.fetchChain k 5 pc = .ok [w]))

/-- R87 to R95, R103, R104: chains written out from their encodings decode to the instructions that they stand for; a page above 6,
a second PAGE, a REG on a BR instruction, a fifth prefix word and an unassigned cell are refused. -/
def Obligations.DecodeWords : Prop :=
  decode [0x01A0#16] = .ok (.add 3 3 4, 1) ∧
  decode [0xF405#16, 0x01A0#16] = .ok (.add 3 4 5, 2) ∧
  decode [0xF007#16, 0x4B68#16] = .ok (.li 6 1000, 2) ∧
  decode [0x67FE#16] = .ok (.b (-2), 1) ∧
  decode [0xF409#16, 0x8905#16] = .ok (.beq 2 9 5, 2) ∧
  decode [0x5182#16] = .ok (.csrr 3 2, 1) ∧
  decode [0xF848#16, 0xFD40#16, 0xF500#16, 0xF12C#16, 0x0090#16] = .ok (.ld ⟨2, 0⟩ .i32 0 17 2 300, 5) ∧
  decode [0xF880#16, 0xFE58#16, 0xF407#16, 0x0890#16] = .ok (.vadd ⟨0, 0⟩ .f16 1 (some 0) 1 2 7, 4) ∧
  decode [0xF8C0#16, 0x0890#16] = .ok (.tmul ⟨0, 0⟩ 0 false 1 1 2, 2) ∧
  decode [0xF900#16, 0xF002#16, 0x0030#16] = .ok (.spawn ⟨0, 0⟩ 6 (.imm 2), 3) ∧
  decode [0xF940#16, 0xFE80#16, 0xF409#16, 0x0040#16] = .ok (.pksc ⟨0, 0⟩ .f32 0 false 8 9, 4) ∧
  decode [0xF980#16, 0xF005#16, 0x0000#16] = .ok (.trap ⟨0, 0⟩ 5, 3) ∧
  decode [0xF980#16, 0x0001#16] = .ok (.eret ⟨0, 0⟩, 2) ∧
  (∀ ws ∈ [[0xF9C0#16, 0x0000#16], [0xF840#16, 0xF840#16, 0x0000#16], [0xF400#16, 0x6000#16],
      [0xF840#16, 0xFC00#16, 0xF000#16, 0xF000#16, 0xF000#16], [0xE800#16], [0x0007#16]], ∀ r, decode ws ≠ .ok r)

/-- R88 to R95, R97, R101, R105: of every well-formed instruction that has an encoding, with every operand at every value that
the encoding admits, the words of its shortest chain decode to it and to no more words, whatever follows them. -/
def Obligations.RoundTrip : Prop :=
  ∀ (i : Instr) (rest : List IWord), i.wf = true → i.isEvent = false →
    decode (encode i ++ rest) = .ok (i, (encode i).length) ∧ 1 ≤ (encode i).length ∧ (encode i).length ≤ 5

/-- The memories keep their canonical form: whatever a step of any instruction or device step does, addresses stay strictly
rising and no entry equals what an unlisted address reads as (the model's own invariant, log 8). -/
def Obligations.StepKeepsMemory : Prop :=
  ∀ (s t : State), s.memWf = true → step s = .next t → t.memWf = true
end

