-- ==== Sys2Proof/Laws/Map.lean ====
section
/-! SUPPORT. Laws of the sparse tables: what a lookup finds after each update, and that every update keeps the canonical
form. -/

namespace Sys2Proof.Map

variable {β : Type}

/-! ### Lookups -/

@[simp] theorem find?_nil (i : Nat) : find? ([] : List (Nat × β)) i = none := rfl

theorem find?_put (m : List (Nat × β)) (i j : Nat) (x : β) :
    find? (put m i x) j = if j = i then some x else find? m j := by
  induction m with
  | nil => simp [put, find?]
  | cons e m ih =>
    obtain ⟨k, v⟩ := e
    simp only [put]
    split_ifs with h1 h2 <;> simp only [find?, ih] <;> split_ifs <;> simp_all

@[simp] theorem find?_put_same (m : List (Nat × β)) (i : Nat) (x : β) : find? (put m i x) i = some x := by
  simp [find?_put]

theorem find?_put_other (m : List (Nat × β)) {i j : Nat} (x : β) (h : j ≠ i) : find? (put m i x) j = find? m j := by
  simp [find?_put, h]

theorem find?_filter (m : List (Nat × β)) (p : Nat → Bool) (j : Nat) :
    find? (m.filter fun e => p e.1) j = if p j then find? m j else none := by
  induction m with
  | nil => simp [find?]
  | cons e m ih =>
    obtain ⟨k, v⟩ := e
    by_cases hp : p k <;> simp only [List.filter, hp, find?, ih] <;> split_ifs <;> simp_all

theorem find?_del (m : List (Nat × β)) (i j : Nat) : find? (del m i) j = if j = i then none else find? m j := by
  rw [del, find?_filter m (fun k => k != i)]
  by_cases h : j = i <;> simp [h]

theorem find?_dropRange (m : List (Nat × β)) (lo n j : Nat) :
    find? (dropRange m lo n) j = if lo ≤ j ∧ j < lo + n then none else find? m j := by
  rw [dropRange, find?_filter m (fun k => !(decide (lo ≤ k) && decide (k < lo + n)))]
  split_ifs <;> simp_all

theorem get_put (m : List (Nat × β)) (d : β) (i j : Nat) (x : β) :
    get (put m i x) d j = if j = i then x else get m d j := by
  unfold get; rw [find?_put]; split_ifs <;> rfl

@[simp] theorem get_put_same (m : List (Nat × β)) (d : β) (i : Nat) (x : β) : get (put m i x) d i = x := by
  simp [get_put]

theorem get_set [DecidableEq β] (m : List (Nat × β)) (d : β) (i j : Nat) (x : β) :
    get (set m d i x) d j = if j = i then x else get m d j := by
  unfold set
  split_ifs with h1 h2 h2
  · subst h1 h2; simp [get, find?_del]
  · simp [get, find?_del, h2]
  · subst h2; simp [get]
  · simp [get, find?_put, h2]

@[simp] theorem get_set_same [DecidableEq β] (m : List (Nat × β)) (d : β) (i : Nat) (x : β) :
    get (set m d i x) d i = x := by
  simp [get_set]

/-! ### The canonical form -/

theorem rising_weaken {m : List (Nat × β)} {lo : Option Nat} (h : rising lo m = true) : rising none m = true := by
  cases m with
  | nil => rfl
  | cons e m => simp_all [rising]

theorem rising_some {m : List (Nat × β)} {l : Nat} :
    rising (some l) m = true ↔ rising none m = true ∧ ∀ e ∈ m, l < e.1 := by
  induction m generalizing l with
  | nil => simp [rising]
  | cons e m ih =>
    obtain ⟨k, v⟩ := e
    simp only [rising, Bool.and_eq_true, decide_eq_true_eq, Bool.true_and, List.mem_cons, forall_eq_or_imp, ih]
    constructor
    · rintro ⟨h1, h2, h3⟩; exact ⟨⟨h2, h3⟩, h1, fun e he => h1.trans (h3 e he)⟩
    · rintro ⟨⟨h2, h3⟩, h1, _⟩; exact ⟨h1, h2, h3⟩

theorem rising_filter {m : List (Nat × β)} (p : Nat × β → Bool) (h : rising none m = true) :
    rising none (m.filter p) = true := by
  induction m with
  | nil => rfl
  | cons e m ih =>
    obtain ⟨k, v⟩ := e
    simp only [rising, Bool.true_and, rising_some] at h
    simp only [List.filter]
    split
    · simp only [rising, Bool.true_and, rising_some]
      exact ⟨ih h.1, fun e he => h.2 e (List.mem_of_mem_filter he)⟩
    · exact ih h.1

theorem mem_put {m : List (Nat × β)} {i : Nat} {x : β} {e : Nat × β} (h : e ∈ put m i x) : e = (i, x) ∨ e ∈ m := by
  induction m with
  | nil => simp_all [put]
  | cons a m ih =>
    obtain ⟨k, v⟩ := a
    simp only [put] at h
    split_ifs at h <;> simp only [List.mem_cons] at h ⊢ <;> tauto

theorem rising_put {m : List (Nat × β)} (i : Nat) (x : β) (h : rising none m = true) :
    rising none (put m i x) = true := by
  induction m with
  | nil => rfl
  | cons a m ih =>
    obtain ⟨k, v⟩ := a
    simp only [rising, Bool.true_and, rising_some] at h
    simp only [put]
    split_ifs with h1 h2
    · subst h1; simpa only [rising, Bool.true_and, rising_some] using h
    · simp only [rising, Bool.true_and, h2, decide_true]
      exact rising_some.2 h
    · simp only [rising, Bool.true_and, rising_some]
      refine ⟨ih h.1, fun e he => ?_⟩
      rcases mem_put he with rfl | he
      · exact Nat.lt_of_le_of_ne (Nat.le_of_not_lt h2) (Ne.symm h1)
      · exact h.2 e he

theorem rising_append {a b : List (Nat × β)} (ha : rising none a = true) (hb : rising none b = true)
    (h : ∀ x ∈ a, ∀ y ∈ b, x.1 < y.1) : rising none (a ++ b) = true := by
  induction a with
  | nil => simpa using hb
  | cons e a ih =>
    obtain ⟨k, v⟩ := e
    simp only [rising, Bool.true_and, rising_some] at ha
    simp only [List.cons_append, rising, Bool.true_and, rising_some, List.mem_append]
    refine ⟨ih ha.1 fun x hx => h x (List.mem_cons_of_mem _ hx), ?_⟩
    rintro e (he | he)
    · exact ha.2 e he
    · exact h (k, v) (List.mem_cons_self ..) e he

theorem rising_shift {src dst : Nat} {a : List (Nat × β)} (ha : rising none a = true) (h : ∀ x ∈ a, src ≤ x.1) :
    rising none (a.map fun (e : Nat × β) => (e.1 - src + dst, e.2)) = true := by
  induction a with
  | nil => rfl
  | cons e a ih =>
    obtain ⟨k, v⟩ := e
    simp only [rising, Bool.true_and, rising_some] at ha
    simp only [List.map, rising, Bool.true_and, rising_some, List.mem_map, forall_exists_index, and_imp]
    refine ⟨ih ha.1 fun x hx => h x (List.mem_cons_of_mem _ hx), ?_⟩
    rintro e y hy rfl
    have h1 := ha.2 y hy
    have h2 := h (k, v) (List.mem_cons_self ..)
    simp only at h2 ⊢
    omega

variable [DecidableEq β] {d : β} {m : List (Nat × β)}

theorem wf_iff : wf d m = true ↔ rising none m = true ∧ ∀ e ∈ m, e.2 ≠ d := by simp [wf]

@[simp] theorem wf_nil : wf d ([] : List (Nat × β)) = true := rfl

theorem wf_filter (p : Nat × β → Bool) (h : wf d m = true) : wf d (m.filter p) = true := by
  rw [wf_iff] at h ⊢
  exact ⟨rising_filter p h.1, fun e he => h.2 e (List.mem_of_mem_filter he)⟩

theorem wf_set (i : Nat) (x : β) (h : wf d m = true) : wf d (set m d i x) = true := by
  unfold set
  split_ifs with hx
  · exact wf_filter _ h
  · rw [wf_iff] at h ⊢
    refine ⟨rising_put i x h.1, fun e he => ?_⟩
    rcases mem_put he with rfl | he
    · exact hx
    · exact h.2 e he

theorem wf_dropRange (lo n : Nat) (h : wf d m = true) : wf d (dropRange m lo n) = true := wf_filter _ h

/-- The copy of a range keeps the canonical form. -/
theorem wf_copyRange (src dst n : Nat) (h : wf d m = true) : wf d (copyRange m src dst n) = true := by
  rw [wf_iff] at h ⊢
  unfold copyRange
  constructor
  · refine rising_append (rising_append (rising_filter _ h.1) (rising_shift (rising_filter _ h.1) ?_) ?_)
      (rising_filter _ h.1) ?_
    · intro x hx; simp_all
    · intro x hx y hy
      simp only [List.mem_filter, List.mem_map, decide_eq_true_eq, Bool.and_eq_true] at hx hy
      obtain ⟨z, hz, rfl⟩ := hy
      simp only; omega
    · intro x hx y hy
      simp only [List.mem_append, List.mem_filter, List.mem_map, decide_eq_true_eq, Bool.and_eq_true] at hx hy
      rcases hx with hx | ⟨z, hz, rfl⟩
      · omega
      · simp only; omega
  · intro e he
    simp only [List.mem_append, List.mem_filter, List.mem_map] at he
    rcases he with (he | ⟨z, hz, rfl⟩) | he
    · exact h.2 e he.1
    · exact h.2 z hz.1
    · exact h.2 e he.1

end Sys2Proof.Map
end

