-- ==== Sys2Proof/Laws/State.lean ====
section
/-! SUPPORT. One lemma per field per update: what each accessor of State and of Core leaves as it was, and what it
changes. -/

namespace Sys2Proof.Machine

open Sys2Proof

namespace State

/-! `putCore` -/

@[simp] theorem putCore_mem (s : State) (k : Nat) (c : Core) : (s.putCore k c).mem = s.mem := rfl
@[simp] theorem putCore_gmeta (s : State) (k : Nat) (c : Core) : (s.putCore k c).gmeta = s.gmeta := rfl
@[simp] theorem putCore_hostMem (s : State) (k : Nat) (c : Core) : (s.putCore k c).hostMem = s.hostMem := rfl
@[simp] theorem putCore_sys (s : State) (k : Nat) (c : Core) : (s.putCore k c).sys = s.sys := rfl
@[simp] theorem putCore_acnt (s : State) (k : Nat) (c : Core) : (s.putCore k c).acnt = s.acnt := rfl
@[simp] theorem putCore_poison (s : State) (k : Nat) (c : Core) : (s.putCore k c).poison = s.poison := rfl
@[simp] theorem putCore_moves (s : State) (k : Nat) (c : Core) : (s.putCore k c).moves = s.moves := rfl
@[simp] theorem putCore_exports (s : State) (k : Nat) (c : Core) : (s.putCore k c).exports = s.exports := rfl
@[simp] theorem putCore_lost (s : State) (k : Nat) (c : Core) : (s.putCore k c).lost = s.lost := rfl
@[simp] theorem putCore_peerParks (s : State) (k : Nat) (c : Core) : (s.putCore k c).peerParks = s.peerParks := rfl
@[simp] theorem putCore_written (s : State) (k : Nat) (c : Core) : (s.putCore k c).written = s.written := rfl
@[simp] theorem putCore_cores (s : State) (k : Nat) (c : Core) : (s.putCore k c).cores = Map.put s.cores k c := rfl
@[simp] theorem putCore_tiles (s : State) (k : Nat) (c : Core) : (s.putCore k c).tiles = s.tiles := rfl
@[simp] theorem putCore_units (s : State) (k : Nat) (c : Core) : (s.putCore k c).units = s.units := rfl
@[simp] theorem putCore_dies (s : State) (k : Nat) (c : Core) : (s.putCore k c).dies = s.dies := rfl
@[simp] theorem putCore_links (s : State) (k : Nat) (c : Core) : (s.putCore k c).links = s.links := rfl
@[simp] theorem putCore_parts (s : State) (k : Nat) (c : Core) : (s.putCore k c).parts = s.parts := rfl
@[simp] theorem putCore_launches (s : State) (k : Nat) (c : Core) : (s.putCore k c).launches = s.launches := rfl
@[simp] theorem putCore_nextLaunch (s : State) (k : Nat) (c : Core) : (s.putCore k c).nextLaunch = s.nextLaunch := rfl
@[simp] theorem putCore_ctxs (s : State) (k : Nat) (c : Core) : (s.putCore k c).ctxs = s.ctxs := rfl
@[simp] theorem putCore_pastLogs (s : State) (k : Nat) (c : Core) : (s.putCore k c).pastLogs = s.pastLogs := rfl
@[simp] theorem putCore_copies (s : State) (k : Nat) (c : Core) : (s.putCore k c).copies = s.copies := rfl
@[simp] theorem putCore_nextCopy (s : State) (k : Nat) (c : Core) : (s.putCore k c).nextCopy = s.nextCopy := rfl
@[simp] theorem putCore_requests (s : State) (k : Nat) (c : Core) : (s.putCore k c).requests = s.requests := rfl
@[simp] theorem putCore_host (s : State) (k : Nat) (c : Core) : (s.putCore k c).host = s.host := rfl
@[simp] theorem putCore_outbox (s : State) (k : Nat) (c : Core) : (s.putCore k c).outbox = s.outbox := rfl
@[simp] theorem putCore_ckpt (s : State) (k : Nat) (c : Core) : (s.putCore k c).ckpt = s.ckpt := rfl
@[simp] theorem putCore_ckptAcks (s : State) (k : Nat) (c : Core) : (s.putCore k c).ckptAcks = s.ckptAcks := rfl
@[simp] theorem putCore_outcomes (s : State) (k : Nat) (c : Core) : (s.putCore k c).outcomes = s.outcomes := rfl
@[simp] theorem putCore_nextBead (s : State) (k : Nat) (c : Core) : (s.putCore k c).nextBead = s.nextBead := rfl
@[simp] theorem putCore_ringBase (s : State) (k : Nat) (c : Core) : (s.putCore k c).ringBase = s.ringBase := rfl
@[simp] theorem putCore_cyc (s : State) (k : Nat) (c : Core) : (s.putCore k c).cyc = s.cyc := rfl
@[simp] theorem putCore_tick (s : State) (k : Nat) (c : Core) : (s.putCore k c).tick = s.tick := rfl
@[simp] theorem putCore_free (s : State) (k : Nat) (c : Core) : (s.putCore k c).free = s.free := rfl
@[simp] theorem putCore_cur (s : State) (k : Nat) (c : Core) : (s.putCore k c).cur = s.cur := rfl
@[simp] theorem putCore_pend (s : State) (k : Nat) (c : Core) : (s.putCore k c).pend = s.pend := rfl
@[simp] theorem putCore_msg (s : State) (k : Nat) (c : Core) : (s.putCore k c).msg = s.msg := rfl
@[simp] theorem putCore_timers (s : State) (k : Nat) (c : Core) : (s.putCore k c).timers = s.timers := rfl
@[simp] theorem putCore_rang (s : State) (k : Nat) (c : Core) : (s.putCore k c).rang = s.rang := rfl
@[simp] theorem putCore_sched (s : State) (k : Nat) (c : Core) : (s.putCore k c).sched = s.sched := rfl

/-! `putTile` -/

@[simp] theorem putTile_mem (s : State) (k : Nat) (t : Tile) : (s.putTile k t).mem = s.mem := rfl
@[simp] theorem putTile_gmeta (s : State) (k : Nat) (t : Tile) : (s.putTile k t).gmeta = s.gmeta := rfl
@[simp] theorem putTile_hostMem (s : State) (k : Nat) (t : Tile) : (s.putTile k t).hostMem = s.hostMem := rfl
@[simp] theorem putTile_sys (s : State) (k : Nat) (t : Tile) : (s.putTile k t).sys = s.sys := rfl
@[simp] theorem putTile_acnt (s : State) (k : Nat) (t : Tile) : (s.putTile k t).acnt = s.acnt := rfl
@[simp] theorem putTile_poison (s : State) (k : Nat) (t : Tile) : (s.putTile k t).poison = s.poison := rfl
@[simp] theorem putTile_moves (s : State) (k : Nat) (t : Tile) : (s.putTile k t).moves = s.moves := rfl
@[simp] theorem putTile_exports (s : State) (k : Nat) (t : Tile) : (s.putTile k t).exports = s.exports := rfl
@[simp] theorem putTile_lost (s : State) (k : Nat) (t : Tile) : (s.putTile k t).lost = s.lost := rfl
@[simp] theorem putTile_peerParks (s : State) (k : Nat) (t : Tile) : (s.putTile k t).peerParks = s.peerParks := rfl
@[simp] theorem putTile_written (s : State) (k : Nat) (t : Tile) : (s.putTile k t).written = s.written := rfl
@[simp] theorem putTile_cores (s : State) (k : Nat) (t : Tile) : (s.putTile k t).cores = s.cores := rfl
@[simp] theorem putTile_tiles (s : State) (k : Nat) (t : Tile) : (s.putTile k t).tiles = Map.put s.tiles k t := rfl
@[simp] theorem putTile_units (s : State) (k : Nat) (t : Tile) : (s.putTile k t).units = s.units := rfl
@[simp] theorem putTile_dies (s : State) (k : Nat) (t : Tile) : (s.putTile k t).dies = s.dies := rfl
@[simp] theorem putTile_links (s : State) (k : Nat) (t : Tile) : (s.putTile k t).links = s.links := rfl
@[simp] theorem putTile_parts (s : State) (k : Nat) (t : Tile) : (s.putTile k t).parts = s.parts := rfl
@[simp] theorem putTile_launches (s : State) (k : Nat) (t : Tile) : (s.putTile k t).launches = s.launches := rfl
@[simp] theorem putTile_nextLaunch (s : State) (k : Nat) (t : Tile) : (s.putTile k t).nextLaunch = s.nextLaunch := rfl
@[simp] theorem putTile_ctxs (s : State) (k : Nat) (t : Tile) : (s.putTile k t).ctxs = s.ctxs := rfl
@[simp] theorem putTile_pastLogs (s : State) (k : Nat) (t : Tile) : (s.putTile k t).pastLogs = s.pastLogs := rfl
@[simp] theorem putTile_copies (s : State) (k : Nat) (t : Tile) : (s.putTile k t).copies = s.copies := rfl
@[simp] theorem putTile_nextCopy (s : State) (k : Nat) (t : Tile) : (s.putTile k t).nextCopy = s.nextCopy := rfl
@[simp] theorem putTile_requests (s : State) (k : Nat) (t : Tile) : (s.putTile k t).requests = s.requests := rfl
@[simp] theorem putTile_host (s : State) (k : Nat) (t : Tile) : (s.putTile k t).host = s.host := rfl
@[simp] theorem putTile_outbox (s : State) (k : Nat) (t : Tile) : (s.putTile k t).outbox = s.outbox := rfl
@[simp] theorem putTile_ckpt (s : State) (k : Nat) (t : Tile) : (s.putTile k t).ckpt = s.ckpt := rfl
@[simp] theorem putTile_ckptAcks (s : State) (k : Nat) (t : Tile) : (s.putTile k t).ckptAcks = s.ckptAcks := rfl
@[simp] theorem putTile_outcomes (s : State) (k : Nat) (t : Tile) : (s.putTile k t).outcomes = s.outcomes := rfl
@[simp] theorem putTile_nextBead (s : State) (k : Nat) (t : Tile) : (s.putTile k t).nextBead = s.nextBead := rfl
@[simp] theorem putTile_ringBase (s : State) (k : Nat) (t : Tile) : (s.putTile k t).ringBase = s.ringBase := rfl
@[simp] theorem putTile_cyc (s : State) (k : Nat) (t : Tile) : (s.putTile k t).cyc = s.cyc := rfl
@[simp] theorem putTile_tick (s : State) (k : Nat) (t : Tile) : (s.putTile k t).tick = s.tick := rfl
@[simp] theorem putTile_free (s : State) (k : Nat) (t : Tile) : (s.putTile k t).free = s.free := rfl
@[simp] theorem putTile_cur (s : State) (k : Nat) (t : Tile) : (s.putTile k t).cur = s.cur := rfl
@[simp] theorem putTile_pend (s : State) (k : Nat) (t : Tile) : (s.putTile k t).pend = s.pend := rfl
@[simp] theorem putTile_msg (s : State) (k : Nat) (t : Tile) : (s.putTile k t).msg = s.msg := rfl
@[simp] theorem putTile_timers (s : State) (k : Nat) (t : Tile) : (s.putTile k t).timers = s.timers := rfl
@[simp] theorem putTile_rang (s : State) (k : Nat) (t : Tile) : (s.putTile k t).rang = s.rang := rfl
@[simp] theorem putTile_sched (s : State) (k : Nat) (t : Tile) : (s.putTile k t).sched = s.sched := rfl

/-! `putUnit` -/

@[simp] theorem putUnit_mem (s : State) (u : Nat) (x : BeadUnit) : (s.putUnit u x).mem = s.mem := rfl
@[simp] theorem putUnit_gmeta (s : State) (u : Nat) (x : BeadUnit) : (s.putUnit u x).gmeta = s.gmeta := rfl
@[simp] theorem putUnit_hostMem (s : State) (u : Nat) (x : BeadUnit) : (s.putUnit u x).hostMem = s.hostMem := rfl
@[simp] theorem putUnit_sys (s : State) (u : Nat) (x : BeadUnit) : (s.putUnit u x).sys = s.sys := rfl
@[simp] theorem putUnit_acnt (s : State) (u : Nat) (x : BeadUnit) : (s.putUnit u x).acnt = s.acnt := rfl
@[simp] theorem putUnit_poison (s : State) (u : Nat) (x : BeadUnit) : (s.putUnit u x).poison = s.poison := rfl
@[simp] theorem putUnit_moves (s : State) (u : Nat) (x : BeadUnit) : (s.putUnit u x).moves = s.moves := rfl
@[simp] theorem putUnit_exports (s : State) (u : Nat) (x : BeadUnit) : (s.putUnit u x).exports = s.exports := rfl
@[simp] theorem putUnit_lost (s : State) (u : Nat) (x : BeadUnit) : (s.putUnit u x).lost = s.lost := rfl
@[simp] theorem putUnit_peerParks (s : State) (u : Nat) (x : BeadUnit) : (s.putUnit u x).peerParks = s.peerParks := rfl
@[simp] theorem putUnit_written (s : State) (u : Nat) (x : BeadUnit) : (s.putUnit u x).written = s.written := rfl
@[simp] theorem putUnit_cores (s : State) (u : Nat) (x : BeadUnit) : (s.putUnit u x).cores = s.cores := rfl
@[simp] theorem putUnit_tiles (s : State) (u : Nat) (x : BeadUnit) : (s.putUnit u x).tiles = s.tiles := rfl
@[simp] theorem putUnit_units (s : State) (u : Nat) (x : BeadUnit) : (s.putUnit u x).units = Map.put s.units u x := rfl
@[simp] theorem putUnit_dies (s : State) (u : Nat) (x : BeadUnit) : (s.putUnit u x).dies = s.dies := rfl
@[simp] theorem putUnit_links (s : State) (u : Nat) (x : BeadUnit) : (s.putUnit u x).links = s.links := rfl
@[simp] theorem putUnit_parts (s : State) (u : Nat) (x : BeadUnit) : (s.putUnit u x).parts = s.parts := rfl
@[simp] theorem putUnit_launches (s : State) (u : Nat) (x : BeadUnit) : (s.putUnit u x).launches = s.launches := rfl
@[simp] theorem putUnit_nextLaunch (s : State) (u : Nat) (x : BeadUnit) : (s.putUnit u x).nextLaunch = s.nextLaunch := rfl
@[simp] theorem putUnit_ctxs (s : State) (u : Nat) (x : BeadUnit) : (s.putUnit u x).ctxs = s.ctxs := rfl
@[simp] theorem putUnit_pastLogs (s : State) (u : Nat) (x : BeadUnit) : (s.putUnit u x).pastLogs = s.pastLogs := rfl
@[simp] theorem putUnit_copies (s : State) (u : Nat) (x : BeadUnit) : (s.putUnit u x).copies = s.copies := rfl
@[simp] theorem putUnit_nextCopy (s : State) (u : Nat) (x : BeadUnit) : (s.putUnit u x).nextCopy = s.nextCopy := rfl
@[simp] theorem putUnit_requests (s : State) (u : Nat) (x : BeadUnit) : (s.putUnit u x).requests = s.requests := rfl
@[simp] theorem putUnit_host (s : State) (u : Nat) (x : BeadUnit) : (s.putUnit u x).host = s.host := rfl
@[simp] theorem putUnit_outbox (s : State) (u : Nat) (x : BeadUnit) : (s.putUnit u x).outbox = s.outbox := rfl
@[simp] theorem putUnit_ckpt (s : State) (u : Nat) (x : BeadUnit) : (s.putUnit u x).ckpt = s.ckpt := rfl
@[simp] theorem putUnit_ckptAcks (s : State) (u : Nat) (x : BeadUnit) : (s.putUnit u x).ckptAcks = s.ckptAcks := rfl
@[simp] theorem putUnit_outcomes (s : State) (u : Nat) (x : BeadUnit) : (s.putUnit u x).outcomes = s.outcomes := rfl
@[simp] theorem putUnit_nextBead (s : State) (u : Nat) (x : BeadUnit) : (s.putUnit u x).nextBead = s.nextBead := rfl
@[simp] theorem putUnit_ringBase (s : State) (u : Nat) (x : BeadUnit) : (s.putUnit u x).ringBase = s.ringBase := rfl
@[simp] theorem putUnit_cyc (s : State) (u : Nat) (x : BeadUnit) : (s.putUnit u x).cyc = s.cyc := rfl
@[simp] theorem putUnit_tick (s : State) (u : Nat) (x : BeadUnit) : (s.putUnit u x).tick = s.tick := rfl
@[simp] theorem putUnit_free (s : State) (u : Nat) (x : BeadUnit) : (s.putUnit u x).free = s.free := rfl
@[simp] theorem putUnit_cur (s : State) (u : Nat) (x : BeadUnit) : (s.putUnit u x).cur = s.cur := rfl
@[simp] theorem putUnit_pend (s : State) (u : Nat) (x : BeadUnit) : (s.putUnit u x).pend = s.pend := rfl
@[simp] theorem putUnit_msg (s : State) (u : Nat) (x : BeadUnit) : (s.putUnit u x).msg = s.msg := rfl
@[simp] theorem putUnit_timers (s : State) (u : Nat) (x : BeadUnit) : (s.putUnit u x).timers = s.timers := rfl
@[simp] theorem putUnit_rang (s : State) (u : Nat) (x : BeadUnit) : (s.putUnit u x).rang = s.rang := rfl
@[simp] theorem putUnit_sched (s : State) (u : Nat) (x : BeadUnit) : (s.putUnit u x).sched = s.sched := rfl

/-! `putDie` -/

@[simp] theorem putDie_mem (s : State) (d : Nat) (x : Die) : (s.putDie d x).mem = s.mem := rfl
@[simp] theorem putDie_gmeta (s : State) (d : Nat) (x : Die) : (s.putDie d x).gmeta = s.gmeta := rfl
@[simp] theorem putDie_hostMem (s : State) (d : Nat) (x : Die) : (s.putDie d x).hostMem = s.hostMem := rfl
@[simp] theorem putDie_sys (s : State) (d : Nat) (x : Die) : (s.putDie d x).sys = s.sys := rfl
@[simp] theorem putDie_acnt (s : State) (d : Nat) (x : Die) : (s.putDie d x).acnt = s.acnt := rfl
@[simp] theorem putDie_poison (s : State) (d : Nat) (x : Die) : (s.putDie d x).poison = s.poison := rfl
@[simp] theorem putDie_moves (s : State) (d : Nat) (x : Die) : (s.putDie d x).moves = s.moves := rfl
@[simp] theorem putDie_exports (s : State) (d : Nat) (x : Die) : (s.putDie d x).exports = s.exports := rfl
@[simp] theorem putDie_lost (s : State) (d : Nat) (x : Die) : (s.putDie d x).lost = s.lost := rfl
@[simp] theorem putDie_peerParks (s : State) (d : Nat) (x : Die) : (s.putDie d x).peerParks = s.peerParks := rfl
@[simp] theorem putDie_written (s : State) (d : Nat) (x : Die) : (s.putDie d x).written = s.written := rfl
@[simp] theorem putDie_cores (s : State) (d : Nat) (x : Die) : (s.putDie d x).cores = s.cores := rfl
@[simp] theorem putDie_tiles (s : State) (d : Nat) (x : Die) : (s.putDie d x).tiles = s.tiles := rfl
@[simp] theorem putDie_units (s : State) (d : Nat) (x : Die) : (s.putDie d x).units = s.units := rfl
@[simp] theorem putDie_dies (s : State) (d : Nat) (x : Die) : (s.putDie d x).dies = Map.put s.dies d x := rfl
@[simp] theorem putDie_links (s : State) (d : Nat) (x : Die) : (s.putDie d x).links = s.links := rfl
@[simp] theorem putDie_parts (s : State) (d : Nat) (x : Die) : (s.putDie d x).parts = s.parts := rfl
@[simp] theorem putDie_launches (s : State) (d : Nat) (x : Die) : (s.putDie d x).launches = s.launches := rfl
@[simp] theorem putDie_nextLaunch (s : State) (d : Nat) (x : Die) : (s.putDie d x).nextLaunch = s.nextLaunch := rfl
@[simp] theorem putDie_ctxs (s : State) (d : Nat) (x : Die) : (s.putDie d x).ctxs = s.ctxs := rfl
@[simp] theorem putDie_pastLogs (s : State) (d : Nat) (x : Die) : (s.putDie d x).pastLogs = s.pastLogs := rfl
@[simp] theorem putDie_copies (s : State) (d : Nat) (x : Die) : (s.putDie d x).copies = s.copies := rfl
@[simp] theorem putDie_nextCopy (s : State) (d : Nat) (x : Die) : (s.putDie d x).nextCopy = s.nextCopy := rfl
@[simp] theorem putDie_requests (s : State) (d : Nat) (x : Die) : (s.putDie d x).requests = s.requests := rfl
@[simp] theorem putDie_host (s : State) (d : Nat) (x : Die) : (s.putDie d x).host = s.host := rfl
@[simp] theorem putDie_outbox (s : State) (d : Nat) (x : Die) : (s.putDie d x).outbox = s.outbox := rfl
@[simp] theorem putDie_ckpt (s : State) (d : Nat) (x : Die) : (s.putDie d x).ckpt = s.ckpt := rfl
@[simp] theorem putDie_ckptAcks (s : State) (d : Nat) (x : Die) : (s.putDie d x).ckptAcks = s.ckptAcks := rfl
@[simp] theorem putDie_outcomes (s : State) (d : Nat) (x : Die) : (s.putDie d x).outcomes = s.outcomes := rfl
@[simp] theorem putDie_nextBead (s : State) (d : Nat) (x : Die) : (s.putDie d x).nextBead = s.nextBead := rfl
@[simp] theorem putDie_ringBase (s : State) (d : Nat) (x : Die) : (s.putDie d x).ringBase = s.ringBase := rfl
@[simp] theorem putDie_cyc (s : State) (d : Nat) (x : Die) : (s.putDie d x).cyc = s.cyc := rfl
@[simp] theorem putDie_tick (s : State) (d : Nat) (x : Die) : (s.putDie d x).tick = s.tick := rfl
@[simp] theorem putDie_free (s : State) (d : Nat) (x : Die) : (s.putDie d x).free = s.free := rfl
@[simp] theorem putDie_cur (s : State) (d : Nat) (x : Die) : (s.putDie d x).cur = s.cur := rfl
@[simp] theorem putDie_pend (s : State) (d : Nat) (x : Die) : (s.putDie d x).pend = s.pend := rfl
@[simp] theorem putDie_msg (s : State) (d : Nat) (x : Die) : (s.putDie d x).msg = s.msg := rfl
@[simp] theorem putDie_timers (s : State) (d : Nat) (x : Die) : (s.putDie d x).timers = s.timers := rfl
@[simp] theorem putDie_rang (s : State) (d : Nat) (x : Die) : (s.putDie d x).rang = s.rang := rfl
@[simp] theorem putDie_sched (s : State) (d : Nat) (x : Die) : (s.putDie d x).sched = s.sched := rfl

/-! `putLink` -/

@[simp] theorem putLink_mem (s : State) (k : Nat) (x : Link) : (s.putLink k x).mem = s.mem := rfl
@[simp] theorem putLink_gmeta (s : State) (k : Nat) (x : Link) : (s.putLink k x).gmeta = s.gmeta := rfl
@[simp] theorem putLink_hostMem (s : State) (k : Nat) (x : Link) : (s.putLink k x).hostMem = s.hostMem := rfl
@[simp] theorem putLink_sys (s : State) (k : Nat) (x : Link) : (s.putLink k x).sys = s.sys := rfl
@[simp] theorem putLink_acnt (s : State) (k : Nat) (x : Link) : (s.putLink k x).acnt = s.acnt := rfl
@[simp] theorem putLink_poison (s : State) (k : Nat) (x : Link) : (s.putLink k x).poison = s.poison := rfl
@[simp] theorem putLink_moves (s : State) (k : Nat) (x : Link) : (s.putLink k x).moves = s.moves := rfl
@[simp] theorem putLink_exports (s : State) (k : Nat) (x : Link) : (s.putLink k x).exports = s.exports := rfl
@[simp] theorem putLink_lost (s : State) (k : Nat) (x : Link) : (s.putLink k x).lost = s.lost := rfl
@[simp] theorem putLink_peerParks (s : State) (k : Nat) (x : Link) : (s.putLink k x).peerParks = s.peerParks := rfl
@[simp] theorem putLink_written (s : State) (k : Nat) (x : Link) : (s.putLink k x).written = s.written := rfl
@[simp] theorem putLink_cores (s : State) (k : Nat) (x : Link) : (s.putLink k x).cores = s.cores := rfl
@[simp] theorem putLink_tiles (s : State) (k : Nat) (x : Link) : (s.putLink k x).tiles = s.tiles := rfl
@[simp] theorem putLink_units (s : State) (k : Nat) (x : Link) : (s.putLink k x).units = s.units := rfl
@[simp] theorem putLink_dies (s : State) (k : Nat) (x : Link) : (s.putLink k x).dies = s.dies := rfl
@[simp] theorem putLink_links (s : State) (k : Nat) (x : Link) : (s.putLink k x).links = Map.put s.links k x := rfl
@[simp] theorem putLink_parts (s : State) (k : Nat) (x : Link) : (s.putLink k x).parts = s.parts := rfl
@[simp] theorem putLink_launches (s : State) (k : Nat) (x : Link) : (s.putLink k x).launches = s.launches := rfl
@[simp] theorem putLink_nextLaunch (s : State) (k : Nat) (x : Link) : (s.putLink k x).nextLaunch = s.nextLaunch := rfl
@[simp] theorem putLink_ctxs (s : State) (k : Nat) (x : Link) : (s.putLink k x).ctxs = s.ctxs := rfl
@[simp] theorem putLink_pastLogs (s : State) (k : Nat) (x : Link) : (s.putLink k x).pastLogs = s.pastLogs := rfl
@[simp] theorem putLink_copies (s : State) (k : Nat) (x : Link) : (s.putLink k x).copies = s.copies := rfl
@[simp] theorem putLink_nextCopy (s : State) (k : Nat) (x : Link) : (s.putLink k x).nextCopy = s.nextCopy := rfl
@[simp] theorem putLink_requests (s : State) (k : Nat) (x : Link) : (s.putLink k x).requests = s.requests := rfl
@[simp] theorem putLink_host (s : State) (k : Nat) (x : Link) : (s.putLink k x).host = s.host := rfl
@[simp] theorem putLink_outbox (s : State) (k : Nat) (x : Link) : (s.putLink k x).outbox = s.outbox := rfl
@[simp] theorem putLink_ckpt (s : State) (k : Nat) (x : Link) : (s.putLink k x).ckpt = s.ckpt := rfl
@[simp] theorem putLink_ckptAcks (s : State) (k : Nat) (x : Link) : (s.putLink k x).ckptAcks = s.ckptAcks := rfl
@[simp] theorem putLink_outcomes (s : State) (k : Nat) (x : Link) : (s.putLink k x).outcomes = s.outcomes := rfl
@[simp] theorem putLink_nextBead (s : State) (k : Nat) (x : Link) : (s.putLink k x).nextBead = s.nextBead := rfl
@[simp] theorem putLink_ringBase (s : State) (k : Nat) (x : Link) : (s.putLink k x).ringBase = s.ringBase := rfl
@[simp] theorem putLink_cyc (s : State) (k : Nat) (x : Link) : (s.putLink k x).cyc = s.cyc := rfl
@[simp] theorem putLink_tick (s : State) (k : Nat) (x : Link) : (s.putLink k x).tick = s.tick := rfl
@[simp] theorem putLink_free (s : State) (k : Nat) (x : Link) : (s.putLink k x).free = s.free := rfl
@[simp] theorem putLink_cur (s : State) (k : Nat) (x : Link) : (s.putLink k x).cur = s.cur := rfl
@[simp] theorem putLink_pend (s : State) (k : Nat) (x : Link) : (s.putLink k x).pend = s.pend := rfl
@[simp] theorem putLink_msg (s : State) (k : Nat) (x : Link) : (s.putLink k x).msg = s.msg := rfl
@[simp] theorem putLink_timers (s : State) (k : Nat) (x : Link) : (s.putLink k x).timers = s.timers := rfl
@[simp] theorem putLink_rang (s : State) (k : Nat) (x : Link) : (s.putLink k x).rang = s.rang := rfl
@[simp] theorem putLink_sched (s : State) (k : Nat) (x : Link) : (s.putLink k x).sched = s.sched := rfl

/-! `putPart` -/

@[simp] theorem putPart_mem (s : State) (p : Nat) (x : Part) : (s.putPart p x).mem = s.mem := rfl
@[simp] theorem putPart_gmeta (s : State) (p : Nat) (x : Part) : (s.putPart p x).gmeta = s.gmeta := rfl
@[simp] theorem putPart_hostMem (s : State) (p : Nat) (x : Part) : (s.putPart p x).hostMem = s.hostMem := rfl
@[simp] theorem putPart_sys (s : State) (p : Nat) (x : Part) : (s.putPart p x).sys = s.sys := rfl
@[simp] theorem putPart_acnt (s : State) (p : Nat) (x : Part) : (s.putPart p x).acnt = s.acnt := rfl
@[simp] theorem putPart_poison (s : State) (p : Nat) (x : Part) : (s.putPart p x).poison = s.poison := rfl
@[simp] theorem putPart_moves (s : State) (p : Nat) (x : Part) : (s.putPart p x).moves = s.moves := rfl
@[simp] theorem putPart_exports (s : State) (p : Nat) (x : Part) : (s.putPart p x).exports = s.exports := rfl
@[simp] theorem putPart_lost (s : State) (p : Nat) (x : Part) : (s.putPart p x).lost = s.lost := rfl
@[simp] theorem putPart_peerParks (s : State) (p : Nat) (x : Part) : (s.putPart p x).peerParks = s.peerParks := rfl
@[simp] theorem putPart_written (s : State) (p : Nat) (x : Part) : (s.putPart p x).written = s.written := rfl
@[simp] theorem putPart_cores (s : State) (p : Nat) (x : Part) : (s.putPart p x).cores = s.cores := rfl
@[simp] theorem putPart_tiles (s : State) (p : Nat) (x : Part) : (s.putPart p x).tiles = s.tiles := rfl
@[simp] theorem putPart_units (s : State) (p : Nat) (x : Part) : (s.putPart p x).units = s.units := rfl
@[simp] theorem putPart_dies (s : State) (p : Nat) (x : Part) : (s.putPart p x).dies = s.dies := rfl
@[simp] theorem putPart_links (s : State) (p : Nat) (x : Part) : (s.putPart p x).links = s.links := rfl
@[simp] theorem putPart_parts (s : State) (p : Nat) (x : Part) : (s.putPart p x).parts = Map.put s.parts p x := rfl
@[simp] theorem putPart_launches (s : State) (p : Nat) (x : Part) : (s.putPart p x).launches = s.launches := rfl
@[simp] theorem putPart_nextLaunch (s : State) (p : Nat) (x : Part) : (s.putPart p x).nextLaunch = s.nextLaunch := rfl
@[simp] theorem putPart_ctxs (s : State) (p : Nat) (x : Part) : (s.putPart p x).ctxs = s.ctxs := rfl
@[simp] theorem putPart_pastLogs (s : State) (p : Nat) (x : Part) : (s.putPart p x).pastLogs = s.pastLogs := rfl
@[simp] theorem putPart_copies (s : State) (p : Nat) (x : Part) : (s.putPart p x).copies = s.copies := rfl
@[simp] theorem putPart_nextCopy (s : State) (p : Nat) (x : Part) : (s.putPart p x).nextCopy = s.nextCopy := rfl
@[simp] theorem putPart_requests (s : State) (p : Nat) (x : Part) : (s.putPart p x).requests = s.requests := rfl
@[simp] theorem putPart_host (s : State) (p : Nat) (x : Part) : (s.putPart p x).host = s.host := rfl
@[simp] theorem putPart_outbox (s : State) (p : Nat) (x : Part) : (s.putPart p x).outbox = s.outbox := rfl
@[simp] theorem putPart_ckpt (s : State) (p : Nat) (x : Part) : (s.putPart p x).ckpt = s.ckpt := rfl
@[simp] theorem putPart_ckptAcks (s : State) (p : Nat) (x : Part) : (s.putPart p x).ckptAcks = s.ckptAcks := rfl
@[simp] theorem putPart_outcomes (s : State) (p : Nat) (x : Part) : (s.putPart p x).outcomes = s.outcomes := rfl
@[simp] theorem putPart_nextBead (s : State) (p : Nat) (x : Part) : (s.putPart p x).nextBead = s.nextBead := rfl
@[simp] theorem putPart_ringBase (s : State) (p : Nat) (x : Part) : (s.putPart p x).ringBase = s.ringBase := rfl
@[simp] theorem putPart_cyc (s : State) (p : Nat) (x : Part) : (s.putPart p x).cyc = s.cyc := rfl
@[simp] theorem putPart_tick (s : State) (p : Nat) (x : Part) : (s.putPart p x).tick = s.tick := rfl
@[simp] theorem putPart_free (s : State) (p : Nat) (x : Part) : (s.putPart p x).free = s.free := rfl
@[simp] theorem putPart_cur (s : State) (p : Nat) (x : Part) : (s.putPart p x).cur = s.cur := rfl
@[simp] theorem putPart_pend (s : State) (p : Nat) (x : Part) : (s.putPart p x).pend = s.pend := rfl
@[simp] theorem putPart_msg (s : State) (p : Nat) (x : Part) : (s.putPart p x).msg = s.msg := rfl
@[simp] theorem putPart_timers (s : State) (p : Nat) (x : Part) : (s.putPart p x).timers = s.timers := rfl
@[simp] theorem putPart_rang (s : State) (p : Nat) (x : Part) : (s.putPart p x).rang = s.rang := rfl
@[simp] theorem putPart_sched (s : State) (p : Nat) (x : Part) : (s.putPart p x).sched = s.sched := rfl

/-! `putCtx` -/

@[simp] theorem putCtx_mem (s : State) (c : Nat) (x : Ctx) : (s.putCtx c x).mem = s.mem := rfl
@[simp] theorem putCtx_gmeta (s : State) (c : Nat) (x : Ctx) : (s.putCtx c x).gmeta = s.gmeta := rfl
@[simp] theorem putCtx_hostMem (s : State) (c : Nat) (x : Ctx) : (s.putCtx c x).hostMem = s.hostMem := rfl
@[simp] theorem putCtx_sys (s : State) (c : Nat) (x : Ctx) : (s.putCtx c x).sys = s.sys := rfl
@[simp] theorem putCtx_acnt (s : State) (c : Nat) (x : Ctx) : (s.putCtx c x).acnt = s.acnt := rfl
@[simp] theorem putCtx_poison (s : State) (c : Nat) (x : Ctx) : (s.putCtx c x).poison = s.poison := rfl
@[simp] theorem putCtx_moves (s : State) (c : Nat) (x : Ctx) : (s.putCtx c x).moves = s.moves := rfl
@[simp] theorem putCtx_exports (s : State) (c : Nat) (x : Ctx) : (s.putCtx c x).exports = s.exports := rfl
@[simp] theorem putCtx_lost (s : State) (c : Nat) (x : Ctx) : (s.putCtx c x).lost = s.lost := rfl
@[simp] theorem putCtx_peerParks (s : State) (c : Nat) (x : Ctx) : (s.putCtx c x).peerParks = s.peerParks := rfl
@[simp] theorem putCtx_written (s : State) (c : Nat) (x : Ctx) : (s.putCtx c x).written = s.written := rfl
@[simp] theorem putCtx_cores (s : State) (c : Nat) (x : Ctx) : (s.putCtx c x).cores = s.cores := rfl
@[simp] theorem putCtx_tiles (s : State) (c : Nat) (x : Ctx) : (s.putCtx c x).tiles = s.tiles := rfl
@[simp] theorem putCtx_units (s : State) (c : Nat) (x : Ctx) : (s.putCtx c x).units = s.units := rfl
@[simp] theorem putCtx_dies (s : State) (c : Nat) (x : Ctx) : (s.putCtx c x).dies = s.dies := rfl
@[simp] theorem putCtx_links (s : State) (c : Nat) (x : Ctx) : (s.putCtx c x).links = s.links := rfl
@[simp] theorem putCtx_parts (s : State) (c : Nat) (x : Ctx) : (s.putCtx c x).parts = s.parts := rfl
@[simp] theorem putCtx_launches (s : State) (c : Nat) (x : Ctx) : (s.putCtx c x).launches = s.launches := rfl
@[simp] theorem putCtx_nextLaunch (s : State) (c : Nat) (x : Ctx) : (s.putCtx c x).nextLaunch = s.nextLaunch := rfl
@[simp] theorem putCtx_ctxs (s : State) (c : Nat) (x : Ctx) : (s.putCtx c x).ctxs = Map.put s.ctxs c x := rfl
@[simp] theorem putCtx_pastLogs (s : State) (c : Nat) (x : Ctx) : (s.putCtx c x).pastLogs = s.pastLogs := rfl
@[simp] theorem putCtx_copies (s : State) (c : Nat) (x : Ctx) : (s.putCtx c x).copies = s.copies := rfl
@[simp] theorem putCtx_nextCopy (s : State) (c : Nat) (x : Ctx) : (s.putCtx c x).nextCopy = s.nextCopy := rfl
@[simp] theorem putCtx_requests (s : State) (c : Nat) (x : Ctx) : (s.putCtx c x).requests = s.requests := rfl
@[simp] theorem putCtx_host (s : State) (c : Nat) (x : Ctx) : (s.putCtx c x).host = s.host := rfl
@[simp] theorem putCtx_outbox (s : State) (c : Nat) (x : Ctx) : (s.putCtx c x).outbox = s.outbox := rfl
@[simp] theorem putCtx_ckpt (s : State) (c : Nat) (x : Ctx) : (s.putCtx c x).ckpt = s.ckpt := rfl
@[simp] theorem putCtx_ckptAcks (s : State) (c : Nat) (x : Ctx) : (s.putCtx c x).ckptAcks = s.ckptAcks := rfl
@[simp] theorem putCtx_outcomes (s : State) (c : Nat) (x : Ctx) : (s.putCtx c x).outcomes = s.outcomes := rfl
@[simp] theorem putCtx_nextBead (s : State) (c : Nat) (x : Ctx) : (s.putCtx c x).nextBead = s.nextBead := rfl
@[simp] theorem putCtx_ringBase (s : State) (c : Nat) (x : Ctx) : (s.putCtx c x).ringBase = s.ringBase := rfl
@[simp] theorem putCtx_cyc (s : State) (c : Nat) (x : Ctx) : (s.putCtx c x).cyc = s.cyc := rfl
@[simp] theorem putCtx_tick (s : State) (c : Nat) (x : Ctx) : (s.putCtx c x).tick = s.tick := rfl
@[simp] theorem putCtx_free (s : State) (c : Nat) (x : Ctx) : (s.putCtx c x).free = s.free := rfl
@[simp] theorem putCtx_cur (s : State) (c : Nat) (x : Ctx) : (s.putCtx c x).cur = s.cur := rfl
@[simp] theorem putCtx_pend (s : State) (c : Nat) (x : Ctx) : (s.putCtx c x).pend = s.pend := rfl
@[simp] theorem putCtx_msg (s : State) (c : Nat) (x : Ctx) : (s.putCtx c x).msg = s.msg := rfl
@[simp] theorem putCtx_timers (s : State) (c : Nat) (x : Ctx) : (s.putCtx c x).timers = s.timers := rfl
@[simp] theorem putCtx_rang (s : State) (c : Nat) (x : Ctx) : (s.putCtx c x).rang = s.rang := rfl
@[simp] theorem putCtx_sched (s : State) (c : Nat) (x : Ctx) : (s.putCtx c x).sched = s.sched := rfl

/-! `push` -/

@[simp] theorem push_mem (s : State) (is : List Ev) : (s.push is).mem = s.mem := rfl
@[simp] theorem push_gmeta (s : State) (is : List Ev) : (s.push is).gmeta = s.gmeta := rfl
@[simp] theorem push_hostMem (s : State) (is : List Ev) : (s.push is).hostMem = s.hostMem := rfl
@[simp] theorem push_sys (s : State) (is : List Ev) : (s.push is).sys = s.sys := rfl
@[simp] theorem push_acnt (s : State) (is : List Ev) : (s.push is).acnt = s.acnt := rfl
@[simp] theorem push_poison (s : State) (is : List Ev) : (s.push is).poison = s.poison := rfl
@[simp] theorem push_moves (s : State) (is : List Ev) : (s.push is).moves = s.moves := rfl
@[simp] theorem push_exports (s : State) (is : List Ev) : (s.push is).exports = s.exports := rfl
@[simp] theorem push_lost (s : State) (is : List Ev) : (s.push is).lost = s.lost := rfl
@[simp] theorem push_peerParks (s : State) (is : List Ev) : (s.push is).peerParks = s.peerParks := rfl
@[simp] theorem push_written (s : State) (is : List Ev) : (s.push is).written = s.written := rfl
@[simp] theorem push_cores (s : State) (is : List Ev) : (s.push is).cores = s.cores := rfl
@[simp] theorem push_tiles (s : State) (is : List Ev) : (s.push is).tiles = s.tiles := rfl
@[simp] theorem push_units (s : State) (is : List Ev) : (s.push is).units = s.units := rfl
@[simp] theorem push_dies (s : State) (is : List Ev) : (s.push is).dies = s.dies := rfl
@[simp] theorem push_links (s : State) (is : List Ev) : (s.push is).links = s.links := rfl
@[simp] theorem push_parts (s : State) (is : List Ev) : (s.push is).parts = s.parts := rfl
@[simp] theorem push_launches (s : State) (is : List Ev) : (s.push is).launches = s.launches := rfl
@[simp] theorem push_nextLaunch (s : State) (is : List Ev) : (s.push is).nextLaunch = s.nextLaunch := rfl
@[simp] theorem push_ctxs (s : State) (is : List Ev) : (s.push is).ctxs = s.ctxs := rfl
@[simp] theorem push_pastLogs (s : State) (is : List Ev) : (s.push is).pastLogs = s.pastLogs := rfl
@[simp] theorem push_copies (s : State) (is : List Ev) : (s.push is).copies = s.copies := rfl
@[simp] theorem push_nextCopy (s : State) (is : List Ev) : (s.push is).nextCopy = s.nextCopy := rfl
@[simp] theorem push_requests (s : State) (is : List Ev) : (s.push is).requests = s.requests := rfl
@[simp] theorem push_host (s : State) (is : List Ev) : (s.push is).host = s.host := rfl
@[simp] theorem push_outbox (s : State) (is : List Ev) : (s.push is).outbox = s.outbox := rfl
@[simp] theorem push_ckpt (s : State) (is : List Ev) : (s.push is).ckpt = s.ckpt := rfl
@[simp] theorem push_ckptAcks (s : State) (is : List Ev) : (s.push is).ckptAcks = s.ckptAcks := rfl
@[simp] theorem push_outcomes (s : State) (is : List Ev) : (s.push is).outcomes = s.outcomes := rfl
@[simp] theorem push_nextBead (s : State) (is : List Ev) : (s.push is).nextBead = s.nextBead := rfl
@[simp] theorem push_ringBase (s : State) (is : List Ev) : (s.push is).ringBase = s.ringBase := rfl
@[simp] theorem push_cyc (s : State) (is : List Ev) : (s.push is).cyc = s.cyc := rfl
@[simp] theorem push_tick (s : State) (is : List Ev) : (s.push is).tick = s.tick := rfl
@[simp] theorem push_free (s : State) (is : List Ev) : (s.push is).free = s.free := rfl
@[simp] theorem push_cur (s : State) (is : List Ev) : (s.push is).cur = s.cur := rfl
@[simp] theorem push_pend (s : State) (is : List Ev) : (s.push is).pend = s.pend ++ is := rfl
@[simp] theorem push_msg (s : State) (is : List Ev) : (s.push is).msg = s.msg := rfl
@[simp] theorem push_timers (s : State) (is : List Ev) : (s.push is).timers = s.timers := rfl
@[simp] theorem push_rang (s : State) (is : List Ev) : (s.push is).rang = s.rang := rfl
@[simp] theorem push_sched (s : State) (is : List Ev) : (s.push is).sched = s.sched := rfl

/-! `pushFirst` -/

@[simp] theorem pushFirst_mem (s : State) (is : List Ev) : (s.pushFirst is).mem = s.mem := rfl
@[simp] theorem pushFirst_gmeta (s : State) (is : List Ev) : (s.pushFirst is).gmeta = s.gmeta := rfl
@[simp] theorem pushFirst_hostMem (s : State) (is : List Ev) : (s.pushFirst is).hostMem = s.hostMem := rfl
@[simp] theorem pushFirst_sys (s : State) (is : List Ev) : (s.pushFirst is).sys = s.sys := rfl
@[simp] theorem pushFirst_acnt (s : State) (is : List Ev) : (s.pushFirst is).acnt = s.acnt := rfl
@[simp] theorem pushFirst_poison (s : State) (is : List Ev) : (s.pushFirst is).poison = s.poison := rfl
@[simp] theorem pushFirst_moves (s : State) (is : List Ev) : (s.pushFirst is).moves = s.moves := rfl
@[simp] theorem pushFirst_exports (s : State) (is : List Ev) : (s.pushFirst is).exports = s.exports := rfl
@[simp] theorem pushFirst_lost (s : State) (is : List Ev) : (s.pushFirst is).lost = s.lost := rfl
@[simp] theorem pushFirst_peerParks (s : State) (is : List Ev) : (s.pushFirst is).peerParks = s.peerParks := rfl
@[simp] theorem pushFirst_written (s : State) (is : List Ev) : (s.pushFirst is).written = s.written := rfl
@[simp] theorem pushFirst_cores (s : State) (is : List Ev) : (s.pushFirst is).cores = s.cores := rfl
@[simp] theorem pushFirst_tiles (s : State) (is : List Ev) : (s.pushFirst is).tiles = s.tiles := rfl
@[simp] theorem pushFirst_units (s : State) (is : List Ev) : (s.pushFirst is).units = s.units := rfl
@[simp] theorem pushFirst_dies (s : State) (is : List Ev) : (s.pushFirst is).dies = s.dies := rfl
@[simp] theorem pushFirst_links (s : State) (is : List Ev) : (s.pushFirst is).links = s.links := rfl
@[simp] theorem pushFirst_parts (s : State) (is : List Ev) : (s.pushFirst is).parts = s.parts := rfl
@[simp] theorem pushFirst_launches (s : State) (is : List Ev) : (s.pushFirst is).launches = s.launches := rfl
@[simp] theorem pushFirst_nextLaunch (s : State) (is : List Ev) : (s.pushFirst is).nextLaunch = s.nextLaunch := rfl
@[simp] theorem pushFirst_ctxs (s : State) (is : List Ev) : (s.pushFirst is).ctxs = s.ctxs := rfl
@[simp] theorem pushFirst_pastLogs (s : State) (is : List Ev) : (s.pushFirst is).pastLogs = s.pastLogs := rfl
@[simp] theorem pushFirst_copies (s : State) (is : List Ev) : (s.pushFirst is).copies = s.copies := rfl
@[simp] theorem pushFirst_nextCopy (s : State) (is : List Ev) : (s.pushFirst is).nextCopy = s.nextCopy := rfl
@[simp] theorem pushFirst_requests (s : State) (is : List Ev) : (s.pushFirst is).requests = s.requests := rfl
@[simp] theorem pushFirst_host (s : State) (is : List Ev) : (s.pushFirst is).host = s.host := rfl
@[simp] theorem pushFirst_outbox (s : State) (is : List Ev) : (s.pushFirst is).outbox = s.outbox := rfl
@[simp] theorem pushFirst_ckpt (s : State) (is : List Ev) : (s.pushFirst is).ckpt = s.ckpt := rfl
@[simp] theorem pushFirst_ckptAcks (s : State) (is : List Ev) : (s.pushFirst is).ckptAcks = s.ckptAcks := rfl
@[simp] theorem pushFirst_outcomes (s : State) (is : List Ev) : (s.pushFirst is).outcomes = s.outcomes := rfl
@[simp] theorem pushFirst_nextBead (s : State) (is : List Ev) : (s.pushFirst is).nextBead = s.nextBead := rfl
@[simp] theorem pushFirst_ringBase (s : State) (is : List Ev) : (s.pushFirst is).ringBase = s.ringBase := rfl
@[simp] theorem pushFirst_cyc (s : State) (is : List Ev) : (s.pushFirst is).cyc = s.cyc := rfl
@[simp] theorem pushFirst_tick (s : State) (is : List Ev) : (s.pushFirst is).tick = s.tick := rfl
@[simp] theorem pushFirst_free (s : State) (is : List Ev) : (s.pushFirst is).free = s.free := rfl
@[simp] theorem pushFirst_cur (s : State) (is : List Ev) : (s.pushFirst is).cur = s.cur := rfl
@[simp] theorem pushFirst_pend (s : State) (is : List Ev) : (s.pushFirst is).pend = is ++ s.pend := rfl
@[simp] theorem pushFirst_msg (s : State) (is : List Ev) : (s.pushFirst is).msg = s.msg := rfl
@[simp] theorem pushFirst_timers (s : State) (is : List Ev) : (s.pushFirst is).timers = s.timers := rfl
@[simp] theorem pushFirst_rang (s : State) (is : List Ev) : (s.pushFirst is).rang = s.rang := rfl
@[simp] theorem pushFirst_sched (s : State) (is : List Ev) : (s.pushFirst is).sched = s.sched := rfl

/-! `arm` -/

@[simp] theorem arm_mem (s : State) (is : List Ev) : (s.arm is).mem = s.mem := rfl
@[simp] theorem arm_gmeta (s : State) (is : List Ev) : (s.arm is).gmeta = s.gmeta := rfl
@[simp] theorem arm_hostMem (s : State) (is : List Ev) : (s.arm is).hostMem = s.hostMem := rfl
@[simp] theorem arm_sys (s : State) (is : List Ev) : (s.arm is).sys = s.sys := rfl
@[simp] theorem arm_acnt (s : State) (is : List Ev) : (s.arm is).acnt = s.acnt := rfl
@[simp] theorem arm_poison (s : State) (is : List Ev) : (s.arm is).poison = s.poison := rfl
@[simp] theorem arm_moves (s : State) (is : List Ev) : (s.arm is).moves = s.moves := rfl
@[simp] theorem arm_exports (s : State) (is : List Ev) : (s.arm is).exports = s.exports := rfl
@[simp] theorem arm_lost (s : State) (is : List Ev) : (s.arm is).lost = s.lost := rfl
@[simp] theorem arm_peerParks (s : State) (is : List Ev) : (s.arm is).peerParks = s.peerParks := rfl
@[simp] theorem arm_written (s : State) (is : List Ev) : (s.arm is).written = s.written := rfl
@[simp] theorem arm_cores (s : State) (is : List Ev) : (s.arm is).cores = s.cores := rfl
@[simp] theorem arm_tiles (s : State) (is : List Ev) : (s.arm is).tiles = s.tiles := rfl
@[simp] theorem arm_units (s : State) (is : List Ev) : (s.arm is).units = s.units := rfl
@[simp] theorem arm_dies (s : State) (is : List Ev) : (s.arm is).dies = s.dies := rfl
@[simp] theorem arm_links (s : State) (is : List Ev) : (s.arm is).links = s.links := rfl
@[simp] theorem arm_parts (s : State) (is : List Ev) : (s.arm is).parts = s.parts := rfl
@[simp] theorem arm_launches (s : State) (is : List Ev) : (s.arm is).launches = s.launches := rfl
@[simp] theorem arm_nextLaunch (s : State) (is : List Ev) : (s.arm is).nextLaunch = s.nextLaunch := rfl
@[simp] theorem arm_ctxs (s : State) (is : List Ev) : (s.arm is).ctxs = s.ctxs := rfl
@[simp] theorem arm_pastLogs (s : State) (is : List Ev) : (s.arm is).pastLogs = s.pastLogs := rfl
@[simp] theorem arm_copies (s : State) (is : List Ev) : (s.arm is).copies = s.copies := rfl
@[simp] theorem arm_nextCopy (s : State) (is : List Ev) : (s.arm is).nextCopy = s.nextCopy := rfl
@[simp] theorem arm_requests (s : State) (is : List Ev) : (s.arm is).requests = s.requests := rfl
@[simp] theorem arm_host (s : State) (is : List Ev) : (s.arm is).host = s.host := rfl
@[simp] theorem arm_outbox (s : State) (is : List Ev) : (s.arm is).outbox = s.outbox := rfl
@[simp] theorem arm_ckpt (s : State) (is : List Ev) : (s.arm is).ckpt = s.ckpt := rfl
@[simp] theorem arm_ckptAcks (s : State) (is : List Ev) : (s.arm is).ckptAcks = s.ckptAcks := rfl
@[simp] theorem arm_outcomes (s : State) (is : List Ev) : (s.arm is).outcomes = s.outcomes := rfl
@[simp] theorem arm_nextBead (s : State) (is : List Ev) : (s.arm is).nextBead = s.nextBead := rfl
@[simp] theorem arm_ringBase (s : State) (is : List Ev) : (s.arm is).ringBase = s.ringBase := rfl
@[simp] theorem arm_cyc (s : State) (is : List Ev) : (s.arm is).cyc = s.cyc := rfl
@[simp] theorem arm_tick (s : State) (is : List Ev) : (s.arm is).tick = s.tick := rfl
@[simp] theorem arm_free (s : State) (is : List Ev) : (s.arm is).free = s.free := rfl
@[simp] theorem arm_cur (s : State) (is : List Ev) : (s.arm is).cur = s.cur := rfl
@[simp] theorem arm_pend (s : State) (is : List Ev) : (s.arm is).pend = s.pend := rfl
@[simp] theorem arm_msg (s : State) (is : List Ev) : (s.arm is).msg = s.msg := rfl
@[simp] theorem arm_timers (s : State) (is : List Ev) : (s.arm is).timers = s.timers ++ is := rfl
@[simp] theorem arm_rang (s : State) (is : List Ev) : (s.arm is).rang = s.rang := rfl
@[simp] theorem arm_sched (s : State) (is : List Ev) : (s.arm is).sched = s.sched := rfl

/-! `emit` -/

@[simp] theorem emit_mem (s : State) (o : Out) : (s.emit o).mem = s.mem := rfl
@[simp] theorem emit_gmeta (s : State) (o : Out) : (s.emit o).gmeta = s.gmeta := rfl
@[simp] theorem emit_hostMem (s : State) (o : Out) : (s.emit o).hostMem = s.hostMem := rfl
@[simp] theorem emit_sys (s : State) (o : Out) : (s.emit o).sys = s.sys := rfl
@[simp] theorem emit_acnt (s : State) (o : Out) : (s.emit o).acnt = s.acnt := rfl
@[simp] theorem emit_poison (s : State) (o : Out) : (s.emit o).poison = s.poison := rfl
@[simp] theorem emit_moves (s : State) (o : Out) : (s.emit o).moves = s.moves := rfl
@[simp] theorem emit_exports (s : State) (o : Out) : (s.emit o).exports = s.exports := rfl
@[simp] theorem emit_lost (s : State) (o : Out) : (s.emit o).lost = s.lost := rfl
@[simp] theorem emit_peerParks (s : State) (o : Out) : (s.emit o).peerParks = s.peerParks := rfl
@[simp] theorem emit_written (s : State) (o : Out) : (s.emit o).written = s.written := rfl
@[simp] theorem emit_cores (s : State) (o : Out) : (s.emit o).cores = s.cores := rfl
@[simp] theorem emit_tiles (s : State) (o : Out) : (s.emit o).tiles = s.tiles := rfl
@[simp] theorem emit_units (s : State) (o : Out) : (s.emit o).units = s.units := rfl
@[simp] theorem emit_dies (s : State) (o : Out) : (s.emit o).dies = s.dies := rfl
@[simp] theorem emit_links (s : State) (o : Out) : (s.emit o).links = s.links := rfl
@[simp] theorem emit_parts (s : State) (o : Out) : (s.emit o).parts = s.parts := rfl
@[simp] theorem emit_launches (s : State) (o : Out) : (s.emit o).launches = s.launches := rfl
@[simp] theorem emit_nextLaunch (s : State) (o : Out) : (s.emit o).nextLaunch = s.nextLaunch := rfl
@[simp] theorem emit_ctxs (s : State) (o : Out) : (s.emit o).ctxs = s.ctxs := rfl
@[simp] theorem emit_pastLogs (s : State) (o : Out) : (s.emit o).pastLogs = s.pastLogs := rfl
@[simp] theorem emit_copies (s : State) (o : Out) : (s.emit o).copies = s.copies := rfl
@[simp] theorem emit_nextCopy (s : State) (o : Out) : (s.emit o).nextCopy = s.nextCopy := rfl
@[simp] theorem emit_requests (s : State) (o : Out) : (s.emit o).requests = s.requests := rfl
@[simp] theorem emit_host (s : State) (o : Out) : (s.emit o).host = s.host := rfl
@[simp] theorem emit_outbox (s : State) (o : Out) : (s.emit o).outbox = s.outbox ++ [o] := rfl
@[simp] theorem emit_ckpt (s : State) (o : Out) : (s.emit o).ckpt = s.ckpt := rfl
@[simp] theorem emit_ckptAcks (s : State) (o : Out) : (s.emit o).ckptAcks = s.ckptAcks := rfl
@[simp] theorem emit_outcomes (s : State) (o : Out) : (s.emit o).outcomes = s.outcomes := rfl
@[simp] theorem emit_nextBead (s : State) (o : Out) : (s.emit o).nextBead = s.nextBead := rfl
@[simp] theorem emit_ringBase (s : State) (o : Out) : (s.emit o).ringBase = s.ringBase := rfl
@[simp] theorem emit_cyc (s : State) (o : Out) : (s.emit o).cyc = s.cyc := rfl
@[simp] theorem emit_tick (s : State) (o : Out) : (s.emit o).tick = s.tick := rfl
@[simp] theorem emit_free (s : State) (o : Out) : (s.emit o).free = s.free := rfl
@[simp] theorem emit_cur (s : State) (o : Out) : (s.emit o).cur = s.cur := rfl
@[simp] theorem emit_pend (s : State) (o : Out) : (s.emit o).pend = s.pend := rfl
@[simp] theorem emit_msg (s : State) (o : Out) : (s.emit o).msg = s.msg := rfl
@[simp] theorem emit_timers (s : State) (o : Out) : (s.emit o).timers = s.timers := rfl
@[simp] theorem emit_rang (s : State) (o : Out) : (s.emit o).rang = s.rang := rfl
@[simp] theorem emit_sched (s : State) (o : Out) : (s.emit o).sched = s.sched := rfl

/-! `putByte` -/

@[simp] theorem putByte_mem (s : State) (loc : Nat) (b : Byte) : (s.putByte loc b).mem = Map.set s.mem blankByte loc b := rfl
@[simp] theorem putByte_gmeta (s : State) (loc : Nat) (b : Byte) : (s.putByte loc b).gmeta = s.gmeta := rfl
@[simp] theorem putByte_hostMem (s : State) (loc : Nat) (b : Byte) : (s.putByte loc b).hostMem = s.hostMem := rfl
@[simp] theorem putByte_sys (s : State) (loc : Nat) (b : Byte) : (s.putByte loc b).sys = s.sys := rfl
@[simp] theorem putByte_acnt (s : State) (loc : Nat) (b : Byte) : (s.putByte loc b).acnt = s.acnt := rfl
@[simp] theorem putByte_poison (s : State) (loc : Nat) (b : Byte) : (s.putByte loc b).poison = s.poison := rfl
@[simp] theorem putByte_moves (s : State) (loc : Nat) (b : Byte) : (s.putByte loc b).moves = s.moves := rfl
@[simp] theorem putByte_exports (s : State) (loc : Nat) (b : Byte) : (s.putByte loc b).exports = s.exports := rfl
@[simp] theorem putByte_lost (s : State) (loc : Nat) (b : Byte) : (s.putByte loc b).lost = s.lost := rfl
@[simp] theorem putByte_peerParks (s : State) (loc : Nat) (b : Byte) : (s.putByte loc b).peerParks = s.peerParks := rfl
@[simp] theorem putByte_written (s : State) (loc : Nat) (b : Byte) : (s.putByte loc b).written = s.written := rfl
@[simp] theorem putByte_cores (s : State) (loc : Nat) (b : Byte) : (s.putByte loc b).cores = s.cores := rfl
@[simp] theorem putByte_tiles (s : State) (loc : Nat) (b : Byte) : (s.putByte loc b).tiles = s.tiles := rfl
@[simp] theorem putByte_units (s : State) (loc : Nat) (b : Byte) : (s.putByte loc b).units = s.units := rfl
@[simp] theorem putByte_dies (s : State) (loc : Nat) (b : Byte) : (s.putByte loc b).dies = s.dies := rfl
@[simp] theorem putByte_links (s : State) (loc : Nat) (b : Byte) : (s.putByte loc b).links = s.links := rfl
@[simp] theorem putByte_parts (s : State) (loc : Nat) (b : Byte) : (s.putByte loc b).parts = s.parts := rfl
@[simp] theorem putByte_launches (s : State) (loc : Nat) (b : Byte) : (s.putByte loc b).launches = s.launches := rfl
@[simp] theorem putByte_nextLaunch (s : State) (loc : Nat) (b : Byte) : (s.putByte loc b).nextLaunch = s.nextLaunch := rfl
@[simp] theorem putByte_ctxs (s : State) (loc : Nat) (b : Byte) : (s.putByte loc b).ctxs = s.ctxs := rfl
@[simp] theorem putByte_pastLogs (s : State) (loc : Nat) (b : Byte) : (s.putByte loc b).pastLogs = s.pastLogs := rfl
@[simp] theorem putByte_copies (s : State) (loc : Nat) (b : Byte) : (s.putByte loc b).copies = s.copies := rfl
@[simp] theorem putByte_nextCopy (s : State) (loc : Nat) (b : Byte) : (s.putByte loc b).nextCopy = s.nextCopy := rfl
@[simp] theorem putByte_requests (s : State) (loc : Nat) (b : Byte) : (s.putByte loc b).requests = s.requests := rfl
@[simp] theorem putByte_host (s : State) (loc : Nat) (b : Byte) : (s.putByte loc b).host = s.host := rfl
@[simp] theorem putByte_outbox (s : State) (loc : Nat) (b : Byte) : (s.putByte loc b).outbox = s.outbox := rfl
@[simp] theorem putByte_ckpt (s : State) (loc : Nat) (b : Byte) : (s.putByte loc b).ckpt = s.ckpt := rfl
@[simp] theorem putByte_ckptAcks (s : State) (loc : Nat) (b : Byte) : (s.putByte loc b).ckptAcks = s.ckptAcks := rfl
@[simp] theorem putByte_outcomes (s : State) (loc : Nat) (b : Byte) : (s.putByte loc b).outcomes = s.outcomes := rfl
@[simp] theorem putByte_nextBead (s : State) (loc : Nat) (b : Byte) : (s.putByte loc b).nextBead = s.nextBead := rfl
@[simp] theorem putByte_ringBase (s : State) (loc : Nat) (b : Byte) : (s.putByte loc b).ringBase = s.ringBase := rfl
@[simp] theorem putByte_cyc (s : State) (loc : Nat) (b : Byte) : (s.putByte loc b).cyc = s.cyc := rfl
@[simp] theorem putByte_tick (s : State) (loc : Nat) (b : Byte) : (s.putByte loc b).tick = s.tick := rfl
@[simp] theorem putByte_free (s : State) (loc : Nat) (b : Byte) : (s.putByte loc b).free = s.free := rfl
@[simp] theorem putByte_cur (s : State) (loc : Nat) (b : Byte) : (s.putByte loc b).cur = s.cur := rfl
@[simp] theorem putByte_pend (s : State) (loc : Nat) (b : Byte) : (s.putByte loc b).pend = s.pend := rfl
@[simp] theorem putByte_msg (s : State) (loc : Nat) (b : Byte) : (s.putByte loc b).msg = s.msg := rfl
@[simp] theorem putByte_timers (s : State) (loc : Nat) (b : Byte) : (s.putByte loc b).timers = s.timers := rfl
@[simp] theorem putByte_rang (s : State) (loc : Nat) (b : Byte) : (s.putByte loc b).rang = s.rang := rfl
@[simp] theorem putByte_sched (s : State) (loc : Nat) (b : Byte) : (s.putByte loc b).sched = s.sched := rfl

/-! `putMeta` -/

@[simp] theorem putMeta_mem (s : State) (g : Nat) (m : BitVec 12) : (s.putMeta g m).mem = s.mem := rfl
@[simp] theorem putMeta_gmeta (s : State) (g : Nat) (m : BitVec 12) : (s.putMeta g m).gmeta = Map.set s.gmeta 0 g m := rfl
@[simp] theorem putMeta_hostMem (s : State) (g : Nat) (m : BitVec 12) : (s.putMeta g m).hostMem = s.hostMem := rfl
@[simp] theorem putMeta_sys (s : State) (g : Nat) (m : BitVec 12) : (s.putMeta g m).sys = s.sys := rfl
@[simp] theorem putMeta_acnt (s : State) (g : Nat) (m : BitVec 12) : (s.putMeta g m).acnt = s.acnt := rfl
@[simp] theorem putMeta_poison (s : State) (g : Nat) (m : BitVec 12) : (s.putMeta g m).poison = s.poison := rfl
@[simp] theorem putMeta_moves (s : State) (g : Nat) (m : BitVec 12) : (s.putMeta g m).moves = s.moves := rfl
@[simp] theorem putMeta_exports (s : State) (g : Nat) (m : BitVec 12) : (s.putMeta g m).exports = s.exports := rfl
@[simp] theorem putMeta_lost (s : State) (g : Nat) (m : BitVec 12) : (s.putMeta g m).lost = s.lost := rfl
@[simp] theorem putMeta_peerParks (s : State) (g : Nat) (m : BitVec 12) : (s.putMeta g m).peerParks = s.peerParks := rfl
@[simp] theorem putMeta_written (s : State) (g : Nat) (m : BitVec 12) : (s.putMeta g m).written = s.written := rfl
@[simp] theorem putMeta_cores (s : State) (g : Nat) (m : BitVec 12) : (s.putMeta g m).cores = s.cores := rfl
@[simp] theorem putMeta_tiles (s : State) (g : Nat) (m : BitVec 12) : (s.putMeta g m).tiles = s.tiles := rfl
@[simp] theorem putMeta_units (s : State) (g : Nat) (m : BitVec 12) : (s.putMeta g m).units = s.units := rfl
@[simp] theorem putMeta_dies (s : State) (g : Nat) (m : BitVec 12) : (s.putMeta g m).dies = s.dies := rfl
@[simp] theorem putMeta_links (s : State) (g : Nat) (m : BitVec 12) : (s.putMeta g m).links = s.links := rfl
@[simp] theorem putMeta_parts (s : State) (g : Nat) (m : BitVec 12) : (s.putMeta g m).parts = s.parts := rfl
@[simp] theorem putMeta_launches (s : State) (g : Nat) (m : BitVec 12) : (s.putMeta g m).launches = s.launches := rfl
@[simp] theorem putMeta_nextLaunch (s : State) (g : Nat) (m : BitVec 12) : (s.putMeta g m).nextLaunch = s.nextLaunch := rfl
@[simp] theorem putMeta_ctxs (s : State) (g : Nat) (m : BitVec 12) : (s.putMeta g m).ctxs = s.ctxs := rfl
@[simp] theorem putMeta_pastLogs (s : State) (g : Nat) (m : BitVec 12) : (s.putMeta g m).pastLogs = s.pastLogs := rfl
@[simp] theorem putMeta_copies (s : State) (g : Nat) (m : BitVec 12) : (s.putMeta g m).copies = s.copies := rfl
@[simp] theorem putMeta_nextCopy (s : State) (g : Nat) (m : BitVec 12) : (s.putMeta g m).nextCopy = s.nextCopy := rfl
@[simp] theorem putMeta_requests (s : State) (g : Nat) (m : BitVec 12) : (s.putMeta g m).requests = s.requests := rfl
@[simp] theorem putMeta_host (s : State) (g : Nat) (m : BitVec 12) : (s.putMeta g m).host = s.host := rfl
@[simp] theorem putMeta_outbox (s : State) (g : Nat) (m : BitVec 12) : (s.putMeta g m).outbox = s.outbox := rfl
@[simp] theorem putMeta_ckpt (s : State) (g : Nat) (m : BitVec 12) : (s.putMeta g m).ckpt = s.ckpt := rfl
@[simp] theorem putMeta_ckptAcks (s : State) (g : Nat) (m : BitVec 12) : (s.putMeta g m).ckptAcks = s.ckptAcks := rfl
@[simp] theorem putMeta_outcomes (s : State) (g : Nat) (m : BitVec 12) : (s.putMeta g m).outcomes = s.outcomes := rfl
@[simp] theorem putMeta_nextBead (s : State) (g : Nat) (m : BitVec 12) : (s.putMeta g m).nextBead = s.nextBead := rfl
@[simp] theorem putMeta_ringBase (s : State) (g : Nat) (m : BitVec 12) : (s.putMeta g m).ringBase = s.ringBase := rfl
@[simp] theorem putMeta_cyc (s : State) (g : Nat) (m : BitVec 12) : (s.putMeta g m).cyc = s.cyc := rfl
@[simp] theorem putMeta_tick (s : State) (g : Nat) (m : BitVec 12) : (s.putMeta g m).tick = s.tick := rfl
@[simp] theorem putMeta_free (s : State) (g : Nat) (m : BitVec 12) : (s.putMeta g m).free = s.free := rfl
@[simp] theorem putMeta_cur (s : State) (g : Nat) (m : BitVec 12) : (s.putMeta g m).cur = s.cur := rfl
@[simp] theorem putMeta_pend (s : State) (g : Nat) (m : BitVec 12) : (s.putMeta g m).pend = s.pend := rfl
@[simp] theorem putMeta_msg (s : State) (g : Nat) (m : BitVec 12) : (s.putMeta g m).msg = s.msg := rfl
@[simp] theorem putMeta_timers (s : State) (g : Nat) (m : BitVec 12) : (s.putMeta g m).timers = s.timers := rfl
@[simp] theorem putMeta_rang (s : State) (g : Nat) (m : BitVec 12) : (s.putMeta g m).rang = s.rang := rfl
@[simp] theorem putMeta_sched (s : State) (g : Nat) (m : BitVec 12) : (s.putMeta g m).sched = s.sched := rfl

/-! `setSys` -/

@[simp] theorem setSys_mem (s : State) (block off : Nat) (v : Word) : (s.setSys block off v).mem = s.mem := rfl
@[simp] theorem setSys_gmeta (s : State) (block off : Nat) (v : Word) : (s.setSys block off v).gmeta = s.gmeta := rfl
@[simp] theorem setSys_hostMem (s : State) (block off : Nat) (v : Word) : (s.setSys block off v).hostMem = s.hostMem := rfl
@[simp] theorem setSys_sys (s : State) (block off : Nat) (v : Word) : (s.setSys block off v).sys = Map.set s.sys 0 (sysKey block off) v := rfl
@[simp] theorem setSys_acnt (s : State) (block off : Nat) (v : Word) : (s.setSys block off v).acnt = s.acnt := rfl
@[simp] theorem setSys_poison (s : State) (block off : Nat) (v : Word) : (s.setSys block off v).poison = s.poison := rfl
@[simp] theorem setSys_moves (s : State) (block off : Nat) (v : Word) : (s.setSys block off v).moves = s.moves := rfl
@[simp] theorem setSys_exports (s : State) (block off : Nat) (v : Word) : (s.setSys block off v).exports = s.exports := rfl
@[simp] theorem setSys_lost (s : State) (block off : Nat) (v : Word) : (s.setSys block off v).lost = s.lost := rfl
@[simp] theorem setSys_peerParks (s : State) (block off : Nat) (v : Word) : (s.setSys block off v).peerParks = s.peerParks := rfl
@[simp] theorem setSys_written (s : State) (block off : Nat) (v : Word) : (s.setSys block off v).written = s.written := rfl
@[simp] theorem setSys_cores (s : State) (block off : Nat) (v : Word) : (s.setSys block off v).cores = s.cores := rfl
@[simp] theorem setSys_tiles (s : State) (block off : Nat) (v : Word) : (s.setSys block off v).tiles = s.tiles := rfl
@[simp] theorem setSys_units (s : State) (block off : Nat) (v : Word) : (s.setSys block off v).units = s.units := rfl
@[simp] theorem setSys_dies (s : State) (block off : Nat) (v : Word) : (s.setSys block off v).dies = s.dies := rfl
@[simp] theorem setSys_links (s : State) (block off : Nat) (v : Word) : (s.setSys block off v).links = s.links := rfl
@[simp] theorem setSys_parts (s : State) (block off : Nat) (v : Word) : (s.setSys block off v).parts = s.parts := rfl
@[simp] theorem setSys_launches (s : State) (block off : Nat) (v : Word) : (s.setSys block off v).launches = s.launches := rfl
@[simp] theorem setSys_nextLaunch (s : State) (block off : Nat) (v : Word) : (s.setSys block off v).nextLaunch = s.nextLaunch := rfl
@[simp] theorem setSys_ctxs (s : State) (block off : Nat) (v : Word) : (s.setSys block off v).ctxs = s.ctxs := rfl
@[simp] theorem setSys_pastLogs (s : State) (block off : Nat) (v : Word) : (s.setSys block off v).pastLogs = s.pastLogs := rfl
@[simp] theorem setSys_copies (s : State) (block off : Nat) (v : Word) : (s.setSys block off v).copies = s.copies := rfl
@[simp] theorem setSys_nextCopy (s : State) (block off : Nat) (v : Word) : (s.setSys block off v).nextCopy = s.nextCopy := rfl
@[simp] theorem setSys_requests (s : State) (block off : Nat) (v : Word) : (s.setSys block off v).requests = s.requests := rfl
@[simp] theorem setSys_host (s : State) (block off : Nat) (v : Word) : (s.setSys block off v).host = s.host := rfl
@[simp] theorem setSys_outbox (s : State) (block off : Nat) (v : Word) : (s.setSys block off v).outbox = s.outbox := rfl
@[simp] theorem setSys_ckpt (s : State) (block off : Nat) (v : Word) : (s.setSys block off v).ckpt = s.ckpt := rfl
@[simp] theorem setSys_ckptAcks (s : State) (block off : Nat) (v : Word) : (s.setSys block off v).ckptAcks = s.ckptAcks := rfl
@[simp] theorem setSys_outcomes (s : State) (block off : Nat) (v : Word) : (s.setSys block off v).outcomes = s.outcomes := rfl
@[simp] theorem setSys_nextBead (s : State) (block off : Nat) (v : Word) : (s.setSys block off v).nextBead = s.nextBead := rfl
@[simp] theorem setSys_ringBase (s : State) (block off : Nat) (v : Word) : (s.setSys block off v).ringBase = s.ringBase := rfl
@[simp] theorem setSys_cyc (s : State) (block off : Nat) (v : Word) : (s.setSys block off v).cyc = s.cyc := rfl
@[simp] theorem setSys_tick (s : State) (block off : Nat) (v : Word) : (s.setSys block off v).tick = s.tick := rfl
@[simp] theorem setSys_free (s : State) (block off : Nat) (v : Word) : (s.setSys block off v).free = s.free := rfl
@[simp] theorem setSys_cur (s : State) (block off : Nat) (v : Word) : (s.setSys block off v).cur = s.cur := rfl
@[simp] theorem setSys_pend (s : State) (block off : Nat) (v : Word) : (s.setSys block off v).pend = s.pend := rfl
@[simp] theorem setSys_msg (s : State) (block off : Nat) (v : Word) : (s.setSys block off v).msg = s.msg := rfl
@[simp] theorem setSys_timers (s : State) (block off : Nat) (v : Word) : (s.setSys block off v).timers = s.timers := rfl
@[simp] theorem setSys_rang (s : State) (block off : Nat) (v : Word) : (s.setSys block off v).rang = s.rang := rfl
@[simp] theorem setSys_sched (s : State) (block off : Nat) (v : Word) : (s.setSys block off v).sched = s.sched := rfl

/-! The updates by a function and of the executing core are updates by a value. -/

@[simp] theorem modCore_eq (s : State) (k : Nat) (f : Core → Core) : s.modCore k f = s.putCore k (f (s.coreAt k)) := rfl
@[simp] theorem modTile_eq (s : State) (k : Nat) (f : Tile → Tile) : s.modTile k f = s.putTile k (f (s.tileAt k)) := rfl
@[simp] theorem modUnit_eq (s : State) (u : Nat) (f : BeadUnit → BeadUnit) : s.modUnit u f = s.putUnit u (f (s.unitAt u)) := rfl
@[simp] theorem modDie_eq (s : State) (d : Nat) (f : Die → Die) : s.modDie d f = s.putDie d (f (s.dieAt d)) := rfl
@[simp] theorem setMe_eq (s : State) (c : Core) : s.setMe c = s.putCore s.cur c := rfl
theorem me_eq (s : State) : s.me = s.coreAt s.cur := rfl

/-! What the accessors find after an update. -/

theorem coreAt_putCore (s : State) (k j : Nat) (c : Core) :
    (s.putCore k c).coreAt j = if j = k then c else s.coreAt j := by
  simp only [coreAt, putCore_cores, Map.find?_put]; split_ifs <;> rfl

@[simp] theorem coreAt_putCore_same (s : State) (k : Nat) (c : Core) : (s.putCore k c).coreAt k = c := by
  simp [coreAt_putCore]

@[simp] theorem me_putCore_cur (s : State) (c : Core) : (s.putCore s.cur c).me = c := by
  simp [me]

@[simp] theorem putCore_putCore (s : State) (k : Nat) (c c' : Core) : ((s.putCore k c).putCore k c').coreAt k = c' := by
  simp

theorem tileAt_putTile (s : State) (k j : Nat) (t : Tile) :
    (s.putTile k t).tileAt j = if j = k then t else s.tileAt j := by
  simp only [tileAt, putTile_tiles, Map.get_put]

@[simp] theorem tileAt_putTile_same (s : State) (k : Nat) (t : Tile) : (s.putTile k t).tileAt k = t := by
  simp [tileAt_putTile]

theorem unitAt_putUnit (s : State) (k j : Nat) (x : BeadUnit) :
    (s.putUnit k x).unitAt j = if j = k then x else s.unitAt j := by
  simp only [unitAt, putUnit_units, Map.get_put]

@[simp] theorem unitAt_putUnit_same (s : State) (k : Nat) (x : BeadUnit) : (s.putUnit k x).unitAt k = x := by
  simp [unitAt_putUnit]

theorem dieAt_putDie (s : State) (k j : Nat) (x : Die) :
    (s.putDie k x).dieAt j = if j = k then x else s.dieAt j := by
  simp only [dieAt, putDie_dies, Map.get_put]

@[simp] theorem dieAt_putDie_same (s : State) (k : Nat) (x : Die) : (s.putDie k x).dieAt k = x := by
  simp [dieAt_putDie]

theorem linkAt_putLink (s : State) (k j : Nat) (x : Link) :
    (s.putLink k x).linkAt j = if j = k then x else s.linkAt j := by
  simp only [linkAt, putLink_links, Map.get_put]

@[simp] theorem linkAt_putLink_same (s : State) (k : Nat) (x : Link) : (s.putLink k x).linkAt k = x := by
  simp [linkAt_putLink]

theorem partAt_putPart (s : State) (k j : Nat) (x : Part) :
    (s.putPart k x).partAt j = if j = k then some x else s.partAt j := by
  simp only [partAt, putPart_parts, Map.find?_put]

theorem ctxAt_putCtx (s : State) (k j : Nat) (x : Ctx) :
    (s.putCtx k x).ctxAt j = if j = k then some x else s.ctxAt j := by
  simp only [ctxAt, putCtx_ctxs, Map.find?_put]

theorem byte_putByte (s : State) (loc a : Nat) (b : Byte) :
    (s.putByte loc b).byte a = if a = loc then b else s.byte a := by
  simp only [byte, putByte_mem, Map.get_set]

theorem metaAt_putMeta (s : State) (g h : Nat) (m : BitVec 12) :
    (s.putMeta g m).metaAt h = if h = g then m else s.metaAt h := by
  simp only [metaAt, putMeta_gmeta, Map.get_set]

theorem sysReg_setSys (s : State) (block off b o : Nat) (v : Word) :
    (s.setSys block off v).sysReg b o = if sysKey b o = sysKey block off then v else s.sysReg b o := by
  simp only [sysReg, setSys_sys, Map.get_set]

/-! Accessors that an update of something else leaves alone. -/

@[simp] theorem tileAt_putCore (s : State) (k : Nat) (c : Core) (j : Nat) : (s.putCore k c).tileAt j = s.tileAt j := rfl
@[simp] theorem unitAt_putCore (s : State) (k : Nat) (c : Core) (j : Nat) : (s.putCore k c).unitAt j = s.unitAt j := rfl
@[simp] theorem dieAt_putCore (s : State) (k : Nat) (c : Core) (j : Nat) : (s.putCore k c).dieAt j = s.dieAt j := rfl
@[simp] theorem linkAt_putCore (s : State) (k : Nat) (c : Core) (j : Nat) : (s.putCore k c).linkAt j = s.linkAt j := rfl
@[simp] theorem partAt_putCore (s : State) (k : Nat) (c : Core) (j : Nat) : (s.putCore k c).partAt j = s.partAt j := rfl
@[simp] theorem ctxAt_putCore (s : State) (k : Nat) (c : Core) (j : Nat) : (s.putCore k c).ctxAt j = s.ctxAt j := rfl
@[simp] theorem byte_putCore (s : State) (k : Nat) (c : Core) (j : Nat) : (s.putCore k c).byte j = s.byte j := rfl
@[simp] theorem metaAt_putCore (s : State) (k : Nat) (c : Core) (j : Nat) : (s.putCore k c).metaAt j = s.metaAt j := rfl
@[simp] theorem sysReg_putCore (s : State) (k : Nat) (c : Core) (blk at_ : Nat) : (s.putCore k c).sysReg blk at_ = s.sysReg blk at_ := rfl
@[simp] theorem coreAt_putTile (s : State) (k : Nat) (t : Tile) (j : Nat) : (s.putTile k t).coreAt j = s.coreAt j := rfl
@[simp] theorem unitAt_putTile (s : State) (k : Nat) (t : Tile) (j : Nat) : (s.putTile k t).unitAt j = s.unitAt j := rfl
@[simp] theorem dieAt_putTile (s : State) (k : Nat) (t : Tile) (j : Nat) : (s.putTile k t).dieAt j = s.dieAt j := rfl
@[simp] theorem linkAt_putTile (s : State) (k : Nat) (t : Tile) (j : Nat) : (s.putTile k t).linkAt j = s.linkAt j := rfl
@[simp] theorem partAt_putTile (s : State) (k : Nat) (t : Tile) (j : Nat) : (s.putTile k t).partAt j = s.partAt j := rfl
@[simp] theorem ctxAt_putTile (s : State) (k : Nat) (t : Tile) (j : Nat) : (s.putTile k t).ctxAt j = s.ctxAt j := rfl
@[simp] theorem byte_putTile (s : State) (k : Nat) (t : Tile) (j : Nat) : (s.putTile k t).byte j = s.byte j := rfl
@[simp] theorem metaAt_putTile (s : State) (k : Nat) (t : Tile) (j : Nat) : (s.putTile k t).metaAt j = s.metaAt j := rfl
@[simp] theorem sysReg_putTile (s : State) (k : Nat) (t : Tile) (blk at_ : Nat) : (s.putTile k t).sysReg blk at_ = s.sysReg blk at_ := rfl
@[simp] theorem coreAt_putUnit (s : State) (u : Nat) (x : BeadUnit) (j : Nat) : (s.putUnit u x).coreAt j = s.coreAt j := rfl
@[simp] theorem tileAt_putUnit (s : State) (u : Nat) (x : BeadUnit) (j : Nat) : (s.putUnit u x).tileAt j = s.tileAt j := rfl
@[simp] theorem dieAt_putUnit (s : State) (u : Nat) (x : BeadUnit) (j : Nat) : (s.putUnit u x).dieAt j = s.dieAt j := rfl
@[simp] theorem linkAt_putUnit (s : State) (u : Nat) (x : BeadUnit) (j : Nat) : (s.putUnit u x).linkAt j = s.linkAt j := rfl
@[simp] theorem partAt_putUnit (s : State) (u : Nat) (x : BeadUnit) (j : Nat) : (s.putUnit u x).partAt j = s.partAt j := rfl
@[simp] theorem ctxAt_putUnit (s : State) (u : Nat) (x : BeadUnit) (j : Nat) : (s.putUnit u x).ctxAt j = s.ctxAt j := rfl
@[simp] theorem byte_putUnit (s : State) (u : Nat) (x : BeadUnit) (j : Nat) : (s.putUnit u x).byte j = s.byte j := rfl
@[simp] theorem metaAt_putUnit (s : State) (u : Nat) (x : BeadUnit) (j : Nat) : (s.putUnit u x).metaAt j = s.metaAt j := rfl
@[simp] theorem sysReg_putUnit (s : State) (u : Nat) (x : BeadUnit) (blk at_ : Nat) : (s.putUnit u x).sysReg blk at_ = s.sysReg blk at_ := rfl
@[simp] theorem coreAt_putDie (s : State) (d : Nat) (x : Die) (j : Nat) : (s.putDie d x).coreAt j = s.coreAt j := rfl
@[simp] theorem tileAt_putDie (s : State) (d : Nat) (x : Die) (j : Nat) : (s.putDie d x).tileAt j = s.tileAt j := rfl
@[simp] theorem unitAt_putDie (s : State) (d : Nat) (x : Die) (j : Nat) : (s.putDie d x).unitAt j = s.unitAt j := rfl
@[simp] theorem linkAt_putDie (s : State) (d : Nat) (x : Die) (j : Nat) : (s.putDie d x).linkAt j = s.linkAt j := rfl
@[simp] theorem partAt_putDie (s : State) (d : Nat) (x : Die) (j : Nat) : (s.putDie d x).partAt j = s.partAt j := rfl
@[simp] theorem ctxAt_putDie (s : State) (d : Nat) (x : Die) (j : Nat) : (s.putDie d x).ctxAt j = s.ctxAt j := rfl
@[simp] theorem byte_putDie (s : State) (d : Nat) (x : Die) (j : Nat) : (s.putDie d x).byte j = s.byte j := rfl
@[simp] theorem metaAt_putDie (s : State) (d : Nat) (x : Die) (j : Nat) : (s.putDie d x).metaAt j = s.metaAt j := rfl
@[simp] theorem sysReg_putDie (s : State) (d : Nat) (x : Die) (blk at_ : Nat) : (s.putDie d x).sysReg blk at_ = s.sysReg blk at_ := rfl
@[simp] theorem coreAt_putLink (s : State) (k : Nat) (x : Link) (j : Nat) : (s.putLink k x).coreAt j = s.coreAt j := rfl
@[simp] theorem tileAt_putLink (s : State) (k : Nat) (x : Link) (j : Nat) : (s.putLink k x).tileAt j = s.tileAt j := rfl
@[simp] theorem unitAt_putLink (s : State) (k : Nat) (x : Link) (j : Nat) : (s.putLink k x).unitAt j = s.unitAt j := rfl
@[simp] theorem dieAt_putLink (s : State) (k : Nat) (x : Link) (j : Nat) : (s.putLink k x).dieAt j = s.dieAt j := rfl
@[simp] theorem partAt_putLink (s : State) (k : Nat) (x : Link) (j : Nat) : (s.putLink k x).partAt j = s.partAt j := rfl
@[simp] theorem ctxAt_putLink (s : State) (k : Nat) (x : Link) (j : Nat) : (s.putLink k x).ctxAt j = s.ctxAt j := rfl
@[simp] theorem byte_putLink (s : State) (k : Nat) (x : Link) (j : Nat) : (s.putLink k x).byte j = s.byte j := rfl
@[simp] theorem metaAt_putLink (s : State) (k : Nat) (x : Link) (j : Nat) : (s.putLink k x).metaAt j = s.metaAt j := rfl
@[simp] theorem sysReg_putLink (s : State) (k : Nat) (x : Link) (blk at_ : Nat) : (s.putLink k x).sysReg blk at_ = s.sysReg blk at_ := rfl
@[simp] theorem coreAt_putPart (s : State) (p : Nat) (x : Part) (j : Nat) : (s.putPart p x).coreAt j = s.coreAt j := rfl
@[simp] theorem tileAt_putPart (s : State) (p : Nat) (x : Part) (j : Nat) : (s.putPart p x).tileAt j = s.tileAt j := rfl
@[simp] theorem unitAt_putPart (s : State) (p : Nat) (x : Part) (j : Nat) : (s.putPart p x).unitAt j = s.unitAt j := rfl
@[simp] theorem dieAt_putPart (s : State) (p : Nat) (x : Part) (j : Nat) : (s.putPart p x).dieAt j = s.dieAt j := rfl
@[simp] theorem linkAt_putPart (s : State) (p : Nat) (x : Part) (j : Nat) : (s.putPart p x).linkAt j = s.linkAt j := rfl
@[simp] theorem ctxAt_putPart (s : State) (p : Nat) (x : Part) (j : Nat) : (s.putPart p x).ctxAt j = s.ctxAt j := rfl
@[simp] theorem byte_putPart (s : State) (p : Nat) (x : Part) (j : Nat) : (s.putPart p x).byte j = s.byte j := rfl
@[simp] theorem metaAt_putPart (s : State) (p : Nat) (x : Part) (j : Nat) : (s.putPart p x).metaAt j = s.metaAt j := rfl
@[simp] theorem sysReg_putPart (s : State) (p : Nat) (x : Part) (blk at_ : Nat) : (s.putPart p x).sysReg blk at_ = s.sysReg blk at_ := rfl
@[simp] theorem coreAt_putCtx (s : State) (c : Nat) (x : Ctx) (j : Nat) : (s.putCtx c x).coreAt j = s.coreAt j := rfl
@[simp] theorem tileAt_putCtx (s : State) (c : Nat) (x : Ctx) (j : Nat) : (s.putCtx c x).tileAt j = s.tileAt j := rfl
@[simp] theorem unitAt_putCtx (s : State) (c : Nat) (x : Ctx) (j : Nat) : (s.putCtx c x).unitAt j = s.unitAt j := rfl
@[simp] theorem dieAt_putCtx (s : State) (c : Nat) (x : Ctx) (j : Nat) : (s.putCtx c x).dieAt j = s.dieAt j := rfl
@[simp] theorem linkAt_putCtx (s : State) (c : Nat) (x : Ctx) (j : Nat) : (s.putCtx c x).linkAt j = s.linkAt j := rfl
@[simp] theorem partAt_putCtx (s : State) (c : Nat) (x : Ctx) (j : Nat) : (s.putCtx c x).partAt j = s.partAt j := rfl
@[simp] theorem byte_putCtx (s : State) (c : Nat) (x : Ctx) (j : Nat) : (s.putCtx c x).byte j = s.byte j := rfl
@[simp] theorem metaAt_putCtx (s : State) (c : Nat) (x : Ctx) (j : Nat) : (s.putCtx c x).metaAt j = s.metaAt j := rfl
@[simp] theorem sysReg_putCtx (s : State) (c : Nat) (x : Ctx) (blk at_ : Nat) : (s.putCtx c x).sysReg blk at_ = s.sysReg blk at_ := rfl
@[simp] theorem coreAt_push (s : State) (is : List Ev) (j : Nat) : (s.push is).coreAt j = s.coreAt j := rfl
@[simp] theorem tileAt_push (s : State) (is : List Ev) (j : Nat) : (s.push is).tileAt j = s.tileAt j := rfl
@[simp] theorem unitAt_push (s : State) (is : List Ev) (j : Nat) : (s.push is).unitAt j = s.unitAt j := rfl
@[simp] theorem dieAt_push (s : State) (is : List Ev) (j : Nat) : (s.push is).dieAt j = s.dieAt j := rfl
@[simp] theorem linkAt_push (s : State) (is : List Ev) (j : Nat) : (s.push is).linkAt j = s.linkAt j := rfl
@[simp] theorem partAt_push (s : State) (is : List Ev) (j : Nat) : (s.push is).partAt j = s.partAt j := rfl
@[simp] theorem ctxAt_push (s : State) (is : List Ev) (j : Nat) : (s.push is).ctxAt j = s.ctxAt j := rfl
@[simp] theorem byte_push (s : State) (is : List Ev) (j : Nat) : (s.push is).byte j = s.byte j := rfl
@[simp] theorem metaAt_push (s : State) (is : List Ev) (j : Nat) : (s.push is).metaAt j = s.metaAt j := rfl
@[simp] theorem sysReg_push (s : State) (is : List Ev) (blk at_ : Nat) : (s.push is).sysReg blk at_ = s.sysReg blk at_ := rfl
@[simp] theorem coreAt_pushFirst (s : State) (is : List Ev) (j : Nat) : (s.pushFirst is).coreAt j = s.coreAt j := rfl
@[simp] theorem tileAt_pushFirst (s : State) (is : List Ev) (j : Nat) : (s.pushFirst is).tileAt j = s.tileAt j := rfl
@[simp] theorem unitAt_pushFirst (s : State) (is : List Ev) (j : Nat) : (s.pushFirst is).unitAt j = s.unitAt j := rfl
@[simp] theorem dieAt_pushFirst (s : State) (is : List Ev) (j : Nat) : (s.pushFirst is).dieAt j = s.dieAt j := rfl
@[simp] theorem linkAt_pushFirst (s : State) (is : List Ev) (j : Nat) : (s.pushFirst is).linkAt j = s.linkAt j := rfl
@[simp] theorem partAt_pushFirst (s : State) (is : List Ev) (j : Nat) : (s.pushFirst is).partAt j = s.partAt j := rfl
@[simp] theorem ctxAt_pushFirst (s : State) (is : List Ev) (j : Nat) : (s.pushFirst is).ctxAt j = s.ctxAt j := rfl
@[simp] theorem byte_pushFirst (s : State) (is : List Ev) (j : Nat) : (s.pushFirst is).byte j = s.byte j := rfl
@[simp] theorem metaAt_pushFirst (s : State) (is : List Ev) (j : Nat) : (s.pushFirst is).metaAt j = s.metaAt j := rfl
@[simp] theorem sysReg_pushFirst (s : State) (is : List Ev) (blk at_ : Nat) : (s.pushFirst is).sysReg blk at_ = s.sysReg blk at_ := rfl
@[simp] theorem coreAt_arm (s : State) (is : List Ev) (j : Nat) : (s.arm is).coreAt j = s.coreAt j := rfl
@[simp] theorem tileAt_arm (s : State) (is : List Ev) (j : Nat) : (s.arm is).tileAt j = s.tileAt j := rfl
@[simp] theorem unitAt_arm (s : State) (is : List Ev) (j : Nat) : (s.arm is).unitAt j = s.unitAt j := rfl
@[simp] theorem dieAt_arm (s : State) (is : List Ev) (j : Nat) : (s.arm is).dieAt j = s.dieAt j := rfl
@[simp] theorem linkAt_arm (s : State) (is : List Ev) (j : Nat) : (s.arm is).linkAt j = s.linkAt j := rfl
@[simp] theorem partAt_arm (s : State) (is : List Ev) (j : Nat) : (s.arm is).partAt j = s.partAt j := rfl
@[simp] theorem ctxAt_arm (s : State) (is : List Ev) (j : Nat) : (s.arm is).ctxAt j = s.ctxAt j := rfl
@[simp] theorem byte_arm (s : State) (is : List Ev) (j : Nat) : (s.arm is).byte j = s.byte j := rfl
@[simp] theorem metaAt_arm (s : State) (is : List Ev) (j : Nat) : (s.arm is).metaAt j = s.metaAt j := rfl
@[simp] theorem sysReg_arm (s : State) (is : List Ev) (blk at_ : Nat) : (s.arm is).sysReg blk at_ = s.sysReg blk at_ := rfl
@[simp] theorem coreAt_emit (s : State) (o : Out) (j : Nat) : (s.emit o).coreAt j = s.coreAt j := rfl
@[simp] theorem tileAt_emit (s : State) (o : Out) (j : Nat) : (s.emit o).tileAt j = s.tileAt j := rfl
@[simp] theorem unitAt_emit (s : State) (o : Out) (j : Nat) : (s.emit o).unitAt j = s.unitAt j := rfl
@[simp] theorem dieAt_emit (s : State) (o : Out) (j : Nat) : (s.emit o).dieAt j = s.dieAt j := rfl
@[simp] theorem linkAt_emit (s : State) (o : Out) (j : Nat) : (s.emit o).linkAt j = s.linkAt j := rfl
@[simp] theorem partAt_emit (s : State) (o : Out) (j : Nat) : (s.emit o).partAt j = s.partAt j := rfl
@[simp] theorem ctxAt_emit (s : State) (o : Out) (j : Nat) : (s.emit o).ctxAt j = s.ctxAt j := rfl
@[simp] theorem byte_emit (s : State) (o : Out) (j : Nat) : (s.emit o).byte j = s.byte j := rfl
@[simp] theorem metaAt_emit (s : State) (o : Out) (j : Nat) : (s.emit o).metaAt j = s.metaAt j := rfl
@[simp] theorem sysReg_emit (s : State) (o : Out) (blk at_ : Nat) : (s.emit o).sysReg blk at_ = s.sysReg blk at_ := rfl
@[simp] theorem coreAt_putByte (s : State) (loc : Nat) (b : Byte) (j : Nat) : (s.putByte loc b).coreAt j = s.coreAt j := rfl
@[simp] theorem tileAt_putByte (s : State) (loc : Nat) (b : Byte) (j : Nat) : (s.putByte loc b).tileAt j = s.tileAt j := rfl
@[simp] theorem unitAt_putByte (s : State) (loc : Nat) (b : Byte) (j : Nat) : (s.putByte loc b).unitAt j = s.unitAt j := rfl
@[simp] theorem dieAt_putByte (s : State) (loc : Nat) (b : Byte) (j : Nat) : (s.putByte loc b).dieAt j = s.dieAt j := rfl
@[simp] theorem linkAt_putByte (s : State) (loc : Nat) (b : Byte) (j : Nat) : (s.putByte loc b).linkAt j = s.linkAt j := rfl
@[simp] theorem partAt_putByte (s : State) (loc : Nat) (b : Byte) (j : Nat) : (s.putByte loc b).partAt j = s.partAt j := rfl
@[simp] theorem ctxAt_putByte (s : State) (loc : Nat) (b : Byte) (j : Nat) : (s.putByte loc b).ctxAt j = s.ctxAt j := rfl
@[simp] theorem metaAt_putByte (s : State) (loc : Nat) (b : Byte) (j : Nat) : (s.putByte loc b).metaAt j = s.metaAt j := rfl
@[simp] theorem sysReg_putByte (s : State) (loc : Nat) (b : Byte) (blk at_ : Nat) : (s.putByte loc b).sysReg blk at_ = s.sysReg blk at_ := rfl
@[simp] theorem coreAt_putMeta (s : State) (g : Nat) (m : BitVec 12) (j : Nat) : (s.putMeta g m).coreAt j = s.coreAt j := rfl
@[simp] theorem tileAt_putMeta (s : State) (g : Nat) (m : BitVec 12) (j : Nat) : (s.putMeta g m).tileAt j = s.tileAt j := rfl
@[simp] theorem unitAt_putMeta (s : State) (g : Nat) (m : BitVec 12) (j : Nat) : (s.putMeta g m).unitAt j = s.unitAt j := rfl
@[simp] theorem dieAt_putMeta (s : State) (g : Nat) (m : BitVec 12) (j : Nat) : (s.putMeta g m).dieAt j = s.dieAt j := rfl
@[simp] theorem linkAt_putMeta (s : State) (g : Nat) (m : BitVec 12) (j : Nat) : (s.putMeta g m).linkAt j = s.linkAt j := rfl
@[simp] theorem partAt_putMeta (s : State) (g : Nat) (m : BitVec 12) (j : Nat) : (s.putMeta g m).partAt j = s.partAt j := rfl
@[simp] theorem ctxAt_putMeta (s : State) (g : Nat) (m : BitVec 12) (j : Nat) : (s.putMeta g m).ctxAt j = s.ctxAt j := rfl
@[simp] theorem byte_putMeta (s : State) (g : Nat) (m : BitVec 12) (j : Nat) : (s.putMeta g m).byte j = s.byte j := rfl
@[simp] theorem sysReg_putMeta (s : State) (g : Nat) (m : BitVec 12) (blk at_ : Nat) : (s.putMeta g m).sysReg blk at_ = s.sysReg blk at_ := rfl
@[simp] theorem coreAt_setSys (s : State) (block off : Nat) (v : Word) (j : Nat) : (s.setSys block off v).coreAt j = s.coreAt j := rfl
@[simp] theorem tileAt_setSys (s : State) (block off : Nat) (v : Word) (j : Nat) : (s.setSys block off v).tileAt j = s.tileAt j := rfl
@[simp] theorem unitAt_setSys (s : State) (block off : Nat) (v : Word) (j : Nat) : (s.setSys block off v).unitAt j = s.unitAt j := rfl
@[simp] theorem dieAt_setSys (s : State) (block off : Nat) (v : Word) (j : Nat) : (s.setSys block off v).dieAt j = s.dieAt j := rfl
@[simp] theorem linkAt_setSys (s : State) (block off : Nat) (v : Word) (j : Nat) : (s.setSys block off v).linkAt j = s.linkAt j := rfl
@[simp] theorem partAt_setSys (s : State) (block off : Nat) (v : Word) (j : Nat) : (s.setSys block off v).partAt j = s.partAt j := rfl
@[simp] theorem ctxAt_setSys (s : State) (block off : Nat) (v : Word) (j : Nat) : (s.setSys block off v).ctxAt j = s.ctxAt j := rfl
@[simp] theorem byte_setSys (s : State) (block off : Nat) (v : Word) (j : Nat) : (s.setSys block off v).byte j = s.byte j := rfl
@[simp] theorem metaAt_setSys (s : State) (block off : Nat) (v : Word) (j : Nat) : (s.setSys block off v).metaAt j = s.metaAt j := rfl

end State

namespace Core

/-! `setS` -/

@[simp] theorem setS_mode (c : Core) (n : Nat) (x : Word) : (c.setS n x).mode = c.mode := by unfold setS; split <;> rfl
@[simp] theorem setS_v (c : Core) (n : Nat) (x : Word) : (c.setS n x).v = c.v := by unfold setS; split <;> rfl
@[simp] theorem setS_p (c : Core) (n : Nat) (x : Word) : (c.setS n x).p = c.p := by unfold setS; split <;> rfl
@[simp] theorem setS_t (c : Core) (n : Nat) (x : Word) : (c.setS n x).t = c.t := by unfold setS; split <;> rfl
@[simp] theorem setS_a (c : Core) (n : Nat) (x : Word) : (c.setS n x).a = c.a := by unfold setS; split <;> rfl
@[simp] theorem setS_pc (c : Core) (n : Nat) (x : Word) : (c.setS n x).pc = c.pc := by unfold setS; split <;> rfl
@[simp] theorem setS_npc (c : Core) (n : Nat) (x : Word) : (c.setS n x).npc = c.npc := by unfold setS; split <;> rfl
@[simp] theorem setS_world (c : Core) (n : Nat) (x : Word) : (c.setS n x).world = c.world := by unfold setS; split <;> rfl
@[simp] theorem setS_flg (c : Core) (n : Nat) (x : Word) : (c.setS n x).flg = c.flg := by unfold setS; split <;> rfl
@[simp] theorem setS_icnt (c : Core) (n : Nat) (x : Word) : (c.setS n x).icnt = c.icnt := by unfold setS; split <;> rfl
@[simp] theorem setS_bead (c : Core) (n : Nat) (x : Word) : (c.setS n x).bead = c.bead := by unfold setS; split <;> rfl
@[simp] theorem setS_spn (c : Core) (n : Nat) (x : Word) : (c.setS n x).spn = c.spn := by unfold setS; split <;> rfl
@[simp] theorem setS_epc (c : Core) (n : Nat) (x : Word) : (c.setS n x).epc = c.epc := by unfold setS; split <;> rfl
@[simp] theorem setS_ecause (c : Core) (n : Nat) (x : Word) : (c.setS n x).ecause = c.ecause := by unfold setS; split <;> rfl
@[simp] theorem setS_eaddr (c : Core) (n : Nat) (x : Word) : (c.setS n x).eaddr = c.eaddr := by unfold setS; split <;> rfl
@[simp] theorem setS_erec (c : Core) (n : Nat) (x : Word) : (c.setS n x).erec = c.erec := by unfold setS; split <;> rfl
@[simp] theorem setS_pw (c : Core) (n : Nat) (x : Word) : (c.setS n x).pw = c.pw := by unfold setS; split <;> rfl
@[simp] theorem setS_inh (c : Core) (n : Nat) (x : Word) : (c.setS n x).inh = c.inh := by unfold setS; split <;> rfl
@[simp] theorem setS_esav0 (c : Core) (n : Nat) (x : Word) : (c.setS n x).esav0 = c.esav0 := by unfold setS; split <;> rfl
@[simp] theorem setS_esav1 (c : Core) (n : Nat) (x : Word) : (c.setS n x).esav1 = c.esav1 := by unfold setS; split <;> rfl
@[simp] theorem setS_esav2 (c : Core) (n : Nat) (x : Word) : (c.setS n x).esav2 = c.esav2 := by unfold setS; split <;> rfl
@[simp] theorem setS_esav3 (c : Core) (n : Nat) (x : Word) : (c.setS n x).esav3 = c.esav3 := by unfold setS; split <;> rfl
@[simp] theorem setS_scb (c : Core) (n : Nat) (x : Word) : (c.setS n x).scb = c.scb := by unfold setS; split <;> rfl
@[simp] theorem setS_ent (c : Core) (n : Nat) (x : Word) : (c.setS n x).ent = c.ent := by unfold setS; split <;> rfl
@[simp] theorem setS_windows (c : Core) (n : Nat) (x : Word) : (c.setS n x).windows = c.windows := by unfold setS; split <;> rfl
@[simp] theorem setS_nextWin (c : Core) (n : Nat) (x : Word) : (c.setS n x).nextWin = c.nextWin := by unfold setS; split <;> rfl
@[simp] theorem setS_tlb (c : Core) (n : Nat) (x : Word) : (c.setS n x).tlb = c.tlb := by unfold setS; split <;> rfl
@[simp] theorem setS_wdCount (c : Core) (n : Nat) (x : Word) : (c.setS n x).wdCount = c.wdCount := by unfold setS; split <;> rfl
@[simp] theorem setS_wdFrom (c : Core) (n : Nat) (x : Word) : (c.setS n x).wdFrom = c.wdFrom := by unfold setS; split <;> rfl
@[simp] theorem setS_wdSent (c : Core) (n : Nat) (x : Word) : (c.setS n x).wdSent = c.wdSent := by unfold setS; split <;> rfl
@[simp] theorem setS_chkMiss (c : Core) (n : Nat) (x : Word) : (c.setS n x).chkMiss = c.chkMiss := by unfold setS; split <;> rfl
@[simp] theorem setS_chkRun (c : Core) (n : Nat) (x : Word) : (c.setS n x).chkRun = c.chkRun := by unfold setS; split <;> rfl

/-! `setV` -/

@[simp] theorem setV_mode (c : Core) (n : Nat) (x : VecReg) : (c.setV n x).mode = c.mode := rfl
@[simp] theorem setV_s (c : Core) (n : Nat) (x : VecReg) : (c.setV n x).s = c.s := rfl
@[simp] theorem setV_v (c : Core) (n : Nat) (x : VecReg) : (c.setV n x).v = Map.set c.v 0 n x := rfl
@[simp] theorem setV_p (c : Core) (n : Nat) (x : VecReg) : (c.setV n x).p = c.p := rfl
@[simp] theorem setV_t (c : Core) (n : Nat) (x : VecReg) : (c.setV n x).t = c.t := rfl
@[simp] theorem setV_a (c : Core) (n : Nat) (x : VecReg) : (c.setV n x).a = c.a := rfl
@[simp] theorem setV_pc (c : Core) (n : Nat) (x : VecReg) : (c.setV n x).pc = c.pc := rfl
@[simp] theorem setV_npc (c : Core) (n : Nat) (x : VecReg) : (c.setV n x).npc = c.npc := rfl
@[simp] theorem setV_world (c : Core) (n : Nat) (x : VecReg) : (c.setV n x).world = c.world := rfl
@[simp] theorem setV_flg (c : Core) (n : Nat) (x : VecReg) : (c.setV n x).flg = c.flg := rfl
@[simp] theorem setV_icnt (c : Core) (n : Nat) (x : VecReg) : (c.setV n x).icnt = c.icnt := rfl
@[simp] theorem setV_bead (c : Core) (n : Nat) (x : VecReg) : (c.setV n x).bead = c.bead := rfl
@[simp] theorem setV_spn (c : Core) (n : Nat) (x : VecReg) : (c.setV n x).spn = c.spn := rfl
@[simp] theorem setV_epc (c : Core) (n : Nat) (x : VecReg) : (c.setV n x).epc = c.epc := rfl
@[simp] theorem setV_ecause (c : Core) (n : Nat) (x : VecReg) : (c.setV n x).ecause = c.ecause := rfl
@[simp] theorem setV_eaddr (c : Core) (n : Nat) (x : VecReg) : (c.setV n x).eaddr = c.eaddr := rfl
@[simp] theorem setV_erec (c : Core) (n : Nat) (x : VecReg) : (c.setV n x).erec = c.erec := rfl
@[simp] theorem setV_pw (c : Core) (n : Nat) (x : VecReg) : (c.setV n x).pw = c.pw := rfl
@[simp] theorem setV_inh (c : Core) (n : Nat) (x : VecReg) : (c.setV n x).inh = c.inh := rfl
@[simp] theorem setV_esav0 (c : Core) (n : Nat) (x : VecReg) : (c.setV n x).esav0 = c.esav0 := rfl
@[simp] theorem setV_esav1 (c : Core) (n : Nat) (x : VecReg) : (c.setV n x).esav1 = c.esav1 := rfl
@[simp] theorem setV_esav2 (c : Core) (n : Nat) (x : VecReg) : (c.setV n x).esav2 = c.esav2 := rfl
@[simp] theorem setV_esav3 (c : Core) (n : Nat) (x : VecReg) : (c.setV n x).esav3 = c.esav3 := rfl
@[simp] theorem setV_scb (c : Core) (n : Nat) (x : VecReg) : (c.setV n x).scb = c.scb := rfl
@[simp] theorem setV_ent (c : Core) (n : Nat) (x : VecReg) : (c.setV n x).ent = c.ent := rfl
@[simp] theorem setV_windows (c : Core) (n : Nat) (x : VecReg) : (c.setV n x).windows = c.windows := rfl
@[simp] theorem setV_nextWin (c : Core) (n : Nat) (x : VecReg) : (c.setV n x).nextWin = c.nextWin := rfl
@[simp] theorem setV_tlb (c : Core) (n : Nat) (x : VecReg) : (c.setV n x).tlb = c.tlb := rfl
@[simp] theorem setV_wdCount (c : Core) (n : Nat) (x : VecReg) : (c.setV n x).wdCount = c.wdCount := rfl
@[simp] theorem setV_wdFrom (c : Core) (n : Nat) (x : VecReg) : (c.setV n x).wdFrom = c.wdFrom := rfl
@[simp] theorem setV_wdSent (c : Core) (n : Nat) (x : VecReg) : (c.setV n x).wdSent = c.wdSent := rfl
@[simp] theorem setV_chkMiss (c : Core) (n : Nat) (x : VecReg) : (c.setV n x).chkMiss = c.chkMiss := rfl
@[simp] theorem setV_chkRun (c : Core) (n : Nat) (x : VecReg) : (c.setV n x).chkRun = c.chkRun := rfl

/-! `setP` -/

@[simp] theorem setP_mode (c : Core) (n : Nat) (x : PredReg) : (c.setP n x).mode = c.mode := rfl
@[simp] theorem setP_s (c : Core) (n : Nat) (x : PredReg) : (c.setP n x).s = c.s := rfl
@[simp] theorem setP_v (c : Core) (n : Nat) (x : PredReg) : (c.setP n x).v = c.v := rfl
@[simp] theorem setP_p (c : Core) (n : Nat) (x : PredReg) : (c.setP n x).p = Map.set c.p 0 n x := rfl
@[simp] theorem setP_t (c : Core) (n : Nat) (x : PredReg) : (c.setP n x).t = c.t := rfl
@[simp] theorem setP_a (c : Core) (n : Nat) (x : PredReg) : (c.setP n x).a = c.a := rfl
@[simp] theorem setP_pc (c : Core) (n : Nat) (x : PredReg) : (c.setP n x).pc = c.pc := rfl
@[simp] theorem setP_npc (c : Core) (n : Nat) (x : PredReg) : (c.setP n x).npc = c.npc := rfl
@[simp] theorem setP_world (c : Core) (n : Nat) (x : PredReg) : (c.setP n x).world = c.world := rfl
@[simp] theorem setP_flg (c : Core) (n : Nat) (x : PredReg) : (c.setP n x).flg = c.flg := rfl
@[simp] theorem setP_icnt (c : Core) (n : Nat) (x : PredReg) : (c.setP n x).icnt = c.icnt := rfl
@[simp] theorem setP_bead (c : Core) (n : Nat) (x : PredReg) : (c.setP n x).bead = c.bead := rfl
@[simp] theorem setP_spn (c : Core) (n : Nat) (x : PredReg) : (c.setP n x).spn = c.spn := rfl
@[simp] theorem setP_epc (c : Core) (n : Nat) (x : PredReg) : (c.setP n x).epc = c.epc := rfl
@[simp] theorem setP_ecause (c : Core) (n : Nat) (x : PredReg) : (c.setP n x).ecause = c.ecause := rfl
@[simp] theorem setP_eaddr (c : Core) (n : Nat) (x : PredReg) : (c.setP n x).eaddr = c.eaddr := rfl
@[simp] theorem setP_erec (c : Core) (n : Nat) (x : PredReg) : (c.setP n x).erec = c.erec := rfl
@[simp] theorem setP_pw (c : Core) (n : Nat) (x : PredReg) : (c.setP n x).pw = c.pw := rfl
@[simp] theorem setP_inh (c : Core) (n : Nat) (x : PredReg) : (c.setP n x).inh = c.inh := rfl
@[simp] theorem setP_esav0 (c : Core) (n : Nat) (x : PredReg) : (c.setP n x).esav0 = c.esav0 := rfl
@[simp] theorem setP_esav1 (c : Core) (n : Nat) (x : PredReg) : (c.setP n x).esav1 = c.esav1 := rfl
@[simp] theorem setP_esav2 (c : Core) (n : Nat) (x : PredReg) : (c.setP n x).esav2 = c.esav2 := rfl
@[simp] theorem setP_esav3 (c : Core) (n : Nat) (x : PredReg) : (c.setP n x).esav3 = c.esav3 := rfl
@[simp] theorem setP_scb (c : Core) (n : Nat) (x : PredReg) : (c.setP n x).scb = c.scb := rfl
@[simp] theorem setP_ent (c : Core) (n : Nat) (x : PredReg) : (c.setP n x).ent = c.ent := rfl
@[simp] theorem setP_windows (c : Core) (n : Nat) (x : PredReg) : (c.setP n x).windows = c.windows := rfl
@[simp] theorem setP_nextWin (c : Core) (n : Nat) (x : PredReg) : (c.setP n x).nextWin = c.nextWin := rfl
@[simp] theorem setP_tlb (c : Core) (n : Nat) (x : PredReg) : (c.setP n x).tlb = c.tlb := rfl
@[simp] theorem setP_wdCount (c : Core) (n : Nat) (x : PredReg) : (c.setP n x).wdCount = c.wdCount := rfl
@[simp] theorem setP_wdFrom (c : Core) (n : Nat) (x : PredReg) : (c.setP n x).wdFrom = c.wdFrom := rfl
@[simp] theorem setP_wdSent (c : Core) (n : Nat) (x : PredReg) : (c.setP n x).wdSent = c.wdSent := rfl
@[simp] theorem setP_chkMiss (c : Core) (n : Nat) (x : PredReg) : (c.setP n x).chkMiss = c.chkMiss := rfl
@[simp] theorem setP_chkRun (c : Core) (n : Nat) (x : PredReg) : (c.setP n x).chkRun = c.chkRun := rfl

/-! `setT` -/

@[simp] theorem setT_mode (c : Core) (n : Nat) (x : ViewReg) : (c.setT n x).mode = c.mode := rfl
@[simp] theorem setT_s (c : Core) (n : Nat) (x : ViewReg) : (c.setT n x).s = c.s := rfl
@[simp] theorem setT_v (c : Core) (n : Nat) (x : ViewReg) : (c.setT n x).v = c.v := rfl
@[simp] theorem setT_p (c : Core) (n : Nat) (x : ViewReg) : (c.setT n x).p = c.p := rfl
@[simp] theorem setT_t (c : Core) (n : Nat) (x : ViewReg) : (c.setT n x).t = Map.put c.t n x := rfl
@[simp] theorem setT_a (c : Core) (n : Nat) (x : ViewReg) : (c.setT n x).a = c.a := rfl
@[simp] theorem setT_pc (c : Core) (n : Nat) (x : ViewReg) : (c.setT n x).pc = c.pc := rfl
@[simp] theorem setT_npc (c : Core) (n : Nat) (x : ViewReg) : (c.setT n x).npc = c.npc := rfl
@[simp] theorem setT_world (c : Core) (n : Nat) (x : ViewReg) : (c.setT n x).world = c.world := rfl
@[simp] theorem setT_flg (c : Core) (n : Nat) (x : ViewReg) : (c.setT n x).flg = c.flg := rfl
@[simp] theorem setT_icnt (c : Core) (n : Nat) (x : ViewReg) : (c.setT n x).icnt = c.icnt := rfl
@[simp] theorem setT_bead (c : Core) (n : Nat) (x : ViewReg) : (c.setT n x).bead = c.bead := rfl
@[simp] theorem setT_spn (c : Core) (n : Nat) (x : ViewReg) : (c.setT n x).spn = c.spn := rfl
@[simp] theorem setT_epc (c : Core) (n : Nat) (x : ViewReg) : (c.setT n x).epc = c.epc := rfl
@[simp] theorem setT_ecause (c : Core) (n : Nat) (x : ViewReg) : (c.setT n x).ecause = c.ecause := rfl
@[simp] theorem setT_eaddr (c : Core) (n : Nat) (x : ViewReg) : (c.setT n x).eaddr = c.eaddr := rfl
@[simp] theorem setT_erec (c : Core) (n : Nat) (x : ViewReg) : (c.setT n x).erec = c.erec := rfl
@[simp] theorem setT_pw (c : Core) (n : Nat) (x : ViewReg) : (c.setT n x).pw = c.pw := rfl
@[simp] theorem setT_inh (c : Core) (n : Nat) (x : ViewReg) : (c.setT n x).inh = c.inh := rfl
@[simp] theorem setT_esav0 (c : Core) (n : Nat) (x : ViewReg) : (c.setT n x).esav0 = c.esav0 := rfl
@[simp] theorem setT_esav1 (c : Core) (n : Nat) (x : ViewReg) : (c.setT n x).esav1 = c.esav1 := rfl
@[simp] theorem setT_esav2 (c : Core) (n : Nat) (x : ViewReg) : (c.setT n x).esav2 = c.esav2 := rfl
@[simp] theorem setT_esav3 (c : Core) (n : Nat) (x : ViewReg) : (c.setT n x).esav3 = c.esav3 := rfl
@[simp] theorem setT_scb (c : Core) (n : Nat) (x : ViewReg) : (c.setT n x).scb = c.scb := rfl
@[simp] theorem setT_ent (c : Core) (n : Nat) (x : ViewReg) : (c.setT n x).ent = c.ent := rfl
@[simp] theorem setT_windows (c : Core) (n : Nat) (x : ViewReg) : (c.setT n x).windows = c.windows := rfl
@[simp] theorem setT_nextWin (c : Core) (n : Nat) (x : ViewReg) : (c.setT n x).nextWin = c.nextWin := rfl
@[simp] theorem setT_tlb (c : Core) (n : Nat) (x : ViewReg) : (c.setT n x).tlb = c.tlb := rfl
@[simp] theorem setT_wdCount (c : Core) (n : Nat) (x : ViewReg) : (c.setT n x).wdCount = c.wdCount := rfl
@[simp] theorem setT_wdFrom (c : Core) (n : Nat) (x : ViewReg) : (c.setT n x).wdFrom = c.wdFrom := rfl
@[simp] theorem setT_wdSent (c : Core) (n : Nat) (x : ViewReg) : (c.setT n x).wdSent = c.wdSent := rfl
@[simp] theorem setT_chkMiss (c : Core) (n : Nat) (x : ViewReg) : (c.setT n x).chkMiss = c.chkMiss := rfl
@[simp] theorem setT_chkRun (c : Core) (n : Nat) (x : ViewReg) : (c.setT n x).chkRun = c.chkRun := rfl

/-! `setA` -/

@[simp] theorem setA_mode (c : Core) (n : Nat) (x : Nat × Nat) : (c.setA n x).mode = c.mode := rfl
@[simp] theorem setA_s (c : Core) (n : Nat) (x : Nat × Nat) : (c.setA n x).s = c.s := rfl
@[simp] theorem setA_v (c : Core) (n : Nat) (x : Nat × Nat) : (c.setA n x).v = c.v := rfl
@[simp] theorem setA_p (c : Core) (n : Nat) (x : Nat × Nat) : (c.setA n x).p = c.p := rfl
@[simp] theorem setA_t (c : Core) (n : Nat) (x : Nat × Nat) : (c.setA n x).t = c.t := rfl
@[simp] theorem setA_a (c : Core) (n : Nat) (x : Nat × Nat) : (c.setA n x).a = Map.put c.a n x := rfl
@[simp] theorem setA_pc (c : Core) (n : Nat) (x : Nat × Nat) : (c.setA n x).pc = c.pc := rfl
@[simp] theorem setA_npc (c : Core) (n : Nat) (x : Nat × Nat) : (c.setA n x).npc = c.npc := rfl
@[simp] theorem setA_world (c : Core) (n : Nat) (x : Nat × Nat) : (c.setA n x).world = c.world := rfl
@[simp] theorem setA_flg (c : Core) (n : Nat) (x : Nat × Nat) : (c.setA n x).flg = c.flg := rfl
@[simp] theorem setA_icnt (c : Core) (n : Nat) (x : Nat × Nat) : (c.setA n x).icnt = c.icnt := rfl
@[simp] theorem setA_bead (c : Core) (n : Nat) (x : Nat × Nat) : (c.setA n x).bead = c.bead := rfl
@[simp] theorem setA_spn (c : Core) (n : Nat) (x : Nat × Nat) : (c.setA n x).spn = c.spn := rfl
@[simp] theorem setA_epc (c : Core) (n : Nat) (x : Nat × Nat) : (c.setA n x).epc = c.epc := rfl
@[simp] theorem setA_ecause (c : Core) (n : Nat) (x : Nat × Nat) : (c.setA n x).ecause = c.ecause := rfl
@[simp] theorem setA_eaddr (c : Core) (n : Nat) (x : Nat × Nat) : (c.setA n x).eaddr = c.eaddr := rfl
@[simp] theorem setA_erec (c : Core) (n : Nat) (x : Nat × Nat) : (c.setA n x).erec = c.erec := rfl
@[simp] theorem setA_pw (c : Core) (n : Nat) (x : Nat × Nat) : (c.setA n x).pw = c.pw := rfl
@[simp] theorem setA_inh (c : Core) (n : Nat) (x : Nat × Nat) : (c.setA n x).inh = c.inh := rfl
@[simp] theorem setA_esav0 (c : Core) (n : Nat) (x : Nat × Nat) : (c.setA n x).esav0 = c.esav0 := rfl
@[simp] theorem setA_esav1 (c : Core) (n : Nat) (x : Nat × Nat) : (c.setA n x).esav1 = c.esav1 := rfl
@[simp] theorem setA_esav2 (c : Core) (n : Nat) (x : Nat × Nat) : (c.setA n x).esav2 = c.esav2 := rfl
@[simp] theorem setA_esav3 (c : Core) (n : Nat) (x : Nat × Nat) : (c.setA n x).esav3 = c.esav3 := rfl
@[simp] theorem setA_scb (c : Core) (n : Nat) (x : Nat × Nat) : (c.setA n x).scb = c.scb := rfl
@[simp] theorem setA_ent (c : Core) (n : Nat) (x : Nat × Nat) : (c.setA n x).ent = c.ent := rfl
@[simp] theorem setA_windows (c : Core) (n : Nat) (x : Nat × Nat) : (c.setA n x).windows = c.windows := rfl
@[simp] theorem setA_nextWin (c : Core) (n : Nat) (x : Nat × Nat) : (c.setA n x).nextWin = c.nextWin := rfl
@[simp] theorem setA_tlb (c : Core) (n : Nat) (x : Nat × Nat) : (c.setA n x).tlb = c.tlb := rfl
@[simp] theorem setA_wdCount (c : Core) (n : Nat) (x : Nat × Nat) : (c.setA n x).wdCount = c.wdCount := rfl
@[simp] theorem setA_wdFrom (c : Core) (n : Nat) (x : Nat × Nat) : (c.setA n x).wdFrom = c.wdFrom := rfl
@[simp] theorem setA_wdSent (c : Core) (n : Nat) (x : Nat × Nat) : (c.setA n x).wdSent = c.wdSent := rfl
@[simp] theorem setA_chkMiss (c : Core) (n : Nat) (x : Nat × Nat) : (c.setA n x).chkMiss = c.chkMiss := rfl
@[simp] theorem setA_chkRun (c : Core) (n : Nat) (x : Nat × Nat) : (c.setA n x).chkRun = c.chkRun := rfl

/-! `dropA` -/

@[simp] theorem dropA_mode (c : Core) (n : Nat) : (c.dropA n).mode = c.mode := rfl
@[simp] theorem dropA_s (c : Core) (n : Nat) : (c.dropA n).s = c.s := rfl
@[simp] theorem dropA_v (c : Core) (n : Nat) : (c.dropA n).v = c.v := rfl
@[simp] theorem dropA_p (c : Core) (n : Nat) : (c.dropA n).p = c.p := rfl
@[simp] theorem dropA_t (c : Core) (n : Nat) : (c.dropA n).t = c.t := rfl
@[simp] theorem dropA_a (c : Core) (n : Nat) : (c.dropA n).a = Map.del c.a n := rfl
@[simp] theorem dropA_pc (c : Core) (n : Nat) : (c.dropA n).pc = c.pc := rfl
@[simp] theorem dropA_npc (c : Core) (n : Nat) : (c.dropA n).npc = c.npc := rfl
@[simp] theorem dropA_world (c : Core) (n : Nat) : (c.dropA n).world = c.world := rfl
@[simp] theorem dropA_flg (c : Core) (n : Nat) : (c.dropA n).flg = c.flg := rfl
@[simp] theorem dropA_icnt (c : Core) (n : Nat) : (c.dropA n).icnt = c.icnt := rfl
@[simp] theorem dropA_bead (c : Core) (n : Nat) : (c.dropA n).bead = c.bead := rfl
@[simp] theorem dropA_spn (c : Core) (n : Nat) : (c.dropA n).spn = c.spn := rfl
@[simp] theorem dropA_epc (c : Core) (n : Nat) : (c.dropA n).epc = c.epc := rfl
@[simp] theorem dropA_ecause (c : Core) (n : Nat) : (c.dropA n).ecause = c.ecause := rfl
@[simp] theorem dropA_eaddr (c : Core) (n : Nat) : (c.dropA n).eaddr = c.eaddr := rfl
@[simp] theorem dropA_erec (c : Core) (n : Nat) : (c.dropA n).erec = c.erec := rfl
@[simp] theorem dropA_pw (c : Core) (n : Nat) : (c.dropA n).pw = c.pw := rfl
@[simp] theorem dropA_inh (c : Core) (n : Nat) : (c.dropA n).inh = c.inh := rfl
@[simp] theorem dropA_esav0 (c : Core) (n : Nat) : (c.dropA n).esav0 = c.esav0 := rfl
@[simp] theorem dropA_esav1 (c : Core) (n : Nat) : (c.dropA n).esav1 = c.esav1 := rfl
@[simp] theorem dropA_esav2 (c : Core) (n : Nat) : (c.dropA n).esav2 = c.esav2 := rfl
@[simp] theorem dropA_esav3 (c : Core) (n : Nat) : (c.dropA n).esav3 = c.esav3 := rfl
@[simp] theorem dropA_scb (c : Core) (n : Nat) : (c.dropA n).scb = c.scb := rfl
@[simp] theorem dropA_ent (c : Core) (n : Nat) : (c.dropA n).ent = c.ent := rfl
@[simp] theorem dropA_windows (c : Core) (n : Nat) : (c.dropA n).windows = c.windows := rfl
@[simp] theorem dropA_nextWin (c : Core) (n : Nat) : (c.dropA n).nextWin = c.nextWin := rfl
@[simp] theorem dropA_tlb (c : Core) (n : Nat) : (c.dropA n).tlb = c.tlb := rfl
@[simp] theorem dropA_wdCount (c : Core) (n : Nat) : (c.dropA n).wdCount = c.wdCount := rfl
@[simp] theorem dropA_wdFrom (c : Core) (n : Nat) : (c.dropA n).wdFrom = c.wdFrom := rfl
@[simp] theorem dropA_wdSent (c : Core) (n : Nat) : (c.dropA n).wdSent = c.wdSent := rfl
@[simp] theorem dropA_chkMiss (c : Core) (n : Nat) : (c.dropA n).chkMiss = c.chkMiss := rfl
@[simp] theorem dropA_chkRun (c : Core) (n : Nat) : (c.dropA n).chkRun = c.chkRun := rfl

/-! `raise` -/

@[simp] theorem raise_mode (c : Core) (f : Flags) : (c.raise f).mode = c.mode := rfl
@[simp] theorem raise_s (c : Core) (f : Flags) : (c.raise f).s = c.s := rfl
@[simp] theorem raise_v (c : Core) (f : Flags) : (c.raise f).v = c.v := rfl
@[simp] theorem raise_p (c : Core) (f : Flags) : (c.raise f).p = c.p := rfl
@[simp] theorem raise_t (c : Core) (f : Flags) : (c.raise f).t = c.t := rfl
@[simp] theorem raise_a (c : Core) (f : Flags) : (c.raise f).a = c.a := rfl
@[simp] theorem raise_pc (c : Core) (f : Flags) : (c.raise f).pc = c.pc := rfl
@[simp] theorem raise_npc (c : Core) (f : Flags) : (c.raise f).npc = c.npc := rfl
@[simp] theorem raise_world (c : Core) (f : Flags) : (c.raise f).world = c.world := rfl
@[simp] theorem raise_flg (c : Core) (f : Flags) : (c.raise f).flg = c.flg ||| f := rfl
@[simp] theorem raise_icnt (c : Core) (f : Flags) : (c.raise f).icnt = c.icnt := rfl
@[simp] theorem raise_bead (c : Core) (f : Flags) : (c.raise f).bead = c.bead := rfl
@[simp] theorem raise_spn (c : Core) (f : Flags) : (c.raise f).spn = c.spn := rfl
@[simp] theorem raise_epc (c : Core) (f : Flags) : (c.raise f).epc = c.epc := rfl
@[simp] theorem raise_ecause (c : Core) (f : Flags) : (c.raise f).ecause = c.ecause := rfl
@[simp] theorem raise_eaddr (c : Core) (f : Flags) : (c.raise f).eaddr = c.eaddr := rfl
@[simp] theorem raise_erec (c : Core) (f : Flags) : (c.raise f).erec = c.erec := rfl
@[simp] theorem raise_pw (c : Core) (f : Flags) : (c.raise f).pw = c.pw := rfl
@[simp] theorem raise_inh (c : Core) (f : Flags) : (c.raise f).inh = c.inh := rfl
@[simp] theorem raise_esav0 (c : Core) (f : Flags) : (c.raise f).esav0 = c.esav0 := rfl
@[simp] theorem raise_esav1 (c : Core) (f : Flags) : (c.raise f).esav1 = c.esav1 := rfl
@[simp] theorem raise_esav2 (c : Core) (f : Flags) : (c.raise f).esav2 = c.esav2 := rfl
@[simp] theorem raise_esav3 (c : Core) (f : Flags) : (c.raise f).esav3 = c.esav3 := rfl
@[simp] theorem raise_scb (c : Core) (f : Flags) : (c.raise f).scb = c.scb := rfl
@[simp] theorem raise_ent (c : Core) (f : Flags) : (c.raise f).ent = c.ent := rfl
@[simp] theorem raise_windows (c : Core) (f : Flags) : (c.raise f).windows = c.windows := rfl
@[simp] theorem raise_nextWin (c : Core) (f : Flags) : (c.raise f).nextWin = c.nextWin := rfl
@[simp] theorem raise_tlb (c : Core) (f : Flags) : (c.raise f).tlb = c.tlb := rfl
@[simp] theorem raise_wdCount (c : Core) (f : Flags) : (c.raise f).wdCount = c.wdCount := rfl
@[simp] theorem raise_wdFrom (c : Core) (f : Flags) : (c.raise f).wdFrom = c.wdFrom := rfl
@[simp] theorem raise_wdSent (c : Core) (f : Flags) : (c.raise f).wdSent = c.wdSent := rfl
@[simp] theorem raise_chkMiss (c : Core) (f : Flags) : (c.raise f).chkMiss = c.chkMiss := rfl
@[simp] theorem raise_chkRun (c : Core) (f : Flags) : (c.raise f).chkRun = c.chkRun := rfl

/-! `commit` and `jump` -/

@[simp] theorem commit_mode (c : Core) : c.commit.mode = c.mode := rfl
@[simp] theorem commit_s (c : Core) : c.commit.s = c.s := rfl
@[simp] theorem commit_v (c : Core) : c.commit.v = c.v := rfl
@[simp] theorem commit_p (c : Core) : c.commit.p = c.p := rfl
@[simp] theorem commit_t (c : Core) : c.commit.t = c.t := rfl
@[simp] theorem commit_a (c : Core) : c.commit.a = c.a := rfl
@[simp] theorem commit_pc (c : Core) : c.commit.pc = c.npc := rfl
@[simp] theorem commit_npc (c : Core) : c.commit.npc = c.npc := rfl
@[simp] theorem commit_world (c : Core) : c.commit.world = c.world := rfl
@[simp] theorem commit_flg (c : Core) : c.commit.flg = c.flg := rfl
@[simp] theorem commit_icnt (c : Core) : c.commit.icnt = c.icnt + 1 := rfl
@[simp] theorem commit_bead (c : Core) : c.commit.bead = c.bead := rfl
@[simp] theorem commit_spn (c : Core) : c.commit.spn = c.spn := rfl
@[simp] theorem commit_epc (c : Core) : c.commit.epc = c.epc := rfl
@[simp] theorem commit_ecause (c : Core) : c.commit.ecause = c.ecause := rfl
@[simp] theorem commit_eaddr (c : Core) : c.commit.eaddr = c.eaddr := rfl
@[simp] theorem commit_erec (c : Core) : c.commit.erec = c.erec := rfl
@[simp] theorem commit_pw (c : Core) : c.commit.pw = c.pw := rfl
@[simp] theorem commit_inh (c : Core) : c.commit.inh = c.inh := rfl
@[simp] theorem commit_esav0 (c : Core) : c.commit.esav0 = c.esav0 := rfl
@[simp] theorem commit_esav1 (c : Core) : c.commit.esav1 = c.esav1 := rfl
@[simp] theorem commit_esav2 (c : Core) : c.commit.esav2 = c.esav2 := rfl
@[simp] theorem commit_esav3 (c : Core) : c.commit.esav3 = c.esav3 := rfl
@[simp] theorem commit_scb (c : Core) : c.commit.scb = c.scb := rfl
@[simp] theorem commit_ent (c : Core) : c.commit.ent = c.ent := rfl
@[simp] theorem commit_windows (c : Core) : c.commit.windows = c.nextWin := rfl
@[simp] theorem commit_nextWin (c : Core) : c.commit.nextWin = c.nextWin := rfl
@[simp] theorem commit_tlb (c : Core) : c.commit.tlb = c.tlb := rfl
@[simp] theorem commit_wdCount (c : Core) : c.commit.wdCount = c.wdCount := rfl
@[simp] theorem commit_wdFrom (c : Core) : c.commit.wdFrom = c.wdFrom := rfl
@[simp] theorem commit_wdSent (c : Core) : c.commit.wdSent = c.wdSent := rfl
@[simp] theorem commit_chkMiss (c : Core) : c.commit.chkMiss = c.chkMiss := rfl
@[simp] theorem commit_chkRun (c : Core) : c.commit.chkRun = 0 := rfl
@[simp] theorem jump_mode (c : Core) (t : Word) : (c.jump t).mode = c.mode := rfl
@[simp] theorem jump_s (c : Core) (t : Word) : (c.jump t).s = c.s := rfl
@[simp] theorem jump_v (c : Core) (t : Word) : (c.jump t).v = c.v := rfl
@[simp] theorem jump_p (c : Core) (t : Word) : (c.jump t).p = c.p := rfl
@[simp] theorem jump_t (c : Core) (t : Word) : (c.jump t).t = c.t := rfl
@[simp] theorem jump_a (c : Core) (t : Word) : (c.jump t).a = c.a := rfl
@[simp] theorem jump_pc (c : Core) (t : Word) : (c.jump t).pc = t := rfl
@[simp] theorem jump_npc (c : Core) (t : Word) : (c.jump t).npc = c.npc := rfl
@[simp] theorem jump_world (c : Core) (t : Word) : (c.jump t).world = c.world := rfl
@[simp] theorem jump_flg (c : Core) (t : Word) : (c.jump t).flg = c.flg := rfl
@[simp] theorem jump_icnt (c : Core) (t : Word) : (c.jump t).icnt = c.icnt + 1 := rfl
@[simp] theorem jump_bead (c : Core) (t : Word) : (c.jump t).bead = c.bead := rfl
@[simp] theorem jump_spn (c : Core) (t : Word) : (c.jump t).spn = c.spn := rfl
@[simp] theorem jump_epc (c : Core) (t : Word) : (c.jump t).epc = c.epc := rfl
@[simp] theorem jump_ecause (c : Core) (t : Word) : (c.jump t).ecause = c.ecause := rfl
@[simp] theorem jump_eaddr (c : Core) (t : Word) : (c.jump t).eaddr = c.eaddr := rfl
@[simp] theorem jump_erec (c : Core) (t : Word) : (c.jump t).erec = c.erec := rfl
@[simp] theorem jump_pw (c : Core) (t : Word) : (c.jump t).pw = c.pw := rfl
@[simp] theorem jump_inh (c : Core) (t : Word) : (c.jump t).inh = c.inh := rfl
@[simp] theorem jump_esav0 (c : Core) (t : Word) : (c.jump t).esav0 = c.esav0 := rfl
@[simp] theorem jump_esav1 (c : Core) (t : Word) : (c.jump t).esav1 = c.esav1 := rfl
@[simp] theorem jump_esav2 (c : Core) (t : Word) : (c.jump t).esav2 = c.esav2 := rfl
@[simp] theorem jump_esav3 (c : Core) (t : Word) : (c.jump t).esav3 = c.esav3 := rfl
@[simp] theorem jump_scb (c : Core) (t : Word) : (c.jump t).scb = c.scb := rfl
@[simp] theorem jump_ent (c : Core) (t : Word) : (c.jump t).ent = c.ent := rfl
@[simp] theorem jump_windows (c : Core) (t : Word) : (c.jump t).windows = c.nextWin := rfl
@[simp] theorem jump_nextWin (c : Core) (t : Word) : (c.jump t).nextWin = c.nextWin := rfl
@[simp] theorem jump_tlb (c : Core) (t : Word) : (c.jump t).tlb = c.tlb := rfl
@[simp] theorem jump_wdCount (c : Core) (t : Word) : (c.jump t).wdCount = c.wdCount := rfl
@[simp] theorem jump_wdFrom (c : Core) (t : Word) : (c.jump t).wdFrom = c.wdFrom := rfl
@[simp] theorem jump_wdSent (c : Core) (t : Word) : (c.jump t).wdSent = c.wdSent := rfl
@[simp] theorem jump_chkMiss (c : Core) (t : Word) : (c.jump t).chkMiss = c.chkMiss := rfl
@[simp] theorem jump_chkRun (c : Core) (t : Word) : (c.jump t).chkRun = 0 := rfl

/-! Registers after a write. -/

@[simp] theorem sReg_zero (c : Core) : c.sReg 0 = 0 := rfl

theorem sReg_setS (c : Core) (n r : Nat) (x : Word) :
    (c.setS n x).sReg r = if r = 0 then 0 else if r = n then x else c.sReg r := by
  by_cases h0 : r = 0
  · simp [sReg, h0]
  · by_cases hn : n = 0
    · subst hn; simp [setS, h0]
    · simp only [sReg, setS, h0, hn, if_false, Map.get_set]

theorem vReg_setV (c : Core) (n r : Nat) (x : VecReg) : (c.setV n x).vReg r = if r = n then x else c.vReg r := by
  simp only [vReg, setV_v, Map.get_set]

theorem pReg_setP (c : Core) (n r : Nat) (x : PredReg) : (c.setP n x).pReg r = if r = n then x else c.pReg r := by
  simp only [pReg, setP_p, Map.get_set]

theorem tReg_setT (c : Core) (n r : Nat) (x : ViewReg) : (c.setT n x).tReg r = if r = n then some x else c.tReg r := by
  simp only [tReg, setT_t, Map.find?_put]

theorem aReg_setA (c : Core) (n r : Nat) (x : Nat × Nat) : (c.setA n x).aReg r = if r = n then some x else c.aReg r := by
  simp only [aReg, setA_a, Map.find?_put]

theorem aReg_dropA (c : Core) (n r : Nat) : (c.dropA n).aReg r = if r = n then none else c.aReg r := by
  simp only [aReg, dropA_a, Map.find?_del]

@[simp] theorem vReg_setS (c : Core) (n : Nat) (x : Word) (r : Nat) : (c.setS n x).vReg r = c.vReg r := by simp [vReg]
@[simp] theorem pReg_setS (c : Core) (n : Nat) (x : Word) (r : Nat) : (c.setS n x).pReg r = c.pReg r := by simp [pReg]
@[simp] theorem tReg_setS (c : Core) (n : Nat) (x : Word) (r : Nat) : (c.setS n x).tReg r = c.tReg r := by simp [tReg]
@[simp] theorem aReg_setS (c : Core) (n : Nat) (x : Word) (r : Nat) : (c.setS n x).aReg r = c.aReg r := by simp [aReg]
@[simp] theorem sReg_setV (c : Core) (n : Nat) (x : VecReg) (r : Nat) : (c.setV n x).sReg r = c.sReg r := rfl
@[simp] theorem pReg_setV (c : Core) (n : Nat) (x : VecReg) (r : Nat) : (c.setV n x).pReg r = c.pReg r := rfl
@[simp] theorem tReg_setV (c : Core) (n : Nat) (x : VecReg) (r : Nat) : (c.setV n x).tReg r = c.tReg r := rfl
@[simp] theorem aReg_setV (c : Core) (n : Nat) (x : VecReg) (r : Nat) : (c.setV n x).aReg r = c.aReg r := rfl
@[simp] theorem sReg_setP (c : Core) (n : Nat) (x : PredReg) (r : Nat) : (c.setP n x).sReg r = c.sReg r := rfl
@[simp] theorem vReg_setP (c : Core) (n : Nat) (x : PredReg) (r : Nat) : (c.setP n x).vReg r = c.vReg r := rfl
@[simp] theorem tReg_setP (c : Core) (n : Nat) (x : PredReg) (r : Nat) : (c.setP n x).tReg r = c.tReg r := rfl
@[simp] theorem aReg_setP (c : Core) (n : Nat) (x : PredReg) (r : Nat) : (c.setP n x).aReg r = c.aReg r := rfl
@[simp] theorem sReg_setT (c : Core) (n : Nat) (x : ViewReg) (r : Nat) : (c.setT n x).sReg r = c.sReg r := rfl
@[simp] theorem vReg_setT (c : Core) (n : Nat) (x : ViewReg) (r : Nat) : (c.setT n x).vReg r = c.vReg r := rfl
@[simp] theorem pReg_setT (c : Core) (n : Nat) (x : ViewReg) (r : Nat) : (c.setT n x).pReg r = c.pReg r := rfl
@[simp] theorem aReg_setT (c : Core) (n : Nat) (x : ViewReg) (r : Nat) : (c.setT n x).aReg r = c.aReg r := rfl
@[simp] theorem sReg_setA (c : Core) (n : Nat) (x : Nat × Nat) (r : Nat) : (c.setA n x).sReg r = c.sReg r := rfl
@[simp] theorem vReg_setA (c : Core) (n : Nat) (x : Nat × Nat) (r : Nat) : (c.setA n x).vReg r = c.vReg r := rfl
@[simp] theorem pReg_setA (c : Core) (n : Nat) (x : Nat × Nat) (r : Nat) : (c.setA n x).pReg r = c.pReg r := rfl
@[simp] theorem tReg_setA (c : Core) (n : Nat) (x : Nat × Nat) (r : Nat) : (c.setA n x).tReg r = c.tReg r := rfl
@[simp] theorem sReg_dropA (c : Core) (n : Nat) (r : Nat) : (c.dropA n).sReg r = c.sReg r := rfl
@[simp] theorem vReg_dropA (c : Core) (n : Nat) (r : Nat) : (c.dropA n).vReg r = c.vReg r := rfl
@[simp] theorem pReg_dropA (c : Core) (n : Nat) (r : Nat) : (c.dropA n).pReg r = c.pReg r := rfl
@[simp] theorem tReg_dropA (c : Core) (n : Nat) (r : Nat) : (c.dropA n).tReg r = c.tReg r := rfl
@[simp] theorem sReg_raise (c : Core) (f : Flags) (r : Nat) : (c.raise f).sReg r = c.sReg r := rfl
@[simp] theorem vReg_raise (c : Core) (f : Flags) (r : Nat) : (c.raise f).vReg r = c.vReg r := rfl
@[simp] theorem pReg_raise (c : Core) (f : Flags) (r : Nat) : (c.raise f).pReg r = c.pReg r := rfl
@[simp] theorem tReg_raise (c : Core) (f : Flags) (r : Nat) : (c.raise f).tReg r = c.tReg r := rfl
@[simp] theorem aReg_raise (c : Core) (f : Flags) (r : Nat) : (c.raise f).aReg r = c.aReg r := rfl
@[simp] theorem sReg_commit (c : Core) (r : Nat) : (c.commit).sReg r = c.sReg r := rfl
@[simp] theorem vReg_commit (c : Core) (r : Nat) : (c.commit).vReg r = c.vReg r := rfl
@[simp] theorem pReg_commit (c : Core) (r : Nat) : (c.commit).pReg r = c.pReg r := rfl
@[simp] theorem tReg_commit (c : Core) (r : Nat) : (c.commit).tReg r = c.tReg r := rfl
@[simp] theorem aReg_commit (c : Core) (r : Nat) : (c.commit).aReg r = c.aReg r := rfl
@[simp] theorem sReg_jump (c : Core) (t : Word) (r : Nat) : (c.jump t).sReg r = c.sReg r := rfl
@[simp] theorem vReg_jump (c : Core) (t : Word) (r : Nat) : (c.jump t).vReg r = c.vReg r := rfl
@[simp] theorem pReg_jump (c : Core) (t : Word) (r : Nat) : (c.jump t).pReg r = c.pReg r := rfl
@[simp] theorem tReg_jump (c : Core) (t : Word) (r : Nat) : (c.jump t).tReg r = c.tReg r := rfl
@[simp] theorem aReg_jump (c : Core) (t : Word) (r : Nat) : (c.jump t).aReg r = c.aReg r := rfl

end Core

end Sys2Proof.Machine
end

