-- ==== Sys2Proof/Laws/Mem.lean ====
section
/-! SUPPORT. Laws of memory: what a byte reads as after bytes have been written, what a write leaves alone, and that every
operation keeps the canonical form. -/

namespace Sys2Proof.Machine

open Sys2Proof

namespace State

/-! ### Metadata -/

theorem mkMeta_toNat (d w f : Bool) (tag : Byte) :
    (mkMeta d w f tag).toNat = d.toNat * 1024 + w.toNat * 512 + f.toNat * 256 + tag.toNat := by
  have := tag.isLt
  cases d <;> cases w <;> cases f <;> simp [mkMeta] <;> omega

@[simp] theorem metaTag_mkMeta (d w f : Bool) (tag : Byte) : metaTag (mkMeta d w f tag) = tag := by
  have := tag.isLt
  apply BitVec.eq_of_toNat_eq
  simp only [metaTag, mkMeta_toNat, BitVec.toNat_ofNat]
  omega

@[simp] theorem metaF_mkMeta (d w f : Bool) (tag : Byte) : metaF (mkMeta d w f tag) = f := by
  have := tag.isLt
  simp only [metaF, mkMeta_toNat, Nat.testBit_eq_decide_div_mod_eq]
  cases d <;> cases w <;> cases f <;> simp <;> omega

@[simp] theorem metaW_mkMeta (d w f : Bool) (tag : Byte) : metaW (mkMeta d w f tag) = w := by
  have := tag.isLt
  simp only [metaW, mkMeta_toNat, Nat.testBit_eq_decide_div_mod_eq]
  cases d <;> cases w <;> cases f <;> simp <;> omega

@[simp] theorem metaD_mkMeta (d w f : Bool) (tag : Byte) : metaD (mkMeta d w f tag) = d := by
  have := tag.isLt
  simp only [metaD, mkMeta_toNat, Nat.testBit_eq_decide_div_mod_eq]
  cases d <;> cases w <;> cases f <;> simp <;> omega

/-- A granule's metadata as it reads are the stored ones but for D. -/
theorem metaSeen_fields (s : State) (g : Nat) :
    metaTag (s.metaSeen g) = metaTag (s.metaAt g) ∧ metaF (s.metaSeen g) = metaF (s.metaAt g) ∧
      metaW (s.metaSeen g) = metaW (s.metaAt g) ∧ (metaD (s.metaAt g) = true → metaD (s.metaSeen g) = true) := by
  simp only [metaSeen]
  split <;> simp

/-! ### Bytes -/

theorem bytes_length (s : State) (loc n : Nat) : (s.bytes loc n).length = n := by
  induction n generalizing loc with
  | zero => rfl
  | succ n ih => simp [bytes, ih]

theorem bytes_getD (s : State) (loc n i : Nat) (h : i < n) : (s.bytes loc n).getD i 0 = s.byte (loc + i) := by
  induction n generalizing loc i with
  | zero => omega
  | succ n ih =>
    cases i with
    | zero => simp [bytes]
    | succ i =>
      have := ih (loc + 1) i (by omega)
      simpa [bytes, Nat.add_assoc, Nat.add_comm 1 i] using this

/-- Bytes depend on the memory alone. -/
theorem bytes_congr {s t : State} (loc n : Nat) (h : ∀ a, loc ≤ a → a < loc + n → t.byte a = s.byte a) :
    t.bytes loc n = s.bytes loc n := by
  induction n generalizing loc with
  | zero => rfl
  | succ n ih =>
    simp only [bytes]
    rw [h loc (Nat.le_refl _) (by omega), ih (loc + 1) fun a h1 h2 => h a (by omega) (by omega)]

/-- Writing bytes changes the memory alone. -/
theorem putBytes_rest (s : State) (loc : Nat) (bs : List Byte) :
    s.putBytes loc bs = { s with mem := (s.putBytes loc bs).mem } := by
  induction bs generalizing s loc with
  | nil => rfl
  | cons b bs ih => simp only [putBytes]; rw [ih]; rfl

/-- What a byte reads as after bytes have been written. -/
theorem byte_putBytes (s : State) (loc a : Nat) (bs : List Byte) :
    (s.putBytes loc bs).byte a = if loc ≤ a ∧ a < loc + bs.length then bs.getD (a - loc) 0 else s.byte a := by
  induction bs generalizing s loc with
  | nil => simp [putBytes]
  | cons b bs ih =>
    rw [putBytes, ih, byte_putByte]
    simp only [List.length_cons]
    by_cases h1 : a = loc
    · subst h1
      rw [if_neg (by omega), if_pos rfl, if_pos (by omega)]
      simp
    · by_cases h2 : loc + 1 ≤ a ∧ a < loc + 1 + bs.length
      · rw [if_pos h2, if_pos (by omega)]
        have : a - loc = (a - (loc + 1)) + 1 := by omega
        rw [this, List.getD_cons_succ]
      · rw [if_neg h2, if_neg h1, if_neg (by omega)]

/-- Reading what has just been written gives what was written. -/
theorem bytes_putBytes (s : State) (loc : Nat) (bs : List Byte) : (s.putBytes loc bs).bytes loc bs.length = bs := by
  apply List.ext_getElem
  · rw [bytes_length]
  · intro i h1 h2
    have h3 := bytes_getD (s.putBytes loc bs) loc bs.length i (by simpa [bytes_length] using h1)
    rw [byte_putBytes, if_pos (by omega), Nat.add_sub_cancel_left] at h3
    simpa [List.getD_eq_getElem?_getD, List.getElem?_eq_getElem h1, List.getElem?_eq_getElem h2] using h3

/-! ### What the parts of a write leave alone -/

theorem modUnit_rest (s : State) (u : Nat) (f : BeadUnit → BeadUnit) :
    s.modUnit u f = { s with units := (s.modUnit u f).units } := rfl

theorem putReserved_rest (s : State) (r : Reserved) (img : List Byte) :
    s.putReserved r img = { s with units := (s.putReserved r img).units } := by
  unfold putReserved
  split
  · split <;> rfl
  · rfl
  · rfl

theorem pokeUnits_rest (s : State) (fuel loc : Nat) (bs : List Byte) :
    s.pokeUnits fuel loc bs = { s with units := (s.pokeUnits fuel loc bs).units } := by
  induction fuel generalizing s loc bs with
  | zero => rfl
  | succ fuel ih =>
    unfold pokeUnits
    split
    · rfl
    · simp only
      rw [ih]
      split
      · rfl
      · split
        · rfl
        · rw [putReserved_rest]

theorem pokeRecord_rest (s : State) (loc : Nat) (bs : List Byte) :
    s.pokeRecord loc bs = { s with units := (s.pokeRecord loc bs).units } := by
  unfold pokeRecord
  split
  · exact pokeUnits_rest s _ loc bs
  · rfl

theorem noteWords_rest (s : State) (loc n : Nat) :
    s.noteWords loc n = { s with written := (s.noteWords loc n).written } := by
  unfold noteWords
  simp only
  split <;> rfl

/-- The bytes of a write change memory, the records that stand there and the steps in which words are written. -/
theorem landBytes_rest (s : State) (loc : Nat) (bs : List Byte) :
    s.landBytes loc bs = { s with
      mem := (s.landBytes loc bs).mem, units := (s.landBytes loc bs).units, written := (s.landBytes loc bs).written } := by
  unfold landBytes
  simp only
  split
  · rw [putBytes_rest (State.noteWords _ _ _), noteWords_rest, pokeRecord_rest, putBytes_rest s]
  · rw [noteWords_rest, pokeRecord_rest, putBytes_rest s]

@[simp] theorem pokeRecord_mem (s : State) (loc : Nat) (bs : List Byte) : (s.pokeRecord loc bs).mem = s.mem := by
  rw [pokeRecord_rest]

@[simp] theorem noteWords_mem (s : State) (loc n : Nat) : (s.noteWords loc n).mem = s.mem := by
  rw [noteWords_rest]

theorem countUnit_rest (s : State) (loc : Nat) : s.countUnit loc = { s with acnt := (s.countUnit loc).acnt } := by
  unfold countUnit; split <;> rfl

theorem countUnits_rest (us : List Nat) (s : State) :
    us.foldl State.countUnit s = { s with acnt := (us.foldl State.countUnit s).acnt } := by
  induction us generalizing s with
  | nil => rfl
  | cons u us ih => simp only [List.foldl_cons]; rw [ih, countUnit_rest]

theorem countRun_rest (s : State) (loc n : Nat) : s.countRun loc n = { s with acnt := (s.countRun loc n).acnt } :=
  countUnits_rest _ s

theorem noteWrite_rest (s : State) (g : Nat) (f : Bool) :
    s.noteWrite g f = { s with
      gmeta := (s.noteWrite g f).gmeta, ckpt := (s.noteWrite g f).ckpt,
      poison := (s.noteWrite g f).poison, pend := (s.noteWrite g f).pend } := by
  unfold noteWrite
  simp only
  split <;> rfl

theorem noteWrites_rest (gs : List Nat) (s : State) :
    gs.foldl (fun (t : State) g => t.noteWrite g (metaF (t.metaAt g))) s =
      let t := gs.foldl (fun (t : State) g => t.noteWrite g (metaF (t.metaAt g))) s
      { s with gmeta := t.gmeta, ckpt := t.ckpt, poison := t.poison, pend := t.pend } := by
  induction gs generalizing s with
  | nil => rfl
  | cons g gs ih =>
    simp only [List.foldl_cons]
    rw [ih, noteWrite_rest]

theorem countPieces_rest (s : State) (ps : List (Nat × Nat)) :
    s.countPieces ps = { s with acnt := (s.countPieces ps).acnt } := countUnits_rest _ s

theorem markWrite_rest (s : State) (loc n : Nat) :
    s.markWrite loc n = { s with
      gmeta := (s.markWrite loc n).gmeta, ckpt := (s.markWrite loc n).ckpt,
      poison := (s.markWrite loc n).poison, pend := (s.markWrite loc n).pend } := by
  unfold markWrite
  split
  · exact noteWrites_rest _ s
  · rfl

/-- Bytes that have passed their checks change memory, metadata and what a write marks, and nothing else. -/
theorem putAt_rest (s : State) (loc : Nat) (bs : List Byte) :
    s.putAt loc bs = { s with
      mem := (s.putAt loc bs).mem, units := (s.putAt loc bs).units, ctxs := (s.putAt loc bs).ctxs,
      gmeta := (s.putAt loc bs).gmeta, written := (s.putAt loc bs).written, ckpt := (s.putAt loc bs).ckpt,
      poison := (s.putAt loc bs).poison, pend := (s.putAt loc bs).pend } := by
  unfold putAt storeBytes
  rw [markWrite_rest]
  unfold taintCtxs
  rw [landBytes_rest]

theorem putPieces_rest (ps : List (Nat × Nat)) (s : State) (bs : List Byte) :
    s.putPieces ps bs = { s with
      mem := (s.putPieces ps bs).mem, units := (s.putPieces ps bs).units, ctxs := (s.putPieces ps bs).ctxs,
      gmeta := (s.putPieces ps bs).gmeta, written := (s.putPieces ps bs).written, ckpt := (s.putPieces ps bs).ckpt,
      poison := (s.putPieces ps bs).poison, pend := (s.putPieces ps bs).pend } := by
  induction ps generalizing s bs with
  | nil => rfl
  | cons p ps ih => simp only [putPieces]; rw [ih, putAt_rest]

/-- A write that has passed its checks also counts in the units that it touches. -/
theorem fillPieces_rest (ps : List (Nat × Nat)) (s : State) (bs : List Byte) :
    s.fillPieces ps bs = { s with
      mem := (s.fillPieces ps bs).mem, units := (s.fillPieces ps bs).units, ctxs := (s.fillPieces ps bs).ctxs,
      acnt := (s.fillPieces ps bs).acnt, gmeta := (s.fillPieces ps bs).gmeta, written := (s.fillPieces ps bs).written,
      ckpt := (s.fillPieces ps bs).ckpt, poison := (s.fillPieces ps bs).poison, pend := (s.fillPieces ps bs).pend } := by
  unfold fillPieces
  rw [putPieces_rest, countPieces_rest]

theorem writeAt_rest (s : State) (loc : Nat) (bs : List Byte) :
    s.writeAt loc bs = { s with
      mem := (s.writeAt loc bs).mem, units := (s.writeAt loc bs).units, ctxs := (s.writeAt loc bs).ctxs,
      acnt := (s.writeAt loc bs).acnt, gmeta := (s.writeAt loc bs).gmeta, written := (s.writeAt loc bs).written,
      ckpt := (s.writeAt loc bs).ckpt, poison := (s.writeAt loc bs).poison, pend := (s.writeAt loc bs).pend } := by
  unfold writeAt
  rw [countRun_rest, putAt_rest]

/-! ### What an access leaves beside its data -/

/-- The accesses of a walk change the units' counts alone. -/
theorem countWalk_rest (s : State) (world : Bool) (a : Nat) :
    s.countWalk world a = { s with acnt := (s.countWalk world a).acnt } := by
  unfold countWalk
  simp only
  generalize (if bitOf _ 0 = true then s.walkReads a 4 _ else []) = ps
  induction ps generalizing s with
  | nil => rfl
  | cons p ps ih => simp only [List.foldl_cons]; rw [ih, countUnit_rest]

theorem countWalked_rest (s : State) (i : Issuer) (va : Word) :
    s.countWalked i va = { s with acnt := (s.countWalked i va).acnt } := by
  unfold countWalked
  split
  · exact countWalk_rest s _ _
  · rfl

theorem countAt_rest (s : State) (i : Issuer) (va : Word) : s.countAt i va = { s with acnt := (s.countAt i va).acnt } := by
  unfold countAt
  split
  · exact countUnit_rest s _
  · rfl

/-- An access that faults changes the units' counts alone. -/
theorem noteFailed_rest (s : State) (i : Issuer) (va : Word) (n : Nat) (f : FaultInfo) :
    s.noteFailed i va n f = { s with acnt := (s.noteFailed i va n f).acnt } := by
  unfold noteFailed
  simp only
  have h1 : (if afterWalk f.cause = true then s.countWalked i va else s) =
      { s with acnt := (if afterWalk f.cause = true then s.countWalked i va else s).acnt } := by
    split
    · exact countWalked_rest s i va
    · rfl
  split
  · generalize s.unitStarts i va n = ps
    generalize (if afterWalk f.cause = true then s.countWalked i va else s) = t at h1 ⊢
    induction ps generalizing t with
    | nil => exact h1
    | cons p ps ih =>
      simp only [List.foldl_cons]
      exact ih _ (by rw [countAt_rest, h1])
  · exact h1

/-- A translation changes the issuer's TLB and the counts of the walk's units, and nothing else. -/
theorem noteTlb_rest (s : State) (i : Issuer) (va : Word) :
    s.noteTlb i va = { s with cores := (s.noteTlb i va).cores, acnt := (s.noteTlb i va).acnt } := by
  unfold noteTlb
  simp only
  split
  · rfl
  · split
    · rw [countWalk_rest]
    · rw [countWalk_rest]; split <;> rfl

@[simp] theorem countUnit_mem (s : State) (loc : Nat) : (s.countUnit loc).mem = s.mem := by rw [countUnit_rest]
@[simp] theorem noteWrite_mem (s : State) (g : Nat) (f : Bool) : (s.noteWrite g f).mem = s.mem := by rw [noteWrite_rest]
@[simp] theorem countRun_mem (s : State) (loc n : Nat) : (s.countRun loc n).mem = s.mem := by rw [countRun_rest]
@[simp] theorem countPieces_mem (s : State) (ps : List (Nat × Nat)) : (s.countPieces ps).mem = s.mem := by rw [countPieces_rest]
@[simp] theorem markWrite_mem (s : State) (loc n : Nat) : (s.markWrite loc n).mem = s.mem := by rw [markWrite_rest]

/-! ### The canonical form -/

theorem putBytes_memWf (s : State) (loc : Nat) (bs : List Byte) (h : Memory.wf s.mem = true) :
    Memory.wf (s.putBytes loc bs).mem = true := by
  induction bs generalizing s loc with
  | nil => exact h
  | cons b bs ih => exact ih _ _ (Map.wf_set loc b h)

theorem landBytes_memWf (s : State) (loc : Nat) (bs : List Byte) (h : Memory.wf s.mem = true) :
    Memory.wf (s.landBytes loc bs).mem = true := by
  unfold landBytes
  simp only
  split
  · exact putBytes_memWf _ _ _ (by rw [noteWords_mem, pokeRecord_mem]; exact putBytes_memWf _ _ _ h)
  · rw [noteWords_mem, pokeRecord_mem]; exact putBytes_memWf _ _ _ h

theorem putAt_memWf (s : State) (loc : Nat) (bs : List Byte) (h : Memory.wf s.mem = true) :
    Memory.wf (s.putAt loc bs).mem = true := by
  unfold putAt storeBytes taintCtxs
  rw [markWrite_mem]
  exact landBytes_memWf s loc bs h

theorem writeAt_memWf (s : State) (loc : Nat) (bs : List Byte) (h : Memory.wf s.mem = true) :
    Memory.wf (s.writeAt loc bs).mem = true := by
  unfold writeAt
  rw [countRun_mem]
  exact putAt_memWf s loc bs h

theorem fillPieces_memWf (ps : List (Nat × Nat)) (s : State) (bs : List Byte) (h : Memory.wf s.mem = true) :
    Memory.wf (s.fillPieces ps bs).mem = true := by
  unfold fillPieces
  have h1 : Memory.wf (s.countPieces ps).mem = true := by rw [countPieces_mem]; exact h
  generalize s.countPieces ps = t at h1
  induction ps generalizing t bs with
  | nil => exact h1
  | cons p ps ih => exact ih _ _ (putAt_memWf t _ _ h1)

theorem putMeta_metaWf (s : State) (g : Nat) (m : BitVec 12) (h : Map.wf 0 s.gmeta = true) :
    Map.wf 0 (s.putMeta g m).gmeta = true := Map.wf_set g m h

theorem noteWrite_metaWf (s : State) (g : Nat) (f : Bool) (h : Map.wf 0 s.gmeta = true) :
    Map.wf 0 (s.noteWrite g f).gmeta = true := by
  unfold noteWrite
  simp only
  split <;> exact putMeta_metaWf s g _ h

theorem markWrite_metaWf (s : State) (loc n : Nat) (h : Map.wf 0 s.gmeta = true) :
    Map.wf 0 (s.markWrite loc n).gmeta = true := by
  unfold markWrite
  split
  · induction granules loc n generalizing s with
    | nil => exact h
    | cons g gs ih => exact ih _ (noteWrite_metaWf s g _ h)
  · exact h

end State

/-- The machine after reset lists nothing. -/
theorem reset_memWf : Memory.wf State.reset.mem = true := by decide

end Sys2Proof.Machine
end

