-- ==== Sys2Proof/Laws/Ops.lean ====
section
/-! SUPPORT. What the shared answers of instructions do: commit with a register written, branch, go on. -/

namespace Sys2Proof.Machine

open Sys2Proof

/-! ### The frame relations -/

theorem SameMemory.refl (s : State) : SameMemory s s := ⟨fun _ => rfl, fun _ => rfl⟩

theorem RegsSame.refl (c : Core) (ws : List (File × Nat)) : RegsSame c c ws :=
  ⟨fun _ _ => rfl, fun _ _ => rfl, fun _ _ => rfl, fun _ _ => rfl, fun _ _ => rfl⟩

/-- Replacing one core changes nothing else. -/
theorem onlyCore_putCore (s : State) (k : Nat) (c : Core) : OnlyCore s (s.putCore k c) k :=
  ⟨rfl, fun j hj => by simp [State.coreAt_putCore, hj], fun _ => rfl, fun _ => rfl⟩

@[simp] theorem State.me_setMe (s : State) (c : Core) : (s.setMe c).me = c := by simp

@[simp] theorem State.cur_setMe (s : State) (c : Core) : (s.setMe c).cur = s.cur := rfl

@[simp] theorem State.sr_setMe (s : State) (c : Core) (n : Nat) : (s.setMe c).sr n = c.sReg n := by
  simp [State.sr]

theorem RegsSame.setS (c : Core) (d : Nat) (v : Word) : RegsSame c (c.setS d v) [(.s, d)] where
  scalar r hr := by
    simp only [List.mem_singleton, Prod.mk.injEq, true_and] at hr
    simp only [Core.sReg_setS, if_neg hr]
    by_cases h : r = 0 <;> simp [h]
  vector r _ := by simp
  predicate r _ := by simp
  view r _ := by simp
  handle r _ := by simp

/-- A commit of registers that a core has written, and nothing else. -/
theorem commitsTo_setMe (s : State) (c : Core) (pc : Word) (ws : List (File × Nat)) (fl : Flags)
    (hr : RegsSame s.me c ws) (hc : CommitsAt s.me c pc fl) : CommitsTo s (s.setMe c) pc ws fl where
  only := onlyCore_putCore s s.cur c
  regs := by simpa using hr
  core := by simpa using hc

/-! ### Answers -/

theorem State.answer_commits (s : State) (d : Nat) (v : Word) : Commits s (s.answer d v) [(.s, d)] 0 := by
  refine commitsTo_setMe s _ _ _ _ ?_ ?_
  · have h := RegsSame.setS s.me d v
    exact ⟨h.scalar, h.vector, h.predicate, h.view, h.handle⟩
  · unfold CommitsAt Core.commit Core.setS
    split <;> simp

theorem State.answer_sr (s : State) (d : Nat) (v : Word) : (s.answer d v).sr d = if d = 0 then 0 else v := by
  simp only [State.answer, State.sr_setMe, Core.sReg_commit, Core.sReg_setS, if_true]

/-- What an answer in s[d] amounts to. -/
theorem putsScalar_of (i : Instr) (s : State) (d : Nat) (v : Word) (h : exec i s = .next (s.answer d v)) :
    PutsScalar i s d v :=
  ⟨_, h, s.answer_commits d v, s.answer_sr d v⟩

theorem State.goto_commitsTo (s : State) (t : Word) : CommitsTo s (s.goto t) t [] 0 := by
  refine commitsTo_setMe s _ _ _ _ ?_ ?_
  · exact ⟨fun _ _ => rfl, fun _ _ => rfl, fun _ _ => rfl, fun _ _ => rfl, fun _ _ => rfl⟩
  · simp [CommitsAt, Core.jump]

theorem State.retire_commits (s : State) : Commits s s.retire [] 0 := by
  refine commitsTo_setMe s _ _ _ _ ?_ ?_
  · exact ⟨fun _ _ => rfl, fun _ _ => rfl, fun _ _ => rfl, fun _ _ => rfl, fun _ _ => rfl⟩
  · simp [CommitsAt, Core.commit]

/-- A branch goes to its target when it is taken, else to the next chain. -/
theorem State.branch_goes (s : State) (b : Bool) (disp : Int) :
    CommitsTo s (s.branch b disp) (if b then padd s.me.pc (2 * disp) else s.me.npc) [] 0 := by
  cases b
  · exact s.retire_commits
  · exact s.goto_commitsTo _

theorem State.answerV_commits (s : State) (d : Nat) (x : VecReg) (f : Flags) :
    Commits s (s.answerV d x f) [(.v, d)] f := by
  refine commitsTo_setMe s _ _ _ _ ?_ ?_
  · refine ⟨fun _ _ => rfl, fun r hr => ?_, fun _ _ => rfl, fun _ _ => rfl, fun _ _ => rfl⟩
    simp only [List.mem_singleton, Prod.mk.injEq, true_and] at hr
    simp [Core.vReg_setV, hr]
  · simp [CommitsAt, Core.commit, Core.raise, Core.setV]

theorem State.answerV_reg (s : State) (d : Nat) (x : VecReg) (f : Flags) : (s.answerV d x f).me.vReg d = x := by
  simp [State.answerV, Core.vReg_setV]

theorem State.answerP_commits (s : State) (d : Nat) (x : PredReg) (f : Flags) :
    Commits s (s.answerP d x f) [(.p, d)] f := by
  refine commitsTo_setMe s _ _ _ _ ?_ ?_
  · refine ⟨fun _ _ => rfl, fun _ _ => rfl, fun r hr => ?_, fun _ _ => rfl, fun _ _ => rfl⟩
    simp only [List.mem_singleton, Prod.mk.injEq, true_and] at hr
    simp [Core.pReg_setP, hr]
  · simp [CommitsAt, Core.commit, Core.raise, Core.setP]

theorem State.answerP_reg (s : State) (d : Nat) (x : PredReg) (f : Flags) : (s.answerP d x f).me.pReg d = x := by
  simp [State.answerP, Core.pReg_setP]

theorem State.answerF_commits (s : State) (d : Nat) (r : Word × Flags) : Commits s (s.answerF d r) [(.s, d)] r.2 := by
  refine commitsTo_setMe s _ _ _ _ ?_ ?_
  · have h := RegsSame.setS s.me d r.1
    exact ⟨h.scalar, h.vector, h.predicate, h.view, h.handle⟩
  · unfold CommitsAt Core.commit Core.raise Core.setS
    split <;> simp

/-! ### What the EVU's reads leave -/

/-- The count of the EVU's own reads changes the units' counts and the counter of free values alone. -/
theorem State.countEvu_rest (s : State) (c : Ctx) :
    s.countEvu c = { s with acnt := (s.countEvu c).acnt, free := (s.countEvu c).free } := by
  unfold State.countEvu
  generalize s.ctxUnits c = us
  induction us generalizing s with
  | nil => rfl
  | cons u us ih => simp only [List.foldl_cons]; rw [ih]

@[simp] theorem State.countEvu_cores (s : State) (c : Ctx) : (s.countEvu c).cores = s.cores := by rw [countEvu_rest]
@[simp] theorem State.countEvu_mem (s : State) (c : Ctx) : (s.countEvu c).mem = s.mem := by rw [countEvu_rest]
@[simp] theorem State.countEvu_ctxs (s : State) (c : Ctx) : (s.countEvu c).ctxs = s.ctxs := by rw [countEvu_rest]
@[simp] theorem State.countEvu_pend (s : State) (c : Ctx) : (s.countEvu c).pend = s.pend := by rw [countEvu_rest]
@[simp] theorem State.countEvu_units (s : State) (c : Ctx) : (s.countEvu c).units = s.units := by rw [countEvu_rest]

end Sys2Proof.Machine
end

