-- ==== Sys2Proof/Laws/Trap.lean ====
section
/-! SUPPORT. What writing a fault record changes, and what taking a trap makes of a core. -/

namespace Sys2Proof.Machine

open Sys2Proof

theorem Filed.refl (s : State) : Filed s s := ⟨rfl, fun _ => rfl, fun _ => rfl⟩

theorem Filed.trans {s t u : State} (h : Filed s t) (g : Filed t u) : Filed s u where
  rest := by rw [g.rest, h.rest]
  svec d := (g.svec d).trans (h.svec d)
  kd p := (g.kd p).trans (h.kd p)

theorem filed_writeAt (s : State) (loc : Nat) (bs : List Byte) : Filed s (s.writeAt loc bs) where
  rest := by rw [State.writeAt_rest]
  svec d := by rw [State.writeAt_rest]; rfl
  kd p := by rw [State.writeAt_rest]; rfl

theorem filed_fillPieces (ps : List (Nat × Nat)) (s : State) (bs : List Byte) : Filed s (s.fillPieces ps bs) := by
  have hu : ∀ d, ((s.fillPieces ps bs).dieAt d).svec = (s.dieAt d).svec := fun d => by rw [State.fillPieces_rest]; rfl
  have hk : ∀ p, ((s.fillPieces ps bs).partAt p).map Part.kd = (s.partAt p).map Part.kd := fun p => by
    rw [State.fillPieces_rest]; rfl
  refine ⟨?_, hu, hk⟩
  rw [State.fillPieces_rest]

theorem filed_countUnit (s : State) (loc : Nat) : Filed s (s.countUnit loc) where
  rest := by rw [State.countUnit_rest]
  svec d := by rw [State.countUnit_rest]; rfl
  kd p := by rw [State.countUnit_rest]; rfl

theorem filed_countAt (s : State) (i : Issuer) (va : Word) : Filed s (s.countAt i va) := by
  refine ⟨?_, fun d => ?_, fun p => ?_⟩ <;> rw [State.countAt_rest] <;> rfl

theorem filed_countWalked (s : State) (i : Issuer) (va : Word) : Filed s (s.countWalked i va) := by
  refine ⟨?_, fun d => ?_, fun p => ?_⟩ <;> rw [State.countWalked_rest] <;> rfl

theorem filed_noteFailed (s : State) (i : Issuer) (va : Word) (n : Nat) (f : FaultInfo) : Filed s (s.noteFailed i va n f) := by
  refine ⟨?_, fun d => ?_, fun p => ?_⟩ <;> rw [State.noteFailed_rest] <;> rfl

theorem filed_areaTried (s : State) (i : Issuer) (area : Word) : Filed s (s.areaTried i area) := by
  unfold State.areaTried
  split
  · exact filed_noteFailed _ _ _ _ _
  · simp only
    split
    · exact (filed_countWalked _ _ _).trans (filed_countAt _ _ _)
    · exact ((filed_countWalked _ _ _).trans (filed_countAt _ _ _)).trans (filed_noteFailed _ _ _ _ _)
    · exact (filed_countWalked _ _ _).trans (filed_countAt _ _ _)

theorem Die.post_svec (d : Die) (w : Word) : (d.post w).svec = d.svec := by
  unfold Die.post; split
  · rfl
  · split <;> rfl

theorem filed_post (s : State) (die kind : Nat) (part : Option Nat) (rod id : Nat) :
    Filed s (s.post die kind part rod id) where
  rest := rfl
  svec d := by
    simp only [State.post, State.modDie_eq, State.dieAt_putDie]
    split
    · subst d; exact Die.post_svec _ _
    · rfl
  kd p := rfl

theorem filed_stewardRecord (s : State) (die : Nat) (ws : List Word) : Filed s (s.stewardRecord die ws).1 := by
  unfold State.stewardRecord
  simp only
  split
  · exact Filed.refl s
  · exact ((filed_countUnit s _).trans (filed_writeAt _ _ _)).trans (filed_writeAt _ _ _)

theorem filed_tellSteward (s : State) (die kind : Nat) (part : Option Nat) (ws : List Word) :
    Filed s (s.tellSteward die kind part ws).1 := by
  unfold State.tellSteward
  simp only
  split <;> exact (filed_stewardRecord s die ws).trans (filed_post _ _ _ _ _ _)

theorem filed_areaFill (s : State) (i : Issuer) (area va : Word) (ps hs : List (Nat × Nat)) (ws : List Word) (head : Nat) :
    Filed s (s.areaFill i area va ps hs ws head) :=
  ((((filed_countWalked s i area).trans (filed_countAt _ i area)).trans (filed_countWalked _ i va)).trans
    (filed_fillPieces ps _ _)).trans (filed_fillPieces hs _ _)

theorem filed_areaWrite (s : State) (i : Issuer) (area : Word) (ws : List Word) (r : State × Word)
    (h : s.areaWrite i area ws = some r) : Filed s r.1 := by
  unfold State.areaWrite at h
  split at h
  · cases h
  · simp only at h
    split at h
    · cases h
    · split at h
      · cases h; exact filed_areaFill _ _ _ _ _ _ _ _
      · cases h

theorem filed_putPart (s : State) (p : Nat) (x y : Part) (h : s.partAt p = some x) (hk : y.kd = x.kd) :
    Filed s (s.putPart p y) where
  rest := rfl
  svec _ := rfl
  kd q := by
    rw [State.partAt_putPart]
    split
    · subst q; rw [h]; simp [hk]
    · rfl

theorem filed_partRecord (s : State) (p : Nat) (ws : List Word) : Filed s (s.partRecord p ws).1 := by
  unfold State.partRecord
  split
  · exact filed_tellSteward _ _ _ _ _
  · rename_i x hx
    have h1 := filed_putPart s p x { x with recorded := true } hx rfl
    simp only
    split
    · rename_i r hr; exact h1.trans (filed_areaWrite _ _ _ _ _ hr)
    · exact (h1.trans (filed_areaTried _ _ _)).trans (filed_tellSteward _ _ _ _ _)

/-- What filing a core's record changes. -/
theorem filed_fileRecord (s : State) (k : Nat) (ws : List Word) : Filed s (s.fileRecord k ws).1 := by
  unfold State.fileRecord
  split
  · split
    · exact filed_partRecord _ _ _
    · exact filed_tellSteward _ _ _ _ _
  · split
    · simp only
      split
      · rename_i r hr; exact filed_areaWrite _ _ _ _ _ hr
      · exact (filed_areaTried _ _ _).trans (filed_tellSteward _ _ _ _ _)
    · exact filed_tellSteward _ _ _ _ _

theorem Filed.cores {s t : State} (h : Filed s t) : t.cores = s.cores := by rw [h.rest]

theorem Filed.coreAt {s t : State} (h : Filed s t) (k : Nat) : t.coreAt k = s.coreAt k := by
  unfold State.coreAt; rw [h.cores]

theorem Filed.kdOf {s t : State} (h : Filed s t) (k : Nat) : t.kdOf k = s.kdOf k := by
  unfold State.kdOf
  have ht : t.tileAt k = s.tileAt k := by unfold State.tileAt; rw [h.rest]
  have hl : t.linkAt (k - 384) = s.linkAt (k - 384) := by unfold State.linkAt; rw [h.rest]
  rw [ht, hl]
  split
  · split
    · rename_i p hp
      have := h.kd p
      cases h1 : t.partAt p <;> cases h2 : s.partAt p <;> simp_all
    · rfl
  · rfl

theorem Filed.trapVector {s t : State} (h : Filed s t) (k c : Nat) : t.trapVector k c = s.trapVector k c := by
  unfold State.trapVector; rw [h.svec, h.kdOf]

/-- TrapEntry outside a handler: the record is filed, then the core enters its handler; nothing else changes. -/
theorem trapEntry_enters (s : State) (k : Nat) (f : FaultInfo) (epc : Word) (h : (s.coreAt k).inh = false) :
    ∃ t erec c, Filed s t ∧ s.trapEntry k f epc = t.putCore k c ∧ Enters s (s.trapEntry k f epc) k f epc erec ∧
      ((f.cause = 0x01 ∨ f.cause = 0x02) → t = s ∧ erec = 0) := by
  unfold State.trapEntry
  rw [h]
  simp only [Bool.false_eq_true, if_false, State.modCore_eq]
  by_cases hc : f.cause = 0x01 ∨ f.cause = 0x02
  · simp only [hc, if_true]
    refine ⟨s, 0, _, Filed.refl s, rfl, ?_, fun _ => ⟨rfl, rfl⟩⟩
    unfold Enters
    simp [hc]
  · simp only [hc, if_false]
    have hf := filed_fileRecord s k (s.coreRecord k f (s.coreAt k).pc)
    refine ⟨_, (s.fileRecord k (s.coreRecord k f (s.coreAt k).pc)).2, _, hf, rfl, ?_, fun h => absurd h (by simp)⟩
    unfold Enters
    simp [hc, hf.coreAt, hf.trapVector]

end Sys2Proof.Machine
end

