-- ==== Sys2Proof/Tests/Slice0.lean ====
section
/-! SUPPORT. Tests: the well-formedness check, words decoded as the manual's encoding tables give them, single steps with
results from the manual's rules and examples, and for each statement with hypotheses a state that meets them. -/

namespace Sys2Proof.Tests
open Sys2Proof Sys2Proof.Machine
set_option Elab.async false

/-! ### Small states -/

/-- A tile core of a one-tile partition with a bead; its heap window is HBM at its own addresses. -/
def bead0 : State := { State.reset.withFetchWord 16 0x01A0 with cur := 0 }

/-- The steward core of die 0, in the secure world. -/
def stew : State := { State.reset with cur := 416, cores := [(416, { Core.reset 416 with mode := .running, pc := 0x1000 })] }

def regs (s : State) (rs : List (Nat × Word)) : State := s.setMe (rs.foldl (fun c r => c.setS r.1 r.2) s.me)
def poke (s : State) (loc : Nat) (ws : List Word) : State := s.loadBytes loc (bytesOfWords ws)
def vregs (s : State) (rs : List (Nat × VecReg)) : State := s.setMe (rs.foldl (fun c r => c.setV r.1 r.2) s.me)
def secure (s : State) : State := s.setMe { s.me with world := true }
def inHandler (s : State) : State := s.setMe { s.me with inh := true }
def holding (s : State) (e : Ev) : State := { s with msg := some e }

/-- Whether executing an instruction answers a next state with a property. -/
def after (i : Instr) (s : State) (p : State → Bool) : Bool :=
  match exec i s with | .next t => p t | .fault _ => false | .refused _ => false

/-- Whether executing an instruction and then the device steps that it started, at most eight, gives a state with a
property. -/
def settles (i : Instr) (s : State) (p : State → Bool) : Bool :=
  let go (t : State) : State := match t.pend with
    | e :: es => (match exec e.instr { t with pend := es, msg := some e } with | .next u => u | .fault _ => t | .refused _ => t)
    | [] => t
  after i s fun t => p (go (go (go (go (go (go (go (go t))))))))

/-- A 1 × 1 binary32 view of the own scratchpad at an offset. -/
def view1 (off : Nat) : ViewReg := View.ofWords (BitVec.ofNat 64 (0x0040000003000000 + off)) 0x0001000100010001 0 0
def views (s : State) (rs : List (Nat × ViewReg)) : State := s.setMe (rs.foldl (fun c r => c.setT r.1 r.2) s.me)

/-- 1.5 at 0, 2.0 at 256; t1, t2 and t3 name the elements at 0, 256 and 512. -/
def tiles0 : State := views (poke (poke bead0 (2 ^ 40) [0x3FC00000]) (2 ^ 40 + 256) [0x40000000])
  [(1, view1 0), (2, view1 256), (3, view1 512)]

def pfx0 : Pfx := ⟨0, 0⟩

/-! ### Well-formed terms (R93 to R97, R100, R105) -/

theorem test_wf_accepts : [Instr.add 63 0 5, .and 1 2 (.imm (-5)), .shl 1 2 (.imm 63), .csrr 3 0x50, .bext 1 2 0 64,
    .ld ⟨15, 3⟩ .i8 0 17 2 (-512), .vcmp pfx0 .f16 .un 1 2 3, .vtopk pfx0 .i8 none 2 3 128, .tadd pfx0 1 true 1 1 3 511,
    .trap pfx0 511, .acq pfx0 3 (.imm 192), .idle pfx0 1].all Instr.wf = true := by decide +kernel

/-- One term for each test that the check makes on fields: register numbers of D, A and B, the limits of each kind of
immediate, TY, RM, MODE, SC and PM, LA and the hint, register groups, an immediate beyond its words, a chain of six words. -/
theorem test_wf_refuses_registers : [Instr.add 64 0 0, .add 0 64 0, .add 0 0 64, .vadd pfx0 .f32 0 none 32 0 0, .pand pfx0 8 0 0,
    .ttrn pfx0 0 16 0, .arel pfx0 16, .bwait pfx0 .dflt 8, .vadd pfx0 .f32 0 (some 8) 0 0 0].all (fun i => !i.wf) = true := by
  decide +kernel

theorem test_wf_refuses_immediates : [Instr.shl 1 2 (.imm 64), .shl 1 2 (.imm (-1)), .ptag 1 2 (.imm 256), .csrr 1 0x30,
    .bext 1 2 0 0, .bext 1 2 60 5, .spawn pfx0 1 (.imm 16), .vshl pfx0 .i8 none 1 2 (.imm 8), .pset pfx0 .i8 1 (.imm (-1)),
    .acq pfx0 1 (.imm 0), .acq pfx0 1 (.imm 193), .vmovs pfx0 .i64 1 2 16, .vtopk pfx0 .i8 none 2 3 0,
    .tadd pfx0 0 false 1 2 3 (-1), .trot pfx0 0 false 1 2 3 (some 1), .slot pfx0 1 32, .trap pfx0 512, .addi 1 (2 ^ 36),
    .and 1 2 (.imm (2 ^ 29)), .ld pfx0 .i8 0 1 2 (2 ^ 29), .b (2 ^ 40)].all (fun i => !i.wf) = true := by decide +kernel

theorem test_wf_refuses_opx : [Instr.ld pfx0 .dm8 0 1 2 0, .vadd pfx0 .i8 1 none 1 2 3, .vexp2 pfx0 .i8 0 none 1 2,
    .aadd pfx0 .u8 1 2 3, .fence pfx0 .dom ⟨true, false, false, false⟩ .full 64, .fencex pfx0 .dflt ⟨true, false, false, false⟩ .full 1,
    .vadd pfx0 .f32 4 none 1 2 3, .tlbi pfx0 .dom].all (fun i => !i.wf) = true := by decide +kernel

theorem test_wf_refuses_prefixes : [Instr.ld ⟨16, 0⟩ .i32 0 1 2 0, .ld ⟨0, 4⟩ .i32 0 1 2 0, .yield ⟨1, 0⟩,
    .ld pfx0 .i32 0 17 2 600].all (fun i => !i.wf) = true := by decide +kernel

theorem test_wf_refuses_groups : [Instr.vqnt pfx0 .f16 true 1 4 5, .vqnt pfx0 .f16 true 2 6 5, .vtopk pfx0 .i8 none 3 4 1,
    .baddq pfx0 .dm8 3 2 1, .baddq pfx0 .f32 2 2 1, .vcmp pfx0 .i32 .un 1 2 3, .vdq pfx0 .f16 0 2 1 2 3,
    .puts pfx0 3 2 1 0 0].all (fun i => !i.wf) = true := by decide +kernel

/-! ### Words (R89 to R95, R103, R104) -/

def dec (ws : List IWord) : Option (Instr × Nat) := match decode ws with | .ok r => some r | .error _ => none

/-- The examples of chapter 05. -/
theorem test_dec_examples : dec [0xF007#16, 0x4B68#16] = some (.li 6 1000, 2) ∧ dec [0x01A0#16] = some (.add 3 3 4, 1) ∧
    dec [0xF405#16, 0x01A0#16] = some (.add 3 4 5, 2) ∧
    dec [0xF848#16, 0xFD40#16, 0xF500#16, 0xF12C#16, 0x0090#16] = some (.ld ⟨2, 0⟩ .i32 0 17 2 300, 5) := by decide +kernel

/-- Page 0: OP 4 X0 D 2 A 3 without REG; OP 21 X1 two-address; OP 22 with disp11 = 1 and one IMM 0x3FF nearest the base. -/
theorem test_dec_page0 : dec [0b0010000100011000#16] = some (.clz 2 3, 1) ∧ dec [0b1010100100011001#16] = some (.jtab 2 3, 1) ∧
    dec [0b1111001111111111#16, 0b1011000000000001#16] = some (.bpr (-2047), 2) ∧
    dec [0b0101000010000001#16] = some (.csrr 1 1, 1) := by decide +kernel

/-- Page 1: AADD.d with B = 9; STF.E (MODE 1); page 2: VCMP.lt.f16, VLD under p1; TAGLD has no B. -/
theorem test_dec_pages12 :
    dec [0b1111100001000000#16, 0b1111110111000000#16, 0b1111010000001001#16, 0b0000100010010000#16] =
      some (.aadd pfx0 .i64 1 2 9, 4) ∧
    dec [0b1111100001000000#16, 0b1111110000000001#16, 0b0000000010010101#16] = some (.stfE pfx0 1 2 0, 3) ∧
    dec [0b1111100001000000#16, 0b0001000010010011#16] = some (.tagld pfx0 1 2, 2) ∧
    dec [0b1111100010000000#16, 0b1111111001000010#16, 0b1111010000000011#16, 0b0001000010010110#16] =
      some (.vcmp pfx0 .f16 .lt 1 2 3, 4) ∧
    dec [0b1111100010000000#16, 0b1111110011001001#16, 0b0000000010010000#16] = some (.vld pfx0 .i16 0 (some 1) 1 2 0, 3) := by
  decide +kernel

/-- Page 3: TMUL with MODE 1 (relu) and RM 2; page 4: ARRIVE.clu with PM C and X, LKPOP; page 5: EDINS; page 6: PDRN.KILL, IDLE,
TLBI.va.die. -/
theorem test_dec_pages3to6 :
    dec [0b1111100011000000#16, 0b1111110000100001#16, 0b1111010000000011#16, 0b0000100010010000#16] =
      some (.tmul pfx0 2 true 1 2 3, 4) ∧
    dec [0b1111100100000000#16, 0b1111110101100000#16, 0b0000100110000001#16] =
      some (.arrive pfx0 .clu ⟨true, true, false, false⟩ 3, 3) ∧
    dec [0b1111100100000000#16, 0b0001100010010000#16] = some (.lkpop pfx0 1 2, 2) ∧
    dec [0b1111100101000000#16, 0b1111010000000011#16, 0b0000100010010000#16] = some (.edins pfx0 1 2 3, 3) ∧
    dec [0b1111100110000000#16, 0b1111110000000001#16, 0b0000100010010000#16] = some (.pdrnKill pfx0 1 2, 3) ∧
    dec [0b1111100110000000#16, 0b0000000010000011#16] = some (.idle pfx0 1, 2) ∧
    dec [0b1111100110000000#16, 0b1111110110000001#16, 0b0000000000010010#16] = some (.tlbiVa pfx0 .die 2, 3) := by
  decide +kernel

/-- R92, R94, R101: no fifth prefix, no second PAGE, no wrong order, no page 7, no LA on page 0 or on END, no unassigned cell,
no REG on a BR, no B field without B. -/
theorem test_dec_refuses : [[0xF000#16, 0xF000#16, 0xF000#16, 0xF000#16, 0x4000#16], [0xF840#16, 0xF840#16, 0x0000#16],
    [0xF000#16, 0xF400#16, 0x4000#16], [0xF9C0#16, 0x0000#16], [0xF804#16, 0x0000#16], [0xF904#16, 0x0001#16],
    [0xB800#16], [0x0007#16], [0xF400#16, 0x6000#16], [0xF401#16, 0x2000#16], []].all (fun ws => (dec ws).isNone) = true := by
  decide +kernel

/-- R183: BANKOP.f32 has MODE 0, 1, 2 and 6 alone.  R336: SLOT.ACK permits a REG whose fields are 0.  R137: a SPAWN permits an OPX
whose fields are 0 (log 51). -/
theorem test_dec_modes : [0, 1, 2, 3, 4, 5, 6].map (fun m => (dec [0xF840#16, BitVec.ofNat 16 (0xFE80 + m), 0x1091#16]).isSome) =
      [true, true, true, false, false, false, true] ∧
    dec [0xF900#16, 0xFC01#16, 0xF400#16, 0xF003#16, 0x1006#16] = some (.slotAck pfx0 3, 5) ∧
    (dec [0xF900#16, 0xFC01#16, 0xF003#16, 0x1086#16]).isNone ∧
    dec [0xF900#16, 0xFC00#16, 0xF002#16, 0x0030#16] = some (.spawn pfx0 6 (.imm 2), 4) ∧
    (dec [0xF900#16, 0xFC01#16, 0xF002#16, 0x0030#16]).isNone := by decide +kernel

theorem test_enc_shortest : encode (.add 3 3 4) = [0x01A0#16] ∧ encode (.add 3 4 5) = [0xF405#16, 0x01A0#16] ∧
    encode (.li 6 1000) = [0xF007#16, 0x4B68#16] := by decide +kernel

/-- The table's LD row (page 1, OP 0, X0) with D = 1, A = 2. -/
theorem test_table_word : decodeTableWord 32 0xF8400090 = some (.ld pfx0 .dflt 0 1 2 0) := by decide +kernel

theorem test_step_from_reset : (match step (State.reset.withFetchWord 16 0x4B68) with
    | .next t => t.cur == 0 && t.me.sReg 6 == -24 && t.me.pc == 0x100002 && t.me.icnt == 1
    | .fault _ => false | .refused _ => false) = true := by decide +kernel

/-! ### Page 0 (R107 to R125) -/

def sIs (d : Nat) (v : Word) (s : State) : Bool := s.sr d == v && s.me.icnt == 1

theorem test_add_wraps : after (.add 3 1 2) (regs bead0 [(1, 5), (2, -7)]) (sIs 3 (-2)) = true := by decide +kernel
theorem test_sub_same : after (.sub 1 1 1) (regs bead0 [(1, 5)]) (sIs 1 0) = true := by decide +kernel
theorem test_s0_discards : after (.addi 0 7) bead0 (fun t => t.sr 0 == 0 && t.me.icnt == 1) = true := by decide +kernel
theorem test_andn : after (.andn 3 1 2) (regs bead0 [(1, 0xFF), (2, 0x0F)]) (sIs 3 0xF0) = true := by decide +kernel
theorem test_and_imm : after (.and 3 1 (.imm (-16))) (regs bead0 [(1, 0xFF)]) (sIs 3 0xF0) = true := by decide +kernel
theorem test_sar : after (.sar 3 1 (.reg 2)) (regs bead0 [(1, -8), (2, 65)]) (sIs 3 (-4)) = true := by decide +kernel
theorem test_rol : after (.rol 3 1 (.imm 4)) (regs bead0 [(1, 0xF000000000000001)]) (sIs 3 0x1F) = true := by decide +kernel
theorem test_min_signed : after (.min 3 1 2) (regs bead0 [(1, -1), (2, 1)]) (sIs 3 (-1)) = true := by decide +kernel
theorem test_minu : after (.minu 3 1 2) (regs bead0 [(1, -1), (2, 1)]) (sIs 3 1) = true := by decide +kernel
theorem test_mulh : after (.mulh 3 1 2) (regs bead0 [(1, -1), (2, 2)]) (sIs 3 (-1)) = true := by decide +kernel
theorem test_mulhu : after (.mulhu 3 1 2) (regs bead0 [(1, -1), (2, 2)]) (sIs 3 1) = true := by decide +kernel
theorem test_div_zero : after (.div 3 1 2) (regs bead0 [(1, 9)]) (sIs 3 (-1)) = true := by decide +kernel
theorem test_div_truncates : after (.div 3 1 2) (regs bead0 [(1, -7), (2, 2)]) (sIs 3 (-3)) = true := by decide +kernel
theorem test_rem_sign : after (.rem 3 1 2) (regs bead0 [(1, -7), (2, 2)]) (sIs 3 (-1)) = true := by decide +kernel
theorem test_divu_zero : after (.divu 3 1 2) (regs bead0 [(1, 9)]) (sIs 3 (-1)) = true := by decide +kernel
theorem test_remu_zero : after (.remu 3 1 2) (regs bead0 [(1, 9)]) (sIs 3 9) = true := by decide +kernel
theorem test_sltu_imm : after (.sltu 3 1 (.imm (-1))) (regs bead0 [(1, 5)]) (sIs 3 1) = true := by decide +kernel
theorem test_sle_equal : after (.sle 3 1 (.imm 5)) (regs bead0 [(1, 5)]) (sIs 3 1) = true := by decide +kernel
theorem test_clz_zero : after (.clz 3 1) bead0 (sIs 3 64) = true := by decide +kernel
theorem test_ctz : after (.ctz 3 1) (regs bead0 [(1, 0x50)]) (sIs 3 4) = true := by decide +kernel
theorem test_popc : after (.popc 3 1) (regs bead0 [(1, -1)]) (sIs 3 64) = true := by decide +kernel
theorem test_sextB : after (.sextB 3 1) (regs bead0 [(1, 0x180)]) (sIs 3 0xFFFFFFFFFFFFFF80) = true := by decide +kernel
theorem test_zextW : after (.zextW 3 1) (regs bead0 [(1, -1)]) (sIs 3 0xFFFFFFFF) = true := by decide +kernel
theorem test_bext : after (.bext 3 1 4 8) (regs bead0 [(1, 0xABCD)]) (sIs 3 0xBC) = true := by decide +kernel
theorem test_bins : after (.bins 3 1 4 8) (regs bead0 [(1, 0x12), (3, -1)]) (sIs 3 0xFFFFFFFFFFFFF12F) = true := by decide +kernel
theorem test_sel : after (.sel 3 1 2) (regs bead0 [(1, 5), (2, 6)]) (sIs 3 6) = true := by decide +kernel
theorem test_shadd : after (.shadd 3 4 1 2) (regs bead0 [(1, 5), (2, 3)]) (sIs 4 29) = true := by decide +kernel
theorem test_padd_keeps_tag : after (.padd 3 1 (.imm 1)) (regs bead0 [(1, 0x12FFFFFFFFFFFFFF)]) (sIs 3 0x1200000000000000) = true := by
  decide +kernel
theorem test_ptag : after (.ptag 3 1 (.reg 2)) (regs bead0 [(1, 0x12000000000000AB), (2, 0x1FE)]) (sIs 3 0xFE000000000000AB) = true := by
  decide +kernel
theorem test_pgtag : after (.pgtag 3 1) (regs bead0 [(1, 0x12000000000000AB)]) (sIs 3 0x12) = true := by decide +kernel
theorem test_branch_back : after (.beqz 1 (-3)) bead0 (fun t => t.me.pc == 0x100000 - 6) = true := by decide +kernel
theorem test_branch_not_taken : after (.bltu 1 2 9) (regs bead0 [(1, -1), (2, 1)]) (fun t => t.me.pc == bead0.me.npc) = true := by
  decide +kernel
theorem test_jr_odd : after (.jr 1) (regs bead0 [(1, 0x100001)]) (fun t => t.me.inh && fld t.me.ecause 56 8 == 4 &&
    t.me.eaddr == 0x100001 && t.me.epc == 0x100000) = true := by decide +kernel
theorem test_jtab : after (.jtab 1 2) (regs (poke bead0 0x2000 [2, 0x100040, 0x100080]) [(1, 0x2000), (2, 1)])
    (fun t => t.me.pc == 0x100080) = true := by decide +kernel
theorem test_csrw_flags : after (.csrw 1 0) ((regs bead0 [(1, 0b00101)]).setMe { (regs bead0 [(1, 0b00101)]).me with flg := 0b01111 })
    (fun t => t.me.flg == 0b01010) = true := by decide +kernel
theorem test_csrr_scb : after (.csrr 3 0x20) bead0 (sIs 3 0x1FE000) = true := by decide +kernel
theorem test_svec_world : after (.csrr 3 0x50) bead0 (fun t => fld t.me.ecause 56 8 == 9 && t.me.inh) = true := by decide +kernel

/-! ### Page 1 (R173 to R195) -/

theorem test_ld_sign : settles (.ld pfx0 .i16 0 3 1 2) (regs (poke bead0 0x2000 [0x80010000]) [(1, 0x2000)])
    (sIs 3 0xFFFFFFFFFFFF8001) = true := by decide +kernel
theorem test_ldx_scales : settles (.ldx pfx0 .u32 0 3 1 2) (regs (poke bead0 0x2000 [0, 0x8000000100000000]) [(1, 0x2000), (2, 3)])
    (sIs 3 0x80000001) = true := by decide +kernel
theorem test_st_bytes : settles (.st pfx0 .i16 0 3 1 0) (regs bead0 [(1, 0x2002), (3, 0xABCD)])
    (fun t => t.byte 0x2002 == 0xCD && t.byte 0x2003 == 0xAB && t.byte 0x2004 == 0 && metaD (t.metaAt 0x100)) = true := by decide +kernel
theorem test_ld_misaligned : after (.ld pfx0 .i32 0 3 1 2) (regs bead0 [(1, 0x2000)])
    (fun t => fld t.me.ecause 56 8 == 6 && t.me.eaddr == 0x2002) = true := by decide +kernel
theorem test_tag_fault : settles (.ld pfx0 .i32 0 3 1 0) (regs ({ bead0 with gmeta := [(0x100, mkMeta false false false 0x11)] })
    [(1, 0x2200000000002000)]) (fun t => fld t.me.ecause 56 8 == 0x0A) = true := by decide +kernel
theorem test_window_f16 : settles (.ld pfx0 .f32 0 3 1 0) (regs (poke bead0 (2 ^ 40) [0x3E00]) [(1, 0x0040000002000000)])
    (sIs 3 0x3FC00000) = true := by decide +kernel
theorem test_aadd : settles (.aadd pfx0 .i32 3 1 2) (regs (poke bead0 0x2000 [0xFFFFFFFF]) [(1, 0x2000), (2, 3)])
    (fun t => t.sr 3 == -1 && t.bytes 0x2000 8 == [2, 0, 0, 0, 0, 0, 0, 0]) = true := by decide +kernel
theorem test_acas_fails : settles (.acas pfx0 .i64 3 1 2) (regs (poke bead0 0x2000 [7]) [(1, 0x2000), (2, 9), (3, 8)])
    (fun t => t.sr 3 == 7 && t.byte 0x2000 == 7) = true := by decide +kernel
theorem test_amax_unsigned : settles (.amax pfx0 .u32 3 1 2) (regs (poke bead0 0x2000 [0x80000000]) [(1, 0x2000), (2, 1)])
    (fun t => t.sr 3 == 0x80000000 && t.byte 0x2003 == 0x80) = true := by decide +kernel
theorem test_afadd : settles (.afadd pfx0 .i32 0 3 1 2 (-1)) (regs (poke bead0 0x2000 [10]) [(1, 0x2000), (2, 0x3FC00000)])
    (fun t => t.sr 3 == 10 && t.byte 0x2000 == 13) = true := by decide +kernel
theorem test_stf_fills : settles (.stf pfx0 3 1 0) (regs bead0 [(1, 0x2000), (3, 7)])
    (fun t => t.byte 0x2000 == 7 && metaF (t.metaAt 0x100)) = true := by decide +kernel
theorem test_ldf_full : settles (.ldf pfx0 3 1 0) (regs ({ poke bead0 0x2000 [7] with gmeta := [(0x100, mkMeta true false true 0)] })
    [(1, 0x2000)]) (sIs 3 7) = true := by decide +kernel
theorem test_ldf_parks : settles (.ldf pfx0 3 1 0) (regs bead0 [(1, 0x2000)])
    (fun t => t.me.mode == .idle && metaW (t.metaAt 0x100) && (t.slotAt ⟨0, 0, 0⟩).map BeadSlot.use == some .parked) = true := by
  decide +kernel
theorem test_tagst : after (.tagst pfx0 3 1 2) (regs bead0 [(1, 0x2000), (2, 0x7F), (3, 64)])
    (fun t => metaTag (t.metaAt 0x101) == 0x7F && metaD (t.metaAt 0x100) && metaTag (t.metaAt 0x102) == 0) = true := by decide +kernel
theorem test_tagld : after (.tagld pfx0 3 1) (regs ({ bead0 with gmeta := [(0x100, mkMeta true false true 0x21)] }) [(1, 0x2001)])
    (sIs 3 0x521) = true := by decide +kernel
theorem test_bankop : settles (.bankop pfx0 .i64 .add 3 1 2) (regs ({ poke stew (2 ^ 41) [5] with cur := 416 })
    [(1, 0x0060000000000000), (2, 3), (3, 64)]) (fun t => t.byte (2 ^ 41) == 8 && t.byte (2 ^ 41 + 8) == 3) = true := by decide +kernel
theorem test_pref_wild : after (.pref pfx0 1 0) (regs bead0 [(1, 0x0030000000000001)]) (fun t => t.me.icnt == 1 && !t.me.inh) = true := by
  decide +kernel

/-! ### Page 2 (R196 to R219, R29 to R39) -/

theorem test_vadd_i8 : after (.vadd pfx0 .i8 0 none 3 1 2) (vregs bead0 [(1, 0x01FF), (2, 0x0102)])
    (fun t => laneOf (t.me.vReg 3) 1 0 == 1 && laneOf (t.me.vReg 3) 1 1 == 2 && t.me.flg == 0) = true := by decide +kernel
theorem test_vadd_inactive : after (.vadd pfx0 .i32 0 (some 0) 3 1 2) (vregs bead0 [(1, 5), (2, 6), (3, 7)])
    (fun t => laneOf (t.me.vReg 3) 4 0 == 7) = true := by decide +kernel
theorem test_vmul_f32 : after (.vmul pfx0 .f32 0 none 3 1 2) (vregs bead0 [(1, 0x3FC00000), (2, 0x40000000)])
    (fun t => laneOf (t.me.vReg 3) 4 0 == 0x40400000) = true := by decide +kernel
theorem test_vadd_nan : after (.vadd pfx0 .f16 0 none 3 1 2) (vregs bead0 [(1, 0x7E01), (2, 0x3C00)])
    (fun t => laneOf (t.me.vReg 3) 2 0 == 0x7E00) = true := by decide +kernel
theorem test_vcmp_lt : after (.vcmp pfx0 .f32 .lt 2 1 3) (vregs bead0 [(1, 0xBF800000), (3, 0x3F800000)])
    (fun t => (t.me.pReg 2).toNat % 32 == 0x0F) = true := by decide +kernel
theorem test_vrsum_signed : after (.vrsum pfx0 .i8 0 none 3 1) (vregs bead0 [(1, 0x02FF)]) (sIs 3 1) = true := by decide +kernel
theorem test_vperm_out : after (.vperm pfx0 .i64 none 3 1 2) (vregs bead0 [(1, 9), (2, 16)])
    (fun t => laneOf (t.me.vReg 3) 8 0 == 0 && laneOf (t.me.vReg 3) 8 1 == 9) = true := by decide +kernel
theorem test_pset : after (.pset pfx0 .i32 2 (.imm 2)) bead0 (fun t => t.me.pReg 2 == 0xFF) = true := by decide +kernel
theorem test_vlog2_pole : after (.vlog2 pfx0 .f32 0 none 3 1) bead0
    (fun t => laneOf (t.me.vReg 3) 4 0 == 0xFF800000 && t.me.flg == 0) = true := by decide +kernel

/-- R30's worked decoding of 0x9D: −1.25 × 2^−5. -/
theorem test_dm8_decode : (decodeDM8 0x9D 0x7F).1 = 0xBD200000 := by decide +kernel

/-- R32: the NaN scale makes every element NaN. -/
theorem test_dm8_nan_scale : (decodeDM8 0x00 0xFF).1 = 0x7FC00000 := by decide +kernel

/-- R39's block of largest magnitude 37.0: the scale 0x81. -/
theorem test_requantize_scale : (requantize [b32.decode 0x42140000]).2.1 = 0x81 := by decide +kernel

theorem test_vld_lanes : settles (.vld pfx0 .i64 0 none 3 1 0) (regs (poke bead0 0x2000 [5, 6]) [(1, 0x2000)])
    (fun t => laneOf (t.me.vReg 3) 8 0 == 5 && laneOf (t.me.vReg 3) 8 1 == 6) = true := by decide +kernel
theorem test_vst_lanes : settles (.vst pfx0 .i64 0 none 3 1 0) (vregs (regs bead0 [(1, 0x2000)]) [(3, 0x0102)])
    (fun t => t.byte 0x2000 == 2 && t.byte 0x2001 == 1) = true := by decide +kernel

/-! ### Page 3 (R221 to R265) -/

theorem test_tvset_extent0 : after (.tvset pfx0 1 5 1) bead0 (fun t => fld t.me.ecause 56 8 == 0x13) = true := by decide +kernel
theorem test_acq : after (.acq pfx0 2 (.imm 192)) bead0 (fun t => t.me.aReg 2 == some (64, 192)) = true := by decide +kernel
theorem test_tadd_defers : after (.tadd pfx0 0 false 3 1 2 0) tiles0
    (fun t => (t.tileAt 0).order == [0] && t.bytes (2 ^ 40 + 512) 4 == [0, 0, 0, 0]) = true := by decide +kernel
theorem test_tforce_adds : (match exec (.tadd pfx0 0 false 3 1 2 0) tiles0 with
    | .next t => settles (.tforce pfx0 3) t fun u => u.bytes (2 ^ 40 + 512) 4 == [0, 0, 0x60, 0x40] && (u.tileAt 0).nodes == []
    | .fault _ => false | .refused _ => false) = true := by decide +kernel
theorem test_tdrop : (match exec (.tadd pfx0 0 false 3 1 2 0) tiles0 with
    | .next t => settles (.tdropAll pfx0) t fun u => (u.tileAt 0).drop == 1 && (u.tileAt 0).nodes == []
    | .fault _ => false | .refused _ => false) = true := by decide +kernel
theorem test_arel_empty : after (.arel pfx0 2) bead0 (fun t => fld t.me.ecause 56 8 == 0x17) = true := by decide +kernel

/-! ### Pages 4 to 6 -/

theorem test_end_idles : after (.endBead pfx0 0) bead0 (fun t => t.me.mode == .idle && (t.slotAt ⟨0, 0, 0⟩).isNone) = true := by decide +kernel
theorem test_yield_requeues : after (.yield pfx0) bead0 (fun t => (t.rodAt 0 0).map Rod.ready == some [0] &&
    metaD (t.metaSeen ((t.slotAddr ⟨0, 0, 0⟩).toNat / 32)) && !metaD (t.metaSeen ((t.slotAddr ⟨0, 0, 1⟩).toNat / 32))) = true := by decide +kernel
theorem test_spawn_enqueues : after (.spawn pfx0 1 (.imm 0)) (regs (poke bead0 0x2000 [0x100040]) [(1, 0x2000)])
    (fun t => (t.slotAt ⟨0, 0, 1⟩).map (fun x => (x.record.code, x.use)) == some (0x100040, .ready) && t.me.spn == 1) = true := by
  decide +kernel
theorem test_barcfg_zero_rmask : after (.barcfg pfx0 1 1) bead0 (fun t => fld t.me.ecause 56 8 == 0x1B) = true := by decide +kernel
theorem test_barrier_alone : (match exec (.barcfg pfx0 1 1) (regs bead0 [(1, 2 ^ 21)]) with
    | .next t => settles (.arrive pfx0 .dflt ⟨true, false, false, false⟩ 1) t fun u => u.barAt 0 1 == { cfg := true, ph := 1, cfgw := 2 ^ 21 }
    | .fault _ => false | .refused _ => false) = true := by decide +kernel
theorem test_get_copies : settles (.get pfx0 3 1 2 0 0) (regs (poke bead0 0x2000 [5, 6, 7, 8]) [(1, 0x2000), (2, 32), (3, 0x0040000000000000)])
    (fun t => t.byte (2 ^ 40) == 5 && t.byte (2 ^ 40 + 24) == 8 && t.copies == []) = true := by decide +kernel
theorem test_lkpop_tile : after (.lkpop pfx0 1 2) bead0 (fun t => fld t.me.ecause 56 8 == 3) = true := by decide +kernel
theorem test_ctx_unbound : after (.settle pfx0 1 2 3) bead0 (fun t => fld t.me.ecause 56 8 == 0x1A && fld t.me.ecause 0 32 == 1) = true := by
  decide +kernel

/-- A signalling NaN in one lane sets NV (R34). -/
theorem test_vqnt_snan : after (.vqnt pfx0 .f32 true 4 8 1) (vregs bead0 [(8, 0x7F800001)]) (fun t => t.me.flg &&& fNV == fNV) = true := by
  decide +kernel

/-- The lists of the manual's PKL example: C1 with k = 2. -/
theorem test_pkl_select : (selectCands [⟨0xBF800000, 0⟩, ⟨0x40000000, 1⟩, ⟨0x3F000000, 2⟩, ⟨0x7FC00000, 3⟩, ⟨0x3FC00000, 4⟩,
    ⟨0x40400000, 5⟩, ⟨0xC0800000, 6⟩, ⟨0, 7⟩] 2).map Cand.idx = [5, 1] := by decide +kernel

theorem test_trap_entry : after (.trap pfx0 9) bead0 (fun t => t.me.inh && t.me.ecause == 0x0100000000000009 &&
    t.me.epc == bead0.me.npc && t.me.pc == 0x100000) = true := by decide +kernel
theorem test_eret_outside : after (.eret pfx0) bead0 (fun t => fld t.me.ecause 56 8 == 3) = true := by decide +kernel
theorem test_wsw_secure : after (.wsw pfx0 9) bead0 (fun t => t.me.world && t.me.ecause == 0x0200000000000009 && !t.me.pw) = true := by
  decide +kernel
theorem test_double_trap : after (.jr 1) (inHandler (regs bead0 [(1, 1)]))
    (fun t => t.me.mode == .idle && (t.slotAt ⟨0, 0, 0⟩).map BeadSlot.use == some .lost) = true := by decide +kernel
theorem test_park_in_handler : after (.park pfx0 1 0) (inHandler { regs bead0 [(1, 0x2000)] with gmeta := [(0x100, mkMeta true false true 0)] })
    (fun t => t.me.mode == .idle && (t.slotAt ⟨0, 0, 0⟩).map BeadSlot.use == some .lost) = true := by decide +kernel
theorem test_idle_waits : after (.idle pfx0 1) stew (fun t => t.me.pc == 0x1000 && t.me.icnt == 0) = true := by decide +kernel
theorem test_idle_event : after (.idle pfx0 1) (stew.post 0 4 none 0 7) (sIs 1 0x04FF000000000007) = true := by decide +kernel
theorem test_mcack : after (.mcack pfx0 1) (regs (stew.modDie 0 fun d => { d with checks := [(1, 5), (2, 6)] }) [(1, 2)])
    (fun t => (t.dieAt 0).checks == [(1, 5)]) = true := by decide +kernel
theorem test_pdrn_unknown : after (.pdrnSave pfx0 3 1 2) (regs stew [(1, 9)]) (sIs 3 (-1)) = true := by decide +kernel

/-! ### Device steps (R67 to R71, R385, R392 to R400) -/

theorem test_nop_command : after .hcqtDoorbell
    (holding { bead0 with host := { state := 3, hcqb := 0x100 }, hostMem := [(0x100, 9)] } (.hcqtDoorbell 1))
    (fun t => t.pend == [.hostNopCommand 9] && t.host.hcqh == 1) = true := by decide +kernel
theorem test_completion_phase : after .completionWrite
    (holding { bead0 with host := { hcpt := 15, hcph := 3, held := [{ stat := 6, ctag := 3, enk := 0, cyc := 0 }] } } .completionWrite)
    (fun t => t.hostBytes 480 8 == [3, 0, 0, 0, 1, 0, 6, 0] && !t.host.phase && t.host.hcpt == 0) = true := by decide +kernel
theorem test_boot_no_images : after .deviceReset (holding bead0 (.deviceReset true []))
    (fun t => t.host.state == 4 && t.host.fail == 1) = true := by decide +kernel
theorem test_dead_link : after .linkDeadDeclaration (holding State.reset (.linkDeadDeclaration 0 3))
    (fun t => (t.dieAt 3).events.length == 1 && t.timers == [.drainRoundExpiry 0 3 1]) = true := by decide +kernel

/-! ### States that meet the hypotheses of the statements, clause by clause -/

def okIs {α ε : Type} (r : Except ε α) (p : α → Bool) : Bool := match r with | .ok x => p x | .error _ => false
def errIs {α ε : Type} (r : Except ε α) (p : ε → Bool) : Bool := match r with | .error x => p x | .ok _ => false
def has {α : Type} (r : Option α) (p : α → Bool) : Bool := match r with | some x => p x | none => false
def alls (l : List Bool) : Bool := l.all id

/-- A device step at hand, executed. -/
def done (s : State) (e : Ev) : State := match exec e.instr (holding s e) with | .next t => t | .fault _ => s | .refused _ => s
def ran (i : Instr) (s : State) : State := match exec i s with | .next t => t | .fault _ => s | .refused _ => s
def cIss (s : State) : Issuer := s.issuer s.cur .c

theorem witness_ScalarBitsAndPointers : 1 ≤ 1 ∧ 63 + 1 ≤ 64 ∧ 1 ≤ 64 ∧ 0 + 64 ≤ 64 := by decide

def jumps (b : Word) : State := regs (poke bead0 0x2000 [2, 0x100040, 0x100041]) [(1, 0x2000), (2, b), (3, 0x100041)]

/-- A JR target even and odd; a table of two entries indexed at 2 (past its end), at 0 (even) and at 1 (odd). -/
theorem witness_Jumps : alls [(jumps 2).sr 1 % 2 == 0, (jumps 2).sr 3 % 2 == 1, ((jumps 2).sr 1).toNat % 8 == 0,
    okIs ((jumps 2).loadC 0x2000 8) (fun b => leNat b % 2 ^ 32 ≤ ((jumps 2).sr 2).toNat),
    okIs ((jumps 1).loadC 0x2000 8) (fun b => ((jumps 1).sr 2).toNat < leNat b % 2 ^ 32),
    okIs (((jumps 0).noteRange (cIss (jumps 0)) 0x2000 8).loadC 0x2008 8) (fun b => leNat b % 2 == 0),
    okIs (((jumps 1).noteRange (cIss (jumps 1)) 0x2000 8).loadC 0x2010 8) (fun b => leNat b % 2 == 1)] = true := by decide +kernel

theorem witness_CsrReads : alls [0x000 != 0x050, (secure bead0).me.world] = true ∧ bead0.cur < 384 ∧ 3 < 4 := by decide +kernel
theorem witness_CsrWrites : alls [0x019 != 0x050, (secure bead0).me.world, bead0.partOf bead0.cur == some 0] = true := by decide +kernel

/-- A fault area of two records at 0x5000 on a tile and on a link core; HEAD is 1. -/
def areaKd : List Word := slotZeroKd.set 6 0x5000
def areaS : State := (poke bead0 0x5000 [2, 1]).modPart 0 fun p => { p with kd := areaKd }
def areaL : State := { poke bead0 0x5000 [2, 1] with cur := 384, links := [(0, { bound := true, kd := areaKd })] }
def areaOk (s : State) (k : Nat) : Bool := let i := deviceIssuer k (some 0) false areaKd
  okIs (s.readWhole i 0x5000 16) (fun hd => leNat (hd.take 4) == 2 && leNat (hd.drop 8) == 1) &&
  okIs (s.writeWhole i (padd 0x5000 (128 * (1 + 1 % 2) : Nat)) 128) (· == [(0x5100, 32), (0x5120, 32), (0x5140, 32), (0x5160, 32)]) &&
  okIs (s.writeWhole i (padd 0x5000 8) 8) (· == [(0x5008, 8)])
theorem witness_TrapEntry : alls [!(bead0.coreAt 0).inh, !(stew.coreAt 416).inh, areaOk areaS 0, isTile 0, (areaS.tileAt 0).part == some 0,
    has (areaS.partAt 0) (fun x => x.kd == areaKd && tileAtXY x.x0 x.y0 == 0 && !x.world), areaOk areaL 384, isLink 384, areaS.moves == [],
    !(areaL.linkAt 0).world, (areaL.linkAt 0).part == 0] = true := by decide +kernel
theorem witness_TrapInstructions : alls [!bead0.me.inh, !bead0.me.world, (secure bead0).me.world, (inHandler bead0).me.inh] = true := by
  decide +kernel
theorem witness_DoubleTrap : alls [((inHandler bead0).coreAt 0).inh, ((inHandler bead0).coreAt 0).bead == some ⟨0, 0, 0⟩,
    ((inHandler bead0).slotAt ⟨0, 0, 0⟩).isSome, areaOk (inHandler areaS) 0, ((inHandler areaS).slotAt ⟨0, 0, 0⟩).isSome,
    (((inHandler areaS).record 0 { cause := 0x20, info := 3 } 0x100000).dieAt ((inHandler areaS).stewardDie 0)).events.length < 256] = true := by
  decide +kernel

/-- Raw bytes, and a DM8 element whose scale byte is 0x80, at the last element of a line. -/
def memS : State := regs (poke (poke bead0 (2 ^ 40) [0x9D]) (2 ^ 40 + 0x1FE000) [0x80]) [(1, 0x2000), (2, 3), (3, 0xABCD), (4, 0x0040000001000000)]

def reaches (s : State) (va : Word) (n : Nat) (wr : Bool) (loc : Nat) : Bool :=
  va.toNat % n == 0 && okIs (s.translate (cIss s) va n wr false) (· == .mem loc) && okIs (s.memCheck (cIss s) va loc n (!wr)) fun _ => true

theorem witness_ScalarLoads : alls [reaches memS (padd (memS.sr 1) (-2)) (accessSize 0x1FFE .i16) false 0x1FFE,
    reaches memS (memS.indexed .i64 1 2) 8 false 0x2018, okIs (memS.scaleFor (cIss memS) 0x1FFE 0x1FFE) (· == 0),
    windowOf 0x1FFE == 0, Ty.i16 != .dm8,
    reaches memS 0x0040000001000000 1 false (2 ^ 40), okIs (memS.scaleFor (cIss memS) 0x0040000001000000 (2 ^ 40)) (· == 0x80)] = true := by
  decide +kernel

theorem witness_ScalarStores : alls [reaches memS (padd (memS.sr 1) (-2)) (accessSize 0x1FFE .i16) true 0x1FFE,
    okIs (memS.scaleFor (cIss memS) 0x1FFE 0x1FFE) fun _ => true,
    (memS.useTlb 0x1FFE).storeWaits [{ lane := 0, va := 0x1FFE, loc := 0x1FFE, n := 2 }] == [],
    reaches memS 0x0040000001000000 1 true (2 ^ 40),
    (memS.useTlb 0x0040000001000000).storeWaits [{ lane := 0, va := 0x0040000001000000, loc := 2 ^ 40, n := 1 }] == []] = true := by
  decide +kernel

/-- The steward reads the RAMP floor register; home unit 2 lies on device 5, to which packets get through or not; the page of
0x4000 is an import of device 6's entry 0, which that device has not exported, exports for reading to this key, or to another. -/
def sysS : State := regs stew [(1, 0x00F0710000000000)]
def peerS : State := { regs bead0 [(1, 0x2000)] with sys := [(sysKey (unitBlock 2) (unitOff 2), 5 * 2 ^ 32 + 7)] }
/-- Three levels of a page table at 0x20000: the first 2 MiB at their own addresses. -/
def paged (s : State) : State := poke (poke (poke s 0x20000 [0x8C00000000022000]) 0x22000 [0x8C00000000024000]) 0x24000 [0xB200000000000000]
/-- Link core 0; the next 2 MiB are an import page. -/
def impS (xs : List Export) (gone : List Nat) : State :=
  { regs (poke (paged State.reset) 0x24008 [0xA600600900000000]) [] with
    cur := 384, sys := [(sysKey 0x001 0, 0x20001)], exports := xs.map fun x => (256 * 6, x), lost := gone }
def impVa : Word := 0x200010
def impOk (s : State) (n : Nat) (p : Place → Bool) : Bool :=
  okIs (s.globalHome (cIss s) impVa n false false) (· == .imp 6 0 9 0x10) && okIs (s.translate (cIss s) impVa n false false) p
theorem witness_LoadsElsewhere : alls [okIs (sysS.translate (cIss sysS) (padd (sysS.sr 1) 0) 8 false false) (· == .sys 0x071 0),
    (padd (sysS.sr 1) 0).toNat % 8 == 0, windowOf (padd (sysS.sr 1) 0) == 0, okIs (peerS.translate (cIss peerS) 0x2000 2 false false) (· == .mem (frameBase 5 + 0x7000)),
    okIs (({ peerS with lost := [5] } : State).translate (cIss peerS) 0x2000 2 false false) (· == .gone true), spaceOf impVa == 0,
    impOk (impS [] [6]) 8 (· == .gone true), impOk (impS [] []) 8 (· == .gone false),
    impOk (impS [{ key := 9, secure := false, wr := false, len := 1 }] []) 8 (· == .mem (importBase 6 0 + 0x10)),
    impOk (impS [{ key := 8, secure := false, wr := false, len := 1 }] []) 8 (· == .gone false)] = true := by decide +kernel

/-- An odd address; a space that does not exist, aligned and not; an address that faults and one beyond TTBN's enable. -/
theorem witness_AccessFaults :
    alls [okIs (memS.translate (cIss memS) 0x2001 2 false false) (fun _ => true), 0x2001 % 2 != 0,
      errIs (memS.translate (cIss memS) 0x0030000000000001 8 true false) (fun f => f.cause == 0x07),
      errIs (memS.translate (cIss memS) 0x0030000000000000 8 false false) (fun _ => true)] = true := by decide +kernel

/-- A heap window of home offset 0xFFC, which lays the word at 0x2000 over home units 2 and 3; the data of unit 3 lie at 0x9000. -/
def shiftS : State :=
  let s := (regs bead0 [(1, 0x2000), (2, 3), (3, 0xABCD)]).modPart 0 fun p => { p with kd := p.kd.set 11 0xFFC }
  { s with sys := [(sysKey (unitBlock 3) (unitOff 3), 9)] }
def atomOk (s : State) (n : Nat) (p : Place) (loc : Nat) : Bool :=
  (s.sr 1).toNat % n == 0 && okIs (s.translate (cIss s) (s.sr 1) n true false) (· == p) &&
  okIs (s.spanCheck (cIss s) (s.sr 1) loc n false) (fun _ => true) && !s.spanPoisoned loc n
theorem witness_Atomics : alls [atomSpace 0x2000, atomOk memS 8 (.mem 0x2000) 0x2000, atomOk memS 4 (.mem 0x2000) 0x2000,
    atomOk shiftS 8 (.split 0x2FFC 4 0x9000) 0x2FFC, shiftS.runsFrom 0x2FFC 8 == [(0x2FFC, 4), (0x9000, 4)], shiftS.moves == [],
    (shiftS.clearR shiftS.cur).spanLook 0x2FFC 8 == shiftS.bytesIn [(0x2FFC, 4), (0x9000, 4)]] = true := by decide +kernel
theorem witness_Atomics_apart : Begins (.mem 0x2000) 0x2000 ∧ Begins (.split 0x2FFC 4 0x9000) 0x2FFC ∧ memS.Apart [(0x2000, 8)] ∧
    shiftS.Apart [(0x2FFC, 4), (0x9000, 4)] :=
  ⟨.inl rfl, .inr ⟨4, 0x9000, rfl⟩, .inl ⟨_, rfl, by decide⟩, .inr ⟨by decide, .inl (by decide +kernel)⟩⟩

/-- The last line of Commons slice 0, two lines at its start, no line; one line of 4-byte and of 8-byte words, and none left. -/
def bankS (va len : Word) : State := regs stew [(1, va), (2, 3), (3, len)]
def bankOk (va : Word) (len : Nat) (loc : Nat) : Bool := let s := bankS va (BitVec.ofNat 64 len)
  spaceOf (s.sr 1) == 6 && (s.sr 1).toNat % 64 == 0 && (s.sr 3).toNat % 64 == 0 && decide (fld (s.sr 1) 0 23 + (s.sr 3).toNat ≤ 0x800000) &&
    (List.range (len / 64)).all fun j => okIs (s.translate (cIss s) (padd (s.sr 1) (64 * j : Nat)) 64 true false) (· == .mem (loc + 64 * j)) &&
      s.tagMiss (loc + 64 * j) 64 (tagOf (s.sr 1)) == none
def bankQ (left n : Nat) : BankLine := { core := 416, loc := 2 ^ 41, left := left, fn := .add, n := n, signed := true, flt := false, b := 3 }
theorem witness_BankOperations : alls [bankOk 0x0060000000000000 0 (2 ^ 41), bankOk 0x00600000007FFFC0 64 (2 ^ 41 + 0x7FFFC0), bankOk 0x0060000000000000 128 (2 ^ 41),
    ((bankS 0 0).sr 3).toNat == 0, ((bankS 0 64).sr 3).toNat != 0, (holding stew (.bankopLineApply (bankQ 0 4))).msg == some (.bankopLineApply (bankQ 0 4)),
    !(holding stew (.bankopLineApply (bankQ 2 4))).poisoned (2 ^ 41) 64, !(holding stew (.bankopLineApply (bankQ 1 8))).poisoned (2 ^ 41) 64, (1 : Nat) < (bankQ 2 4).left]
    = true := by decide +kernel

/-- Words at the ends of their range; a NaN, no NaN, zeros of both signs and a lesser and a greater value. -/
theorem witness_BankOperations_values : (2 ^ 64 - 1 < 2 ^ 64 ∧ 2 ^ 32 - 1 < 2 ^ 32 ∧ (32 = 32 ∨ 32 = 64)) ∧
    ((b32.decode 0x7F800001).isNaN = true ∧ (b32.decode 0x80000000).isNaN = false ∧ (b32.decode 0).isNaN = false) ∧
    ((b32.decode 0x80000000).cmp (b32.decode 0) = 0 ∧ (b32.decode 0x80000000).isNeg = true ∧ (b32.decode 0).isNeg = false) ∧
    (b32.decode 0xFF800000).cmp (b32.decode 0x7F800000) < 0 := by decide +kernel

theorem witness_FutureFills : alls [okIs (memS.cellPlace (cIss memS) (padd (memS.sr 1) 0) true) (· == .mem 0x2000),
    okIs (memS.spanCheck (cIss memS) 0x2000 0x2000 8 false) (fun _ => true), 0x2000 % 32 + 8 ≤ 32,
    okIs (shiftS.cellPlace (cIss shiftS) (padd (shiftS.sr 1) 0) true) (· == .split 0x2FFC 4 0x9000),
    okIs (shiftS.spanCheck (cIss shiftS) 0x2000 0x2FFC 8 false) fun _ => true] = true := by decide +kernel

def fullS : State := { poke memS 0x2000 [7] with gmeta := [(0x100, mkMeta true false true 0)] }
theorem witness_FutureTests : alls [(inHandler memS).me.inh, !memS.me.inh, (inHandler memS).me.bead == some ⟨0, 0, 0⟩, memS.me.bead == some ⟨0, 0, 0⟩, (memS.unitAt 0).tableCount < 1024,
    okIs (memS.cellPlace (cIss memS) 0x2000 false) (· == .mem 0x2000), okIs (memS.spanCheck (cIss memS) 0x2000 0x2000 8 true) fun _ => true,
    leNat (memS.spanLook 0x2000 8) == 0, metaF (fullS.metaAt (0x2000 / 32)),
    okIs (fullS.cellPlace (cIss fullS) 0x2000 false) (· == .mem 0x2000), okIs (fullS.spanCheck (cIss fullS) 0x2000 0x2000 8 true) fun _ => true] = true := by
  decide +kernel

/-- The test that an LDF of an empty cell sends. -/
def parkS : State := ran (.ldf pfx0 3 1 0) memS
def parkQ : TestReq := match parkS.pend with | [.testAndRegisterReply q] => q | _ => { core := 0, pc := 0, va := 0, loc := 0, test := .ldf 0 }
theorem witness_ParkingAndWaking : parkQ.core = 0 ∧ alls [(parkS.coreAt 0).bead == some ⟨0, 0, 0⟩,
    has (parkS.rodAt 0 0) fun r => (Map.find? r.slots 0).isSome, okIs (parkS.spanCheck (parkS.issuer 0 .c) parkQ.va parkQ.loc 8 true) fun _ => true,
    testHolds parkQ.test (metaF (parkS.metaAt (parkQ.loc / 32))) (leNat (parkS.spanLook parkQ.loc 8)) == false,
    !(parkS.coreAt 0).inh, (parkS.coreAt 0).a == [], (parkS.tileAt 0).order == [], parkQ.loc == 0x2000,
    (parkS.unitAt 0).park.map (fun e => (e.slot, e.granule, e.marked)) == [(⟨0, 0, 0⟩, parkS.granuleKey 0x100, false)],
    (wakeUnits 0x100).contains 0, ((List.range 84).all fun v => v == 0 || (parkS.unitAt v).park == []), parkS.peerParks == []] = true := by
  decide +kernel

/-- Three beads parked on one granule: SEQ has wrapped between the first two, and the test of the third is under way. -/
def entry0 (slot seq : Nat) (w : Bool) : ParkEntry := { granule := 0x100, world := false, slot := ⟨0, 0, slot⟩, seq := seq, waiting := w, marked := false }
def wakesS : State := (bead0.modRod 0 0 fun r => { r with slots := (List.range 3).map fun n => (n, { record := {}, use := .parked, uid := n }) }).modUnit 0
  fun u => { u with park := [entry0 1 1 false, entry0 0 (2 ^ 24 - 1) false, entry0 2 0 true], parkSeq := 2 }
theorem witness_ParkingAndWaking_several : (let es := [entry0 0 (2 ^ 24 - 1) false, entry0 1 1 false]
    let u := wakesS.unitAt 0
    alls [(wakeUnits 0x100).contains 0, wakesS.granuleKey 0x100 == 0x100, es.all fun e => u.park.contains e && e.granule == 0x100 && !e.waiting,
      (u.park.filter fun e => e.granule == 0x100 && !e.waiting).all es.contains, es.all fun e => e.slot.unit == 0 && (wakesS.slotAt e.slot).isSome,
      parkAge u.parkSeq 1 < parkAge u.parkSeq (2 ^ 24 - 1), (List.range 84).all fun w => w == 0 || (wakesS.unitAt w).park == [],
      (done wakesS (.parkTableWake 0x100) |>.rodAt 0 0).map Rod.ready == some [0, 1]]) = true ∧
    ((wakesS.unitAt 0).park.map ParkEntry.slot).Nodup := by decide +kernel

/-- A tile core without a heap window, whose TLB is empty: s1 an address that a walk finds, s2 a length over two pieces. -/
def walkS : State := { regs (paged (bead0.modPart 0 fun p => { p with kd := p.kd.set 10 0 })) [(1, 0xFFF8), (2, 16)] with sys := [(sysKey 0x001 0, 0x20001)] }
theorem witness_CacheInstructions : alls [spaceOf (walkS.sr 1) == 0, !inHeap (cIss walkS) (max (fld (walkS.sr 1) 0 52) (0xFFF8 / 65536 * 65536)),
    !inHeap (cIss walkS) (max (fld (walkS.sr 1) 0 52) (0x10007 / 65536 * 65536)), has (walkS.walk walkS.me.world 0xFFF8) fun e => e.2,
    (walkS.walk walkS.me.world 0x10000).isSome, walkS.me.tlb == [], walkS.cur < 416, spaceOf (memS.sr 4) != 0] = true := by decide +kernel

theorem witness_GranuleTags : (let s := regs bead0 [(1, 0x2000), (2, 0x7F), (3, 64)]
    alls [tagSpace 0x2000, 0x2000 % 32 == 0, (regs bead0 [(1, 0x2000)]).sr 3 == 0, (s.sr 3).toNat % 32 == 0, (s.sr 3).toNat != 0,
      0x2000 % 65536 + (s.sr 3).toNat ≤ 65536, okIs (s.translate (cIss s) 0x2000 64 true false) (fun _ => true),
      okIs (s.tagPieces (cIss s) (unitPieces 0x2000 17 64)) (· == [(0x2000, 64)]),
      okIs (s.translate (cIss s) 0x2000 1 false false) (· == .mem 0x2000)]) = true := by decide +kernel

theorem witness_VectorIntegerLanes : Ty.i8.isFloat = false ∧ Ty.i8 ≠ .dm8 ∧ Ty.i8.isSigned = true := by decide
theorem witness_VectorFloatLanes : Ty.f16.isFloat = true ∧ (b16.decode 0x7E00).isNaN = true ∧ (b16.decode 0x3C00).isNaN = false ∧
    (0x8000 < 0x8001 ∧ 0xFBFF < 0xFC00) ∧ (1 % 0x8000 ≠ 0 ∧ 0xFBFF % 0x8000 < 0x7C00) := by
  decide +kernel
/-- A signalling NaN in lane 0 of v1, none in v2; a DM8 type. -/
theorem witness_VectorMovesAndPredicates : Ty.u32.isFloat = false ∧ Ty.u32 ≠ .dm8 ∧ Ty.f32.isFloat = true ∧
    (let s := vregs bead0 [(1, 0x7F800001)]
     0 < laneCount 4 ∧ (b32.decode (laneOf (s.me.vReg 1) 4 0)).isNaN = true ∧ laneOf (s.me.vReg 1) 4 0 / 2 ^ (Ty.f32.fmt.p - 2) % 2 = 0 ∧
      ∀ j, j < laneCount 4 → (b32.decode (laneOf (s.me.vReg 2) 4 j)).isNaN = false) := by decide +kernel

/-- No lane active (p0 is 0 in a new bead), and every lane; a NaN in one lane of v1. -/
def actLanes (gov : Option Nat) : List Nat := (List.range (laneCount 2)).filter fun j => bead0.me.active gov 2 j
theorem witness_VectorReductions : Ty.i16.isFloat = false ∧ Ty.i16 ≠ .dm8 ∧ Ty.f16.isFloat = true ∧ actLanes (some 0) = [] ∧ actLanes none ≠ [] ∧
    (∀ j ∈ actLanes none, (b16.decode (laneOf (bead0.me.vReg 2) 2 j)).isNaN = false) ∧
    ∃ j ∈ actLanes none, (b16.decode (laneOf ((vregs bead0 [(1, 0x7E00)]).me.vReg 1) 2 j)).isNaN = true := by decide +kernel
theorem witness_VectorConversions : (255 < 256 ∧ Ty.f16 = .f16) ∧ (31 < 32 ∧ Ty.f32 = .f32) ∧ Ty.f32 ≠ .dm8 := by decide
/-- The least and the greatest product of a code and a scale; a value at 15.75, below it and halfway between two codes; the rows
of the conversion table: a value of a narrower format, a NaN, an infinity, an integer in range and one that is not. -/
theorem witness_VectorConversions_values : (3 < 4 ∧ 15 < 16) ∧ (dm8Mag 1 * 2 ^ 0 < 2 ^ 274 ∧ 2 ^ 274 ≤ dm8Mag 127 * 2 ^ 254) ∧
    (0 ≤ (Val.fin false 63 1 (-2)).cmp (.fin false 63 1 (-2)) ∧ (Val.fin false 1 1 0).cmp (.fin false 63 1 (-2)) < 0) ∧
    ((b32.decode 0).isZero = true ∧ (b32.decode 0x7F800000).isInf = true ∧ (b32.decode 0x3F800000).isZero = false) ∧
    (0 ≤ (b32.decode 0x3F800000).abs.cmp (.fin false 1 1 0) ∧ (b32.decode 0x3F800000).abs.cmp (.fin false 1 1 1) < 0) ∧
    (Ty.f16.fmt.decode 0x3C00).isNaN = false ∧ (Ty.f16.fmt.decode 0x7E00).isNaN = true ∧ Ty.f16.fmt.decode 0xFC00 = .inf true ∧
    (RoundsInt 0 (.fin false 5 1 (-1)) 2 ∧ RoundsInt 1 (.fin true 5 1 (-1)) (-2) ∧ RoundsInt 2 (.fin true 5 1 (-1)) (-2) ∧
      RoundsInt 3 (.fin false 5 1 (-1)) 2) := by
  refine ⟨by decide, by decide +kernel, by decide +kernel, by decide +kernel, by decide +kernel, by decide +kernel, by decide +kernel,
    by decide +kernel, ?_⟩
  simp only [RoundsInt]; decide +kernel

/-- All 16 lanes of eight bytes from 0x2000, and two lanes indexed. -/
def vecS : State := vregs (bead0.setMe ((bead0.me.setP 1 0x0101).setS 1 0x2000)) [(2, 3)]
def lanesOf (ls : List (Nat × Word)) (n : Nat) : List Lane := ls.map fun l => { lane := l.1, va := l.2, loc := l.2.toNat, n := n }
def lanes (s : State) (ls : List (Nat × Word)) (n : Nat) (wr : Bool) : Bool :=
  okIs (s.spots (cIss s) n wr true (s.firstKey (cIss s) ls) ls) (· == (lanesOf ls n).map Spot.here) &&
  okIs ((ls.foldl (fun t l => t.useTlb l.2) s).checkLanes (cIss s) (lanesOf ls n) (!wr)) fun _ => true
theorem witness_VectorMemory : (let ea : Word := 0x2000
    let es := vecS.lanePtrs .i64 none fun j => padd ea (8 * j : Nat)
    let xs := vecS.lanePtrs .i64 (some 1) (vecS.indexedPtr .i64 ea 8 2)
    alls [!dm8Barred ea .i64, ea.toNat % 8 == 0, laneSize ea .i64 == 8, es.length == 16, xs.length == 2, lanes vecS es 8 false, lanes vecS es 8 true,
      lanes vecS xs 8 false, lanes vecS xs 8 true,
      (es.foldl (fun t l => t.useTlb l.2) vecS).storeWaits (lanesOf es 8) == [], lanes vecS [] 8 false, lanes vecS [] 8 true,
      vecS.lanePtrs .i64 (some 0) (fun _ => 0) == [], es.all fun l => okIs (vecS.scaleFor (cIss vecS) l.2 l.2.toNat) fun _ => true]) = true := by
  decide +kernel

theorem witness_WhereInstructionsRun : alls [!bead0.me.world, !isTile stew.cur, isSteward stew.cur] = true := by decide +kernel

/-- A descriptor in memory, and one of extent 0; t1 loaded and t9 not. -/
def viewS : State := views (regs (poke bead0 0x2000 [0x0040000003000000, 0x0001000100010001, 0, 0, 0, 0, 0, 0]) [(1, 0x2000), (2, 0x2020), (3, 0x2008)]) [(1, view1 0)]
theorem witness_ViewRegisters : alls [isTile viewS.cur, (padd (viewS.sr 1) 0).toNat % 32 == 0, (padd (viewS.sr 3) 0).toNat % 32 != 0,
    okIs (viewS.loadC 0x2000 32) (fun b => (viewS.noteRange (cIss viewS) 0x2000 32).viewOk 0 (BitVec.ofNat 256 (leNat b))),
    okIs (viewS.loadC 0x2020 32) (fun b => !(viewS.noteRange (cIss viewS) 0x2020 32).viewOk 0 (BitVec.ofNat 256 (leNat b))),
    viewS.viewOk 0 (View.setWord ((viewS.me.tReg 9).getD View.blank) 0 0x0040000003000000),
    !viewS.viewOk 0 (View.setWord ((viewS.me.tReg 1).getD View.blank) 1 0)] = true ∧ 0 < 4 ∧ 3 < 4 := by decide +kernel

/-- Every length of ACQ at its limits; no run of 192 once banks 64 and 255 are held; a handle that a pending node's banks name. -/
def heldS : State := regs (bead0.setMe { bead0.me with a := [(1, (64, 1)), (2, (255, 1))] }) [(1, 192), (2, 1), (3, 193), (4, 2)]
/-- An element of handle 1's bank. -/
def acc1 : ViewReg := View.ofWords 1 0x0001000100010001 0 (2 ^ 62)
def nodeS : State := ran (.tadd pfx0 0 false 3 1 2 0) (views heldS [(1, view1 0), (2, view1 256), (3, acc1)])
theorem witness_AccumulatorHandles : alls [isTile heldS.cur, heldS.me.aReg 3 == none, heldS.me.freeRun 1 == some 65,
    heldS.me.freeRun 192 == none, bead0.me.freeRun 192 == some 64, heldS.me.aReg 1 != none, (heldS.sr 3).toNat == 193, (heldS.sr 0).toNat == 0,
    heldS.me.aReg 15 == none, heldS.me.aReg 2 == some (255, 1), heldS.nodesOnBanks 0 (255, 1) == [], !heldS.me.inh,
    nodeS.me.aReg 1 == some (64, 1), nodeS.nodesOnBanks 0 (64, 1) != [], !nodeS.me.inh] = true := by decide +kernel

/-- binary16 operands of a product. -/
def prodS : State := views tiles0 [(4, View.ofWords 0x0040000002000400 0x0001000100010001 0 0), (5, View.ofWords 0x0040000002000500 0x0001000100010001 0 0)]
def tiles1 : State := ran (.tadd pfx0 0 false 3 1 2 0) tiles0
theorem witness_TileAppends : alls [isTile tiles0.cur, okIs (tiles0.checkOrigin 3 1 2 0) (fun ap => tiles0.nodesOver 0 (tiles0.span 0 true ap.dst) == []),
    (tiles0.tileAt 0).freeEntry == some 0, errIs (tiles0.checkOrigin 4 1 2 0) (fun f => f.cause == 0x13), tiles0.me.tReg 4 == none,
    errIs (tiles0.checkOrigin 3 1 4 0) (fun f => f.cause == 0x13), errIs (tiles0.checkProduct 0 [0] 3 1 4) (fun f => f.cause == 0x13),
    errIs (tiles0.checkOrigin 3 1 2 1) (fun _ => true), okIs (prodS.checkProduct 0 [0] 3 4 5) (fun _ => true),
    okIs (tiles0.checkPlain 3 [1] (shapeTwo rowShape) anyType allPlain) (fun _ => true),
    okIs (tiles1.checkOrigin 3 1 2 0) (fun ap => tiles1.nodesOver 0 (tiles1.span 0 true ap.dst) != []), !tiles1.me.inh] = true := by decide +kernel

/-- Each of the checks: a handle that holds no bank, an index view, an extent, a format, an overlap. -/
theorem witness_TileAppends_checks : (let s := views prodS [(6, View.ofWords 1 0x0001000100010001 0 (2 ^ 62)), (7, View.ofWords 0x0040000003000800 0x0001000100010002 0 0)]
    let bad (r : Except FaultInfo Appended) (c : Nat) : Bool := match r with | .error f => f.cause == c | .ok _ => false
    alls [bad (s.checkOrigin 6 1 2 0) 0x17, bad (s.checkProduct 0 [2] 3 4 5) 0x13, bad (s.checkOrigin 3 7 2 0) 0x14, bad (s.checkProduct 0 [0] 3 4 1) 0x15,
      bad (s.checkProduct 0 [0] 4 4 5) 0x16, okIs (s.checkOrigin 1 1 2 0) fun _ => true]) = true := by decide +kernel

theorem witness_TileForces : alls [isTile tiles1.cur, !tiles1.me.inh, okIs (tiles1.regionOf 3) (fun r => r.isSome),
    okIs (tiles1.regionOf 1) (fun _ => true), errIs (tiles1.regionOf 9) (fun _ => true), okIs (tiles1.checkStore 1 3) (fun _ => true),
    errIs (tiles1.checkStore 9 3) (fun _ => true), okIs (tiles0.regionOf 3) (fun _ => true),
    (holding tiles1 (.tdropService 0 [0])).msg == some (.tdropService 0 [0]), (tiles1.nodeAt 0 0).isSome, (tiles1.tileAt 0).drop ≤ 255]
    = true ∧ [0].Nodup := by decide +kernel

/-- The demand of a TFORCE, its output tile's evaluation, and the demand of a store that has met a fault. -/
def demandS : State := ran (.tforce pfx0 3) tiles1
def servedS : State := done { demandS with pend := [] } (.demandServe 0)
def evaledS : State := done servedS (.outputTileEvaluate 0 0 0)
def faultedS : State := { demandS with tiles := [(0, { demandS.tileAt 0 with demand := (demandS.tileAt 0).demand.map fun d => { d with fault := some { cause := 0x19 } } })] }
def stepOk (s : State) (p : Node → Demand → Bool) : Bool :=
  has (s.tileAt 0).demand fun d => has (s.stepNode 0 0 d) fun n => d.fault == none && p n d
def groupOf (s : State) (n : Node) : List Reserve :=
  (s.tileAt 0).reserve.filter fun e => e.node == 0 && (s.blockClose 0 n.dst [0]).contains e.out
/-- The same for an element in an accumulator, for one in window 1, and for an operand that cannot be read. -/
def evaluated (s : State) : State := done (done { ran (.tforceAll pfx0) s with pend := [] } (.demandServe 0)) (.outputTileEvaluate 0 0 0)
def accS : State := evaluated nodeS
def dm8S : State := evaluated (ran (.tqnt pfx0 2 1) (views tiles0 [(2, View.ofWords 0x0040000001000200 0x0001000100010001 0 0)]))
def badS : State := { servedS with poison := [2 ^ 35] }
def region0 : EvuRegion := { bead := ⟨0, 0, 1⟩, ctx := 0, llo := 0, lhi := 0, plo := 0, phi := 0, wave := 1 }
/-- A second node reads the output of the first, and a TFORCE names the second alone. -/
def linkedS : State := ran (.tforce pfx0 4) (ran (.tadd pfx0 0 false 4 3 1 0) (views tiles1 [(4, view1 768)]))
theorem witness_DemandSteps_walks : alls [(linkedS.tileAt 0).order == [0, 1], has (linkedS.tileAt 0).demand (fun d => d.nodes.any fun e => e.1 == 1 && e.2 == [0]),
    has (linkedS.nodeAt 0 1) (fun y => linked y 0 && !bit512 y.want 0 && !bit512 y.done 0 && (linkedS.blockClose 0 y.dst [0]).contains 0 &&
      has (linkedS.nodeAt 0 0) fun w => !bit512 w.done 0 && (linkedS.tilesMeeting 0 w.dst (linkedS.readRuns 0 y [0])).contains 0),
    ([1, 0].all fun n => (done { linkedS with pend := [] } (.demandServe 0)).pend.contains (.outputTileEvaluate 0 n 0))] = true := by decide +kernel
theorem witness_DemandSteps : alls [has (demandS.tileAt 0).demand (fun d => d.fault == none && d.store == none && d.fin == .commit),
    has ((ran (.tstore pfx0 0 2 1) tiles0).tileAt 0).demand (fun d => has d.store fun x => 0 < View.tileCount x.1.desc),
    stepOk servedS fun n _ => okIs (servedS.evalTile 0 n 0) (fun v => v.length == 1) && n.op != .mul && View.kind n.dst.desc == 0 && View.win n.dst.desc != 1,
    (servedS.tileAt 0).residueMiss ≤ 2, stepOk badS fun n _ => errIs (badS.evalTile 0 n 0) fun _ => true,
    stepOk evaledS fun n _ => okIs (evaledS.checkWrites 0 ((groupOf evaledS n).flatMap (plainWrites n))) fun ps => ps.length == 1,
    stepOk accS fun n _ => View.kind n.dst.desc == 1 && accS.moves == [] && decide ((groupElems (accS.viewLoc 0 n.dst) n.dst.desc (groupOf accS n)).length = 1),
    stepOk dm8S fun n _ => View.kind n.dst.desc == 0 && View.win n.dst.desc == 1 && dm8S.moves == [] &&
      groupElems (dm8S.viewLoc 0 n.dst) n.dst.desc (groupOf dm8S n) == [(2 ^ 40 + 0x200, 0x3FC00000)] &&
      dm8S.scaleLoc (scratchOf (2 ^ 40 + 0x200)).1 (scratchOf (2 ^ 40 + 0x200)).2 == some (2 ^ 40 + 0x1FE002) && dm8S.poison == [] &&
      (List.range 8).all fun g => okIs (dm8S.writePlace (dm8S.evalIssuer 0) (padd (View.base n.dst.desc) ((32 * (2 ^ 35 + 16 + g) : Int) - dm8S.viewLoc 0 n.dst)) 32)
        (· == 32 * (2 ^ 35 + 16 + g)),
    has (faultedS.tileAt 0).demand (fun d => d.fault.isSome && d.fin == .commit),
    has ((faultedS.modTile 0 fun t => { t with demand := t.demand.map fun d => { d with fin := .park } }).tileAt 0).demand (fun d => d.fault.isSome && d.fin == .park),
    (faultedS.coreAt 0).bead == some ⟨0, 0, 0⟩, (b32.decode 0x80000000).isZero, !(b32.decode 0x3F800000).isZero,
    has ((demandS.modTile 0 fun t => { t with demand := t.demand.map fun d => { d with fin := .park, region := some (0, region0) } }).tileAt 0).demand (fun d => d.fin == .park && d.region == some (0, region0)),
    ((((demandS.modTile 0 fun t => { t with demand := none, reserve := [] }).parkBead 0 0x100000).slotAt region0.bead).map BeadSlot.use) != some .parked] = true := by decide +kernel

/-! Beads -/

def fillRod (s : State) (n : Nat) : State := s.putRod 0 0
  { part := some 0, cap := 64, prio := 0, world := false, wdog := 0,
    slots := (List.range n).map fun i => (i, { record := {}, use := .reserved }) }
def spawnS : State := regs (poke bead0 0x2000 [0x100040, 0, 0x3000]) [(1, 0x2000), (2, 0x2004), (3, 0x2040), (4, 1)]
theorem witness_Spawning : alls [!isSteward spawnS.cur, (spawnS.sr 2).toNat % 64 != 0, (spawnS.sr 1).toNat % 64 == 0,
    okIs (spawnS.loadC 0x2000 64) (fun b => (recOfWords (wordsOf 8 b)).pjoin == 0x3000), okIs ((spawnS.noteRange (cIss spawnS) 0x2000 64).probeJoin 0x3000) (· == some 0x3000),
    errIs ((spawnS.noteRange (cIss spawnS) 0x2000 64).probeJoin 0x3004) (fun _ => true), (spawnS.slotAt ⟨0, 0, 0⟩).isSome,
    okIs (spawnS.loadC 0x2040 64) (fun b => (recOfWords (wordsOf 8 b)).pjoin == 0),
    spawnS.rodOfIndex 0 1 == none, has (spawnS.rodOfIndex 0 0) (fun r => r.2.freeSlot? == some 1 && worldFits r.2 {}),
    has (spawnS.rodOfIndex 0 0) (fun r => !worldFits r.2 { w3 := 2 ^ 33 }), has ((fillRod spawnS 64).rodOfIndex 0 0) (fun r => r.2.freeSlot? == none)]
    = true := by decide +kernel

/-- The child of the SPAWN waits for its join word. -/
def joinS : State := ran (.spawn pfx0 1 (.imm 0)) spawnS
def joinQ : JoinReq := { core := 0, part := some 0, world := false, va := 0x3000, loc := 0x3000, cpc := 0x100000, bead := 0, child := some ⟨0, 0, 1⟩ }
theorem witness_Spawning_increment : alls [(joinS.slotAt ⟨0, 0, 1⟩).isSome, joinS.joinRefused joinQ == none, !joinS.spanPoisoned 0x3000 16, joinS.joinCount 0x3000 == 0, joinS.reservedBytes 0x3000 == none]
    = true := by decide +kernel

theorem witness_EndingAndYielding : alls [!isSteward bead0.cur, bead0.me.bead == some ⟨0, 0, 0⟩, okIs (bead0.probeJoin 0) (· == none),
    okIs (bead0.probeJoin 0x3000) (· == some 0x3000), errIs (bead0.probeJoin 0x3004) (fun _ => true), heldS.me.a != [], bead0.me.a == [],
    bead0.pendingNodes == [], tiles1.pendingNodes != [], tiles1.me.a == [], !bitOf tiles1.myRecord.w3 32, !bead0.me.inh,
    has (bead0.rodAt 0 0) fun r => (Map.find? r.slots 0).isSome] = true := by decide +kernel

/-- A join word of count 0, 1 and 2 at 0x3000, its continuation at 0x2000; the partition's root word at 0x3000. -/
def countS (n : Nat) : State := poke spawnS 0x3000 [BitVec.ofNat 64 n, 0x2000]
def rootS : State := (countS 1).modPart 0 fun p => { p with rootLoc := some ((countS 1).locKey 0x3000) }
/-- An overflow list of one place. -/
def capS : State := { fillRod spawnS 64 with sys := [(sysKey 0x078 8, 2 ^ 32)] }
def overS : State := { fillRod bead0 0 with units := [(0, { (fillRod bead0 0).unitAt 0 with overflow := [{ rod := 0, record := {} }] })] }
theorem witness_JoinsAndContinuations : alls [(countS 0).joinRefused joinQ == none, !(countS 0).spanPoisoned 0x3000 16, (countS 0).joinCount 0x3000 == 0,
    (countS 1).joinCount 0x3000 == 1, (countS 2).joinCount 0x3000 == 2, rootS.rootParts 0x3000 == [0], (rootS.partAt 0).map Part.phase == some .running, (countS 1).rootParts 0x3000 == [],
    (countS 1).reservedBytes 0x3000 == none, (countS 1).reservedBytes 0x3008 == none, leNat ((countS 1).bytes 0x3008 8) == 0x2000,
    okIs ((spawnS.noteRange (spawnS.workIssuer 0 (some 0)) 0x2000 64).readWhole ((spawnS.noteRange (spawnS.workIssuer 0 (some 0)) 0x2000 64).workIssuer 0 (some 0)) 0x2000 64) (fun b => b.length == 64),
    has (spawnS.rodAt 0 0) (fun r => r.part == some 0 && worldFits r (recOfWords [0x100040, 0, 0x3000]) && r.freeSlot? == some 1), (spawnS.unitAt 0).overflow == [],
    has ((fillRod spawnS 64).rodAt 0 0) (fun r => r.freeSlot? == none), 0 < (capS.parkCaps 0).2, (capS.unitAt 0).overflow == [],
    (overS.unitAt 0).overflow.length == 1, has (overS.rodAt 0 0) fun r => r.freeSlot? == some 0] = true := by decide +kernel

/-- A YIELD leaves the bead ready on the one rod and its core free; the pickup counter at 0 and at 63. -/
def readyS (n : Word) : State :=
  let s := ran (.yield pfx0) bead0
  s.modUnit 0 fun u => { u with pkc := Map.set u.pkc 0 0 n }
def otherS : State := (readyS 0).modRod 0 0 fun r => { r with slots := r.slots.map fun e => (e.1, { e.2 with record := { e.2.record with w3 := 2 ^ 33 } }) }
theorem witness_Pickup : ((unitCores 0).length = 8 ∧ (unitCores 0).getD 0 420 = 0) ∧ ([readyS 0, readyS 63, otherS].all fun s =>
    alls [(s.unitAt 0).lastGrant == 7, s.canPick 0, s.selectRod 0 (Map.get (s.unitAt 0).pkc 0 ((s.partOf 0).getD 255)).toNat == 0,
      has (s.rodAt 0 0) fun r => r.ready == [0] && (Map.find? r.slots 0).isSome]) = true ∧
    alls [Map.get ((readyS 63).unitAt 0).pkc 0 (((readyS 63).partOf 0).getD 255) == 63,
      has ((readyS 0).rodAt 0 0) (fun r => has (Map.find? r.slots 0) fun y => worldFits r y.record),
      has (otherS.rodAt 0 0) fun r => has (Map.find? r.slots 0) fun y => !worldFits r y.record] = true := by decide +kernel

/-- A second rod of the partition with the same priority, non-empty too. -/
def tiedS : State := (readyS 0).modUnit 0 fun u => { u with rods := u.rods ++ (u.rods.map fun e => (3, e.2)) }
theorem witness_Pickup_tie : alls [tiedS.candRods 0 == [0, 3], tiedS.selectRod 0 0 == 0, (tiedS.rodAt 0 0).map Rod.prio == (tiedS.rodAt 0 3).map Rod.prio,
    tiedS.canPick 0, Map.get (tiedS.unitAt 0).pkc 0 ((tiedS.partOf 0).getD 255) == 0] = true := by decide +kernel

theorem witness_Barriers :
    let s := regs bead0 [(1, 2 ^ 21), (2, 2 ^ 21 + 1)]
    let t := ran (.barcfg pfx0 1 1) s
    let u := ran (.arrive pfx0 .dflt ⟨true, false, false, false⟩ 1) t
    let q : BarMsg := { tile := 0, b := 1, key := (t.barAt 0 1).key 0, odd := false, via := .own }
    alls [!(s.barAt 0 1).arr, BarCfg.wellFormed (s.sr 1), !BarCfg.wellFormed (s.sr 3), s.rectInside 0 (s.sr 1), !s.rectInside 0 (2 ^ 21 + 2 ^ 10),
      BarCfg.wellFormed (2 ^ 21 + 2 ^ 10), !(s.barAt 0 1).cfg, (t.barAt 0 1).cfg, !(t.barAt 0 1).arr, takesPart ((t.barAt 0 1).key 0) 0, (u.barAt 0 1).arr,
      !t.releaseWaits ⟨true, false, false, false⟩, (holding u (.barrierArrivalMessage q)).msg == some (.barrierArrivalMessage q),
      (u.routerAt 0 1).key == none, (done u (.barrierArrivalMessage q)).routerAt 0 1 != {}] = true := by decide +kernel

/-! Copies, streams, link cores, lookups -/

/-- s1 a source, s3 a destination in the own scratchpad, s4 the counter of a PUTS, s2 the length with a decrement, s5 a ring. -/
def copyS : State := regs (poke bead0 (2 ^ 40 + 0x1000) [64]) [(1, 0x2000), (2, 2 ^ 32 + 32), (3, 0x0040000000000000), (4, 0x3000), (5, 0x0040000000001000), (6, 8),
  (7, 0x2001), (8, 0x1000020)]
def copy0 : Copy := { kind := .put, core := 0, bead := 0, part := some 0, world := false, cpc := 0, src := 0, srcCore := 0, dst := 0, dstCore := 0, len := 32 }
def fullCopies : State := { copyS with copies := (List.range 64).map fun n => (n, copy0) }
theorem witness_CopyIssue : alls [okIs (copyS.checkCopy .put 3 1 2 0 0) (fun c => c.len == 32), okIs (copyS.checkCopy .puts 3 1 2 0 0) (fun _ => true),
    okIs (copyS.checkCopy .get 3 1 2 0 0) (fun _ => true), okIs (copyS.checkCopy .rput 5 1 6 0 0) (fun _ => true), okIs (copyS.checkCopy .put 3 1 0 0 0) (fun c => c.len == 0),
    errIs (copyS.checkCopy .put 3 7 2 0 0) (fun _ => true), errIs (copyS.checkCopy .get 3 1 8 0 0) (fun _ => true), errIs (copyS.checkCopy .rput 5 1 8 0 0) (fun _ => true),
    errIs (copyS.checkCopy .puts 3 1 6 0 0) (fun _ => true),
    copyS.copies == [], (fullCopies.copies.filter fun e => e.2.core == 0).length == 64] = true := by decide +kernel

/-- A tile whose partition goes one tile further east: hops to it, beyond it, and from a global pointer. -/
def eastS : State := copyS.modTile 0 fun t => { t with idw := 2, idh := 1 }
theorem witness_CopyIssue_hops : alls [okIs (eastS.checkCopy .put 3 1 2 1 0) (fun c => c.dstCore == 1 && c.srcCore == 0),
    okIs (eastS.checkCopy .get 1 3 2 1 0) (fun c => c.srcCore == 1 && c.dstCore == 0), errIs (eastS.checkCopy .put 3 1 2 2 0) (fun f => f.cause == 7),
    errIs (eastS.checkCopy .put 3 1 2 (-1) 0) (fun f => f.cause == 7), errIs (eastS.checkCopy .put 3 1 2 0 1) (fun f => f.cause == 7),
    errIs (eastS.checkCopy .get 3 1 2 1 0) (fun f => f.cause == 7), spaceOf (eastS.sr 1) != 4, spaceOf (eastS.sr 3) == 4] = true := by decide +kernel

/-- A copy of each kind that has just been issued, and one whose lines have all gone. -/
def issued (i : Instr) : State := ran i copyS
def copyOf (s : State) (p : Copy → Bool) : Bool := has (Map.find? s.copies 0) p
def landedS (k : CopyKind) : State := { issued (.puts pfx0 3 1 2 0 0) with copies := (issued (.puts pfx0 3 1 2 0 0)).copies.map fun e => (e.1, { e.2 with kind := k, pos := 32 }) }
/-- Its source cannot be read. -/
def unreadS : State := { issued (.put pfx0 3 1 2 0 0) with poison := [0x100] }
/-- Its destination's tag is another one. -/
def farS : State := { issued (.put pfx0 3 1 2 0 0) with gmeta := [(2 ^ 35, mkMeta true false false 9)] }
theorem witness_CopyDelivery : alls [copyOf (issued (.put pfx0 3 1 2 0 0)) fun c => let s := issued (.put pfx0 3 1 2 0 0)
      c.pos < c.len && c.kind != .rput && okIs (s.readLine (s.copyIssuer c c.srcCore) (padd c.src c.pos) 32) (fun b => b.length == 32) && s.moves == [] &&
      okIs ((s.noteRange (s.copyIssuer c c.srcCore) (padd c.src c.pos) 32).lineDest (s.copyIssuer c c.dstCore) (padd c.dst c.pos) 32) (· == [(2 ^ 40, 32)]),
    copyOf farS fun c => c.pos < c.len && okIs (farS.readLine (farS.copyIssuer c c.srcCore) (padd c.src c.pos) 32) (fun b => b.length == 32) &&
      errIs ((farS.noteRange (farS.copyIssuer c c.srcCore) (padd c.src c.pos) 32).lineDest (farS.copyIssuer c c.dstCore) (padd c.dst c.pos) 32) (fun _ => true),
    copyOf (issued (.rput pfx0 5 1 6 0 0)) fun c => let s := issued (.rput pfx0 5 1 6 0 0)
      c.pos < c.len && okIs (s.readLine (s.copyIssuer c c.srcCore) (padd c.src c.pos) 8) (fun b => b.length == 8),
    copyOf unreadS fun c => c.pos < c.len && c.kind != .rput && errIs (unreadS.readLine (unreadS.copyIssuer c c.srcCore) (padd c.src c.pos) 32) (fun _ => true),
    copyOf (issued (.put pfx0 3 1 2 0 0)) fun c => c.pos < c.len, copyOf (landedS .puts) fun c => !c.failed,
    copyOf { landedS .puts with copies := (landedS .puts).copies.map fun e => (e.1, { e.2 with failed := true }) } fun c => c.failed && c.kind == .puts && c.len ≤ c.pos,
    copyOf { landedS .rput with copies := (landedS .rput).copies.map fun e => (e.1, { e.2 with failed := true }) } fun c => c.failed,
    copyOf (landedS .put) fun c => c.len ≤ c.pos && c.kind == .put, copyOf (landedS .rput) fun c => c.len ≤ c.pos && c.kind == .rput,
    copyOf (landedS .puts) fun c => let s := landedS .puts
      c.len ≤ c.pos && !c.failed && okIs (s.writePlace (s.copyIssuer c c.core) c.cnt 8) (· == 0x3000) && !s.spanPoisoned 0x3000 8 && c.dec == 1,
    copyOf (issued (.rput pfx0 5 1 6 0 0)) fun c => let s := issued (.rput pfx0 5 1 6 0 0)
      okIs (s.translate (s.copyIssuer c c.dstCore) c.dst 64 true false) (· == .mem (2 ^ 40 + 0x1000)) &&
      okIs (s.spanCheck (s.copyIssuer c c.dstCore) c.dst (2 ^ 40 + 0x1000) 64 true) (fun _ => true) && !c.failed &&
      ringOk (2 ^ 40 + 0x1000) (wordsOf 8 (s.spanLook (2 ^ 40 + 0x1000) 64)) && (s.messageBytes c).length == 32 &&
      (ringPlaces (2 ^ 40 + 0x1000) 64 0 32).all (fun p => s.tagMiss p 32 (tagOf c.dst) == none) &&
      ringPlaces (2 ^ 40 + 0x1000) 64 32 64 == [2 ^ 40 + 0x1060, 2 ^ 40 + 0x1040] && s.moves == [] && (0 : Nat) < c.len,
    copyOf { landedS .rput with copies := (landedS .rput).copies.map fun e => (e.1, { e.2 with data := List.replicate 32 7 }) } fun c => c.len ≤ c.data.length,
    !ringOk (2 ^ 40 + 0x1000) [65]] = true := by decide +kernel

/-- A stream of one line into slot 0, its descriptor at 0x2000, a bad one at 0x2040; for a STRMW its slot returned. -/
def strmS : State := regs (poke bead0 0x2000 [0x4000, 0x0001000000000040, 0x0001000100000040, 0x0040000000000000, 0x101]) [(1, 0x2000), (2, 0x2040)]
def strmOn : State := ran (.strm pfx0 1) strmS
def backOn : State := ran (.strmw pfx0 1) strmS
def withTile (s : State) (taken returned moved : Nat) (f : Option (Nat × FaultInfo)) : State :=
  s.modUnit 0 fun u => { u with streams := u.streams.map fun e => (e.1, { e.2 with moved := moved, failed := f, tiles := [{ core := 0, taken := taken, returned := returned }] }) }
/-- A stream in which nothing is bad yet, whose next line goes or cannot be read. -/
def oneLine (s : State) (far near : Word) (back bad : Bool) : Bool :=
  has (s.streamAt 0 0) fun x => x.running && !x.stopped && x.failed == none && x.back == back && x.status == 0 && Desc.lines x.desc x.moved == [(0, some 0)] &&
    (x.tiles.all fun t => if back then decide (x.moved < t.returned) else decide (x.moved < t.returned + Desc.nslot x.desc)) && decide (x.moved < Desc.positions x.desc) &&
    x.tiles.length == 1 && s.moves == [] && padd (wd x.desc 0) 0 == far && padd (wd x.desc 3) (Desc.slotOff x.desc x.moved : Nat) == near &&
    (if back then (if bad then errIs (s.readPlace (s.streamIssuer x 0) near 64) (fun f => statusBit f.cause != 0)
        else okIs (s.readPlace (s.streamIssuer x 0) near 64) (fun b => b.length == 64) && okIs (s.writeRuns (s.streamIssuer x x.core) far 64) (fun _ => true))
      else if bad then errIs (s.readPlace (s.streamIssuer x x.core) far 64) (fun _ => true)
      else okIs (s.readPlace (s.streamIssuer x x.core) far 64) (fun b => b.length == 64) &&
        okIs ((s.noteRange (s.streamIssuer x x.core) far 64).writeRuns ((s.noteRange (s.streamIssuer x x.core) far 64).streamIssuer x 0) near 64) (· == [(2 ^ 40, 64)]))
/-- Two rows of two lines a slot, the second row and the second column beyond the extents, for tiles 0 and 1. -/
def wideS : State :=
  let s := regs (poke strmS 0x2000 [0x4000, 0x0001000000000040, 0x0002000200000040, 0x0040000000000000, 0x103]) [(1, 0x2000)]
  ran (.strm pfx0 1) (s.modTile 1 fun t => { t with part := some 0 })
/-- A pending node that reads slot 0. -/
def pendS : State := withTile { strmOn with tiles := tiles1.tiles } 1 0 1 none
/-- Two positions and one slot. -/
def strm2 : State := ran (.strm pfx0 1) (poke strmS 0x2000 [0x4000, 0x0002000000000040])
/-- The receiver's tile belongs to another partition. -/
def strayS : State := regs (poke strmS 0x2000 [0x4000, 0x0001000000000040, 0x0001000100000040, 0x0040000000000000, 0x102]) [(1, 0x2000), (2, 0x2040)]
theorem witness_Streams : alls [okIs (strmS.placeAligned (cIss strmS) 0x2000 64 64 false) (fun _ => true),
    okIs (strmS.loadC 0x2000 64) (fun b => Desc.ok (wordsOf 8 b) false && Desc.ok (wordsOf 8 b) true && Desc.receivers (wordsOf 8 b) == [0]),
    okIs (strmS.loadC 0x2040 64) (fun b => !Desc.ok (wordsOf 8 b) false), (strmS.tileAt 0).part == strmS.partOf 0, strmS.streamAt 0 0 == none, isTile strmS.cur,
    okIs (strayS.loadC 0x2000 64) (fun b => Desc.ok (wordsOf 8 b) false && Desc.receivers (wordsOf 8 b) == [1]), (strayS.tileAt 1).part != strayS.partOf 0,
    has (strmOn.streamAt 0 0) (fun x => x.running && !x.stopped && x.failed == none && x.tileOf 0 == some { core := 0 } && Desc.positions x.desc == 1 && !x.finished),
    has ((withTile strmOn 0 0 0 none).streamAt 0 0) (fun x => x.moved ≤ 0), has ((withTile strmOn 0 0 1 none).streamAt 0 0) (fun x => x.moved == 1),
    has ((withTile strmOn 0 0 0 (some (0, { cause := 0x08 }))).streamAt 0 0) (fun x => x.failed == some (0, { cause := 0x08 }) && !x.stopped),
    has ((withTile strmOn 1 0 1 none).streamAt 0 0) (fun x => x.finished == false && (withTile strmOn 1 0 1 none).slotNodes x 0 == []),
    has ((withTile strmOn 1 1 1 none).streamAt 0 0) (fun x => x.finished),
    has (wideS.streamAt 0 0) (fun x => Desc.lines x.desc 0 == [(0, some 0), (64, none), (128, none), (192, none)] && x.tiles.map StreamTile.core == [0, 1] &&
      !x.stopped && x.failed == none && !x.back && Desc.positions x.desc == 1 && Desc.sr x.desc == 2 && Desc.sb x.desc == 2),
    has (pendS.streamAt 0 0) (fun x => pendS.slotNodes x 0 == [0] && !pendS.me.inh && !x.stopped && x.tileOf 0 == some { core := 0, taken := 1, returned := 0 }),
    oneLine strmOn 0x4000 0x0040000000000000 false false, oneLine { strmOn with poison := [0x200] } 0x4000 0x0040000000000000 false true,
    has ((withTile strm2 0 0 1 none).streamAt 0 0) (fun x => 0 + Desc.nslot x.desc ≤ x.moved && x.moved < Desc.positions x.desc && Desc.lines x.desc 1 == [(0, some 64)]), has (strmOn.streamAt 0 0) (fun x => x.moved < 0 + Desc.nslot x.desc),
    oneLine (withTile backOn 1 1 0 none) 0x4000 0x0040000000000000 true false,
    oneLine { withTile backOn 1 1 0 none with poison := [2 ^ 35] } 0x4000 0x0040000000000000 true true,
    has ((withTile backOn 0 0 0 none).streamAt 0 0) (fun x => x.back && x.moved == 0)] = true := by decide +kernel

def linkRegs : Table Word := [(sysKey 0x060 0, 4), (sysKey 0x060 8, 0x9100), (sysKey 0x060 16, 0x9000), (sysKey 0x001 0, 0x20001)]
/-- Link core 0 with queue 2 open; its binding registers name a descriptor at 0x9000 and a bead record at 0x9100. -/
def linkS : State := regs { poke (poke (paged State.reset) 0x9000 slotZeroKd) 0x9100 [0x100000] with cur := 384, sys := linkRegs } [(1, 2), (2, 3)]
theorem witness_LinkCoresAndFences : alls [!isLink bead0.cur, isLink linkS.cur, linkS.queueOf (linkS.sr 1) == some 2, linkS.queueOf (linkS.sr 2) == none,
    (linkS.modDie 0 fun d => { d with queues := [(2, { count := 2, next := 1 })] }).queueAt 0 2 == { count := 2, next := 1 }, !(linkS.queueAt 0 2).next < (linkS.queueAt 0 2).count,
    (linkS.coreAt 384).bead == none, bitOf (linkS.linkReg 0 0) 63 == false, bitOf (({ linkS with sys := [(sysKey 0x060 0, 2 ^ 63)] } : State).linkReg 0 0) 63,
    ((linkS.modCore 384 fun c => { c with bead := some ⟨48, 0, 0⟩ }).coreAt 384).bead != none,
    (linkS.linkReg 0 2).toNat % 64 == 0, (linkS.linkReg 0 1).toNat % 64 == 0,
    okIs ((linkS.discardLink 0).readWhole (bindIssuer 0 0 false (0, 0, 0)) (linkS.linkReg 0 2) 128) (fun b => wordsOf 16 b == slotZeroKd && Kd.contextOk slotZeroKd && !Kd.secure slotZeroKd),
    okIs (((linkS.discardLink 0).noteRange (bindIssuer 0 0 false (0, 0, 0)) (linkS.linkReg 0 2) 128).readWhole (bindIssuer 0 0 false (heapOf slotZeroKd)) (linkS.linkReg 0 1) 64) (fun b => !bitOf (recOfWords (wordsOf 8 b)).w3 33),
    copyS.copies == [], (issued (.put pfx0 3 1 2 0 0)).copies.any fun e => e.2.uid == (issued (.put pfx0 3 1 2 0 0)).beadKey 0] = true := by decide +kernel

/-- A layer of one key, rows of 256, in HBM; the four requests' records at 0x2000 and on, their future at 0x3000. -/
def pklS : State := regs (poke (poke (poke bead0 0x4000 [0x5000, 0x5200, 0x6000, 0x6800, 0x7000, 0x100100100]) 0x2000 [0x3000, 0x3100, 0x3200, 1, 0, 0, 0, 0,
    0x3000, 0x3200, 0x3200, 0x3300, 0x10101, 0, 0, 0, 0x3000, 0x3300, 0x0040000002000000, 1, 0, 0, 0, 0, 0x3000, 0x3300, 0x3400, 0x3200, 0x3200, 0x3800, 0x10101])
    0x3300 [0x3F80000000000000]) [(1, 0x4000), (2, 0x2000), (3, 0x3010), (4, 0x3040), (5, 0x0040000000000000)]
def pklQ (op : PklOp) (rq : Nat) : PklReq :=
  { op := op, core := 0, bead := some ⟨0, 0, 0⟩, part := some 0, world := false, cpc := 0x100000, ld := 0x4000,
    words := wordsOf 8 (pklS.bytes rq 64), ty := .f32,
    rm := 0, k2 := false, uid := bead0.beadKey 0, heap := heapOf slotZeroKd }
/-- The future of link core 0 in an import page. -/
def pklL : State := regs (poke (impS [{ key := 9, secure := false, wr := true, len := 1 }] []) 0x2000 [0x200020]) [(1, 0x4000), (2, 0x2000)]
theorem witness_Lookups : alls [(pklS.sr 3).toNat % 64 != 0, (pklS.sr 1).toNat % 64 == 0, (pklS.sr 2).toNat % 64 == 0, spaceOf (pklS.sr 5) != 0, plainPlace (pklS.sr 2),
    okIs (pklS.loadC 0x2000 64) (fun b => recordOk .sc (wordsOf 8 b)), okIs ((pklS.noteRange (cIss pklS) 0x2000 64).probe (cIss pklS) 0x3000 32 32) (· == 0x3000),
    (pklS.noteRange (cIss pklS) 0x2000 64).isImport (cIss pklS) 0x3000 true == false, okIs (pklL.loadC 0x2000 64) (fun b => wd (wordsOf 8 b) 0 == 0x200020),
    okIs ((pklL.noteRange (cIss pklL) 0x2000 64).probe ((pklL.noteRange (cIss pklL) 0x2000 64).issuer 384 .c) 0x200020 32 32) (· == importBase 6 0 + 0x20),
    (pklL.noteRange (cIss pklL) 0x2000 64).isImport ((pklL.noteRange (cIss pklL) 0x2000 64).issuer 384 .c) 0x200020 true,
    okIs (pklS.loadC 0x3040 64) (fun b => !recordOk .sc (wordsOf 8 b)), pklS.unitLoad (pklS.unitOfLayer (pklS.issuer 0 .k) 0x4000) < 64,
    64 ≤ ({ pklS with requests := List.replicate 64 (pklQ .sc 0x2000) } : State).unitLoad (pklS.unitOfLayer (pklS.issuer 0 .k) 0x4000)] = true := by decide +kernel
/-- A request of the bead in its unit's queue: the fence and the ARRIVE that name K wait. -/
def queuedS : State := { pklS with requests := [pklQ .sc 0x2000] }
theorem witness_LinkCoresAndFences_requests : (∃ q ∈ queuedS.requests, q.uid = queuedS.beadKey queuedS.cur) ∧
    (∃ q ∈ queuedS.requests, q.core = queuedS.cur) ∧ (queuedS.barAt 0 1).arr = false := by
  refine ⟨⟨_, List.mem_singleton.mpr rfl, ?_⟩, ⟨_, List.mem_singleton.mpr rfl, ?_⟩, ?_⟩ <;> decide +kernel
def ends (op : PklOp) (rq : Nat) (run : State → PklReq → Nat → PklEnd) (s : State) (bad : Bool) : Bool :=
  let q := pklQ op rq
  let r := run s q (s.unitOfLayer (s.pklIssuer q) 0x4000)
  let s2 := if bad then (r.s.pklRecord q r.f (pklStatus r)).skipLater q else r.s
  !q.skip && (if bad then decide (0 < r.cause) && decide (r.cause < 128) && r.cause != 9 else r.cause == 0) &&
    okIs (s2.probe { s2.pklIssuer q with path := .c } 0x3000 32 32) (· == 0x3000)
/-- The layer's descriptor cannot be read. -/
def pklBad : State := { pklS with poison := [0x200] }
theorem witness_Lookups_ends : alls [ends .sc 0x2000 State.runPksc pklS false, ends .sel 0x2040 State.runPksel pklS false, ends .sc 0x2000 State.runPksc pklBad true,
    ends .sct 0x20C0 State.runPksct pklBad true, ends .gth 0x2080 State.runPkgth pklBad true,
    okIs ((pklS.skipLater (pklQ .sc 0x2000)).probe { (pklS.skipLater (pklQ .sc 0x2000)).pklIssuer (pklQ .sc 0x2000) with path := .c } 0x3000 32 32) (· == 0x3000)] = true := by
  decide +kernel
/-- Candidates of one value, of equal values and of zeros of both signs, a NaN and an empty one; what the four requests read. -/
theorem witness_Lookups_values : selectCands [⟨0x80000000, 2⟩, ⟨0x7FC00000, 3⟩, ⟨0, 1⟩, ⟨0x3F800000, 9⟩, ⟨0x40000000, 0xFFFFFFFF⟩] 2 =
      [⟨0x3F800000, 9⟩, ⟨0, 1⟩] ∧
    (let q := pklQ .sct 0x20C0
     let die := pklS.unitOfLayer (pklS.pklIssuer q) q.ld
     okIs (pklS.readLayer (pklQ .sc 0x2000) die) fun l => l.n == 1 && l.gv != 0 && okIs (pklS.readVector (pklQ .sc 0x2000) 0x3100 l.dk) (fun _ => true) &&
      okIs (pklS.tableBytes (pklQ .sc 0x2000) die (padd l.k1 0) (2 * l.dk)) (fun b => b.length == 2 * l.dk) && okIs (pklS.readList (pklQ .sel 0x2040) 0x3200 1) (fun _ => true) &&
      okIs (pklS.readVector q 0x3400 l.dv) (fun _ => true) && okIs (pklS.readList q 0x3300 1) (fun sel => sel == [⟨0x3F800000, 0⟩] &&
        okIs (pklS.readRows q die l sel) fun rows => rows.1.length == 1)) = true ∧
    (match ({ pklS with mem := (poke pklS 0x4020 [0]).mem }).readLayer (pklQ .sct 0x20C0) 0 with | .ok l => l.gv == 0 | .error _ => false) = true ∧
    (b32.roundRat 0 false 1 1 0).1 = 0x3F800000 := by decide +kernel
theorem witness_Lookups_gather : ends .gth 0x2080 State.runPkgth pklS false = true := by decide +kernel
/-- PKGTH to each window, and of a list that is empty. -/
def gathers (out : Word) : Bool :=
  let q := { pklQ .gth 0x2080 with words := (pklQ .gth 0x2080).words.set 2 out }
  let r := pklS.runPkgth q (pklS.unitOfLayer (pklS.pklIssuer q) 0x4000)
  r.cause == 0 && windowOf out == windowOf (wd q.words 2)
theorem witness_Lookups_window1 : gathers 0x0040000001000000 = true := by decide +kernel
theorem witness_Lookups_window3 : gathers 0x0040000003000000 = true := by decide +kernel
theorem witness_Lookups_empty : (let q := { pklQ .gth 0x2080 with words := (pklQ .gth 0x2080).words.set 1 0x8000 }
    let s := poke pklS 0x8000 [0xFFFFFFFF]
    okIs (s.readList q 0x8000 1) (fun sel => sel == [⟨0, 0xFFFFFFFF⟩] && (sel.filter fun c => c.idx != 0xFFFFFFFF) == [])) = true := by
  decide +kernel
theorem witness_Lookups_scatter : ends .sct 0x20C0 State.runPksct pklS false = true := by decide +kernel
/-- PKSEL's candidates cannot be read. -/
theorem witness_Lookups_select : ends .sel 0x2040 State.runPksel { pklS with poison := [0x190, 0x191, 0x198, 0x199] } true = true := by decide +kernel

/-! Contexts -/

def blocksMem (s : State) : State := poke (poke (poke (poke s 0x13000 [0xFFFF0000]) 0x13020 [0xFFFF0000]) 0x13040 [0xFFFF0000]) 0x13060 [0xFFFF0000]
/-- One layer, blocks of one token of 256 binary16 elements, one block in the map, four slots free. -/
def ctxMem : State := poke (poke (poke (poke (blocksMem bead0) 0x10000 [0x0000010000100001, 0, 0, 0, 0x11000, 0x400000001, 0x12000, 0x400000000, 0x13000, 4, 0x14000,
  0x400000200, 0x16000, 4]) 0x10500 [0x100040]) 0x11000 [0x10000]) 0x16000 [0x0003000200010000]
def req (op : EvuOp) (arg wave : Word) (ws : List Word) (dst : Nat) : EvuReq :=
  { op := op, core := 0, pc := 0x100000, ctx := 0x00A0000000000000, arg := arg, wave := wave, words := ws, dst := dst, pdst := 2, ty := .f32, rm := 0 }
def asks (q : EvuReq) (s : State) : State := done { s with pend := [] } (.evuContextRequest q)
def bindQ : EvuReq := req .bind 0x10000 0 [] 3
def bound0 : Ctx := { desc := 0x10000, home := 0x10000, world := false, hb := (cIss bead0).heap.1, hl := (cIss bead0).heap.2.1, ho := (cIss bead0).heap.2.2,
                      part := some 0, hdr := wordsOf 14 (ctxMem.bytes 0x10000 112) }
def ctxS : State := { ctxMem with ctxs := [(0, bound0)] }

/-- A change of the one token, then its recompute bead. -/
def editQ : EvuReq := req .edchg 0x2000 0 [1, 0x2100, 0x2200, 0] 4
def editedS : State := asks editQ ctxS
def spawnedS : State := done { editedS with pend := [] } (.evuRecomputeSpawn 0)
def doneQ : EvuReq := req .ctxdone 0x3000 1 [] 1

/-- Wave 1 issued, the block's version 1 in slot 3; the same with the spawns stopped. -/
def versionS : State := poke (poke (poke ctxS 0x10010 [1]) 0x10068 [3]) 0x13000 [0xFFFF0004, 0x300000001]
def withCtx1 (s : State) (f : Ctx → Ctx) : State := { s with ctxs := s.ctxs.map fun e => (e.1, f e.2) }

def askS : State := regs (poke ctxS 0x2000 [1, 0x2100, 0x2200]) [(1, 0x00A0000000000000), (2, 0x2000), (3, 2 ^ 56), (4, 0x2020), (5, 0x10000)]
theorem witness_ContextRequests : alls [okIs (askS.ctxCheck (askS.sr 1) false false) (·.1 == 0), okIs (askS.ctxCheck (askS.sr 1) false true) (·.1 == 0),
    okIs (askS.ctxCheck (askS.sr 1) true false) (fun c => regionOk c.2 (askS.sr 0) && !regionOk c.2 (askS.sr 3)),
    (askS.sr 2).toNat % 32 == 0, recordPlace (askS.sr 2), okIs (askS.loadC 0x2000 32) (fun b => editOk (wordsOf 4 b)),
    okIs (askS.loadC 0x2020 32) (fun b => !editOk (wordsOf 4 b)), (askS.sr 2).toNat % 64 == 0, bufferPlace (askS.sr 2), spaceOf (askS.sr 5) == 0,
    (askS.sr 5).toNat % 4096 == 0, spaceOf (askS.sr 2) != 0xA, bead0.ctxAt 0 == none,
    errIs (askS.ctxCheck (askS.sr 2) false false) (fun f => f.sub == 1), errIs (askS.ctxCheck (askS.sr 2) false true) (fun f => f.sub == 1),
    errIs (askS.ctxCheck (askS.sr 2) true false) (fun f => f.sub == 1)] = true := by decide +kernel

theorem witness_ContextReplies_bind : okIs (match ctxMem.serveBind bindQ with | .ok t => .ok t | .error _ => .error ()) (fun t : State => t.ctxs.length == 1) = true := by
  decide +kernel

/-- A context with no spawn to make, with one, and with one that its full rod holds back. -/
def spawnIs (s : State) (k : Nat) : Bool := has (s.ctxAt 0) fun c => match s.spawnCtx 0 c with | .idle => k == 0 | .full => k == 1 | .done _ => k == 2
theorem witness_ContextReplies_spawns : alls [spawnIs ctxS 0, spawnIs versionS 0, spawnIs spawnedS 0, spawnIs (fillRod editedS 64) 1, spawnIs editedS 2] = true := by
  decide +kernel

/-- Waves above WISS, at it and below it; each request's structures. -/
theorem witness_ContextReplies_reads : alls [fld editQ.ctx 44 8 == 0, ctxS.ctxAt 0 == some bound0, okIs (ctxS.ctr bound0 .wiss) (· == 0), okIs (versionS.ctr bound0 .wiss) (· == 1),
    okIs (ctxS.readEntry bound0 0 0) (fun e => !ctxS.owes 0 bound0 0 0 e 0 && e.pairs == []), (0 : Nat) < 1,
    okIs (ctxS.mapAt bound0 0) (fun m => holds m 0 == some 0), has ((withCtx1 versionS fun c => { c with lost := 1 }).ctxAt 0) (fun c => (0 : Nat) != 1 && decide (0 < c.lost) && okIs ((withCtx1 versionS fun c => { c with lost := 1 }).readMap c) fun _ => true), bound0.lost == 0, okIs (versionS.readEntry bound0 0 0) (fun e => !versionS.owes 0 bound0 0 0 e 1 &&
      (e.pairs.find? fun p => decide (p.1 ≤ 1)) == some (1, 3) && e.pairs == [(1, 3)]), okIs (versionS.readVersion (req .vldvAt 0 1 [] 3) bound0 3) (fun _ => true),
    okIs (versionS.readMap bound0) (fun m => okIs (versionS.firstOwing 0 bound0 1 (m.map fun e => (0, e.pb))) (· == none)),
    okIs (versionS.readMap bound0) (fun m => okIs ((List.range bound0.nb).foldlM (fun (t : State × Nat) (b : Nat) => do
      let x ← t.1.reclaimBlock bound0 1 m b
      pure (x.1, t.2 + x.2)) (versionS, 0)) fun r => okIs (r.1.updateWset 0 bound0) fun _ => true),
    okIs (bound0.entries.mapM fun lb => versionS.readEntry bound0 lb.1 lb.2) (fun es => (es.filter EvuEntry.running) == []),
    okIs (bound0.entries.mapM fun lb => spawnedS.readEntry bound0 lb.1 lb.2) (fun es => (es.filter EvuEntry.running) != [])] = true := by decide +kernel

theorem witness_ContextReplies_edit : okIs (ctxS.readMap bound0) (fun m => okIs (ctxS.planEdit bound0 .edchg m 0 1) fun x =>
    okIs (ctxS.busyBlock bound0 x.touched) (· == none) && okIs (ctxS.readPieces (ctxS.evuIssuer editQ) 0x2100 2 4) (fun new =>
      okIs ((ctxS.noteRange (ctxS.evuIssuer editQ) 0x2100 4).moveTokens bound0 0x2200 x.toks new) fun t =>
        okIs ((t.noteTable 0 bound0 0x2200 (x.all ++ x.kept.toList)).commitEdit 0 bound0 m x 1) fun _ => true)) = true := by decide +kernel

theorem witness_ContextReplies_done : alls [okIs (ctxS.readEntry bound0 0 0) (fun e => !e.running), has (spawnedS.ctxAt 0) fun c => spawnedS.runWaveOf 0 (c.key 0 0) == some 1 &&
    okIs (spawnedS.readEntry c 0 0) (fun e => e.running && okIs (spawnedS.ctr c .fcnt) (fun n => n == 4 && okIs (spawnedS.takePoolSlot c n) fun t =>
      okIs (spawnedS.readPieces (spawnedS.evuIssuer doneQ) 0x3000 (c.sbytes / 32 + 2) c.sbytes) fun data =>
        okIs (t.1.writePieces c.issuer (c.slotVa t.2 0) (c.sbytes / 32 + 2) c.sbytes) fun ps =>
          okIs ((t.1.fillPieces ps data).commitResult 0 c 0 0 1 t.2 e data) fun _ => true))] = true := by decide +kernel

theorem witness_ContextReplies_spawn : alls [editedS.ctxs.length == 1, (withCtx1 editedS fun c => { c with unbinding := true }).ctxs.length == 1,
    has (editedS.ctxAt 0) fun c => !c.unbinding && !c.stopped && okIs (editedS.nextSpawn 0 c) (fun o => has o fun yx => yx.1 == 0 && yx.2.pb == 0 &&
      okIs (editedS.readEntry c 0 0) (fun e => okIs (editedS.writeEntry c 0 0 { e with st := 2 }) fun _ => true)) &&
      has (editedS.rodAt (12 * c.die + c.rclu) c.rrod) (fun r => r.part != none && r.world == c.world && r.freeSlot? == some 1) &&
      okIs (editedS.readPieces c.issuer (padd c.desc 0x500) 2 8) fun _ => true] = true := by decide +kernel

/-! System, draining, images, launches, host, device -/

/-- A bead with a watchdog of 100 cycles that has run 99 and 100. -/
def wdogS (n : Word) : State := { ((bead0.modRod 0 0 fun r => { r with wdog := 100 }).setMe { bead0.me with wdFrom := 0, wdCount := 0 }) with cyc := n }
/-- What a machine check of tile 0 has recorded, its bead's record with R clear or set. -/
def checkedS (w3 : Word) : State := (bead0.modRod 0 0 fun r => { r with slots := r.slots.map fun e => (e.1, { e.2 with record := { e.2.record with w3 := w3 } }) }).record 0 { cause := 0x36 } 0x100000
theorem witness_SystemInstructions : alls [(secure bead0).me.world, (bead0.dieAt 0).events == [], (stew.post 0 4 none 0 7).me.world,
    ((stew.post 0 4 none 0 7).dieAt 0).events.length == 1, has ((wdogS 99).rodAt 0 0) (fun r => r.wdog != 0 && (wdogS 99).wdNow 0 < r.wdog),
    has ((wdogS 100).rodAt 0 0) (fun r => r.wdog ≤ (wdogS 100).wdNow 0), !((wdogS 99).coreAt 0).wdSent, ((wdogS 99).coreAt 0).bead == some ⟨0, 0, 0⟩,
    ((wdogS 100).dieAt ((wdogS 100).stewardDie 0)).events.length < 256, has (bead0.rodAt 0 0) (fun r => (Map.find? r.slots 0).isSome),
    has ((checkedS 0).rodAt 0 0) (fun r => has (Map.find? r.slots 0) fun x => !bitOf x.record.w3 34),
    has ((checkedS (2 ^ 34)).rodAt 0 0) (fun r => has (Map.find? r.slots 0) fun x => bitOf x.record.w3 34), (bead0.coreAt 0).bead == some ⟨0, 0, 0⟩,
    ((bead0.modDie 0 fun d => { d with shifted := [rowNo 0] }).dieAt (dieOf 0)).shifted.contains (rowNo (tileY 0)), !(bead0.tileAt 0).fenced] = true := by decide +kernel

/-- The steward of die 0 beside the partition of the bead, in each phase that an instruction asks for. -/
def stewP (f : Part → Part) : State := regs ({ bead0 with cur := 416, cores := bead0.cores ++ stew.cores } |>.modPart 0 f) [(1, 0), (2, 100), (4, 9)]
def phaseS (x : PartPhase) : State := stewP fun p => { p with phase := x }
def savedS : State := { phaseS .drained with tiles := [(0, { (phaseS .drained).tileAt 0 with saved := some bead0.me })], cores := stew.cores }
theorem witness_Draining : alls [(stewP id).me.world, (stewP id).pdrnPart 4 == none, has ((stewP id).pdrnPart 1) (fun x => x.1 == 0 && x.2.phase == .running && x.2.tiles == [0]),
    has ((phaseS .drained).pdrnPart 1) (fun x => x.2.phase == .drained && x.2.tiles.all (· < 384)), has ((phaseS .quiesce).pdrnPart 1) (fun x => x.2.phase == .quiesce), has ((phaseS .rampDown).pdrnPart 1) (fun x => x.2.phase == .rampDown),
    has ((stewP fun p => { p with phase := .drained, retiring := true }).pdrnPart 1) (fun x => x.2.phase == .drained && x.2.retiring),
    has ((phaseS (.draining (some (0, 100)))).partAt 0) (fun x => x.phase == .draining (some (0, 100)) && (phaseS (.draining (some (0, 100)))).busyCores x == [0] &&
      !(phaseS (.draining (some (0, 100)))).quiet 0 x), ((phaseS .running).coreAt 0).mode == .running, ((0 : Word) - 0).toNat < (100 : Word).toNat,
    (100 : Word).toNat ≤ ((100 : Word) - 0).toNat, (savedS.tileAt 0).saved == some bead0.me, !(savedS.tileAt 0).fenced,
    has ((stewP fun p => { p with phase := .draining none, pdrn := some (416, 3) }).partAt 0) fun x => x.pdrn == some (416, 3),
    has (({ stewP fun p => { p with phase := .draining none } with cores := stew.cores } : State).partAt 0) fun x =>
      ({ stewP fun p => { p with phase := .draining none } with cores := stew.cores } : State).quiet 0 x] = true ∧ [0].Nodup := by decide +kernel

/-- A drained partition that a bead has launched, with a completion record. -/
def by0 (cr : Word) : Origin :=
  { core := 0, slot := some ⟨0, 0, 0⟩, part := some 0, born := 1, world := false, pworld := false, heap := (0, BitVec.ofNat 64 (2 ^ 40), 0), die := 0, cr := cr, cpc := 0 }
def drainedBy (cr : Word) : State := stewP fun p => { p with phase := .drained, launcher := .bead (by0 cr) }
theorem witness_Draining_reset : alls [has ((phaseS .drained).partAt 0) (fun x => x.launcher == .host 0 && ((phaseS .drained).partRecords 0 x).all fun r => !r.evu),
    has ((phaseS .drained).partAt 0) (fun x => (phaseS .drained).partRecords 0 x != []), has ((drainedBy 0).pdrnPart 1) (fun x => x.2.phase == .drained),
    has ((drainedBy 0x3000).partAt 0) fun x => match x.launcher with
      | .bead o => o.cr == 0x3000 && okIs (((drainedBy 0x3000).emptied 0 x).probe o.issuer o.cr 32 32) (· == 0x3000)
      | .host _ => false] = true := by decide +kernel

/-- The steward reads and writes images in the first 2 MiB; s1 the partition, s2 an area, s3 an image of nothing, s5 one whose
end is missing. -/
def imgS : State := regs { paged (stewP fun p => { p with phase := .drained }) with sys := [(sysKey 0x001 0, 0x20001), (sysKey 0x001 8, 0x20001)] } [(1, 0), (2, 0x30000), (3, 0x31000), (5, 0x32000)]
def capS' (n : Word) : State := poke imgS 0x30000 [n]
def nothingS : State := poke (poke imgS 0x31000 [32, 0, 0x0F00000000000000]) 0x32000 [40]
/-- After the first 8 bytes of an image have been read. -/
def noted (s : State) (va : Word) : State := s.noteRange (cIss s) va 8
def imgAt (s : State) (va : Word) (p : Option (List ImgSection) → Bool) : Bool := okIs (s.loadC va 8) fun hd =>
  okIs ((noted s va).readSections ((noted s va).issuer s.cur .c) va (leNat hd) (leNat hd / 16) 16) p
/-- The heap window is the unit at 0x7000, which lies on a device that a dead link cuts off. -/
def lostS : State :=
  let s := (capS' 0).modPart 0 fun p => { p with kd := ((slotZeroKd.set 9 0x7000).set 10 4096).set 11 0 }
  { s.setSys (unitBlock 7) (unitOff 7) (5 * 2 ^ 32 + 7) with lost := [5] }
def lostS' : State := noted lostS 0x30000
theorem witness_SavedImages : alls [imgS.me.world, spaceOf (imgS.sr 2) == 0, (imgS.sr 2).toNat % 4096 == 0, okIs ((capS' 0).loadC 0x30000 8) (fun b => leNat b == 0),
    (imgS.partAt 0).map Part.phase == some .drained, (imgS.partAt 1).map Part.phase != some .drained,
    okIs ((noted (capS' 0) 0x30000).writePieces ((noted (capS' 0) 0x30000).issuer 416 .c) 0x30010 2 0) (· == []),
    has (lostS.partAt 0) (fun x => x.phase == .drained && lostS'.heapLost x), okIs (lostS.loadC 0x30000 8) (fun _ => true),
    has ((capS' 0).partAt 0) (fun x => !(noted (capS' 0) 0x30000).heapLost { x with kd := [] } && x.phase == .drained), imgAt nothingS 0x31000 (fun r => r == some [] && imagePart [] == none), imgAt nothingS 0x32000 (· == none)] = true ∧ (∀ n : Nat, 0 < 16 + n) ∧
    (0x0F < 256 ∧ 31 < 32 ∧ 15 < 16 ∧ ([] : List Byte).length < 2 ^ 31) := by
  exact ⟨by decide +kernel, fun n => by omega, by decide⟩

def fencedS : State := { State.reset with tiles := [(0, { fenced := true })] }
theorem witness_SavedImages_rows : alls [(fencedS.tileAt (tileAtXY 0 0)).fenced, !(fencedS.dieAt (dieXY 0 0)).shifted.contains (rowNo 0),
    (fencedS.modDie 0 fun d => { d with shifted := [0] }).dies != [], (rowEast 0 0).length == 12, ((rowEast 0 0).all fun k => (fencedS.tileAt k).part == none),
    ((bead0.modTile 0 fun x => { x with fenced := true }).tileAt (tileAtXY 0 0)).fenced, (rowEast 0 0).contains 0, (bead0.tileAt 0).part != none,
    ((fencedS.modDie 0 fun d => { d with shifted := [0] }).dieAt (dieXY 0 0)).shifted.contains (rowNo 0)] = true ∧
    0 < 24 ∧ 15 < 16 := by decide +kernel

/-- A descriptor at 0x9000 (direct), one that needs two tiles of a device without one, one that breaks R55; a completion record
at 0x3000; a launch that waits, direct and indirect, its record at 0xA000. -/
def kd0 (k : Nat) (v : Word) : List Word := slotZeroKd.set k v
def launchS : State := regs (poke bead0 0x9000 slotZeroKd) [(1, 0x9000), (2, 0x3000), (3, 0x9040)]
def launch0 (kd : List Word) (ready : Bool) : Launch := { id := 3, by_ := .host 5, stream := .host, kd := kd, w := 1, h := 1, tshape := 0x0001000100010001, ready := ready }
/-- An indirect descriptor with its record at 0xA000. -/
def indKd : List Word := (kd0 1 (wd slotZeroKd 1 ||| 2 ^ 62)).set 4 0xA000
def waitS (kd : List Word) (ready : Bool) : State := { poke State.reset 0xA000 [0x101, 0] with launches := [launch0 kd ready] }
theorem witness_Launching : alls [(launchS.sr 3).toNat % 64 == 0, (launchS.sr 0).toNat % 64 == 0, (padd 0x9000 1).toNat % 64 != 0, okIs (launchS.probeRecord (launchS.sr 2)) (· == some 0x3000),
    okIs (launchS.probeRecord 0) (· == none), errIs (launchS.probeRecord 0x3001) (fun _ => true),
    okIs (launchS.readKd (launchS.origin 0x3000).issuer 0x9000) (fun b => wordsOf 16 b == slotZeroKd),
    okIs (launchS.readKd hostIssuer 0x9000) (fun b => wordsOf 16 b == slotZeroKd), errIs (launchS.readKd (launchS.origin 0x3000).issuer (2 ^ 41)) (fun _ => true),
    errIs (launchS.readKd hostIssuer (2 ^ 41)) (fun _ => true), okIs (((launchS.clearR 0).setEmpty (some 0x3000)).retire.probe (launchS.origin 0x3000).issuer 0x3000 32 32) (· == 0x3000),
    okIs ((((launchS.noteRange (launchS.origin 0x3000).issuer 0x9000 128).clearR 0).setEmpty (some 0x3000)).retire.probe (launchS.origin 0x3000).issuer 0x3000 32 32) (· == 0x3000),
    kdOk slotZeroKd false, !Kd.indirect slotZeroKd, !launchS.neverFits 1 1, !kdOk (kd0 5 1) false, Kd.secure (kd0 1 (wd slotZeroKd 1 ||| 2 ^ 63)),
    fencedS.neverFits 24 16, Kd.indirect (kd0 1 (wd slotZeroKd 1 ||| 2 ^ 62)),
    has ((waitS indKd false).launches.find? fun m => m.id == 3 && !m.ready) (fun l => l.by_ == .host 5 && wd l.kd 4 == 0xA000), okIs ((waitS slotZeroKd true).readPlace hostIssuer 0xA000 16) (fun b => wordsOf 2 b == [0x101, 0]),
    shapeOk 1 1 0, okIs ((waitS slotZeroKd true).readPlace hostIssuer 0xA040 16) (fun b => wordsOf 2 b == [0, 0]), !shapeOk 0 1 0,
    has ((waitS slotZeroKd false).launches.find? fun l => !l.ready && !(waitS slotZeroKd false).streamBusy l) (fun l => l.id == 3),
    ((waitS slotZeroKd true).launches.find? fun l => !l.ready && !(waitS slotZeroKd true).streamBusy l) == none,
    has ((waitS slotZeroKd true).launches.find? fun l => l.ready && !(waitS slotZeroKd true).waitsBehind l && (waitS slotZeroKd true).canPlace l) (fun l => l.id == 3),
    (State.reset.launches.find? fun l => l.ready && !State.reset.waitsBehind l && State.reset.canPlace l) == none] = true := by decide +kernel

/-- The image of a partition of one tile and no bead, and a capacity that holds one. -/
def part0 : Part := ((phaseS .drained).partAt 0).getD { x0 := 0, y0 := 0, w := 1, h := 1, world := false, kd := [], tshape := 0, nrod := 1, launcher := .host 0,
                                                         stream := .host, launch := 0, born := 0 }
def imagedS : State := poke imgS 0x33000 ([16 + 16 + 272 + 16, 0, 0x0100000000000110, 0] ++ (partWords part0 ++ List.replicate 34 0).take 34 ++ [0x0F00000000000000, 0])
theorem witness_SavedImages_restored : imgAt imagedS 0x33000 (fun r => has r fun xs => has (imagePart xs) fun ws =>
    imagedS.freeNumber == some 1 && imagedS.findOrigin (wd ws 16).toNat (wd ws 17).toNat (Kd.nrod (ws.take 16)) == some (1, 0)) = true := by decide +kernel
/-- Where no tile is free. -/
def fullImage : State := { imagedS with tiles := (List.range 384).map fun k => (k, { fenced := true }) }
theorem witness_SavedImages_full : imgAt fullImage 0x33000 (fun r => has r fun xs => has (imagePart xs) fun ws =>
    fullImage.findOrigin (wd ws 16).toNat (wd ws 17).toNat (Kd.nrod (ws.take 16)) == none) = true := by decide +kernel

/-- An image with a force-saved bead, barrier registers, a rod of one record, a scratchpad page and a global page. -/
def wholeImage : List ImgSection :=
  let b (n : Nat) (ws : List Word) : List Byte := bytesOfWords (ws ++ List.replicate (n - ws.length) 0)
  [{ kind := 1, body := b 34 (partWords part0) }, { kind := 6, body := b 16 [2 ^ 62] }, { kind := 7, body := b 8 [0x100040] },
   { kind := 3, loc := 0x1000, body := b 36 ([1, 0] ++ List.replicate 32 0 ++ [5]) }, { kind := 8, loc := 0x40000, body := b 34 [] }, { kind := 2, body := b 714 [] }]
def wholeS : State :=
  let bs := leBytes 8 1136 ++ leBytes 8 0 ++ (wholeImage.take 5).flatMap ImgSection.bytes ++ leBytes 8 (15 * 2 ^ 56)
  let cells := (bs.zipIdx.filter fun e => e.1 != 0).map fun e => (0x34000 + e.2, e.1)
  regs { imgS with mem := imgS.mem ++ cells } [(3, 0x34000)]
/-- Its memory image, but for the 5,712 zeros of the force-saved bead, which are too many for a test to read back. -/
theorem witness_SavedImages_whole : imgAt wholeS 0x34000 (fun r => r == some (wholeImage.take 5)) = true := by decide +kernel
/-- Both with the force-saved bead, whose tile is not the one that executes CTXRS, and without it. -/
theorem witness_SavedImages_restorable : ([wholeImage.take 5, wholeImage].all fun xs =>
    let s := wholeS
    has (imagePart xs) fun ws =>
      let kd := ws.take 16
      let us := rectUnits (1, 0) (wd ws 16).toNat (wd ws 17).toNat
      alls [s.freeNumber == some 1, s.findOrigin (wd ws 16).toNat (wd ws 17).toNat (Kd.nrod kd) == some (1, 0), s.moves == [], us == [0],
        (pageSections xs).map (s.pageOfSection (1, 0)) == [2 ^ 40 + 2 ^ 21 + 0x1000, 0x40000],
        (List.range 4096).all fun z => (s.ringByte (s.homeLoc (s.current 0x40000 + z))).isNone,
        (xs.map fun e => if e.kind = 2 then 1 else if e.kind = 7 then e.body.length / 64 else 0).sum ≤ 2 ^ Kd.ring kd,
        xs.all fun e => (rodSectionsOf xs e.loc.toNat).length ≤ us.length, xs.all fun e => e.kind != 7 || e.records.all fun y => bitOf y.w3 33 == Kd.secure kd,
        xs.all fun e => e.kind != 2 || bitOf (coreRec e.words).w3 33 == Kd.secure kd, Map.rising none (s.unitAt 0).rods && (s.unitAt 0).rodsOf (some 1) == [],
        s.newRod kd 0 0 == some 1, s.cur != 1, (s.tileAt 1).bars == []]) = true := by decide +kernel
theorem witness_SavedImages_fits : has ((capS' 0x10000).partAt 0) (fun x =>
    let s := capS' 0x10000
    let xs := (noted s 0x30000).imageSections 0 x false
    let n := (xs.flatMap ImgSection.bytes).length
    let s2 := (noted s 0x30000).countUnits xs
    16 + n ≤ 0x10000 && okIs (s2.writePieces (s2.issuer 416 .c) 0x30010 (n / 32 + 2) n) fun _ => true) = true := by
  decide +kernel

/-- A placement of the waiting launch on tile 0, the root word in HBM, and its initial bead. -/
def rootKd : List Word := kd0 5 0x3000
def placedS : State := done (waitS rootKd true) (.kernelPlacement 3)
theorem witness_Launching_places : alls [(waitS rootKd true).freeNumber == some 0, (waitS rootKd true).findOrigin 1 1 1 == some (0, 0),
    has ((waitS rootKd true).launches.find? fun m => m.id == 3) fun l => let s1 := (waitS rootKd true).setUp 0 ((waitS rootKd true).newPart l 0 0)
      okIs (s1.probeWord (deviceIssuer (tileAtXY 0 0) (some 0) false l.kd) (wd l.kd 5)) (· == 0x3000) && fld l.tshape 0 16 != 0 && !s1.spanPoisoned 0x3000 16 &&
        decide (s1.joinCount 0x3000 + l.w * l.h ≤ 2 ^ 32 - 1),
    (waitS rootKd true).joinCount 0x3000 + 1 ≤ 2 ^ 32 - 1,
    has (placedS.partAt 0) fun x => x.tiles == [0] && has ((((placedS.unitAt 0).rodsOf (some 0)).getD (min (Kd.prio x.kd) (x.nrod - 1)) 0 |> placedS.rodAt 0)) fun r =>
      (List.range r.cap).all fun n => (Map.find? r.slots n).isNone] = true := by decide +kernel

/-- Two tiles of one cluster, each with a slot for its initial bead. -/
def pairS : State := done { poke State.reset 0xA000 [0x101, 0] with launches := [{ launch0 rootKd true with w := 2 }] } (.kernelPlacement 3)
theorem witness_Launching_pair : has (pairS.partAt 0) (fun x => x.tiles == [0, 1] && unitOf 0 == unitOf 1 &&
    has (pairS.rodAt 0 (((pairS.unitAt 0).rodsOf (some 0)).getD (min (Kd.prio x.kd) (x.nrod - 1)) 0)) fun r =>
      2 ≤ ((List.range r.cap).filter fun n => (Map.find? r.slots n).isNone).length) = true := by decide +kernel

/-- The command queue empty and not, in boot state 3; completions held, with the ring full and with its last place free. -/
def hostS : State := { State.reset with host := { state := 3, hcqh := 1, hcqt := 2 } }
def heldH (hcpt hcph : Nat) : HostPort := { state := 3, hcpt := hcpt, hcph := hcph, held := [{ stat := 6, ctag := 3, enk := 0, cyc := 0 }] }
theorem witness_HostQueues : alls [State.reset.host.hcqh == State.reset.host.hcqt, hostS.host.hcqh != hostS.host.hcqt, State.reset.host.state != 3, hostS.host.state == 3,
    hostS.host.hcqh != (15 : BitVec 32).toNat % 16, !hostS.hostWaits, (heldH 15 0).held != [], (15 + 1) % 16 == 0 % 16, (15 + 1) % 16 != 1 % 16,
    okIs ((paged State.reset).translate hostIssuer 0x2000 8 false false) (fun p => p == .mem 0x2000),
    okIs ((paged State.reset).readPieces hostIssuer 0x2000 9 8) (fun b => b.length == 8), okIs ((paged State.reset).writePieces hostIssuer 0x2000 9 8) (· == [(0x2000, 8)]),
    errIs ((paged State.reset).translate hostIssuer (2 ^ 40) 8 false false) (fun _ => true), ((paged State.reset).dieAt 0).events.length < 256,
    errIs ((paged State.reset).readPieces hostIssuer (2 ^ 40) 9 8) (fun _ => true), errIs ((paged State.reset).writePieces hostIssuer (2 ^ 40) 9 8) (fun _ => true),
    ((paged State.reset)).moves == []] = true := by decide +kernel

def rampS (step : Nat) (r : Ramp) (x : PartPhase) (late : Bool) : State := { (bead0.modPart 0 fun p => { p with phase := x, rampUs := 1, rampFrom := 0 }) with
  tiles := [(0, { bead0.tileAt 0 with ramp := r, rampStep := step, step := step })], cyc := if late then 2 ^ 40 else 0 }
def quietS : State := { (bead0.modPart 0 fun p => { p with phase := .quiesce }) with cores := [], units := [] }
/-- The launching bead's completion record at 0x3000; a tile with an armed barrier. -/
def origin0 : Origin := launchS.origin 0x3000
def askedS : State := quietS.modPart 0 fun p => { p with launcher := .bead origin0 }
def armedS : State := quietS.putBar 0 1 { arr := true }
theorem witness_PowerAndRetirement : alls [has ((rampS 0 .steady .quiesce false).partAt 0) (fun x => x.phase == .quiesce && !(rampS 0 .steady .quiesce false).quiet 0 x),
    has (quietS.partAt 0) (fun x => x.phase == .quiesce && quietS.quiet 0 x && x.launcher == .host 0 && x.tiles == [0] && x.units == [0]), quietS.findings 0 == [], armedS.findings 0 == [0x1B],
    okIs ((((askedS.modPart 0 fun p => { p with recorded := false }).stopStreams 0).checkPart 0 ((askedS.partAt 0).getD part0)).probe origin0.issuer origin0.cr 32 32) (· == 0x3000), origin0.cr != 0,
    has (askedS.partAt 0) (fun x => x.launcher == .bead origin0 && askedS.quiet 0 x), has (armedS.partAt 0) (fun x => armedS.quiet 0 x),
    quietS.runningStreams 0 0 == [], (quietS.unitAt 0).rodsOf (some 0) == [],
    has ((rampS 1 .up .running false).partAt 0) (fun x => !(rampS 1 .up .running false).rampDue x), has ((rampS 1 .up .running true).partAt 0) (fun x => (rampS 1 .up .running true).rampDue x),
    ((rampS 1 .up .running true).tileAt 0).ramp == .up, (rampS 1 .up .running true).mayFall 0,
    !((rampS 1 .up .running true).modTile 0 fun t => { t with fell := some (2 ^ 40) }).mayFall 0, has ((rampS 5 .down .rampDown true).partAt 0) (fun x => x.phase == .rampDown && (rampS 5 .down .rampDown true).rampDue x),
    ((rampS 5 .down .rampDown true).tileAt 0).rampStep < 6, 6 ≤ ((rampS 6 .down .rampDown true).tileAt 0).rampStep,
    has ((rampS 6 .down .rampDown false).partAt 0) (fun x => !(rampS 6 .down .rampDown false).rampDue x)] = true ∧ [0].Nodup := by decide +kernel

/-- An import of key 5 to device 7, one unit long, home 0; the same in the secure world alone. -/
def exportS (w0 : Word) : State := { State.reset with sys := [(sysKey 0x048 0, w0)], gmeta := [(4, mkMeta true false false 9)] }
def peerReq0 (off : Nat) (op : PeerOp) : PeerReq := { dev := 7, ent := 0, key := 5, off := off, n := 8, tag := 0, secure := false, op := op }
def openEntry : Word := 2 ^ 63 + 2 ^ 61 + 7 * 2 ^ 36 + 5 * 2 ^ 24 + 1
theorem witness_DeviceSteps : (let s := exportS openEntry
    let w0 := s.sysReg 0x048 0
    alls [bitOf w0 63, fld w0 24 12 == 5, fld w0 36 12 == 7, 0xFFF8 + 8 ≤ fld w0 0 24 * 65536, bitOf w0 61, !bitOf w0 62, !s.secureIn 0 8, !PeerOp.moves .read, PeerOp.moves .lineOut, !s.poisoned 0 64, !s.lostIn 0 8, ({ peerS with lost := [5] } : State).lostIn 0x1FFC 8, !(bitOf (exportS 0 |>.sysReg 0x048 0) 63),
      s.current 0 == 0, has (s.tagMiss 128 8 0) (fun _ => true), s.tagMiss 0 8 0 == none, !s.poisoned 0 8, 2 ^ 40 < 2 ^ 40 - 7 + 8,
      peerS.current 0x2000 == frameBase 5 + 7 * 4096, ({ peerS with lost := [5] } : State).lost.contains (fld (peerS.indir 0x2000) 32 12),
      peerReq0 0 (.write []) != peerReq0 0 .read, (2 ^ 40 : Nat) - 8 + 8 ≤ 2 ^ 40,
      ({ s with sys := s.sys ++ [(sysKey 0x040 0, 0x8000000000000000), (sysKey 0x040 8, 0xFFFFFFFFFF)] } : State).sys != []]) = true := by decide +kernel

/-- Home unit 1 lies at unit 3: an access of eight bytes over units 0 and 1 has two runs, the second of another tag or not. -/
def twoS (tag : Byte) : State := { exportS openEntry with sys := [(sysKey 0x048 0, openEntry), (sysKey (unitBlock 1) (unitOff 1), 2 ^ 63 + 3)], gmeta := [(0x180, mkMeta true false false tag)] }
theorem witness_DeviceSteps_runs : (let rs := unitRuns (twoS 0).current 0xFFC 8
    let miss (s : State) := rs.findSome? fun r => s.tagMiss r.1 r.2 0
    alls [rs == [(0xFFC, 4), (0x3000, 4)], miss (twoS 0) == none, has (miss (twoS 9)) (fun _ => true), PeerOp.checked .read && PeerOp.checked (.write []) && !PeerOp.checked .tagld,
      !(rs.any fun r => (twoS 0).poisoned r.1 r.2), rs.any fun r => ({ twoS 0 with poison := [0x180] } : State).poisoned r.1 r.2,
      (rs.flatMap fun r => (twoS 0).look r.1 r.2) == (twoS 0).bytesIn rs, (twoS 0).moves == [], (twoS 0).lostIn 0xFFC 8 == false, (twoS 0).secureIn 0xFFC 8 == false]) = true ∧
    (twoS 0).Apart (unitRuns (twoS 0).current 0xFFC 8) := by
  refine ⟨by decide +kernel, Or.inr ⟨?_, Or.inl rfl⟩⟩
  have h : unitRuns (twoS 0).current 0xFFC 8 = [(0xFFC, 4), (0x3000, 4)] := by decide +kernel
  rw [h]; simp

/-- A unit being moved to unit 3, one that is not; a dirty granule; a dead port; offsets of registers. -/
def movingS : State := { State.reset with sys := [(sysKey (unitBlock 2) (unitOff 2), 2 ^ 62 + 2), (sysKey (unitBlock 2) (unitOff 2 + 8), 3)], gmeta := [(0x100, mkMeta true false false 0)] }
/-- A checkpoint to devices 1 and 2, which have both acknowledged. -/
def ckptS : State := { State.reset with sys := [(sysKey 0x070 0, 2 ^ 32 + 2 * 2 ^ 44 + 2)], ckptAcks := [2, 1], ckpt := [0x100] }
theorem witness_DeviceSteps_moves : alls [bitOf (movingS.indir 0x2000) 62, !bitOf (State.reset.indir 0x2000) 62, movingS.current 0x2000 == 0x2000, movingS.moveTarget 2 == 0x3000,
    fld (movingS.sysReg (unitBlock 2) (unitOff 2 + 8)) 32 12 == movingS.devId, !bitOf (0 : Word) 62, bitOf ((2 ^ 62 : Word)) 62 && fld (2 ^ 62 : Word) 32 12 == State.reset.devId,
    movingS.gmeta == [(0x100, mkMeta true false false 0)], metaD (mkMeta true false false 0),
    (State.reset.modDie 0 fun d => { d with deadPorts := [3] }).dieAt 0 != {}, !(State.reset.dieAt 0).deadPorts.contains 3, ({ State.reset with sched := [.linkUpdate 7 0 3] } : State).sched == [.linkUpdate 7 0 3], State.reset.pend == [], State.reset.pass.watchdogDue == none, (State.reset.dieAt 0).events.length < 256,
    !bitOf (State.reset.sysReg 0x070 0) 1, !State.reset.bothAcked, ckptS.bothAcked, bitOf (1 : Word) 0] = true ∧ 2 ^ 40 - 8 < 2 ^ 40 ∧ 0x040 ≤ 0x040 ∧ 0x043 < 0x044 ∧ 0x07C ≤ 0x07F := by decide +kernel

/-- A reset whose flash does not read, and whose images are not four; whether an image passes the boot ROM is the answer of
functions that the model leaves open (log 7), so that case has a witness for every image that passes. -/
theorem witness_ResetAndBoot : bootFail false [] ≠ 0 ∧ (∀ x : BootImage, [x, x, x, x].length = 4) ∧
    ∀ x : BootImage, bootCheck true x = 0 → bootFail true [x, x, x, x] = 0 := by
  refine ⟨by decide +kernel, fun _ => rfl, fun x hx => by simp [bootFail, hx]⟩

/-- The chain at hand, with one, with a violated window and with an unassigned word; a timer that is due and one that is not. -/
def chainS (ws : List Word) : State := { poke bead0 0x100000 ws with cur := 0 }
def timerS (n : Nat) : State := { State.reset with timers := [.checkpointComplete], tick := n }
theorem witness_StepRunsDecoded : alls [({ bead0 with pend := [.checkpointGo] } : State).pend == [.checkpointGo], (timerS 0).nextCore == none, (timerS 0).timers == [.checkpointComplete],
    (timerS 0).pass.nextRequest == none, queuedS.requests == [pklQ .sc 0x2000], queuedS.pass.nextRequest == none,
    (let q := { pklQ .sc 0x2000 with age := 64 }; ({ queuedS with requests := [pklQ .sel 0x2040, q] } : State).pass.nextRequest == some (pklQ .sel 0x2040)),
    ({ queuedS with cores := [] } : State).pass.nextRequest == some (pklQ .sc 0x2000),
    queuedS.timers == [], queuedS.nextCore == some 0, queuedS.pend == [] && queuedS.sched == [], bead0.requests == [],
    (chainS [0x01A0]).nextCore == some 0, ((chainS [0x01A0]).coreAt 0).chkMiss == 0, bead0.pend == [] && bead0.sched == [] && bead0.timers == [],
    okIs ((chainS [0x01A0]).pass.fetchChain 0 5 0x100000) (· == [0x01A0]), errIs ((bead0.setMe { bead0.me with pc := 1 }).pass.fetchChain 0 5 1) (fun _ => true),
    ({ bead0 with sched := [.event .checkpointGo] } : State).sched == [.event .checkpointGo], ((bead0.setMe { bead0.me with chkMiss := 1 }).coreAt 0).chkMiss != 0,
    (timerS 1).rang + 64 ≤ (timerS 64).pass.tick, Core.violates { bead0.me with windows := [(1, [(File.s, 3)])] } (.add 3 3 4), (dec [0x01A0]).isSome && (dec [0x0007]).isNone,
    !Core.violates { bead0.me with windows := [] } (.add 3 3 4), inImage ((chainS [0x01A0]).pass.kdOf 0) 0x100000, okIs ((chainS [0x01A0]).pass.translate ((chainS [0x01A0]).pass.issuer 0 .c) 0x100000 2 false true) (· == .mem 0x100000),
    okIs ((chainS [0x01A0]).pass.memCheck ((chainS [0x01A0]).pass.issuer 0 .c) 0x100000 0x100000 2 true) (fun _ => true), !(chainS [0x01A0]).pass.staleWord 0 0x100000, !isPfx 0x01A0] = true := by
  decide +kernel

/-- A watchdog whose count has reached its limit, whatever the cycles of the step, and no watchdog. -/
def dueS : State := { (wdogS 0).setMe { (wdogS 0).me with wdCount := 100 } with timers := [.rodWatchdogExpiry 0] }
theorem witness_StepRunsDecoded_watchdog : dueS.pass.watchdogDue = some 0 ∧ (chainS [0x01A0]).pass.watchdogDue = none ∧
    (timerS 0).pass.watchdogDue = none := by
  refine ⟨?_, by decide +kernel, by decide +kernel⟩
  have h : (100 : Nat) ≤ dueS.pass.wdNow 0 := Nat.le_add_right 100 _
  exact List.find?_cons_of_pos (by exact (by simp [h] : (true && true && decide ((100 : Nat) ≤ dueS.pass.wdNow 0)) = true))

theorem witness_RoundTrip : (Instr.add 63 0 63).wf = true ∧ (Instr.add 63 0 63).isEvent = false ∧ (Instr.ld ⟨15, 3⟩ .f32 3 63 63 (-512)).wf = true ∧
    (Instr.ld ⟨15, 3⟩ .f32 3 63 63 (-512)).isEvent = false := by decide +kernel

theorem witness_StepKeepsMemory : bead0.memWf = true ∧ (match step bead0 with | .next _ => true | .fault _ => false | .refused _ => false) = true := by decide +kernel

end Sys2Proof.Tests
end

