-- ==== Sys2Proof/Proofs/Reset.lean ====
section
/-! The reset state read through the model's accessors, and the obligation about it (R6, R161, R369, R399). -/

namespace Sys2Proof.Machine

open Sys2Proof

/-! ### A core after reset -/

namespace Core

@[simp] theorem sReg_reset (k r : Nat) : (Core.reset k).sReg r = 0 := by
  by_cases hr : r = 0
  · rw [hr, sReg_zero]
  · simp [sReg, hr, Core.reset, Map.get]

@[simp] theorem vReg_reset (k r : Nat) : (Core.reset k).vReg r = 0 := rfl
@[simp] theorem pReg_reset (k r : Nat) : (Core.reset k).pReg r = 0 := rfl
@[simp] theorem tReg_reset (k r : Nat) : (Core.reset k).tReg r = none := rfl
@[simp] theorem aReg_reset (k r : Nat) : (Core.reset k).aReg r = none := rfl

/-- R161: the SCB of a tile. -/
theorem scb_reset_of_tile {k : Nat} (h : k < 384) : (Core.reset k).scb = 0x1FE000 := if_pos h

/-- R161: the SCB of a link core. -/
theorem scb_reset_of_link {k : Nat} (h : 384 ≤ k) (h' : k < 416) : (Core.reset k).scb = 0x3FC00 :=
  (if_neg (Nat.not_lt.2 h)).trans (if_pos h')

end Core

/-! ### The machine after reset -/

namespace State

@[simp] theorem coreAt_reset (k : Nat) : State.reset.coreAt k = Core.reset k := rfl
@[simp] theorem tileAt_reset (k : Nat) : State.reset.tileAt k = {} := rfl
@[simp] theorem dieAt_reset (d : Nat) : State.reset.dieAt d = {} := rfl
@[simp] theorem sysReg_reset (block off : Nat) : State.reset.sysReg block off = 0 := rfl

/-- No memory lists anything after reset, so each stands in its canonical form. -/
@[simp] theorem memWf_reset : State.reset.memWf = true := by
  have hhost : Memory.wf State.reset.hostMem = true := Map.wf_nil
  have hmeta : Map.wf 0 State.reset.gmeta = true := Map.wf_nil
  rw [memWf, reset_memWf, hhost, hmeta, Bool.and_self, Bool.and_self]

end State

/-- Settles O56: the tables of the reset state are empty, so every accessor answers its entry's reset value, and a core's
SCB follows its kind (R161). -/
theorem resetState : Obligations.ResetState := by
  unfold Obligations.ResetState
  refine ⟨State.memWf_reset, rfl, rfl, rfl, rfl, rfl, rfl, rfl, State.sysReg_reset, fun k => ?_⟩
  rw [State.coreAt_reset, State.dieAt_reset, State.tileAt_reset]
  refine ⟨rfl, rfl, rfl, rfl, rfl, rfl, rfl, rfl, fun r => ?regs, Core.scb_reset_of_tile, Core.scb_reset_of_link⟩
  case regs =>
    exact ⟨Core.sReg_reset k r, Core.vReg_reset k r, Core.pReg_reset k r, Core.tReg_reset k r, Core.aReg_reset k r⟩

end Sys2Proof.Machine
end

