-- ==== Sys2Proof/Proofs/Writes.lean ====
section
/-! What a checked write to pieces of memory leaves: the bytes where it stores (R157), the records of the reserved regions
(R46), the device steps that it starts (R189). -/

namespace Sys2Proof.Machine

open Sys2Proof

/-! ### Numbers as bytes -/

@[simp] theorem leBytes_length (n v : Nat) : (leBytes n v).length = n := by
  induction n generalizing v with
  | zero => rfl
  | succ n ih => simp [leBytes, ih]

theorem leNat_leBytes (n v : Nat) (h : v < 256 ^ n) : leNat (leBytes n v) = v := by
  induction n generalizing v with
  | zero => simp only [pow_zero, Nat.lt_one_iff] at h; simp [leBytes, leNat, h]
  | succ n ih =>
    have hd : v / 256 < 256 ^ n := by rw [pow_succ] at h; omega
    simp only [leBytes, leNat, ih _ hd, BitVec.toNat_ofNat]
    omega

theorem leNat_lt (bs : List Byte) : leNat bs < 256 ^ bs.length := by
  induction bs with
  | nil => simp [leNat]
  | cons b bs ih =>
    have hb := b.isLt
    simp only [leNat, List.length_cons, pow_succ]
    omega

namespace State

/-! ### Bytes, by the memory alone -/

theorem byte_of_mem_eq {s t : State} (h : t.mem = s.mem) (a : Nat) : t.byte a = s.byte a := by unfold byte; rw [h]

theorem bytes_of_mem_eq {s t : State} (h : t.mem = s.mem) (loc n : Nat) : t.bytes loc n = s.bytes loc n :=
  bytes_congr loc n fun a _ _ => byte_of_mem_eq h a

theorem bytes_eq_of_getD {s : State} {loc : Nat} {bs : List Byte} (h : ∀ i, i < bs.length → s.byte (loc + i) = bs.getD i 0) :
    s.bytes loc bs.length = bs := by
  refine List.ext_getElem (bytes_length ..) fun i h1 h2 => ?_
  have hi := bytes_getD s loc bs.length i h2
  rw [h i h2] at hi
  simpa [List.getD_eq_getElem?_getD, List.getElem?_eq_getElem h1, List.getElem?_eq_getElem h2] using hi

/-! ### What the parts of a write leave, field by field -/

@[simp] theorem putBytes_moves (s : State) (loc : Nat) (bs : List Byte) : (s.putBytes loc bs).moves = s.moves := by
  rw [putBytes_rest]
@[simp] theorem putBytes_units (s : State) (loc : Nat) (bs : List Byte) : (s.putBytes loc bs).units = s.units := by
  rw [putBytes_rest]
@[simp] theorem putBytes_sys (s : State) (loc : Nat) (bs : List Byte) : (s.putBytes loc bs).sys = s.sys := by
  rw [putBytes_rest]
@[simp] theorem putBytes_ringBase (s : State) (loc : Nat) (bs : List Byte) : (s.putBytes loc bs).ringBase = s.ringBase := by
  rw [putBytes_rest]
@[simp] theorem landBytes_pend (s : State) (loc : Nat) (bs : List Byte) : (s.landBytes loc bs).pend = s.pend := by
  rw [landBytes_rest]
@[simp] theorem noteWords_units (s : State) (loc n : Nat) : (s.noteWords loc n).units = s.units := by rw [noteWords_rest]
@[simp] theorem markWrite_units (s : State) (loc n : Nat) : (s.markWrite loc n).units = s.units := by rw [markWrite_rest]
@[simp] theorem countPieces_moves (s : State) (ps : List (Nat × Nat)) : (s.countPieces ps).moves = s.moves := by
  rw [countPieces_rest]
@[simp] theorem countPieces_units (s : State) (ps : List (Nat × Nat)) : (s.countPieces ps).units = s.units := by
  rw [countPieces_rest]
@[simp] theorem countPieces_sys (s : State) (ps : List (Nat × Nat)) : (s.countPieces ps).sys = s.sys := by
  rw [countPieces_rest]
@[simp] theorem countPieces_ringBase (s : State) (ps : List (Nat × Nat)) : (s.countPieces ps).ringBase = s.ringBase := by
  rw [countPieces_rest]
@[simp] theorem countPieces_pend (s : State) (ps : List (Nat × Nat)) : (s.countPieces ps).pend = s.pend := by
  rw [countPieces_rest]

/-! ### One run -/

/-- R157: a run of bytes lands where it lies, and once more where its unit is being moved. -/
theorem byte_putAt_cases (s : State) (loc : Nat) (bs : List Byte) :
    (∀ a, (s.putAt loc bs).byte a = (s.putBytes loc bs).byte a) ∨
      ∃ m ∈ s.moves, m.1 = loc / 4096 ∧ ∀ a, (s.putAt loc bs).byte a =
        if m.2 * 4096 + loc % 4096 ≤ a ∧ a < m.2 * 4096 + loc % 4096 + bs.length
        then bs.getD (a - (m.2 * 4096 + loc % 4096)) 0 else (s.putBytes loc bs).byte a := by
  have hput : ∀ a, (s.putAt loc bs).byte a = (s.landBytes loc bs).byte a := fun a => byte_of_mem_eq (markWrite_mem ..) a
  have hmoves : (((s.putBytes loc bs).pokeRecord loc bs).noteWords loc bs.length).moves = s.moves := by
    rw [noteWords_rest, pokeRecord_rest, ← putBytes_moves s loc bs]
  have hnoted : ∀ a, (((s.putBytes loc bs).pokeRecord loc bs).noteWords loc bs.length).byte a = (s.putBytes loc bs).byte a :=
    fun a => byte_of_mem_eq (by rw [noteWords_mem, pokeRecord_mem]) a
  simp only [hput]
  unfold landBytes
  simp only [hmoves]
  split
  case h_1 m hm =>
    refine .inr ⟨m, List.mem_of_find?_eq_some hm, by simpa using List.find?_some hm, fun a => ?_⟩
    rw [byte_putBytes, hnoted]
  case h_2 => exact .inl hnoted

/-- A write leaves every byte alone that it does not store to. -/
theorem byte_putAt_of_not_stores {s : State} {loc a : Nat} {bs : List Byte} (h : ¬ s.Stores loc bs.length a) :
    (s.putAt loc bs).byte a = s.byte a := by
  simp only [Stores, not_or, not_exists, not_and] at h
  obtain ⟨hown, hmoved⟩ := h
  have hput : (s.putBytes loc bs).byte a = s.byte a := by
    rw [byte_putBytes, if_neg fun ⟨hlo, hhi⟩ => hown hlo hhi]
  rcases byte_putAt_cases s loc bs with hb | ⟨m, hm, hpage, hb⟩
  · rw [hb, hput]
  · rw [hb, if_neg fun ⟨hlo, hhi⟩ => hmoved m hm hpage hlo hhi, hput]

/-- A run of at most a page reads back, wherever its unit is being moved. -/
theorem bytes_putAt {s : State} {loc : Nat} {bs : List Byte} (h : bs.length ≤ 4096 ∨ s.moves = []) :
    (s.putAt loc bs).bytes loc bs.length = bs := by
  refine bytes_eq_of_getD fun i hi => ?_
  have hput : (s.putBytes loc bs).byte (loc + i) = bs.getD i 0 := by
    rw [byte_putBytes, if_pos (by omega), Nat.add_sub_cancel_left]
  rcases byte_putAt_cases s loc bs with hb | ⟨m, hm, hpage, hb⟩
  · rw [hb, hput]
  · have hlen : bs.length ≤ 4096 := h.resolve_right (List.ne_nil_of_mem hm)
    rw [hb]
    split
    · have hsame : loc + i - (m.2 * 4096 + loc % 4096) = i := by omega
      rw [hsame]
    · exact hput

@[simp] theorem putAt_moves (s : State) (loc : Nat) (bs : List Byte) : (s.putAt loc bs).moves = s.moves := by rw [putAt_rest]

theorem stores_mono {s : State} {loc m n a : Nat} (hmn : m ≤ n) (h : s.Stores loc m a) : s.Stores loc n a := by
  rcases h with ⟨hlo, hhi⟩ | ⟨e, he, hpage, hlo, hhi⟩
  · exact .inl ⟨hlo, by omega⟩
  · exact .inr ⟨e, he, hpage, hlo, by omega⟩

/-! ### Pieces -/

theorem byte_putPieces_of_not_stores (ps : List (Nat × Nat)) (s : State) (bs : List Byte) {a : Nat}
    (h : ∀ p ∈ ps, ¬ s.Stores p.1 p.2 a) : (s.putPieces ps bs).byte a = s.byte a := by
  induction ps generalizing s bs with
  | nil => rfl
  | cons p ps ih =>
    obtain ⟨hp, hps⟩ := List.forall_mem_cons.1 h
    have hfirst : (s.putAt p.1 (bs.take p.2)).byte a = s.byte a :=
      byte_putAt_of_not_stores fun hst => hp (stores_mono (List.length_take_le ..) hst)
    rw [putPieces, ih _ _ (by simpa [Stores] using hps), hfirst]

/-- A piece is not stored to by the pieces after it, where they lie apart. -/
theorem not_stores_of_apart {s : State} {p q : Nat × Nat} {a : Nat} (hpq : p.1 + p.2 ≤ q.1 ∨ q.1 + q.2 ≤ p.1)
    (hmoves : s.moves = [] ∨ ((p.1 % 4096 + p.2 ≤ 4096 ∧ ∀ m ∈ s.moves, m.2 ≠ p.1 / 4096) ∧ q.1 % 4096 + q.2 ≤ 4096))
    (ha : p.1 ≤ a ∧ a < p.1 + p.2) : ¬ s.Stores q.1 q.2 a := by
  rintro (⟨hlo, hhi⟩ | ⟨m, hm, hpage, hlo, hhi⟩)
  · omega
  · obtain ⟨⟨hp, hne⟩, hq⟩ := hmoves.resolve_left (List.ne_nil_of_mem hm)
    have := hne m hm
    omega

theorem bytesIn_putPieces (ps : List (Nat × Nat)) (s : State) (bs : List Byte) (hlen : (ps.map Prod.snd).sum = bs.length)
    (hpair : ps.Pairwise fun p q => p.1 + p.2 ≤ q.1 ∨ q.1 + q.2 ≤ p.1)
    (hmoves : s.moves = [] ∨ ∀ p ∈ ps, p.1 % 4096 + p.2 ≤ 4096 ∧ ∀ m ∈ s.moves, m.2 ≠ p.1 / 4096) :
    (s.putPieces ps bs).bytesIn ps = bs := by
  induction ps generalizing s bs with
  | nil => exact (List.length_eq_zero_iff.1 hlen.symm).symm
  | cons p ps ih =>
    simp only [List.map_cons, List.sum_cons] at hlen
    obtain ⟨hp, hps⟩ := List.pairwise_cons.1 hpair
    have htake : (bs.take p.2).length = p.2 := by rw [List.length_take]; omega
    have hkept : (s.putPieces (p :: ps) bs).bytes p.1 p.2 = (s.putAt p.1 (bs.take p.2)).bytes p.1 p.2 :=
      bytes_congr _ _ fun a hlo hhi => byte_putPieces_of_not_stores ps _ _ fun q hq =>
        not_stores_of_apart (hp q hq)
          (by rw [putAt_moves]
              exact hmoves.imp_right fun h => ⟨h p (List.mem_cons_self ..), (h q (List.mem_cons_of_mem _ hq)).1⟩)
          ⟨hlo, hhi⟩
    have hown : (s.putAt p.1 (bs.take p.2)).bytes p.1 p.2 = bs.take p.2 := by
      have := bytes_putAt (s := s) (loc := p.1) (bs := bs.take p.2)
        (hmoves.symm.imp_left fun h => by have := (h p (List.mem_cons_self ..)).1; omega)
      rwa [htake] at this
    have hrest : (s.putPieces (p :: ps) bs).bytesIn ps = bs.drop p.2 :=
      ih _ _ (by rw [List.length_drop]; omega) hps
        (by rw [putAt_moves]; exact hmoves.imp_right fun h q hq => h q (List.mem_cons_of_mem _ hq))
    calc (s.putPieces (p :: ps) bs).bytesIn (p :: ps)
        = (s.putPieces (p :: ps) bs).bytes p.1 p.2 ++ (s.putPieces (p :: ps) bs).bytesIn ps := rfl
      _ = bs.take p.2 ++ bs.drop p.2 := by rw [hkept, hown, hrest]
      _ = bs := List.take_append_drop ..

theorem putPieces_holds (s : State) (ps : List (Nat × Nat)) (bs : List Byte) (hlen : (ps.map Prod.snd).sum = bs.length) :
    s.Holds ps bs (s.putPieces ps bs) := by
  refine ⟨fun y hy => byte_putPieces_of_not_stores ps s bs hy, ?_⟩
  rintro (⟨⟨loc, n⟩, rfl, hn⟩ | ⟨hpair, hmoves⟩)
  case inl =>
    obtain rfl : n = bs.length := by simpa using hlen
    have := bytes_putAt (s := s) (loc := loc) (bs := bs) (.inl hn)
    simpa [bytesIn, putPieces] using this
  case inr => exact bytesIn_putPieces ps s bs hlen hpair hmoves

theorem holds_of_mem_eq {s u v : State} {ps : List (Nat × Nat)} {bs : List Byte} (h : s.Holds ps bs u) (hm : v.mem = u.mem) :
    s.Holds ps bs v := by
  obtain ⟨hrest, hown⟩ := h
  refine ⟨fun y hy => (byte_of_mem_eq hm y).trans (hrest y hy), fun ha => ?_⟩
  rw [← hown ha]
  exact List.flatMap_congr fun p _ => bytes_of_mem_eq hm p.1 p.2

/-- What a write has to hold depends on the memory before it and on the units that are being moved. -/
theorem holds_of_same_start {s t u : State} {ps : List (Nat × Nat)} {bs : List Byte} (h : t.Holds ps bs u)
    (hm : t.mem = s.mem) (hv : t.moves = s.moves) : s.Holds ps bs u := by
  cases s; cases t
  dsimp only at hm hv
  subst hm hv
  exact h

/-- Pieces that have been checked take the bytes of a write, and every other byte is as before. -/
theorem fillPieces_holds (s : State) (ps : List (Nat × Nat)) (bs : List Byte) (hlen : (ps.map Prod.snd).sum = bs.length) :
    s.Holds ps bs (s.fillPieces ps bs) :=
  holds_of_same_start (putPieces_holds (s.countPieces ps) ps bs hlen) (countPieces_mem ..) (countPieces_moves ..)

/-! ### Objects that may lie over the end of a home unit -/

theorem runsFrom_sum (s : State) (loc n : Nat) : ((s.runsFrom loc n).map Prod.snd).sum = n := by
  unfold runsFrom
  simp only
  split_ifs with h
  · simp only [Bool.and_eq_true, decide_eq_true_eq] at h
    simp; omega
  · simp

theorem runsFrom_of_fits {s : State} {loc n : Nat} (h : loc % 4096 + n ≤ 4096) : s.runsFrom loc n = [(loc, n)] := by
  have hk : ¬ 4096 - loc % 4096 < n := by omega
  simp [runsFrom, hk]

theorem placeFrom_of_fits {s : State} {loc o : Nat} (h : loc % 4096 + o < 4096) : s.placeFrom loc o = loc + o := by
  have hk : ¬ 4096 ≤ loc % 4096 + o := by omega
  simp [placeFrom, hk]

theorem spanWrite_holds (s : State) (loc : Nat) (bs : List Byte) :
    s.Holds (s.runsFrom loc bs.length) bs (s.spanWrite loc bs) :=
  fillPieces_holds s _ bs (runsFrom_sum ..)

theorem spanWrite_rest (s : State) (loc : Nat) (bs : List Byte) :
    s.spanWrite loc bs = { s with
      mem := (s.spanWrite loc bs).mem, units := (s.spanWrite loc bs).units, ctxs := (s.spanWrite loc bs).ctxs,
      acnt := (s.spanWrite loc bs).acnt, gmeta := (s.spanWrite loc bs).gmeta, written := (s.spanWrite loc bs).written,
      ckpt := (s.spanWrite loc bs).ckpt, poison := (s.spanWrite loc bs).poison, pend := (s.spanWrite loc bs).pend } :=
  fillPieces_rest _ s bs

@[simp] theorem spanWrite_cores (s : State) (loc : Nat) (bs : List Byte) : (s.spanWrite loc bs).cores = s.cores := by
  rw [spanWrite_rest]
@[simp] theorem spanWrite_parts (s : State) (loc : Nat) (bs : List Byte) : (s.spanWrite loc bs).parts = s.parts := by
  rw [spanWrite_rest]
@[simp] theorem spanWrite_sys (s : State) (loc : Nat) (bs : List Byte) : (s.spanWrite loc bs).sys = s.sys := by
  rw [spanWrite_rest]
@[simp] theorem spanWrite_ringBase (s : State) (loc : Nat) (bs : List Byte) : (s.spanWrite loc bs).ringBase = s.ringBase := by
  rw [spanWrite_rest]

/-! ### The reserved regions (R46) -/

/-- What stands in the reserved regions depends on the units, on where the rings lie and on the system registers. -/
theorem reservedBytes_congr {s t : State} (hu : t.units = s.units) (hs : t.sys = s.sys) (hr : t.ringBase = s.ringBase) (loc : Nat) :
    t.reservedBytes loc = s.reservedBytes loc := by
  cases s; cases t
  dsimp only at hu hs hr
  subst hu hs hr
  rfl

/-- What a home unit is known by depends on the system registers. -/
theorem locKey_congr {s t : State} (hs : t.sys = s.sys) (loc : Nat) : t.locKey loc = s.locKey loc := by
  cases s; cases t
  dsimp only at hs
  subst hs
  rfl

/-- A read within 16 bytes outside the reserved regions returns memory's bytes. -/
theorem spanLook_of_unreserved {s : State} {loc n : Nat} (h16 : loc % 16 + n ≤ 16) (hr : s.reservedBytes loc = none) :
    s.spanLook loc n = s.bytes loc n := by
  have hfits : loc % 4096 + n ≤ 4096 := by omega
  have hk : min n (16 - loc % 16) = n := by omega
  simp only [spanLook, runsFrom_of_fits hfits, List.flatMap_cons, List.flatMap_nil, List.append_nil, look, lookUnits, hk,
    hr, Nat.sub_self, if_true]
  split_ifs with hn
  · subst hn; rfl
  · rfl

/-- A write within 16 bytes where nothing stands in a reserved region changes no record of one. -/
theorem pokeRecord_of_unreserved {s : State} {loc : Nat} {bs : List Byte} (h16 : loc % 16 + bs.length ≤ 16)
    (hr : s.reservedBytes loc = none) : s.pokeRecord loc bs = s := by
  have hk : min bs.length (16 - loc % 16) = bs.length := by omega
  unfold pokeRecord
  split
  · simp only [pokeUnits, hk, List.drop_length, List.isEmpty_nil, if_true]
    unfold reservedBytes at hr
    split
    · rfl
    · split
      · rfl
      · rename_i r hat
        simp only [hat, Option.map_eq_none_iff] at hr
        rw [hr]
  · rfl

theorem putAt_units_of_unreserved {s : State} {loc : Nat} {bs : List Byte} (h16 : loc % 16 + bs.length ≤ 16)
    (hr : s.reservedBytes loc = none) : (s.putAt loc bs).units = s.units := by
  have hput : (s.putBytes loc bs).reservedBytes loc = none := by
    rw [← hr]
    exact reservedBytes_congr (putBytes_units ..) (putBytes_sys ..) (putBytes_ringBase ..) loc
  have hland : (s.landBytes loc bs).units = s.units := by
    unfold landBytes
    rw [pokeRecord_of_unreserved h16 hput]
    simp only
    split <;> simp
  rw [← hland]
  exact markWrite_units ..

theorem spanWrite_units_of_unreserved {s : State} {loc : Nat} {bs : List Byte} (h16 : loc % 16 + bs.length ≤ 16)
    (hr : s.reservedBytes loc = none) : (s.spanWrite loc bs).units = s.units := by
  have hfits : loc % 4096 + bs.length ≤ 4096 := by omega
  simp only [spanWrite, fillPieces, runsFrom_of_fits hfits, putPieces, List.take_length]
  rw [putAt_units_of_unreserved h16, countPieces_units]
  rw [← hr]
  exact reservedBytes_congr (countPieces_units ..) (countPieces_sys ..) (countPieces_ringBase ..) loc

/-! ### The device steps that a write starts (R189) -/

/-- A device step under way after a write was so before it, or wakes the beads parked on a granule. -/
def WakesOnly (s t : State) : Prop := ∀ e ∈ t.pend, e ∈ s.pend ∨ ∃ g, e = .parkTableWake g

theorem WakesOnly.refl {s t : State} (h : t.pend = s.pend) : s.WakesOnly t := fun _ he => .inl (h ▸ he)

theorem WakesOnly.trans {s t u : State} (h : s.WakesOnly t) (g : t.WakesOnly u) : s.WakesOnly u :=
  fun e he => (g e he).elim (h e) .inr

theorem noteWrite_wakesOnly (s : State) (g : Nat) (f : Bool) : s.WakesOnly (s.noteWrite g f) := by
  intro e he
  unfold noteWrite at he
  simp only at he
  split at he
  · rcases List.mem_append.1 he with he | he
    · exact .inl he
    · exact .inr ⟨g, List.mem_singleton.1 he⟩
  · exact .inl he

theorem markWrite_wakesOnly (s : State) (loc n : Nat) : s.WakesOnly (s.markWrite loc n) := by
  unfold markWrite
  split
  · generalize granules loc n = gs
    induction gs generalizing s with
    | nil => exact .refl rfl
    | cons g gs ih => exact (noteWrite_wakesOnly s g _).trans (ih _)
  · exact .refl rfl

theorem putAt_wakesOnly (s : State) (loc : Nat) (bs : List Byte) : s.WakesOnly (s.putAt loc bs) :=
  (WakesOnly.refl (landBytes_pend s loc bs)).trans (markWrite_wakesOnly _ loc bs.length)

theorem putPieces_wakesOnly (ps : List (Nat × Nat)) (s : State) (bs : List Byte) : s.WakesOnly (s.putPieces ps bs) := by
  induction ps generalizing s bs with
  | nil => exact .refl rfl
  | cons p ps ih => exact (putAt_wakesOnly s p.1 _).trans (ih _ _)

theorem spanWrite_wakesOnly (s : State) (loc : Nat) (bs : List Byte) : s.WakesOnly (s.spanWrite loc bs) :=
  (WakesOnly.refl (countPieces_pend ..)).trans (putPieces_wakesOnly _ _ bs)

end State

end Sys2Proof.Machine
end

