-- ==== Sys2Proof/Proofs/Rods.lean ====
section
/-! Rods, their slots and the overflow list: what an enqueued record leaves (R46, R129, R165), and where a record waits
(R129, log 14). -/

namespace Sys2Proof.Machine

open Sys2Proof

/-! ### What the device's own accesses leave of a unit -/

namespace BeadUnit

@[simp] theorem hit_rods (x : BeadUnit) (us : List Nat) : (x.hit us).rods = x.rods := rfl
@[simp] theorem hit_overflow (x : BeadUnit) (us : List Nat) : (x.hit us).overflow = x.overflow := rfl
@[simp] theorem wroteAt_rods (x : BeadUnit) (gs : List Nat) : (x.wroteAt gs).rods = x.rods := rfl
@[simp] theorem wroteAt_overflow (x : BeadUnit) (gs : List Nat) : (x.wroteAt gs).overflow = x.overflow := rfl

theorem mem_foldl_insert (gs l : List Nat) {g : Nat} (h : g ∈ gs ∨ g ∈ l) :
    g ∈ gs.foldl (fun l g => if l.contains g then l else g :: l) l := by
  induction gs generalizing l with
  | nil => simpa using h
  | cons a gs ih =>
    have hstep : ∀ y, y = a ∨ y ∈ l → y ∈ (if l.contains a then l else a :: l) := by
      intro y hy
      split_ifs with ha
      · exact hy.elim (fun h => h ▸ (by simpa using ha)) id
      · simpa using hy
    exact ih _ (h.elim (fun h => (List.mem_cons.1 h).elim (fun h => .inr (hstep g (.inl h))) .inl) fun h => .inr (hstep g (.inr h)))

/-- R165: D is set in the granules that the device writes. -/
theorem mem_wroteAt_wrote (x : BeadUnit) {gs : List Nat} {g : Nat} (h : g ∈ gs) : g ∈ (x.wroteAt gs).wrote :=
  mem_foldl_insert gs x.wrote (.inl h)

end BeadUnit

theorem sameMemory_of_eq {s t : State} (hm : t.mem = s.mem) (hg : t.gmeta = s.gmeta) : SameMemory s t :=
  ⟨fun a => State.byte_of_mem_eq hm a, fun g => by unfold State.metaAt; rw [hg]⟩

/-! ### Places of the overflow list (log 14) -/

theorem mem_of_lt_freePlace {taken : List Nat} {m : Nat} (h : m < freePlace taken) : m ∈ taken := by
  unfold freePlace at h
  cases hf : (List.range taken.length).find? fun n => !taken.contains n with
  | none =>
    rw [hf] at h
    simpa using List.find?_eq_none.1 hf m (List.mem_range.2 h)
  | some n =>
    rw [hf] at h
    obtain ⟨-, -, hbefore⟩ := List.find?_range_eq_some.1 hf
    simpa using hbefore m h

/-- Of as many places as there are entries and one more, one is free. -/
theorem freePlace_not_mem (taken : List Nat) : freePlace taken ∉ taken := by
  cases hf : (List.range taken.length).find? fun n => !taken.contains n with
  | none =>
    have hall : List.range taken.length ⊆ taken := fun m hm => by simpa using List.find?_eq_none.1 hf m hm
    have hperm : (List.range taken.length).Perm taken :=
      (List.nodup_range.subperm hall).perm_of_length_le (by simp)
    have hplace : freePlace taken = taken.length := by unfold freePlace; rw [hf]; rfl
    rw [hplace, ← hperm.mem_iff]
    simp
  | some n =>
    have hplace : freePlace taken = n := by unfold freePlace; rw [hf]; rfl
    rw [hplace]
    simpa using List.find?_some hf

/-- A rod with a bead at the tail of its ready order (R129). -/
def Rod.withReady (rod : Rod) (slot : Nat) (x : BeadSlot) : Rod :=
  { rod with
    slots := Map.put rod.slots slot x
    ready := rod.ready ++ [slot]
    buffered := if rod.ready.length < 4 then rod.buffered + 1 else rod.buffered }

namespace State

/-! ### What the accessors depend on -/

theorem unitAt_of_units_eq {s t : State} (h : t.units = s.units) (u : Nat) : t.unitAt u = s.unitAt u := by unfold unitAt; rw [h]

theorem rodAt_of_unitAt_eq {s t : State} {u : Nat} (h : (t.unitAt u).rods = (s.unitAt u).rods) (r : Nat) :
    t.rodAt u r = s.rodAt u r := by unfold rodAt; rw [h]

@[simp] theorem rodAt_push (s : State) (is : List Ev) (u r : Nat) : (s.push is).rodAt u r = s.rodAt u r := rfl
@[simp] theorem slotAt_push (s : State) (is : List Ev) (b : SlotId) : (s.push is).slotAt b = s.slotAt b := rfl

theorem slotAt_of_rodAt {s : State} {b : SlotId} {rod : Rod} (h : s.rodAt b.unit b.rod = some rod) :
    s.slotAt b = Map.find? rod.slots b.slot := by
  unfold slotAt; rw [h]

theorem modRod_of_rodAt {s : State} {u r : Nat} {rod : Rod} (f : Rod → Rod) (h : s.rodAt u r = some rod) :
    s.modRod u r f = s.putRod u r (f rod) := by
  unfold modRod; rw [h]

/-! ### A record enters its rod (R129) -/

section Enqueue

variable {s : State} {b : SlotId} {rod : Rod} (x : BeadRec) (h : s.rodAt b.unit b.rod = some rod)

include h

/-- An enqueued record is a new bead at its rod's tail, and the device's write of it marks its granules (R165). -/
theorem enqueueNew_unitAt : (s.enqueueNew b x).unitAt b.unit =
    { s.unitAt b.unit with
      rods := Map.put (s.unitAt b.unit).rods b.rod (rod.withReady b.slot { record := x, use := .ready, uid := s.nextBead })
    }.wroteAt (granules (s.slotAddr b).toNat 64) := by
  have hnew : s.newBead.2.rodAt b.unit b.rod = some rod := h
  simp only [enqueueNew, appendTail, modRod_of_rodAt _ hnew, wroteSlot, putRod, modUnit_eq, unitAt_putUnit_same, unitAt_push]
  rfl

theorem enqueueNew_rest : s.enqueueNew b x = { s with
    units := (s.enqueueNew b x).units, nextBead := s.nextBead + 1, pend := s.pend ++ [.pickupGrant b.unit] } := by
  have hnew : s.newBead.2.rodAt b.unit b.rod = some rod := h
  simp only [enqueueNew, appendTail, modRod_of_rodAt _ hnew]
  rfl

theorem enqueueNew_rodAt : (s.enqueueNew b x).rodAt b.unit b.rod =
    some (rod.withReady b.slot { record := x, use := .ready, uid := s.nextBead }) := by
  unfold rodAt
  rw [enqueueNew_unitAt x h]
  simp

theorem enqueueNew_slotAt : (s.enqueueNew b x).slotAt b = some { record := x, use := .ready, uid := s.nextBead } := by
  rw [slotAt_of_rodAt (enqueueNew_rodAt x h)]
  simp [Rod.withReady]

theorem enqueueNew_ready : ((s.enqueueNew b x).rodAt b.unit b.rod).map Rod.ready = some (rod.ready ++ [b.slot]) := by
  rw [enqueueNew_rodAt x h]
  rfl

theorem enqueueNew_overflow : ((s.enqueueNew b x).unitAt b.unit).overflow = (s.unitAt b.unit).overflow := by
  rw [enqueueNew_unitAt x h]
  rfl

theorem enqueueNew_wrote : ∀ g ∈ granules (s.slotAddr b).toNat 64, g ∈ ((s.enqueueNew b x).unitAt b.unit).wrote := by
  intro g hg
  rw [enqueueNew_unitAt x h]
  exact BeadUnit.mem_wroteAt_wrote _ hg

theorem enqueueNew_pend : (s.enqueueNew b x).pend = s.pend ++ [.pickupGrant b.unit] := by rw [enqueueNew_rest x h]
theorem enqueueNew_cores : (s.enqueueNew b x).cores = s.cores := by rw [enqueueNew_rest x h]
theorem enqueueNew_mem : (s.enqueueNew b x).mem = s.mem := by rw [enqueueNew_rest x h]
theorem enqueueNew_gmeta : (s.enqueueNew b x).gmeta = s.gmeta := by rw [enqueueNew_rest x h]

end Enqueue

/-! ### A record waits on the overflow list (R129) -/

@[simp] theorem putLists_unitAt_rods (s : State) (u : Nat) (x : BeadUnit) : ((s.putLists u x).unitAt u).rods = x.rods := by
  simp [putLists]
@[simp] theorem putLists_unitAt_overflow (s : State) (u : Nat) (x : BeadUnit) :
    ((s.putLists u x).unitAt u).overflow = x.overflow := by
  simp [putLists]

/-- A record joins the list at the lowest place that no record takes. -/
theorem addOverflow_overflow (s : State) (u r : Nat) (x : BeadRec) :
    ∃ n, (∀ o ∈ (s.unitAt u).overflow, o.place ≠ n) ∧ (∀ m, m < n → ∃ o ∈ (s.unitAt u).overflow, o.place = m) ∧
      ((s.addOverflow u r x).unitAt u).overflow = (s.unitAt u).overflow ++ [{ rod := r, record := x, place := n }] := by
  refine ⟨freePlace ((s.unitAt u).overflow.map Overflow.place), fun o ho heq => ?_, fun m hm => ?_, ?_⟩
  · exact freePlace_not_mem _ (List.mem_map.2 ⟨o, ho, heq⟩)
  · simpa using mem_of_lt_freePlace hm
  · simp [addOverflow]

theorem addOverflow_rods (s : State) (u r : Nat) (x : BeadRec) :
    ((s.addOverflow u r x).unitAt u).rods = (s.unitAt u).rods := by
  simp [addOverflow]

@[simp] theorem addOverflow_cores (s : State) (u r : Nat) (x : BeadRec) : (s.addOverflow u r x).cores = s.cores := rfl
@[simp] theorem addOverflow_mem (s : State) (u r : Nat) (x : BeadRec) : (s.addOverflow u r x).mem = s.mem := rfl
@[simp] theorem addOverflow_gmeta (s : State) (u r : Nat) (x : BeadRec) : (s.addOverflow u r x).gmeta = s.gmeta := rfl

/-! ### What an access leaves beside its data -/

theorem noteAccess_rest (s : State) (i : Issuer) (va : Word) :
    s.noteAccess i va = { s with cores := (s.noteAccess i va).cores, acnt := (s.noteAccess i va).acnt } := by
  unfold noteAccess
  rw [noteTlb_rest, countAt_rest]

/-- An access changes the issuer's TLB and the units' counts, and nothing else. -/
theorem noteRange_rest (s : State) (i : Issuer) (va : Word) (n : Nat) :
    s.noteRange i va n = { s with cores := (s.noteRange i va n).cores, acnt := (s.noteRange i va n).acnt } := by
  unfold noteRange
  generalize s.unitStarts i va n = ps
  induction ps generalizing s with
  | nil => rfl
  | cons p ps ih =>
    simp only [List.foldl_cons]
    rw [ih, noteAccess_rest]

@[simp] theorem noteRange_units (s : State) (i : Issuer) (va : Word) (n : Nat) : (s.noteRange i va n).units = s.units := by
  rw [noteRange_rest]
@[simp] theorem noteRange_pend (s : State) (i : Issuer) (va : Word) (n : Nat) : (s.noteRange i va n).pend = s.pend := by
  rw [noteRange_rest]
@[simp] theorem noteRange_mem (s : State) (i : Issuer) (va : Word) (n : Nat) : (s.noteRange i va n).mem = s.mem := by
  rw [noteRange_rest]
@[simp] theorem noteRange_gmeta (s : State) (i : Issuer) (va : Word) (n : Nat) : (s.noteRange i va n).gmeta = s.gmeta := by
  rw [noteRange_rest]
@[simp] theorem noteRange_nextBead (s : State) (i : Issuer) (va : Word) (n : Nat) :
    (s.noteRange i va n).nextBead = s.nextBead := by
  rw [noteRange_rest]
@[simp] theorem noteRange_slotAddr (s : State) (i : Issuer) (va : Word) (n : Nat) (b : SlotId) :
    (s.noteRange i va n).slotAddr b = s.slotAddr b := by
  rw [noteRange_rest]; rfl
@[simp] theorem noteRange_unitAt (s : State) (i : Issuer) (va : Word) (n u : Nat) :
    (s.noteRange i va n).unitAt u = s.unitAt u := unitAt_of_units_eq (noteRange_units ..) u
@[simp] theorem noteRange_rodAt (s : State) (i : Issuer) (va : Word) (n u r : Nat) :
    (s.noteRange i va n).rodAt u r = s.rodAt u r := by
  rw [noteRange_rest]; rfl
@[simp] theorem noteRange_parkCaps (s : State) (i : Issuer) (va : Word) (n u : Nat) :
    (s.noteRange i va n).parkCaps u = s.parkCaps u := by
  rw [noteRange_rest]; rfl

end State

end Sys2Proof.Machine
end

