-- ==== Sys2Proof/Proofs/Joins.lean ====
section
/-! Join words at their bank (R50, R51), continuations (R52), the overflow list (R129). -/

namespace Sys2Proof.Machine

open Sys2Proof

/-! ### The device steps at hand -/

theorem performs_bankJoinDecrement {s : State} {j : JoinReq} {P : State → Prop} (h : P (s.bankJoinDecrement j)) :
    Performs s (.bankJoinDecrement j) P := by
  intro hm
  refine ⟨_, ?_, h⟩
  change execBankJoinDecrement s = _
  rw [execBankJoinDecrement, hm]

theorem performs_continuationEnqueue {s : State} {core : Nat} {part : Option Nat} {cont : Word} {P : State → Prop}
    (h : P (s.continuationEnqueue core part cont)) : Performs s (.continuationEnqueue core part cont) P := by
  intro hm
  refine ⟨_, ?_, h⟩
  change execContinuationEnqueue s = _
  rw [execContinuationEnqueue, hm]

theorem performs_overflowListDrain {s : State} {unit : Nat} {P : State → Prop} (h : P (s.overflowListDrain unit)) :
    Performs s (.overflowListDrain unit) P := by
  intro hm
  refine ⟨_, ?_, h⟩
  change execOverflowListDrain s = _
  rw [execOverflowListDrain, hm]

namespace State

/-! ### A join word's fields (R50) -/

theorem joinCount_of_unreserved {s : State} {loc : Nat} (h16 : loc % 16 = 0) (hr : s.reservedBytes loc = none) :
    s.joinCount loc = leNat (s.bytes loc 4) := by
  unfold joinCount
  rw [spanLook_of_unreserved (by omega) hr]

theorem joinCont_of_unreserved {s : State} {loc : Nat} (h16 : loc % 16 = 0) (hr : s.reservedBytes (loc + 8) = none) :
    s.joinCont loc = BitVec.ofNat 64 (leNat (s.bytes (loc + 8) 8)) := by
  unfold joinCont
  rw [placeFrom_of_fits (by omega), spanLook_of_unreserved (by omega) hr]

/-- A write of CNT leaves CONT as it was, wherever the unit of the join word is being moved. -/
theorem bytes_cont_spanWrite (s : State) {loc : Nat} {bs : List Byte} (h16 : loc % 16 = 0) (hlen : bs.length = 4) :
    (s.spanWrite loc bs).bytes (loc + 8) 8 = s.bytes (loc + 8) 8 := by
  refine bytes_congr _ _ fun a hlo hhi => (spanWrite_holds s loc bs).1 a ?_
  rw [runsFrom_of_fits (by omega), hlen]
  simp only [List.mem_singleton, forall_eq]
  rintro (⟨-, hown⟩ | ⟨m, -, -, hfrom, hto⟩) <;> omega

/-! ### Retirement (R392) -/

theorem startRetire_rest (s : State) (p : Nat) :
    s.startRetire p = { s with parts := (s.startRetire p).parts, timers := (s.startRetire p).timers } := by
  unfold startRetire
  split
  · rfl
  · split <;> rfl

theorem startRetires_rest (ps : List Nat) (s : State) :
    ps.foldl startRetire s = { s with parts := (ps.foldl startRetire s).parts, timers := (ps.foldl startRetire s).timers } := by
  induction ps generalizing s with
  | nil => rfl
  | cons p ps ih =>
    rw [List.foldl_cons, ih, startRetire_rest]

theorem startRetire_of_running {s : State} {p : Nat} {x : Part} (hx : s.partAt p = some x) (hr : x.phase = .running) :
    s.startRetire p = (s.putPart p { x with phase := .quiesce }).arm [.retirementQuiesceComplete p] := by
  simp only [startRetire, hx, hr]

theorem startRetire_partAt_other {s : State} {p q : Nat} (h : q ≠ p) : (s.startRetire p).partAt q = s.partAt q := by
  unfold startRetire
  split
  · rfl
  · split <;> simp [partAt_putPart, h]

theorem startRetire_timers_subset (s : State) (p : Nat) : s.timers ⊆ (s.startRetire p).timers := by
  unfold startRetire
  split
  · exact List.Subset.refl _
  · split <;> simp [arm]

/-- The partition's retirement is under way. -/
def Quiesces (s : State) (p : Nat) : Prop :=
  (s.partAt p).map Part.phase = some .quiesce ∧ Ev.retirementQuiesceComplete p ∈ s.timers

theorem startRetire_quiesces {s : State} {p : Nat} {x : Part} (hx : s.partAt p = some x) (hr : x.phase = .running) :
    (s.startRetire p).Quiesces p := by
  rw [startRetire_of_running hx hr]
  exact ⟨by simp [partAt_putPart], by simp [arm]⟩

theorem Quiesces.startRetire {s : State} {p : Nat} (h : s.Quiesces p) (q : Nat) : (s.startRetire q).Quiesces p := by
  obtain ⟨hphase, htimer⟩ := h
  refine ⟨?_, startRetire_timers_subset s q htimer⟩
  by_cases hq : p = q
  · subst hq
    obtain ⟨x, hx, hxp⟩ := Option.map_eq_some_iff.1 hphase
    have hsame : s.startRetire p = s := by simp only [State.startRetire, hx, hxp]
    rw [hsame, hphase]
  · rw [startRetire_partAt_other hq, hphase]

theorem Quiesces.startRetires (ps : List Nat) {s : State} {p : Nat} (h : s.Quiesces p) :
    (ps.foldl State.startRetire s).Quiesces p := by
  induction ps generalizing s with
  | nil => exact h
  | cons q ps ih => exact ih (h.startRetire q)

/-- Each running partition of a list begins its retirement. -/
theorem startRetires_quiesces (ps : List Nat) {s : State} {p : Nat} {x : Part} (hx : s.partAt p = some x) (hr : x.phase = .running)
    (hp : p ∈ ps) : (ps.foldl State.startRetire s).Quiesces p := by
  induction ps generalizing s with
  | nil => cases hp
  | cons q ps ih =>
    by_cases hq : p = q
    · subst hq
      exact (startRetire_quiesces hx hr).startRetires ps
    · exact ih ((startRetire_partAt_other hq).trans hx) ((List.mem_cons.1 hp).resolve_left hq)

/-! ### The decrement at the bank (R51) -/

theorem rootParts_spanWrite (s : State) (loc l : Nat) (bs : List Byte) : (s.spanWrite loc bs).rootParts l = s.rootParts l := by
  unfold rootParts
  rw [locKey_congr (spanWrite_sys s loc bs), spanWrite_parts]

section Decrement

variable {s : State} {j : JoinReq} (href : s.joinRefused j = none) (hok : s.spanPoisoned j.loc 16 = false)

include href hok

theorem bankJoinDecrement_of_zero (hn : s.joinCount j.loc = 0) :
    s.bankJoinDecrement j =
      (s.spanCount j.loc 16).workRecord j.core j.part j.bead { cause := 0x30, va := j.va, cpc := some j.cpc } := by
  simp only [bankJoinDecrement, href, hok, hn, Bool.false_eq_true, if_false, if_true]
  rfl

theorem bankJoinDecrement_of_many (hn : s.joinCount j.loc ≠ 0) (h1 : s.joinCount j.loc ≠ 1) :
    s.bankJoinDecrement j = s.spanWrite j.loc (leBytes 4 (s.joinCount j.loc - 1)) := by
  simp [bankJoinDecrement, href, hok, hn, h1]

theorem bankJoinDecrement_of_root (h1 : s.joinCount j.loc = 1) (hroot : s.rootParts j.loc ≠ []) :
    s.bankJoinDecrement j = (s.rootParts j.loc).foldl startRetire (s.spanWrite j.loc (leBytes 4 (s.joinCount j.loc - 1))) := by
  obtain ⟨p, ps, hps⟩ := List.exists_cons_of_ne_nil hroot
  simp [bankJoinDecrement, href, hok, h1, rootParts_spanWrite, hps]

theorem bankJoinDecrement_of_last (h1 : s.joinCount j.loc = 1) (hroot : s.rootParts j.loc = []) :
    s.bankJoinDecrement j =
      let s1 := s.spanWrite j.loc (leBytes 4 (s.joinCount j.loc - 1))
      if s1.joinCont j.loc = 0 then s1 else s1.push [.continuationEnqueue j.core j.part (s1.joinCont j.loc)] := by
  simp [bankJoinDecrement, href, hok, h1, rootParts_spanWrite, hroot]

/-- A decrement writes CNT; beside that it may begin retirements or call for the continuation. -/
theorem bankJoinDecrement_rest (hn : s.joinCount j.loc ≠ 0) :
    s.bankJoinDecrement j = { s.spanWrite j.loc (leBytes 4 (s.joinCount j.loc - 1)) with
      parts := (s.bankJoinDecrement j).parts, timers := (s.bankJoinDecrement j).timers
      pend := (s.bankJoinDecrement j).pend } := by
  by_cases h1 : s.joinCount j.loc = 1
  · by_cases hroot : s.rootParts j.loc = []
    · rw [bankJoinDecrement_of_last href hok h1 hroot]
      simp only
      split <;> rfl
    · rw [bankJoinDecrement_of_root href hok h1 hroot, startRetires_rest]
  · rw [bankJoinDecrement_of_many href hok hn h1]

theorem bankJoinDecrement_holds (hn : s.joinCount j.loc ≠ 0) :
    s.Holds (s.runsFrom j.loc 4) (leBytes 4 (s.joinCount j.loc - 1)) (s.bankJoinDecrement j) := by
  have hw := spanWrite_holds s j.loc (leBytes 4 (s.joinCount j.loc - 1))
  rw [leBytes_length] at hw
  exact holds_of_mem_eq hw (by rw [bankJoinDecrement_rest href hok hn])

theorem bankJoinDecrement_units (hn : s.joinCount j.loc ≠ 0) (h16 : j.loc % 16 = 0) (hr : s.reservedBytes j.loc = none) :
    (s.bankJoinDecrement j).units = s.units := by
  have hw := spanWrite_units_of_unreserved (bs := leBytes 4 (s.joinCount j.loc - 1)) (by rw [leBytes_length]; omega) hr
  rw [bankJoinDecrement_rest href hok hn]
  exact hw

/-- CNT falls by one. -/
theorem bankJoinDecrement_joinCount (hn : s.joinCount j.loc ≠ 0) (h16 : j.loc % 16 = 0) (hr : s.reservedBytes j.loc = none) :
    (s.bankJoinDecrement j).joinCount j.loc = s.joinCount j.loc - 1 := by
  have hr' : (s.bankJoinDecrement j).reservedBytes j.loc = none := by
    rw [← hr]
    refine reservedBytes_congr (bankJoinDecrement_units href hok hn h16 hr) ?_ ?_ j.loc <;>
      rw [bankJoinDecrement_rest href hok hn]
    · exact spanWrite_sys ..
    · exact spanWrite_ringBase ..
  have hbytes : (s.bankJoinDecrement j).bytes j.loc 4 = leBytes 4 (s.joinCount j.loc - 1) := by
    have hh := bankJoinDecrement_holds href hok hn
    rw [runsFrom_of_fits (by omega)] at hh
    simpa [bytesIn] using hh.2 (.inl ⟨_, rfl, by simp⟩)
  have hlt : s.joinCount j.loc < 256 ^ 4 := by
    have := leNat_lt (s.bytes j.loc 4)
    rwa [bytes_length, ← joinCount_of_unreserved h16 hr] at this
  rw [joinCount_of_unreserved h16 hr', hbytes, leNat_leBytes _ _ (by omega)]

theorem bankJoinDecrement_cores (hn : s.joinCount j.loc ≠ 0) : (s.bankJoinDecrement j).cores = s.cores := by
  rw [bankJoinDecrement_rest href hok hn]
  exact spanWrite_cores ..

theorem bankJoinDecrement_parts_of_many (hn : s.joinCount j.loc ≠ 0) (h1 : s.joinCount j.loc ≠ 1) :
    (s.bankJoinDecrement j).parts = s.parts := by
  rw [bankJoinDecrement_of_many href hok hn h1, spanWrite_parts]

theorem bankJoinDecrement_parts_of_last (h1 : s.joinCount j.loc = 1) (hroot : s.rootParts j.loc = []) :
    (s.bankJoinDecrement j).parts = s.parts := by
  rw [bankJoinDecrement_of_last href hok h1 hroot]
  simp only
  split <;> exact spanWrite_parts ..

/-- From 1 to 0 the continuation that the join word names is called for. -/
theorem bankJoinDecrement_continues (h1 : s.joinCount j.loc = 1) (hroot : s.rootParts j.loc = []) {cont : Word}
    (hcont : BitVec.ofNat 64 (leNat (s.bytes (j.loc + 8) 8)) = cont) (h0 : cont ≠ 0) (h16 : j.loc % 16 = 0)
    (hr : s.reservedBytes j.loc = none) (hr8 : s.reservedBytes (j.loc + 8) = none) :
    Ev.continuationEnqueue j.core j.part cont ∈ (s.bankJoinDecrement j).pend := by
  have hlen : (leBytes 4 (s.joinCount j.loc - 1)).length = 4 := leBytes_length ..
  have hread : (s.spanWrite j.loc (leBytes 4 (s.joinCount j.loc - 1))).joinCont j.loc = cont := by
    rw [joinCont_of_unreserved h16, bytes_cont_spanWrite s h16 hlen, hcont]
    rw [← hr8]
    exact reservedBytes_congr (spanWrite_units_of_unreserved (by omega) hr) (spanWrite_sys ..) (spanWrite_ringBase ..) _
  rw [bankJoinDecrement_of_last href hok h1 hroot]
  simp only
  rw [hread, if_neg h0]
  exact List.mem_append_right _ (List.mem_singleton_self _)

/-- Where the root join word of partitions reaches zero, each of them that runs begins its retirement. -/
theorem bankJoinDecrement_retires (h1 : s.joinCount j.loc = 1) {p : Nat} {x : Part} (hp : p ∈ s.rootParts j.loc)
    (hx : s.partAt p = some x) (hrun : x.phase = .running) : (s.bankJoinDecrement j).Quiesces p := by
  rw [bankJoinDecrement_of_root href hok h1 (List.ne_nil_of_mem hp)]
  refine startRetires_quiesces _ ?_ hrun hp
  unfold partAt
  rw [spanWrite_parts]
  exact hx

/-- A root join word that reaches zero calls for no continuation. -/
theorem bankJoinDecrement_root_pend (h1 : s.joinCount j.loc = 1) (hroot : s.rootParts j.loc ≠ []) :
    s.WakesOnly (s.bankJoinDecrement j) := by
  rw [bankJoinDecrement_of_root href hok h1 hroot]
  exact (spanWrite_wakesOnly s j.loc _).trans (.refl (by rw [startRetires_rest]))

end Decrement

/-! ### Continuations (R52, R129) -/

/-- A checked continuation whose record has been read is placed. -/
theorem continuationEnqueue_of_fits {s s1 : State} {core : Nat} {part : Option Nat} {cont : Word} {bs : List Byte} {x : BeadRec}
    {rod : Rod} (h1 : s.noteRange (s.workIssuer core part) cont 64 = s1)
    (hread : s1.readWhole (s1.workIssuer core part) cont 64 = .ok bs) (hx : recOfWords (wordsOf 8 bs) = x)
    (hrod : s1.rodAt (unitOf core) (fld x.w3 48 4) = some rod) (hpart : rod.part = part) (hfits : worldFits rod x = true) :
    s.continuationEnqueue core part cont = s1.placeContinuation core (fld x.w3 48 4) rod x := by
  have hok : (rod.part != part || !worldFits rod x) = false := by simp [hpart, hfits]
  unfold continuationEnqueue
  rw [h1]
  simp only [hread, hx, hrod, hok, Bool.false_eq_true, if_false]

theorem placeContinuation_of_slot {s : State} {core r : Nat} {rod : Rod} (x : BeadRec) {n : Nat}
    (hnone : ∀ o ∈ (s.unitAt (unitOf core)).overflow, o.rod ≠ r) (hfree : rod.freeSlot? = some n) :
    s.placeContinuation core r rod x = s.enqueueNew { unit := unitOf core, rod := r, slot := n } (fitRecord r rod x) := by
  have hwait : ((s.unitAt (unitOf core)).overflow.any fun o => o.rod == r) = false := by simpa using hnone
  simp [placeContinuation, hwait, hfree]

theorem placeContinuation_of_full {s : State} {core r : Nat} {rod : Rod} (x : BeadRec) (hfree : rod.freeSlot? = none)
    (hroom : (s.unitAt (unitOf core)).overflow.length < (s.parkCaps (unitOf core)).2) :
    s.placeContinuation core r rod x = s.addOverflow (unitOf core) r (fitRecord r rod x) := by
  simp [placeContinuation, hfree, hroom]

/-! ### The overflow list is drained (R129) -/

/-- The oldest record of the list leaves it and enters its rod when that has a free slot. -/
theorem overflowListDrain_of_head {s : State} {unit n : Nat} {o : Overflow} {rest : List Overflow} {rod : Rod}
    (hlist : (s.unitAt unit).overflow = o :: rest) (hrod : s.rodAt unit o.rod = some rod) (hfree : rod.freeSlot? = some n) :
    ∃ s1 : State, s.overflowListDrain unit =
        (s1.enqueueNew { unit := unit, rod := o.rod, slot := n } (refitRecord o.rod rod o.record)).push
          [.overflowListDrain unit] ∧
      s1 = { s with units := s1.units } ∧ (s1.unitAt unit).rods = (s.unitAt unit).rods ∧ (s1.unitAt unit).overflow = rest := by
  refine ⟨s.putLists unit { (s.unitAt unit).hit [s.overflowPage unit o] with overflow := rest }, ?_, rfl,
    putLists_unitAt_rods .., putLists_unitAt_overflow ..⟩
  simp [overflowListDrain, hlist, hrod, hfree, List.findIdx?_cons]

end State

open State

/-! ### The obligation -/

/-- Settles O38: a decrement writes CNT and then what R51 asks for; a continuation takes a slot at its rod's tail or the lowest
place of the overflow list, whose head takes the next free slot (R52, R129). -/
theorem joinsAndContinuations : Obligations.JoinsAndContinuations := by
  unfold Obligations.JoinsAndContinuations
  intro s
  refine ⟨fun j href hok => ⟨fun hn => ?under, fun hn => ?falls⟩, ?continues, fun unit o rest rod n hlist hrod hfree => ?drains⟩
  case under => exact performs_bankJoinDecrement (bankJoinDecrement_of_zero href hok hn)
  case falls =>
    refine performs_bankJoinDecrement ⟨bankJoinDecrement_holds href hok hn, fun h16 hr => ?_, bankJoinDecrement_cores href hok hn,
      bankJoinDecrement_parts_of_many href hok hn, fun h1 hroot => ?_, fun h1 p x hp hx => ⟨fun hrun => ?_, fun c hc => ?_⟩⟩
    · exact ⟨bankJoinDecrement_joinCount href hok hn h16 hr, bankJoinDecrement_units href hok hn h16 hr⟩
    · exact ⟨bankJoinDecrement_parts_of_last href hok h1 hroot, bankJoinDecrement_continues href hok h1 hroot rfl⟩
    · exact bankJoinDecrement_retires href hok h1 hp hx hrun
    · exact (bankJoinDecrement_root_pend href hok h1 (List.ne_nil_of_mem hp) _ hc).resolve_right fun ⟨_, h⟩ => nomatch h
  case continues =>
    intro core part cont bs rod s1 hread x r u hrod hpart hfits
    have hunit : s1.unitAt u = s.unitAt u := noteRange_unitAt ..
    have hrod1 : s1.rodAt u r = some rod := (noteRange_rodAt ..).trans hrod
    have hmem : s1.mem = s.mem := noteRange_mem ..
    have hgmeta : s1.gmeta = s.gmeta := noteRange_gmeta ..
    have hplace : s.continuationEnqueue core part cont = s1.placeContinuation core r rod x :=
      continuationEnqueue_of_fits rfl hread rfl hrod1 hpart hfits
    refine ⟨fun n hnone hfree => performs_continuationEnqueue ?enters,
      fun hfree hroom => performs_continuationEnqueue ?waits⟩ <;> rw [hplace]
    case enters =>
      let b : SlotId := { unit := u, rod := r, slot := n }
      have hin : s1.rodAt b.unit b.rod = some rod := hrod1
      have hbead : s1.nextBead = s.nextBead := noteRange_nextBead ..
      have hpend : s1.pend = s.pend := noteRange_pend ..
      have haddr : s1.slotAddr b = s.slotAddr b := noteRange_slotAddr ..
      rw [placeContinuation_of_slot x (by rw [hunit]; exact hnone) hfree, ← hbead, ← hpend, ← haddr]
      exact ⟨enqueueNew_slotAt _ hin, enqueueNew_ready _ hin, enqueueNew_pend _ hin, enqueueNew_wrote _ hin,
        enqueueNew_cores _ hin, sameMemory_of_eq ((enqueueNew_mem _ hin).trans hmem) ((enqueueNew_gmeta _ hin).trans hgmeta)⟩
    case waits =>
      have hcaps : s1.parkCaps u = s.parkCaps u := noteRange_parkCaps ..
      rw [placeContinuation_of_full x hfree (by rw [hunit, hcaps]; exact hroom), ← hunit]
      exact ⟨addOverflow_overflow .., addOverflow_rods .., addOverflow_cores ..,
        sameMemory_of_eq ((addOverflow_mem ..).trans hmem) ((addOverflow_gmeta ..).trans hgmeta)⟩
  case drains =>
    refine performs_overflowListDrain ?_
    obtain ⟨s1, hdrain, hrest, hrods, hoverflow⟩ := overflowListDrain_of_head hlist hrod hfree
    let b : SlotId := { unit := unit, rod := o.rod, slot := n }
    have hin : s1.rodAt b.unit b.rod = some rod := (rodAt_of_unitAt_eq hrods o.rod).trans hrod
    have hbead : s1.nextBead = s.nextBead := by rw [hrest]
    have hcores : s1.cores = s.cores := by rw [hrest]
    have hmem : s1.mem = s.mem := by rw [hrest]
    have hgmeta : s1.gmeta = s.gmeta := by rw [hrest]
    rw [hdrain, unitAt_push, slotAt_push, rodAt_push, push_cores, ← hbead]
    exact ⟨(enqueueNew_overflow (b := b) _ hin).trans hoverflow, enqueueNew_slotAt (b := b) _ hin,
      enqueueNew_ready (b := b) _ hin, (enqueueNew_cores (b := b) _ hin).trans hcores,
      sameMemory_of_eq ((enqueueNew_mem (b := b) _ hin).trans hmem) ((enqueueNew_gmeta (b := b) _ hin).trans hgmeta)⟩

end Sys2Proof.Machine
end

