-- ==== Sys2Proof/Proofs/Pieces.lean ====
section
/-! The pieces of an access: their lengths (R155, R166), what an issuer without TLB leaves (R153), and the event and record of a
failed access (R367, R373). -/

namespace Sys2Proof.Machine

open Sys2Proof

namespace State

/-! ### The lengths of pieces -/

theorem homePlace_split_lt {s : State} {i : Issuer} {va : Word} {pa n loc k next : Nat}
    (h : s.homePlace i va pa n = .ok (.split loc k next)) : k < n := by
  unfold homePlace at h
  simp only at h
  split_ifs at h with hpa hsec hlost hover
  · cases h
  · cases h
    exact hover.1
  · cases h

theorem importPlace_ne_split {s : State} {i : Issuer} {dev ent key off n loc k next : Nat} {wr : Bool} :
    s.importPlace i dev ent key off n wr ≠ .split loc k next := by
  unfold importPlace
  split
  · nofun
  · split
    · nofun
    · split <;> nofun

theorem transScratch_ne_split {s : State} {i : Issuer} {va : Word} {n loc k next : Nat} :
    s.transScratch i va n ≠ .ok (.split loc k next) := by
  unfold transScratch
  simp only
  split_ifs
  · nofun
  · split
    · nofun
    · split_ifs <;> nofun
  · nofun
  · split
    · nofun
    · split_ifs <;> nofun

theorem transCommons_ne_split {s : State} {i : Issuer} {va : Word} {n loc k next : Nat} {wr : Bool} :
    s.transCommons i va n wr ≠ .ok (.split loc k next) := by
  unfold transCommons
  split
  · nofun
  · simp only
    split_ifs
    · nofun
    · nofun
    · split <;> nofun

theorem transSys_ne_split {i : Issuer} {va : Word} {n loc k next : Nat} : transSys i va n ≠ .ok (.split loc k next) := by
  unfold transSys
  split_ifs <;> nofun

/-- An access is split within its bytes: only one to a home address is (R155). -/
theorem translate_split_lt {s : State} {i : Issuer} {va : Word} {n loc k next : Nat} {wr ex : Bool}
    (h : s.translate i va n wr ex = .ok (.split loc k next)) : k < n := by
  unfold translate at h
  split at h
  · cases h
  · split at h
    · unfold transGlobal at h
      split at h
      · cases h
      · simp only [Except.ok.injEq] at h
        exact absurd h importPlace_ne_split
      · exact homePlace_split_lt h
    · exact absurd h transScratch_ne_split
    · exact absurd h transScratch_ne_split
    · exact absurd h transCommons_ne_split
    · exact absurd h transCommons_ne_split
    · exact absurd h transSys_ne_split

/-- The runs of a checked write take all its bytes. -/
theorem writeRuns_sum {s : State} {i : Issuer} {va : Word} {n : Nat} {rs : List (Nat × Nat)}
    (h : s.writeRuns i va n = .ok rs) : (rs.map Prod.snd).sum = n := by
  unfold writeRuns at h
  split at h
  case h_1 => cases h
  case h_2 =>
    split at h <;> cases h
    simp
  case h_3 loc k next htr =>
    have hk := translate_split_lt htr
    split at h <;> cases h
    simp only [List.map_cons, List.map_nil, List.sum_cons, List.sum_nil]
    omega
  case h_4 => cases h
  case h_5 => cases h

/-- With a step of fuel for each byte, the pieces of a checked write take all its bytes. -/
theorem writeFrom_sum {s : State} {i : Issuer} {at_ va : Word} {fuel n : Nat} {ps : List (Nat × Nat)} (hf : n < fuel)
    (h : s.writeFrom i at_ va fuel n = .ok ps) : (ps.map Prod.snd).sum = n := by
  induction fuel generalizing va n ps with
  | zero => omega
  | succ fuel ih =>
    unfold writeFrom at h
    split_ifs at h with hn
    · cases h
      exact hn.symm
    · simp only at h
      split at h
      case h_1 => cases h
      case h_2 rs hrs =>
        split at h
        case h_1 => cases h
        case h_2 rest hrest =>
          cases h
          have hpos : 0 < min n (32 - va.toNat % 32) := by omega
          rw [List.map_append, List.sum_append, writeRuns_sum hrs, ih (by omega) hrest]
          omega

theorem writePieces_sum {s : State} {i : Issuer} {va : Word} {fuel n : Nat} {ps : List (Nat × Nat)} (hf : n < fuel)
    (h : s.writePieces i va fuel n = .ok ps) : (ps.map Prod.snd).sum = n := writeFrom_sum hf h

@[simp] theorem fillPieces_cores (s : State) (ps : List (Nat × Nat)) (bs : List Byte) :
    (s.fillPieces ps bs).cores = s.cores := by
  rw [fillPieces_rest]

/-! ### An issuer that does not translate by walks (R153) -/

theorem noteTlb_of_steward {s : State} {i : Issuer} (va : Word) (hi : i.steward = true) : s.noteTlb i va = s := by
  simp [noteTlb, walks, hi]

/-- An access of untranslated home addresses changes the units' counts alone. -/
theorem noteRange_of_steward {s : State} {i : Issuer} (va : Word) (n : Nat) (hi : i.steward = true) :
    s.noteRange i va n = { s with acnt := (s.noteRange i va n).acnt } := by
  unfold noteRange
  generalize s.unitStarts i va n = ps
  induction ps generalizing s with
  | nil => rfl
  | cons p ps ih =>
    simp only [List.foldl_cons]
    rw [ih, noteAccess, noteTlb_of_steward p hi, countAt_rest]

/-! ### The steward's records and events (R367, R373) -/

theorem dieAt_of_dies_eq {s t : State} (h : t.dies = s.dies) (d : Nat) : t.dieAt d = s.dieAt d := by unfold dieAt; rw [h]

@[simp] theorem noteFailed_dies (s : State) (i : Issuer) (va : Word) (n : Nat) (f : FaultInfo) :
    (s.noteFailed i va n f).dies = s.dies := by
  rw [noteFailed_rest]

@[simp] theorem countUnit_dies (s : State) (loc : Nat) : (s.countUnit loc).dies = s.dies := by rw [countUnit_rest]
@[simp] theorem writeAt_dies (s : State) (loc : Nat) (bs : List Byte) : (s.writeAt loc bs).dies = s.dies := by
  rw [writeAt_rest]

@[simp] theorem stewardRecord_dies (s : State) (die : Nat) (ws : List Word) : (s.stewardRecord die ws).1.dies = s.dies := by
  unfold stewardRecord
  simp only
  split
  · rfl
  · rw [writeAt_dies, writeAt_dies, countUnit_dies]

/-- What the steward is told is an event behind a record, where its area takes one. -/
theorem tellSteward_posts (s : State) (die kind : Nat) (part : Option Nat) (ws : List Word) :
    ∃ id, (s.tellSteward die kind part ws).1 = (s.stewardRecord die ws).1.post die kind part 0 id := by
  unfold tellSteward
  simp only
  split
  case h_1 n _ _ => exact ⟨n, rfl⟩
  case h_2 => exact ⟨_, rfl⟩

theorem post_events {s : State} {die : Nat} (kind : Nat) (part : Option Nat) (rod id : Nat)
    (h : (s.dieAt die).events.length < 256) : ((s.post die kind part rod id).dieAt die).events =
      (s.dieAt die).events ++ [eventWord kind (part.getD 0xFF) rod id] := by
  rw [post, modDie_eq, dieAt_putDie_same, Die.post, if_pos h]

/-- KIND stands in bits [63:56] of an event (R373). -/
theorem fld_eventWord_kind {kind : Nat} (part rod id : Nat) (h : kind < 256) : fld (eventWord kind part rod id) 56 8 = kind := by
  unfold fld eventWord
  rw [BitVec.toNat_ofNat]
  omega

/-- While the queue has room, the steward finds one event more, of the kind told. -/
theorem tellSteward_events {s : State} {die kind : Nat} (part : Option Nat) (ws : List Word) (hk : kind < 256)
    (h : (s.dieAt die).events.length < 256) :
    ∃ w, ((s.tellSteward die kind part ws).1.dieAt die).events = (s.dieAt die).events ++ [w] ∧ fld w 56 8 = kind := by
  obtain ⟨id, hid⟩ := tellSteward_posts s die kind part ws
  have hsame : (s.stewardRecord die ws).1.dieAt die = s.dieAt die := dieAt_of_dies_eq (stewardRecord_dies ..) die
  refine ⟨eventWord kind (part.getD 0xFF) 0 id, ?_, fld_eventWord_kind _ _ _ hk⟩
  rw [hid, post_events _ _ _ _ (by rwa [hsame]), hsame]

end State

end Sys2Proof.Machine
end

