-- ==== Sys2Proof/Proofs/HostQueues.lean ====
section
/-! The host port: host memory, commands (R67, R68, R71), completions (R69, R70), the host's accesses (R168). -/

namespace Sys2Proof.Machine

open Sys2Proof

/-! ### The device steps at hand -/

theorem performs_of_exec {s t : State} {e : Ev} {P : State → Prop} (h : s.msg = some e → exec e.instr s = .next t) (hP : P t) :
    Performs s e P := fun hm => ⟨t, h hm, hP⟩

section Exec

variable {s : State}

theorem exec_hostQueueRegisterWrite {off : Nat} {v : Word} (hm : s.msg = some (.hostQueueRegisterWrite off v)) :
    exec .hostQueueRegisterWrite s = .next (s.hostQueueRegisterWrite off v) := by
  change execHostQueueRegisterWrite s = _
  rw [execHostQueueRegisterWrite, hm]

theorem exec_hcqtDoorbell {v : BitVec 32} (hm : s.msg = some (.hcqtDoorbell v)) :
    exec .hcqtDoorbell s = .next (s.hcqtDoorbell v) := by
  change execHcqtDoorbell s = _
  rw [execHcqtDoorbell, hm]

theorem exec_hostNopCommand {ctag : BitVec 32} (hm : s.msg = some (.hostNopCommand ctag)) :
    exec .hostNopCommand s = .next (s.hostNopCommand ctag) := by
  change execHostNopCommand s = _
  rw [execHostNopCommand, hm]

theorem exec_hostUnknownCommand {ctag : BitVec 32} (hm : s.msg = some (.hostUnknownCommand ctag)) :
    exec .hostUnknownCommand s = .next (s.hostUnknownCommand ctag) := by
  change execHostUnknownCommand s = _
  rw [execHostUnknownCommand, hm]

theorem exec_hcphWrite {v : BitVec 32} (hm : s.msg = some (.hcphWrite v)) : exec .hcphWrite s = .next (s.hcphWrite v) := by
  change execHcphWrite s = _
  rw [execHcphWrite, hm]

theorem exec_completionWrite (hm : s.msg = some .completionWrite) : exec .completionWrite s = .next s.completionWrite := by
  change execCompletionWrite s = _
  rw [execCompletionWrite, hm]

theorem exec_hostMemAccess {off n : Nat} {write : Option (List Byte)} (hm : s.msg = some (.hostMemAccess off n write)) :
    exec .hostMemAccess s = .next (s.hostMemAccess off n write) := by
  change execHostMemAccess s = _
  rw [execHostMemAccess, hm]

end Exec

/-! ### The port after a completion, the pointer of an access -/

/-- The port after the oldest completion has gone out: the tail moves, the phase turns at the end of a pass, a message has been
sent if the host asks for one. -/
def HostPort.written (h : HostPort) (rest : List Completion) : HostPort :=
  { h with
    held := rest
    hcpt := (h.hcpt + 1) % h.cplSize
    phase := if (h.hcpt + 1) % h.cplSize = 0 then !h.phase else h.phase
    msiSent := h.msiSent || h.hcpi }

/-- The pointer of an access: the tag in offset bits [47:40], the home address in [39:0]. -/
def hostPointer (off : Nat) : Word := BitVec.ofNat 64 (off / 2 ^ 40 % 256 * 2 ^ 56 + off % 2 ^ 40)

/-! ### The word of a completion (R69) -/

/-- The first word of an entry: STAT, P and CTAG. -/
def completionWord (c : Completion) (phase : Bool) : Word :=
  BitVec.ofNat 64 (c.stat * 2 ^ 48 + phase.toNat * 2 ^ 32 + c.ctag.toNat)

theorem completionBytes_eq (c : Completion) (phase : Bool) : completionBytes c phase =
    leBytes 8 (completionWord c phase).toNat ++ (leBytes 8 c.enk.toNat ++ (leBytes 8 c.cyc.toNat ++ leBytes 8 0)) := by
  simp [completionBytes, bytesOfWords, completionWord]

theorem completionBytes_length (c : Completion) (phase : Bool) : (completionBytes c phase).length = 32 := by
  simp [completionBytes_eq]

section CompletionWord

variable {c : Completion} (phase : Bool) (h : c.stat < 256)

include h

theorem completionWord_toNat : (completionWord c phase).toNat = c.stat * 2 ^ 48 + phase.toNat * 2 ^ 32 + c.ctag.toNat := by
  have hp := phase.toNat_le
  have hc := c.ctag.isLt
  rw [completionWord, BitVec.toNat_ofNat]
  omega

theorem completionWord_stat : fld (completionWord c phase) 48 8 = c.stat := by
  have hp := phase.toNat_le
  have hc := c.ctag.isLt
  rw [fld, completionWord_toNat phase h]
  omega

theorem completionWord_phase : bitOf (completionWord c phase) 32 = phase := by
  have hc := c.ctag.isLt
  rw [bitOf, completionWord_toNat phase h, Nat.testBit_eq_decide_div_mod_eq]
  cases phase <;> simp <;> omega

theorem completionWord_ctag : fld (completionWord c phase) 0 32 = c.ctag.toNat := by
  have hc := c.ctag.isLt
  rw [fld, completionWord_toNat phase h]
  omega

end CompletionWord

theorem leNat_leBytes_word (w : Word) : leNat (leBytes 8 w.toNat) = w.toNat := leNat_leBytes 8 _ w.isLt

namespace State

/-! ### Host memory -/

theorem putHost_rest (s : State) (a : Nat) (bs : List Byte) : s.putHost a bs = { s with hostMem := (s.putHost a bs).hostMem } := by
  induction bs generalizing s a with
  | nil => rfl
  | cons b bs ih => rw [putHost, ih]

/-- A byte of host memory after bytes have been written there. -/
theorem get_putHost (s : State) (a y : Nat) (bs : List Byte) : Map.get (s.putHost a bs).hostMem blankByte y =
    if a ≤ y ∧ y < a + bs.length then bs.getD (y - a) 0 else Map.get s.hostMem blankByte y := by
  induction bs generalizing s a with
  | nil =>
    have hno : ¬ (a ≤ y ∧ y < a + ([] : List Byte).length) := by simp
    rw [putHost, if_neg hno]
  | cons b bs ih =>
    rw [putHost, ih, Map.get_set, List.length_cons]
    by_cases hy : y = a
    · subst hy
      rw [if_neg (by omega), if_pos rfl, if_pos (by omega), Nat.sub_self, List.getD_cons_zero]
    · by_cases hin : a + 1 ≤ y ∧ y < a + 1 + bs.length
      · have hsub : y - a = y - (a + 1) + 1 := by omega
        rw [if_pos hin, if_pos (by omega), hsub, List.getD_cons_succ]
      · rw [if_neg hin, if_neg hy, if_neg (by omega)]

theorem hostBytes_of_hostMem_eq {s t : State} (h : t.hostMem = s.hostMem) (a n : Nat) : t.hostBytes a n = s.hostBytes a n := by
  unfold hostBytes; rw [h]

/-- Bytes that have been written among others read back. -/
theorem hostBytes_putHost (s : State) (a : Nat) (pre bs post : List Byte) :
    (s.putHost a (pre ++ (bs ++ post))).hostBytes (a + pre.length) bs.length = bs := by
  refine List.ext_getElem (by simp [hostBytes]) fun i h1 h2 => ?_
  have hin : a ≤ a + pre.length + i ∧ a + pre.length + i < a + (pre ++ (bs ++ post)).length := by simp; omega
  have hsub : a + pre.length + i - a = pre.length + i := by omega
  simp only [hostBytes, List.getElem_map, List.getElem_range]
  rw [get_putHost, if_pos hin, hsub]
  simp [List.getD_eq_getElem?_getD, List.getElem?_append_right, List.getElem?_append_left h2, List.getElem?_eq_getElem h2]

theorem hostBytes_putHost_other (s : State) {a y : Nat} {bs : List Byte} (h : y < a ∨ a + bs.length ≤ y) :
    (s.putHost a bs).hostBytes y 1 = s.hostBytes y 1 := by
  simp only [hostBytes, List.range_one, List.map_cons, List.map_nil, Nat.add_zero]
  rw [get_putHost, if_neg (by omega)]

section Entry

variable (s : State) (a : Nat) (c : Completion) (phase : Bool)

/-- A completion's entry reads back word by word. -/
theorem hostBytes_entry_word :
    (s.putHost a (completionBytes c phase)).hostBytes a 8 = leBytes 8 (completionWord c phase).toNat := by
  have h := hostBytes_putHost s a [] (leBytes 8 (completionWord c phase).toNat)
    (leBytes 8 c.enk.toNat ++ (leBytes 8 c.cyc.toNat ++ leBytes 8 0))
  rw [leBytes_length, List.nil_append, List.length_nil, Nat.add_zero] at h
  rw [completionBytes_eq]
  exact h

theorem hostBytes_entry_enk : (s.putHost a (completionBytes c phase)).hostBytes (a + 8) 8 = leBytes 8 c.enk.toNat := by
  have h := hostBytes_putHost s a (leBytes 8 (completionWord c phase).toNat) (leBytes 8 c.enk.toNat)
    (leBytes 8 c.cyc.toNat ++ leBytes 8 0)
  rw [leBytes_length, leBytes_length] at h
  rw [completionBytes_eq]
  exact h

theorem hostBytes_entry_cyc : (s.putHost a (completionBytes c phase)).hostBytes (a + 16) 8 = leBytes 8 c.cyc.toNat := by
  have h := hostBytes_putHost s a (leBytes 8 (completionWord c phase).toNat ++ leBytes 8 c.enk.toNat)
    (leBytes 8 c.cyc.toNat) (leBytes 8 0)
  rw [List.length_append, leBytes_length, leBytes_length, leBytes_length, List.append_assoc] at h
  rw [completionBytes_eq]
  exact h

end Entry

/-! ### The next command (R67, R68, R71) -/

theorem hostNext_of_waits {s : State} (h : s.host.state ≠ 3 ∨ s.host.hcqh = s.host.hcqt ∨ s.hostWaits = true) :
    s.hostNext = s := if_pos h

/-- In boot state 3, with a command in the ring and none that waits, the device reads the next one. -/
theorem hostNext_of_ready {s : State} (h3 : s.host.state = 3) (hq : s.host.hcqh ≠ s.host.hcqt) (hw : s.hostWaits = false) :
    s.hostNext = { s with
      host := { s.host with hcqh := (s.host.hcqh + 1) % s.host.cmdSize }
      pend := s.pend ++ [commandStep (wordsOf 8 (s.hostBytes (s.host.hcqb.toNat + 64 * s.host.hcqh) 64))] } := by
  have hno : ¬ (s.host.state ≠ 3 ∨ s.host.hcqh = s.host.hcqt ∨ s.hostWaits = true) := by simp [h3, hq, hw]
  rw [hostNext]
  simp only [if_neg hno]
  rfl

/-- Reading a command moves HCQH and starts the step that serves it. -/
theorem hostNext_rest (s : State) : s.hostNext = { s with
    host := { s.host with hcqh := s.hostNext.host.hcqh }, pend := s.hostNext.pend } := by
  unfold hostNext
  simp only
  split <;> rfl

/-- A doorbell moves HCQT; no command is read outside boot state 3, from an empty ring or while one waits. -/
theorem hcqtDoorbell_of_waits {s : State} {v : BitVec 32}
    (h : s.host.state ≠ 3 ∨ s.host.hcqh = v.toNat % s.host.cmdSize ∨ s.hostWaits = true) :
    s.hcqtDoorbell v = { s with host := { s.host with hcqt := v.toNat % s.host.cmdSize } } := hostNext_of_waits h

theorem hcqtDoorbell_of_ready {s : State} {v : BitVec 32} (h3 : s.host.state = 3)
    (hq : s.host.hcqh ≠ v.toNat % s.host.cmdSize) (hw : s.hostWaits = false) :
    s.hcqtDoorbell v = { s with
      host := { s.host with hcqt := v.toNat % s.host.cmdSize, hcqh := (s.host.hcqh + 1) % s.host.cmdSize }
      pend := s.pend ++ [commandStep (wordsOf 8 (s.hostBytes (s.host.hcqb.toNat + 64 * s.host.hcqh) 64))] } :=
  hostNext_of_ready h3 hq hw

theorem commandStep_nop {ws : List Word} (h : fld (wd ws 0) 56 8 = 0) :
    commandStep ws = .hostNopCommand ((wd ws 0).setWidth 32) := by
  simp [commandStep, h]

theorem commandStep_launch {ws : List Word} (h : fld (wd ws 0) 56 8 = 1) :
    commandStep ws = .hostLaunchCommand ((wd ws 0).setWidth 32) (wd ws 1) := by
  simp [commandStep, h]

theorem commandStep_unknown {ws : List Word} (h : 1 < fld (wd ws 0) 56 8) :
    commandStep ws = .hostUnknownCommand ((wd ws 0).setWidth 32) := by
  have h0 : fld (wd ws 0) 56 8 ≠ 0 := by omega
  have h1 : fld (wd ws 0) 56 8 ≠ 1 := by omega
  simp [commandStep, h0, h1]

/-- A command that completes at once: the completion is held, then the next command is read. -/
theorem complete_hostNext_holds (s : State) (c : Completion) :
    SameMemory s (s.complete c).hostNext ∧ (s.complete c).hostNext.cores = s.cores ∧
      (s.complete c).hostNext.host.held = s.host.held ++ [c] := by
  rw [hostNext_rest]
  exact ⟨sameMemory_of_eq rfl rfl, rfl, rfl⟩

/-! ### Host queue registers (R67) -/

/-- Bases and sizes stay while a command waits. -/
theorem hostQueueRegisterWrite_of_busy {s : State} {off : Nat} (v : Word) (h : s.host.hcqh ≠ s.host.hcqt)
    (hoff : off ∈ [0x000, 0x008, 0x020, 0x028]) : s.hostQueueRegisterWrite off v = s := by
  simp only [List.mem_cons, List.not_mem_nil, or_false] at hoff
  obtain rfl | rfl | rfl | rfl := hoff <;> exact if_pos h

/-- HCQH, HCPT and the state of the boot are read-only. -/
theorem hostQueueRegisterWrite_of_readOnly (s : State) {off : Nat} (v : Word) (hoff : off ∈ [0x018, 0x038, 0x100]) :
    s.hostQueueRegisterWrite off v = s := by
  simp only [List.mem_cons, List.not_mem_nil, or_false] at hoff
  obtain rfl | rfl | rfl := hoff <;> rfl

section Idle

variable {s : State} (v : Word) (h : s.host.hcqh = s.host.hcqt)

include h

theorem hostQueueRegisterWrite_hcqb : s.hostQueueRegisterWrite 0x000 v = { s with host := { s.host with hcqb := v } } :=
  if_neg (not_not_intro h)

theorem hostQueueRegisterWrite_hcqn :
    s.hostQueueRegisterWrite 0x008 v = { s with host := { s.host with hcqn := v.toNat % 16 } } :=
  if_neg (not_not_intro h)

theorem hostQueueRegisterWrite_hcpb : s.hostQueueRegisterWrite 0x020 v = { s with host := { s.host with hcpb := v } } :=
  if_neg (not_not_intro h)

theorem hostQueueRegisterWrite_hcpn : s.hostQueueRegisterWrite 0x028 v =
    { s with host := { s.host with hcpn := v.toNat % 16 }, pend := s.pend ++ [.completionWrite] } :=
  if_neg (not_not_intro h)

end Idle

/-! ### Completions (R69, R70) -/

theorem completionWrite_of_waits {s : State}
    (h : s.host.held = [] ∨ (s.host.hcpt + 1) % s.host.cplSize = s.host.hcph % s.host.cplSize) : s.completionWrite = s := by
  unfold completionWrite
  split
  case h_1 => rfl
  case h_2 c rest hheld =>
    have hfull := h.resolve_left (by rw [hheld]; nofun)
    simp [HostPort.room, hfull]

section Room

variable {s : State} {c : Completion} {rest : List Completion} (hheld : s.host.held = c :: rest)
  (hroom : (s.host.hcpt + 1) % s.host.cplSize ≠ s.host.hcph % s.host.cplSize)

include hheld hroom

/-- The oldest completion goes out, then its message. -/
theorem completionWrite_of_room :
    s.completionWrite = { s.putHost (s.host.hcpb.toNat + 32 * s.host.hcpt) (completionBytes c s.host.phase) with
      host := s.host.written rest
      outbox := s.outbox ++ (if s.host.hcpi && !s.host.msiSent then [.msix s.host.msixAddr s.host.msixData] else [])
      pend := s.pend ++ (if rest.isEmpty then [] else [.completionWrite]) } := by
  have hr : s.host.room = true := by simp [HostPort.room, hroom]
  unfold completionWrite
  simp only [hheld, hr, Bool.not_true, Bool.false_eq_true, if_false]
  rw [putHost_rest]
  split
  · rfl
  · simp [modHost, push, HostPort.written]

/-- Host memory takes the entry and nothing else. -/
theorem completionWrite_hostBytes (y n : Nat) : s.completionWrite.hostBytes y n =
    (s.putHost (s.host.hcpb.toNat + 32 * s.host.hcpt) (completionBytes c s.host.phase)).hostBytes y n :=
  hostBytes_of_hostMem_eq (by rw [completionWrite_of_room hheld hroom]) y n

theorem completionWrite_word :
    BitVec.ofNat 64 (leNat (s.completionWrite.hostBytes (s.host.hcpb.toNat + 32 * s.host.hcpt) 8)) =
      completionWord c s.host.phase := by
  rw [completionWrite_hostBytes hheld hroom, hostBytes_entry_word, leNat_leBytes_word, BitVec.ofNat_toNat, BitVec.setWidth_eq]

theorem completionWrite_enk :
    leNat (s.completionWrite.hostBytes (s.host.hcpb.toNat + 32 * s.host.hcpt + 8) 8) = c.enk.toNat := by
  rw [completionWrite_hostBytes hheld hroom, hostBytes_entry_enk, leNat_leBytes_word]

theorem completionWrite_cyc :
    leNat (s.completionWrite.hostBytes (s.host.hcpb.toNat + 32 * s.host.hcpt + 16) 8) = c.cyc.toNat := by
  rw [completionWrite_hostBytes hheld hroom, hostBytes_entry_cyc, leNat_leBytes_word]

theorem completionWrite_hostBytes_other {y : Nat}
    (h : y < s.host.hcpb.toNat + 32 * s.host.hcpt ∨ s.host.hcpb.toNat + 32 * s.host.hcpt + 32 ≤ y) :
    s.completionWrite.hostBytes y 1 = s.hostBytes y 1 := by
  rw [completionWrite_hostBytes hheld hroom, hostBytes_putHost_other]
  rwa [completionBytes_length]

theorem completionWrite_host : s.completionWrite.host = s.host.written rest := by
  rw [completionWrite_of_room hheld hroom]

theorem completionWrite_outbox : s.completionWrite.outbox =
    s.outbox ++ (if s.host.hcpi && !s.host.msiSent then [.msix s.host.msixAddr s.host.msixData] else []) := by
  rw [completionWrite_of_room hheld hroom]

theorem completionWrite_cores : s.completionWrite.cores = s.cores := by
  rw [completionWrite_of_room hheld hroom, putHost_rest]

theorem completionWrite_sameMemory : SameMemory s s.completionWrite := by
  refine sameMemory_of_eq ?_ ?_ <;> rw [completionWrite_of_room hheld hroom, putHost_rest]

end Room

/-! ### The host's accesses (R168) -/

theorem hostMemAccess_read {s : State} {off n : Nat} {bs : List Byte}
    (h : s.readPieces hostIssuer (hostPointer off) (n + 1) n = .ok bs) :
    s.hostMemAccess off n none = (s.noteRange hostIssuer (hostPointer off) n).emit (.hostData bs) := by
  unfold hostPointer at h ⊢
  simp only [hostMemAccess, h]

theorem emit_of_counted {s t : State} (o : Out) (h : t = { s with acnt := t.acnt }) :
    t.emit o = { s with outbox := s.outbox ++ [o], acnt := (t.emit o).acnt } := by
  rw [h]
  rfl

/-- A read leaves the units' counts and its data on the way to the host. -/
theorem hostMemAccess_read_rest {s : State} {off n : Nat} {bs : List Byte}
    (h : s.readPieces hostIssuer (hostPointer off) (n + 1) n = .ok bs) : s.hostMemAccess off n none =
      { s with outbox := s.outbox ++ [.hostData bs], acnt := (s.hostMemAccess off n none).acnt } := by
  rw [hostMemAccess_read h]
  exact emit_of_counted _ (noteRange_of_steward _ n rfl)

theorem hostMemAccess_write {s : State} {off : Nat} (n : Nat) {bs : List Byte} {ps : List (Nat × Nat)}
    (h : s.writePieces hostIssuer (hostPointer off) (bs.length + 1) bs.length = .ok ps) :
    s.hostMemAccess off n (some bs) = s.fillPieces ps bs := by
  unfold hostPointer at h
  simp only [hostMemAccess, h]

/-- A failed access counts where it has reached memory, then the steward is told of it and a read answers with poison. -/
theorem hostMemAccess_fails {s : State} {off n : Nat} {write : Option (List Byte)} {f : FaultInfo}
    (h : (write = none ∧ s.readPieces hostIssuer (hostPointer off) (n + 1) n = .error f) ∨
      ∃ bs, write = some bs ∧ s.writePieces hostIssuer (hostPointer off) (bs.length + 1) bs.length = .error f) :
    ∃ m, s.hostMemAccess off n write =
      (s.noteFailed hostIssuer (hostPointer off) m f).hostFault (off % 2 ^ 40) f write.isNone := by
  unfold hostPointer at h ⊢
  rcases h with ⟨rfl, h⟩ | ⟨bs, rfl, h⟩
  · exact ⟨n, by simp only [hostMemAccess, h, Option.isNone_none]⟩
  · exact ⟨bs.length, by simp only [hostMemAccess, h, Option.isNone_some]⟩

/-- A failed access leaves cores and the port alone, gives poison for a read and posts an event of kind 5 while the queue has
room. -/
theorem hostFault_leaves (s : State) (pa : Nat) (f : FaultInfo) (read : Bool) :
    (s.hostFault pa f read).cores = s.cores ∧ (s.hostFault pa f read).host = s.host ∧
      (s.hostFault pa f read).outbox = s.outbox ++ (if read then [.hostPoison] else []) ∧
      ((s.dieAt 0).events.length < 256 →
        ∃ w, ((s.hostFault pa f read).dieAt 0).events = (s.dieAt 0).events ++ [w] ∧ fld w 56 8 = 5) := by
  have htold (ws : List Word) := filed_tellSteward s 0 5 none ws
  have hevent (ws : List Word) := tellSteward_events (s := s) (die := 0) (kind := 5) none ws (by decide)
  cases read <;> simp only [hostFault, Bool.false_eq_true, if_false, if_true, emit_cores, emit_host, emit_outbox, dieAt_emit]
  · exact ⟨(htold _).cores, by rw [(htold _).rest], by rw [(htold _).rest, List.append_nil], hevent _⟩
  · exact ⟨(htold _).cores, by rw [(htold _).rest], by rw [(htold _).rest], hevent _⟩

end State

open State

/-! ### The obligation -/

/-- Settles O52: a register write and a doorbell are equations of the port; a completion is an entry of host memory and the port
after it; a host access holds its pieces or tells the steward. -/
theorem hostQueues : Obligations.HostQueues := by
  unfold Obligations.HostQueues
  intro s
  refine ⟨fun v => ⟨fun hidle => ⟨?hcqb, ?hcqn, ?hcpb, ?hcpn⟩, fun hbusy off hoff => ?busy, ?hcpi, ?tail, ?head,
      fun off hoff => ?readOnly⟩,
    fun v => ⟨fun hwaits => ?waits, fun h3 hq hw => ?reads, ?hcph⟩, fun ctag => ⟨?nop, ?unknown⟩,
    ⟨fun hwaits => ?keeps, fun c rest hheld hroom hstat => ?writes⟩,
    fun off n write => ⟨fun bs hread => ?load, fun bs ps hwrite => ?store, fun f hfails => ?fails⟩⟩
  case hcqb => exact performs_of_exec exec_hostQueueRegisterWrite (hostQueueRegisterWrite_hcqb v hidle)
  case hcqn => exact performs_of_exec exec_hostQueueRegisterWrite (hostQueueRegisterWrite_hcqn v hidle)
  case hcpb => exact performs_of_exec exec_hostQueueRegisterWrite (hostQueueRegisterWrite_hcpb v hidle)
  case hcpn => exact performs_of_exec exec_hostQueueRegisterWrite (hostQueueRegisterWrite_hcpn v hidle)
  case busy => exact performs_of_exec exec_hostQueueRegisterWrite (hostQueueRegisterWrite_of_busy v hbusy hoff)
  case hcpi => exact performs_of_exec exec_hostQueueRegisterWrite rfl
  case tail => exact performs_of_exec exec_hostQueueRegisterWrite rfl
  case head => exact performs_of_exec exec_hostQueueRegisterWrite rfl
  case readOnly => exact performs_of_exec exec_hostQueueRegisterWrite (hostQueueRegisterWrite_of_readOnly s v hoff)
  case waits => exact performs_of_exec exec_hcqtDoorbell (hcqtDoorbell_of_waits hwaits)
  case reads =>
    refine performs_of_exec exec_hcqtDoorbell ?_
    rw [hcqtDoorbell_of_ready h3 hq hw]
    exact ⟨rfl, fun h => congrArg (s.pend ++ [·]) (commandStep_nop h),
      fun h => congrArg (s.pend ++ [·]) (commandStep_launch h), fun h => congrArg (s.pend ++ [·]) (commandStep_unknown h)⟩
  case hcph => exact performs_of_exec exec_hcphWrite rfl
  case nop => exact performs_of_exec exec_hostNopCommand (complete_hostNext_holds s _)
  case unknown => exact performs_of_exec exec_hostUnknownCommand (complete_hostNext_holds s _)
  case keeps => exact performs_of_exec exec_completionWrite (completionWrite_of_waits hwaits)
  case writes =>
    have hword := completionWrite_word hheld hroom
    refine performs_of_exec exec_completionWrite ⟨?_, ?_, ?_, completionWrite_enk hheld hroom, completionWrite_cyc hheld hroom,
      fun y => completionWrite_hostBytes_other hheld hroom, completionWrite_host hheld hroom, completionWrite_outbox hheld hroom,
      completionWrite_sameMemory hheld hroom, completionWrite_cores hheld hroom⟩
    · exact (congrArg (fld · 48 8) hword).trans (completionWord_stat _ hstat)
    · exact (congrArg (bitOf · 32) hword).trans (completionWord_phase _ hstat)
    · exact (congrArg (fld · 0 32) hword).trans (completionWord_ctag _ hstat)
  case load => exact performs_of_exec exec_hostMemAccess (hostMemAccess_read_rest hread)
  case store =>
    refine performs_of_exec exec_hostMemAccess ?_
    rw [hostMemAccess_write n hwrite]
    exact ⟨fillPieces_holds s ps bs (writePieces_sum (Nat.lt_succ_self _) hwrite), fillPieces_cores ..⟩
  case fails =>
    refine performs_of_exec exec_hostMemAccess ?_
    obtain ⟨m, hm⟩ := hostMemAccess_fails hfails
    obtain ⟨hcores, hhost, hout, hevent⟩ :=
      hostFault_leaves (s.noteFailed hostIssuer (hostPointer off) m f) (off % 2 ^ 40) f write.isNone
    have hdie : (s.noteFailed hostIssuer (hostPointer off) m f).dieAt 0 = s.dieAt 0 := dieAt_of_dies_eq (noteFailed_dies ..) 0
    rw [hdie] at hevent
    rw [hm]
    exact ⟨hcores.trans (by rw [noteFailed_rest]), hhost.trans (by rw [noteFailed_rest]),
      hout.trans (by rw [noteFailed_rest]), hevent⟩

end Sys2Proof.Machine
end

