-- ==== Sys2Proof/Proofs/Cells.lean ====
section
/-! The cells of the opcode map: each at a place of its own, and what every row keeps to (R89, R95, R103, R104). -/

namespace Sys2Proof

/-! ### The cells of the opcode map (R103, R104) -/

theorem Op.mem_all (op : Op) : op ∈ Op.all := by cases op <;> decide +kernel

/-- What an evaluation of the table finds of every row holds of every cell. -/
theorem Op.forall_of_all {p : Op → Prop} (h : ∀ op ∈ Op.all, p op) (op : Op) : p op := h op op.mem_all

/-- Two rows that one word of base and one MODE could both name. -/
def Shape.clash (s t : Shape) : Bool :=
  s.page == t.page && s.op == t.op && (s.form != .rr || t.form != .rr || s.x == t.x) && s.modes.any t.modes.contains

theorem Op.eq_of_clash {op op' : Op} (h : (shape op).clash (shape op') = true) : op = op' := by
  have hall : ∀ c ∈ Op.all, ∀ c' ∈ Op.all, (shape c).clash (shape c') = true → c = c' := by decide +kernel
  exact hall op op.mem_all op' op'.mem_all h

/-- The decoder finds a cell at its place: no other cell stands there. -/
theorem Op.at_place {op : Op} {x m : Nat} (hx : (shape op).form ≠ .rr ∨ (shape op).x = x) (hm : m ∈ (shape op).modes) :
    Op.at (shape op).page (shape op).op x m = some op := by
  obtain ⟨c, hc⟩ : ∃ c, Op.at (shape op).page (shape op).op x m = some c := by
    refine Option.isSome_iff_exists.1 (List.find?_isSome.2 ⟨op, op.mem_all, ?_⟩)
    simpa [hm] using hx
  have hplace := List.find?_some hc
  simp only [Bool.and_eq_true, beq_iff_eq, Bool.or_eq_true, bne_iff_ne, List.contains_iff_mem] at hplace
  obtain ⟨⟨⟨hpage, hop⟩, hx'⟩, hm'⟩ := hplace
  rw [hc, Op.eq_of_clash (op := c) (op' := op)]
  simp only [Shape.clash, Bool.and_eq_true, beq_iff_eq, Bool.or_eq_true, bne_iff_ne, List.any_eq_true, List.contains_iff_mem]
  refine ⟨⟨⟨hpage, hop⟩, ?_⟩, m, hm', hm⟩
  exact hx'.elim (fun h => .inl (.inl h)) fun h' => hx.elim (fun h => .inl (.inr h)) fun h => .inr (h'.trans h.symm)

/-! What the rows of the tables keep to. -/

theorem shape_place : ∀ op, (shape op).page ≤ 6 ∧ (shape op).op < 30 ∧ (shape op).x < 8 := Op.forall_of_all (by decide +kernel)

/-- No operand but those that the form has (R89). -/
theorem shape_form : ∀ op, ((shape op).form = .ri → (shape op).A = .none ∧ (shape op).B = .none) ∧
    ((shape op).form = .rb → (shape op).D = .none) ∧
    ((shape op).form = .br → (shape op).D = .none ∧ (shape op).A = .none ∧ (shape op).B = .none) :=
  Op.forall_of_all (by decide +kernel)

/-- The OPX fields of pages 4 and 6 (R95). -/
theorem shape_opx_scoped : ∀ op, (shape op).page = 4 ∨ (shape op).page = 6 →
    (shape op).tys = [0] ∧ (shape op).rm = .no ∧ (∀ m ∈ (shape op).modes, m < 8) ∧ ∀ c ∈ (shape op).scs, c < 8 :=
  Op.forall_of_all (by decide +kernel)

/-- The OPX fields of the other pages (R95). -/
theorem shape_opx_typed : ∀ op, ¬ ((shape op).page = 4 ∨ (shape op).page = 6) →
    (shape op).scs = [0] ∧ (shape op).pm = .zero ∧ (∀ m ∈ (shape op).modes, m < 16) ∧ ∀ t ∈ (shape op).tys, t < 16 :=
  Op.forall_of_all (by decide +kernel)

/-- No OPX on page 0. -/
theorem shape_opx_page0 : ∀ op, (shape op).page = 0 → (shape op).tys = [0] ∧ (shape op).rm = .no ∧ (shape op).modes = [0] :=
  Op.forall_of_all (by decide +kernel)

end Sys2Proof
end

