-- ==== Sys2Proof/Proofs/Chains.lean ====
section
/-! The words of a chain: immediates cut into payloads (R93), the words before the base word and the order in which they are
read (R88, R91, R92). -/

namespace Sys2Proof

/-! ### Immediates (R93) -/

theorem signed_emod {n : Nat} {v : Int} (hn : 0 < n) (hlo : -(2 ^ (n - 1) : Int) ≤ v) (hhi : v < (2 ^ (n - 1) : Int)) :
    signed n (v % 2 ^ n).toNat = v := by
  obtain ⟨n, rfl⟩ : ∃ m, n = m + 1 := ⟨n - 1, by omega⟩
  have hcast : (2 : Int) ^ n = ((2 ^ n : Nat) : Int) := by push_cast; rfl
  simp only [Nat.add_sub_cancel, signed, pow_succ, hcast] at *
  generalize 2 ^ n = N at *
  have hnat : (v % (N * 2)).toNat % (N * 2) = (v % (N * 2)).toNat := Nat.mod_eq_of_lt (by
    have := Int.emod_lt_of_pos v (by omega : (0 : Int) < N * 2)
    omega)
  rw [hnat]
  rcases le_or_gt 0 v with hv | hv
  · rw [Int.emod_eq_of_lt hv (by omega)]
    split_ifs <;> omega
  · rw [← Int.add_emod_right, Int.emod_eq_of_lt (by omega) (by omega)]
    split_ifs <;> omega

/-- The payloads add up to the field that the immediate is cut into. -/
theorem foldr_immPayloads (w : Nat) (v : Int) (k : Nat) :
    (immPayloads w v k).foldr (fun p (acc : Nat × Nat) => (acc.1 + p * 2 ^ acc.2, acc.2 + 10)) ((v % 2 ^ w).toNat, w) =
      ((v % 2 ^ (w + 10 * k)).toNat, w + 10 * k) := by
  induction k with
  | zero => rfl
  | succ k ih =>
    have hcast : (2 : Int) ^ (w + 10 * k) = ((2 ^ (w + 10 * k) : Nat) : Int) := by push_cast; rfl
    have hpow : (2 : Int) ^ (w + 10 * (k + 1)) = ((2 ^ (w + 10 * k) : Nat) : Int) * 1024 := by
      rw [← hcast, Nat.mul_succ, ← Nat.add_assoc, pow_add]; rfl
    simp only [immPayloads, List.foldr_cons, ih, hpow, hcast, Prod.mk.injEq]
    have hpos : (0 : Int) < ((2 ^ (w + 10 * k) : Nat) : Int) := by positivity
    generalize 2 ^ (w + 10 * k) = N at hpos ⊢
    have hsplit : v % ((N : Int) * 1024) = v % N + v / N % 1024 * N := by
      rw [Int.emod_def v (N * 1024), Int.emod_def v N, Int.emod_def (v / N) 1024, ← Int.ediv_ediv_of_nonneg hpos.le]
      ring
    have hlow := Int.emod_nonneg v hpos.ne'
    have hhigh := Int.emod_nonneg (v / N) (by decide : (1024 : Int) ≠ 0)
    refine ⟨?_, by omega⟩
    rw [hsplit, Int.toNat_add hlow (by positivity), Int.toNat_mul hhigh (by positivity), Int.toNat_natCast]

theorem immValue_immPayloads {w k : Nat} {v : Int} (hn : 0 < w + 10 * k) (hlo : -(2 ^ (w + 10 * k - 1) : Int) ≤ v)
    (hhi : v < (2 ^ (w + 10 * k - 1) : Int)) : immValue w (v % 2 ^ w).toNat (immPayloads w v k) = v := by
  simp only [immValue, foldr_immPayloads, hn.ne', if_false]
  exact signed_emod hn hlo hhi

/-- Where three IMM words reach, the count is that of a field which holds the immediate. -/
theorem immCount_fits {w : Nat} {v : Int} (h : immCount w v < 4) :
    0 < w + 10 * immCount w v ∧ -(2 ^ (w + 10 * immCount w v - 1) : Int) ≤ v ∧ v < (2 ^ (w + 10 * immCount w v - 1) : Int) := by
  unfold immCount at h ⊢
  simp only [Bool.and_eq_true, decide_eq_true_eq] at h ⊢
  split_ifs at h ⊢ with h0 h1 h2 h3
  · exact ⟨h0.1, h0.2⟩
  · exact ⟨by omega, h1⟩
  · exact ⟨by omega, h2⟩
  · exact ⟨by omega, h3⟩
  · omega

theorem immPayloads_length (w : Nat) (v : Int) (k : Nat) : (immPayloads w v k).length = k := by
  induction k with
  | zero => rfl
  | succ k ih => simp [immPayloads, ih]

theorem immPayloads_lt {w k p : Nat} {v : Int} (h : p ∈ immPayloads w v k) : p < 1024 := by
  induction k with
  | zero => cases h
  | succ k ih =>
    rcases List.mem_cons.1 h with rfl | h
    · have := Int.emod_lt_of_pos (v / 2 ^ (w + 10 * k)) (by decide : (0 : Int) < 1024)
      omega
    · exact ih h

/-! ### The words before the base word (R89, R91, R92) -/

/-- The word of a KIND with a payload (R91). -/
def pfxWord (kind p : Nat) : IWord := BitVec.ofNat 16 (0xF000 + (1024 * kind + p))

section PfxWord

variable {kind p : Nat} (hk : kind < 4) (hp : p < 1024)

include hk hp

theorem toNat_pfxWord : (pfxWord kind p).toNat = 0xF000 + (1024 * kind + p) := by
  rw [pfxWord, BitVec.toNat_ofNat, Nat.mod_eq_of_lt (by omega)]

theorem isPfx_pfxWord : isPfx (pfxWord kind p) = true := by
  rw [isPfx, toNat_pfxWord hk hp, beq_iff_eq]; omega

theorem pfxKind_pfxWord : pfxKind (pfxWord kind p) = kind := by
  rw [pfxKind, toNat_pfxWord hk hp]; omega

theorem pfxPayload_pfxWord : pfxPayload (pfxWord kind p) = p := by
  rw [pfxPayload, toNat_pfxWord hk hp]; omega

end PfxWord

theorem addPfx_page (c : Chain) {p : Nat} (hp : p < 1024) :
    c.addPfx (pfxWord 2 p) = { c with page := some p, words := c.words + 1 } := by
  simp only [Chain.addPfx, pfxKind_pfxWord (by decide : 2 < 4) hp, pfxPayload_pfxWord (by decide : 2 < 4) hp]

theorem addPfx_opx (c : Chain) {p : Nat} (hp : p < 1024) :
    c.addPfx (pfxWord 3 p) = { c with opx := some p, words := c.words + 1 } := by
  simp only [Chain.addPfx, pfxKind_pfxWord (by decide : 3 < 4) hp, pfxPayload_pfxWord (by decide : 3 < 4) hp]

theorem addPfx_reg (c : Chain) {p : Nat} (hp : p < 1024) :
    c.addPfx (pfxWord 1 p) = { c with reg := some p, words := c.words + 1 } := by
  simp only [Chain.addPfx, pfxKind_pfxWord (by decide : 1 < 4) hp, pfxPayload_pfxWord (by decide : 1 < 4) hp]

theorem addPfx_imm (c : Chain) {p : Nat} (hp : p < 1024) :
    c.addPfx (pfxWord 0 p) = { c with imms := c.imms ++ [p], words := c.words + 1 } := by
  simp only [Chain.addPfx, pfxKind_pfxWord (by decide : 0 < 4) hp, pfxPayload_pfxWord (by decide : 0 < 4) hp]

/-! ### Reading a chain (R92) -/

theorem parseChain_base {rank : Nat} {c : Chain} {w : IWord} (ws : List IWord) (hw : isPfx w = false) :
    parseChain rank c (w :: ws) = .ok { c with base := w.toNat, words := c.words + 1 } := by
  simp [parseChain, hw]

theorem parseChain_pfx {rank kind p : Nat} {c : Chain} (ws : List IWord) (hk : kind < 4) (hp : p < 1024) (hwords : c.words < 4)
    (hrank : rank < kindRank kind ∨ rank = 4 ∧ kindRank kind = 4) (himms : kindRank kind = 4 → c.imms.length < 3) :
    parseChain rank c (pfxWord kind p :: ws) = parseChain (kindRank kind) (c.addPfx (pfxWord kind p)) ws := by
  have horder : ¬ (kindRank kind < rank ∨ (kindRank kind = rank ∧ kindRank kind ≠ 4) ∨
      (kindRank kind = 4 ∧ c.imms.length = 3)) := by
    omega
  rw [parseChain, if_pos (isPfx_pfxWord hk hp), if_neg (by omega), pfxKind_pfxWord hk hp]
  exact if_neg horder

/-- IMM words, then the base word. -/
theorem parseChain_imms {base : Nat} (rest : List IWord) (hb : base < 0xF000) (ps : List Nat) :
    ∀ {rank : Nat} {c : Chain}, rank ≤ 4 → (∀ p ∈ ps, p < 1024) → c.words + ps.length ≤ 4 → c.imms.length + ps.length ≤ 3 →
    parseChain rank c (ps.map (pfxWord 0) ++ BitVec.ofNat 16 base :: rest) =
      .ok { c with imms := c.imms ++ ps, base := base, words := c.words + ps.length + 1 } := by
  have hbase : (BitVec.ofNat 16 base).toNat = base := by rw [BitVec.toNat_ofNat, Nat.mod_eq_of_lt (by omega)]
  induction ps with
  | nil =>
    intro rank c _ _ _ _
    have hno : isPfx (BitVec.ofNat 16 base) = false := by rw [isPfx, hbase, beq_eq_false_iff_ne]; omega
    simp [parseChain_base rest hno, hbase]
  | cons p ps ih =>
    intro rank c hrank hps hwords himms
    have hp := hps p (List.mem_cons_self ..)
    rw [List.length_cons] at hwords himms
    rw [List.map_cons, List.cons_append, parseChain_pfx _ (by decide) hp (by omega) (by change rank < 4 ∨ rank = 4 ∧ 4 = 4; omega)
      (by omega), addPfx_imm c hp, ih (by decide) (fun q hq => hps q (List.mem_cons_of_mem _ hq))
      (by change c.words + 1 + ps.length ≤ 4; omega)
      (by change (c.imms ++ [p]).length + ps.length ≤ 3; rw [List.length_append, List.length_singleton]; omega)]
    simp only [List.append_assoc, List.singleton_append, List.length_cons, Nat.add_comm 1, Nat.add_assoc]

/-- A KIND other than IMM stands at most once: `c'` is the chain with its word, or as it was where there is none. -/
theorem parseChain_once {rank kind : Nat} {c c' : Chain} {ps : List Nat} (ws : List IWord) (hk : kind < 4)
    (hrank : rank < kindRank kind) (h4 : kindRank kind < 4) (hone : ps.length ≤ 1) (hps : ∀ p ∈ ps, p < 1024)
    (hwords : c.words + ps.length ≤ 4) (hnil : ps = [] → c = c') (hadd : ∀ p, ps = [p] → c.addPfx (pfxWord kind p) = c') :
    ∃ rank' ≤ kindRank kind, parseChain rank c (ps.map (pfxWord kind) ++ ws) = parseChain rank' c' ws := by
  match ps, hone with
  | [], _ => exact ⟨rank, hrank.le, by rw [hnil rfl]; rfl⟩
  | [p], _ =>
    refine ⟨kindRank kind, le_rfl, ?_⟩
    rw [← hadd p rfl]
    exact parseChain_pfx ws hk (hps p (List.mem_singleton_self p)) hwords (.inl hrank) (by omega)

/-- What the words before the immediates leave of a chain, each KIND at most once. -/
def Chain.before (pages opxs regs : List Nat) : Chain :=
  { page := pages.head?, opx := opxs.head?, reg := regs.head?, imms := [], base := 0,
    words := pages.length + opxs.length + regs.length }

/-- The chain that its words spell out, in the order of R92. -/
theorem parseChain_ordered {pages opxs regs imms : List Nat} {base : Nat} (rest : List IWord) (hpage : pages.length ≤ 1)
    (hopx : opxs.length ≤ 1) (hreg : regs.length ≤ 1) (himm : imms.length ≤ 3)
    (hwords : pages.length + opxs.length + regs.length + imms.length ≤ 4) (hpages : ∀ p ∈ pages, p < 1024)
    (hopxs : ∀ p ∈ opxs, p < 1024) (hregs : ∀ p ∈ regs, p < 1024) (himms : ∀ p ∈ imms, p < 1024) (hb : base < 0xF000) :
    parseChain 0 Chain.start (pages.map (pfxWord 2) ++ (opxs.map (pfxWord 3) ++ (regs.map (pfxWord 1) ++
        (imms.map (pfxWord 0) ++ BitVec.ofNat 16 base :: rest)))) =
      .ok { page := pages.head?, opx := opxs.head?, reg := regs.head?, imms := imms, base := base,
            words := pages.length + opxs.length + regs.length + imms.length + 1 } := by
  obtain ⟨r1, hr1, h1⟩ := parseChain_once (rank := 0) (kind := 2) (c := .before [] [] []) (c' := .before pages [] [])
    (opxs.map (pfxWord 3) ++ (regs.map (pfxWord 1) ++ (imms.map (pfxWord 0) ++ BitVec.ofNat 16 base :: rest)))
    (by decide) (by decide) (by decide) hpage hpages (by change 0 + pages.length ≤ 4; omega)
    (by rintro rfl; rfl) (by rintro p rfl; exact addPfx_page _ (hpages p (by simp)))
  obtain ⟨r2, hr2, h2⟩ := parseChain_once (kind := 3) (c := .before pages [] []) (c' := .before pages opxs [])
    (regs.map (pfxWord 1) ++ (imms.map (pfxWord 0) ++ BitVec.ofNat 16 base :: rest))
    (by decide) (Nat.lt_succ_of_le hr1) (by decide) hopx hopxs (by change pages.length + opxs.length ≤ 4; omega)
    (by rintro rfl; rfl) (by rintro p rfl; exact addPfx_opx _ (hopxs p (by simp)))
  obtain ⟨r3, hr3, h3⟩ := parseChain_once (kind := 1) (c := .before pages opxs []) (c' := .before pages opxs regs)
    (imms.map (pfxWord 0) ++ BitVec.ofNat 16 base :: rest)
    (by decide) (Nat.lt_succ_of_le hr2) (by decide) hreg hregs
    (by change pages.length + opxs.length + regs.length ≤ 4; omega)
    (by rintro rfl; rfl) (by rintro p rfl; exact addPfx_reg _ (hregs p (by simp)))
  have hstart : Chain.start = .before [] [] [] := rfl
  rw [hstart, h1, h2, h3, parseChain_imms rest hb imms (hr3.trans (by decide)) himms hwords
    (by change 0 + imms.length ≤ 3; omega)]
  rfl

end Sys2Proof
end

