-- ==== Sys2Proof/Proofs/ChainFields.lean ====
section
/-! The encoder's fields read back: registers (R90, R93), PAGE and OPX (R94, R95), the base word (R89). -/

namespace Sys2Proof

/-! ### Operands (R90, R93) -/

theorem lt_of_opndLegal {x : Opnd} {n : Nat} (h : opndLegal x n = true) : n < 64 := by
  unfold opndLegal at h
  split at h
  · simp_all
  · rename_i f _
    have hsize : f.size ≤ 64 := by cases f <;> decide
    simp only [decide_eq_true_eq] at h
    omega

theorem eq_zero_of_absent {x : Opnd} {n : Nat} (h : opndLegal x n = true) (hx : x.present = false) : n = 0 := by
  simp only [Opnd.present, Option.isSome_eq_false_iff, Option.isNone_iff_eq_none] at hx
  simpa [opndLegal, hx] using h

/-- The payload of REG holds what the base word does not. -/
theorem regPayload_fields {d a b : Nat} (hd : d < 64) (ha : a < 64) (hb : b < 64) :
    (d / 16 * 256 + a / 16 * 64 + b) / 256 = d / 16 ∧ (d / 16 * 256 + a / 16 * 64 + b) / 64 % 4 = a / 16 ∧
      (d / 16 * 256 + a / 16 * 64 + b) % 64 = b ∧ d / 16 * 256 + a / 16 * 64 + b < 1024 := by omega

/-- The two fields of an RR word (R90): A and B of a two-address chain, else the low bits of D and A. -/
def rrPair (s : Shape) (o : Opnds) : Nat × Nat :=
  if (s.opB o.imm.isSome).present && !needsReg s o then (o.a, o.b) else (o.d % 16, o.a % 16)

section RR

variable {s : Shape} {o : Opnds} (hrr : s.form = .rr)

include hrr

theorem encBase_rr : encBase s o = s.op * 2048 + (rrPair s o).1 * 128 + (rrPair s o).2 * 8 + s.x := by
  simp only [encBase, hrr]; rfl

/-- A chain without REG (R90, R105). -/
theorem rr_without_reg (h : needsReg s o = false) :
    if (s.opB o.imm.isSome).present = true then (s.D.present = true → o.a = o.d) ∧ o.a < 16 ∧ o.b < 16
    else o.d < 16 ∧ o.a < 16 := by
  simp only [needsReg, hrr] at h
  split_ifs at h ⊢ with hB
  · simp only [Bool.not_eq_false', Bool.and_eq_true, Bool.or_eq_true, Bool.not_eq_true', beq_iff_eq, decide_eq_true_eq] at h
    obtain ⟨⟨hd, ha⟩, hb⟩ := h
    exact ⟨fun hD => hd.resolve_left (by simp [hD]), ha, hb⟩
  · simp only [Bool.or_eq_false_iff, decide_eq_false_iff_not, not_le] at h
    exact h

theorem rrPair_lt : (rrPair s o).1 < 16 ∧ (rrPair s o).2 < 16 := by
  unfold rrPair
  split_ifs with h
  · rw [Bool.and_eq_true, Bool.not_eq_true'] at h
    have hlt := rr_without_reg hrr h.2
    rw [if_pos h.1] at hlt
    exact hlt.2
  · exact ⟨Nat.mod_lt _ (by decide), Nat.mod_lt _ (by decide)⟩

theorem encBase_rr_fields (hx : s.x < 8) : encBase s o / 2048 = s.op ∧ encBase s o % 8 = s.x ∧
    encBase s o / 128 % 16 = (rrPair s o).1 ∧ encBase s o / 8 % 16 = (rrPair s o).2 := by
  have hlt := rrPair_lt (o := o) hrr
  rw [encBase_rr hrr]
  omega

variable (hD : opndLegal s.D o.d = true) (hA : opndLegal (s.opA o.imm.isSome) o.a = true)
  (hB : opndLegal (s.opB o.imm.isSome) o.b = true)

include hD hA hB

theorem rrFields_encReg :
    rrFields s o.imm.isSome (encReg s o).head? (rrPair s o).1 (rrPair s o).2 = .ok { d := o.d, a := o.a, b := o.b } := by
  have hd0 := eq_zero_of_absent hD
  have ha0 := eq_zero_of_absent hA
  have hb0 := eq_zero_of_absent hB
  cases hreg : needsReg s o with
  | false =>
    have hlow := rr_without_reg hrr hreg
    cases hBp : (s.opB o.imm.isSome).present with
    | true =>
      simp only [hBp, if_true] at hlow
      cases hDp : s.D.present <;> simp_all [rrFields, encReg, rrPair]
    | false =>
      simp only [hBp, Bool.false_eq_true, if_false] at hlow
      simp_all [rrFields, encReg, rrPair, Nat.mod_eq_of_lt]
  | true =>
    obtain ⟨h1, h2, h3, -⟩ := regPayload_fields (lt_of_opndLegal hD) (lt_of_opndLegal hA) (lt_of_opndLegal hB)
    have hsome : (s.D.present || (s.opA o.imm.isSome).present || (s.opB o.imm.isSome).present) = true := by
      by_contra hnone
      simp only [Bool.or_eq_true, not_or, Bool.not_eq_true] at hnone
      obtain ⟨⟨hDn, hAn⟩, hBn⟩ := hnone
      simp [needsReg, hrr, hBn, hd0 hDn, ha0 hAn] at hreg
    have hzero : ((!s.D.present && o.d != 0) || (!(s.opA o.imm.isSome).present && o.a != 0) ||
        (!(s.opB o.imm.isSome).present && o.b != 0)) = false := by
      simp only [Bool.or_eq_false_iff, Bool.and_eq_false_imp, Bool.not_eq_true', bne_eq_false_iff_eq]
      exact ⟨⟨hd0, ha0⟩, hb0⟩
    simp only [rrFields, encReg, rrPair, hreg, Bool.not_true, Bool.and_false, Bool.false_eq_true, if_false, if_true,
      List.head?_cons, h1, h2, h3, Nat.mod_add_div, hsome, hzero]

end RR

/-! The base words of the other forms: one operand or none beside the immediate (R89). -/

theorem encBase_ri {s : Shape} (o : Opnds) (h : s.form = .ri) :
    encBase s o = s.op * 2048 + o.d % 16 * 128 + (o.imm.getD 0 % 128).toNat := by
  simp only [encBase, h]

theorem encBase_rb {s : Shape} (o : Opnds) (h : s.form = .rb) :
    encBase s o = s.op * 2048 + o.a % 16 * 128 + (o.imm.getD 0 % 128).toNat := by
  simp only [encBase, h]

theorem encBase_br {s : Shape} (o : Opnds) (h : s.form = .br) : encBase s o = s.op * 2048 + (o.imm.getD 0 % 2048).toNat := by
  simp only [encBase, h]

/-- An operand that the cell lacks, whatever its immediate, is 0. -/
theorem eq_zero_of_opA {s : Shape} {hasImm : Bool} {n : Nat} (h : opndLegal (s.opA hasImm) n = true)
    (hA : s.A.present = false) : n = 0 :=
  eq_zero_of_absent h (by
    unfold Shape.opA
    split_ifs
    · rfl
    · exact hA)

theorem eq_zero_of_opB {s : Shape} {hasImm : Bool} {n : Nat} (h : opndLegal (s.opB hasImm) n = true)
    (hB : s.B.present = false) : n = 0 :=
  eq_zero_of_absent h (by
    unfold Shape.opB
    split_ifs
    · rfl
    · exact hB)

/-- The operand fields of any base word and REG word that the encoder writes. -/
theorem regFields_encode {s : Shape} {o : Opnds} (hD : opndLegal s.D o.d = true) (hA : opndLegal (s.opA o.imm.isSome) o.a = true)
    (hB : opndLegal (s.opB o.imm.isSome) o.b = true) (hx : s.x < 8)
    (hri : s.form = .ri → s.A = .none ∧ s.B = .none) (hrb : s.form = .rb → s.D = .none)
    (hbr : s.form = .br → s.D = .none ∧ s.A = .none ∧ s.B = .none) :
    regFields s o.imm.isSome (encReg s o).head? (encBase s o) = .ok { d := o.d, a := o.a, b := o.b } := by
  cases hform : s.form with
  | rr =>
    obtain ⟨-, -, h1, h2⟩ := encBase_rr_fields (o := o) hform hx
    simp only [regFields, hform, h1, h2, rrFields_encReg hform hD hA hB]
  | ri =>
    obtain ⟨hAn, hBn⟩ := hri hform
    have ha := eq_zero_of_opA hA (by rw [hAn]; rfl)
    have hb := eq_zero_of_opB hB (by rw [hBn]; rfl)
    have hd := lt_of_opndLegal hD
    have hfield : encBase s o / 128 % 16 = o.d % 16 := by rw [encBase_ri o hform]; omega
    simp only [regFields, hform, hfield, encReg, needsReg, ha, hb, decide_eq_true_eq]
    split_ifs with h
    · simp [Nat.mod_add_div]
    · simp [Nat.mod_eq_of_lt (not_le.1 h)]
  | rb =>
    have hfield : encBase s o / 128 % 16 = o.a % 16 := by rw [encBase_rb o hform]; omega
    have hd := eq_zero_of_absent hD (by rw [hrb hform]; rfl)
    obtain ⟨h1, h2, h3, -⟩ := regPayload_fields (lt_of_opndLegal hD) (lt_of_opndLegal hA) (lt_of_opndLegal hB)
    have hb0 : (!s.B.present && o.b != 0) = false := by simpa using eq_zero_of_opB hB
    simp only [regFields, hform, hfield, encReg, needsReg]
    split_ifs with h
    · simp only [List.head?_cons, h1, h2, h3, hb0, Nat.mod_add_div]
      simp [hd]
    · simp only [Bool.or_eq_true, decide_eq_true_eq, bne_iff_ne, not_or, not_le, not_not] at h
      simp [h.2, hd, Nat.mod_eq_of_lt h.1]
  | br =>
    obtain ⟨hDn, hAn, hBn⟩ := hbr hform
    have hd := eq_zero_of_absent hD (by rw [hDn]; rfl)
    have ha := eq_zero_of_opA hA (by rw [hAn]; rfl)
    have hb := eq_zero_of_opB hB (by rw [hBn]; rfl)
    simp [regFields, hform, encReg, needsReg, hd, ha, hb]

/-! ### PAGE and OPX (R94, R95) -/

/-- The payload of OPX, zero where the chain needs none. -/
def opxPayload (s : Shape) (o : Opnds) : Nat :=
  if s.page = 4 ∨ s.page = 6 then o.sc * 128 + o.pm * 8 + o.mode else o.ty * 64 + o.rm * 16 + o.mode

theorem encOpx_eq (s : Shape) (o : Opnds) : encOpx s o = if opxPayload s o = 0 then [] else [opxPayload s o] := rfl

theorem encOpx_head (s : Shape) (o : Opnds) : (encOpx s o).head?.getD 0 = opxPayload s o := by
  rw [encOpx_eq]
  split_ifs with h
  · exact h.symm
  · rfl

/-! ### The base word and the immediate (R89, R93) -/

theorem encBase_place (op : Op) (o : Opnds) : encBase (shape op) o / 2048 = (shape op).op ∧
    ((shape op).form ≠ .rr ∨ (shape op).x = encBase (shape op) o % 8) := by
  cases hform : (shape op).form with
  | rr =>
    obtain ⟨hop, hx, -, -⟩ := encBase_rr_fields (o := o) hform (shape_place op).2.2
    exact ⟨hop, .inr hx.symm⟩
  | ri => rw [encBase_ri o hform]; exact ⟨by omega, .inl nofun⟩
  | rb => rw [encBase_rb o hform]; exact ⟨by omega, .inl nofun⟩
  | br => rw [encBase_br o hform]; exact ⟨by omega, .inl nofun⟩

theorem immBase_encBase (s : Shape) (o : Opnds) : immBase s.form (encBase s o) =
    ((o.imm.getD 0 % 2 ^ s.form.immBits).toNat, s.form.immBits) := by
  cases hform : s.form with
  | rr => simp [immBase, Form.immBits]
  | ri => rw [encBase_ri o hform]; simp only [immBase, Form.immBits, Prod.mk.injEq, and_true]; omega
  | rb => rw [encBase_rb o hform]; simp only [immBase, Form.immBits, Prod.mk.injEq, and_true]; omega
  | br => rw [encBase_br o hform]; simp only [immBase, Form.immBits, Prod.mk.injEq, and_true]; omega

theorem encBase_lt (op : Op) (o : Opnds) : encBase (shape op) o < 0xF000 := by
  have hop := (shape_place op).2.1
  have hplace := (encBase_place op o).1
  omega

end Sys2Proof
end

