-- ==== Sys2Proof/Proofs/RoundTrip.lean ====
section
/-! Decoding what the encoder writes (R88 to R95, R97, R101, R105). -/

namespace Sys2Proof

/-! ### A legal cell with its fields -/

/-- What `partsLegal` asks of a cell and its fields, by name. -/
structure LegalParts (op : Op) (o : Opnds) : Prop where of ::
  legal : fieldsLegal op o = true
  d : opndLegal (shape op).D o.d = true
  a : opndLegal ((shape op).opA o.imm.isSome) o.a = true
  b : opndLegal ((shape op).opB o.imm.isSome) o.b = true
  ty : o.ty ∈ (shape op).tys
  rm : rmLegal (shape op).rm o.ty o.rm = true
  mode : o.mode ∈ (shape op).modes
  sc : o.sc ∈ (shape op).scs
  pm : pmLegal (shape op).pm o.pm = true
  la_lt : o.la < 16
  hint_lt : o.hint < 4
  rm_lt : o.rm < 4
  pm_lt : o.pm < 16
  page0 : (shape op).page = 0 → o.la = 0 ∧ o.hint = 0
  imm_none : o.imm = none → (shape op).form = .rr
  imm_some : ∀ v, o.imm = some v → immCount (shape op).form.immBits v < 4
  length_le : (encodeParts op o).length ≤ 5

theorem legalParts_of_partsLegal {op : Op} {o : Opnds} (h : partsLegal op o = true) : LegalParts op o := by
  simp only [partsLegal, Bool.and_eq_true, decide_eq_true_eq] at h
  obtain ⟨⟨⟨⟨⟨⟨⟨hlegal, hla⟩, hhint⟩, hrm⟩, hpm⟩, hpage⟩, himm⟩, hlen⟩ := h
  have hfields := hlegal
  simp only [fieldsLegal, Bool.and_eq_true, List.contains_iff_mem] at hfields
  obtain ⟨⟨⟨⟨⟨⟨⟨⟨⟨⟨hd, ha⟩, hb⟩, -⟩, hty⟩, hrml⟩, hmode⟩, hsc⟩, hpml⟩, -⟩, -⟩ := hfields
  refine ⟨hlegal, hd, ha, hb, hty, hrml, hmode, hsc, hpml, hla, hhint, hrm, hpm, fun h0 => ?_, fun h0 => ?_, fun v hv => ?_, hlen⟩
  · simpa [h0] using hpage
  · simpa [h0] using himm
  · simpa [hv] using himm

namespace LegalParts

variable {op : Op} {o : Opnds} (h : LegalParts op o)

include h

theorem page_payload_lt : (shape op).page * 64 + o.la * 4 + o.hint < 1024 := by
  have hpage := (shape_place op).1
  have hla := h.la_lt
  have hhint := h.hint_lt
  omega

theorem encPage_head : (encPage (shape op) o).head?.getD 0 = (shape op).page * 64 + o.la * 4 + o.hint := by
  unfold encPage
  split_ifs with h0
  · simp [h0, h.page0 h0]
  · rfl

/-- The OPX payload splits into the fields that it was made of. -/
theorem opxFields_payload : opxPayload (shape op) o < 1024 ∧ opxFields (shape op).page (opxPayload (shape op) o) =
    { ty := o.ty, rm := o.rm, mode := o.mode, sc := o.sc, pm := o.pm } := by
  have hrm := h.rm_lt
  have hpm := h.pm_lt
  by_cases hpage : (shape op).page = 4 ∨ (shape op).page = 6
  · obtain ⟨htys, hrmno, hmodes, hscs⟩ := shape_opx_scoped op hpage
    have hmode := hmodes _ h.mode
    have hsc := hscs _ h.sc
    have hty : o.ty = 0 := by simpa [htys] using h.ty
    have hrm0 : o.rm = 0 := by simpa [hrmno, rmLegal] using h.rm
    simp only [opxPayload, opxFields, if_pos hpage, Opnds.mk.injEq, hty, hrm0, true_and, and_true]
    omega
  · obtain ⟨hscs, hpmz, hmodes, htys⟩ := shape_opx_typed op hpage
    have hmode := hmodes _ h.mode
    have hty := htys _ h.ty
    have hsc : o.sc = 0 := by simpa [hscs] using h.sc
    have hpm0 : o.pm = 0 := by simpa [hpmz, pmLegal] using h.pm
    simp only [opxPayload, opxFields, if_neg hpage, Opnds.mk.injEq, hsc, hpm0, true_and, and_true]
    omega

theorem encOpx_page0 (h0 : (shape op).page = 0) : encOpx (shape op) o = [] := by
  obtain ⟨htys, hrmno, hmodes⟩ := shape_opx_page0 op h0
  have hty : o.ty = 0 := by simpa [htys] using h.ty
  have hrm : o.rm = 0 := by simpa [hrmno, rmLegal] using h.rm
  have hmode : o.mode = 0 := by simpa [hmodes] using h.mode
  rw [encOpx_eq, if_pos]
  simp [opxPayload, h0, hty, hrm, hmode]

/-! ### The immediate, read back -/

/-- A chain has an immediate when its form has one or IMM words stand in it (R93). -/
theorem hasImm_iff : ((shape op).form != .rr || !(encImms (shape op) o).isEmpty) = o.imm.isSome := by
  cases himm : o.imm with
  | none => simp [h.imm_none himm, encImms, himm]
  | some v =>
    by_cases hform : (shape op).form = .rr
    · have hpos := (immCount_fits (h.imm_some v himm)).1
      simp only [hform, Form.immBits] at hpos
      have hne : encImms (shape op) o ≠ [] := by
        intro hnil
        have hlen := congrArg List.length hnil
        simp only [encImms, himm, hform, Form.immBits, immPayloads_length, List.length_nil] at hlen
        omega
      simp [hne]
    · simp [hform]

theorem immValue_encImms {v : Int} (hv : o.imm = some v) :
    immValue (shape op).form.immBits (v % 2 ^ (shape op).form.immBits).toNat (encImms (shape op) o) = v := by
  obtain ⟨hpos, hlo, hhi⟩ := immCount_fits (h.imm_some v hv)
  simp only [encImms, hv]
  exact immValue_immPayloads hpos hlo hhi

theorem encImms_length_le : (encImms (shape op) o).length ≤ 3 := by
  cases hv : o.imm with
  | none => simp [encImms, hv]
  | some v =>
    have := h.imm_some v hv
    simp only [encImms, hv, immPayloads_length]
    omega

/-! ### The whole chain -/

/-- The cell, its operands and its fields come back from the chain that the encoder writes. -/
theorem ofChain_encode (n : Nat) : ofChain
    { page := (encPage (shape op) o).head?, opx := (encOpx (shape op) o).head?, reg := (encReg (shape op) o).head?,
      imms := encImms (shape op) o, base := encBase (shape op) o, words := n } = .ok (op, o) := by
  obtain ⟨hpage, -, hx⟩ := shape_place op
  obtain ⟨hri, hrb, hbr⟩ := shape_form op
  have hla := h.la_lt
  have hhint := h.hint_lt
  obtain ⟨hop, hxform⟩ := encBase_place op o
  have hpay : ((shape op).page * 64 + o.la * 4 + o.hint) / 64 = (shape op).page ∧
      ((shape op).page * 64 + o.la * 4 + o.hint) / 4 % 16 = o.la ∧
      ((shape op).page * 64 + o.la * 4 + o.hint) % 4 = o.hint := by omega
  obtain ⟨hpay1, hpay2, hpay3⟩ := hpay
  have hno1 : ¬ (6 < (shape op).page ∨ ((shape op).page = 0 ∧ o.la ≠ 0)) := by
    rintro (h6 | ⟨h0, hla0⟩)
    · omega
    · exact hla0 (h.page0 h0).1
  have hno2 : ¬ ((shape op).page = 0 ∧ (encOpx (shape op) o).head?.isSome = true) := by
    rintro ⟨h0, hs⟩
    rw [h.encOpx_page0 h0] at hs
    cases hs
  have himm : (if o.imm.isSome = true then some (immValue (shape op).form.immBits
      ((o.imm.getD 0) % 2 ^ (shape op).form.immBits).toNat (encImms (shape op) o)) else none) = o.imm := by
    cases hv : o.imm with
    | none => rfl
    | some v => exact congrArg some (h.immValue_encImms hv)
  have hh : (if (shape op).page = 0 then 0 else o.hint) = o.hint := by
    split_ifs with h0
    · exact (h.page0 h0).2.symm
    · rfl
  simp only [ofChain, h.encPage_head, hpay1, hpay2, hpay3, if_neg hno1, if_neg hno2, encOpx_head, h.opxFields_payload.2, hop,
    Op.at_place hxform h.mode, h.hasImm_iff, immBase_encBase, himm, hh, regFields_encode h.d h.a h.b hx hri hrb hbr, h.legal,
    if_true]

end LegalParts

/-- The words of a chain in the order of R92. -/
theorem encodeParts_eq (op : Op) (o : Opnds) (rest : List IWord) : encodeParts op o ++ rest =
    (encPage (shape op) o).map (pfxWord 2) ++ ((encOpx (shape op) o).map (pfxWord 3) ++ ((encReg (shape op) o).map (pfxWord 1) ++
      ((encImms (shape op) o).map (pfxWord 0) ++ BitVec.ofNat 16 (encBase (shape op) o) :: rest))) := by
  have hpage : (fun p => BitVec.ofNat 16 (0xF800 + p)) = pfxWord 2 := funext fun p => by rw [pfxWord, ← Nat.add_assoc]
  have hopx : (fun p => BitVec.ofNat 16 (0xFC00 + p)) = pfxWord 3 := funext fun p => by rw [pfxWord, ← Nat.add_assoc]
  have hreg : (fun p => BitVec.ofNat 16 (0xF400 + p)) = pfxWord 1 := funext fun p => by rw [pfxWord, ← Nat.add_assoc]
  have himm : (fun p => BitVec.ofNat 16 (0xF000 + p)) = pfxWord 0 := funext fun p => by rw [pfxWord, ← Nat.add_assoc]
  simp only [encodeParts, hpage, hopx, hreg, himm, List.append_assoc, List.singleton_append]

theorem encodeParts_length (op : Op) (o : Opnds) : (encodeParts op o).length = (encPage (shape op) o).length +
    (encOpx (shape op) o).length + (encReg (shape op) o).length + (encImms (shape op) o).length + 1 := by
  simp only [encodeParts, List.length_append, List.length_map, List.length_singleton]

theorem encPage_length_le (s : Shape) (o : Opnds) : (encPage s o).length ≤ 1 := by unfold encPage; split_ifs <;> simp
theorem encOpx_length_le (s : Shape) (o : Opnds) : (encOpx s o).length ≤ 1 := by rw [encOpx_eq]; split_ifs <;> simp
theorem encReg_length_le (s : Shape) (o : Opnds) : (encReg s o).length ≤ 1 := by unfold encReg; split_ifs <;> simp

theorem encImms_lt (s : Shape) (o : Opnds) : ∀ p ∈ encImms s o, p < 1024 := by
  intro p hp
  cases hv : o.imm with
  | none => simp [encImms, hv] at hp
  | some v =>
    simp only [encImms, hv] at hp
    exact immPayloads_lt hp

namespace LegalParts

variable {op : Op} {o : Opnds} (h : LegalParts op o)

include h

theorem encPage_lt : ∀ p ∈ encPage (shape op) o, p < 1024 := by
  unfold encPage
  split_ifs
  · simp
  · simpa using h.page_payload_lt

theorem encOpx_lt : ∀ p ∈ encOpx (shape op) o, p < 1024 := by
  rw [encOpx_eq]
  split_ifs
  · simp
  · simpa using h.opxFields_payload.1

theorem encReg_lt : ∀ p ∈ encReg (shape op) o, p < 1024 := by
  unfold encReg
  split_ifs
  · simpa using (regPayload_fields (lt_of_opndLegal h.d) (lt_of_opndLegal h.a) (lt_of_opndLegal h.b)).2.2.2
  · simp

/-- R88: the chain ends at its base word, whatever follows. -/
theorem parseChain_encodeParts (rest : List IWord) : parseChain 0 Chain.start (encodeParts op o ++ rest) = .ok
    { page := (encPage (shape op) o).head?, opx := (encOpx (shape op) o).head?, reg := (encReg (shape op) o).head?,
      imms := encImms (shape op) o, base := encBase (shape op) o, words := (encodeParts op o).length } := by
  have hlen := h.length_le
  rw [encodeParts_length] at hlen
  rw [encodeParts_eq, encodeParts_length]
  exact parseChain_ordered rest (encPage_length_le _ o) (encOpx_length_le _ o) (encReg_length_le _ o) h.encImms_length_le
    (by omega) h.encPage_lt h.encOpx_lt h.encReg_lt (encImms_lt _ o) (encBase_lt op o)

theorem decode_encodeParts (rest : List IWord) :
    decode (encodeParts op o ++ rest) = .ok (mk op o, (encodeParts op o).length) := by
  simp only [decode, h.parseChain_encodeParts rest, h.ofChain_encode]

end LegalParts

/-- A well-formed instruction that is no device step is a cell with legal fields. -/
theorem Instr.wf_parts {i : Instr} (hwf : i.wf = true) (hev : i.isEvent = false) :
    ∃ op o, LegalParts op o ∧ mk op o = i ∧ encode i = encodeParts op o := by
  cases hp : parts i with
  | none => simp [Instr.isEvent, hp] at hev
  | some x =>
    obtain ⟨op, o⟩ := x
    simp only [Instr.wf, hp, Bool.and_eq_true, decide_eq_true_eq] at hwf
    exact ⟨op, o, legalParts_of_partsLegal hwf.1, hwf.2, by simp only [encode, hp]⟩

/-- Settles O59: the encoder's chain is read back word by word (parseChain_encodeParts), its fields give the cell and its operands
again (ofChain_encode), and a well-formed instruction is what its cell and operands stand for. -/
theorem roundTrip : Obligations.RoundTrip := by
  unfold Obligations.RoundTrip
  intro i rest hwf hev
  obtain ⟨op, o, h, rfl, henc⟩ := Instr.wf_parts hwf hev
  rw [henc]
  refine ⟨h.decode_encodeParts rest, ?_, h.length_le⟩
  rw [encodeParts_length]
  exact Nat.le_add_left 1 _

end Sys2Proof
end

