-- ==== Sys2Proof/Proofs/DecodeWords.lean ====
section
/-! Chains written out by hand (R87 to R95, R103, R104). -/

namespace Sys2Proof

/-- A chain that is refused for a reason decodes to nothing. -/
theorem decode_ne_ok {ws : List IWord} {e : Reject} (h : decode ws = .error e) (r : Instr × Nat) : decode ws ≠ .ok r :=
  fun hr => nomatch h.symm.trans hr

/-- Settles O58: each chain is closed and is evaluated; a refused one is refused for the reason that is named. -/
theorem decodeWords : Obligations.DecodeWords := by
  unfold Obligations.DecodeWords
  refine ⟨rfl, rfl, rfl, rfl, rfl, rfl, rfl, rfl, rfl, rfl, rfl, rfl, rfl, ?refused⟩
  case refused =>
    have hpage : decode [0xF9C0#16, 0x0000#16] = .error .page := rfl
    have hsecond : decode [0xF840#16, 0xF840#16, 0x0000#16] = .error .order := rfl
    have hbr : decode [0xF400#16, 0x6000#16] = .error .field := rfl
    have hfifth : decode [0xF840#16, 0xFC00#16, 0xF000#16, 0xF000#16, 0xF000#16] = .error .fifthPrefix := rfl
    have hop : decode [0xE800#16] = .error .unassigned := rfl
    have hcell : decode [0x0007#16] = .error .unassigned := rfl
    simp only [List.forall_mem_cons, List.not_mem_nil, IsEmpty.forall_iff, implies_true, and_true]
    exact ⟨decode_ne_ok hpage, decode_ne_ok hsecond, decode_ne_ok hbr, decode_ne_ok hfifth, decode_ne_ok hop, decode_ne_ok hcell⟩

end Sys2Proof
end

