-- ==== Sys2Proof/Proofs/Guards.lean ====
section
/-! The guards of R101 and R102: cores that lack an instruction, and the secure world. -/

namespace Sys2Proof.Machine

open Sys2Proof

namespace State

variable {s : State}

theorem onTile_of_not_tile (h : isTile s.cur = false) (r : State) : s.onTile r = s.trap { cause := 0x03 } := by
  rw [onTile, if_neg (Bool.eq_false_iff.1 h)]; rfl

theorem notSteward_of_steward (h : isSteward s.cur = true) (r : State) : s.notSteward r = s.trap { cause := 0x03 } := by
  rw [notSteward, if_pos h]; rfl

theorem secureOnly_of_nonsecure (h : s.me.world = false) (r : State) : s.secureOnly r = s.trap { cause := 0x09 } := by
  rw [secureOnly, if_neg (Bool.eq_false_iff.1 h)]; rfl

end State

/-! A CSR access to SVEC stands behind the same guard as the cells marked S (R125). -/

theorem exec_csrr_svec (s : State) (d : Nat) :
    exec (.csrr d 0x050) s = .next (s.secureOnly (s.answer d (s.csr s.cur 0x050))) := by
  change Host.Outcome.next (if s.csrBarred 0x050 then _ else _) = _
  cases hw : s.me.world <;> simp [State.secureOnly, State.csrBarred, hw]

theorem exec_csrw_svec (s : State) (d : Nat) :
    exec (.csrw d 0x050) s = .next (s.secureOnly (s.setCsr s.cur 0x050 (s.sr d)).retire) := by
  change Host.Outcome.next (if s.csrBarred 0x050 then _ else _) = _
  cases hw : s.me.world <;> simp [State.secureOnly, State.csrBarred, hw]

/-- Settles O30: what each instruction comes to stands behind the guard of its page or its cell. -/
theorem whereInstructionsRun : Obligations.WhereInstructionsRun := by
  unfold Obligations.WhereInstructionsRun
  intro s pfx rm d a b off src relu e fn sub theta sc
  refine ⟨fun hworld i hi => ?world, fun htile i hi => ?tile, fun hsteward i hi => ?steward⟩
  case world =>
    have hguard : ∃ r, exec i s = .next (s.secureOnly r) := by
      revert i hi
      simp only [List.forall_mem_cons, List.not_mem_nil, IsEmpty.forall_iff, implies_true, and_true]
      exact ⟨⟨_, rfl⟩, ⟨_, rfl⟩, ⟨_, rfl⟩, ⟨_, rfl⟩, ⟨_, rfl⟩, ⟨_, rfl⟩, ⟨_, rfl⟩, ⟨_, rfl⟩, ⟨_, rfl⟩, ⟨_, rfl⟩,
        ⟨_, exec_csrr_svec s d⟩, ⟨_, exec_csrw_svec s d⟩⟩
    obtain ⟨r, hr⟩ := hguard
    rw [hr, State.secureOnly_of_nonsecure hworld]
  case tile =>
    have hguard : ∃ r, exec i s = .next (s.onTile r) := by
      fin_cases hi <;> exact ⟨_, rfl⟩
    obtain ⟨r, hr⟩ := hguard
    rw [hr, State.onTile_of_not_tile htile]
  case steward =>
    have hguard : ∃ r, exec i s = .next (s.notSteward r) := by
      fin_cases hi <;> exact ⟨_, rfl⟩
    obtain ⟨r, hr⟩ := hguard
    rw [hr, State.notSteward_of_steward hsteward]

end Sys2Proof.Machine
end

