-- ==== Sys2Proof/Proofs/Steps.lean ====
section
/-! Which step comes next, and a core's turn (R87, R88, R98, R99, R101, R144, R374, log 1). -/

namespace Sys2Proof.Machine

open Sys2Proof

namespace State

/-! ### The pass of time leaves what a step looks at -/

theorem homeWord_pass (s : State) : s.pass.homeWord = s.homeWord := rfl

theorem walkFrom_pass (s : State) (a lvl : Nat) : s.pass.walkFrom a lvl = s.walkFrom a lvl := by
  induction lvl with
  | zero => rfl
  | succ lvl ih =>
    funext base
    unfold walkFrom
    rw [homeWord_pass, ih]

theorem walk_pass (s : State) (world : Bool) (a : Nat) : s.pass.walk world a = s.walk world a :=
  if_congr Iff.rfl (congrFun (walkFrom_pass ..) _) rfl

theorem pteFor_pass (s : State) (i : Issuer) (a : Nat) : s.pass.pteFor i a = s.pteFor i a := by
  simp only [pteFor, walk_pass]; rfl

theorem unitOfLayer_pass (s : State) (i : Issuer) (ld : Word) : s.pass.unitOfLayer i ld = s.unitOfLayer i ld := by
  simp only [unitOfLayer, globalHome, pteFor_pass]

theorem beadKey_pass (s : State) (k : Nat) : s.pass.beadKey k = s.beadKey k := rfl
theorem coreAt_pass (s : State) (k : Nat) : s.pass.coreAt k = s.coreAt k := rfl

theorem requestDue_pass (s : State) (q : PklReq) : s.pass.requestDue q = true ↔
    (64 ≤ q.age ∨ (s.coreAt q.core).mode ≠ .running ∨ s.beadKey q.core ≠ q.uid) := by
  simp only [requestDue, beadKey_pass, Bool.or_eq_true, decide_eq_true_eq, bne_iff_ne, or_assoc]; rfl

theorem sameQueue_pass (s : State) (x q : PklReq) : s.pass.sameQueue x q = true ↔
    (x.uid = q.uid ∧ s.unitOfLayer (s.pklIssuer x) x.ld = s.unitOfLayer (s.pklIssuer q) q.ld) := by
  simp only [sameQueue, unitOfLayer_pass, Bool.and_eq_true, beq_iff_eq]; rfl

/-! ### What an access leaves of its issuer's core -/

/-- An access of core `k` has changed its TLB and the counts of home units. -/
structure Translated (s t : State) (k : Nat) : Prop where
  rest : t = { s with cores := t.cores, acnt := t.acnt }
  others : OthersSame s t k
  core : t.coreAt k = { s.coreAt k with tlb := (t.coreAt k).tlb }

theorem Translated.refl (s : State) (k : Nat) : Translated s s k := ⟨rfl, fun _ _ => rfl, rfl⟩

theorem Translated.trans {s t u : State} {k : Nat} (h : Translated s t k) (g : Translated t u k) : Translated s u k where
  rest := by rw [g.rest, h.rest]
  others j hj := (g.others j hj).trans (h.others j hj)
  core := by rw [g.core, h.core]

theorem translated_of_acnt {s t : State} (k : Nat) (h : t = { s with acnt := t.acnt }) : Translated s t k := by
  rw [h]
  exact ⟨rfl, fun _ _ => rfl, rfl⟩

theorem translated_noteTlb (s : State) (i : Issuer) (va : Word) : Translated s (s.noteTlb i va) i.core := by
  unfold noteTlb
  have hcount := countWalk_rest s i.world (fld va 0 52)
  simp only
  split
  · exact .refl s _
  · split
    · exact translated_of_acnt _ hcount
    · split
      · exact translated_of_acnt _ hcount
      · refine (translated_of_acnt i.core hcount).trans ⟨rfl, fun j hj => ?_, ?_⟩
        · rw [coreAt_putCore, if_neg hj]
        · rw [coreAt_putCore_same, (translated_of_acnt i.core hcount).core]

theorem translated_noteRange (s : State) (i : Issuer) (va : Word) (n : Nat) : Translated s (s.noteRange i va n) i.core := by
  unfold noteRange
  generalize s.unitStarts i va n = ps
  induction ps generalizing s with
  | nil => exact .refl s _
  | cons p ps ih =>
    exact ((translated_of_acnt _ (countAt_rest s i p)).trans (translated_noteTlb _ i p)).trans (ih _)

/-! ### What comes next (log 1) -/

section Choose

variable {s : State}

/-- A core whose watchdog is due has its timer, and a bead whose rod's limit its count has reached. -/
theorem watchdogDue_some {k : Nat} (h : s.watchdogDue = some k) : Ev.rodWatchdogExpiry k ∈ s.timers ∧
    ∃ b rod, (s.coreAt k).bead = some b ∧ s.rodAt b.unit b.rod = some rod ∧ rod.wdog ≠ 0 ∧ rod.wdog ≤ s.wdNow k ∧
      (s.coreAt k).wdSent = false := by
  have hlimit := List.find?_some h
  have hmem := List.mem_of_find?_eq_some h
  obtain ⟨e, he, hk⟩ := List.mem_filterMap.1 hmem
  refine ⟨?timer, ?limit⟩
  case timer =>
    split at hk
    · cases hk; exact he
    · cases hk
  case limit =>
    simp only at hlimit
    split at hlimit
    case h_1 rod hrod =>
      obtain ⟨b, hb, hrod⟩ := Option.bind_eq_some_iff.1 hrod
      simp only [Bool.and_eq_true, bne_iff_ne, Bool.not_eq_true', decide_eq_true_eq] at hlimit
      obtain ⟨⟨hwdog, hsent⟩, hle⟩ := hlimit
      exact ⟨b, rod, hb, hrod, hwdog, hle, hsent⟩
    case h_2 => cases hlimit

theorem nextRequest_eq_none : s.nextRequest = none ↔ ∀ q ∈ s.requests, ¬ s.requestDue q = true := by
  rw [nextRequest, Option.bind_eq_none_iff, ← List.find?_eq_none, Option.eq_none_iff_forall_ne_some]
  refine forall_congr' fun q => ⟨fun h hq => ?_, fun h hq => absurd hq h⟩
  have hself := List.find?_eq_none.1 (h hq) q (List.mem_of_find?_eq_some hq)
  exact hself (by simp [sameQueue])

/-- The request that goes next: the first of the queue of the first that is due. -/
theorem nextRequest_eq_some {q : PklReq} (h : s.nextRequest = some q) : ∃ as x bs cs ds, s.requests = as ++ x :: bs ∧
    s.requestDue x = true ∧ (∀ y ∈ as, ¬ s.requestDue y = true) ∧ s.requests = cs ++ q :: ds ∧ s.sameQueue q x = true ∧
    ∀ y ∈ cs, ¬ s.sameQueue y x = true := by
  obtain ⟨x, hx, hq⟩ := Option.bind_eq_some_iff.1 h
  obtain ⟨hdue, as, bs, hab, hbefore⟩ := List.find?_eq_some_iff_append.1 hx
  obtain ⟨hsame, cs, ds, hcd, hfirst⟩ := List.find?_eq_some_iff_append.1 hq
  exact ⟨as, x, bs, cs, ds, hab, hdue, fun y hy => by simpa using hbefore y hy, hcd, hsame,
    fun y hy => by simpa using hfirst y hy⟩

theorem ring_of_timers {e : Ev} {es : List Ev} (h : s.timers = e :: es) :
    s.ring = .event e { s with timers := es, rang := s.tick } := by
  simp only [ring, h]

theorem choose_of_due {k : Nat} (h : s.watchdogDue = some k) :
    s.choose = .event (.rodWatchdogExpiry k) { s with timers := s.timers.filter (· != .rodWatchdogExpiry k) } := by
  rw [choose, h]

variable (h : s.watchdogDue = none)

include h

theorem choose_pend {e : Ev} {es : List Ev} (hp : s.pend = e :: es) : s.choose = .event e { s with pend := es } := by
  simp only [choose, h, order, hp]

theorem choose_event {e : Ev} {es : List Input} (hp : s.pend = []) (hs : s.sched = .event e :: es) :
    s.choose = .event e { s with sched := es } := by
  simp only [choose, h, order, hp, hs]

variable (hp : s.pend = []) (hs : s.sched = [])

include hp hs

theorem choose_request {q : PklReq} (hq : s.nextRequest = some q) :
    s.choose = .event (pklEvent q) { s with requests := s.requests.erase q } := by
  simp only [choose, h, order, hp, hs, hq]

variable (hq : s.nextRequest = none)

include hq

/-- A clock's turn, where no core can issue or 64 steps have gone by without one. -/
theorem choose_ring (ht : s.timers ≠ []) (hr : s.nextCore = none ∨ s.rang + 64 ≤ s.tick) : s.choose = s.ring := by
  simp only [choose, h, order, hp, hs, hq]
  split_ifs with hlate
  · rfl
  · rcases hr with hn | hlate'
    · simp only [hn]
    · simp [hlate', ht] at hlate

theorem choose_core {k : Nat} (hr : s.timers = [] ∨ s.tick < s.rang + 64) (hk : s.nextCore = some k) : s.choose = .core k := by
  have hearly : ¬ (decide (s.rang + 64 ≤ s.tick) && !s.timers.isEmpty) = true := by
    rcases hr with ht | hr
    · simp [ht]
    · simp [hr]
  simp only [choose, h, order, hp, hs, hq, if_neg hearly, hk]

end Choose

/-! ### Fetching (R53, R87, R88) -/

/-- A word in the image that translates, passes its check and has not been stored to reads as the memory's bytes. -/
theorem fetchWord_of_mem {s : State} {k loc : Nat} {pc : Word} (h2 : pc.toNat % 2 = 0) (hspace : spaceOf pc = 0)
    (himage : inImage (s.kdOf k) pc = true) (ht : s.translate (s.issuer k .c) pc 2 false true = .ok (.mem loc))
    (hc : s.memCheck (s.issuer k .c) pc loc 2 true = .ok ()) (hstale : s.staleWord k loc = false) :
    s.fetchWord k pc = .ok (s.look loc 2) := by
  have hbar : s.fetchBarred k pc = false := by
    simp [fetchBarred, bitOf, Nat.testBit_zero, h2, hspace, himage]
  simp [fetchWord, hbar, ht, hc, wordRead, hstale]

/-- A base word ends its chain. -/
theorem fetchChain_base {s : State} {k n : Nat} {pc : Word} {bs : List Byte} (h : s.fetchWord k pc = .ok bs)
    (hw : isPfx (BitVec.ofNat 16 (leNat (bs.take 2))) = false) :
    s.fetchChain k (n + 1) pc = .ok [BitVec.ofNat 16 (leNat (bs.take 2))] := by
  simp [fetchChain, h, hw]

/-! ### A core's turn (R99, R101, R144) -/

section Turn

variable {s : State} {k : Nat}

@[simp] theorem coreAt_takeTurn (s : State) (k j : Nat) : (s.takeTurn k).coreAt j = s.coreAt j := rfl

/-- A core's turn in which an instruction issues takes five free values, one for each word that its chain may have (log 13). -/
def issuing (s : State) (k : Nat) : State := { s.takeTurn k with free := s.free + 5 }

@[simp] theorem coreAt_issuing (s : State) (k j : Nat) : (s.issuing k).coreAt j = s.coreAt j := rfl

theorem coreAt_atIssue (s : State) (k j : Nat) (i : Instr) (n : Nat) : (s.atIssue k i n).coreAt j =
    if j = k then { s.coreAt k with npc := padd (s.coreAt k).pc (2 * n : Nat), nextWin := windowsAfter (s.coreAt k).windows i }
    else s.coreAt j := coreAt_putCore ..

variable {c : Core} (hc : s.coreAt k = c)

include hc

/-- A mismatch produces nothing; the third in a row raises a machine check. -/
theorem turn_of_mismatch (h : c.chkMiss ≠ 0) : ∃ t, s.turn k = .done t ∧ SameMemory s t ∧ OthersSame s t k ∧
    t.coreAt k = { c with chkMiss := c.chkMiss - 1, chkRun := if c.chkRun + 1 = 3 then 0 else c.chkRun + 1 } ∧
    t.pend = s.pend ++ if c.chkRun + 1 = 3 then [.machineCheck k] else [] := by
  simp only [turn, hc, if_pos h]
  split_ifs with h3
  · refine ⟨_, rfl, sameMemory_of_eq rfl rfl, fun j hj => ?_, ?_, rfl⟩
    · simp [coreAt_putCore, hj]
    · simp
  · refine ⟨_, rfl, sameMemory_of_eq rfl rfl, fun j hj => ?_, ?_, (List.append_nil _).symm⟩
    · simp [coreAt_putCore, hj]
    · simp

variable {s0 : State} (hs0 : s.takeTurn k = s0) (h : c.chkMiss = 0)

include hs0 h

theorem turn_of_fetchFault {f : FaultInfo} (hf : s.fetchChain k 5 c.pc = .error f) :
    s.turn k = .done ((s0.noteFetch k c.pc f).trap f) := by
  simp only [turn, hc, hs0, h, hf, ne_eq, not_true_eq_false, if_false]

variable {ws : List IWord} (hf : s.fetchChain k 5 c.pc = .ok ws)

include hf

theorem turn_of_illegal {e : Reject} (hd : decode ws = .error e) :
    s.turn k = .done ((s0.noteRange (s0.issuer k .c) c.pc (2 * ws.length)).trap { cause := 0x03 }) := by
  simp only [turn, hc, hs0, h, hf, hd, ne_eq, not_true_eq_false, if_false]; rfl

variable {i : Instr} {n : Nat} (hd : decode ws = .ok (i, n))

include hd

theorem turn_of_violation (hv : c.violates i = true) (hb : s0.decodeBars k i = false) :
    s.turn k = .done ((s0.noteRange (s0.issuer k .c) c.pc (2 * ws.length)).trap { cause := 0x05 }) := by
  simp only [turn, hc, hs0, h, hf, hd, hv, hb, ne_eq, not_true_eq_false, if_false, Bool.not_false, Bool.and_self, if_true]; rfl

/-- The state in which a decoded instruction runs. -/
theorem turn_of_decoded (hv : c.violates i = false) : ∃ t, s.turn k = .execute i t ∧
    t = { s0 with cores := t.cores, free := s.free + 5, acnt := t.acnt } ∧ OthersSame s t k ∧
    t.coreAt k = { c with npc := padd c.pc (2 * n : Nat), nextWin := windowsAfter c.windows i, tlb := (t.coreAt k).tlb } := by
  subst hs0
  have hturn : s.turn k = .execute i (((s.issuing k).atIssue k i n).noteRange ((s.takeTurn k).issuer k .c) c.pc (2 * n)) := by
    simp only [turn, hc, h, hf, hd, hv, ne_eq, not_true_eq_false, if_false, Bool.false_and, Bool.false_eq_true]; rfl
  have hread : Translated _ _ k := translated_noteRange ((s.issuing k).atIssue k i n) ((s.takeTurn k).issuer k .c) c.pc (2 * n)
  refine ⟨_, hturn, ?rest, fun j hj => ?others, ?core⟩
  case rest => rw [hread.rest]; rfl
  case others => rw [hread.others j hj, coreAt_atIssue, if_neg hj, coreAt_issuing]
  case core =>
    have hk := hread.core
    rw [coreAt_atIssue, if_pos rfl, coreAt_issuing, hc] at hk
    exact hk

end Turn

end State

open State

/-! ### One step -/

theorem step_of_event {s t : State} {e : Ev} (h : s.pass.choose = .event e t) :
    step s = exec e.instr { t with msg := some e } := by
  rw [step, h]

theorem step_of_done {s t : State} {k : Nat} (h : s.pass.choose = .core k) (ht : s.pass.turn k = .done t) : step s = .next t := by
  rw [step, h]; simp only [ht]

theorem step_of_execute {s t : State} {k : Nat} {i : Instr} (h : s.pass.choose = .core k) (ht : s.pass.turn k = .execute i t) :
    step s = exec i t := by
  rw [step, h]; simp only [ht]

/-- Settles O57: what comes next is the model's choice (choose), and a core's turn is what its chain decodes to (turn). -/
theorem stepRunsDecoded : Obligations.StepRunsDecoded := by
  unfold Obligations.StepRunsDecoded
  intro s p
  refine ⟨fun k hdue => ?watchdog, fun hno => ⟨fun e es hp => ?pend, fun e es hp hs => ?input, fun e es hp hs hq ht hr => ?timer,
    fun q hp hs hq => ?request, ?queue, fun k hp hs hq hr hk => ?core⟩⟩
  case watchdog =>
    obtain ⟨htimer, hlimit⟩ := watchdogDue_some hdue
    exact ⟨htimer, hlimit, step_of_event (choose_of_due hdue)⟩
  case pend => exact step_of_event (choose_pend hno hp)
  case input => exact step_of_event (choose_event hno hp hs)
  case timer =>
    have htimers : p.timers ≠ [] := ht ▸ List.cons_ne_nil e es
    exact step_of_event ((choose_ring hno hp hs hq htimers hr).trans (ring_of_timers ht))
  case request => exact step_of_event (choose_request hno hp hs hq)
  case queue =>
    refine ⟨nextRequest_eq_none.trans (forall₂_congr fun q _ => not_congr (requestDue_pass s q)), fun q hq => ?_⟩
    obtain ⟨as, x, bs, cs, ds, hab, hdue, hbefore, hcd, hsame, hfirst⟩ := nextRequest_eq_some hq
    exact ⟨as, x, bs, cs, ds, hab, (requestDue_pass s x).1 hdue, fun y hy hy' => hbefore y hy ((requestDue_pass s y).2 hy'), hcd,
      (sameQueue_pass s q x).1 hsame, fun y hy hy' => hfirst y hy ((sameQueue_pass s y x).2 hy')⟩
  case core =>
    have hchoose : p.choose = .core k := choose_core hno hp hs hq hr hk
    refine ⟨fun hmiss => ?mismatch, fun f h hf => ?fault, fun ws h hf => ⟨fun e hd => ?illegal, fun i n hd hv => ?runs,
      fun i n hd hv hb => ?lookahead, fun pc loc h2 hspace himage ht hc hstale => ?word⟩⟩
    case mismatch =>
      obtain ⟨t, hturn, hmem, hothers, hcore, hpend⟩ := turn_of_mismatch (coreAt_pass s k) hmiss
      refine ⟨t, step_of_done hchoose hturn, hmem, hothers, hcore, hpend.trans ?_⟩
      rw [show p.pend = [] from hp]; rfl
    case fault => exact step_of_done hchoose (turn_of_fetchFault (coreAt_pass s k) rfl h hf)
    case illegal => exact step_of_done hchoose (turn_of_illegal (coreAt_pass s k) rfl h hf hd)
    case lookahead => exact step_of_done hchoose (turn_of_violation (coreAt_pass s k) rfl h hf hd hv hb)
    case runs =>
      obtain ⟨t, hturn, hrest, hothers, hcore⟩ := turn_of_decoded (coreAt_pass s k) rfl h hf hd hv
      have hcur : t.cur = k := by rw [hrest]; rfl
      refine ⟨t, step_of_execute hchoose hturn, hrest, hothers, ?_⟩
      rw [me, hcur]
      exact hcore
    case word =>
      exact ⟨_, fetchWord_of_mem h2 hspace himage ht hc hstale, rfl,
        fetchChain_base (fetchWord_of_mem h2 hspace himage ht hc hstale)⟩

end Sys2Proof.Machine
end

