-- ==== Sys2Proof/Proofs/ScalarWords.lean ====
section
/-! The functions f(a, b) of page 0 read as numbers and bit by bit (R109 to R113, R117, R118). -/

namespace Sys2Proof.Machine

open Sys2Proof

/-! ### Compares, extremes, shifts (R109, R111) -/

theorem boolWord_decide (p : Prop) [Decidable p] : boolWord (decide p) = if p then 1 else 0 := by
  simp only [boolWord, decide_eq_true_eq]

theorem boolWord_decide_not (p : Prop) [Decidable p] : boolWord (decide (¬ p)) = if p then 0 else 1 := by
  rw [boolWord_decide, ite_not]

theorem minW_toInt (a b : Word) : (minW a b).toInt = min a.toInt b.toInt := by
  rw [minW, min_def, apply_ite BitVec.toInt]

theorem maxW_toInt (a b : Word) : (maxW a b).toInt = max a.toInt b.toInt := by
  rw [maxW, max_def, apply_ite BitVec.toInt]

theorem minuW_toNat (a b : Word) : (minuW a b).toNat = min a.toNat b.toNat := by
  rw [minuW, min_def, apply_ite BitVec.toNat]

theorem maxuW_toNat (a b : Word) : (maxuW a b).toNat = max a.toNat b.toNat := by
  rw [maxuW, max_def, apply_ite BitVec.toNat]

theorem shiftLeft_toNat (a : Word) (n : Nat) : (a <<< n).toNat = a.toNat * 2 ^ n % 2 ^ 64 := by
  rw [BitVec.toNat_shiftLeft, Nat.shiftLeft_eq]

theorem shiftRight_toNat (a : Word) (n : Nat) : (a >>> n).toNat = a.toNat / 2 ^ n := by
  rw [BitVec.toNat_ushiftRight, Nat.shiftRight_eq_div_pow]

theorem sshiftRight_toInt (a : Word) (n : Nat) : (a.sshiftRight n).toInt = a.toInt / 2 ^ n := by
  rw [BitVec.toInt_sshiftRight, Int.shiftRight_eq_div_pow]; norm_cast

/-- ROL takes bit i to bit i + amount, round the end of the word. -/
theorem rolW_getLsbD (a b : Word) {i : Nat} (hi : i < 64) :
    (rolW a b).getLsbD ((i + b.toNat % 64) % 64) = a.getLsbD i := by
  have hr : b.toNat % 64 < 64 := Nat.mod_lt _ (by decide)
  rw [rolW, amt, BitVec.getLsbD_rotateLeft]
  generalize b.toNat % 64 = r at hr ⊢
  rw [Nat.mod_eq_of_lt hr]
  by_cases hwrap : i + r < 64
  · rw [Nat.mod_eq_of_lt hwrap]
    simp [hwrap]
  · have hlow : (i + r) % 64 = i + r - 64 := by omega
    have hbit : 64 - r + (i + r - 64) = i := by omega
    have hlt : i + r - 64 < r := by omega
    rw [hlow, hbit]
    simp [hlt]

/-! ### Products and quotients (R110) -/

theorem mulhW_toInt (a b : Word) : (mulhW a b).toInt = a.toInt * b.toInt / 2 ^ 64 := by
  have hlo : -2 ^ 126 ≤ a.toInt * b.toInt := BitVec.le_toInt_mul_toInt
  have hhi : a.toInt * b.toInt ≤ 2 ^ 126 := BitVec.toInt_mul_toInt_le
  rw [mulhW, BitVec.toInt_ofInt_eq_self (by decide)] <;> omega

theorem mulhuW_toNat (a b : Word) : (mulhuW a b).toNat = a.toNat * b.toNat / 2 ^ 64 := by
  have h : a.toNat * b.toNat < 2 ^ 64 * 2 ^ 64 := Nat.mul_lt_mul'' a.isLt b.isLt
  rw [mulhuW, BitVec.toNat_ofNat, Nat.mod_eq_of_lt (Nat.div_lt_of_lt_mul h)]

/-- The one quotient of nonzero divisor that does not fit is −2^63 / −1. -/
theorem divW_toInt (a b : Word) : (divW a b).toInt =
    if b = 0 then -1 else if a.toInt = -2 ^ 63 ∧ b.toInt = -1 then -2 ^ 63 else a.toInt.tdiv b.toInt := by
  unfold divW
  split_ifs with hb hover
  · rfl
  · obtain ⟨ha, hb⟩ := hover
    rw [ha, hb]; decide
  · have hfits : a ≠ BitVec.intMin 64 ∨ b ≠ -1#64 := by
      by_contra h
      push Not at h
      obtain ⟨rfl, rfl⟩ := h
      exact hover (by decide)
    rw [BitVec.toInt_ofInt, ← BitVec.toInt_sdiv, BitVec.toInt_sdiv_of_ne_or_ne a b hfits]

theorem remW_toInt (a b : Word) : (remW a b).toInt =
    if b = 0 then a.toInt else if a.toInt = -2 ^ 63 ∧ b.toInt = -1 then 0
    else a.toInt - a.toInt.tdiv b.toInt * b.toInt := by
  unfold remW
  split_ifs with hb hover
  · rfl
  · obtain ⟨ha, hb⟩ := hover
    rw [ha, hb]; decide
  · rw [← BitVec.toInt_srem, BitVec.ofInt_toInt, BitVec.toInt_srem, Int.tmod_def, mul_comm]

theorem divuW_toNat (a b : Word) : (divuW a b).toNat = if b = 0 then 2 ^ 64 - 1 else a.toNat / b.toNat := by
  unfold divuW
  split_ifs
  · decide
  · rw [BitVec.toNat_ofNat, Nat.mod_eq_of_lt ((Nat.div_le_self _ _).trans_lt a.isLt)]

theorem remuW_toNat (a b : Word) :
    (remuW a b).toNat = if b = 0 then a.toNat else a.toNat - a.toNat / b.toNat * b.toNat := by
  unfold remuW
  split_ifs
  · rfl
  · rw [BitVec.toNat_ofNat, Nat.mod_eq_of_lt ((Nat.mod_le _ _).trans_lt a.isLt), Nat.mod_eq_sub_div_mul]

/-! ### Counts of bits (R112) -/

theorem bitOf_eq (a : Word) (i : Nat) : bitOf a i = a.getLsbD i := rfl

/-- The run that a list of numbers begins with ends at the first that does not hold. -/
theorem length_takeWhile_range {p : Nat → Bool} {k n : Nat} (hkn : k ≤ n) (hbefore : ∀ i < k, p i = true)
    (hstop : k < n → p k = false) : ((List.range n).takeWhile p).length = k := by
  obtain ⟨m, rfl⟩ := Nat.exists_eq_add_of_le hkn
  rw [List.range_add, List.takeWhile_append_of_pos fun i hi => hbefore i (List.mem_range.1 hi)]
  cases m with
  | zero => simp
  | succ m => simp [List.range_succ_eq_map, hstop (by omega)]

theorem clzW_toNat (a : Word) :
    (clzW a).toNat = ((List.range 64).takeWhile fun i => !a.getLsbD (63 - i)).length := by
  by_cases h0 : a = 0
  · subst h0; decide
  · have hne : a.toNat ≠ 0 := fun h => h0 (BitVec.eq_of_toNat_eq h)
    have htop : a.toNat.log2 < 64 := (Nat.log2_lt hne).2 a.isLt
    have hvalue : (clzW a).toNat = 63 - a.toNat.log2 := by
      rw [clzW, if_neg h0, BitVec.toNat_ofNat, Nat.mod_eq_of_lt (by omega)]
    rw [hvalue]
    refine (length_takeWhile_range (by omega) (fun i hi => ?above) fun _ => ?top).symm
    case above =>
      have hbelow : a.toNat < 2 ^ (63 - i) := (Nat.log2_lt hne).1 (by omega)
      simp [BitVec.getLsbD, Nat.testBit_lt_two_pow hbelow]
    case top =>
      have hbit : 63 - (63 - a.toNat.log2) = a.toNat.log2 := by omega
      simp [BitVec.getLsbD, hbit, Nat.testBit_log2 hne]

theorem ctzW_toNat (a : Word) : (ctzW a).toNat = ((List.range 64).takeWhile fun i => !a.getLsbD i).length := by
  simp only [ctzW, bitOf_eq]
  cases hfind : (List.range 64).find? fun i => a.getLsbD i with
  | none =>
    rw [length_takeWhile_range (le_refl 64) (List.find?_range_eq_none.1 hfind) fun h => absurd h (lt_irrefl _)]
    rfl
  | some k =>
    obtain ⟨hset, hmem, hbefore⟩ := List.find?_range_eq_some.1 hfind
    have hk : k < 64 := List.mem_range.1 hmem
    rw [length_takeWhile_range hk.le hbefore fun _ => by simp [hset], Option.getD_some, BitVec.toNat_ofNat,
      Nat.mod_eq_of_lt (by omega)]

theorem popcW_toNat (a : Word) : (popcW a).toNat = (List.range 64).countP fun i => a.getLsbD i := by
  have hle : (List.range 64).countP (fun i => a.getLsbD i) ≤ 64 := by
    simpa using List.countP_le_length (p := fun i => a.getLsbD i) (l := List.range 64)
  simp only [popcW, bitOf_eq]
  rw [← List.countP_eq_length_filter, BitVec.toNat_ofNat, Nat.mod_eq_of_lt (by omega)]

/-! ### Extensions (R112) -/

theorem signed_toNat {n : Nat} (hn : 0 < n) (a : Word) : signed n a.toNat = (a.setWidth n).toInt := by
  obtain ⟨m, rfl⟩ := Nat.exists_eq_add_of_le' hn
  simp only [signed, BitVec.toInt_eq_toNat_cond, BitVec.toNat_setWidth, Nat.add_sub_cancel, pow_succ]
  refine if_congr ?_ rfl rfl
  omega

theorem sextW_eq {n : Nat} (hn : 0 < n) (a : Word) : sextW n a = (a.setWidth n).signExtend 64 := by
  rw [sextW, signed_toNat hn, BitVec.signExtend]

theorem zextW_eq (n : Nat) (a : Word) : zextW n a = (a.setWidth n).setWidth 64 := by
  apply BitVec.eq_of_toNat_eq
  simp [zextW]

/-! ### Bit fields (R113) -/

theorem ofNat_fld_getLsbD (w : Word) (lo len : Nat) {i : Nat} (hi : i < 64) :
    (BitVec.ofNat 64 (fld w lo len)).getLsbD i = (decide (i < len) && w.getLsbD (lo + i)) := by
  rw [BitVec.getLsbD_ofNat, fld, Nat.testBit_mod_two_pow, Nat.testBit_div_two_pow, add_comm i]
  simp [hi, BitVec.getLsbD]

/-- A word with a field replaced: what lies above the field, the new field, what lies below. -/
theorem replaceFld_eq (w : Word) (lo len v : Nat) : w.toNat - fld w lo len * 2 ^ lo + v * 2 ^ lo =
    2 ^ lo * (2 ^ len * (w.toNat / 2 ^ lo / 2 ^ len) + v) + w.toNat % 2 ^ lo := by
  have hcut : 2 ^ lo * (2 ^ len * (w.toNat / 2 ^ lo / 2 ^ len)) + w.toNat % 2 ^ lo + fld w lo len * 2 ^ lo = w.toNat := by
    rw [add_right_comm, mul_comm (fld ..), ← mul_add, fld, Nat.div_add_mod, Nat.div_add_mod]
  have hrest : w.toNat - fld w lo len * 2 ^ lo = 2 ^ lo * (2 ^ len * (w.toNat / 2 ^ lo / 2 ^ len)) + w.toNat % 2 ^ lo :=
    Nat.sub_eq_of_eq_add hcut.symm
  rw [hrest]
  ring

/-- The bits of a word with a field replaced: the new field's in its place, the old ones elsewhere. -/
theorem setFld_getLsbD (w : Word) (lo len v : Nat) {i : Nat} (hi : i < 64) : (setFld w lo len v).getLsbD i =
    if lo ≤ i ∧ i < lo + len then v.testBit (i - lo) else w.getLsbD i := by
  have hlow : w.toNat % 2 ^ lo < 2 ^ lo := Nat.mod_lt _ (Nat.two_pow_pos lo)
  have hv : v % 2 ^ len < 2 ^ len := Nat.mod_lt _ (Nat.two_pow_pos len)
  rw [setFld, BitVec.getLsbD_ofNat, replaceFld_eq, Nat.testBit_two_pow_mul_add _ hlow, Nat.testBit_two_pow_mul_add _ hv]
  simp only [hi, decide_true, Bool.true_and, Nat.testBit_mod_two_pow, Nat.testBit_div_two_pow, BitVec.getLsbD]
  by_cases h1 : i < lo
  · simp [h1]
  · by_cases h2 : i < lo + len
    · have h3 : i - lo < len := by omega
      simp [h1, h2, h3]
    · have h3 : ¬ i - lo < len := by omega
      have hback : i - lo - len + len + lo = i := by omega
      simp [h1, h2, h3, hback]

theorem binsW_getLsbD (d a : Word) (pos len : Nat) {i : Nat} (hi : i < 64) : (binsW d a pos len).getLsbD i =
    if pos ≤ i ∧ i < pos + len then a.getLsbD (i - pos) else d.getLsbD i := by
  rw [binsW, setFld_getLsbD _ _ _ _ hi]
  refine if_ctx_congr Iff.rfl (fun h => ?_) fun _ => rfl
  have hin : i - pos < len := by omega
  simp [Nat.testBit_mod_two_pow, hin, BitVec.getLsbD]

/-! ### Pointers (R117, R118) -/

/-- The tag bits of a pointer. -/
theorem fld_tag (p : Word) : fld p 56 8 = p.toNat / 2 ^ 56 := by
  have := p.isLt
  unfold fld
  omega

theorem paddW_toNat (a b : Word) :
    (paddW a b).toNat = a.toNat / 2 ^ 56 * 2 ^ 56 + (a.toNat % 2 ^ 56 + b.toNat) % 2 ^ 56 := by
  have ha := a.isLt
  have hmod : ((a.toNat % 2 ^ 56 : Nat) + b.toInt) % (2 ^ 56 : Int) = ((a.toNat % 2 ^ 56 + b.toNat) % 2 ^ 56 : Nat) := by
    rw [BitVec.toInt_eq_toNat_cond]
    split <;> omega
  rw [paddW, padd, hmod, fld_tag, BitVec.toNat_ofNat, Int.toNat_natCast]
  omega

theorem ptagW_toNat (a t : Word) : (ptagW a t).toNat = t.toNat % 256 * 2 ^ 56 + a.toNat % 2 ^ 56 := by
  simp only [ptagW, fld, BitVec.toNat_ofNat]
  omega

theorem ofNat_fld_tag_toNat (a : Word) : (BitVec.ofNat 64 (fld a 56 8)).toNat = a.toNat / 2 ^ 56 := by
  have ha := a.isLt
  rw [fld_tag, BitVec.toNat_ofNat]
  omega

end Sys2Proof.Machine
end

