-- ==== Sys2Proof/Proofs/Scalar.lean ====
section
/-! Page 0: sums, logic, shifts, compares, products, bit fields, pointers (R107 to R118). -/

namespace Sys2Proof.Machine

open Sys2Proof

/-- An answer in s[d] of a value known by what holds of it. -/
theorem exists_putsScalar {i : Instr} {s : State} {d : Nat} {P : Word → Prop} (v : Word)
    (h : exec i s = .next (s.answer d v)) (hv : P v) : ∃ v, PutsScalar i s d v ∧ P v :=
  ⟨v, putsScalar_of i s d v h, hv⟩

/-- A compare answers the truth value of its relation. -/
theorem putsScalar_compare {i : Instr} {s : State} {d : Nat} (p : Prop) [Decidable p]
    (h : exec i s = .next (s.answer d (boolWord (decide p)))) : PutsScalar i s d (if p then 1 else 0) := by
  rw [← boolWord_decide]
  exact putsScalar_of i s d _ h

/-- Settles O1: each instruction is an answer in s[d], its value that of the model's function. -/
theorem scalarSumsAndLogic : Obligations.ScalarSumsAndLogic := by
  unfold Obligations.ScalarSumsAndLogic
  intro s d a b k src imm
  refine ⟨?add, ?sub, ?and, ?or, ?xor, ?andn, ?mov, ?sel, ?addi, ?li, ?shadd⟩ <;> exact putsScalar_of _ _ _ _ rfl

/-- Settles O2: each instruction is an answer in s[d], of a truth value or of a function whose value is known as a number. -/
theorem scalarShiftsAndCompares : Obligations.ScalarShiftsAndCompares := by
  unfold Obligations.ScalarShiftsAndCompares
  intro s d a b src
  refine ⟨?seq, ?sne, ?slt, ?sltu, ?sle, ?sleu, ?min, ?max, ?minu, ?maxu, ?shl, ?shr, ?sar, ?rol⟩
  case seq => exact putsScalar_compare _ rfl
  case sne =>
    rw [← boolWord_decide_not]
    exact putsScalar_of _ _ _ _ rfl
  case slt => exact putsScalar_compare _ rfl
  case sltu => exact putsScalar_compare _ rfl
  case sle => exact putsScalar_compare _ rfl
  case sleu => exact putsScalar_compare _ rfl
  case min => exact exists_putsScalar _ rfl (minW_toInt ..)
  case max => exact exists_putsScalar _ rfl (maxW_toInt ..)
  case minu => exact exists_putsScalar _ rfl (minuW_toNat ..)
  case maxu => exact exists_putsScalar _ rfl (maxuW_toNat ..)
  case shl => exact exists_putsScalar _ rfl (shiftLeft_toNat ..)
  case shr => exact exists_putsScalar _ rfl (shiftRight_toNat ..)
  case sar => exact exists_putsScalar _ rfl (sshiftRight_toInt ..)
  case rol => exact exists_putsScalar _ rfl fun i hi => rolW_getLsbD _ _ hi

/-- Settles O3: the model's quotients agree with R110 in each of its three cases, divisor zero, the overflow, the rest. -/
theorem scalarMultiplyDivide : Obligations.ScalarMultiplyDivide := by
  unfold Obligations.ScalarMultiplyDivide
  intro s d a b src
  exact ⟨exists_putsScalar _ rfl (BitVec.toNat_mul ..), exists_putsScalar _ rfl (mulhW_toInt ..),
    exists_putsScalar _ rfl (mulhuW_toNat ..), exists_putsScalar _ rfl (divW_toInt ..),
    exists_putsScalar _ rfl (remW_toInt ..), exists_putsScalar _ rfl (divuW_toNat ..),
    exists_putsScalar _ rfl (remuW_toNat ..)⟩

/-- Settles O4: counts by the first bit that stops a run, bit fields and pointers by the parts of a word. -/
theorem scalarBitsAndPointers : Obligations.ScalarBitsAndPointers := by
  unfold Obligations.ScalarBitsAndPointers
  intro s d a src
  refine ⟨?padd, ?ptag, ?pgtag, ?clz, ?ctz, ?popc, ?sextB, ?sextH, ?sextW, ?zextB, ?zextH, ?zextW,
    fun pos len _ _ => ⟨?bext, ?bins⟩⟩
  case padd => exact exists_putsScalar _ rfl (paddW_toNat ..)
  case ptag => exact exists_putsScalar _ rfl (ptagW_toNat ..)
  case pgtag => exact exists_putsScalar _ rfl (ofNat_fld_tag_toNat _)
  case clz => exact exists_putsScalar _ rfl (clzW_toNat _)
  case ctz => exact exists_putsScalar _ rfl (ctzW_toNat _)
  case popc => exact exists_putsScalar _ rfl (popcW_toNat _)
  case sextB => rw [← sextW_eq (by decide)]; exact putsScalar_of _ _ _ _ rfl
  case sextH => rw [← sextW_eq (by decide)]; exact putsScalar_of _ _ _ _ rfl
  case sextW => rw [← sextW_eq (by decide)]; exact putsScalar_of _ _ _ _ rfl
  case zextB => rw [← zextW_eq]; exact putsScalar_of _ _ _ _ rfl
  case zextH => rw [← zextW_eq]; exact putsScalar_of _ _ _ _ rfl
  case zextW => rw [← zextW_eq]; exact putsScalar_of _ _ _ _ rfl
  case bext => exact exists_putsScalar _ rfl fun i hi => ofNat_fld_getLsbD _ _ _ hi
  case bins => exact exists_putsScalar _ rfl fun i hi => binsW_getLsbD _ _ _ _ hi

end Sys2Proof.Machine
end
-- ==== Sys2Proof/Proofs/Jumps.lean ====
section
/-! Branches (R119 to R121), JR and JTAB (R122, R123). -/

namespace Sys2Proof.Machine

open Sys2Proof

/-! ### What a read at issue leaves (R153, R155) -/

namespace State

/-- Who issues an access does not depend on TLBs and counts. -/
theorem Translated.issuer_eq {s t : State} {k : Nat} (h : Translated s t k) (j : Nat) (p : Path) :
    t.issuer j p = s.issuer j p := by
  have hcore : (t.coreAt j).world = (s.coreAt j).world ∧ (t.coreAt j).bead = (s.coreAt j).bead := by
    by_cases hj : j = k
    · rw [hj, h.core]; exact ⟨rfl, rfl⟩
    · rw [h.others j hj]; exact ⟨rfl, rfl⟩
  obtain ⟨hworld, hbead⟩ := hcore
  have htile : t.tileAt j = s.tileAt j := by rw [h.rest]; rfl
  have hlink : t.linkAt (j - 384) = s.linkAt (j - 384) := by rw [h.rest]; rfl
  have hpart : t.partOf j = s.partOf j := by
    unfold partOf linkServes
    rw [htile, hlink, hbead]
  have hkd : t.kdOf j = s.kdOf j := by rw [h.rest]; rfl
  rw [issuer, hpart, hworld, hkd]; rfl

variable (s : State) (va : Word) (n : Nat)

theorem cur_noteRange (i : Issuer) : (s.noteRange i va n).cur = s.cur := by
  rw [(translated_noteRange s i va n).rest]

/-- A read of the executing core leaves its issuer as it was. -/
theorem issuer_noteRange (p : Path) : (s.noteRange (s.issuer s.cur p) va n).issuer s.cur p = s.issuer s.cur p :=
  (translated_noteRange s _ va n).issuer_eq s.cur p

/-- A read of the executing core leaves the address after its chain. -/
theorem npc_noteRange (p : Path) : (s.noteRange (s.issuer s.cur p) va n).me.npc = s.me.npc := by
  have hcore : (s.noteRange (s.issuer s.cur p) va n).coreAt s.cur = _ := (translated_noteRange s (s.issuer s.cur p) va n).core
  rw [me, cur_noteRange, hcore]; rfl

variable {s va n}

theorem withLoad_of_ok {bs : List Byte} (k : State → List Byte → State) (h : s.loadC va n = .ok bs) :
    s.withLoad va n k = k (s.noteRange (s.issuer s.cur .c) va n) bs := by
  simp only [withLoad, h]

/-! ### Targets (R122, R123) -/

theorem jumpTo_of_even {t : Word} (h : t.toNat % 2 = 0) : s.jumpTo t = s.goto t := by
  simp [jumpTo, bitOf, Nat.testBit_zero, h]

theorem jumpTo_of_odd {t : Word} (h : t.toNat % 2 = 1) : s.jumpTo t = s.trap { cause := 0x04, va := t } := by
  simp [jumpTo, bitOf, Nat.testBit_zero, h]

end State

/-! ### Branches -/

theorem goesTo_of_branch {i : Instr} {s : State} {disp : Int} (p : Prop) [Decidable p]
    (h : exec i s = .next (s.branch (decide p) disp)) :
    GoesTo i s (if p then padd s.me.pc (2 * disp) else s.me.npc) := by
  have hgoes := s.branch_goes (decide p) disp
  simp only [decide_eq_true_eq] at hgoes
  exact ⟨_, h, hgoes⟩

/-- Settles O5: each instruction is a branch on the condition that R120 or R121 gives it. -/
theorem branches : Obligations.Branches := by
  unfold Obligations.Branches
  intro s a b disp
  refine ⟨?always, ?prq, ?eqz, ?nez, ?ltz, ?gez, ?eq, ?ne, ?lt, ?ltu⟩
  case always => exact ⟨_, rfl, s.branch_goes true disp⟩
  case prq => exact ⟨_, rfl, s.branch_goes (s.prqOf s.cur) disp⟩
  all_goals exact goesTo_of_branch _ rfl

/-! ### Jumps -/

section Jtab

variable {s : State} {a b : Nat} {hdr : List Byte}
variable (halign : (s.sr a).toNat % 8 = 0) (hhdr : s.loadC (s.sr a) 8 = .ok hdr)

include halign hhdr

/-- JTAB past its header: an index at or beyond LEN falls through, any other reads its entry. -/
theorem exec_jtab_of_header : exec (.jtab a b) s = .next (
    let s1 := s.noteRange (s.issuer s.cur .c) (s.sr a) 8
    if leNat hdr % 2 ^ 32 ≤ (s.sr b).toNat then s1.retire
    else s1.withLoad (padd (s.sr a) (8 + 8 * (s.sr b).toNat : Nat)) 8 fun s2 e => s2.jumpTo (BitVec.ofNat 64 (leNat e))) := by
  change Host.Outcome.next (if (s.sr a).toNat % 8 ≠ 0 then _ else s.withLoad _ _ _) = _
  rw [if_neg (not_not.2 halign), State.withLoad_of_ok _ hhdr]

theorem exec_jtab_of_beyond (h : leNat hdr % 2 ^ 32 ≤ (s.sr b).toNat) :
    exec (.jtab a b) s = .next (s.noteRange (s.issuer s.cur .c) (s.sr a) 8).retire := by
  rw [exec_jtab_of_header halign hhdr]
  simp only [if_pos h]

theorem exec_jtab_of_entry {e : List Byte} (h : (s.sr b).toNat < leNat hdr % 2 ^ 32)
    (hentry : (s.noteRange (s.issuer s.cur .c) (s.sr a) 8).loadC (padd (s.sr a) (8 + 8 * (s.sr b).toNat : Nat)) 8 = .ok e) :
    exec (.jtab a b) s = .next (
      let i := s.issuer s.cur .c
      let s2 := (s.noteRange i (s.sr a) 8).noteRange i (padd (s.sr a) (8 + 8 * (s.sr b).toNat : Nat)) 8
      s2.jumpTo (BitVec.ofNat 64 (leNat e))) := by
  rw [exec_jtab_of_header halign hhdr]
  simp only [if_neg (not_le.2 h), State.withLoad_of_ok _ hentry, State.cur_noteRange, State.issuer_noteRange]

end Jtab

/-- Settles O6: JTAB's reads leave the issuer and the next address as they were, and both jumps end in jumpTo. -/
theorem jumps : Obligations.Jumps := by
  unfold Obligations.Jumps
  intro s a b t0 i s1 at_ s2
  refine ⟨fun heven => ?jr, fun hodd => ?jrFault, fun hdr halign hhdr =>
    ⟨fun hbeyond => ?beyond, fun e hbelow hentry => ⟨fun heven => ?entry, fun hodd => ?entryFault⟩⟩⟩
  case jr => exact ⟨_, congrArg Host.Outcome.next (State.jumpTo_of_even heven), s.goto_commitsTo t0⟩
  case jrFault => exact congrArg Host.Outcome.next (State.jumpTo_of_odd hodd)
  case beyond =>
    refine ⟨_, exec_jtab_of_beyond halign hhdr hbeyond, ?_⟩
    have hcommits : CommitsTo s1 s1.retire s1.me.npc [] 0 := s1.retire_commits
    rwa [State.npc_noteRange] at hcommits
  all_goals
    have hexec : exec (.jtab a b) s = .next (s2.jumpTo (BitVec.ofNat 64 (leNat e))) :=
      exec_jtab_of_entry halign hhdr hbelow hentry
    have hbit : (BitVec.ofNat 64 (leNat e)).toNat % 2 = leNat e % 2 := by
      rw [BitVec.toNat_ofNat]; omega
  case entry =>
    exact ⟨_, hexec.trans (congrArg Host.Outcome.next (State.jumpTo_of_even (hbit.trans heven))), s2.goto_commitsTo _⟩
  case entryFault => exact hexec.trans (congrArg Host.Outcome.next (State.jumpTo_of_odd (hbit.trans hodd)))

end Sys2Proof.Machine
end

