-- ==== Sys2Proof/Proofs/Csrs.lean ====
section
/-! CSR access (R125 to R127, R369, R397). -/

namespace Sys2Proof.Machine

open Sys2Proof

namespace State

variable {s : State}

theorem csrBarred_of_permitted {n : Nat} (h : n ≠ 0x050 ∨ s.me.world = true) : s.csrBarred n = false := by
  rcases h with h | h <;> simp [csrBarred, h]

/-! ### What CSRW's write leaves, table by table (R5) -/

theorem modPart_rest (s : State) (p : Nat) (f : Part → Part) : s.modPart p f = { s with parts := (s.modPart p f).parts } := by
  unfold modPart
  split <;> rfl

theorem partAt_modPart (s : State) (p q : Nat) (f : Part → Part) :
    (s.modPart p f).partAt q = if q = p then (s.partAt p).map f else s.partAt q := by
  unfold modPart
  split
  case h_1 x hx => rw [partAt_putPart, hx]; rfl
  case h_2 hnone =>
    rw [hnone]
    split_ifs with hq
    · rw [hq, hnone]; rfl
    · rfl

end State

/-- A core after CSRW: a write to FLG clears the bits written as 1, the core's RW registers take the value, SCB on a tile or a
link core only (R36, R125, log 22). -/
def Core.csrWritten (c : Core) (k n : Nat) (v : Word) : Core :=
  { c with
    flg := if n = 0x000 then c.flg &&& ~~~(v.setWidth 5) else c.flg
    scb := if n = 0x020 ∧ isSteward k = false then v.setWidth 21 else c.scb
    epc := if n = 0x040 then v else c.epc
    esav0 := if n = 0x045 then v else c.esav0
    esav1 := if n = 0x046 then v else c.esav1
    esav2 := if n = 0x047 then v else c.esav2
    esav3 := if n = 0x048 then v else c.esav3 }

/-- A partition after CSRW to RAMP: each field at least its floor (R397). -/
def Part.rampWritten (x : Part) (floors v : Word) : Part :=
  { x with rampUp := max (fld v 0 8) (fld floors 16 8), rampDn := max (fld v 8 8) (fld floors 24 8) }

/-- The CSRs of a core itself that CSRW writes. -/
def coreCsrs : List Nat := [0x000, 0x020, 0x040, 0x045, 0x046, 0x047, 0x048]

theorem Core.csrWritten_of_other (c : Core) (k : Nat) {n : Nat} (v : Word) (h : n ∉ coreCsrs) : c.csrWritten k n v = c := by
  simp only [coreCsrs, List.mem_cons, List.not_mem_nil, or_false, not_or] at h
  obtain ⟨hflg, hscb, hepc, h0, h1, h2, h3⟩ := h
  simp [Core.csrWritten, hflg, hscb, hepc, h0, h1, h2, h3]

/-- SCB of a steward core is no register that CSRW writes (log 22). -/
theorem Core.csrWritten_scb_of_steward (c : Core) {k : Nat} (v : Word) (h : isSteward k = true) :
    c.csrWritten k 0x020 v = c := by
  simp [Core.csrWritten, h]

namespace State

variable (s : State) (k n : Nat) (v : Word)

/-- All that CSRW's write can do: to the core, nothing, to the partition's ramp, to the die's SVEC. -/
theorem setCsr_cases :
    (n ≠ 0x019 ∧ n ≠ 0x050 ∧ s.setCsr k n v = s.putCore k ((s.coreAt k).csrWritten k n v)) ∨
    ((∀ p, ¬ (n = 0x019 ∧ k < 384 ∧ s.partOf k = some p)) ∧ n ≠ 0x050 ∧ (s.coreAt k).csrWritten k n v = s.coreAt k ∧
      s.setCsr k n v = s) ∨
    (∃ p, n = 0x019 ∧ k < 384 ∧ s.partOf k = some p ∧
      s.setCsr k n v = s.modPart p (Part.rampWritten · (s.sysReg 0x071 0) v)) ∨
    (n = 0x050 ∧ s.setCsr k n v = s.modDie (dieOf k) fun d => { d with svec := v }) := by
  unfold setCsr
  split
  case h_2 =>
    by_cases hk : k < 384
    · have htile : isTile k = true := decide_eq_true hk
      rw [if_pos htile]
      cases hp : s.partOf k with
      | none => exact .inr (.inl ⟨by simp, by decide, Core.csrWritten_of_other _ _ _ (by decide), rfl⟩)
      | some p => exact .inr (.inr (.inl ⟨p, rfl, hk, rfl, rfl⟩))
    · rw [if_neg (by simpa [isTile] using hk)]
      exact .inr (.inl ⟨fun _ ⟨_, hlt, _⟩ => hk hlt, by decide, Core.csrWritten_of_other _ _ _ (by decide), rfl⟩)
  case h_3 =>
    cases hk : isSteward k
    · exact .inl ⟨by decide, by decide, by simp [Core.csrWritten, hk]⟩
    · exact .inr (.inl ⟨by simp, by decide, Core.csrWritten_scb_of_steward _ _ hk, rfl⟩)
  case h_9 => exact .inr (.inr (.inr ⟨rfl, rfl⟩))
  case h_10 h0 hramp h20 h40 h45 h46 h47 h48 h50 =>
    have hother : n ∉ coreCsrs := by
      simp only [coreCsrs, List.mem_cons, List.not_mem_nil, or_false, not_or]
      exact ⟨h0, h20, h40, h45, h46, h47, h48⟩
    exact .inr (.inl ⟨fun _ ⟨hn, _⟩ => hramp hn, h50, Core.csrWritten_of_other _ _ _ hother, rfl⟩)
  all_goals exact .inl ⟨by decide, by decide, rfl⟩

theorem setCsr_rest : s.setCsr k n v =
    { s with cores := (s.setCsr k n v).cores, dies := (s.setCsr k n v).dies, parts := (s.setCsr k n v).parts } := by
  obtain ⟨-, -, h⟩ | ⟨-, -, -, h⟩ | ⟨p, -, -, -, h⟩ | ⟨-, h⟩ := s.setCsr_cases k n v <;> rw [h]
  case inr.inr.inl => rw [modPart_rest]
  all_goals rfl

theorem coreAt_setCsr (j : Nat) :
    (s.setCsr k n v).coreAt j = if j = k then (s.coreAt k).csrWritten k n v else s.coreAt j := by
  have hkept (h : n ∉ coreCsrs) : (if j = k then (s.coreAt k).csrWritten k n v else s.coreAt j) = s.coreAt j := by
    rw [Core.csrWritten_of_other _ _ _ h]
    exact ite_eq_right_iff.2 fun hj => by rw [hj]
  obtain ⟨-, -, h⟩ | ⟨-, -, hc, h⟩ | ⟨p, rfl, -, -, h⟩ | ⟨rfl, h⟩ := s.setCsr_cases k n v <;> rw [h]
  · exact coreAt_putCore ..
  · rw [hc]
    exact (ite_eq_right_iff.2 fun hj => by rw [hj]).symm
  · rw [hkept (by decide), modPart_rest]; rfl
  · rw [hkept (by decide)]; rfl

theorem dieAt_setCsr (e : Nat) : (s.setCsr k n v).dieAt e =
    if n = 0x050 ∧ e = dieOf k then { s.dieAt e with svec := v } else s.dieAt e := by
  obtain ⟨-, hn, h⟩ | ⟨-, hn, -, h⟩ | ⟨p, rfl, -, -, h⟩ | ⟨rfl, h⟩ := s.setCsr_cases k n v <;> rw [h]
  · simp [hn]
  · simp [hn]
  · rw [modPart_rest]; rfl
  · rw [modDie_eq, dieAt_putDie]
    by_cases he : e = dieOf k <;> simp [he]

theorem partAt_setCsr (p : Nat) : (s.setCsr k n v).partAt p =
    if n = 0x019 ∧ k < 384 ∧ s.partOf k = some p then (s.partAt p).map (Part.rampWritten · (s.sysReg 0x071 0) v)
    else s.partAt p := by
  obtain ⟨hn, -, h⟩ | ⟨hn, -, -, h⟩ | ⟨q, rfl, hk, hq, h⟩ | ⟨rfl, h⟩ := s.setCsr_cases k n v <;> rw [h]
  · simp [hn]
  · rw [if_neg (hn p)]
  · rw [partAt_modPart, hq]
    by_cases hp : p = q
    · simp [hp, hk]
    · simp [hp, Ne.symm hp]
  · rfl

end State

/-! ### The instructions (R125) -/

theorem exec_csrr_of_permitted {s : State} {n : Nat} (d : Nat) (h : n ≠ 0x050 ∨ s.me.world = true) :
    exec (.csrr d n) s = .next (s.answer d (s.csr s.cur n)) := by
  change Host.Outcome.next (if s.csrBarred n then _ else _) = _
  rw [State.csrBarred_of_permitted h]; rfl

theorem exec_csrw_of_permitted {s : State} {n : Nat} (d : Nat) (h : n ≠ 0x050 ∨ s.me.world = true) :
    exec (.csrw d n) s = .next (s.setCsr s.cur n (s.sr d)).retire := by
  change Host.Outcome.next (if s.csrBarred n then _ else _) = _
  rw [State.csrBarred_of_permitted h]; rfl

/-- Settles O7: the model's table of CSR values, entry by entry. -/
theorem csrReads : Obligations.CsrReads := by
  unfold Obligations.CsrReads
  intro s d n hworld
  refine ⟨putsScalar_of _ _ _ _ (exec_csrr_of_permitted d hworld), rfl, rfl, rfl, rfl, rfl, rfl, rfl, rfl, rfl, rfl,
    rfl, ?estat, rfl, rfl, rfl, rfl, rfl, fun hk => ?tile⟩
  case estat =>
    change BitVec.ofNat 64 (s.me.pw.toNat * 2 + s.me.inh.toNat) = _
    rw [mul_comm]
  case tile =>
    have htile : isTile s.cur = true := decide_eq_true hk
    have hsteward : isSteward s.cur = false := by simp [isSteward, show ¬ 416 ≤ s.cur by omega]
    have honTile (v : Word) : (if isTile s.cur then v else 0) = v := if_pos htile
    refine ⟨honTile _, honTile _, honTile _, honTile _, by simp [State.csr, hsteward]; rfl, fun i hi => ?_⟩
    interval_cases i <;> exact ⟨honTile _, honTile _⟩

/-- Settles O8: what the write leaves, table by table, then the commit. -/
theorem csrWrites : Obligations.CsrWrites := by
  unfold Obligations.CsrWrites
  intro s d n hworld
  have hrest := s.setCsr_rest s.cur n (s.sr d)
  have hcore := s.coreAt_setCsr s.cur n (s.sr d)
  have hcur : (s.setCsr s.cur n (s.sr d)).cur = s.cur := by rw [hrest]
  refine ⟨_, exec_csrw_of_permitted d hworld, ?rest, fun j hj => ?others, ?memory, ?me, fun e => ?dies, fun p => ?parts⟩
  case rest =>
    rw [State.retire, State.setMe_eq]
    generalize s.setCsr s.cur n (s.sr d) = u at hrest
    rw [hrest]; rfl
  case others =>
    rw [State.retire, State.setMe_eq, State.coreAt_putCore, hcur, if_neg hj, hcore, if_neg hj]
  case memory => exact sameMemory_of_eq (by rw [State.retire, hrest]; rfl) (by rw [State.retire, hrest]; rfl)
  case me =>
    rw [State.retire, State.me_setMe, State.me, hcur, hcore, if_pos rfl]; rfl
  case dies => exact s.dieAt_setCsr s.cur n (s.sr d) e
  case parts => exact s.partAt_setCsr s.cur n (s.sr d) p

end Sys2Proof.Machine
end

