-- ==== Sys2Proof/Proofs/Marks.lean ====
section
/-! What a write leaves of granules' metadata and of the wakes that it owes (R165, R189); what clearing R in the running bead's
record leaves (R147). -/

namespace Sys2Proof.Map

/-- Storing at a key twice is storing once. -/
theorem put_put {β : Type} (m : List (Nat × β)) (i : Nat) (x y : β) : put (put m i x) i y = put m i y := by
  induction m with
  | nil => simp [put]
  | cons e m ih =>
    obtain ⟨k, v⟩ := e
    by_cases hi : i = k
    · simp [put, hi]
    · by_cases hlt : i < k <;> simp [put, hi, hlt, ih]

end Sys2Proof.Map

namespace Sys2Proof.Machine

open Sys2Proof

namespace State

/-! ### Metadata after a write (R165, R189) -/

theorem metaAt_of_gmeta_eq {s t : State} (h : t.gmeta = s.gmeta) (g : Nat) : t.metaAt g = s.metaAt g := by unfold metaAt; rw [h]

theorem metaAt_noteWrite (s : State) (g h : Nat) (f : Bool) :
    (s.noteWrite g f).metaAt h = if h = g then mkMeta true false f (metaTag (s.metaAt g)) else s.metaAt h := by
  rw [← metaAt_putMeta]
  unfold noteWrite
  simp only
  split <;> rfl

theorem metaAt_noteWrites (gs : List Nat) (s : State) (g : Nat) :
    (gs.foldl (fun (t : State) g => t.noteWrite g (metaF (t.metaAt g))) s).metaAt g =
      if g ∈ gs then mkMeta true false (metaF (s.metaAt g)) (metaTag (s.metaAt g)) else s.metaAt g := by
  induction gs generalizing s with
  | nil => simp
  | cons h gs ih =>
    rw [List.foldl_cons, ih, metaAt_noteWrite]
    by_cases hg : g = h
    · subst hg; simp
    · simp [hg]

theorem metaAt_markWrite (s : State) (loc n g : Nat) : (s.markWrite loc n).metaAt g = s.marked [(loc, n)] g := by
  unfold markWrite marked
  split
  case isTrue ht => rw [metaAt_noteWrites]; simp [ht]
  case isFalse ht => simp [ht]

theorem metaAt_putAt (s : State) (loc : Nat) (bs : List Byte) (g : Nat) :
    (s.putAt loc bs).metaAt g = s.marked [(loc, bs.length)] g := by
  have hmeta : (s.storeBytes loc bs).metaAt g = s.metaAt g := metaAt_of_gmeta_eq (by unfold storeBytes taintCtxs; rw [landBytes_rest]) g
  rw [putAt, metaAt_markWrite]
  simp only [marked, hmeta]

/-- Marking twice is marking once. -/
theorem marked_cons {s t : State} {p : Nat × Nat} {g : Nat} (h : t.metaAt g = s.marked [p] g) (ps : List (Nat × Nat)) :
    t.marked ps g = s.marked (p :: ps) g := by
  simp only [marked, h, List.any_cons, List.any_nil, Bool.or_false]
  by_cases hp : (tagged p.1 && (granules p.1 p.2).contains g) = true
  · simp only [hp, if_true, Bool.true_or, metaF_mkMeta, metaTag_mkMeta, ite_self]
  · simp only [hp, Bool.false_or, Bool.false_eq_true, if_false]

theorem metaAt_putPieces (ps : List (Nat × Nat)) (s : State) (bs : List Byte) (g : Nat)
    (hlen : (ps.map Prod.snd).sum = bs.length) : (s.putPieces ps bs).metaAt g = s.marked ps g := by
  induction ps generalizing s bs with
  | nil => rfl
  | cons p ps ih =>
    simp only [List.map_cons, List.sum_cons] at hlen
    have htake : (bs.take p.2).length = p.2 := by rw [List.length_take]; omega
    have hfirst : (s.putAt p.1 (bs.take p.2)).metaAt g = s.marked [p] g := by rw [metaAt_putAt, htake]
    rw [putPieces, ih _ _ (by rw [List.length_drop]; omega), marked_cons hfirst]

@[simp] theorem countPieces_gmeta (s : State) (ps : List (Nat × Nat)) : (s.countPieces ps).gmeta = s.gmeta := by
  rw [countPieces_rest]

/-- A write marks the granules that it touches. -/
theorem metaAt_spanWrite (s : State) (loc : Nat) (bs : List Byte) (g : Nat) :
    (s.spanWrite loc bs).metaAt g = s.marked (s.runsFrom loc bs.length) g := by
  have hmeta : (s.countPieces (s.runsFrom loc bs.length)).metaAt g = s.metaAt g := metaAt_of_gmeta_eq (countPieces_gmeta ..) g
  rw [spanWrite, fillPieces, metaAt_putPieces _ _ _ _ (runsFrom_sum ..)]
  simp only [marked, hmeta]

theorem metaTag_marked (s : State) (ps : List (Nat × Nat)) (g : Nat) : metaTag (s.marked ps g) = metaTag (s.metaAt g) := by
  unfold marked
  split
  · exact metaTag_mkMeta ..
  · rfl

/-! ### Wakes (R189) -/

/-- The beads parked on a granule still wait for a write to it, or their wake is under way. -/
def OwesWake (s : State) (g : Nat) : Prop := metaW (s.metaAt g) = true ∨ Ev.parkTableWake g ∈ s.pend

theorem OwesWake.of_eq {s t : State} {g : Nat} (h : s.OwesWake g) (hm : t.gmeta = s.gmeta) (hp : t.pend = s.pend) : t.OwesWake g := by
  unfold OwesWake
  rw [metaAt_of_gmeta_eq hm, hp]
  exact h

/-- A write to the granule starts the wake. -/
theorem OwesWake.noteWrite_same {s : State} {g : Nat} (h : s.OwesWake g) (f : Bool) :
    Ev.parkTableWake g ∈ (s.noteWrite g f).pend := by
  unfold noteWrite
  simp only
  split
  case isTrue => exact List.mem_append_right _ (List.mem_singleton_self _)
  case isFalse hw => exact h.resolve_left hw

theorem OwesWake.noteWrite {s : State} {g : Nat} (h : s.OwesWake g) (k : Nat) (f : Bool) : (s.noteWrite k f).OwesWake g := by
  by_cases hg : g = k
  · subst hg; exact .inr (h.noteWrite_same f)
  · refine h.imp (fun hw => by rwa [metaAt_noteWrite, if_neg hg]) fun hp => ?_
    unfold State.noteWrite
    simp only
    split
    · exact List.mem_append_left _ hp
    · exact hp

theorem OwesWake.markWrite {s : State} {g : Nat} (h : s.OwesWake g) (loc n : Nat) : (s.markWrite loc n).OwesWake g := by
  unfold State.markWrite
  split
  · generalize granules loc n = gs
    induction gs generalizing s with
    | nil => exact h
    | cons k gs ih => exact ih (h.noteWrite k _)
  · exact h

theorem OwesWake.putAt {s : State} {g : Nat} (h : s.OwesWake g) (loc : Nat) (bs : List Byte) : (s.putAt loc bs).OwesWake g :=
  (h.of_eq (t := s.storeBytes loc bs) (by unfold storeBytes taintCtxs; rw [landBytes_rest]) (landBytes_pend ..)).markWrite ..

theorem OwesWake.putPieces (ps : List (Nat × Nat)) {s : State} {g : Nat} (h : s.OwesWake g) (bs : List Byte) :
    (s.putPieces ps bs).OwesWake g := by
  induction ps generalizing s bs with
  | nil => exact h
  | cons p ps ih => exact ih (h.putAt p.1 _) _

theorem OwesWake.spanWrite {s : State} {g : Nat} (h : s.OwesWake g) (loc : Nat) (bs : List Byte) : (s.spanWrite loc bs).OwesWake g :=
  OwesWake.putPieces _ (h.of_eq (countPieces_gmeta ..) (countPieces_pend ..)) bs

/-! ### R is cleared in the running bead's record (R147) -/

theorem modRod_rest (s : State) (u r : Nat) (f : Rod → Rod) : s.modRod u r f = { s with units := (s.modRod u r f).units } := by
  unfold modRod
  split <;> rfl

theorem putSlot_rest (s : State) (b : SlotId) (x : BeadSlot) : s.putSlot b x = { s with units := (s.putSlot b x).units } :=
  modRod_rest ..

theorem modRecord_rest (s : State) (b : SlotId) (f : BeadRec → BeadRec) :
    s.modRecord b f = { s with units := (s.modRecord b f).units } := by
  unfold modRecord
  split
  · rw [wroteSlot, modUnit_rest, putSlot_rest]
  · rfl

theorem modRecord_of_free {s : State} {b : SlotId} (f : BeadRec → BeadRec) (h : s.slotAt b = none) : s.modRecord b f = s := by
  rw [modRecord, h]

/-- A slot in use stands in a rod. -/
theorem slotAt_eq_some {s : State} {b : SlotId} {x : BeadSlot} (h : s.slotAt b = some x) :
    ∃ rod, s.rodAt b.unit b.rod = some rod ∧ Map.find? rod.slots b.slot = some x := by
  unfold slotAt at h
  split at h
  case h_1 rod hrod => exact ⟨rod, hrod, h⟩
  case h_2 => cases h

theorem putUnit_putUnit (s : State) (u : Nat) (x y : BeadUnit) : (s.putUnit u x).putUnit u y = s.putUnit u y := by
  simp only [putUnit, Map.put_put]

/-- The unit after a record of a slot has been changed where it stands. -/
theorem modRecord_of_slot {s : State} {b : SlotId} {rod : Rod} {x : BeadSlot} (f : BeadRec → BeadRec)
    (hrod : s.rodAt b.unit b.rod = some rod) (hx : Map.find? rod.slots b.slot = some x) :
    s.modRecord b f = s.putUnit b.unit (BeadUnit.wroteAt
      { s.unitAt b.unit with
        rods := Map.put (s.unitAt b.unit).rods b.rod { rod with slots := Map.put rod.slots b.slot { x with record := f x.record } } }
      (granules (s.slotAddr b).toNat 64)) := by
  have hslot : s.slotAt b = some x := (slotAt_of_rodAt hrod).trans hx
  simp only [modRecord, hslot, putSlot, modRod_of_rodAt _ hrod, putRod, wroteSlot, modUnit_eq, unitAt_putUnit_same]
  rw [putUnit_putUnit]
  rfl

theorem clearR_rest (s : State) (k : Nat) : s.clearR k = { s with units := (s.clearR k).units } := by
  unfold clearR
  split
  · exact modRecord_rest ..
  · rfl

/-- What clearing R makes of the units depends on them, on where the rings lie and on the core's bead. -/
theorem clearR_units_congr {s t : State} {k : Nat} (hu : t.units = s.units) (hr : t.ringBase = s.ringBase)
    (hb : (t.coreAt k).bead = (s.coreAt k).bead) : (t.clearR k).units = (s.clearR k).units := by
  unfold clearR
  rw [hb]
  split
  case h_1 b _ =>
    have hslots : t.slotAt b = s.slotAt b := by unfold slotAt rodAt unitAt; rw [hu]
    cases hx : s.slotAt b with
    | none => rw [modRecord_of_free _ hx, modRecord_of_free _ (hslots.trans hx), hu]
    | some x =>
      obtain ⟨rod, hrod, hfind⟩ := slotAt_eq_some hx
      have hrod' : t.rodAt b.unit b.rod = some rod := by rw [← hrod]; unfold rodAt unitAt; rw [hu]
      have haddr : t.slotAddr b = s.slotAddr b := by unfold slotAddr; rw [hr]
      rw [modRecord_of_slot _ hrod hfind, modRecord_of_slot _ hrod' hfind, putUnit_units, putUnit_units, haddr, hu,
        unitAt_of_units_eq hu]
  case h_2 => exact hu

@[simp] theorem coreAt_clearR (s : State) (k j : Nat) : (s.clearR k).coreAt j = s.coreAt j := by rw [clearR_rest]; rfl
@[simp] theorem clearR_cur (s : State) (k : Nat) : (s.clearR k).cur = s.cur := by rw [clearR_rest]
end State
end Sys2Proof.Machine
end

