-- ==== Sys2Proof/Proofs/Fills.lean ====
section
/-! STF and STF.E: the issue of a fill (R145, R147, R186) and the fill at the cell (R189). -/

namespace Sys2Proof.Machine

open Sys2Proof

namespace State

/-! ### What begins after a commit -/

@[simp] theorem me_retire (s : State) : s.retire.me = s.me.commit := me_setMe ..

/-- The executing instruction has made an access, cleared R and committed (R145, R147). -/
structure ClearedAndRetired (s s1 t : State) : Prop where
  rest : t = { s with cores := t.cores, acnt := t.acnt, units := (s.clearR s.cur).units }
  me : t.me = s1.me.commit
  others : OthersSame s t s.cur

theorem clearedAndRetired {s s1 : State} (h : Translated s s1 s.cur) : s.ClearedAndRetired s1 (s1.clearR s1.cur).retire := by
  have hcur : s1.cur = s.cur := by rw [h.rest]
  have hbead : (s1.coreAt s.cur).bead = (s.coreAt s.cur).bead := by rw [h.core]
  have hunits : (s1.clearR s1.cur).units = (s.clearR s.cur).units := by
    rw [hcur]
    exact clearR_units_congr (by rw [h.rest]) (by rw [h.rest]) hbead
  refine ⟨?_, ?_, fun j hj => ?_⟩
  · rw [retire, setMe_eq, ← hunits, clearR_rest, h.rest]; rfl
  · rw [me_retire, me_eq, clearR_cur, coreAt_clearR]; rfl
  · rw [retire, setMe_eq, coreAt_putCore, clearR_cur, hcur, if_neg hj, coreAt_clearR, h.others j hj]

namespace ClearedAndRetired

variable {s s1 t : State} (h : s.ClearedAndRetired s1 t)

include h

theorem mem : t.mem = s.mem := by rw [h.rest]
theorem gmeta : t.gmeta = s.gmeta := by rw [h.rest]
theorem cur : t.cur = s.cur := by rw [h.rest]
theorem pend : t.pend = s.pend := by rw [h.rest]

theorem regs (h1 : Translated s s1 s.cur) : RegsSame s.me t.me [] := by
  have hme : s1.me = { s.me with tlb := s1.me.tlb } := by
    have hcur : s1.cur = s.cur := by rw [h1.rest]
    rw [me_eq, hcur, h1.core]; rfl
  rw [h.me, hme]
  exact ⟨fun _ _ => rfl, fun _ _ => rfl, fun _ _ => rfl, fun _ _ => rfl, fun _ _ => rfl⟩

theorem commits : CommitsAt s1.me t.me s1.me.npc 0 := by
  rw [h.me]
  simp [CommitsAt, Core.commit]

end ClearedAndRetired

/-! ### The issue of a fill (R145, R186) -/

theorem issueFill_of_checked {s : State} {va : Word} (v : Word) (full : Bool) {place : Place} {loc : Nat}
    (hp : s.cellPlace (s.issuer s.cur .c) va true = .ok place) (hb : Begins place loc)
    (hc : s.spanCheck (s.issuer s.cur .c) va loc 8 false = .ok ()) :
    s.issueFill va v full = (((s.useTlb va).clearR s.cur).retire).push [.futureFillApply { loc := loc, v := v, full := full }] := by
  obtain rfl | ⟨k, next, rfl⟩ := hb <;> simp only [issueFill, hp, hc]

/-! ### The fill at the cell (R186, R189) -/

theorem fillCell_holds (s : State) (loc : Nat) (v : Word) (full : Bool) :
    s.Holds (s.runsFrom loc 8) (leBytes 8 v.toNat) (s.fillCell loc v full) := by
  have h := spanWrite_holds s loc (leBytes 8 v.toNat)
  rw [leBytes_length] at h
  exact holds_of_mem_eq h (noteWrite_mem ..)

theorem metaAt_fillCell_same (s : State) (loc : Nat) (v : Word) (full : Bool) :
    (s.fillCell loc v full).metaAt (loc / 32) = mkMeta true false full (metaTag (s.metaAt (loc / 32))) := by
  rw [fillCell, metaAt_noteWrite, if_pos rfl, metaAt_spanWrite, metaTag_marked]

theorem metaAt_fillCell_other (s : State) {loc g : Nat} (v : Word) (full : Bool) (h : g ≠ loc / 32) :
    (s.fillCell loc v full).metaAt g = s.marked (s.runsFrom loc 8) g := by
  rw [fillCell, metaAt_noteWrite, if_neg h, metaAt_spanWrite, leBytes_length]

@[simp] theorem fillCell_cores (s : State) (loc : Nat) (v : Word) (full : Bool) : (s.fillCell loc v full).cores = s.cores := by
  rw [fillCell, noteWrite_rest]
  exact spanWrite_cores ..

/-- Where a write lies depends on the system registers. -/
theorem runsFrom_congr {s t : State} (h : t.sys = s.sys) (loc n : Nat) : t.runsFrom loc n = s.runsFrom loc n := by
  cases s; cases t
  dsimp only at h
  subst h
  rfl

theorem marked_congr {s t : State} (h : t.gmeta = s.gmeta) (ps : List (Nat × Nat)) (g : Nat) : t.marked ps g = s.marked ps g := by
  simp only [marked, metaAt_of_gmeta_eq h]

/-- A fill that follows its issue finds memory as it was then. -/
theorem fillCell_after {s w : State} (loc : Nat) (v : Word) (full : Bool) (hm : w.mem = s.mem) (hg : w.gmeta = s.gmeta)
    (hv : w.moves = s.moves) (hs : w.sys = s.sys) :
    s.Holds (s.runsFrom loc 8) (leBytes 8 v.toNat) (w.fillCell loc v full) ∧
      (w.fillCell loc v full).metaAt (loc / 32) = mkMeta true false full (metaTag (s.metaAt (loc / 32))) ∧
      (∀ g, g ≠ loc / 32 → (w.fillCell loc v full).metaAt g = s.marked (s.runsFrom loc 8) g) ∧
      (loc % 32 + 8 ≤ 32 → s.runsFrom loc 8 = [(loc, 8)]) ∧ (w.fillCell loc v full).cores = w.cores ∧
      (metaW (s.metaAt (loc / 32)) = true → Ev.parkTableWake (loc / 32) ∈ (w.fillCell loc v full).pend) := by
  have hruns := runsFrom_congr hs loc 8
  refine ⟨?_, ?_, fun g hne => ?_, fun h32 => runsFrom_of_fits (by omega), fillCell_cores .., fun hw => ?_⟩
  · rw [← hruns]
    exact holds_of_same_start (fillCell_holds ..) hm hv
  · rw [metaAt_fillCell_same, metaAt_of_gmeta_eq hg]
  · rw [metaAt_fillCell_other _ _ _ hne, hruns, marked_congr hg]
  · have howes : w.OwesWake (loc / 32) := .inl (by rwa [metaAt_of_gmeta_eq hg])
    exact (howes.spanWrite loc _).noteWrite_same full

end State

open State

/-! ### The obligation -/

/-- Either instruction, checked: it commits and sends the fill, which the cell's memory then performs. -/
theorem fills_of_checked {s : State} {i : Instr} {va v : Word} {full : Bool} {place : Place} {loc : Nat}
    (hexec : exec i s = .next (s.issueFill va v full))
    (hp : s.cellPlace (s.issuer s.cur .c) va true = .ok place) (hb : Begins place loc)
    (hc : s.spanCheck (s.issuer s.cur .c) va loc 8 false = .ok ()) :
    Answers (exec i s) fun t => t.pend = s.pend ++ [.futureFillApply { loc := loc, v := v, full := full }] ∧
      RegsSame s.me t.me [] ∧ CommitsAt (s.useTlb va).me t.me s.me.npc 0 ∧ OthersSame s t s.cur ∧ SameMemory s t ∧
      t.units = (s.clearR s.cur).units ∧
      Delivers t (.futureFillApply { loc := loc, v := v, full := full }) fun u =>
        s.Holds (s.runsFrom loc 8) (leBytes 8 v.toNat) u ∧
        u.metaAt (loc / 32) = mkMeta true false full (metaTag (s.metaAt (loc / 32))) ∧
        (∀ g, g ≠ loc / 32 → u.metaAt g = s.marked (s.runsFrom loc 8) g) ∧
        (loc % 32 + 8 ≤ 32 → s.runsFrom loc 8 = [(loc, 8)]) ∧ u.cores = t.cores ∧
        (metaW (s.metaAt (loc / 32)) = true → Ev.parkTableWake (loc / 32) ∈ u.pend) := by
  have htr : Translated s (s.useTlb va) s.cur := translated_noteTlb s (s.issuer s.cur .c) va
  have hcur : (s.useTlb va).cur = s.cur := by rw [htr.rest]
  have hnpc : (s.useTlb va).me.npc = s.me.npc := by rw [me_eq, hcur, htr.core]; rfl
  have hsent := clearedAndRetired htr
  rw [hcur] at hsent
  rw [issueFill_of_checked v full hp hb hc] at hexec
  generalize ((s.useTlb va).clearR s.cur).retire = t at hsent hexec
  have hafter (w : State) (hw : w = { t with pend := w.pend, msg := w.msg }) := fillCell_after (s := s) (w := w) loc v full
    (by rw [hw, hsent.mem]) (by rw [hw, hsent.gmeta]) (by rw [hw, hsent.rest]) (by rw [hw, hsent.rest])
  refine ⟨_, hexec, ?pend, hsent.regs htr, hnpc ▸ hsent.commits, hsent.others, sameMemory_of_eq hsent.mem hsent.gmeta, ?units, _,
    rfl, hafter _ rfl⟩
  case pend => rw [push_pend, hsent.pend]
  case units => rw [push_units, hsent.rest]

/-- Settles O19: STF and STF.E differ in the F bit alone. -/
theorem futureFills : Obligations.FutureFills := by
  unfold Obligations.FutureFills
  intro s pfx d a loc off place ea s1 rs hp hb hc
  exact ⟨fills_of_checked rfl hp hb hc, fills_of_checked rfl hp hb hc⟩

end Sys2Proof.Machine
end

