-- ==== Sys2Proof/Proofs/Slots.lean ====
section
/-! Rods and their slots under the operations on one of them, and under writes into the rings (R46, R128, R129). -/

namespace Sys2Proof.Map

variable {β γ : Type}

theorem find?_map (m : List (Nat × β)) (f : β → γ) (i : Nat) : find? (m.map fun e => (e.1, f e.2)) i = (find? m i).map f := by
  induction m with
  | nil => rfl
  | cons e m ih =>
    obtain ⟨k, v⟩ := e
    simp only [List.map_cons, find?, ih]
    split <;> rfl

theorem find?_mapAt (m : List (Nat × β)) (i j : Nat) (f : β → β) :
    find? (m.map fun e => if e.1 = i then (e.1, f e.2) else e) j = if j = i then (find? m j).map f else find? m j := by
  induction m with
  | nil => simp [find?]
  | cons e m ih =>
    obtain ⟨k, v⟩ := e
    by_cases hk : k = i
    · subst hk
      by_cases hj : j = k <;> simp [find?, ih, hj]
    · by_cases hj : j = k
      · subst hj; simp [find?, hk]
      · simp [find?, ih, hk, hj]

theorem eq_nil_of_find?_eq_none {m : List (Nat × β)} (h : ∀ i, find? m i = none) : m = [] := by
  cases m with
  | nil => rfl
  | cons e m => have := h e.1; simp [find?] at this

end Sys2Proof.Map

namespace Sys2Proof.Machine

open Sys2Proof

namespace State

/-! ### One rod changes (R128, R129) -/

/-- A rod of a unit has become `rod`, every other rod is as before. -/
structure RodChanged (s t : State) (u r : Nat) (rod : Rod) : Prop where
  same : t.rodAt u r = some rod
  other : ∀ v q, ¬ (v = u ∧ q = r) → t.rodAt v q = s.rodAt v q

theorem rodAt_of_units_eq {s t : State} (h : t.units = s.units) (u r : Nat) : t.rodAt u r = s.rodAt u r :=
  rodAt_of_unitAt_eq (by rw [unitAt_of_units_eq h]) r

theorem slotAt_of_units_eq {s t : State} (h : t.units = s.units) (b : SlotId) : t.slotAt b = s.slotAt b := by
  unfold slotAt; rw [rodAt_of_units_eq h]

theorem rodAt_putUnit (s : State) (u : Nat) (x : BeadUnit) (v q : Nat) :
    (s.putUnit u x).rodAt v q = if v = u then Map.find? x.rods q else s.rodAt v q := by
  unfold rodAt
  rw [unitAt_putUnit]
  split_ifs <;> rfl

/-- A unit whose rods have changed at one number. -/
theorem rodChanged_putUnit {s : State} {u r : Nat} {rod : Rod} {x : BeadUnit} (h : x.rods = Map.put (s.unitAt u).rods r rod) :
    s.RodChanged (s.putUnit u x) u r rod where
  same := by rw [rodAt_putUnit, if_pos rfl, h, Map.find?_put_same]
  other v q hne := by
    rw [rodAt_putUnit]
    split_ifs with hv
    · rw [h, Map.find?_put_other _ _ fun hq => hne ⟨hv, hq⟩, hv]; rfl
    · rfl

theorem rodChanged_putRod (s : State) (u r : Nat) (rod : Rod) : s.RodChanged (s.putRod u r rod) u r rod := by
  rw [putRod, modUnit_eq]
  exact rodChanged_putUnit rfl

theorem rodChanged_modRod {s : State} {u r : Nat} {rod : Rod} (f : Rod → Rod) (h : s.rodAt u r = some rod) :
    s.RodChanged (s.modRod u r f) u r (f rod) := by
  rw [modRod_of_rodAt f h]
  exact rodChanged_putRod ..

@[simp] theorem rodAt_wroteSlot (s : State) (b : SlotId) (u r : Nat) : (s.wroteSlot b).rodAt u r = s.rodAt u r := by
  rw [wroteSlot, modUnit_eq, rodAt_putUnit, BeadUnit.wroteAt_rods]
  split_ifs with hu
  · rw [hu]; rfl
  · rfl

/-- After the rod of a slot has changed, a slot reads as it stands there, or as it stood elsewhere. -/
theorem RodChanged.slotAt {s t : State} {u r : Nat} {rod : Rod} (h : s.RodChanged t u r rod) (c : SlotId) :
    t.slotAt c = if c.unit = u ∧ c.rod = r then Map.find? rod.slots c.slot else s.slotAt c := by
  unfold State.slotAt
  split_ifs with hc
  · obtain ⟨hu, hr⟩ := hc
    rw [hu, hr, h.same]
  · rw [h.other _ _ hc]

/-- A slot is stored in its rod: every other slot is as before. -/
theorem RodChanged.slotAt_put {s t : State} {b : SlotId} {rod rod' : Rod} {x : BeadSlot} (h : s.RodChanged t b.unit b.rod rod')
    (hrod : s.rodAt b.unit b.rod = some rod) (hslots : rod'.slots = Map.put rod.slots b.slot x) (c : SlotId) :
    t.slotAt c = if c = b then some x else s.slotAt c := by
  rw [h.slotAt]
  by_cases hc : c.unit = b.unit ∧ c.rod = b.rod
  · obtain ⟨hu, hr⟩ := hc
    have hs : s.slotAt c = Map.find? rod.slots c.slot := slotAt_of_rodAt (by rw [hu, hr, hrod])
    have hcb : c = b ↔ c.slot = b.slot := by
      cases c; cases b
      simp only at hu hr
      simp [hu, hr]
    rw [if_pos ⟨hu, hr⟩, hslots, Map.find?_put, hs]
    simp only [hcb]
  · have hcb : c ≠ b := by
      rintro rfl
      exact hc ⟨rfl, rfl⟩
    rw [if_neg hc, if_neg hcb]

theorem RodChanged.of_units_eq {s t v : State} {u r : Nat} {rod : Rod} (h : s.RodChanged t u r rod) (hv : v.units = t.units) :
    s.RodChanged v u r rod :=
  ⟨(rodAt_of_units_eq hv ..).trans h.same, fun w q hne => (rodAt_of_units_eq hv ..).trans (h.other w q hne)⟩

theorem RodChanged.wroteSlot {s t : State} {u r : Nat} {rod : Rod} (h : s.RodChanged t u r rod) (b : SlotId) :
    s.RodChanged (t.wroteSlot b) u r rod :=
  ⟨(rodAt_wroteSlot ..).trans h.same, fun v q hne => (rodAt_wroteSlot ..).trans (h.other v q hne)⟩

/-! The operations of R128 and R129. -/

section

variable {s : State} {b : SlotId} {rod : Rod} (hrod : s.rodAt b.unit b.rod = some rod)

include hrod

theorem rodChanged_putSlot (x : BeadSlot) :
    s.RodChanged (s.putSlot b x) b.unit b.rod { rod with slots := Map.put rod.slots b.slot x } :=
  rodChanged_modRod (fun r => { r with slots := Map.put r.slots b.slot x }) hrod

theorem rodChanged_appendTail (x : BeadRec) (uid : Nat) :
    s.RodChanged (s.appendTail b x uid) b.unit b.rod (rod.withReady b.slot { record := x, use := .ready, uid := uid }) :=
  (rodChanged_modRod (fun r => r.withReady b.slot { record := x, use := .ready, uid := uid }) hrod).of_units_eq rfl

theorem rodChanged_enqueueNew (x : BeadRec) :
    s.RodChanged (s.enqueueNew b x) b.unit b.rod (rod.withReady b.slot { record := x, use := .ready, uid := s.nextBead }) := by
  have h := (rodChanged_appendTail (s := s.newBead.2) hrod x s.nextBead).wroteSlot b
  exact ⟨h.same, h.other⟩

theorem rodChanged_modRecord {x : BeadSlot} (f : BeadRec → BeadRec) (hx : Map.find? rod.slots b.slot = some x) :
    s.RodChanged (s.modRecord b f) b.unit b.rod
      { rod with slots := Map.put rod.slots b.slot { x with record := f x.record } } := by
  rw [modRecord_of_slot f hrod hx]
  exact rodChanged_putUnit rfl

end

theorem appendTail_rest (s : State) (b : SlotId) (x : BeadRec) (uid : Nat) :
    s.appendTail b x uid = { s with units := (s.appendTail b x uid).units, pend := s.pend ++ [.pickupGrant b.unit] } := by
  rw [appendTail, modRod_rest]; rfl

theorem freeSlot_rest (s : State) (b : SlotId) :
    s.freeSlot b = { s with units := (s.freeSlot b).units, pend := s.pend ++ [.overflowListDrain b.unit] } := by
  rw [freeSlot, modRod_rest]; rfl

/-- A freed slot is in no use. -/
theorem freeSlot_slotAt (s : State) (b : SlotId) : (s.freeSlot b).slotAt b = none := by
  rw [freeSlot, slotAt_push]
  cases hrod : s.rodAt b.unit b.rod with
  | none =>
    have hsame (f : Rod → Rod) : s.modRod b.unit b.rod f = s := by unfold modRod; rw [hrod]
    rw [hsame, State.slotAt, hrod]
  | some rod =>
    rw [(rodChanged_modRod _ hrod).slotAt, if_pos ⟨rfl, rfl⟩, Map.find?_del, if_pos rfl]

/-! ### R is cleared where the running bead's record stands (R147) -/

/-- Clearing R changes the running bead's record and no other slot. -/
theorem slotAt_clearR_of_bead {s : State} {k : Nat} {b : SlotId} {y : BeadSlot} (hb : (s.coreAt k).bead = some b)
    (hy : s.slotAt b = some y) (c : SlotId) : (s.clearR k).slotAt c =
      if c = b then some { y with record := { y.record with w3 := setFld y.record.w3 34 1 0 } } else s.slotAt c := by
  obtain ⟨rod, hrod, hfind⟩ := slotAt_eq_some hy
  simp only [clearR, hb]
  exact (rodChanged_modRecord hrod _ hfind).slotAt_put hrod rfl c

/-- Clearing R leaves every rod as it was but for records. -/
theorem rodAt_clearR {s : State} {u r : Nat} {rod : Rod} (k : Nat) (h : s.rodAt u r = some rod) :
    ∃ slots, (s.clearR k).rodAt u r = some { rod with slots := slots } := by
  unfold clearR
  split
  case h_2 => exact ⟨_, h⟩
  case h_1 b _ =>
    cases hx : s.slotAt b with
    | none => exact ⟨_, by rw [modRecord_of_free _ hx, h]⟩
    | some x =>
      obtain ⟨rod', hrod', hfind⟩ := slotAt_eq_some hx
      have hch := rodChanged_modRecord hrod' (fun r : BeadRec => { r with w3 := setFld r.w3 34 1 0 }) hfind
      by_cases hbr : u = b.unit ∧ r = b.rod
      · obtain ⟨rfl, rfl⟩ := hbr
        obtain rfl : rod' = rod := Option.some_injective _ (hrod'.symm.trans h)
        exact ⟨_, hch.same⟩
      · exact ⟨rod.slots, (hch.other _ _ hbr).trans h⟩

/-! ### Writes into the rings (R46) -/

/-- Slot by slot, the same use and the same bead: a rod whose records alone may have changed. -/
structure RodLike (x y : Rod) : Prop where
  rest : y = { x with slots := y.slots }
  slots : ∀ n, (Map.find? y.slots n).map (fun z => (z.use, z.uid)) = (Map.find? x.slots n).map fun z => (z.use, z.uid)

theorem RodLike.refl (x : Rod) : RodLike x x := ⟨rfl, fun _ => rfl⟩

theorem RodLike.trans {x y z : Rod} (h : RodLike x y) (g : RodLike y z) : RodLike x z :=
  ⟨by rw [g.rest, h.rest], fun n => (g.slots n).trans (h.slots n)⟩

/-- Every rod stands, its records alone changed. -/
structure RodsKept (s t : State) : Prop where
  kept : ∀ u r x, s.rodAt u r = some x → ∃ y, t.rodAt u r = some y ∧ RodLike x y

theorem RodsKept.of_units_eq {s t : State} (h : t.units = s.units) : s.RodsKept t :=
  ⟨fun u r x hx => ⟨x, (rodAt_of_units_eq h u r).trans hx, .refl x⟩⟩

theorem RodsKept.refl (s : State) : s.RodsKept s := .of_units_eq rfl

theorem RodsKept.trans {s t u : State} (h : s.RodsKept t) (g : t.RodsKept u) : s.RodsKept u := by
  refine ⟨fun v r x hx => ?_⟩
  obtain ⟨y, hy, hxy⟩ := h.kept v r x hx
  obtain ⟨z, hz, hyz⟩ := g.kept v r y hy
  exact ⟨z, hz, hxy.trans hyz⟩

/-- The use of a slot outlasts a write into the rings. -/
theorem RodsKept.use {s t : State} (h : s.RodsKept t) {b : SlotId} {x : BeadSlot} (hx : s.slotAt b = some x) :
    (t.slotAt b).map BeadSlot.use = some x.use := by
  obtain ⟨rod, hrod, hfind⟩ := slotAt_eq_some hx
  obtain ⟨rod', hrod', hlike⟩ := h.kept _ _ _ hrod
  have huse := congrArg (Option.map Prod.fst) (hlike.slots b.slot)
  rw [slotAt_of_rodAt hrod']
  simpa [hfind, Option.map_map, Function.comp_def] using huse

theorem RodsKept.ready {s t : State} (h : s.RodsKept t) {u r : Nat} {rod : Rod} (hr : s.rodAt u r = some rod) :
    (t.rodAt u r).map Rod.ready = some rod.ready := by
  obtain ⟨rod', hrod', hlike⟩ := h.kept _ _ _ hr
  rw [hrod', hlike.rest]; rfl

/-- A rod of which no slot is in use stands as it was. -/
theorem RodsKept.empty {s t : State} (h : s.RodsKept t) {u r : Nat} {rod : Rod} (hr : s.rodAt u r = some rod)
    (hempty : rod.slots = []) : t.rodAt u r = some rod := by
  obtain ⟨rod', hrod', hlike⟩ := h.kept _ _ _ hr
  have hslots : rod'.slots = [] := Map.eq_nil_of_find?_eq_none fun n => by
    have := hlike.slots n
    rw [hempty] at this
    simpa using this
  rw [hrod', hlike.rest, hslots, ← hempty]

theorem rodsKept_putReserved (s : State) (r : Reserved) (img : List Byte) : s.RodsKept (s.putReserved r img) := by
  have hlists (u : Nat) (x : BeadUnit) (hx : x.rods = (s.unitAt u).rods) : s.RodsKept (s.putUnit u x) := by
    refine ⟨fun v q y hy => ⟨y, ?_, .refl y⟩⟩
    rw [rodAt_putUnit, ← hy]
    split_ifs with hv
    · rw [hx, hv]; rfl
    · rfl
  cases r with
  | spill u n k => exact hlists u _ rfl
  | overflow u n k => exact hlists u _ rfl
  | slot b k =>
    simp only [putReserved]
    split
    case h_1 => exact .refl s
    case h_2 z hz =>
      refine ⟨fun v q x hx => ?_⟩
      rw [modUnit_eq, rodAt_putUnit]
      by_cases hv : v = b.unit
      · have hmap := Map.find?_mapAt (s.unitAt b.unit).rods b.rod q fun e : Rod =>
          { e with slots := Map.put e.slots b.slot { z with record := { recOfWords (wordsOf 8 img) with evu := z.record.evu } } }
        have hx' : Map.find? (s.unitAt b.unit).rods q = some x := hv ▸ hx
        rw [if_pos hv, hmap, hx']
        by_cases hq : q = b.rod
        · have hfind : Map.find? x.slots b.slot = some z := by
            rw [← hz, slotAt_of_rodAt]
            rw [← hv, ← hq, hx]
          refine ⟨_, if_pos hq, rfl, fun n => ?_⟩
          simp only [Map.find?_put]
          split_ifs with hn
          · rw [hn, hfind]; rfl
          · rfl
        · exact ⟨x, if_neg hq, .refl x⟩
      · exact ⟨x, (if_neg hv).trans hx, .refl x⟩

theorem rodsKept_pokeUnits (fuel : Nat) (s : State) (loc : Nat) (bs : List Byte) : s.RodsKept (s.pokeUnits fuel loc bs) := by
  induction fuel generalizing s loc bs with
  | zero => exact .refl s
  | succ fuel ih =>
    unfold pokeUnits
    split
    · exact .refl s
    · simp only
      refine RodsKept.trans ?_ (ih _ _ _)
      split
      · exact .refl s
      · split
        · exact .refl s
        · exact rodsKept_putReserved ..

theorem rodsKept_putAt (s : State) (loc : Nat) (bs : List Byte) : s.RodsKept (s.putAt loc bs) := by
  have hpoke : s.RodsKept ((s.putBytes loc bs).pokeRecord loc bs) := by
    refine (RodsKept.of_units_eq (putBytes_units s loc bs)).trans ?_
    unfold pokeRecord
    split
    · exact rodsKept_pokeUnits ..
    · exact .refl _
  have hland : (s.landBytes loc bs).units = ((s.putBytes loc bs).pokeRecord loc bs).units := by
    unfold landBytes
    simp only
    split <;> simp
  refine hpoke.trans (.of_units_eq ?_)
  rw [putAt, markWrite_units, storeBytes, taintCtxs, hland]

theorem rodsKept_putPieces (ps : List (Nat × Nat)) (s : State) (bs : List Byte) : s.RodsKept (s.putPieces ps bs) := by
  induction ps generalizing s bs with
  | nil => exact .refl s
  | cons p ps ih => exact (rodsKept_putAt s p.1 _).trans (ih _ _)

theorem rodsKept_fillPieces (s : State) (ps : List (Nat × Nat)) (bs : List Byte) : s.RodsKept (s.fillPieces ps bs) :=
  (RodsKept.of_units_eq (countPieces_units s ps)).trans (rodsKept_putPieces ..)

theorem rodsKept_spanWrite (s : State) (loc : Nat) (bs : List Byte) : s.RodsKept (s.spanWrite loc bs) := rodsKept_fillPieces ..

theorem rodsKept_writeAt (s : State) (loc : Nat) (bs : List Byte) : s.RodsKept (s.writeAt loc bs) :=
  (rodsKept_putAt s loc bs).trans (.of_units_eq (by rw [writeAt, countRun_rest]))

end State

end Sys2Proof.Machine
end

