-- ==== Sys2Proof/Proofs/Spawns.lean ====
section
/-! SPAWN, its checks, its child's slot and its join word (R138, R51, R147, R48). -/

namespace Sys2Proof.Machine

open Sys2Proof

namespace State

/-! ### What an access of the executing core leaves -/

namespace Translated

variable {s t : State} {k : Nat} (h : Translated s t k)

include h

theorem cur : t.cur = s.cur := by rw [h.rest]
theorem units : t.units = s.units := by rw [h.rest]

theorem bead (j : Nat) : (t.coreAt j).bead = (s.coreAt j).bead := by
  by_cases hj : j = k
  · subst hj; rw [h.core]
  · rw [h.others j hj]

theorem me (hk : k = s.cur) : t.me = { s.me with tlb := t.me.tlb } := by
  have hcore := h.core
  rw [hk] at hcore
  rw [me_eq, h.cur, hcore]; rfl

theorem partOf (j : Nat) : t.partOf j = s.partOf j := by
  unfold State.partOf linkServes
  rw [h.bead]
  rw [h.rest]; rfl

theorem beadAddr (j : Nat) : t.beadAddr j = s.beadAddr j := by
  unfold State.beadAddr
  rw [h.bead]
  rw [h.rest]; rfl

theorem rodOfIndex (j n : Nat) : t.rodOfIndex j n = s.rodOfIndex j n := by rw [h.rest]; rfl

end Translated

/-! ### The branches of SPAWN (R138) -/

theorem probeJoin_of_zero (s : State) {p : Word} (h : p = 0) : s.probeJoin p = .ok none := if_pos h

section

variable {s : State} {k : Nat} {x : BeadRec}

theorem spawnRecord_of_noRod (h : s.rodOfIndex s.cur k = none) : s.spawnRecord k x = s.trap { cause := 0x0E } := by
  simp only [spawnRecord, h]; rfl

variable {r : Nat} {rod : Rod} (hrod : s.rodOfIndex s.cur k = some (r, rod))

include hrod

theorem spawnRecord_of_otherWorld (hw : worldFits rod x = false) : s.spawnRecord k x = s.trap { cause := 0x09 } := by
  simp only [spawnRecord, hrod, hw, Bool.not_false, if_true]; rfl

variable (hw : worldFits rod x = true)

include hw

theorem spawnRecord_of_joinFault {f : FaultInfo} (hj : s.probeJoin x.pjoin = .error f) : s.spawnRecord k x = s.trap f := by
  simp only [spawnRecord, hrod, hw, hj, Bool.not_true, Bool.false_eq_true, if_false]

theorem spawnRecord_of_full {o : Option Nat} (hj : s.probeJoin x.pjoin = .ok o) (hfull : rod.freeSlot? = none) :
    s.spawnRecord k x = s.trap { cause := 0x0F } := by
  simp only [spawnRecord, hrod, hw, hj, hfull, Bool.not_true, Bool.false_eq_true, if_false]; rfl

end

end State

/-- SPN counts a spawn, saturating (R138). -/
def Core.countSpawn (c : Core) : Core := { c with spn := if c.spn = BitVec.allOnes 32 then c.spn else c.spn + 1 }

namespace State

/-- The machine when SPAWN has passed its checks: R cleared, the spawn counted, the instruction committed. -/
def spawner (s : State) : State := ((s.clearR s.cur).setMe s.me.countSpawn).retire

/-- A free slot is reserved for a new bead (R138). -/
def reserveNew (s : State) (b : SlotId) (x : BeadRec) : State :=
  (s.newBead.2.putSlot b { record := x, use := .reserved, uid := s.nextBead }).wroteSlot b

/-- The record of a spawned bead: SPN 0, PRI and ROD those of its rod (R48, R138). -/
def childRecord (r : Nat) (rod : Rod) (x : BeadRec) : BeadRec := fitRecord r rod { x with w3 := setFld x.w3 0 32 0 }

section

variable {s : State} {k : Nat} {x : BeadRec} {r n : Nat} {rod : Rod} (hrod : s.rodOfIndex s.cur k = some (r, rod))
  (hw : worldFits rod x = true) (hfree : rod.freeSlot? = some n)

include hrod hw hfree

theorem spawnRecord_of_noJoin (hj : s.probeJoin x.pjoin = .ok none) :
    s.spawnRecord k x = s.spawner.enqueueNew { unit := unitOf s.cur, rod := r, slot := n } (childRecord r rod x) := by
  simp only [spawnRecord, hrod, hw, hj, hfree, Bool.not_true, Bool.false_eq_true, if_false]; rfl

theorem spawnRecord_of_join {loc : Nat} (hj : s.probeJoin x.pjoin = .ok (some loc)) :
    s.spawnRecord k x =
      (s.spawner.reserveNew { unit := unitOf s.cur, rod := r, slot := n } (childRecord r rod x)).push [.bankJoinIncrement
        { core := s.cur, part := s.partOf s.cur, world := s.me.world, va := x.pjoin, loc := loc, cpc := s.me.pc,
          bead := s.beadAddr s.cur, child := some { unit := unitOf s.cur, rod := r, slot := n } }] := by
  simp only [spawnRecord, hrod, hw, hj, hfree, Bool.not_true, Bool.false_eq_true, if_false]; rfl

end

/-! ### What the spawn leaves (R138, R147) -/

theorem spawner_rest (s : State) : s.spawner = { s with cores := s.spawner.cores, units := (s.clearR s.cur).units } := by
  rw [spawner, retire, setMe_eq, setMe_eq, clearR_rest]; rfl

theorem spawner_me (s : State) : s.spawner.me = s.me.countSpawn.commit := by
  rw [spawner, me_retire, me_setMe]

theorem spawner_others (s : State) : OthersSame s s.spawner s.cur := fun j hj => by
  simp [spawner, retire, coreAt_putCore, hj]

/-- A rod from which a free slot is taken is one of its unit's. -/
theorem rodOfIndex_eq_some {s : State} {core k r : Nat} {rod : Rod} (h : s.rodOfIndex core k = some (r, rod)) :
    s.rodAt (unitOf core) r = some rod := by
  unfold rodOfIndex at h
  split at h
  case h_1 => cases h
  case h_2 r' _ =>
    obtain ⟨y, hy, heq⟩ := Option.map_eq_some_iff.1 h
    simp only [Prod.mk.injEq] at heq
    obtain ⟨rfl, rfl⟩ := heq
    exact hy

theorem find?_freeSlot {rod : Rod} {n : Nat} (h : rod.freeSlot? = some n) : Map.find? rod.slots n = none := by
  simpa using List.find?_some h

section Spawned

variable {s w t : State} {b : SlotId} {rod : Rod} (htr : Translated s w s.cur)

include htr

theorem spawner_units : w.spawner.units = (s.clearR s.cur).units := by
  rw [spawner_rest, htr.cur]
  exact clearR_units_congr htr.units (by rw [htr.rest]) (htr.bead _)

/-- The rod of the child before the child enters it. -/
theorem spawner_rodAt {u r : Nat} (h : s.rodAt u r = some rod) :
    ∃ slots, w.spawner.rodAt u r = some { rod with slots := slots } := by
  obtain ⟨slots, hs⟩ := rodAt_clearR s.cur h
  exact ⟨slots, (rodAt_of_units_eq (spawner_units htr) u r).trans hs⟩

/-- What stands after a slot has been taken: R cleared in the spawner's record, every other slot, core and byte as before. -/
theorem spawned_of_changed {rod0 rod1 : Rod} {z : BeadSlot} (hfree : s.slotAt b = none)
    (hrod0 : w.spawner.rodAt b.unit b.rod = some rod0) (hch : w.spawner.RodChanged t b.unit b.rod rod1)
    (hslots : rod1.slots = Map.put rod0.slots b.slot z) (hrest : t = { w.spawner with
      units := t.units, nextBead := t.nextBead, pend := t.pend }) :
    OthersSame s t s.cur ∧ SameMemory s t ∧ (∀ c, c ≠ b → t.slotAt c = (s.clearR s.cur).slotAt c) ∧
      (∀ c y, s.me.bead = some c → s.slotAt c = some y →
        t.slotAt c = some { y with record := { y.record with w3 := setFld y.record.w3 34 1 0 } }) ∧
      t.me = { w.me with
        spn := if s.me.spn = BitVec.allOnes 32 then s.me.spn else s.me.spn + 1
        pc := s.me.npc, icnt := s.me.icnt + 1, windows := s.me.nextWin, chkRun := 0 } := by
  have hother : ∀ c, c ≠ b → t.slotAt c = (s.clearR s.cur).slotAt c := fun c hc => by
    rw [hch.slotAt_put hrod0 hslots, if_neg hc, slotAt_of_units_eq (spawner_units htr)]
  have hcore : ∀ j, t.coreAt j = w.spawner.coreAt j := fun j => by rw [hrest]; rfl
  have hcur : t.cur = s.cur := by rw [hrest, spawner_rest, htr.rest]
  have hcurs : w.spawner.cur = s.cur := by rw [spawner_rest, htr.rest]
  refine ⟨fun j hj => ?_, sameMemory_of_eq ?_ ?_, hother, fun c y hc hy => ?_, ?_⟩
  · rw [hcore, spawner_others w j (by rwa [htr.cur]), htr.others j hj]
  · rw [hrest, spawner_rest, htr.rest]
  · rw [hrest, spawner_rest, htr.rest]
  · have hne : c ≠ b := by
      rintro rfl
      simp [hfree] at hy
    rw [hother c hne, slotAt_clearR_of_bead hc hy, if_pos rfl]
  · have hme : t.me = w.spawner.me := by rw [me_eq, hcur, hcore, me_eq, hcurs]
    rw [hme, spawner_me, htr.me rfl]; rfl

end Spawned

theorem reserveNew_rest (s : State) (b : SlotId) (x : BeadRec) :
    s.reserveNew b x = { s with units := (s.reserveNew b x).units, nextBead := s.nextBead + 1 } := by
  rw [reserveNew, wroteSlot, modUnit_rest, putSlot_rest]; rfl

theorem reserveNew_pend (s : State) (b : SlotId) (x : BeadRec) : (s.reserveNew b x).pend = s.pend := by rw [reserveNew_rest]

/-- A slot is reserved for a new bead and its increment sent to the join word's bank. -/
theorem reserveNew_push_rest (s : State) (b : SlotId) (x : BeadRec) (is : List Ev) :
    (s.reserveNew b x).push is = { s with
      units := ((s.reserveNew b x).push is).units, nextBead := ((s.reserveNew b x).push is).nextBead
      pend := ((s.reserveNew b x).push is).pend } := by
  have hpush (t : State) : t.push is = { t with pend := t.pend ++ is } := rfl
  rw [hpush, reserveNew_rest]

theorem rodChanged_reserveNew {s : State} {b : SlotId} {rod : Rod} (x : BeadRec) (h : s.rodAt b.unit b.rod = some rod) :
    s.RodChanged (s.reserveNew b x) b.unit b.rod
      { rod with slots := Map.put rod.slots b.slot { record := x, use := .reserved, uid := s.nextBead } } := by
  have hput := (rodChanged_putSlot (s := s.newBead.2) h { record := x, use := .reserved, uid := s.nextBead }).wroteSlot b
  exact ⟨hput.same, hput.other⟩

/-! ### The increment at the bank (R51, R138) -/

section Increment

variable {s : State} {j : JoinReq} (href : s.joinRefused j = none) (hok : s.spanPoisoned j.loc 16 = false)
  (hn : s.joinCount j.loc < 2 ^ 32 - 1)

include href hok hn

theorem bankJoinIncrement_of_room :
    s.bankJoinIncrement j = (s.spanWrite j.loc (leBytes 4 (s.joinCount j.loc + 1))).enqueueChild j.child := by
  have hne : s.joinCount j.loc ≠ 2 ^ 32 - 1 := by omega
  simp only [bankJoinIncrement, href, hok, hne, Bool.false_eq_true, if_false]

end Increment

/-- A child whose slot is in use enters the ready order of its rod. -/
theorem enqueueChild_of_slot {s : State} {c : SlotId} {z : BeadSlot} (h : s.slotAt c = some z) :
    s.enqueueChild (some c) = s.appendTail c z.record z.uid := by
  simp only [enqueueChild, h]

/-- Where nothing stands in a reserved region, nothing stands after units have changed in slots that are in use. -/
theorem reservedBytes_eq_none_of_slots {s t : State} (hs : t.sys = s.sys) (hr : t.ringBase = s.ringBase)
    (hslots : ∀ b, s.slotAt b = none → t.slotAt b = none) (hpark : ∀ u, (t.unitAt u).park = (s.unitAt u).park)
    (hover : ∀ u, (t.unitAt u).overflow = (s.unitAt u).overflow) {loc : Nat} (h : s.reservedBytes loc = none) :
    t.reservedBytes loc = none := by
  have hat : t.reservedAt (t.homeLoc loc) = s.reservedAt (s.homeLoc loc) := by
    clear hslots hpark hover h
    cases s; cases t
    dsimp only at hs hr
    subst hs hr
    rfl
  unfold reservedBytes at h ⊢
  rw [hat]
  split at h
  case h_2 => simp_all
  case h_1 r hres =>
    simp only [Option.map_eq_none_iff] at h ⊢
    cases r with
    | slot b k => exact Option.map_eq_none_iff.2 (hslots b (Option.map_eq_none_iff.1 h))
    | spill u n k => simpa [reservedImage, hpark] using h
    | overflow u n k => simpa [reservedImage, hover] using h

theorem appendTail_slotAt {s : State} {c : SlotId} {z : BeadSlot} (h : s.slotAt c = some z) (x : BeadRec) (uid : Nat) (b : SlotId) :
    (s.appendTail c x uid).slotAt b = if b = c then some { record := x, use := .ready, uid := uid } else s.slotAt b := by
  obtain ⟨rod, hrod, -⟩ := slotAt_eq_some h
  exact (rodChanged_appendTail hrod x uid).slotAt_put hrod rfl b

theorem modRod_lists (s : State) (u r : Nat) (f : Rod → Rod) (v : Nat) :
    ((s.modRod u r f).unitAt v).park = (s.unitAt v).park ∧ ((s.modRod u r f).unitAt v).overflow = (s.unitAt v).overflow := by
  unfold modRod
  split
  · rw [putRod, modUnit_eq, unitAt_putUnit]
    split_ifs with hv
    · rw [hv]; exact ⟨rfl, rfl⟩
    · exact ⟨rfl, rfl⟩
  · exact ⟨rfl, rfl⟩

section Child

variable {s : State} {j : JoinReq} {c : SlotId} {y : BeadSlot} (href : s.joinRefused j = none)
  (hok : s.spanPoisoned j.loc 16 = false) (hn : s.joinCount j.loc < 2 ^ 32 - 1) (hc : j.child = some c) (hy : s.slotAt c = some y)

include href hok hn hc hy

/-- The write of CNT leaves the child in its slot, from which it enters the ready order. -/
theorem bankJoinIncrement_child : ∃ z, (s.spanWrite j.loc (leBytes 4 (s.joinCount j.loc + 1))).slotAt c = some z ∧
    s.bankJoinIncrement j = (s.spanWrite j.loc (leBytes 4 (s.joinCount j.loc + 1))).appendTail c z.record z.uid := by
  have hkept := (rodsKept_spanWrite s j.loc (leBytes 4 (s.joinCount j.loc + 1))).use hy
  obtain ⟨z, hz, -⟩ := Option.map_eq_some_iff.1 hkept
  exact ⟨z, hz, by rw [bankJoinIncrement_of_room href hok hn, hc, enqueueChild_of_slot hz]⟩

theorem bankJoinIncrement_holds :
    s.Holds (s.runsFrom j.loc 4) (leBytes 4 (s.joinCount j.loc + 1)) (s.bankJoinIncrement j) := by
  obtain ⟨z, -, hu⟩ := bankJoinIncrement_child href hok hn hc hy
  have hw := spanWrite_holds s j.loc (leBytes 4 (s.joinCount j.loc + 1))
  rw [leBytes_length] at hw
  rw [hu]
  exact holds_of_mem_eq hw (by rw [appendTail_rest])

theorem bankJoinIncrement_use : ((s.bankJoinIncrement j).slotAt c).map BeadSlot.use = some .ready := by
  obtain ⟨z, hz, hu⟩ := bankJoinIncrement_child href hok hn hc hy
  rw [hu, appendTail_slotAt hz, if_pos rfl]; rfl

theorem bankJoinIncrement_pickup : Ev.pickupGrant c.unit ∈ (s.bankJoinIncrement j).pend := by
  obtain ⟨z, -, hu⟩ := bankJoinIncrement_child href hok hn hc hy
  rw [hu, appendTail_rest]
  exact List.mem_append_right _ (List.mem_singleton_self _)

theorem bankJoinIncrement_cores : (s.bankJoinIncrement j).cores = s.cores := by
  obtain ⟨z, -, hu⟩ := bankJoinIncrement_child href hok hn hc hy
  rw [hu, appendTail_rest]
  exact spanWrite_cores ..

variable (h16 : j.loc % 16 = 0) (hr : s.reservedBytes j.loc = none)

include h16 hr

/-- Where the join word is no record of a ring, the child's record is as it was. -/
theorem bankJoinIncrement_slotAt : (s.bankJoinIncrement j).slotAt c = some { y with use := .ready } := by
  obtain ⟨z, hz, hu⟩ := bankJoinIncrement_child href hok hn hc hy
  have hunits := spanWrite_units_of_unreserved (bs := leBytes 4 (s.joinCount j.loc + 1)) (by rw [leBytes_length]; omega) hr
  obtain rfl : z = y := Option.some_injective _ (hz.symm.trans ((slotAt_of_units_eq hunits c).trans hy))
  rw [hu, appendTail_slotAt hz, if_pos rfl]

/-- CNT rises by one. -/
theorem bankJoinIncrement_joinCount : (s.bankJoinIncrement j).joinCount j.loc = s.joinCount j.loc + 1 := by
  obtain ⟨z, hz, hu⟩ := bankJoinIncrement_child href hok hn hc hy
  have hunits := spanWrite_units_of_unreserved (bs := leBytes 4 (s.joinCount j.loc + 1)) (by rw [leBytes_length]; omega) hr
  have hfree : (s.bankJoinIncrement j).reservedBytes j.loc = none := by
    rw [hu]
    refine reservedBytes_eq_none_of_slots ?_ ?_ (fun b hb => ?_) (fun u => ?_) (fun u => ?_) hr
    · rw [appendTail_rest]; exact spanWrite_sys ..
    · rw [appendTail_rest]; exact spanWrite_ringBase ..
    · have hne : b ≠ c := by
        rintro rfl
        simp [hb] at hy
      rw [appendTail_slotAt hz, if_neg hne, slotAt_of_units_eq hunits, hb]
    · exact (modRod_lists ..).1.trans (by rw [unitAt_of_units_eq hunits])
    · exact (modRod_lists ..).2.trans (by rw [unitAt_of_units_eq hunits])
  have hbytes : (s.bankJoinIncrement j).bytes j.loc 4 = leBytes 4 (s.joinCount j.loc + 1) := by
    have hh := bankJoinIncrement_holds href hok hn hc hy
    rw [runsFrom_of_fits (by omega)] at hh
    simpa [bytesIn] using hh.2 (.inl ⟨_, rfl, by simp⟩)
  rw [joinCount_of_unreserved h16 hfree, hbytes, leNat_leBytes _ _ (by omega)]

end Child

end State

open State

/-! ### The obligation -/

theorem exec_spawn_of_misaligned {s : State} (pfx : Pfx) {a : Nat} (src : Src) (hk : isSteward s.cur = false)
    (h : (s.sr a).toNat % 64 ≠ 0) : exec (.spawn pfx a src) s = .next (s.trap { cause := 0x06, va := s.sr a }) := by
  change execSpawn pfx a src s = _
  simp only [execSpawn, notSteward, hk, h, Bool.false_eq_true, ne_eq, not_false_eq_true, if_true, if_false]; rfl

theorem exec_spawn_of_loaded {s : State} (pfx : Pfx) {a : Nat} (src : Src) {bs : List Byte} (hk : isSteward s.cur = false)
    (h : (s.sr a).toNat % 64 = 0) (hbs : s.loadC (s.sr a) 64 = .ok bs) : exec (.spawn pfx a src) s =
      .next ((s.noteRange (s.issuer s.cur .c) (s.sr a) 64).spawnRecord (s.me.src src).toNat (recOfWords (wordsOf 8 bs))) := by
  change execSpawn pfx a src s = _
  simp only [execSpawn, notSteward, hk, h, withLoad, hbs, Bool.false_eq_true, ne_eq, not_true_eq_false, if_false]

theorem exec_bankJoinIncrement {s : State} {j : JoinReq} (hm : s.msg = some (.bankJoinIncrement j)) :
    exec .bankJoinIncrement s = .next (s.bankJoinIncrement j) := by
  change execBankJoinIncrement s = _
  rw [execBankJoinIncrement, hm]

/-- Settles O36: each check of SPAWN in its order, then the child's slot; at the bank CNT rises and the child becomes ready. -/
theorem spawning : Obligations.Spawning := by
  unfold Obligations.Spawning
  intro s pfx a src hk p s1
  have htr : Translated s s1 s.cur := translated_noteRange s (s.issuer s.cur .c) p 64
  refine ⟨exec_spawn_of_misaligned pfx src hk, fun bs hal hbs => ?loaded, fun j c y hc hy href hok hn => ?increment⟩
  case increment =>
    exact performs_of_exec exec_bankJoinIncrement ⟨bankJoinIncrement_holds href hok hn hc hy,
      fun h16 hr => ⟨bankJoinIncrement_joinCount href hok hn hc hy h16 hr, bankJoinIncrement_slotAt href hok hn hc hy h16 hr⟩,
      bankJoinIncrement_use href hok hn hc hy, bankJoinIncrement_pickup href hok hn hc hy, bankJoinIncrement_cores href hok hn hc hy⟩
  case loaded =>
    intro x
    have hexec : exec (.spawn pfx a src) s = .next (s1.spawnRecord (s.me.src src).toNat x) :=
      exec_spawn_of_loaded pfx src hk hal hbs
    have hindex : s1.rodOfIndex s1.cur (s.me.src src).toNat = s.rodOfIndex s.cur (s.me.src src).toNat := by
      rw [htr.rodOfIndex, htr.cur]
    clear_value s1
    refine ⟨fun hno => ?noRod, fun r rod hr => ⟨fun hw => ?otherWorld, fun f hw hj => ?joinFault, fun o hw hj hfull => ?full,
      fun n hw hfree => ?spawns⟩⟩
    case noRod => rw [hexec, spawnRecord_of_noRod (hindex.trans hno)]
    case otherWorld => rw [hexec, spawnRecord_of_otherWorld (hindex.trans hr) hw]
    case joinFault => rw [hexec, spawnRecord_of_joinFault (hindex.trans hr) hw hj]
    case full => rw [hexec, spawnRecord_of_full (hindex.trans hr) hw hj hfull]
    case spawns =>
      intro b child Spawned
      have hrod : s.rodAt b.unit b.rod = some rod := rodOfIndex_eq_some hr
      have hnew : s.slotAt b = none := (slotAt_of_rodAt hrod).trans (find?_freeSlot hfree)
      obtain ⟨slots, hrod0⟩ := spawner_rodAt htr hrod
      have hbead : s1.spawner.nextBead = s.nextBead := by rw [spawner_rest, htr.rest]
      have hpend : s1.spawner.pend = s.pend := by rw [spawner_rest, htr.rest]
      have hready : x.pjoin = 0 → s1.spawnRecord (s.me.src src).toNat x = s1.spawner.enqueueNew b child := fun h0 => by
        rw [spawnRecord_of_noJoin (hindex.trans hr) hw hfree (probeJoin_of_zero s1 h0), htr.cur]
        simp only [b, child, childRecord]
      have hreserve : ∀ loc, s1.probeJoin x.pjoin = .ok (some loc) → s1.spawnRecord (s.me.src src).toNat x =
          (s1.spawner.reserveNew b child).push [.bankJoinIncrement
            { core := s.cur, part := s.partOf s.cur, world := s.me.world, va := x.pjoin, loc := loc, cpc := s.me.pc,
              bead := s.beadAddr s.cur, child := some b }] := fun loc hj => by
        rw [spawnRecord_of_join (hindex.trans hr) hw hfree hj, htr.cur, htr.partOf, htr.beadAddr, htr.me rfl]
        simp only [b, child, childRecord]
      have hunit : b.rod = r := rfl
      have hslot : b.slot = n := rfl
      clear_value child b
      refine ⟨fun h0 => ⟨_, hexec, ?ready⟩, fun loc h0 hj => ⟨_, hexec, ?reserved⟩⟩
      case ready =>
        have hq := enqueueNew_ready child hrod0
        rw [hready h0, ← hunit, ← hslot]
        refine ⟨spawned_of_changed htr hnew hrod0 (rodChanged_enqueueNew hrod0 child) rfl (by rw [enqueueNew_rest _ hrod0]), ?_,
          hq, ?_⟩
        · rw [enqueueNew_slotAt child hrod0, hbead]
        · rw [enqueueNew_pend child hrod0, hpend]
      case reserved =>
        have hch := rodChanged_reserveNew child hrod0
        rw [hreserve loc hj, ← hunit]
        refine ⟨spawned_of_changed htr hnew hrod0 (hch.of_units_eq (push_units ..)) rfl (reserveNew_push_rest ..), ?_, ?_, ?_⟩
        · rw [slotAt_push, hch.slotAt_put hrod0 rfl, if_pos rfl, hbead]
        · rw [rodAt_of_units_eq (push_units ..), hch.same, Option.map_some]
        · rw [push_pend, reserveNew_pend, hpend]

end Sys2Proof.Machine
end

