-- ==== Sys2Proof/Proofs/Ends.lean ====
section
/-! The ends of a run: END frees the bead's slot and YIELD puts its record back at the tail of its rod (R136, R139, R140). -/

namespace Sys2Proof.Machine

open Sys2Proof

namespace State

/-! ### Nodes that are discarded (R238, R262) -/

/-- A node that is no longer linked to node `m`. -/
def unlink (m : Nat) (x : Node) : Node := { x with link := x.link &&& ~~~(BitVec.ofNat 128 (2 ^ m)) }

theorem removeNode_nodes (s : State) (k m : Nat) :
    ((s.removeNode k m).tileAt k).nodes = (Map.del (s.tileAt k).nodes m).map fun e => (e.1, unlink m e.2) := by
  simp only [removeNode, modTile_eq, tileAt_putTile_same]; rfl

theorem removeNode_nodeAt (s : State) (k m n : Nat) (f : Tile → Tile) (hf : ∀ t, (f t).nodes = t.nodes)
    (h : s.nodeAt k n = none ∨ n = m) : ((s.removeNode k m).modTile k f).nodeAt k n = none := by
  rw [nodeAt, modTile_eq, tileAt_putTile_same, hf, removeNode_nodes, Map.find?_map, Map.find?_del]
  split_ifs with hn
  · rfl
  · exact congrArg _ (h.resolve_right hn)

theorem dropNodes_cons (s : State) (k n : Nat) (ns : List Nat) : s.dropNodes k (n :: ns) = (s.dropNodes k [n]).dropNodes k ns := rfl

theorem dropNodes_rest (s : State) (k : Nat) (ns : List Nat) :
    s.dropNodes k ns = { s with tiles := (s.dropNodes k ns).tiles } := by
  induction ns generalizing s with
  | nil => rfl
  | cons n ns ih =>
    have hone : s.dropNodes k [n] = { s with tiles := (s.dropNodes k [n]).tiles } := by
      simp only [dropNodes, List.foldl]
      split <;> rfl
    rw [dropNodes_cons, ih, hone]

/-- A node that is gone stays so, and one that is dropped goes. -/
theorem dropNodes_nodeAt {s : State} {k n : Nat} {ns : List Nat} (h : s.nodeAt k n = none ∨ n ∈ ns) :
    (s.dropNodes k ns).nodeAt k n = none := by
  induction ns generalizing s with
  | nil => exact h.resolve_right (List.not_mem_nil)
  | cons m ns ih =>
    rw [dropNodes_cons]
    refine ih ?_
    by_cases hn : s.nodeAt k n = none ∨ n = m
    · left
      simp only [dropNodes, List.foldl]
      split
      case h_1 => exact removeNode_nodeAt s k m n _ (fun _ => rfl) hn
      case h_2 hm =>
        rcases hn with hn | rfl
        · exact hn
        · exact hm
    · right
      rcases h with h | h
      · exact absurd (.inl h) hn
      · exact (List.mem_cons.1 h).resolve_left fun hm => hn (.inr hm)

/-! ### The core that a run leaves (R135) -/

theorem coreAt_idleCore (s : State) (k j : Nat) : (s.idleCore k).coreAt j = if j = k then (s.coreAt k).rest else s.coreAt j := by
  simp only [idleCore, coreAt_push, modCore_eq, coreAt_putCore]

theorem idleCore_rest {s : State} {k : Nat} (hk : isSteward k = false) :
    s.idleCore k = { s with cores := (s.idleCore k).cores, pend := s.pend ++ [.pickupGrant (unitOf k)] } := by
  simp only [idleCore, hk, Bool.false_eq_true, if_false]; rfl

@[simp] theorem rodAt_idleCore (s : State) (k u r : Nat) : (s.idleCore k).rodAt u r = s.rodAt u r := rfl
@[simp] theorem slotAt_idleCore (s : State) (k : Nat) (b : SlotId) : (s.idleCore k).slotAt b = s.slotAt b := rfl
@[simp] theorem nodeAt_idleCore (s : State) (k j n : Nat) : (s.idleCore k).nodeAt j n = s.nodeAt j n := rfl
theorem idleCore_pend {s : State} {k : Nat} (hk : isSteward k = false) : (s.idleCore k).pend = s.pend ++ [.pickupGrant (unitOf k)] := by
  rw [idleCore_rest hk]

/-- After the commit of the instruction that ends a run its core is idle, and holds no bead. -/
theorem leaves_of_retire {s w : State} (hk : isSteward s.cur = false) (hcores : w.cores = s.retire.cores) (hm : w.mem = s.mem)
    (hg : w.gmeta = s.gmeta) :
    ((w.idleCore s.cur).coreAt s.cur).mode = .idle ∧ ((w.idleCore s.cur).coreAt s.cur).bead = none ∧
      ((w.idleCore s.cur).coreAt s.cur).icnt = s.me.icnt + 1 ∧ OthersSame s (w.idleCore s.cur) s.cur ∧
      SameMemory s (w.idleCore s.cur) := by
  have hcore (j : Nat) : w.coreAt j = s.retire.coreAt j := by unfold coreAt; rw [hcores]
  have hme : (w.idleCore s.cur).coreAt s.cur = s.me.commit.rest := by
    rw [coreAt_idleCore, if_pos rfl, hcore, retire, setMe_eq, coreAt_putCore_same]
  refine ⟨by rw [hme]; rfl, by rw [hme]; rfl, by rw [hme]; rfl, fun j hj => ?_, sameMemory_of_eq ?_ ?_⟩
  · rw [coreAt_idleCore, if_neg hj, hcore, retire, setMe_eq, coreAt_putCore, if_neg hj]
  · rw [idleCore_rest hk, hm]
  · rw [idleCore_rest hk, hg]

/-! ### END (R139) -/

/-- The decrement that END sends to the bank of its join word. -/
def endJoin (s : State) (j : Word) : Option Nat → List Ev
  | some loc => [.bankJoinDecrement
      { core := s.cur, part := s.partOf s.cur, world := s.me.world, va := j, loc := loc, cpc := s.me.pc, bead := s.beadAddr s.cur
        child := none }]
  | none => []

/-- The machine when END has freed its bead's slot. -/
def ended (s : State) (b : SlotId) : State := ((s.dropNodes s.cur s.pendingNodes).retire).freeSlot b

section

variable {s : State} {b : SlotId}

theorem endRun_eq (hb : s.me.bead = some b) (j : Word) (o : Option Nat) :
    s.endRun j o = ((s.ended b).push (s.endJoin j o)).idleCore s.cur := by
  cases o with
  | none =>
    have hnil (t : State) : t.push [] = t := by rw [push, List.append_nil]
    simp only [endRun, hb, endJoin, hnil]; rfl
  | some loc => simp only [endRun, hb]; rfl

theorem ended_rest (s : State) (b : SlotId) : s.ended b = { s with
    cores := s.retire.cores, units := (s.ended b).units, tiles := (s.dropNodes s.cur s.pendingNodes).tiles
    pend := s.pend ++ [.overflowListDrain b.unit] } := by
  have hretire : (s.dropNodes s.cur s.pendingNodes).retire =
      { s with cores := s.retire.cores, tiles := (s.dropNodes s.cur s.pendingNodes).tiles } := by
    rw [dropNodes_rest]; rfl
  rw [ended, freeSlot_rest, hretire]

theorem ended_cores (s : State) (b : SlotId) : (s.ended b).cores = s.retire.cores := by rw [ended_rest]
theorem ended_mem (s : State) (b : SlotId) : (s.ended b).mem = s.mem := by rw [ended_rest]
theorem ended_gmeta (s : State) (b : SlotId) : (s.ended b).gmeta = s.gmeta := by rw [ended_rest]
theorem ended_pend (s : State) (b : SlotId) : (s.ended b).pend = s.pend ++ [.overflowListDrain b.unit] := by rw [ended_rest]

theorem ended_slotAt (s : State) (b : SlotId) : (s.ended b).slotAt b = none := freeSlot_slotAt ..

theorem ended_nodeAt {n : Nat} (hn : n ∈ s.pendingNodes) : (s.ended b).nodeAt s.cur n = none := by
  have htiles : (s.ended b).tiles = (s.dropNodes s.cur s.pendingNodes).tiles := by rw [ended_rest]
  have hdrop := dropNodes_nodeAt (s := s) (k := s.cur) (.inr hn)
  unfold nodeAt tileAt at hdrop ⊢
  rw [htiles, hdrop]

end

/-! ### YIELD (R140) -/

theorem mySlot_of_slotAt {s : State} {b : SlotId} {x : BeadSlot} (hb : s.me.bead = some b) (hx : s.slotAt b = some x) :
    s.mySlot = x := by
  simp [mySlot, hb, hx]

/-- What YIELD puts back in a bead's slot: its record with the next address and SPN (R140). -/
def yielded (s : State) (x : BeadSlot) : BeadSlot :=
  { x with record := { x.record with code := s.me.npc, w3 := setFld x.record.w3 0 32 s.me.spn.toNat }, use := .ready }

/-- The machine when YIELD has put the record at the tail of its rod. -/
def requeued (s : State) (b : SlotId) (x : BeadSlot) : State :=
  (s.retire.appendTail b (s.yielded x).record x.uid).wroteSlot b

theorem requeue_eq {s : State} {b : SlotId} {x : BeadSlot} (hb : s.me.bead = some b) (hx : s.mySlot = x) :
    s.requeue = (s.requeued b x).idleCore s.cur := by
  simp only [requeue, hb, myRecord, hx]; rfl

theorem requeued_rest (s : State) (b : SlotId) (x : BeadSlot) : s.requeued b x = { s with
    cores := s.retire.cores, units := (s.requeued b x).units, pend := s.pend ++ [.pickupGrant b.unit] } := by
  rw [requeued, wroteSlot, modUnit_rest, appendTail_rest]; rfl

theorem rodChanged_requeued {s : State} {b : SlotId} {r : Rod} (x : BeadSlot) (hr : s.rodAt b.unit b.rod = some r) :
    s.RodChanged (s.requeued b x) b.unit b.rod (r.withReady b.slot (s.yielded x)) := by
  have hch := (rodChanged_appendTail (s := s.retire) hr (s.yielded x).record x.uid).wroteSlot b
  exact ⟨hch.same, hch.other⟩

theorem demandWork_of_run {s : State} {k : Nat} (h : (s.coreAt k).inh = false) (d : Demand) (afrc ofrc : Nat) :
    s.demandWork k d afrc ofrc = (s.modTile k fun t => { t with
      demand := some d, reserve := [], afrc := min 255 (t.afrc + afrc), ofrc := min 255 (t.ofrc + ofrc) }).push
        [.demandServe k] := by
  rw [demandWork, h]; rfl

theorem notSteward_of_not_steward {s : State} (h : isSteward s.cur = false) (r : State) : s.notSteward r = r :=
  if_neg (Bool.eq_false_iff.1 h)

end State

open State

section

variable {s : State} (pfx : Pfx) (hk : isSteward s.cur = false)

include hk

/-- END's checks in their order (R139). -/
theorem exec_endBead {a : Nat} {j : Word} (hj : (if a = 0 then s.myRecord.pjoin else s.sr a) = j) :
    exec (.endBead pfx a) s = .next (match s.probeJoin j with
      | .error f => s.trap f
      | .ok join =>
        if s.me.holdsBanks then s.trap { cause := 0x11 }
        else if !s.pendingNodes.isEmpty && !bitOf s.myRecord.w3 32 then s.trap { cause := 0x12 }
        else s.endRun j join) := by
  change execEndBead pfx a s = _
  rw [execEndBead, notSteward_of_not_steward hk, hj]; rfl

theorem exec_yield (hinh : s.me.inh = false) :
    exec (.yield pfx) s = .next (if s.me.holdsBanks then s.trap { cause := 0x11 }
      else if !s.pendingNodes.isEmpty then
        s.demandWork s.cur { pc := s.me.pc, fin := .again, nodes := s.inFull s.cur s.pendingNodes } 0 0
      else s.requeue) := by
  change execYield pfx s = _
  rw [execYield, notSteward_of_not_steward hk, hinh]; rfl

end

theorem holdsBanks_iff (c : Core) : c.holdsBanks = true ↔ c.a ≠ [] := by
  cases h : c.a <;> simp [Core.holdsBanks, h]

/-- Settles O37: the checks of END and YIELD in their order, and what stands when the slot is freed or is ready again. -/
theorem endingAndYielding : Obligations.EndingAndYielding := by
  unfold Obligations.EndingAndYielding
  intro s pfx a b hk hb j mayEnd Left
  have hend := exec_endBead pfx hk (rfl : _ = j)
  have hbanks : s.me.a = [] → s.me.holdsBanks = false := fun h => by simp [Core.holdsBanks, h]
  refine ⟨fun f hj => by rw [hend, hj], fun o hj => ?endings, fun hinh => ?yields⟩
  case endings =>
    simp only [hj] at hend
    have hpast : mayEnd ↔ (!s.pendingNodes.isEmpty && !bitOf s.myRecord.w3 32) = false := by
      simp [mayEnd, Decidable.or_iff_not_imp_left]
    refine ⟨fun ha => by rw [hend, if_pos ((holdsBanks_iff _).2 ha)], fun ha hno => ?_, fun ha hmay => ⟨_, hend, ?_⟩⟩
    · rw [hend, hbanks ha, if_neg Bool.false_ne_true, if_pos (Bool.not_eq_false _ ▸ fun h => hno (hpast.2 h))]
    · have hrun : (if s.me.holdsBanks = true then s.trap { cause := 0x11 }
          else if (!s.pendingNodes.isEmpty && !bitOf s.myRecord.w3 32) = true then s.trap { cause := 0x12 }
          else s.endRun j o) = ((s.ended b).push (s.endJoin j o)).idleCore s.cur := by
        rw [hbanks ha, hpast.1 hmay, endRun_eq hb]; rfl
      rw [hrun]
      refine ⟨leaves_of_retire hk ?_ ?_ ?_, ?_, fun n hn => ?_, ?_⟩
      · rw [push_cores, ended_cores]
      · rw [push_mem, ended_mem]
      · rw [push_gmeta, ended_gmeta]
      · rw [slotAt_idleCore, slotAt_push, ended_slotAt]
      · rw [nodeAt_idleCore]
        exact ended_nodeAt hn
      · rw [idleCore_pend hk, push_pend, ended_pend]
        cases o <;> simp [endJoin]
  case yields =>
    have hyield := exec_yield pfx hk hinh
    refine ⟨fun ha => by rw [hyield, if_pos ((holdsBanks_iff _).2 ha)], fun ha hn => ⟨_, hyield, ?demand⟩,
      fun r x ha hn hr hx => ⟨_, hyield, ?requeue⟩⟩
    case demand =>
      have hsome : (!s.pendingNodes.isEmpty) = true := by simpa using hn
      rw [hbanks ha, if_neg Bool.false_ne_true, if_pos hsome, demandWork_of_run hinh]
      refine ⟨rfl, ?_⟩
      rw [tileAt_push, modTile_eq, tileAt_putTile_same]
    case requeue =>
      have hslot := mySlot_of_slotAt hb ((slotAt_of_rodAt hr).trans hx)
      have hrun : (if s.me.holdsBanks = true then s.trap { cause := 0x11 }
          else if (!s.pendingNodes.isEmpty) = true then
            s.demandWork s.cur { pc := s.me.pc, fin := .again, nodes := s.inFull s.cur s.pendingNodes } 0 0
          else s.requeue) = (s.requeued b x).idleCore s.cur := by
        rw [hbanks ha, hn, ← requeue_eq hb hslot]; rfl
      have hch := rodChanged_requeued x hr
      rw [hrun]
      refine ⟨leaves_of_retire hk ?_ ?_ ?_, ?_, ?_⟩
      · rw [requeued_rest]
      · rw [requeued_rest]
      · rw [requeued_rest]
      · rw [rodAt_idleCore, hch.same]; rfl
      · rw [slotAt_idleCore, hch.slotAt_put hr rfl, if_pos rfl]; rfl

end Sys2Proof.Machine
end

