-- ==== Sys2Proof/Proofs/Pickups.lean ====
section
/-! A pickup: the choice of a rod, the core that starts clean, and a record of the other world, which starts no run
(R130-R133, R84). -/

namespace Sys2Proof.Machine

open Sys2Proof

/-! ### The cores of a unit (R15) -/

theorem unitOf_tileIn : ∀ u < 48, ∀ i < 8, unitOf (tileIn u i) = u := by decide

theorem unitOf_of_mem_unitCores {u k : Nat} (h : k ∈ unitCores u) : unitOf k = u := by
  unfold unitCores at h
  split_ifs at h with hu
  · obtain ⟨i, hi, rfl⟩ := List.mem_map.1 h
    exact unitOf_tileIn u hu i (List.mem_range.1 hi)
  · obtain rfl := List.mem_singleton.1 h
    unfold unitOf
    split_ifs <;> omega

/-! ### SelectRod (R130) -/

theorem le_getLastD {l : List Nat} {d : Nat} (h : (d :: l).Pairwise (· < ·)) : ∀ q ∈ d :: l, q ≤ l.getLastD d := by
  induction l generalizing d with
  | nil => simp
  | cons a l ih =>
    obtain ⟨hd, hl⟩ := List.pairwise_cons.1 h
    rw [List.getLastD_cons]
    intro q hq
    rcases List.mem_cons.1 hq with rfl | hq
    · exact (hd a (List.mem_cons_self ..)).le.trans (ih hl a (List.mem_cons_self ..))
    · exact ih hl q hq

namespace State

/-- The priority value of a rod, 4 where there is none. -/
def rodPrio (s : State) (u x : Nat) : Nat := match s.rodAt u x with | some y => y.prio | none => 4

theorem bestRod_cons (s : State) (u r q : Nat) (rs : List Nat) : s.bestRod u (r :: q :: rs) =
    if s.rodPrio u (s.bestRod u (q :: rs)) < s.rodPrio u r then s.bestRod u (q :: rs) else r := rfl

/-- The lowest priority value, and of several rods that have it the lowest-numbered. -/
theorem bestRod_least (s : State) (u : Nat) {l : List Nat} (h : l.Pairwise (· < ·)) : ∀ q ∈ l,
    s.rodPrio u (s.bestRod u l) < s.rodPrio u q ∨ (s.rodPrio u (s.bestRod u l) = s.rodPrio u q ∧ s.bestRod u l ≤ q) := by
  induction l with
  | nil => simp
  | cons r l ih =>
    obtain ⟨hr, hl⟩ := List.pairwise_cons.1 h
    cases l with
    | nil => simp [bestRod]
    | cons a rs =>
      intro q hq
      rw [bestRod_cons]
      rcases List.mem_cons.1 hq with rfl | hq
      · split_ifs with hlt
        · exact .inl hlt
        · exact .inr ⟨rfl, le_rfl⟩
      · have hbest := ih hl q hq
        have hrq := hr q hq
        split_ifs with hlt
        · exact hbest
        · omega

theorem candRods_sorted (s : State) (k : Nat) : (s.candRods k).Pairwise (· < ·) :=
  (List.pairwise_lt_range.filter _).filter _

theorem selectRod_last {s : State} {k n : Nat} (hn : n % 64 = 63) : ∀ q ∈ s.candRods k, q ≤ s.selectRod k n := by
  have hsorted := s.candRods_sorted k
  rw [selectRod, if_pos hn]
  cases hc : s.candRods k with
  | nil => simp
  | cons r l =>
    rw [List.getLastD_cons]
    exact le_getLastD (hc ▸ hsorted)

theorem selectRod_best {s : State} {k n : Nat} (hn : n % 64 ≠ 63) : s.selectRod k n = s.bestRod (unitOf k) (s.candRods k) :=
  if_neg hn

/-! ### The grant (R130, R131) -/

theorem rodAt_modUnit {f : BeadUnit → BeadUnit} (hf : ∀ x, (f x).rods = x.rods) (s : State) (w u r : Nat) :
    (s.modUnit w f).rodAt u r = s.rodAt u r := by
  rw [modUnit_eq, rodAt_putUnit, hf]
  split_ifs with hu
  · rw [hu]; rfl
  · rfl

/-- A unit's turn passes to a core, whose partition's count of pickups advances. -/
def turned (s : State) (unit i p : Nat) : State :=
  s.modUnit unit fun u => { u with pkc := Map.put u.pkc p (Map.get u.pkc 0 p + 1), lastGrant := i }

/-- The access to a popped record counts at its home unit (R155). -/
def fetched (s : State) (b : SlotId) : State := s.modUnit b.unit fun y => y.hit [(s.slotAddr b).toNat / 4096]

/-- The machine when a unit's core has popped the head of a rod. -/
def popped (s : State) (i p : Nat) (b : SlotId) (rest : List Nat) (rod : Rod) : State :=
  ((s.turned b.unit i p).putRod b.unit b.rod { rod with ready := rest, buffered := rod.buffered - 1 }).fetched b

section Popped

variable (s : State) (i p : Nat) (b : SlotId) (rest : List Nat) (rod : Rod)

theorem rodAt_turned (unit u r : Nat) : (s.turned unit i p).rodAt u r = s.rodAt u r := by
  rw [turned, rodAt_modUnit]
  exact fun _ => rfl

theorem rodAt_fetched (u r : Nat) : (s.fetched b).rodAt u r = s.rodAt u r := by
  rw [fetched, rodAt_modUnit]
  exact fun _ => rfl

theorem popped_rest : s.popped i p b rest rod = { s with units := (s.popped i p b rest rod).units } := rfl

theorem rodChanged_popped :
    s.RodChanged (s.popped i p b rest rod) b.unit b.rod { rod with ready := rest, buffered := rod.buffered - 1 } := by
  have hput := rodChanged_putRod (s.turned b.unit i p) b.unit b.rod { rod with ready := rest, buffered := rod.buffered - 1 }
  exact ⟨(rodAt_fetched ..).trans hput.same,
    fun v q hne => (rodAt_fetched ..).trans ((hput.other v q hne).trans (rodAt_turned ..))⟩

theorem popped_turn : ((s.popped i p b rest rod).unitAt b.unit).lastGrant = i ∧
    ((s.popped i p b rest rod).unitAt b.unit).pkc =
      Map.put (s.unitAt b.unit).pkc p (Map.get (s.unitAt b.unit).pkc 0 p + 1) := by
  simp only [popped, fetched, putRod, turned, modUnit_eq, unitAt_putUnit_same]
  exact ⟨rfl, rfl⟩

end Popped

/-- The grant to the first requester after the previous one, at a rod that is not empty. -/
theorem pickupGrant_of_head {s : State} {unit i j k slot : Nat} {rest : List Nat} {rod : Rod} {y : BeadSlot}
    (hj : j < (unitCores unit).length) (hi : i = ((s.unitAt unit).lastGrant + 1 + j) % (unitCores unit).length)
    (hfirst : ∀ m, m < j → s.canPick ((unitCores unit).getD (((s.unitAt unit).lastGrant + 1 + m) % (unitCores unit).length) 420) = false)
    (hk : k = (unitCores unit).getD i 420) (hpick : s.canPick k = true)
    (hrod : s.rodAt unit (s.selectRod k (Map.get (s.unitAt unit).pkc 0 ((s.partOf k).getD 255)).toNat) = some rod)
    (hready : rod.ready = slot :: rest) (hy : Map.find? rod.slots slot = some y) :
    let r := s.selectRod k (Map.get (s.unitAt unit).pkc 0 ((s.partOf k).getD 255)).toNat
    let b : SlotId := { unit := unit, rod := r, slot := slot }
    let t := s.popped i ((s.partOf k).getD 255) b rest rod
    s.pickupGrant unit =
      (if worldFits rod y.record then t.pickup k b y.record else t.refusePop k b).push [.headBufferRefill unit r, .pickupGrant unit] := by
  intro r b t
  have hfind : ((List.range (unitCores unit).length).map fun m =>
      ((s.unitAt unit).lastGrant + 1 + m) % (unitCores unit).length).find?
        (fun i => s.canPick ((unitCores unit).getD i 420)) = some i := by
    have hm : (List.range (unitCores unit).length).find? ((fun i => s.canPick ((unitCores unit).getD i 420)) ∘ fun m =>
        ((s.unitAt unit).lastGrant + 1 + m) % (unitCores unit).length) = some j := by
      refine List.find?_range_eq_some.2 ⟨?_, List.mem_range.2 hj, fun m hm => ?_⟩
      · simp only [Function.comp, ← hi, ← hk, hpick]
      · simp only [Function.comp, hfirst m hm, Bool.not_false]
    rw [List.find?_map, hm, Option.map_some, ← hi]
  have hkeep (x : BeadUnit) (hx : x.rods = (s.unitAt unit).rods) (q : Nat) : (s.putUnit unit x).rodAt unit q = s.rodAt unit q := by
    rw [rodAt_putUnit, if_pos rfl, hx]; rfl
  have hfetch : Map.get rod.slots { record := {}, use := .ready } slot = y := by
    rw [Map.get, hy]; rfl
  subst hk
  simp only [pickupGrant, hfind, hkeep, hrod, hready, hfetch]
  rfl

/-! ### The core that takes the bead (R132) -/

end State

/-- A core at a pickup: the record's world, address and arguments, every other register at its reset value. -/
def Core.started (c : Core) (k : Nat) (b : SlotId) (x : BeadRec) (cyc : Word) : Core :=
  let fresh : Core := { Core.reset k with
    scb := c.scb, ent := c.ent, tlb := c.tlb, chkMiss := c.chkMiss, mode := .running, pc := x.code,
    bead := some b, spn := x.w3.setWidth 32, world := bitOf x.w3 33, wdFrom := cyc }
  ((((fresh.setS 1 x.arg0).setS 2 x.arg1).setS 3 x.arg2).setS 4 x.arg3).setS 5 x.frame

namespace State

section Started

variable (c : Core) (k : Nat) (b : SlotId) (x : BeadRec) (cyc : Word)

theorem started_args : (c.started k b x cyc).sReg 1 = x.arg0 ∧ (c.started k b x cyc).sReg 2 = x.arg1 ∧
    (c.started k b x cyc).sReg 3 = x.arg2 ∧ (c.started k b x cyc).sReg 4 = x.arg3 ∧ (c.started k b x cyc).sReg 5 = x.frame := by
  simp [Core.started, Core.sReg_setS]

theorem started_sReg {n : Nat} (hn : 6 ≤ n) : (c.started k b x cyc).sReg n = 0 := by
  have h (m : Nat) (hm : m < 6) : n ≠ m := by omega
  simp only [Core.started, Core.sReg_setS, h 0, h 1, h 2, h 3, h 4, h 5, Nat.reduceLT, if_false]
  simp only [Core.sReg, Core.reset, h 0, Nat.reduceLT, if_false]
  rfl

end Started

theorem armWatchdog_rest (s : State) (k : Nat) : s.armWatchdog k = { s with timers := (s.armWatchdog k).timers } := by
  unfold armWatchdog
  split <;> rfl

/-! ### What a pickup leaves (R132) -/

section Pickup

variable {t : State} {k : Nat} {b : SlotId} {rod : Rod} {y : BeadSlot}

/-- What a pickup changes beside its core: the slot's use, statistics of the tile, the watchdog. -/
theorem pickup_rest (hy : t.slotAt b = some y) : t.pickup k b y.record = { t with
    cores := (t.putCore k ((t.coreAt k).started k b y.record t.cyc)).cores
    units := (t.putSlot b { y with use := .running k }).units
    tiles := (t.pickup k b y.record).tiles, timers := (t.pickup k b y.record).timers } := by
  have hslot : (t.slotAt b).getD { record := y.record, use := .ready } = y := by rw [hy]; rfl
  simp only [pickup, hslot]
  split
  · rw [armWatchdog_rest, modTile_eq, putSlot_rest]; rfl
  · rw [armWatchdog_rest, putSlot_rest]; rfl

theorem pickup_cores (hy : t.slotAt b = some y) :
    (t.pickup k b y.record).cores = (t.putCore k ((t.coreAt k).started k b y.record t.cyc)).cores := by
  rw [pickup_rest hy]

theorem pickup_coreAt (hy : t.slotAt b = some y) (j : Nat) : (t.pickup k b y.record).coreAt j =
    if j = k then (t.coreAt k).started k b y.record t.cyc else t.coreAt j := by
  rw [← coreAt_putCore]
  exact congrArg (fun cs => (Map.find? cs j).getD (Core.reset j)) (pickup_cores hy)

theorem pickup_units (hy : t.slotAt b = some y) :
    (t.pickup k b y.record).units = (t.putSlot b { y with use := .running k }).units := by
  rw [pickup_rest hy]

theorem pickup_mem (hy : t.slotAt b = some y) : (t.pickup k b y.record).mem = t.mem := by rw [pickup_rest hy]
theorem pickup_gmeta (hy : t.slotAt b = some y) : (t.pickup k b y.record).gmeta = t.gmeta := by rw [pickup_rest hy]
theorem pickup_pend (hy : t.slotAt b = some y) : (t.pickup k b y.record).pend = t.pend := by rw [pickup_rest hy]

theorem putSlot_turn (t : State) (b : SlotId) (x : BeadSlot) (u : Nat) :
    ((t.putSlot b x).unitAt u).lastGrant = (t.unitAt u).lastGrant ∧ ((t.putSlot b x).unitAt u).pkc = (t.unitAt u).pkc := by
  unfold putSlot modRod
  split
  · rw [putRod, modUnit_eq, unitAt_putUnit]
    split_ifs with hu
    · rw [hu]; exact ⟨rfl, rfl⟩
    · exact ⟨rfl, rfl⟩
  · exact ⟨rfl, rfl⟩

end Pickup

/-! ### A record of the other world (R84) -/

theorem rodsKept_noteFailed (s : State) (i : Issuer) (va : Word) (n : Nat) (f : FaultInfo) : s.RodsKept (s.noteFailed i va n f) :=
  .of_units_eq (by rw [noteFailed_rest])

theorem rodsKept_counted (s : State) (i : Issuer) (va : Word) : s.RodsKept ((s.countWalked i va).countAt i va) :=
  .of_units_eq (by rw [countAt_rest, countWalked_rest])

theorem rodsKept_areaTried (s : State) (i : Issuer) (area : Word) : s.RodsKept (s.areaTried i area) := by
  unfold areaTried
  split
  · exact rodsKept_noteFailed ..
  · simp only
    split
    · exact rodsKept_counted ..
    · exact (rodsKept_counted ..).trans (rodsKept_noteFailed ..)
    · exact rodsKept_counted ..

theorem rodsKept_stewardRecord (s : State) (die : Nat) (ws : List Word) : s.RodsKept (s.stewardRecord die ws).1 := by
  unfold stewardRecord
  simp only
  split
  · exact .refl s
  · exact ((RodsKept.of_units_eq (by rw [countUnit_rest])).trans (rodsKept_writeAt ..)).trans (rodsKept_writeAt ..)

theorem rodsKept_post (s : State) (die kind : Nat) (part : Option Nat) (rod id : Nat) : s.RodsKept (s.post die kind part rod id) :=
  .of_units_eq rfl

theorem rodsKept_tellSteward (s : State) (die kind : Nat) (part : Option Nat) (ws : List Word) :
    s.RodsKept (s.tellSteward die kind part ws).1 := by
  unfold tellSteward
  simp only
  split <;> exact (rodsKept_stewardRecord s die ws).trans (rodsKept_post ..)

theorem rodsKept_areaWrite {s : State} {i : Issuer} {area : Word} {ws : List Word} {r : State × Word}
    (h : s.areaWrite i area ws = some r) : s.RodsKept r.1 := by
  have hfill (va : Word) (ps hs : List (Nat × Nat)) (head : Nat) : s.RodsKept (s.areaFill i area va ps hs ws head) :=
    ((RodsKept.of_units_eq (by rw [countWalked_rest, countAt_rest, countWalked_rest])).trans (rodsKept_fillPieces ..)).trans
      (rodsKept_fillPieces ..)
  unfold areaWrite at h
  split at h
  · cases h
  · simp only at h
    split at h
    · cases h
    · split at h
      · cases h; exact hfill ..
      · cases h

theorem rodsKept_partRecord (s : State) (p : Nat) (ws : List Word) : s.RodsKept (s.partRecord p ws).1 := by
  unfold partRecord
  split
  · exact rodsKept_tellSteward ..
  case h_2 x hx =>
    have hnote : s.RodsKept (s.putPart p { x with recorded := true }) := .of_units_eq rfl
    simp only
    split
    case h_1 r hr => exact hnote.trans (rodsKept_areaWrite hr)
    case h_2 => exact (hnote.trans (rodsKept_areaTried ..)).trans (rodsKept_tellSteward ..)

theorem rodsKept_fileRecord (s : State) (k : Nat) (ws : List Word) : s.RodsKept (s.fileRecord k ws).1 := by
  unfold fileRecord
  split
  · split
    · exact rodsKept_partRecord ..
    · exact rodsKept_tellSteward ..
  · split
    · simp only
      split
      case h_1 r hr => exact rodsKept_areaWrite hr
      case h_2 => exact (rodsKept_areaTried ..).trans (rodsKept_tellSteward ..)
    · exact rodsKept_tellSteward ..

/-- Where the record of committed work of a core goes (R367): to its own area, to the partition's, to the steward. -/
theorem workRecord_goes (s : State) (core : Nat) (part : Option Nat) (bead : Word) (f : FaultInfo) : ∃ ws,
    s.workRecord core part bead f = (s.fileRecord core ws).1 ∨ (∃ p, s.workRecord core part bead f = (s.partRecord p ws).1) ∨
      s.workRecord core part bead f = (s.tellSteward (dieOf core) 3 none ws).1 := by
  unfold workRecord
  simp only
  split
  · exact ⟨_, .inl rfl⟩
  · split
    · exact ⟨_, .inr (.inl ⟨_, rfl⟩)⟩
    · exact ⟨_, .inr (.inr rfl)⟩

theorem rodsKept_workRecord (s : State) (core : Nat) (part : Option Nat) (bead : Word) (f : FaultInfo) :
    s.RodsKept (s.workRecord core part bead f) := by
  obtain ⟨ws, h | ⟨p, h⟩ | h⟩ := s.workRecord_goes core part bead f <;> rw [h]
  · exact rodsKept_fileRecord ..
  · exact rodsKept_partRecord ..
  · exact rodsKept_tellSteward ..

theorem filed_workRecord (s : State) (core : Nat) (part : Option Nat) (bead : Word) (f : FaultInfo) :
    Filed s (s.workRecord core part bead f) := by
  obtain ⟨ws, h | ⟨p, h⟩ | h⟩ := s.workRecord_goes core part bead f <;> rw [h]
  · exact filed_fileRecord ..
  · exact filed_partRecord ..
  · exact filed_tellSteward ..

/-- A popped record of the other world: its slot is lost, no core changes, and the rods stand (R84). -/
theorem refusePop_leaves {t : State} {b : SlotId} {y : BeadSlot} (hy : t.slotAt b = some y) (k : Nat) :
    (t.refusePop k b).cores = t.cores ∧ (t.putSlot b { y with use := .lost }).RodsKept (t.refusePop k b) := by
  simp only [refusePop, hy]
  refine ⟨(filed_workRecord ..).cores.trans (by rw [putSlot_rest]), ?_⟩
  exact (rodsKept_workRecord ..).trans (.of_units_eq rfl)

end State

open State

theorem exec_pickupGrant {s : State} {unit : Nat} (hm : s.msg = some (.pickupGrant unit)) :
    exec .pickupGrant s = .next (s.pickupGrant unit) := by
  change execPickupGrant s = _
  rw [execPickupGrant, hm]

theorem exec_headBufferRefill {s : State} {unit rod : Nat} (hm : s.msg = some (.headBufferRefill unit rod)) :
    exec .headBufferRefill s = .next (s.headBufferRefill unit rod) := by
  change execHeadBufferRefill s = _
  rw [execHeadBufferRefill, hm]

/-- Settles O39: the rod that SelectRod gives, the core that starts clean, and the pop that starts no run. -/
theorem pickup : Obligations.Pickup := by
  unfold Obligations.Pickup
  intro s unit i j k r slot rest rod y ks u at_ pkc b hj hi hfirst hk hpick hr hrod hready hy
  have hmem : k ∈ unitCores unit := by
    rw [hk, List.getD_eq_getElem _ _ (hi ▸ Nat.mod_lt _ (by omega))]
    exact List.getElem_mem _
  have hunit : unitOf k = unit := unitOf_of_mem_unitCores hmem
  have hgrant := pickupGrant_of_head hj hi hfirst hk hpick (hr ▸ hrod) hready hy
  simp only at hgrant
  rw [← hr] at hgrant
  have hpop := rodChanged_popped s i ((s.partOf k).getD 255) b rest rod
  have hslot : (s.popped i ((s.partOf k).getD 255) b rest rod).slotAt b = some y := (slotAt_of_rodAt hpop.same).trans hy
  have hturn := popped_turn s i ((s.partOf k).getD 255) b rest rod
  have hrest := popped_rest s i ((s.partOf k).getD 255) b rest rod
  refine ⟨fun hn q hq => hr ▸ selectRod_last hn q hq, fun hn q hq z hz => ?best, fun hw => ?runs, fun hw => ?refused, ?refill⟩
  case best =>
    have hleast := bestRod_least s unit (s.candRods_sorted k) q hq
    have hbest : s.bestRod unit (s.candRods k) = r := by rw [hr, selectRod_best hn, hunit]
    simpa only [hbest, rodPrio, hrod, hz] using hleast
  case runs =>
    rw [if_pos hw] at hgrant
    have hcore : ∀ j, (s.popped i ((s.partOf k).getD 255) b rest rod).coreAt j = s.coreAt j := fun j => by rw [hrest]; rfl
    have hpend : (s.popped i ((s.partOf k).getD 255) b rest rod).pend = s.pend := by rw [hrest]
    have hmem : (s.popped i ((s.partOf k).getD 255) b rest rod).mem = s.mem := by rw [hrest]
    have hgmeta : (s.popped i ((s.partOf k).getD 255) b rest rod).gmeta = s.gmeta := by rw [hrest]
    refine performs_of_exec (fun hm => (exec_pickupGrant hm).trans (congrArg _ hgrant)) ?_
    generalize s.popped i ((s.partOf k).getD 255) b rest rod = t at *
    have hrun := rodChanged_putSlot hpop.same { y with use := .running k }
    have hunits := pickup_units (k := k) hslot
    obtain ⟨hgrantee, hcount⟩ := putSlot_turn t b { y with use := .running k } unit
    have hat : (t.pickup k b y.record).unitAt unit = (t.putSlot b { y with use := .running k }).unitAt unit := by
      rw [unitAt_of_units_eq hunits]
    intro c
    obtain ⟨h1, h2, h3, h4, h5⟩ := started_args (t.coreAt k) k b y.record t.cyc
    have hc : c = (t.coreAt k).started k b y.record t.cyc :=
      (coreAt_push ..).trans ((pickup_coreAt hslot k).trans (if_pos rfl))
    rw [hc]
    refine ⟨rfl, rfl, rfl, rfl, rfl, h1, h2, h3, h4, h5, fun n hn => started_sReg _ _ _ _ _ hn, fun _ => rfl, fun _ => rfl,
      fun _ => rfl, fun _ => rfl, rfl, rfl, rfl, ?_, ?_, ?_, ?_, ?_, fun m hm => ?_, sameMemory_of_eq ?_ ?_⟩
    · rw [slotAt_push, slotAt_of_units_eq hunits, hrun.slotAt_put hpop.same rfl, if_pos rfl]
    · rw [rodAt_push, rodAt_of_units_eq hunits, hrun.same, Option.map_some]
    · rw [unitAt_push, hat, hgrantee, hturn.1]
    · rw [unitAt_push, hat, hcount, hturn.2, Map.get_put, if_pos rfl]
    · rw [push_pend, pickup_pend hslot, hpend]
    · rw [coreAt_push, pickup_coreAt hslot, if_neg hm, hcore]
    · rw [push_mem, pickup_mem hslot, hmem]
    · rw [push_gmeta, pickup_gmeta hslot, hgmeta]
  case refused =>
    rw [hw, if_neg Bool.false_ne_true] at hgrant
    refine performs_of_exec (fun hm => (exec_pickupGrant hm).trans (congrArg _ hgrant)) ?_
    obtain ⟨hcores, hkept⟩ := refusePop_leaves hslot k
    have hlost := rodChanged_putSlot hpop.same { y with use := .lost }
    refine ⟨hcores.trans (by rw [hrest]), ?_, ?_⟩
    · exact hkept.use (by rw [hlost.slotAt_put hpop.same rfl, if_pos rfl])
    · exact hkept.ready hlost.same
  case refill =>
    have hrefill := rodChanged_modRod (fun r : Rod =>
      { r with buffered := if r.buffered < min 4 r.ready.length then r.buffered + 1 else r.buffered }) hrod
    refine performs_of_exec exec_headBufferRefill ⟨hrefill.same, ?_, sameMemory_of_eq ?_ ?_⟩ <;>
      rw [headBufferRefill, modRod_rest]

end Sys2Proof.Machine
end

