-- ==== Sys2Proof/Proofs/Arbiter.lean ====
section
/-! Launches at the arbiter: refusals, launches that wait, the host's command, indirect records and retries (R54, R55, R72-R76). -/

namespace Sys2Proof.Machine

open Sys2Proof

namespace State

/-! ### The outcome of a launch reaches its completion target (R69, R141) -/

theorem filed_fillFault (s : State) (o : Origin) (f : FaultInfo) : Filed s (s.fillFault o f) := by
  unfold fillFault
  simp only
  split
  · exact filed_workRecord ..
  · exact filed_tellSteward ..

/-- What the arbiter keeps while it writes a completion record: its launches, their numbers and the host's port. -/
structure ArbiterKept (s t : State) : Prop where
  launches : t.launches = s.launches
  nextLaunch : t.nextLaunch = s.nextLaunch
  host : t.host = s.host

theorem ArbiterKept.trans {s t u : State} (h : s.ArbiterKept t) (g : t.ArbiterKept u) : s.ArbiterKept u :=
  ⟨g.launches.trans h.launches, g.nextLaunch.trans h.nextLaunch, g.host.trans h.host⟩

theorem arbiterKept_fillFault (s : State) (o : Origin) (f : FaultInfo) : s.ArbiterKept (s.fillFault o f) := by
  constructor <;> rw [(filed_fillFault s o f).rest]

theorem arbiterKept_noteFailed (s : State) (i : Issuer) (va : Word) (n : Nat) (f : FaultInfo) :
    s.ArbiterKept (s.noteFailed i va n f) := by
  constructor <;> rw [noteFailed_rest]

theorem arbiterKept_noteTlb (s : State) (i : Issuer) (va : Word) : s.ArbiterKept (s.noteTlb i va) := by
  constructor <;> rw [noteTlb_rest]

theorem arbiterKept_spanWrite (s : State) (loc : Nat) (bs : List Byte) : s.ArbiterKept (s.spanWrite loc bs) := by
  constructor <;> rw [spanWrite_rest]

theorem arbiterKept_noteWrite (s : State) (g : Nat) (f : Bool) : s.ArbiterKept (s.noteWrite g f) := by
  constructor <;> rw [noteWrite_rest]

/-- What a completion record in memory becomes: w1 to w3, then w0 filled as STF fills a cell. -/
def filledRecord (s : State) (o : Origin) (loc stat : Nat) (enk cyc : Word) : State :=
  ((s.noteTlb o.issuer o.cr).spanWrite (s.placeFrom loc 8) (bytesOfWords [enk, cyc, 0])).fillCell loc
    (BitVec.ofNat 64 (stat * 2 ^ 48 + 2 ^ 32)) true

section Fill

variable {s : State} {o : Origin} (stat : Nat) (enk cyc : Word)

theorem fillRecord_of_none (h : o.cr = 0) : s.fillRecord o stat enk cyc = s := if_pos h

theorem fillRecord_of_fault {f : FaultInfo} (h : o.cr ≠ 0) (hp : s.probe o.issuer o.cr 32 32 = .error f) :
    s.fillRecord o stat enk cyc = (s.noteFailed o.issuer o.cr 32 f).fillFault o f := by
  simp only [fillRecord, h, hp, if_false]

theorem fillRecord_of_place {loc : Nat} (h : o.cr ≠ 0) (hp : s.probe o.issuer o.cr 32 32 = .ok loc) :
    s.fillRecord o stat enk cyc = s.filledRecord o loc stat enk cyc := by
  simp only [fillRecord, h, hp, if_false]; rfl

end Fill

theorem arbiterKept_fillRecord (s : State) (o : Origin) (stat : Nat) (enk cyc : Word) : s.ArbiterKept (s.fillRecord o stat enk cyc) := by
  by_cases h : o.cr = 0
  · rw [fillRecord_of_none _ _ _ h]
    exact ⟨rfl, rfl, rfl⟩
  · cases hp : s.probe o.issuer o.cr 32 32 with
    | error f =>
      rw [fillRecord_of_fault _ _ _ h hp]
      exact (arbiterKept_noteFailed ..).trans (arbiterKept_fillFault ..)
    | ok loc =>
      rw [fillRecord_of_place _ _ _ h hp]
      exact (((arbiterKept_noteTlb ..).trans (arbiterKept_spanWrite ..)).trans (arbiterKept_spanWrite ..)).trans
        (arbiterKept_noteWrite ..)

theorem postLaunch_launches (s : State) (b : Launcher) (stat : Nat) (enk cyc : Word) :
    (s.postLaunch b stat enk cyc).launches = s.launches := by
  cases b with
  | host ctag => rfl
  | bead o => exact (arbiterKept_fillRecord ..).launches

theorem hostNext_launches (s : State) : s.hostNext.launches = s.launches := by rw [hostNext_rest]
theorem hostNext_nextLaunch (s : State) : s.hostNext.nextLaunch = s.nextLaunch := by rw [hostNext_rest]
theorem hostNext_held (s : State) : s.hostNext.host.held = s.host.held := by rw [hostNext_rest]

/-! ### Refusals (R54, R55, R74) -/

theorem refuseLaunch_launches (s : State) (l : Launch) (stat : Nat) :
    (s.refuseLaunch l stat).launches = s.launches.filter fun m => m.id != l.id := by
  simp only [refuseLaunch, hostNext_launches, push_launches, postLaunch_launches]
  rfl

/-- A launch of the host is refused: it leaves the arbiter with a completion; no other launch comes or goes. -/
def HostRefused (s u : State) (id stat : Nat) (ctag : BitVec 32) : Prop :=
  (∀ m ∈ u.launches, m ∈ s.launches ∧ m.id ≠ id) ∧
    u.host.held = s.host.held ++ [{ stat := stat, ctag := ctag, enk := 0, cyc := 0 }]

theorem hostRefused_refuseLaunch {s t : State} {l : Launch} {id : Nat} {ctag : BitVec 32} (stat : Nat) (hby : l.by_ = .host ctag)
    (hid : l.id = id) (hl : ∀ m ∈ t.launches, m.id ≠ id → m ∈ s.launches) (hh : t.host = s.host) :
    s.HostRefused (t.refuseLaunch l stat) id stat ctag := by
  refine ⟨fun m hm => ?_, ?_⟩
  · rw [refuseLaunch_launches] at hm
    obtain ⟨hin, hne⟩ := List.mem_filter.1 hm
    have hne' : m.id ≠ id := by simpa [hid] using hne
    exact ⟨hl m hin hne', hne'⟩
  · rw [refuseLaunch, hostNext_held, hby, ← hh]; rfl

/-! ### A shape becomes known (R72, R74) -/

theorem neverFits_congr {s t : State} (h : t.tiles = s.tiles) (w ht : Nat) : t.neverFits w ht = s.neverFits w ht := by
  have htile (k : Nat) : t.tileAt k = s.tileAt k := by unfold tileAt; rw [h]
  simp only [neverFits, htile]

/-- A launch waits for a rectangle, and the arbiter tries again. -/
def LaunchWaits (u : State) (id : Nat) (b : Launcher) (kd : List Word) (w h : Nat) : Prop :=
  ∃ m ∈ u.launches, m.id = id ∧ m.by_ = b ∧ m.kd = kd ∧ m.w = w ∧ m.h = h ∧ m.ready = true ∧ Ev.launchRetry ∈ u.pend

section Shape

variable {s : State} {l : Launch} {w h : Nat} {sh : Word}

theorem shapeKnown_of_neverFits (hn : s.neverFits w h = true) : s.shapeKnown l w h sh = s.refuseLaunch l 4 := if_pos hn

theorem shapeKnown_of_fits (hn : s.neverFits w h = false) : s.shapeKnown l w h sh =
    (s.modLaunch l.id fun x => { x with w := w, h := h, tshape := sh, ready := true }).push [.launchRetry] :=
  if_neg (by simp [hn])

theorem shapeKnown_waits (hn : s.neverFits w h = false) (hl : l ∈ s.launches) :
    (s.shapeKnown l w h sh).LaunchWaits l.id l.by_ l.kd w h := by
  rw [shapeKnown_of_fits hn]
  exact ⟨_, List.mem_map.2 ⟨l, hl, if_pos rfl⟩, rfl, rfl, rfl, rfl, rfl, rfl,
    List.mem_append_right _ (List.mem_singleton_self _)⟩

theorem shapeKnown_rest (hn : s.neverFits w h = false) : s.shapeKnown l w h sh =
    { s with launches := (s.shapeKnown l w h sh).launches, pend := s.pend ++ [.launchRetry] } := by
  rw [shapeKnown_of_fits hn]; rfl

end Shape

/-! ### A launch arrives (R72) -/

/-- The next launch has taken its number. -/
def numbered (s : State) : State := { s with nextLaunch := s.nextLaunch + 1 }

/-- A launch as it arrives. -/
def offered (s : State) (b : Launcher) (st : LaunchStream) (ws : List Word) : Launch :=
  { id := s.nextLaunch, by_ := b, stream := st, kd := ws }

/-- The launch stands at the arbiter. -/
def queued (s : State) (b : Launcher) (st : LaunchStream) (ws : List Word) : State :=
  { s.numbered with launches := s.launches ++ [s.offered b st ws] }

section Offer

variable {s : State} {b : Launcher} {st : LaunchStream} {ws : List Word} {ctag : BitVec 32}

theorem offerLaunch_of_unread : s.offerLaunch b st none = s.numbered.refuseLaunch (s.offered b st []) 7 := rfl

theorem offerLaunch_of_secure (hs : Kd.secure ws = true) :
    s.offerLaunch (.host ctag) st (some ws) = s.numbered.refuseLaunch (s.offered (.host ctag) st ws) 3 := by
  simp only [offerLaunch, hs, Bool.and_self, if_true]; rfl

/-- The host launches no secure descriptor (R55). -/
def Allowed (b : Launcher) (ws : List Word) : Prop := ∀ ctag, b = .host ctag → Kd.secure ws = false

/-- Past the host's own check, any launcher's descriptor takes one way. -/
theorem offerLaunch_of_allowed (ha : Allowed b ws) : s.offerLaunch b st (some ws) =
    if !kdOk ws (launcherSecure b) then s.numbered.refuseLaunch (s.offered b st ws) 2
    else if Kd.indirect ws then
      (s.queued b st ws).push [if Kd.eager ws then .indirectRecordRead s.nextLaunch else .launchRetry]
    else (s.queued b st ws).shapeKnown (s.offered b st ws) (fld (wd ws 2) 0 5) (fld (wd ws 2) 8 5) (wd ws 3) := by
  cases b with
  | host ctag => simp only [offerLaunch, ha ctag rfl, Bool.and_false, Bool.false_eq_true, if_false]; rfl
  | bead o => rfl

theorem offerLaunch_of_broken (ha : Allowed b ws) (hk : kdOk ws (launcherSecure b) = false) :
    s.offerLaunch b st (some ws) = s.numbered.refuseLaunch (s.offered b st ws) 2 := by
  rw [offerLaunch_of_allowed ha, hk]; rfl

theorem offerLaunch_of_direct (ha : Allowed b ws) (hk : kdOk ws (launcherSecure b) = true) (hi : Kd.indirect ws = false) :
    s.offerLaunch b st (some ws) =
      (s.queued b st ws).shapeKnown (s.offered b st ws) (fld (wd ws 2) 0 5) (fld (wd ws 2) 8 5) (wd ws 3) := by
  rw [offerLaunch_of_allowed ha, hk, hi]; rfl

theorem offered_mem_queued : s.offered b st ws ∈ (s.queued b st ws).launches :=
  List.mem_append_right _ (List.mem_singleton_self _)

theorem queued_launches : ∀ m ∈ (s.queued b st ws).launches, m.id ≠ (s.offered b st ws).id → m ∈ s.launches := fun m hm hne => by
  rcases List.mem_append.1 hm with hm | hm
  · exact hm
  · exact absurd (congrArg Launch.id (List.mem_singleton.1 hm)) hne

end Offer

/-! ### A descriptor is one access (R54, R150) -/

theorem readKd_eq_ok_iff (s : State) (i : Issuer) (kd : Word) (bs : List Byte) : s.readKd i kd = .ok bs ↔
    s.regionKey i (padd kd 64) = s.regionKey i kd ∧
      bothLines (s.readPlace i kd 64) (s.readPlace i (padd kd 64) 64) = .ok bs := by
  by_cases h : s.regionKey i (padd kd 64) = s.regionKey i kd <;> simp [readKd, h]

/-! ### The host's command (R72, R73) -/

section Host

variable {s : State} {ctag : BitVec 32} {kd : Word}

theorem hostLaunchCommand_of_misaligned (h : kd.toNat % 64 ≠ 0) : s.hostLaunchCommand ctag kd =
    (s.numbered.complete { stat := 2, ctag := ctag, enk := 0, cyc := 0 }).hostNext := if_pos h

theorem hostLaunchCommand_of_unread {f : FaultInfo} (h : kd.toNat % 64 = 0) (hr : s.readKd hostIssuer kd = .error f) :
    s.hostLaunchCommand ctag kd = (s.noteFailed hostIssuer kd 128 f).offerLaunch (.host ctag) .host none := by
  simp only [hostLaunchCommand, h, hr, ne_eq, not_true_eq_false, if_false]

theorem hostLaunchCommand_of_read {bs : List Byte} (h : kd.toNat % 64 = 0) (hr : s.readKd hostIssuer kd = .ok bs) :
    s.hostLaunchCommand ctag kd = (s.noteRange hostIssuer kd 128).offerLaunch (.host ctag) .host (some (wordsOf 16 bs)) := by
  simp only [hostLaunchCommand, h, hr, ne_eq, not_true_eq_false, if_false]

end Host

/-! ### An indirect record (R75) -/

section Indirect

variable {s : State} {id : Nat} {l : Launch} {ctag : BitVec 32} {bs : List Byte}
  (hl : (s.launches.find? fun m => m.id == id && !m.ready) = some l) (hby : l.by_ = .host ctag)
  (hr : s.readPlace hostIssuer (wd l.kd 4) 16 = .ok bs)

include hl hby hr

theorem indirectRecordRead_of_read : s.indirectRecordRead id =
    if wd (wordsOf 2 bs) 0 = 0 ∧ wd (wordsOf 2 bs) 1 = 0 then (s.noteRange hostIssuer (wd l.kd 4) 16).refuseLaunch l 0
    else if fld (wd (wordsOf 2 bs) 0) 13 51 ≠ 0 ∨ fld (wd (wordsOf 2 bs) 0) 5 3 ≠ 0 ∨
      !shapeOk (fld (wd (wordsOf 2 bs) 0) 0 5) (fld (wd (wordsOf 2 bs) 0) 8 5) (wd (wordsOf 2 bs) 1) then
        (s.noteRange hostIssuer (wd l.kd 4) 16).refuseLaunch l 2
    else (s.noteRange hostIssuer (wd l.kd 4) 16).shapeKnown l (fld (wd (wordsOf 2 bs) 0) 0 5) (fld (wd (wordsOf 2 bs) 0) 8 5)
      (wd (wordsOf 2 bs) 1) := by
  simp only [indirectRecordRead, hl, hby, launcherIssuer, hr]

end Indirect

/-! ### Retries (R76) -/

section Retry

variable {s : State} {l : Launch}

theorem launchRetry_of_due (h : (s.launches.find? fun l => !l.ready && !s.streamBusy l) = some l) :
    s.launchRetry = s.push [.indirectRecordRead l.id, .launchRetry] := by
  simp only [launchRetry, h]

variable (hnone : (s.launches.find? fun l => !l.ready && !s.streamBusy l) = none)

include hnone

theorem launchRetry_of_fitting (h : (s.launches.find? fun l => l.ready && !s.waitsBehind l && s.canPlace l) = some l) :
    s.launchRetry = s.push [.kernelPlacement l.id] := by
  simp only [launchRetry, hnone, h]

theorem launchRetry_of_waiting (h : (s.launches.find? fun l => l.ready && !s.waitsBehind l && s.canPlace l) = none) :
    s.launchRetry = s := by
  simp only [launchRetry, hnone, h]

end Retry

/-! ### What the host's commands come to -/

/-- The arbiter has read at a home address: home units' counts alone have changed (R155). -/
structure HomeRead (s t : State) : Prop where
  launches : t.launches = s.launches
  nextLaunch : t.nextLaunch = s.nextLaunch
  host : t.host = s.host
  tiles : t.tiles = s.tiles
  mem : t.mem = s.mem
  gmeta : t.gmeta = s.gmeta
  cores : t.cores = s.cores

theorem homeRead_noteRange (s : State) (va : Word) (n : Nat) : HomeRead s (s.noteRange hostIssuer va n) := by
  constructor <;> rw [noteRange_of_steward va n rfl]

theorem homeRead_noteFailed (s : State) (va : Word) (n : Nat) (f : FaultInfo) : HomeRead s (s.noteFailed hostIssuer va n f) := by
  constructor <;> rw [noteFailed_rest]

namespace HomeRead

variable {s t : State} (ht : HomeRead s t) {ctag : BitVec 32} {ws : List Word} {w h : Nat} {sh : Word}

include ht

/-- A descriptor is refused as it arrives (R55, R72). -/
theorem refuses (stat : Nat) : s.HostRefused (t.numbered.refuseLaunch (t.offered (.host ctag) .host ws) stat) s.nextLaunch stat ctag :=
  hostRefused_refuseLaunch stat rfl ht.nextLaunch (fun _ hm _ => ht.launches ▸ hm) ht.host

theorem queued_neverFits : (t.queued (.host ctag) .host ws).neverFits w h = s.neverFits w h := neverFits_congr ht.tiles w h

/-- A direct launch that no rectangle could ever take (R74). -/
theorem refuses_misfit (hn : s.neverFits w h = true) : s.HostRefused
    ((t.queued (.host ctag) .host ws).shapeKnown (t.offered (.host ctag) .host ws) w h sh) s.nextLaunch 4 ctag := by
  rw [shapeKnown_of_neverFits (ht.queued_neverFits.trans hn)]
  exact hostRefused_refuseLaunch 4 rfl ht.nextLaunch
    (fun m hm hne => ht.launches ▸ queued_launches m hm (by rwa [← ht.nextLaunch] at hne)) ht.host

theorem waits_direct (hn : s.neverFits w h = false) :
    let u := (t.queued (.host ctag) .host ws).shapeKnown (t.offered (.host ctag) .host ws) w h sh
    u.LaunchWaits s.nextLaunch (.host ctag) ws w h ∧ SameMemory s u ∧ u.cores = s.cores := by
  have hfits := ht.queued_neverFits (ctag := ctag) (ws := ws) |>.trans hn
  have hwaits := shapeKnown_waits (sh := sh) hfits offered_mem_queued
  have hid : (t.offered (.host ctag) .host ws).id = s.nextLaunch := ht.nextLaunch
  rw [hid] at hwaits
  refine ⟨hwaits, sameMemory_of_eq ?_ ?_, ?_⟩ <;> rw [shapeKnown_rest hfits]
  · exact ht.mem
  · exact ht.gmeta
  · exact ht.cores

variable {l : Launch} {id : Nat} (hby : l.by_ = .host ctag) (hid : l.id = id)

include hby hid

/-- A launch is refused once its record has been read (R54, R55). -/
theorem refuses_record (stat : Nat) : s.HostRefused (t.refuseLaunch l stat) id stat ctag :=
  hostRefused_refuseLaunch stat hby hid (fun _ hm _ => ht.launches ▸ hm) ht.host

theorem refuses_record_misfit (hn : s.neverFits w h = true) : s.HostRefused (t.shapeKnown l w h sh) id 4 ctag := by
  rw [shapeKnown_of_neverFits ((neverFits_congr ht.tiles w h).trans hn)]
  exact ht.refuses_record hby hid 4

theorem waits_record (hl : l ∈ s.launches) (hn : s.neverFits w h = false) :
    (t.shapeKnown l w h sh).LaunchWaits id (.host ctag) l.kd w h ∧ SameMemory s (t.shapeKnown l w h sh) ∧
      (t.shapeKnown l w h sh).cores = s.cores := by
  have hfits := (neverFits_congr ht.tiles w h).trans hn
  have hwaits := shapeKnown_waits (sh := sh) hfits (ht.launches ▸ hl)
  rw [hid, hby] at hwaits
  refine ⟨hwaits, sameMemory_of_eq ?_ ?_, ?_⟩ <;> rw [shapeKnown_rest hfits]
  · exact ht.mem
  · exact ht.gmeta
  · exact ht.cores

end HomeRead

end State

open State

theorem exec_hostLaunchCommand {s : State} {ctag : BitVec 32} {kd : Word} (hm : s.msg = some (.hostLaunchCommand ctag kd)) :
    exec .hostLaunchCommand s = .next (s.hostLaunchCommand ctag kd) := by
  change execHostLaunchCommand s = _
  rw [execHostLaunchCommand, hm]

theorem exec_indirectRecordRead {s : State} {id : Nat} (hm : s.msg = some (.indirectRecordRead id)) :
    exec .indirectRecordRead s = .next (s.indirectRecordRead id) := by
  change execIndirectRecordRead s = _
  rw [execIndirectRecordRead, hm]

theorem exec_launchRetry {s : State} (hm : s.msg = some .launchRetry) : exec .launchRetry s = .next s.launchRetry := by
  change execLaunchRetry s = _
  rw [execLaunchRetry, hm]

end Sys2Proof.Machine
end

