-- ==== Sys2Proof/Proofs/Launches.lean ====
section
/-! The LAUNCH instruction: its checks, its commit, and the completion record that a refusal fills (R141). -/

namespace Sys2Proof.Machine

open Sys2Proof

namespace State

/-! ### Two writes, one after the other -/

/-- The parts of pieces that lie apart lie apart. -/
theorem Apart.sublist {s : State} {ps qs : List (Nat × Nat)} (h : s.Apart qs) (hs : ps.Sublist qs) : s.Apart ps := by
  rcases h with ⟨q, rfl, hq⟩ | ⟨hpair, hmoves⟩
  · cases ps with
    | nil => exact .inr ⟨.nil, .inr (by simp)⟩
    | cons p ps =>
      have hlen := hs.length_le
      obtain rfl : ps = [] := List.length_eq_zero_iff.1 (by simpa using hlen)
      obtain rfl : p = q := by simpa using hs.subset (List.mem_cons_self ..)
      exact .inl ⟨p, rfl, hq⟩
  · exact .inr ⟨hpair.sublist hs, hmoves.imp_right fun h p hp => h p (hs.subset hp)⟩

/-- A piece is stored to by none of the pieces that it lies apart from. -/
theorem Apart.not_stores {s : State} {ps qs : List (Nat × Nat)} (h : s.Apart (ps ++ qs)) {p q : Nat × Nat} (hp : p ∈ ps)
    (hq : q ∈ qs) {a : Nat} (ha : q.1 ≤ a ∧ a < q.1 + q.2) : ¬ s.Stores p.1 p.2 a := by
  rcases h with ⟨r, hr, -⟩ | ⟨hpair, hmoves⟩
  · have hlen := congrArg List.length hr
    have := List.length_pos_of_mem hp
    have := List.length_pos_of_mem hq
    simp at hlen; omega
  · refine not_stores_of_apart ((List.pairwise_append.1 hpair).2.2 p hp q hq).symm ?_ ha
    exact hmoves.imp_right fun h => ⟨h q (List.mem_append_right _ hq), (h p (List.mem_append_left _ hp)).1⟩

/-- The second write leaves what the first has written where they lie apart. -/
theorem holds_append {s t u : State} {ps qs : List (Nat × Nat)} {as bs : List Byte} (h1 : s.Holds qs bs t) (h2 : t.Holds ps as u)
    (hv : t.moves = s.moves) : s.Holds (ps ++ qs) (as ++ bs) u := by
  have hstores (p : Nat × Nat) (y : Nat) : t.Stores p.1 p.2 y ↔ s.Stores p.1 p.2 y := by simp only [Stores, hv]
  obtain ⟨hrest1, hown1⟩ := h1
  obtain ⟨hrest2, hown2⟩ := h2
  refine ⟨fun y hy => ?_, fun ha => ?_⟩
  · rw [hrest2 y fun p hp => (hstores p y).not.2 (hy p (List.mem_append_left _ hp)),
      hrest1 y fun q hq => hy q (List.mem_append_right _ hq)]
  · have hfirst : u.bytesIn ps = as := hown2 (by
      have := ha.sublist (List.sublist_append_left ps qs)
      simpa only [Apart, hv] using this)
    have hkept : u.bytesIn qs = t.bytesIn qs := List.flatMap_congr fun q hq => bytes_congr _ _ fun a hlo hhi =>
      hrest2 a fun p hp => (hstores p a).not.2 (ha.not_stores hp hq ⟨hlo, hhi⟩)
    rw [bytesIn, List.flatMap_append]
    exact congrArg₂ (· ++ ·) hfirst (hkept.trans (hown1 (ha.sublist (List.sublist_append_right ps qs))))

/-! ### The completion record (R69, R141) -/

theorem placeFrom_congr {s t : State} (h : t.sys = s.sys) (loc o : Nat) : t.placeFrom loc o = s.placeFrom loc o := by
  cases s; cases t
  dsimp only at h
  subst h
  rfl

/-- The record is filled: w0 holds STAT and P, the rest is 0, F is set (R69, R141). -/
theorem filledRecord_fills (s : State) (o : Origin) (loc : Nat) {stat : Nat} (hstat : stat < 256) :
    s.Holds (s.runsFrom loc 8 ++ s.runsFrom (s.placeFrom loc 8) 24)
        (leBytes 8 (stat * 2 ^ 48 + 2 ^ 32) ++ List.replicate 24 0) (s.filledRecord o loc stat 0 0) ∧
      metaF ((s.filledRecord o loc stat 0 0).metaAt (loc / 32)) = true := by
  have hzero : bytesOfWords [0, 0, 0] = List.replicate 24 0 := by decide
  have hword : (BitVec.ofNat 64 (stat * 2 ^ 48 + 2 ^ 32)).toNat = stat * 2 ^ 48 + 2 ^ 32 := by
    rw [BitVec.toNat_ofNat, Nat.mod_eq_of_lt]; omega
  refine ⟨?_, by rw [filledRecord, metaAt_fillCell_same, metaF_mkMeta]⟩
  have hsys : (s.noteTlb o.issuer o.cr).sys = s.sys := by rw [noteTlb_rest]
  have htail := spanWrite_holds (s.noteTlb o.issuer o.cr) (s.placeFrom loc 8) (bytesOfWords [0, 0, 0])
  rw [hzero, List.length_replicate, runsFrom_congr hsys] at htail
  have hhead := fillCell_holds ((s.noteTlb o.issuer o.cr).spanWrite (s.placeFrom loc 8) (List.replicate 24 0)) loc
    (BitVec.ofNat 64 (stat * 2 ^ 48 + 2 ^ 32)) true
  rw [hword, runsFrom_congr ((spanWrite_sys ..).trans hsys)] at hhead
  rw [filledRecord, hzero]
  exact holds_append (holds_of_same_start htail (by rw [noteTlb_rest]) (by rw [noteTlb_rest])) hhead
    (by rw [spanWrite_rest, noteTlb_rest])

/-! ### What the launch leaves of the cores -/

/-- Core `k` is as before but for its TLB, every other as before. -/
structure CoreKept (s t : State) (k : Nat) : Prop where
  cur : t.cur = s.cur
  core : t.coreAt k = { s.coreAt k with tlb := (t.coreAt k).tlb }
  others : OthersSame s t k

theorem CoreKept.trans {s t u : State} {k : Nat} (h : s.CoreKept t k) (g : t.CoreKept u k) : s.CoreKept u k where
  cur := g.cur.trans h.cur
  core := by rw [g.core, h.core]
  others j hj := (g.others j hj).trans (h.others j hj)

theorem coreKept_of_cores_eq {s t : State} (k : Nat) (hc : t.cores = s.cores) (hcur : t.cur = s.cur) : s.CoreKept t k := by
  have hcore (j : Nat) : t.coreAt j = s.coreAt j := by unfold coreAt; rw [hc]
  exact ⟨hcur, by rw [hcore], fun j _ => hcore j⟩

theorem Translated.kept {s t : State} {k : Nat} (h : Translated s t k) : s.CoreKept t k := ⟨h.cur, h.core, h.others⟩

theorem coreKept_of_filed {s t : State} (k : Nat) (h : Filed s t) : s.CoreKept t k := coreKept_of_cores_eq k h.cores (by rw [h.rest])

theorem coreKept_spanWrite (s : State) (k loc : Nat) (bs : List Byte) : s.CoreKept (s.spanWrite loc bs) k :=
  coreKept_of_cores_eq k (spanWrite_cores ..) (by rw [spanWrite_rest])

theorem coreKept_fillCell (s : State) (k loc : Nat) (v : Word) (full : Bool) : s.CoreKept (s.fillCell loc v full) k :=
  coreKept_of_cores_eq k (fillCell_cores ..) (by rw [fillCell, noteWrite_rest, spanWrite_rest])

theorem coreKept_fillRecord (s : State) (o : Origin) (stat : Nat) (enk cyc : Word) :
    s.CoreKept (s.fillRecord o stat enk cyc) o.core := by
  by_cases h : o.cr = 0
  · rw [fillRecord_of_none _ _ _ h]
    exact coreKept_of_cores_eq _ rfl rfl
  · cases hp : s.probe o.issuer o.cr 32 32 with
    | error f =>
      rw [fillRecord_of_fault _ _ _ h hp]
      exact (coreKept_of_cores_eq _ (by rw [noteFailed_rest]) (by rw [noteFailed_rest])).trans (coreKept_of_filed _ (filed_fillFault ..))
    | ok loc =>
      rw [fillRecord_of_place _ _ _ h hp]
      exact ((translated_noteTlb s o.issuer o.cr).kept.trans (coreKept_spanWrite ..)).trans (coreKept_fillCell ..)

/-! ### The send (R141, R147) -/

theorem setEmpty_rest (s : State) (loc : Option Nat) : s.setEmpty loc = { s with gmeta := (s.setEmpty loc).gmeta } := by
  cases loc <;> rfl

theorem metaF_setEmpty (s : State) (l : Nat) : metaF ((s.setEmpty (some l)).metaAt (l / 32)) = false := by
  simp only [setEmpty, metaAt_putMeta, if_true, metaF_mkMeta]

/-- The machine when LAUNCH has emptied its completion record and committed. -/
def launched (s : State) (loc : Option Nat) : State := ((s.clearR s.cur).setEmpty loc).retire

namespace Translated

variable {s t : State} {k : Nat} (h : Translated s t k)

include h

theorem origin (hk : k = s.cur) (cr : Word) : t.origin cr = s.origin cr := by
  have hme := h.me hk
  have hborn (j : Nat) : t.bornOf j = s.bornOf j := by rw [h.rest]; rfl
  have hwork (j : Nat) (p : Option Nat) : t.workContext j p = s.workContext j p := by rw [h.rest]; rfl
  have hkd (j : Nat) : t.kdOf j = s.kdOf j := by rw [h.rest]; rfl
  have hdie (j : Nat) (p : Option Nat) : t.workDie j p = s.workDie j p := by rw [h.rest]; rfl
  unfold State.origin stewardDie
  rw [h.cur, h.partOf, hborn, hwork, hkd, hdie, hme]

end Translated

theorem launched_rest (s : State) (loc : Option Nat) : s.launched loc = { s with
    cores := s.retire.cores, units := (s.clearR s.cur).units, gmeta := ((s.clearR s.cur).setEmpty loc).gmeta } := by
  rw [launched, retire, setMe_eq, setEmpty_rest, clearR_rest]; rfl

theorem launched_launches (s : State) (loc : Option Nat) : (s.launched loc).launches = s.launches := by rw [launched_rest]
theorem launched_nextLaunch (s : State) (loc : Option Nat) : (s.launched loc).nextLaunch = s.nextLaunch := by rw [launched_rest]
theorem launched_tiles (s : State) (loc : Option Nat) : (s.launched loc).tiles = s.tiles := by rw [launched_rest]
theorem launched_mem (s : State) (loc : Option Nat) : (s.launched loc).mem = s.mem := by rw [launched_rest]

theorem launched_me (s : State) (loc : Option Nat) : (s.launched loc).me = s.me.commit := by
  rw [launched, me_retire, setEmpty_rest, clearR_rest]; rfl

theorem launched_others (s : State) (loc : Option Nat) : OthersSame s (s.launched loc) s.cur := fun j hj => by
  have hcore : (s.launched loc).coreAt j = s.retire.coreAt j := by rw [launched_rest]; rfl
  rw [hcore, retire, setMe_eq, coreAt_putCore, if_neg hj]

/-- LAUNCH writes no register and commits, whatever becomes of the launch (R141). -/
theorem launched_commits {s s1 u : State} {loc : Option Nat} (h : Translated s s1 s.cur)
    (hu : (s1.launched loc).CoreKept u s.cur) :
    RegsSame s.me u.me [] ∧ CommitsAt { s.me with tlb := u.me.tlb } u.me s.me.npc 0 ∧ OthersSame s u s.cur := by
  have hcur : (s1.launched loc).cur = s.cur := by rw [launched_rest, h.rest]
  have hucur : u.cur = s.cur := hu.cur.trans hcur
  have hme : u.me = { s.me.commit with tlb := u.me.tlb } := by
    have hcore := hu.core
    have hl : (s1.launched loc).coreAt s.cur = s1.me.commit := by rw [← launched_me s1 loc, me_eq, hcur]
    rw [hl, h.me rfl] at hcore
    rw [me_eq, hucur, hcore]; rfl
  refine ⟨?_, ?_, fun j hj => ?_⟩
  · rw [hme]
    exact ⟨fun _ _ => rfl, fun _ _ => rfl, fun _ _ => rfl, fun _ _ => rfl, fun _ _ => rfl⟩
  · rw [hme]
    simp [CommitsAt, Core.commit]
  · rw [hu.others j hj, launched_others s1 loc j (by rwa [h.cur]), h.others j hj]

/-! ### A launch of a bead is refused, or waits (R55, R72, R141) -/

/-- The stream of a LAUNCH (R75). -/
def launchStream (s : State) : LaunchStream := match s.me.bead with | some b => .bead b | none => .core s.cur

theorem sendLaunch_eq (s : State) (cr : Word) (loc : Option Nat) (kd : Option (List Word)) :
    s.sendLaunch cr loc kd = (s.launched loc).offerLaunch (.bead (s.origin cr)) s.launchStream kd := rfl

theorem coreKept_hostNext (s : State) (k : Nat) : s.CoreKept s.hostNext k :=
  coreKept_of_cores_eq k (by rw [hostNext_rest]) (by rw [hostNext_rest])

/-! ### A place is found whatever waits at the arbiter (R149) -/

/-- The machine when a refused launch has left the arbiter. -/
def dropped (s : State) : State := s.numbered.dropLaunch s.nextLaunch

theorem walkFrom_congr {s t : State} (h : t.homeWord = s.homeWord) (a lvl base : Nat) :
    t.walkFrom a lvl base = s.walkFrom a lvl base := by
  induction lvl generalizing base with
  | zero => rfl
  | succ lvl ih =>
    have hrec : t.walkFrom a lvl = s.walkFrom a lvl := funext ih
    unfold walkFrom
    rw [h, hrec]

theorem pteFor_dropped (s : State) : s.dropped.pteFor = s.pteFor := by
  funext i a
  have hword : s.dropped.homeWord = s.homeWord := rfl
  have hwalk : s.dropped.walk i.world a = s.walk i.world a := by
    have hfrom : s.dropped.walkFrom a 4 = s.walkFrom a 4 := funext (walkFrom_congr hword a 4)
    unfold walk
    rw [hfrom]; rfl
  unfold pteFor
  rw [hwalk]; rfl

theorem translate_dropped (s : State) (i : Issuer) (va : Word) (n : Nat) (wr ex : Bool) :
    s.dropped.translate i va n wr ex = s.translate i va n wr ex := by
  have hhome : s.dropped.globalHome i va n wr ex = s.globalHome i va n wr ex := by
    unfold globalHome
    rw [pteFor_dropped]
  have hglobal : s.dropped.transGlobal i va n wr ex = s.transGlobal i va n wr ex := by
    unfold transGlobal
    rw [hhome]; rfl
  unfold translate
  rw [hglobal]; rfl

theorem probe_dropped (s : State) (i : Issuer) (p : Word) (n align : Nat) : s.dropped.probe i p n align = s.probe i p n align := by
  unfold probe
  rw [translate_dropped]; rfl

/-! ### What a bead's launch leaves of the cores, and which number it takes -/

section Offered

variable {s : State} {l : Launch} {o : Origin}

theorem refuseLaunch_kept (hby : l.by_ = .bead o) (stat : Nat) : s.CoreKept (s.refuseLaunch l stat) o.core := by
  have heq : s.refuseLaunch l stat = (((s.dropLaunch l.id).fillRecord o stat 0 0).push [.launchRetry]).hostNext := by
    rw [refuseLaunch, hby]; rfl
  rw [heq]
  have hdropped : s.CoreKept (s.dropLaunch l.id) o.core := coreKept_of_cores_eq _ rfl rfl
  have hfilled := hdropped.trans (coreKept_fillRecord (s.dropLaunch l.id) o stat 0 0)
  exact (hfilled.trans (coreKept_of_cores_eq _ (push_cores ..) (push_cur ..))).trans (coreKept_hostNext ..)

theorem refuseLaunch_nextLaunch (s : State) (l : Launch) (stat : Nat) : (s.refuseLaunch l stat).nextLaunch = s.nextLaunch := by
  rw [refuseLaunch, hostNext_nextLaunch, push_nextLaunch]
  cases l.by_ with
  | host ctag => rfl
  | bead o => exact (arbiterKept_fillRecord ..).nextLaunch

theorem shapeKnown_kept (hby : l.by_ = .bead o) (w h : Nat) (sh : Word) : s.CoreKept (s.shapeKnown l w h sh) o.core := by
  cases hn : s.neverFits w h with
  | true => rw [shapeKnown_of_neverFits hn]; exact refuseLaunch_kept hby 4
  | false => rw [shapeKnown_of_fits hn]; exact coreKept_of_cores_eq _ rfl rfl

theorem shapeKnown_nextLaunch (s : State) (l : Launch) (w h : Nat) (sh : Word) :
    (s.shapeKnown l w h sh).nextLaunch = s.nextLaunch := by
  cases hn : s.neverFits w h with
  | true => rw [shapeKnown_of_neverFits hn, refuseLaunch_nextLaunch]
  | false => rw [shapeKnown_of_fits hn]; rfl

/-- A LAUNCH leaves its core as it committed, but for the TLB, and takes the next number. -/
theorem offerLaunch_bead (s : State) (o : Origin) (st : LaunchStream) (kd : Option (List Word)) :
    s.CoreKept (s.offerLaunch (.bead o) st kd) o.core ∧ (s.offerLaunch (.bead o) st kd).nextLaunch = s.nextLaunch + 1 := by
  have hnumbered : s.CoreKept s.numbered o.core := coreKept_of_cores_eq _ rfl rfl
  cases kd with
  | none =>
    rw [offerLaunch_of_unread, refuseLaunch_nextLaunch]
    exact ⟨hnumbered.trans (refuseLaunch_kept rfl 7), rfl⟩
  | some ws =>
    have hqueued : s.CoreKept (s.queued (.bead o) st ws) o.core := coreKept_of_cores_eq _ rfl rfl
    rw [offerLaunch_of_allowed fun _ h => by cases h]
    split
    · rw [refuseLaunch_nextLaunch]
      exact ⟨hnumbered.trans (refuseLaunch_kept rfl 2), rfl⟩
    · split
      · exact ⟨hqueued.trans (coreKept_of_cores_eq _ (push_cores ..) (push_cur ..)), rfl⟩
      · rw [shapeKnown_nextLaunch]
        exact ⟨hqueued.trans (shapeKnown_kept rfl ..), rfl⟩

end Offered

section Refused

variable (s : State) (o : Origin) (st : LaunchStream) (ws : List Word) {stat : Nat}

theorem refuseLaunch_bead : s.numbered.refuseLaunch (s.offered (.bead o) st ws) stat =
    ((s.dropped.fillRecord o stat 0 0).push [.launchRetry]).hostNext := rfl

theorem refuseLaunch_bead_launches : ∀ m ∈ (s.numbered.refuseLaunch (s.offered (.bead o) st ws) stat).launches, m ∈ s.launches := by
  intro m hm
  rw [refuseLaunch_launches] at hm
  exact (List.mem_filter.1 hm).1

theorem refuseLaunch_bead_fills (hstat : stat < 256) {l : Nat} (hcr : o.cr ≠ 0) (hp : s.probe o.issuer o.cr 32 32 = .ok l) :
    let u := s.numbered.refuseLaunch (s.offered (.bead o) st ws) stat
    s.Holds (s.runsFrom l 8 ++ s.runsFrom (s.placeFrom l 8) 24) (leBytes 8 (stat * 2 ^ 48 + 2 ^ 32) ++ List.replicate 24 0) u ∧
      metaF (u.metaAt (l / 32)) = true := by
  have hprobe := (s.probe_dropped o.issuer o.cr 32 32).trans hp
  obtain ⟨hholds, hfull⟩ := filledRecord_fills s.dropped o l hstat
  rw [← fillRecord_of_place stat 0 0 hcr hprobe] at hholds hfull
  rw [placeFrom_congr (t := s.dropped) (s := s) rfl, runsFrom_congr (t := s.dropped) (s := s) rfl,
    runsFrom_congr (t := s.dropped) (s := s) rfl] at hholds
  intro u
  have hu : u = _ := refuseLaunch_bead s o st ws
  have hmem : u.mem = (s.dropped.fillRecord o stat 0 0).mem := by rw [hu, hostNext_rest]; rfl
  have hgmeta : u.gmeta = (s.dropped.fillRecord o stat 0 0).gmeta := by rw [hu, hostNext_rest]; rfl
  exact ⟨holds_of_mem_eq (holds_of_same_start hholds rfl rfl) hmem, by rw [metaAt_of_gmeta_eq hgmeta, hfull]⟩

end Refused

end State

open State

/-- What becomes of a LAUNCH whose descriptor's read has a result (R72, R141). -/
def State.arbitrate (s : State) (cr : Word) (loc : Option Nat) (kd : Word) : Except FaultInfo (List Byte) → State
  | .error f => (s.noteFailed (s.origin cr).issuer kd 128 f).sendLaunch cr loc none
  | .ok bs => (s.noteRange (s.origin cr).issuer kd 128).sendLaunch cr loc (some (wordsOf 16 bs))

/-! ### LAUNCH (R141) -/

section Launch

variable {s : State} (pfx : Pfx) {a b : Nat}

theorem exec_launch_of_misaligned (h : (s.sr a).toNat % 64 ≠ 0) :
    exec (.launch pfx a b) s = .next (s.trap { cause := 0x06, va := s.sr a }) := by
  change execLaunch pfx a b s = _
  simp only [execLaunch, h, ne_eq, not_false_eq_true, if_true]; rfl

variable (h : (s.sr a).toNat % 64 = 0)

include h

theorem exec_launch_of_unprobed {f : FaultInfo} (hp : s.probeRecord (s.sr b) = .error f) :
    exec (.launch pfx a b) s = .next (s.trap f) := by
  change execLaunch pfx a b s = _
  unfold execLaunch
  simp only [h, hp, ne_eq, not_true_eq_false, if_false]

variable {loc : Option Nat} (hp : s.probeRecord (s.sr b) = .ok loc)

include hp

theorem exec_launch_of_probed :
    exec (.launch pfx a b) s = .next (s.arbitrate (s.sr b) loc (s.sr a) (s.readKd (s.origin (s.sr b)).issuer (s.sr a))) := by
  have hno : ¬ (s.sr a).toNat % 64 ≠ 0 := not_not.2 h
  change Host.Outcome.next (if (s.sr a).toNat % 64 ≠ 0 then _ else _) = _
  rw [if_neg hno, hp]
  generalize s.readKd (s.origin (s.sr b)).issuer (s.sr a) = r
  cases r <;> rfl

end Launch

end Sys2Proof.Machine
end

