-- ==== Sys2Proof/Proofs/Placements.lean ====
section
/-! A kernel's placement: the tiles and clusters of the partition, and the root join word (R77-R81). -/

namespace Sys2Proof

theorem nodup_eraseDups (l : List Nat) : l.eraseDups.Nodup := by
  induction hn : l.length using Nat.strong_induction_on generalizing l with
  | _ n ih =>
    cases l with
    | nil => exact List.nodup_nil
    | cons a l =>
      rw [List.eraseDups_cons, List.nodup_cons]
      have hlen : (l.filter fun b => !b == a).length < n := by
        have := List.length_filter_le (fun b => !b == a) l
        rw [← hn, List.length_cons]; omega
      refine ⟨fun hmem => ?_, ih _ hlen _ rfl⟩
      have := (List.mem_filter.1 (List.mem_eraseDups.1 hmem)).2
      simp at this

namespace Map

variable {β : Type}

/-- Values stored at keys of a list, one after the other. -/
theorem find?_foldl_put_of_not_mem (f : Nat × Nat → β) (es : List (Nat × Nat)) (m : List (Nat × β)) {i : Nat}
    (h : ∀ e ∈ es, e.1 ≠ i) : find? (es.foldl (fun m e => put m e.1 (f e)) m) i = find? m i := by
  induction es generalizing m with
  | nil => rfl
  | cons e es ih =>
    obtain ⟨he, hes⟩ := List.forall_mem_cons.1 h
    rw [List.foldl_cons, ih _ hes, find?_put_other _ _ he.symm]

theorem find?_foldl_put_of_mem (f : Nat × Nat → β) (es : List (Nat × Nat)) (m : List (Nat × β)) (hn : (es.map Prod.fst).Nodup)
    {e : Nat × Nat} (h : e ∈ es) : find? (es.foldl (fun m e => put m e.1 (f e)) m) e.1 = some (f e) := by
  induction es generalizing m with
  | nil => exact absurd h List.not_mem_nil
  | cons a es ih =>
    obtain ⟨ha, hes⟩ := List.nodup_cons.1 hn
    rw [List.foldl_cons]
    rcases List.mem_cons.1 h with rfl | h
    · have hrest : ∀ b ∈ es, b.1 ≠ e.1 := fun b hb heq => ha (heq ▸ List.mem_map_of_mem hb)
      rw [find?_foldl_put_of_not_mem f es _ hrest, find?_put_same]
    · exact ih _ hes h

end Map

namespace Machine

/-! ### A cluster's rods (R78) -/

theorem freeRods_nodup (u : BeadUnit) : u.freeRods.Nodup := List.nodup_range.filter _

/-- The rod that a partition gets from a cluster, the j-th of its own. -/
def allottedRod (p : Nat) (x : Part) (j : Nat) : Rod :=
  { part := some p, cap := 2 ^ Kd.ring x.kd, prio := min j 3, world := x.world, wdog := Kd.wdog x.kd }

theorem allot_rod {u : BeadUnit} (p : Nat) {x : Part} {j r : Nat} (h : (u.freeRods.take x.nrod)[j]? = some r) :
    Map.find? (u.allot p x).rods r = some (allottedRod p x j) := by
  have hmem : (r, j) ∈ (u.freeRods.take x.nrod).zipIdx := List.mem_zipIdx_iff_getElem?.2 h
  have hnodup : ((u.freeRods.take x.nrod).zipIdx.map Prod.fst).Nodup := by
    rw [List.zipIdx_map_fst]
    exact (freeRods_nodup u).sublist (List.take_sublist ..)
  exact Map.find?_foldl_put_of_mem (fun e => allottedRod p x e.2) _ u.rods hnodup hmem

namespace State

/-! ### Tiles and clusters in turn (R77, R80) -/

theorem foldl_modUnit_rest (f : BeadUnit → BeadUnit) (us : List Nat) (s : State) :
    us.foldl (fun t u => t.modUnit u f) s = { s with units := (us.foldl (fun t u => t.modUnit u f) s).units } := by
  induction us generalizing s with
  | nil => rfl
  | cons u us ih => rw [List.foldl_cons, ih]; rfl

theorem foldl_modUnit_unitAt (f : BeadUnit → BeadUnit) {us : List Nat} (hn : us.Nodup) (s : State) (u : Nat) :
    (us.foldl (fun t v => t.modUnit v f) s).unitAt u = if u ∈ us then f (s.unitAt u) else s.unitAt u := by
  induction us generalizing s with
  | nil => rfl
  | cons v us ih =>
    obtain ⟨hv, hus⟩ := List.nodup_cons.1 hn
    rw [List.foldl_cons, ih hus, modUnit_eq, unitAt_putUnit]
    by_cases huv : u = v
    · subst huv
      simp [hv]
    · simp [huv]

/-- A tile of a placed partition takes its number and place (R80). -/
def identified (s : State) (p : Nat) (x : Part) (k : Nat) : State :=
  (s.modTile k fun y => y.identify p x (tileX k - x.x0) (tileY k - x.y0)).modCore k fun c => { c with ent := 0, world := x.world }

section Identify

variable (p : Nat) (x : Part) (ks : List Nat) (s : State)

theorem foldl_identified_rest : ks.foldl (fun t k => t.identified p x k) s = { s with
    tiles := (ks.foldl (fun t k => t.identified p x k) s).tiles, cores := (ks.foldl (fun t k => t.identified p x k) s).cores } := by
  induction ks generalizing s with
  | nil => rfl
  | cons k ks ih => rw [List.foldl_cons, ih]; rfl

theorem foldl_identified_tileAt (j : Nat) : (ks.foldl (fun t k => t.identified p x k) s).tileAt j =
    if j ∈ ks then (s.tileAt j).identify p x (tileX j - x.x0) (tileY j - x.y0) else s.tileAt j := by
  induction ks generalizing s with
  | nil => rfl
  | cons k ks ih =>
    rw [List.foldl_cons, ih]
    simp only [identified, modTile_eq, modCore_eq, tileAt_putCore, tileAt_putTile]
    by_cases hjk : j = k
    · subst hjk
      simp only [List.mem_cons, true_or, if_true]
      split_ifs <;> rfl
    · simp [hjk]

theorem foldl_identified_ent {j : Nat} (h : j ∈ ks ∨ (s.coreAt j).ent = 0) :
    ((ks.foldl (fun t k => t.identified p x k) s).coreAt j).ent = 0 := by
  induction ks generalizing s with
  | nil => exact h.resolve_left List.not_mem_nil
  | cons k ks ih =>
    rw [List.foldl_cons]
    refine ih _ ?_
    simp only [identified, modTile_eq, modCore_eq, coreAt_putTile, coreAt_putCore]
    by_cases hjk : j = k
    · simp [hjk]
    · simpa [hjk] using h

end Identify

section SetUp

variable (s : State) (p : Nat) (x : Part)

theorem setUp_eq : s.setUp p x = (x.tiles.map unitOf).eraseDups.foldl (fun t u => t.modUnit u fun b => b.allot p x)
    (x.tiles.foldl (fun t k => t.identified p x k) (s.putPart p x)) := rfl

theorem setUp_tileAt {k : Nat} (h : k ∈ x.tiles) :
    (s.setUp p x).tileAt k = (s.tileAt k).identify p x (tileX k - x.x0) (tileY k - x.y0) := by
  rw [setUp_eq, foldl_modUnit_rest]
  exact (foldl_identified_tileAt ..).trans (if_pos h)

theorem setUp_ent {k : Nat} (h : k ∈ x.tiles) : ((s.setUp p x).coreAt k).ent = 0 := by
  rw [setUp_eq, foldl_modUnit_rest]
  exact foldl_identified_ent p x x.tiles _ (.inl h)

theorem setUp_unitAt {k : Nat} (h : k ∈ x.tiles) : (s.setUp p x).unitAt (unitOf k) = (s.unitAt (unitOf k)).allot p x := by
  have hmem : unitOf k ∈ (x.tiles.map unitOf).eraseDups := List.mem_eraseDups.2 (List.mem_map_of_mem h)
  have hunits : (x.tiles.foldl (fun t k => t.identified p x k) (s.putPart p x)).unitAt (unitOf k) = s.unitAt (unitOf k) := by
    rw [foldl_identified_rest]; rfl
  rw [setUp_eq, foldl_modUnit_unitAt _ (nodup_eraseDups _), if_pos hmem, hunits]

theorem setUp_rodAt {k j r : Nat} (h : k ∈ x.tiles) (hr : ((s.unitAt (unitOf k)).freeRods.take x.nrod)[j]? = some r) :
    (s.setUp p x).rodAt (unitOf k) r = some (allottedRod p x j) := by
  unfold rodAt
  rw [setUp_unitAt s p x h, allot_rod p hr]

end SetUp

/-! ### The identity registers (R80, R81) -/

theorem identify_divides (t : Tile) (p : Nat) (x : Part) (ix iy : Nat) :
    let d (i : Nat) := fld x.tshape (16 * i) 16
    d 0 ≠ 0 →
      (t.identify p x ix iy).org = [min (ix * ((d 0 + x.w - 1) / x.w)) (d 0), min (iy * ((d 1 + x.h - 1) / x.h)) (d 1), 0, 0] ∧
      (t.identify p x ix iy).ext = [min ((d 0 + x.w - 1) / x.w) (d 0 - (t.identify p x ix iy).org.getD 0 0),
        min ((d 1 + x.h - 1) / x.h) (d 1 - (t.identify p x ix iy).org.getD 1 0), d 2, d 3] := by
  intro d hd
  have hdiv : divide x.tshape x.w x.h ix iy =
      ([min (ix * ((d 0 + x.w - 1) / x.w)) (d 0), min (iy * ((d 1 + x.h - 1) / x.h)) (d 1), 0, 0],
        [min ((d 0 + x.w - 1) / x.w) (d 0 - min (ix * ((d 0 + x.w - 1) / x.w)) (d 0)),
          min ((d 1 + x.h - 1) / x.h) (d 1 - min (iy * ((d 1 + x.h - 1) / x.h)) (d 1)), d 2, d 3]) := if_neg hd
  constructor
  · simp only [Tile.identify, hdiv]
  · simp only [Tile.identify, hdiv]
    rfl

/-! ### The root join word (R79) -/

section Root

variable {s : State} {p loc : Nat} {x : Part}

/-- The machine when the root join word has taken the number of initial beads. -/
def rooted (s : State) (p : Nat) (x : Part) (loc : Nat) : State :=
  (((s.noteTlb (deviceIssuer (tileAtXY x.x0 x.y0) (some p) x.world x.kd) (wd x.kd 5)).putPart p
    { x with rootLoc := some (s.locKey loc) }).spanWrite loc (leBytes 4 (s.joinCount loc + x.w * x.h)))

theorem addRoot_of_room
    (hp : s.probeWord (deviceIssuer (tileAtXY x.x0 x.y0) (some p) x.world x.kd) (wd x.kd 5) = .ok loc)
    (hok : s.spanPoisoned loc 16 = false) (hn : s.joinCount loc + x.w * x.h ≤ 2 ^ 32 - 1) :
    s.addRoot p x = some (s.rooted p x loc) := by
  simp only [addRoot, hp, hok, Bool.false_eq_true, if_false]
  exact if_neg (by omega)

theorem rooted_rest (s : State) (p : Nat) (x : Part) (loc : Nat) : s.rooted p x loc = { s with
    mem := (s.rooted p x loc).mem, units := (s.rooted p x loc).units, ctxs := (s.rooted p x loc).ctxs,
    acnt := (s.rooted p x loc).acnt, gmeta := (s.rooted p x loc).gmeta, written := (s.rooted p x loc).written,
    ckpt := (s.rooted p x loc).ckpt, poison := (s.rooted p x loc).poison, pend := (s.rooted p x loc).pend,
    cores := (s.rooted p x loc).cores, parts := Map.put s.parts p { x with rootLoc := some (s.locKey loc) } } := by
  rw [rooted, spanWrite_rest, noteTlb_rest]; rfl

theorem rooted_holds (s : State) (p : Nat) (x : Part) (loc : Nat) :
    s.Holds (s.runsFrom loc 4) (leBytes 4 (s.joinCount loc + x.w * x.h)) (s.rooted p x loc) := by
  have hwrite := spanWrite_holds ((s.noteTlb (deviceIssuer (tileAtXY x.x0 x.y0) (some p) x.world x.kd) (wd x.kd 5)).putPart p
    { x with rootLoc := some (s.locKey loc) }) loc (leBytes 4 (s.joinCount loc + x.w * x.h))
  rw [leBytes_length, runsFrom_congr (s := s) (by rw [noteTlb_rest]; rfl)] at hwrite
  exact holds_of_same_start hwrite (by rw [noteTlb_rest]; rfl) (by rw [noteTlb_rest]; rfl)

theorem rodsKept_rooted (s : State) (p : Nat) (x : Part) (loc : Nat) : s.RodsKept (s.rooted p x loc) :=
  (RodsKept.of_units_eq (by rw [noteTlb_rest]; rfl)).trans (rodsKept_spanWrite ..)

theorem rooted_ent (s : State) (p : Nat) (x : Part) (loc k : Nat) : ((s.rooted p x loc).coreAt k).ent = (s.coreAt k).ent := by
  have hkept := translated_noteTlb s (deviceIssuer (tileAtXY x.x0 x.y0) (some p) x.world x.kd) (wd x.kd 5)
  have hcore : (s.rooted p x loc).coreAt k =
      (s.noteTlb (deviceIssuer (tileAtXY x.x0 x.y0) (some p) x.world x.kd) (wd x.kd 5)).coreAt k := by
    unfold coreAt
    rw [rooted, spanWrite_cores]; rfl
  rw [hcore]
  by_cases hk : k = (deviceIssuer (tileAtXY x.x0 x.y0) (some p) x.world x.kd).core
  · rw [hk, hkept.core]
  · rw [hkept.others k hk]

end Root

/-! ### KERNEL_PLACEMENT (R76, R77) -/

theorem mem_hostNext_pend {s : State} {e : Ev} (h : e ∈ s.pend) : e ∈ s.hostNext.pend := by
  unfold hostNext
  simp only
  split
  · exact h
  · exact List.mem_append_left _ h

section Placement

variable {s : State} {id p : Nat} {l : Launch} {o : Nat × Nat} (hl : (s.launches.find? fun m => m.id == id) = some l)
  (hp : s.freeNumber = some p) (ho : s.findOrigin l.w l.h (Kd.nrod l.kd) = some o)

include hl hp ho

theorem kernelPlacement_of_rooted {t : State}
    (ht : (s.setUp p (s.newPart l o.1 o.2)).addRoot p (s.newPart l o.1 o.2) = some t) :
    s.kernelPlacement id = ((t.dropLaunch id).push [.initialBeadEnqueue p, .launchRetry]).hostNext := by
  simp only [kernelPlacement, hl, hp, ho, ht]

end Placement

end State

open State

theorem exec_kernelPlacement {s : State} {id : Nat} (hm : s.msg = some (.kernelPlacement id)) :
    exec .kernelPlacement s = .next (s.kernelPlacement id) := by
  change execKernelPlacement s = _
  rw [execKernelPlacement, hm]

section Placed

variable {s : State} {id p loc : Nat} {l : Launch} {o : Nat × Nat} (hl : (s.launches.find? fun m => m.id == id) = some l)
  (hp : s.freeNumber = some p) (ho : s.findOrigin l.w l.h (Kd.nrod l.kd) = some o)
  (hr : (s.setUp p (s.newPart l o.1 o.2)).probeWord
    (deviceIssuer (tileAtXY o.1 o.2) (some p) (s.newPart l o.1 o.2).world l.kd) (wd l.kd 5) = .ok loc)
  (hok : (s.setUp p (s.newPart l o.1 o.2)).spanPoisoned loc 16 = false)
  (hn : (s.setUp p (s.newPart l o.1 o.2)).joinCount loc + l.w * l.h ≤ 2 ^ 32 - 1)

include hl hp ho hr hok hn

/-- What KERNEL_PLACEMENT leaves where the root join word has room: the tiles identified, the rods allotted, the count added. -/
theorem kernelPlacement_rooted : ∃ t, t = (s.setUp p (s.newPart l o.1 o.2)).rooted p (s.newPart l o.1 o.2) loc ∧
    s.kernelPlacement id = ((t.dropLaunch id).push [.initialBeadEnqueue p, .launchRetry]).hostNext :=
  ⟨_, rfl, kernelPlacement_of_rooted hl hp ho (addRoot_of_room hr hok hn)⟩

theorem kernelPlacement_places :
    let x := s.newPart l o.1 o.2
    let s1 := s.setUp p x
    let u := s.kernelPlacement id
    s1.Holds (s1.runsFrom loc 4) (leBytes 4 (s1.joinCount loc + l.w * l.h)) u ∧
    u.partAt p = some { x with rootLoc := some (s1.locKey loc) } ∧ (∀ m ∈ u.launches, m.id ≠ id) ∧
    Ev.initialBeadEnqueue p ∈ u.pend ∧
    (∀ k ∈ x.tiles, u.tileAt k = (s.tileAt k).identify p x (tileX k - o.1) (tileY k - o.2) ∧ (u.coreAt k).ent = 0) ∧
    ∀ k ∈ x.tiles, ∀ j r, ((s.unitAt (unitOf k)).freeRods.take (Kd.nrod l.kd))[j]? = some r →
      u.rodAt (unitOf k) r = some (allottedRod p x j) := by
  obtain ⟨t, ht, heq⟩ := kernelPlacement_rooted hl hp ho hr hok hn
  intro x s1 u
  have hu : u = ((t.dropLaunch id).push [.initialBeadEnqueue p, .launchRetry]).hostNext := heq
  have hrest := hostNext_rest ((t.dropLaunch id).push [.initialBeadEnqueue p, .launchRetry])
  rw [← hu] at hrest
  have hroot := rooted_rest s1 p x loc
  have hholds := rooted_holds s1 p x loc
  have hkept := rodsKept_rooted s1 p x loc
  have hent := rooted_ent s1 p x loc
  rw [← ht] at hroot hholds hkept hent
  have htile (k : Nat) : u.tileAt k = s1.tileAt k := by rw [hrest, hroot]; rfl
  have hcore (k : Nat) : u.coreAt k = t.coreAt k := by rw [hrest]; rfl
  have hunits : u.units = t.units := by rw [hrest]; rfl
  refine ⟨holds_of_mem_eq hholds (by rw [hrest]; rfl), ?_, fun m hm => ?_, ?_, fun k hk => ⟨?_, ?_⟩, fun k hk j r hj => ?_⟩
  · have hparts : u.parts = t.parts := by rw [hrest]; rfl
    rw [partAt, hparts, hroot, Map.find?_put_same]
  · have hlaunches : u.launches = t.launches.filter fun m => m.id != id := by rw [hrest]; rfl
    rw [hlaunches] at hm
    simpa using (List.mem_filter.1 hm).2
  · rw [hu]
    exact mem_hostNext_pend (List.mem_append_right _ (List.mem_cons_self ..))
  · rw [htile, setUp_tileAt s p x hk]; rfl
  · rw [hcore, hent, setUp_ent s p x hk]
  · rw [rodAt_of_units_eq hunits]
    exact hkept.empty (setUp_rodAt s p x hk hj) rfl

end Placed

end Machine

end Sys2Proof
end

