-- ==== Sys2Proof/Proofs/InitialBeads.lean ====
section
/-! The initial beads of a placed partition and the start of its ramp (R79, R85, R55). -/

namespace Sys2Proof.Machine

open Sys2Proof

/-! ### Free slots, ascending (R128) -/

/-- The free slots of a rod's ring, ascending. -/
def Rod.frees (rod : Rod) : List Nat := (List.range rod.cap).filter fun n => (Map.find? rod.slots n).isNone

theorem Rod.freeSlot?_of_frees {rod : Rod} {n : Nat} {ns : List Nat} (h : rod.frees = n :: ns) : rod.freeSlot? = some n := by
  rw [Rod.freeSlot?, ← List.head?_filter]
  exact congrArg List.head? h

/-- The lowest free slot is taken; the others stay. -/
theorem Rod.frees_withReady {rod : Rod} {n : Nat} {ns : List Nat} (h : rod.frees = n :: ns) (z : BeadSlot) :
    (rod.withReady n z).frees = ns := by
  have hnodup : (n :: ns).Nodup := h ▸ List.nodup_range.filter _
  have hstep : (rod.withReady n z).frees = rod.frees.filter fun m => m != n := by
    rw [frees, frees, List.filter_filter]
    refine List.filter_congr fun m _ => ?_
    rw [Rod.withReady, Map.find?_put]
    by_cases hm : m = n <;> simp [hm]
  rw [hstep, h, List.filter_cons_of_neg (by simp), List.filter_eq_self]
  intro m hm
  have : m ≠ n := fun hmn => (List.nodup_cons.1 hnodup).1 (hmn ▸ hm)
  simpa using this

namespace State

/-! ### One initial bead (R79) -/

theorem enqueueInitial_rest (s : State) (x : Part) (u r : Nat) : s.enqueueInitial x u r = { s with
    units := (s.enqueueInitial x u r).units, nextBead := (s.enqueueInitial x u r).nextBead
    pend := (s.enqueueInitial x u r).pend } := by
  unfold enqueueInitial
  split
  case h_1 => rfl
  case h_2 rod hrod =>
    split
    case h_1 => rfl
    case h_2 n _ => rw [enqueueNew_rest (b := { unit := u, rod := r, slot := n }) _ hrod]

section One

variable {s : State} {x : Part} {u r n : Nat} {rod : Rod} {ns : List Nat} (hrod : s.rodAt u r = some rod)
  (hfree : rod.frees = n :: ns)

include hrod hfree

theorem enqueueInitial_of_free : s.enqueueInitial x u r =
    s.enqueueNew { unit := u, rod := r, slot := n } (fitRecord r rod x.initialBead) := by
  simp only [enqueueInitial, hrod, Rod.freeSlot?_of_frees hfree]

theorem rodChanged_enqueueInitial : s.RodChanged (s.enqueueInitial x u r) u r
    (rod.withReady n { record := fitRecord r rod x.initialBead, use := .ready, uid := s.nextBead }) := by
  rw [enqueueInitial_of_free hrod hfree]
  exact rodChanged_enqueueNew (b := { unit := u, rod := r, slot := n }) hrod _

theorem enqueueInitial_slotAt (c : SlotId) : (s.enqueueInitial x u r).slotAt c =
    if c = { unit := u, rod := r, slot := n } then
      some { record := fitRecord r rod x.initialBead, use := .ready, uid := s.nextBead } else s.slotAt c :=
  (rodChanged_enqueueInitial hrod hfree).slotAt_put (b := { unit := u, rod := r, slot := n }) hrod rfl c

theorem enqueueInitial_nextBead : (s.enqueueInitial x u r).nextBead = s.nextBead + 1 := by
  rw [enqueueInitial_of_free hrod hfree, enqueueNew_rest (b := { unit := u, rod := r, slot := n }) _ hrod]

theorem enqueueInitial_pend : (s.enqueueInitial x u r).pend = s.pend ++ [.pickupGrant u] := by
  rw [enqueueInitial_of_free hrod hfree, enqueueNew_pend (b := { unit := u, rod := r, slot := n }) _ hrod]

/-- A slot in use is not the one that the bead takes. -/
theorem enqueueInitial_used {c : SlotId} {z : BeadSlot} (hc : s.slotAt c = some z) : (s.enqueueInitial x u r).slotAt c = some z := by
  rw [enqueueInitial_slotAt hrod hfree, if_neg, hc]
  rintro rfl
  have hnone := find?_freeSlot (Rod.freeSlot?_of_frees hfree)
  rw [slotAt_of_rodAt hrod, hnone] at hc
  cases hc

end One

/-! ### The initial beads in turn -/

/-- One initial bead for each rod of a list. -/
def enqueueAll (s : State) (x : Part) (es : List (Nat × Nat)) : State := es.foldl (fun t e => t.enqueueInitial x e.1 e.2) s

theorem enqueueAll_cons (s : State) (x : Part) (e : Nat × Nat) (es : List (Nat × Nat)) :
    s.enqueueAll x (e :: es) = (s.enqueueInitial x e.1 e.2).enqueueAll x es := rfl

theorem enqueueAll_rest (s : State) (x : Part) (es : List (Nat × Nat)) : s.enqueueAll x es = { s with
    units := (s.enqueueAll x es).units, nextBead := (s.enqueueAll x es).nextBead, pend := (s.enqueueAll x es).pend } := by
  induction es generalizing s with
  | nil => rfl
  | cons e es ih => rw [enqueueAll_cons, ih, enqueueInitial_rest]

/-- Every rod of a list has a free slot for each time that the list names it. -/
def HasRoom (s : State) (es : List (Nat × Nat)) : Prop :=
  ∀ e ∈ es, ∃ rod, s.rodAt e.1 e.2 = some rod ∧ es.count e ≤ rod.frees.length

/-- The first rod of a list that has room has a lowest free slot. -/
theorem HasRoom.head {s : State} {e : Nat × Nat} {es : List (Nat × Nat)} (h : s.HasRoom (e :: es)) :
    ∃ rod n ns, s.rodAt e.1 e.2 = some rod ∧ rod.frees = n :: ns := by
  obtain ⟨rod, hrod, hlen⟩ := h e (List.mem_cons_self ..)
  rw [List.count_cons_self] at hlen
  obtain ⟨n, ns, hns⟩ := List.exists_cons_of_length_pos (l := rod.frees) (by omega)
  exact ⟨rod, n, ns, hrod, hns⟩

/-- After its first bead the list has room for the others. -/
theorem HasRoom.tail {s : State} {e : Nat × Nat} {es : List (Nat × Nat)} (x : Part) (h : s.HasRoom (e :: es)) :
    (s.enqueueInitial x e.1 e.2).HasRoom es := by
  obtain ⟨rod, n, ns, hrod, hfree⟩ := h.head
  have hch := rodChanged_enqueueInitial (x := x) hrod hfree
  intro a ha
  obtain ⟨rodA, hrodA, hlen⟩ := h a (List.mem_cons_of_mem _ ha)
  by_cases hae : a = e
  · subst hae
    obtain rfl : rodA = rod := Option.some_injective _ (hrodA.symm.trans hrod)
    refine ⟨_, hch.same, ?_⟩
    rw [Rod.frees_withReady hfree]
    rw [hfree, List.count_cons_self, List.length_cons] at hlen
    omega
  · refine ⟨rodA, (hch.other _ _ fun hq => hae (Prod.ext hq.1 hq.2)).trans hrodA, ?_⟩
    rwa [List.count_cons_of_ne (Ne.symm hae)] at hlen

section All

variable {s : State} {x : Part} {es : List (Nat × Nat)} (h : s.HasRoom es)

include h

theorem enqueueAll_used {c : SlotId} {z : BeadSlot} (hc : s.slotAt c = some z) : (s.enqueueAll x es).slotAt c = some z := by
  induction es generalizing s with
  | nil => exact hc
  | cons e es ih =>
    obtain ⟨rod, n, ns, hrod, hfree⟩ := h.head
    exact ih (h.tail x) (enqueueInitial_used hrod hfree hc)

/-- Each rod takes its beads at its tail, in its lowest free slots. -/
theorem enqueueAll_ready {e : Nat × Nat} {rod : Rod} (hrod : s.rodAt e.1 e.2 = some rod) :
    ((s.enqueueAll x es).rodAt e.1 e.2).map Rod.ready = some (rod.ready ++ rod.frees.take (es.count e)) := by
  induction es generalizing s rod with
  | nil => simp [enqueueAll, hrod]
  | cons a es ih =>
    obtain ⟨rodA, n, ns, hrodA, hfree⟩ := h.head
    have hch := rodChanged_enqueueInitial (x := x) hrodA hfree
    rw [enqueueAll_cons]
    by_cases hae : e = a
    · subst hae
      obtain rfl : rodA = rod := Option.some_injective _ (hrodA.symm.trans hrod)
      rw [ih (h.tail x) hch.same, Rod.frees_withReady hfree, hfree, List.count_cons_self, List.take_succ_cons]
      simp [Rod.withReady]
    · rw [ih (h.tail x) ((hch.other _ _ fun hq => hae (Prod.ext hq.1 hq.2)).trans hrod), List.count_cons_of_ne (Ne.symm hae)]

theorem enqueueAll_pend : (∀ i ∈ s.pend, i ∈ (s.enqueueAll x es).pend) ∧ ∀ e ∈ es, Ev.pickupGrant e.1 ∈ (s.enqueueAll x es).pend := by
  induction es generalizing s with
  | nil => exact ⟨fun _ hi => hi, fun _ he => absurd he List.not_mem_nil⟩
  | cons a es ih =>
    obtain ⟨rod, n, ns, hrod, hfree⟩ := h.head
    obtain ⟨hmono, hgrants⟩ := ih (h.tail x)
    have hpend := enqueueInitial_pend (x := x) hrod hfree
    refine ⟨fun i hi => hmono i (hpend ▸ List.mem_append_left _ hi), List.forall_mem_cons.2 ⟨?_, hgrants⟩⟩
    exact hmono _ (hpend ▸ List.mem_append_right _ (List.mem_singleton_self _))

/-- The i-th bead stands in the slot that its rod has left after the beads before it. -/
theorem enqueueAll_slot {i : Nat} {e : Nat × Nat} {rod : Rod} (he : es[i]? = some e) (hrod : s.rodAt e.1 e.2 = some rod) :
    ∃ n, rod.frees[(es.take i).count e]? = some n ∧ (s.enqueueAll x es).slotAt { unit := e.1, rod := e.2, slot := n } =
      some { record := fitRecord e.2 rod x.initialBead, use := .ready, uid := s.nextBead + i } := by
  induction es generalizing s i rod with
  | nil => simp at he
  | cons a es ih =>
    obtain ⟨rodA, n, ns, hrodA, hfree⟩ := h.head
    have hch := rodChanged_enqueueInitial (x := x) hrodA hfree
    have hnext := enqueueInitial_nextBead (x := x) hrodA hfree
    rw [enqueueAll_cons]
    cases i with
    | zero =>
      obtain rfl : a = e := by simpa using he
      obtain rfl : rodA = rod := Option.some_injective _ (hrodA.symm.trans hrod)
      refine ⟨n, by simp [hfree], enqueueAll_used (h.tail x) ?_⟩
      rw [enqueueInitial_slotAt hrodA hfree, if_pos rfl, Nat.add_zero]
    | succ i =>
      have he' : es[i]? = some e := by simpa using he
      have huid : s.nextBead + (i + 1) = (s.enqueueInitial x a.1 a.2).nextBead + i := by rw [hnext]; omega
      rw [huid, List.take_succ_cons]
      by_cases hae : e = a
      · subst hae
        obtain rfl : rodA = rod := Option.some_injective _ (hrodA.symm.trans hrod)
        obtain ⟨m, hm, hslot⟩ := ih (h.tail x) he' hch.same
        rw [Rod.frees_withReady hfree] at hm
        exact ⟨m, by rw [hfree, List.count_cons_self, List.getElem?_cons_succ, hm], hslot⟩
      · rw [List.count_cons_of_ne (Ne.symm hae)]
        exact ih (h.tail x) he' ((hch.other _ _ fun hq => hae (Prod.ext hq.1 hq.2)).trans hrod)

end All

/-! ### The ramp begins (R85, R395) -/

/-- A tile of a ramp, its step raised to what is demanded of it. -/
def ramped (f : Tile → Tile) (s : State) (k : Nat) : State := (s.modTile k f).raiseStep k

/-- A tile stands at a place of its ramp, its step at least what is demanded of it, and no more where the ramp asks for none. -/
structure OnRamp (s : State) (ramp : Ramp) (n : Nat) (none : Prop) (k : Nat) : Prop where
  ramp : (s.tileAt k).ramp = ramp
  rampStep : (s.tileAt k).rampStep = n
  least : s.stepTarget k ≤ (s.tileAt k).step
  exact : none → (s.tileAt k).step = s.stepTarget k

theorem stepTarget_congr {s t : State} {k : Nat} (hr : (t.tileAt k).ramp = (s.tileAt k).ramp)
    (hn : (t.tileAt k).rampStep = (s.tileAt k).rampStep) (hd : t.dies = s.dies) (hs : t.sys = s.sys) :
    t.stepTarget k = s.stepTarget k := by
  have hdie (d : Nat) : t.dieAt d = s.dieAt d := by unfold dieAt; rw [hd]
  have hreg (b o : Nat) : t.sysReg b o = s.sysReg b o := by unfold sysReg; rw [hs]
  simp only [stepTarget, hr, hn, hdie, hreg]

theorem OnRamp.of_eq {s t : State} {r : Ramp} {n : Nat} {z : Prop} {k : Nat} (h : s.OnRamp r n z k)
    (ht : t.tileAt k = s.tileAt k) (hd : t.dies = s.dies) (hs : t.sys = s.sys) : t.OnRamp r n z k := by
  have htarget := stepTarget_congr (congrArg Tile.ramp ht) (congrArg Tile.rampStep ht) hd hs
  constructor
  · rw [ht, h.ramp]
  · rw [ht, h.rampStep]
  · rw [htarget, ht]; exact h.least
  · rw [htarget, ht]; exact h.exact

section Ramped

variable {f : Tile → Tile} {r : Ramp} {n : Nat} {z : Prop} (hr : ∀ y, (f y).ramp = r) (hn : ∀ y, (f y).rampStep = n)
  (hz : z → ∀ y, (f y).step = 0)

theorem ramped_rest (s : State) (k : Nat) : s.ramped f k = { s with tiles := (s.ramped f k).tiles } := rfl

include hr hn hz

theorem onRamp_ramped (s : State) (k : Nat) : (s.ramped f k).OnRamp r n z k := by
  have htile : (s.ramped f k).tileAt k = { f (s.tileAt k) with step := max (f (s.tileAt k)).step ((s.modTile k f).stepTarget k) } := by
    simp only [ramped, raiseStep, modTile_eq, tileAt_putTile_same]
  have htarget : (s.ramped f k).stepTarget k = (s.modTile k f).stepTarget k :=
    stepTarget_congr (by rw [htile, modTile_eq, tileAt_putTile_same]) (by rw [htile, modTile_eq, tileAt_putTile_same]) rfl rfl
  constructor
  · rw [htile]; exact hr _
  · rw [htile]; exact hn _
  · rw [htarget, htile]; exact le_max_right ..
  · intro h
    rw [htarget, htile, hz h, Nat.zero_max]

theorem onRamp_ramped_other {s : State} {k j : Nat} (h : s.OnRamp r n z j) : (s.ramped f k).OnRamp r n z j := by
  by_cases hjk : j = k
  · subst hjk; exact onRamp_ramped hr hn hz s j
  · refine h.of_eq ?_ rfl rfl
    simp only [ramped, raiseStep, modTile_eq, tileAt_putTile, if_neg hjk]

theorem onRamp_foldl (ks : List Nat) {s : State} {k : Nat} (h : k ∈ ks ∨ s.OnRamp r n z k) :
    (ks.foldl (ramped f) s).OnRamp r n z k := by
  induction ks generalizing s with
  | nil => exact h.resolve_left List.not_mem_nil
  | cons j ks ih =>
    rw [List.foldl_cons]
    refine ih ?_
    rcases h with h | h
    · rcases List.mem_cons.1 h with rfl | h
      · exact .inr (onRamp_ramped hr hn hz s k)
      · exact .inl h
    · exact .inr (onRamp_ramped_other hr hn hz h)

end Ramped

theorem foldl_ramped_rest (f : Tile → Tile) (ks : List Nat) (s : State) :
    ks.foldl (ramped f) s = { s with tiles := (ks.foldl (ramped f) s).tiles } := by
  induction ks generalizing s with
  | nil => rfl
  | cons k ks ih => rw [List.foldl_cons, ih, ramped_rest]

section Start

variable {s : State} {p : Nat} {x : Part} (hx : s.partAt p = some x)

include hx

theorem startRampUp_of_zero (h : x.rampUp = 0) : s.startRampUp p =
    x.tiles.foldl (ramped fun y => { y with ramp := .steady, rampStep := 0, step := 0 }) s := by
  simp only [startRampUp, hx, h, if_true]; rfl

theorem startRampUp_of_pos (h : x.rampUp ≠ 0) : s.startRampUp p =
    (x.tiles.foldl (ramped fun y => { y with ramp := .up, rampStep := 7 })
      (s.putPart p { x with rampUs := x.rampUp, rampFrom := s.cyc })).arm [.rampUpStep p] := by
  simp only [startRampUp, hx, h, if_false]; rfl

theorem startRampUp_rest : s.startRampUp p = { s with
    parts := (s.startRampUp p).parts, tiles := (s.startRampUp p).tiles, timers := (s.startRampUp p).timers } := by
  by_cases h : x.rampUp = 0
  · rw [startRampUp_of_zero hx h, foldl_ramped_rest]
  · rw [startRampUp_of_pos hx h, foldl_ramped_rest]; rfl

theorem startRampUp_startCyc : ((s.startRampUp p).partAt p).map Part.startCyc = some x.startCyc := by
  by_cases h : x.rampUp = 0
  · rw [startRampUp_of_zero hx h, foldl_ramped_rest]
    exact congrArg (Option.map Part.startCyc) hx
  · rw [startRampUp_of_pos hx h, foldl_ramped_rest]
    have hput := partAt_putPart s p p { x with rampUs := x.rampUp, rampFrom := s.cyc }
    rw [if_pos rfl] at hput
    exact congrArg (Option.map Part.startCyc) hput

theorem startRampUp_onRamp {k : Nat} (hk : k ∈ x.tiles) : (s.startRampUp p).OnRamp (if x.rampUp = 0 then .steady else .up)
    (if x.rampUp = 0 then 0 else 7) (x.rampUp = 0) k := by
  by_cases h : x.rampUp = 0
  · rw [startRampUp_of_zero hx h, if_pos h, if_pos h]
    exact onRamp_foldl (f := fun y : Tile => { y with ramp := .steady, rampStep := 0, step := 0 }) (fun _ => rfl) (fun _ => rfl)
      (fun _ _ => rfl) x.tiles (.inl hk)
  · rw [startRampUp_of_pos hx h, if_neg h, if_neg h]
    have hramp := onRamp_foldl (f := fun y : Tile => { y with ramp := .up, rampStep := 7 }) (r := .up) (n := 7) (z := x.rampUp = 0)
      (fun _ => rfl) (fun _ => rfl) (fun hz => absurd hz h) x.tiles
      (s := s.putPart p { x with rampUs := x.rampUp, rampFrom := s.cyc }) (.inl hk)
    exact hramp.of_eq rfl rfl rfl

end Start

/-! ### INITIAL_BEAD_ENQUEUE (R79, R85) -/

/-- The rods of a partition's initial beads, tile by tile. -/
def initialRods (s : State) (p : Nat) (x : Part) : List (Nat × Nat) := x.tiles.map fun k => (unitOf k, s.initialRod p x k)

/-- A cluster's tiles share one rod, which the list names once for each of them. -/
theorem count_initialRods (s : State) (p : Nat) (x : Part) (ks : List Nat) (k : Nat) :
    (ks.map fun j => (unitOf j, s.initialRod p x j)).count (unitOf k, s.initialRod p x k) =
      (ks.filter fun j => unitOf j == unitOf k).length := by
  rw [List.count, List.countP_map, List.countP_eq_length_filter]
  congr 2
  funext j
  by_cases h : unitOf j = unitOf k
  · have hrod : s.initialRod p x j = s.initialRod p x k := by unfold initialRod; rw [h]
    simp [h, hrod]
  · simp [h]

theorem started_partAt (s : State) (p : Nat) (x : Part) :
    ((s.enqueueAll x (s.initialRods p x)).putPart p { x with startCyc := s.cyc }).partAt p = some { x with startCyc := s.cyc } := by
  rw [partAt_putPart, if_pos rfl]

section Initial

variable {s : State} {p : Nat} {x : Part} (hx : s.partAt p = some x)

include hx

theorem initialBeadEnqueue_eq : s.initialBeadEnqueue p =
    ((s.enqueueAll x (s.initialRods p x)).putPart p { x with startCyc := s.cyc }).startRampUp p := by
  have hpart : (s.enqueueAll x (s.initialRods p x)).partAt p = some x := by
    unfold partAt
    rw [enqueueAll_rest]
    exact hx
  simp only [initialBeadEnqueue, hx]
  change ((s.enqueueAll x (s.initialRods p x)).modPart p fun y => { y with startCyc := s.cyc }).startRampUp p = _
  rw [modPart, hpart]

theorem initialBeadEnqueue_rest : s.initialBeadEnqueue p = { s with
    units := (s.enqueueAll x (s.initialRods p x)).units, nextBead := (s.initialBeadEnqueue p).nextBead
    pend := (s.enqueueAll x (s.initialRods p x)).pend, parts := (s.initialBeadEnqueue p).parts
    tiles := (s.initialBeadEnqueue p).tiles, timers := (s.initialBeadEnqueue p).timers } := by
  rw [initialBeadEnqueue_eq hx, startRampUp_rest (started_partAt s p x), enqueueAll_rest]; rfl

end Initial

end State

open State

theorem exec_initialBeadEnqueue {s : State} {p : Nat} (hm : s.msg = some (.initialBeadEnqueue p)) :
    exec .initialBeadEnqueue s = .next (s.initialBeadEnqueue p) := by
  change execInitialBeadEnqueue s = _
  rw [execInitialBeadEnqueue, hm]

end Sys2Proof.Machine
end

