-- ==== Sys2Proof/Proofs/Launching.lean ====
section
/-! The obligation of launches, part by part: LAUNCH, the host's command, the arbiter, placement, initial beads (R54, R55, R72-R81,
R85, R141). -/

namespace Sys2Proof.Machine

open Sys2Proof State

/-! ### LAUNCH (R141) -/

/-- Any LAUNCH that the arbiter has taken: no register written, a commit, no other core changed, a number taken. -/
def LaunchSent (s t : State) : Prop :=
  RegsSame s.me t.me [] ∧ CommitsAt { s.me with tlb := t.me.tlb } t.me s.me.npc 0 ∧ OthersSame s t s.cur ∧
    t.nextLaunch = s.nextLaunch + 1

/-- The completion record of a launch at a place is filled (R69, R141). -/
def RecordFilled (s2 u : State) (l stat : Nat) : Prop :=
  s2.Holds (s2.runsFrom l 8 ++ s2.runsFrom (s2.placeFrom l 8) 24) (leBytes 8 (stat * 2 ^ 48 + 2 ^ 32) ++ List.replicate 24 0) u ∧
    metaF (u.metaAt (l / 32)) = true

section Launch

variable {s s1 s2 : State} (htr : Translated s s1 s.cur) {loc : Option Nat} (hs2 : s1.launched loc = s2)

include htr hs2

theorem sendLaunch_sent (cr : Word) (kd : Option (List Word)) : LaunchSent s (s1.sendLaunch cr loc kd) := by
  have hnext : s2.nextLaunch = s.nextLaunch := by rw [← hs2, launched_nextLaunch, htr.rest]
  obtain ⟨hkept, hnumber⟩ := offerLaunch_bead s2 (s.origin cr) s1.launchStream kd
  rw [sendLaunch_eq, htr.origin rfl]
  rw [hnext] at hnumber
  rw [← hs2] at hkept hnumber
  obtain ⟨hregs, hcommits, hothers⟩ := launched_commits htr hkept
  exact ⟨hregs, hcommits, hothers, hnumber⟩

/-- A launch that is refused leaves the arbiter and fills its completion record (R141). -/
theorem launch_refused {t : State} {o : Origin} {st : LaunchStream} {ws : List Word} {stat : Nat} (hstat : stat < 256)
    (ht : t = s2.numbered.refuseLaunch (s2.offered (.bead o) st ws) stat) :
    (∀ m ∈ t.launches, m ∈ s.launches) ∧
      ∀ l, o.cr ≠ 0 → s2.probe o.issuer o.cr 32 32 = .ok l → RecordFilled s2 t l stat := by
  have hlaunches := refuseLaunch_bead_launches s2 o st ws (stat := stat)
  have hs2launches : s2.launches = s.launches := by rw [← hs2, launched_launches, htr.rest]
  rw [← ht, hs2launches] at hlaunches
  refine ⟨hlaunches, fun l hcr hp => ?_⟩
  rw [ht]
  exact refuseLaunch_bead_fills s2 o st ws hstat hcr hp

/-- A direct descriptor waits at the arbiter; no byte has changed, and the completion record is empty (R72, R141). -/
theorem launch_waits {t : State} {o : Origin} {st : LaunchStream} {ws : List Word} {w h : Nat} {sh : Word}
    (hn : s.neverFits w h = false) (ht : t = (s2.queued (.bead o) st ws).shapeKnown (s2.offered (.bead o) st ws) w h sh) :
    t.LaunchWaits s.nextLaunch (.bead o) ws w h ∧ (∀ y, t.byte y = s.byte y) ∧
      ∀ l, loc = some l → metaF (t.metaAt (l / 32)) = false := by
  have hfits : (s2.queued (.bead o) st ws).neverFits w h = false :=
    (neverFits_congr (by rw [queued, numbered, ← hs2, launched_tiles, htr.rest]) w h).trans hn
  have hwaits := shapeKnown_waits (sh := sh) hfits offered_mem_queued
  have hrest := shapeKnown_rest (l := s2.offered (.bead o) st ws) (sh := sh) hfits
  rw [← ht] at hwaits hrest
  have hid : (s2.offered (.bead o) st ws).id = s.nextLaunch := by rw [offered, ← hs2, launched_nextLaunch, htr.rest]
  have hmem : t.mem = s.mem := by rw [hrest, queued, numbered, ← hs2, launched_mem, htr.rest]
  have hgmeta : t.gmeta = s2.gmeta := by rw [hrest, queued, numbered]
  rw [hid] at hwaits
  refine ⟨hwaits, byte_of_mem_eq hmem, fun l hl => ?_⟩
  have hempty : s2.gmeta = ((s1.clearR s1.cur).setEmpty loc).gmeta := by rw [← hs2]; rfl
  rw [metaAt_of_gmeta_eq (hgmeta.trans hempty), hl, metaF_setEmpty]

end Launch

theorem translated_noteFailed (s : State) (k : Nat) (i : Issuer) (va : Word) (n : Nat) (f : FaultInfo) :
    Translated s (s.noteFailed i va n f) k := translated_of_acnt k (noteFailed_rest s i va n f)

/-- The first part of the obligation: LAUNCH, its checks and what becomes of its descriptor. -/
theorem launch_answers (s : State) (pfx : Pfx) (a b : Nat) :
    let kd := s.sr a
    let cr := s.sr b
    (kd.toNat % 64 ≠ 0 → exec (.launch pfx a b) s = .next (s.trap { cause := 0x06, va := kd })) ∧
    (∀ f, kd.toNat % 64 = 0 → s.probeRecord cr = .error f → exec (.launch pfx a b) s = .next (s.trap f)) ∧
    (∀ loc f, kd.toNat % 64 = 0 → s.probeRecord cr = .ok loc → s.readKd (s.origin cr).issuer kd = .error f →
      let s2 := (((s.noteFailed (s.origin cr).issuer kd 128 f).clearR s.cur).setEmpty loc).retire
      Answers (exec (.launch pfx a b) s) fun t => LaunchSent s t ∧ (∀ m ∈ t.launches, m ∈ s.launches) ∧
        ∀ l, cr ≠ 0 → s2.probe (s.origin cr).issuer cr 32 32 = .ok l → RecordFilled s2 t l 7) ∧
    ∀ loc bs, kd.toNat % 64 = 0 → s.probeRecord cr = .ok loc → s.readKd (s.origin cr).issuer kd = .ok bs →
      let ws := wordsOf 16 bs
      let s2 := (((s.noteRange (s.origin cr).issuer kd 128).clearR s.cur).setEmpty loc).retire
      Answers (exec (.launch pfx a b) s) fun t => LaunchSent s t ∧
        (kdOk ws s.me.world = true → Kd.indirect ws = false → s.neverFits (fld (wd ws 2) 0 5) (fld (wd ws 2) 8 5) = false →
          t.LaunchWaits s.nextLaunch (.bead (s.origin cr)) ws (fld (wd ws 2) 0 5) (fld (wd ws 2) 8 5) ∧
            (∀ y, t.byte y = s.byte y) ∧ ∀ l, loc = some l → metaF (t.metaAt (l / 32)) = false) ∧
        (kdOk ws s.me.world = false → (∀ m ∈ t.launches, m ∈ s.launches) ∧
          ∀ l, cr ≠ 0 → s2.probe (s.origin cr).issuer cr 32 32 = .ok l → RecordFilled s2 t l 2) := by
  intro kd cr
  refine ⟨exec_launch_of_misaligned pfx, fun f h hp => exec_launch_of_unprobed pfx h hp, fun loc f h hp hr => ?unread,
    fun loc bs h hp hr => ?read⟩
  case unread =>
    intro s2
    have htr := translated_noteFailed s s.cur (s.origin cr).issuer kd 128 f
    have hexec := exec_launch_of_probed pfx h hp
    rw [hr, arbitrate] at hexec
    have hs2 : (s.noteFailed (s.origin cr).issuer kd 128 f).launched loc = s2 := by rw [launched, htr.cur]
    clear_value s2
    generalize s.noteFailed (s.origin cr).issuer kd 128 f = s1 at htr hexec hs2
    refine ⟨_, hexec, sendLaunch_sent htr hs2 cr none, ?_⟩
    refine launch_refused htr hs2 (o := s.origin cr) (st := s1.launchStream) (ws := []) (by decide) ?_
    rw [sendLaunch_eq, htr.origin rfl, hs2, offerLaunch_of_unread]
  case read =>
    intro ws s2
    have htr : Translated s (s.noteRange (s.origin cr).issuer kd 128) s.cur := translated_noteRange s (s.origin cr).issuer kd 128
    have hexec := exec_launch_of_probed pfx h hp
    rw [hr, arbitrate] at hexec
    have hs2 : (s.noteRange (s.origin cr).issuer kd 128).launched loc = s2 := by rw [launched, htr.cur]
    clear_value s2
    generalize s.noteRange (s.origin cr).issuer kd 128 = s1 at htr hexec hs2
    have hsent : s1.sendLaunch cr loc (some ws) = s2.offerLaunch (.bead (s.origin cr)) s1.launchStream (some ws) := by
      rw [sendLaunch_eq, htr.origin rfl, hs2]
    have hallowed : Allowed (.bead (s.origin cr)) ws := fun _ h => by cases h
    refine ⟨_, hexec, sendLaunch_sent htr hs2 cr (some ws), fun hk hi hn => ?waits, fun hk => ?refused⟩
    case waits => exact launch_waits htr hs2 hn (hsent.trans (offerLaunch_of_direct hallowed hk hi))
    case refused => exact launch_refused htr hs2 (by decide) (hsent.trans (offerLaunch_of_broken hallowed hk))

/-! ### The host's command and indirect records (R72, R73, R75) -/

/-- The host's command, its checks and what becomes of its descriptor. -/
theorem hostLaunchCommand_performs (s : State) (ctag : BitVec 32) (kd : Word) :
    (kd.toNat % 64 ≠ 0 → Performs s (.hostLaunchCommand ctag kd) fun u => u.launches = s.launches ∧
      u.host.held = s.host.held ++ [{ stat := 2, ctag := ctag, enk := 0, cyc := 0 }]) ∧
    (∀ f, kd.toNat % 64 = 0 → s.readKd hostIssuer kd = .error f →
      Performs s (.hostLaunchCommand ctag kd) fun u => s.HostRefused u s.nextLaunch 7 ctag) ∧
    ∀ bs, kd.toNat % 64 = 0 → s.readKd hostIssuer kd = .ok bs →
      let ws := wordsOf 16 bs
      (Kd.secure ws = true → Performs s (.hostLaunchCommand ctag kd) fun u => s.HostRefused u s.nextLaunch 3 ctag) ∧
      (Kd.secure ws = false → kdOk ws false = false →
        Performs s (.hostLaunchCommand ctag kd) fun u => s.HostRefused u s.nextLaunch 2 ctag) ∧
      (Kd.secure ws = false → kdOk ws false = true → Kd.indirect ws = false →
        s.neverFits (fld (wd ws 2) 0 5) (fld (wd ws 2) 8 5) = true →
        Performs s (.hostLaunchCommand ctag kd) fun u => s.HostRefused u s.nextLaunch 4 ctag) ∧
      (Kd.secure ws = false → kdOk ws false = true → Kd.indirect ws = false →
        s.neverFits (fld (wd ws 2) 0 5) (fld (wd ws 2) 8 5) = false → Performs s (.hostLaunchCommand ctag kd) fun u =>
          u.LaunchWaits s.nextLaunch (.host ctag) ws (fld (wd ws 2) 0 5) (fld (wd ws 2) 8 5) ∧ SameMemory s u ∧
            u.cores = s.cores) := by
  refine ⟨fun h => ?_, fun f h hr => ?_, fun bs h hr => ?_⟩
  · refine performs_of_exec exec_hostLaunchCommand ?_
    rw [hostLaunchCommand_of_misaligned h]
    exact ⟨hostNext_launches _, hostNext_held _⟩
  · refine performs_of_exec exec_hostLaunchCommand ?_
    rw [hostLaunchCommand_of_unread h hr, offerLaunch_of_unread]
    exact (homeRead_noteFailed s kd 128 f).refuses 7
  · intro ws
    have hread := homeRead_noteRange s kd 128
    have hallowed (hs : Kd.secure ws = false) : Allowed (.host ctag) ws := fun _ _ => hs
    refine ⟨fun hs => performs_of_exec exec_hostLaunchCommand ?_, fun hs hk => performs_of_exec exec_hostLaunchCommand ?_,
      fun hs hk hi hn => performs_of_exec exec_hostLaunchCommand ?_,
      fun hs hk hi hn => performs_of_exec exec_hostLaunchCommand ?_⟩ <;> rw [hostLaunchCommand_of_read h hr]
    · rw [offerLaunch_of_secure hs]
      exact hread.refuses 3
    · rw [offerLaunch_of_broken (hallowed hs) hk]
      exact hread.refuses 2
    · rw [offerLaunch_of_direct (hallowed hs) hk hi]
      exact hread.refuses_misfit hn
    · rw [offerLaunch_of_direct (hallowed hs) hk hi]
      exact hread.waits_direct hn

/-- An indirect record that the host's launch names, as it is read. -/
theorem indirectRecordRead_performs (s : State) (id : Nat) (l : Launch) (ctag : BitVec 32) (bs : List Byte)
    (hl : (s.launches.find? fun m => m.id == id && !m.ready) = some l) (hby : l.by_ = .host ctag)
    (hr : s.readPlace hostIssuer (wd l.kd 4) 16 = .ok bs) :
    let w0 := wd (wordsOf 2 bs) 0
    let sh := wd (wordsOf 2 bs) 1
    let good : Prop := fld w0 13 51 = 0 ∧ fld w0 5 3 = 0 ∧ shapeOk (fld w0 0 5) (fld w0 8 5) sh = true
    (w0 = 0 → sh = 0 → Performs s (.indirectRecordRead id) fun u => s.HostRefused u id 0 ctag) ∧
    (¬ (w0 = 0 ∧ sh = 0) → ¬ good → Performs s (.indirectRecordRead id) fun u => s.HostRefused u id 2 ctag) ∧
    (¬ (w0 = 0 ∧ sh = 0) → good → s.neverFits (fld w0 0 5) (fld w0 8 5) = true →
      Performs s (.indirectRecordRead id) fun u => s.HostRefused u id 4 ctag) ∧
    (¬ (w0 = 0 ∧ sh = 0) → good → s.neverFits (fld w0 0 5) (fld w0 8 5) = false → Performs s (.indirectRecordRead id) fun u =>
      u.LaunchWaits id (.host ctag) l.kd (fld w0 0 5) (fld w0 8 5) ∧ SameMemory s u ∧ u.cores = s.cores) := by
  intro w0 sh good
  have hid : l.id = id := by
    have hfound := List.find?_some hl
    simp only [Bool.and_eq_true, beq_iff_eq] at hfound
    exact hfound.1
  have hmem : l ∈ s.launches := List.mem_of_find?_eq_some hl
  have hread := homeRead_noteRange s (wd l.kd 4) 16
  have hgood : good ↔ ¬ (fld w0 13 51 ≠ 0 ∨ fld w0 5 3 ≠ 0 ∨ (!shapeOk (fld w0 0 5) (fld w0 8 5) sh) = true) := by
    simp [good, not_or]
  refine ⟨fun h0 h1 => performs_of_exec exec_indirectRecordRead ?_, fun h0 hbad => performs_of_exec exec_indirectRecordRead ?_,
    fun h0 hok hn => performs_of_exec exec_indirectRecordRead ?_,
    fun h0 hok hn => performs_of_exec exec_indirectRecordRead ?_⟩ <;> rw [indirectRecordRead_of_read hl hby hr]
  · rw [if_pos ⟨h0, h1⟩]
    exact hread.refuses_record hby hid 0
  · rw [if_neg h0, if_pos (not_not.1 fun h => hbad (hgood.2 h))]
    exact hread.refuses_record hby hid 2
  · rw [if_neg h0, if_neg (hgood.1 hok)]
    exact hread.refuses_record_misfit hby hid hn
  · rw [if_neg h0, if_neg (hgood.1 hok)]
    exact hread.waits_record hby hid hmem hn

/-! ### Placement (R77-R81) -/

/-- A placement whose root join word has room. -/
theorem kernelPlacement_performs (s : State) (id : Nat) (l : Launch) (p : Nat) (o : Nat × Nat) (loc : Nat)
    (hl : (s.launches.find? fun m => m.id == id) = some l) (hp : s.freeNumber = some p)
    (ho : s.findOrigin l.w l.h (Kd.nrod l.kd) = some o) :
    let x := s.newPart l o.1 o.2
    let s1 := s.setUp p x
    s1.probeWord (deviceIssuer (tileAtXY o.1 o.2) (some p) x.world l.kd) (wd l.kd 5) = .ok loc →
    s1.spanPoisoned loc 16 = false → s1.joinCount loc + l.w * l.h ≤ 2 ^ 32 - 1 →
    Performs s (.kernelPlacement id) fun u =>
      s1.Holds (s1.runsFrom loc 4) (leBytes 4 (s1.joinCount loc + l.w * l.h)) u ∧
      u.partAt p = some { x with rootLoc := some (s1.locKey loc) } ∧ (∀ m ∈ u.launches, m.id ≠ id) ∧
      Ev.initialBeadEnqueue p ∈ u.pend ∧
      (∀ k ∈ rectTiles o.1 o.2 l.w l.h,
        let t := u.tileAt k
        let D (i : Nat) := fld l.tshape (16 * i) 16
        t.part = some p ∧ t.idx = tileX k - o.1 ∧ t.idy = tileY k - o.2 ∧ t.idw = l.w ∧ t.idh = l.h ∧ (u.coreAt k).ent = 0 ∧
        (D 0 ≠ 0 →
          t.org = [min (t.idx * ((D 0 + l.w - 1) / l.w)) (D 0), min (t.idy * ((D 1 + l.h - 1) / l.h)) (D 1), 0, 0] ∧
          t.ext = [min ((D 0 + l.w - 1) / l.w) (D 0 - t.org.getD 0 0), min ((D 1 + l.h - 1) / l.h) (D 1 - t.org.getD 1 0),
            D 2, D 3])) ∧
      ∀ k ∈ rectTiles o.1 o.2 l.w l.h, ∀ j r,
        ((s.unitAt (unitOf k)).freeRods.take (Kd.nrod l.kd))[j]? = some r → u.rodAt (unitOf k) r =
          some { part := some p, cap := 2 ^ Kd.ring l.kd, prio := min j 3, world := Kd.secure l.kd, wdog := Kd.wdog l.kd } := by
  intro x s1 hr hok hn
  obtain ⟨hholds, hpart, hlaunches, hpend, htiles, hrods⟩ := kernelPlacement_places hl hp ho hr hok hn
  refine performs_of_exec exec_kernelPlacement ⟨hholds, hpart, hlaunches, hpend, fun k hk => ?_, hrods⟩
  obtain ⟨htile, hent⟩ := htiles k hk
  intro t D
  have ht : t = (s.tileAt k).identify p x (tileX k - o.1) (tileY k - o.2) := htile
  have hdiv := identify_divides (s.tileAt k) p x (tileX k - o.1) (tileY k - o.2)
  rw [← ht] at hdiv
  have hidx : t.idx = tileX k - o.1 := by rw [ht]; rfl
  have hidy : t.idy = tileY k - o.2 := by rw [ht]; rfl
  refine ⟨by rw [ht]; rfl, hidx, hidy, by rw [ht]; rfl, by rw [ht]; rfl, hent, fun hD => ?_⟩
  rw [hidx, hidy]
  exact hdiv hD

/-! ### The initial beads (R79, R85) -/

section Initial

variable {s : State} {p : Nat} {x : Part} (hx : s.partAt p = some x)

include hx

/-- The ramp begins with the initial beads (R85). -/
theorem initialBeadEnqueue_ramps : Performs s (.initialBeadEnqueue p) fun u => u.cores = s.cores ∧ SameMemory s u ∧
    (u.partAt p).map Part.startCyc = some s.cyc ∧ ∀ k ∈ x.tiles,
      (u.tileAt k).ramp = (if x.rampUp = 0 then .steady else .up) ∧
      (u.tileAt k).rampStep = (if x.rampUp = 0 then 0 else 7) ∧ u.stepTarget k ≤ (u.tileAt k).step ∧
      (x.rampUp = 0 → (u.tileAt k).step = u.stepTarget k) := by
  have hrest := initialBeadEnqueue_rest hx
  have hstarted := started_partAt s p x
  refine performs_of_exec exec_initialBeadEnqueue ⟨by rw [hrest], sameMemory_of_eq (by rw [hrest]) (by rw [hrest]), ?_,
    fun k hk => ?_⟩
  · rw [initialBeadEnqueue_eq hx]
    exact startRampUp_startCyc hstarted
  · rw [initialBeadEnqueue_eq hx]
    have hramp := startRampUp_onRamp hstarted hk
    exact ⟨hramp.ramp, hramp.rampStep, hramp.least, hramp.exact⟩

/-- One bead a tile, the tiles in row-major order (R79, R55). -/
theorem initialBeadEnqueue_enqueues :
    let r (k : Nat) : Nat := s.initialRod p x k
    let among (ks : List Nat) (k : Nat) : Nat := (ks.filter fun j => unitOf j == unitOf k).length
    (∀ k ∈ x.tiles, ∃ rod, s.rodAt (unitOf k) (r k) = some rod ∧ among x.tiles k ≤ rod.frees.length) →
    Performs s (.initialBeadEnqueue p) fun u => ∀ i k rod, x.tiles[i]? = some k → s.rodAt (unitOf k) (r k) = some rod →
      (u.rodAt (unitOf k) (r k)).map Rod.ready = some (rod.ready ++ rod.frees.take (among x.tiles k)) ∧
      Ev.pickupGrant (unitOf k) ∈ u.pend ∧
      ∃ n, rod.frees[among (x.tiles.take i) k]? = some n ∧
        u.slotAt ⟨unitOf k, r k, n⟩ = some { use := .ready, record := fitRecord (r k) rod x.initialBead, uid := s.nextBead + i } := by
  intro r among hroom
  have hcount (ks : List Nat) (k : Nat) : (ks.map fun j => (unitOf j, r j)).count (unitOf k, r k) = among ks k :=
    count_initialRods s p x ks k
  have hhas : s.HasRoom (s.initialRods p x) := fun e he => by
    obtain ⟨k, hk, rfl⟩ := List.mem_map.1 he
    obtain ⟨rod, hrod, hlen⟩ := hroom k hk
    exact ⟨rod, hrod, (hcount x.tiles k).trans_le hlen⟩
  have hrest := initialBeadEnqueue_rest hx
  refine performs_of_exec exec_initialBeadEnqueue fun i k rod hk hrod => ?_
  have hunits : (s.initialBeadEnqueue p).units = (s.enqueueAll x (s.initialRods p x)).units := by rw [hrest]
  have hpend : (s.initialBeadEnqueue p).pend = (s.enqueueAll x (s.initialRods p x)).pend := by rw [hrest]
  have hget : (s.initialRods p x)[i]? = some (unitOf k, r k) := by rw [initialRods, List.getElem?_map, hk]; rfl
  obtain ⟨n, hn, hslot⟩ := enqueueAll_slot hhas hget hrod
  refine ⟨?_, ?_, n, ?_, ?_⟩
  · rw [rodAt_of_units_eq hunits, ← hcount]
    exact enqueueAll_ready (e := (unitOf k, r k)) hhas hrod
  · rw [hpend]
    exact (enqueueAll_pend hhas).2 _ (List.mem_of_getElem? hget)
  · rw [← hcount, List.map_take]
    exact hn
  · rw [slotAt_of_units_eq hunits, hslot]

end Initial

/-! ### The obligation -/

/-- Settles O51 from its parts: LAUNCH, the host's command, indirect records, retries, placement and the initial beads. -/
theorem launching : Obligations.Launching := by
  unfold Obligations.Launching
  intro s direct Waits Refused Fills
  refine ⟨fun pfx a b => ?launch, fun i kd bs => readKd_eq_ok_iff s i kd bs, fun ctag kd => ?host,
    fun id l ctag bs hl hby hr => ?indirect, fun l hl => performs_of_exec exec_launchRetry (launchRetry_of_due hl),
    fun hnone => ⟨fun l hl => performs_of_exec exec_launchRetry (launchRetry_of_fitting hnone hl),
      fun hl => performs_of_exec exec_launchRetry (launchRetry_of_waiting hnone hl)⟩,
    fun id l p o loc hl hp ho => kernelPlacement_performs s id l p o loc hl hp ho,
    fun p x hx => ⟨initialBeadEnqueue_ramps hx, initialBeadEnqueue_enqueues hx⟩⟩
  case launch =>
    obtain ⟨hmis, hprobe, hunread, hread⟩ := launch_answers s pfx a b
    refine ⟨hmis, hprobe, fun loc f h hp hr => ?_, fun loc bs h hp => ?_⟩
    · obtain ⟨t, hexec, ⟨hregs, hcommits, hothers, hnext⟩, hlaunches, hfills⟩ := hunread loc f h hp hr
      exact ⟨t, hexec, hregs, hcommits, hothers, hnext, hlaunches, hfills⟩
    · intro i hr
      obtain ⟨t, hexec, ⟨hregs, hcommits, hothers, hnext⟩, hwaits, hrefused⟩ := hread loc bs h hp hr
      exact ⟨t, hexec, hregs, hcommits, hothers, hnext, fun hk hd => hwaits hk hd.1 hd.2, hrefused⟩
  case host =>
    obtain ⟨hmis, hunread, hread⟩ := hostLaunchCommand_performs s ctag kd
    refine ⟨hmis, hunread, fun bs h hr => ?_⟩
    obtain ⟨hsecure, hbroken, hmisfit, hwaits⟩ := hread bs h hr
    exact ⟨hsecure, hbroken, hmisfit, fun hs hk hd => hwaits hs hk hd.1 hd.2⟩
  case indirect => exact indirectRecordRead_performs s id l ctag bs hl hby hr

end Sys2Proof.Machine
end

