-- ==== Sys2Proof/Proofs/Canon.lean ====
section
/-! The canonical form of the three sparse memories (log 8), and how it carries over to what the writes of a state, a fold, an
`Except`, an `Option` or a pair give. -/

namespace Sys2Proof.Machine

open Sys2Proof

namespace State

/-- The three sparse memories of a state stand in canonical form.  It is irreducible so that `keep` and the rules below, and
not an unfolding of whole states, decide what it carries over to. -/
@[irreducible] def Canon (s : State) : Prop := s.memWf = true

variable {s : State}

theorem canon_iff : s.Canon ↔ Memory.wf s.mem = true ∧ Memory.wf s.hostMem = true ∧ Map.wf 0 s.gmeta = true := by
  unfold Canon
  simp only [memWf, Bool.and_eq_true, and_assoc]

namespace Canon

/-- What leaves the three memories as they are keeps their form. -/
theorem keep {t : State} (h : s.Canon) (hsame : (t.mem, t.hostMem, t.gmeta) = (s.mem, s.hostMem, s.gmeta)) : t.Canon := by
  rw [Prod.mk.injEq, Prod.mk.injEq] at hsame
  obtain ⟨hmem, hhost, hmeta⟩ := hsame
  rw [canon_iff] at h ⊢
  rw [hmem, hhost, hmeta]
  exact h

theorem putByte {loc : Nat} {b : Byte} (h : s.Canon) : (s.putByte loc b).Canon := by
  obtain ⟨hmem, hrest⟩ := canon_iff.1 h
  exact canon_iff.2 ⟨Map.wf_set loc b hmem, hrest⟩

theorem putMeta {g : Nat} {m : BitVec 12} (h : s.Canon) : (s.putMeta g m).Canon := by
  obtain ⟨hmem, hhost, hmeta⟩ := canon_iff.1 h
  exact canon_iff.2 ⟨hmem, hhost, Map.wf_set g m hmeta⟩

theorem putHost {bs : List Byte} {a : Nat} (h : s.Canon) : (s.putHost a bs).Canon := by
  induction bs generalizing s a with
  | nil => exact h
  | cons b bs ih =>
    obtain ⟨hmem, hhost, hmeta⟩ := canon_iff.1 h
    exact ih (canon_iff.2 ⟨hmem, Map.wf_set a b hhost, hmeta⟩)

theorem setSys {block off : Nat} {v : Word} (h : s.Canon) : (s.setSys block off v).Canon := .keep h rfl

theorem freeWord (h : s.Canon) : s.freeWord.2.Canon := .keep h rfl

theorem push {es : List Ev} (h : s.Canon) : (s.push es).Canon := .keep h rfl

theorem arm {es : List Ev} (h : s.Canon) : (s.arm es).Canon := .keep h rfl

theorem emit {o : Out} (h : s.Canon) : (s.emit o).Canon := .keep h rfl

theorem putCore {k : Nat} {c : Core} (h : s.Canon) : (s.putCore k c).Canon := .keep h rfl

theorem setMe {c : Core} (h : s.Canon) : (s.setMe c).Canon := .keep h rfl

theorem putUnit {u : Nat} {x : BeadUnit} (h : s.Canon) : (s.putUnit u x).Canon := .keep h rfl

theorem putLink {k : Nat} {x : Link} (h : s.Canon) : (s.putLink k x).Canon := .keep h rfl

theorem modCore {k : Nat} {f : Core → Core} (h : s.Canon) : (s.modCore k f).Canon := .keep h rfl

theorem modTile {k : Nat} {f : Tile → Tile} (h : s.Canon) : (s.modTile k f).Canon := .keep h rfl

theorem modUnit {u : Nat} {f : BeadUnit → BeadUnit} (h : s.Canon) : (s.modUnit u f).Canon := .keep h rfl

theorem modPart {p : Nat} {f : Part → Part} (h : s.Canon) : (s.modPart p f).Canon := by
  rw [modPart_rest]
  exact .keep h rfl

theorem ite {c : Prop} [Decidable c] {a b : State} (ha : a.Canon) (hb : b.Canon) : (if c then a else b).Canon := by
  split
  · exact ha
  · exact hb

theorem foldl {α : Type} {f : State → α → State} {l : List α} (h : s.Canon) (hf : ∀ t x, t.Canon → (f t x).Canon) :
    (l.foldl f s).Canon := by
  induction l generalizing s with
  | nil => exact h
  | cons x l ih => exact ih (hf s x h)

end Canon
end State

/-- The next state of an answer, if there is one, has its memories in canonical form. -/
def CanonNext (r : Host.Outcome State Fault Refusal) : Prop := ∀ t, r = .next t → t.Canon

/-- What an `Except` gives, if it is no error, has a property. -/
def OkHas {ε α : Type} (P : α → Prop) (r : Except ε α) : Prop := ∀ a, r = .ok a → P a

theorem OkHas.ok {ε α : Type} {P : α → Prop} {a : α} (h : P a) : OkHas P (.ok a : Except ε α) := by
  rintro _ ⟨⟩
  exact h

theorem OkHas.error {ε α : Type} {P : α → Prop} {e : ε} : OkHas P (.error e : Except ε α) := by
  rintro _ ⟨⟩

theorem OkHas.bind {ε α β : Type} {P : β → Prop} {Q : α → Prop} {r : Except ε α} {f : α → Except ε β} (hr : OkHas Q r)
    (hf : ∀ a, Q a → OkHas P (f a)) : OkHas P (r >>= f) := by
  cases r with
  | error e => exact .error
  | ok a => exact hf a (hr a rfl)

theorem OkHas.skip {ε α β : Type} {P : β → Prop} {r : Except ε α} {f : α → Except ε β} (hf : ∀ a, OkHas P (f a)) :
    OkHas P (r >>= f) :=
  .bind (Q := fun _ => True) (fun _ _ => trivial) fun a _ => hf a

theorem OkHas.pure {ε α : Type} {P : α → Prop} {a : α} (h : P a) : OkHas P (Pure.pure a : Except ε α) := .ok h

theorem OkHas.foldlM {ε α β : Type} {P : β → Prop} {f : β → α → Except ε β} {l : List α} {b : β} (h : P b)
    (hf : ∀ c x, P c → OkHas P (f c x)) : OkHas P (l.foldlM f b) := by
  induction l generalizing b with
  | nil => exact .ok h
  | cons x l ih =>
    rw [List.foldlM_cons]
    exact .bind (hf b x h) fun _ hc => ih hc

theorem OkHas.ite {ε α : Type} {P : α → Prop} {c : Prop} [Decidable c] {a b : Except ε α} (ha : OkHas P a) (hb : OkHas P b) :
    OkHas P (if c then a else b) := by
  split
  · exact ha
  · exact hb

/-- What an `Option` holds, if anything, has a property. -/
def SomeHas {α : Type} (P : α → Prop) (r : Option α) : Prop := ∀ a, r = some a → P a

theorem SomeHas.some {α : Type} {P : α → Prop} {a : α} (h : P a) : SomeHas P (some a) := by
  rintro _ ⟨⟩
  exact h

theorem SomeHas.none {α : Type} {P : α → Prop} : SomeHas P (none : Option α) := by
  rintro _ ⟨⟩

/-- The first part of a pair has a property.  A structure, so that the kernel compares pairs as they stand and evaluates
none. -/
structure FstHas {α β : Type} (P : α → Prop) (p : α × β) : Prop where
  fst : P p.1

theorem FstHas.foldl {α β γ : Type} {P : α → Prop} {f : α × β → γ → α × β} {l : List γ} {p : α × β} (h : FstHas P p)
    (hf : ∀ q x, P q.1 → FstHas P (f q x)) : FstHas P (l.foldl f p) := by
  induction l generalizing p with
  | nil => exact h
  | cons x l ih => exact ih (hf p x h.fst)

theorem OkHas.liftE {α : Type} {P : α → Prop} {r : Except FaultInfo α} (h : OkHas P r) : OkHas P (liftE r) := by
  cases r with
  | error e => exact .error
  | ok a => exact .ok (h a rfl)

theorem CanonNext.next {t : State} (h : t.Canon) : CanonNext (.next t) := by
  rintro _ ⟨⟩
  exact h

end Sys2Proof.Machine
end

