-- ==== Sys2Proof/Proofs/CanonWrites.lean ====
section
/-! The writes of bytes, metadata, slots, trap records and parked beads keep the memories' canonical form (R155, R165 to R167,
log 8). -/

namespace Sys2Proof.Machine

open Sys2Proof

namespace State.Canon

variable {s : State}

theorem putBytes {loc : Nat} {bs : List Byte} (h : s.Canon) : (s.putBytes loc bs).Canon := by
  induction bs generalizing s loc with
  | nil => exact h
  | cons b bs ih => exact ih h.putByte

theorem noteWrite {g : Nat} {f : Bool} (h : s.Canon) : (s.noteWrite g f).Canon := by
  unfold State.noteWrite
  dsimp only
  exact .ite (.push (.keep (.putMeta h) rfl)) (.keep (.putMeta h) rfl)

theorem countUnit {loc : Nat} (h : s.Canon) : (s.countUnit loc).Canon := by
  rw [countUnit_rest]
  exact .keep h rfl

theorem countWalked {i : Issuer} {va : Word} (h : s.Canon) : (s.countWalked i va).Canon := by
  rw [countWalked_rest]
  exact .keep h rfl

theorem noteTlb {i : Issuer} {va : Word} (h : s.Canon) : (s.noteTlb i va).Canon := by
  rw [noteTlb_rest]
  exact .keep h rfl

theorem useTlb {va : Word} (h : s.Canon) : (s.useTlb va).Canon := .noteTlb h

theorem countAt {i : Issuer} {va : Word} (h : s.Canon) : (s.countAt i va).Canon := by
  rw [countAt_rest]
  exact .keep h rfl

theorem noteFailed {i : Issuer} {va : Word} {n : Nat} {f : FaultInfo} (h : s.Canon) : (s.noteFailed i va n f).Canon := by
  rw [noteFailed_rest]
  exact .keep h rfl

theorem pokeRecord {loc : Nat} {bs : List Byte} (h : s.Canon) : (s.pokeRecord loc bs).Canon := by
  rw [pokeRecord_rest]
  exact .keep h rfl

theorem noteWords {loc n : Nat} (h : s.Canon) : (s.noteWords loc n).Canon := by
  rw [noteWords_rest]
  exact .keep h rfl

theorem landBytes {loc : Nat} {bs : List Byte} (h : s.Canon) : (s.landBytes loc bs).Canon := by
  unfold State.landBytes
  dsimp only
  split
  · exact .putBytes (.noteWords (.pokeRecord (.putBytes h)))
  · exact .noteWords (.pokeRecord (.putBytes h))

theorem storeBytes {loc : Nat} {bs : List Byte} (h : s.Canon) : (s.storeBytes loc bs).Canon := .keep (.landBytes h) rfl

theorem countRun {loc n : Nat} (h : s.Canon) : (s.countRun loc n).Canon := by
  rw [countRun_rest]
  exact .keep h rfl

theorem countPieces {ps : List (Nat × Nat)} (h : s.Canon) : (s.countPieces ps).Canon := by
  rw [countPieces_rest]
  exact .keep h rfl

theorem markWrite {loc n : Nat} (h : s.Canon) : (s.markWrite loc n).Canon := .ite (.foldl h fun _ _ ht => .noteWrite ht) h

theorem putAt {loc : Nat} {bs : List Byte} (h : s.Canon) : (s.putAt loc bs).Canon := .markWrite (.storeBytes h)

theorem writeAt {loc : Nat} {bs : List Byte} (h : s.Canon) : (s.writeAt loc bs).Canon := .countRun (.putAt h)

theorem evuPutAt {loc : Nat} {bs : List Byte} (h : s.Canon) : (s.evuPutAt loc bs).Canon := .markWrite (.landBytes h)

theorem spanCount {loc n : Nat} (h : s.Canon) : (s.spanCount loc n).Canon := .countPieces h

theorem putPieces {ps : List (Nat × Nat)} {bs : List Byte} (h : s.Canon) : (s.putPieces ps bs).Canon := by
  induction ps generalizing s bs with
  | nil => exact h
  | cons p ps ih => exact ih h.putAt

theorem fillPieces {ps : List (Nat × Nat)} {bs : List Byte} (h : s.Canon) : (s.fillPieces ps bs).Canon :=
  .putPieces (.countPieces h)

theorem spanWrite {loc : Nat} {bs : List Byte} (h : s.Canon) : (s.spanWrite loc bs).Canon := .fillPieces h

theorem stewardRecord {die : Nat} {ws : List Word} (h : s.Canon) : (s.stewardRecord die ws).1.Canon := by
  unfold State.stewardRecord
  dsimp only
  split
  · exact h
  · dsimp only
    exact .writeAt (.writeAt (.countUnit h))

theorem tellSteward {die kind : Nat} {part : Option Nat} {ws : List Word} (h : s.Canon) :
    (s.tellSteward die kind part ws).1.Canon := by
  unfold State.tellSteward
  dsimp only
  split
  · dsimp only
    exact .keep (.stewardRecord h) rfl
  · dsimp only
    exact .keep (.stewardRecord h) rfl

theorem areaFill {i : Issuer} {area va : Word} {ps hs : List (Nat × Nat)} {ws : List Word} {head : Nat} (h : s.Canon) :
    (s.areaFill i area va ps hs ws head).Canon := .fillPieces (.fillPieces (.countWalked (.countAt (.countWalked h))))

theorem areaWrite {i : Issuer} {area : Word} {ws : List Word} (h : s.Canon) :
    SomeHas (fun p => p.1.Canon) (s.areaWrite i area ws) := by
  unfold State.areaWrite
  split
  · exact .none
  · dsimp only
    split
    · exact .none
    · split
      · exact .some (.areaFill h)
      · exact .none

theorem areaTried {i : Issuer} {area : Word} (h : s.Canon) : (s.areaTried i area).Canon := by
  unfold State.areaTried
  split
  · exact .noteFailed h
  · dsimp only
    split
    · exact .countAt (.countWalked h)
    · exact .noteFailed (.countAt (.countWalked h))
    · exact .countAt (.countWalked h)

theorem partRecord {p : Nat} {ws : List Word} (h : s.Canon) : (s.partRecord p ws).1.Canon := by
  unfold State.partRecord
  split
  · exact .tellSteward h
  · extract_lets s1
    have hs1 : s1.Canon := .keep h rfl
    split
    next h2 => exact Canon.areaWrite hs1 _ h2
    · exact .tellSteward (.areaTried hs1)

theorem fileRecord {k : Nat} {ws : List Word} (h : s.Canon) : (s.fileRecord k ws).1.Canon := by
  unfold State.fileRecord
  split
  · split
    · exact .partRecord h
    · exact .tellSteward h
  · split
    · dsimp only
      split
      next h3 => exact Canon.areaWrite h _ h3
      · exact .tellSteward (.areaTried h)
    · exact .tellSteward h

theorem record {k : Nat} {f : FaultInfo} {rpc : Word} (h : s.Canon) : (s.record k f rpc).Canon := .fileRecord h

theorem modRod {u r : Nat} {f : Rod → Rod} (h : s.Canon) : (s.modRod u r f).Canon := by
  rw [modRod_rest]
  exact .keep h rfl

theorem putSlot {b : SlotId} {x : BeadSlot} (h : s.Canon) : (s.putSlot b x).Canon := by
  rw [putSlot_rest]
  exact .keep h rfl

theorem modRecord {b : SlotId} {f : BeadRec → BeadRec} (h : s.Canon) : (s.modRecord b f).Canon := by
  rw [modRecord_rest]
  exact .keep h rfl

theorem freeSlot {b : SlotId} (h : s.Canon) : (s.freeSlot b).Canon := by
  rw [freeSlot_rest]
  exact .keep h rfl

theorem appendTail {b : SlotId} {rec_ : BeadRec} {uid : Nat} (h : s.Canon) : (s.appendTail b rec_ uid).Canon := by
  rw [appendTail_rest]
  exact .keep h rfl

theorem newBead (h : s.Canon) : s.newBead.2.Canon := .keep h rfl

theorem wroteSlot {b : SlotId} (h : s.Canon) : (s.wroteSlot b).Canon := .keep h rfl

theorem enqueueNew {b : SlotId} {rec_ : BeadRec} (h : s.Canon) : (s.enqueueNew b rec_).Canon :=
  .wroteSlot (.appendTail (.newBead h))

theorem appendHead {b : SlotId} {rec_ : BeadRec} {uid : Nat} (h : s.Canon) : (s.appendHead b rec_ uid).Canon :=
  .push (.modRod h)

theorem clearR {k : Nat} (h : s.Canon) : (s.clearR k).Canon := by
  rw [clearR_rest]
  exact .keep h rfl

theorem dropTileWork {k : Nat} (h : s.Canon) : (s.dropTileWork k).Canon := by
  unfold State.dropTileWork
  dsimp only
  exact .ite (.keep h rfl) (.keep h rfl)

theorem idleCore {k : Nat} (h : s.Canon) : (s.idleCore k).Canon := .keep h rfl

theorem loseBead {k : Nat} (h : s.Canon) : (s.loseBead k).Canon := by
  unfold State.loseBead
  dsimp only
  exact .idleCore <| by
    split
    · exact .modTile <| by
        split
        · split
          · exact .putSlot h
          · exact h
        · exact h
    · split
      · split
        · exact .putSlot h
        · exact h
      · exact h

theorem doubleTrap {k cause : Nat} (h : s.Canon) : (s.doubleTrap k cause).Canon := by
  unfold State.doubleTrap
  dsimp only
  exact .ite (.modCore (.keep (.record h) rfl)) (.loseBead (.keep (.record h) rfl))

theorem trapEntry {k : Nat} {f : FaultInfo} {epc : Word} (h : s.Canon) : (s.trapEntry k f epc).Canon := by
  unfold State.trapEntry
  split
  · exact .doubleTrap h
  · dsimp only
    exact .modCore <| by
      split
      · exact h
      · exact .fileRecord h

theorem trap {f : FaultInfo} (h : s.Canon) : (s.trap f).Canon := .trapEntry h

theorem trapCause {cause : Nat} (h : s.Canon) : (s.trapCause cause).Canon := .trap h

theorem orTrap {r : Except FaultInfo State} (h : s.Canon) (hr : OkHas Canon r) : (orTrap s r).Canon := by
  unfold Machine.orTrap
  split
  · exact hr _ rfl
  · exact .trap h

theorem addOutcome {core bead : Nat} {kind : WorkKind} {bits : BitVec 5} (h : s.Canon) :
    (s.addOutcome core bead kind bits).Canon := .ite h (.keep h rfl)

theorem noteRange {i : Issuer} {va : Word} {n : Nat} (h : s.Canon) : (s.noteRange i va n).Canon := by
  rw [noteRange_rest]
  exact .keep h rfl

theorem withLoad {va : Word} {n : Nat} {k : State → List Byte → State} (h : s.Canon)
    (hk : ∀ t bs, t.Canon → (k t bs).Canon) : (s.withLoad va n k).Canon := by
  unfold State.withLoad
  split
  · exact .trap (.noteFailed h)
  · exact hk _ _ (.noteRange h)

theorem installPark {u granule : Nat} {world : Bool} {b : SlotId} (h : s.Canon) :
    SomeHas Canon (s.installPark u granule world b) := by
  unfold State.installPark
  dsimp only
  split
  · exact .some (.keep h rfl)
  · split
    · exact .some (.keep h rfl)
    · exact .none

theorem removePark {b : SlotId} (h : s.Canon) : (s.removePark b).Canon := .keep h rfl

theorem dropRegions {b : SlotId} (h : s.Canon) : (s.dropRegions b).Canon := .foldl h fun _ _ ht => .keep ht rfl

theorem wakeSlot {b : SlotId} (h : s.Canon) : (s.wakeSlot b).Canon := by
  unfold State.wakeSlot
  split
  · exact h
  · exact .appendTail (.dropRegions h)

theorem wakeUnit {u granule : Nat} (h : s.Canon) : (s.wakeUnit u granule).Canon := by
  unfold State.wakeUnit
  dsimp only
  exact .foldl (.keep h rfl) fun _ _ ht => .wakeSlot ht

theorem parkBead {k : Nat} {resume : Word} (h : s.Canon) : (s.parkBead k resume).Canon := by
  unfold State.parkBead
  extract_lets c
  split
  · exact h
  · extract_lets s1 s2 s3 s4
    have hs2 : s2.Canon := by
      unfold s2
      split
      · exact .putSlot (.modRecord h)
      · exact .modRecord h
    have hs4 : s4.Canon := .idleCore (.modUnit hs2)
    split
    · exact .ite (.wakeSlot (.removePark hs4)) hs4
    · exact hs4

theorem onTile {r : State} (h : s.Canon) (hr : r.Canon) : (s.onTile r).Canon := .ite hr (.trapCause h)

theorem notSteward {r : State} (h : s.Canon) (hr : r.Canon) : (s.notSteward r).Canon := .ite (.trapCause h) hr

theorem secureOnly {r : State} (h : s.Canon) (hr : r.Canon) : (s.secureOnly r).Canon := .ite hr (.trapCause h)

theorem branch {taken : Bool} {disp : Int} (h : s.Canon) : (s.branch taken disp).Canon := .ite (.keep h rfl) (.keep h rfl)

end State.Canon
end Sys2Proof.Machine
end

