-- ==== Sys2Proof/Proofs/CanonAccesses.lean ====
section
/-! Loads, stores, atomics, bank operations and the sequencer's releases keep the memories' canonical form (log 8). -/

namespace Sys2Proof.Machine

open Sys2Proof

namespace State.Canon

variable {s : State}

theorem demandWork {k : Nat} {d : Demand} {afrc ofrc : Nat} (h : s.Canon) : (s.demandWork k d afrc ofrc).Canon :=
  .ite (.doubleTrap h) (.keep h rfl)

theorem forceFirst {k : Nat} {ns : List Nat} (h : s.Canon) : (s.forceFirst k ns).Canon := .demandWork h

theorem putNode {k p : Nat} {n : Node} (h : s.Canon) : (s.putNode k p n).Canon := .keep h rfl

theorem walkDemand {k fuel p : Nat} {ts : List Nat} (h : s.Canon) : (State.walkDemand k fuel s p ts).Canon := by
  induction fuel generalizing s p ts with
  | zero => exact h
  | succ fuel ih =>
    unfold State.walkDemand
    split
    · exact h
    · refine .ite h (.foldl (.putNode h) fun t r ht => ?_)
      split
      · exact ih ht
      · exact ht

theorem demandServe {tile : Nat} (h : s.Canon) : (s.demandServe tile).Canon := by
  unfold State.demandServe
  split
  · exact h
  · dsimp only
    exact .keep (.foldl h fun _ _ ht => .walkDemand ht) rfl

theorem outputTileEvaluate {tile node out : Nat} (h : s.Canon) : (s.outputTileEvaluate tile node out).Canon := by
  unfold State.outputTileEvaluate
  split
  · exact h
  · split
    · split
      · exact .keep h rfl
      · dsimp only
        exact .ite (.keep h rfl) (.keep h rfl)
    · exact h

theorem addTile {k : Nat} {n : Node} {e : Reserve} (h : s.Canon) : (s.addTile k n e).Canon :=
  .foldl h fun _ _ ht => by
    dsimp only
    exact .writeAt ht

theorem releaseGroup {k : Nat} {n : Node} {grp : List Reserve} (h : s.Canon) : OkHas Canon (s.releaseGroup k n grp) := by
  unfold State.releaseGroup
  dsimp only
  split
  · exact .ok (.foldl h fun _ _ ht => .addTile ht)
  · split
    · split
      · exact .error
      · split
        · exact .error
        · exact .ok (.foldl (.foldl h fun _ _ ht => .writeAt ht) fun _ _ ht => .writeAt ht)
    · split
      · exact .error
      · exact .ok (.foldl h fun _ _ ht => .writeAt ht)

theorem markDone {k p : Nat} {outs : List Nat} (h : s.Canon) : (s.markDone k p outs).Canon := by
  unfold State.markDone
  split
  · exact .keep h rfl
  · split
    · exact h
    · dsimp only
      exact .ite (.keep h rfl) (.keep h rfl)

theorem outputTileRelease {tile node out : Nat} (h : s.Canon) : (s.outputTileRelease tile node out).Canon := by
  unfold State.outputTileRelease
  split
  · exact h
  · split
    · dsimp only
      split
      · exact .keep h rfl
      next h4 => exact .markDone (.modTile (Canon.releaseGroup h _ h4))
    · exact h

theorem lateRegion {r : Option (Nat × EvuRegion)} (h : s.Canon) : (s.lateRegion r).Canon := by
  unfold State.lateRegion
  split
  · exact h
  · exact .ite (.keep h rfl) h

theorem demandComplete {tile : Nat} (h : s.Canon) : (s.demandComplete tile).Canon := by
  unfold State.demandComplete
  split
  · exact h
  · dsimp only
    split
    · exact .trapEntry <| by
        split <;> exact .keep h rfl
    · exact .trapEntry (.keep h rfl)
    · exact .keep h rfl
    · exact .keep h rfl
    · exact .lateRegion (.parkBead (.keep h rfl))

theorem dropNodes {k : Nat} {ns : List Nat} (h : s.Canon) : (s.dropNodes k ns).Canon := by
  rw [dropNodes_rest]
  exact .keep h rfl

theorem tdropService {tile : Nat} {nodes : List Nat} (h : s.Canon) : (s.tdropService tile nodes).Canon :=
  .modCore (.dropNodes h)

theorem loadInto {k : Nat} {dst : LoadDst} {got : List (Lane × List Byte)} (h : s.Canon) : (s.loadInto k dst got).Canon := by
  unfold State.loadInto
  dsimp only
  split
  · split <;> exact .keep h rfl
  · exact .keep h rfl

theorem countLanes {ls : List Lane} (h : s.Canon) : (s.countLanes ls).Canon := .countPieces h

theorem loadDataReturn {q : LoadReq} (h : s.Canon) : (s.loadDataReturn q).Canon := by
  unfold State.loadDataReturn
  split
  · exact .trapEntry (.countLanes h)
  · exact .loadInto (.countLanes h)

theorem issueLoad {dst : LoadDst} {at_ : Option Word} {n : Nat} {scaled : Bool} {es : List (Nat × Word)} (h : s.Canon) :
    (s.issueLoad dst at_ n scaled es).Canon := by
  unfold State.issueLoad
  dsimp only
  split
  · exact .trap (.noteFailed h)
  · split
    · exact .loadInto (.foldl h fun _ _ ht => .useTlb ht)
    · exact .push (.foldl h fun _ _ ht => .useTlb ht)
    · split <;> exact .trap (.countLanes (.foldl h fun _ _ ht => .useTlb ht))

theorem loadScalar {ty : Ty} {rm d : Nat} {ea : Word} (h : s.Canon) : (s.loadScalar ty rm d ea).Canon := .issueLoad h

theorem storeCompletion {q : StoreReq} (h : s.Canon) : (s.storeCompletion q).Canon :=
  .foldl (.countPieces h) fun _ _ ht => .putAt ht

theorem issueStore {at_ : Option Word} {n : Nat} {scaled : Bool} {es : List (Nat × Word)}
    {data : State → Spot → List Byte × Flags} (h : s.Canon) : (s.issueStore at_ n scaled es data).Canon := by
  unfold State.issueStore
  dsimp only
  split
  · exact .trap (.noteFailed h)
  · split
    · exact .trap (.countLanes (.foldl h fun _ _ ht => .useTlb ht))
    · split
      · exact .forceFirst (.foldl h fun _ _ ht => .useTlb ht)
      · exact .push (.addOutcome (.setMe (.foldl h fun _ _ ht => .useTlb ht)))

theorem storeScalar {ty : Ty} {rm d : Nat} {ea : Word} (h : s.Canon) : (s.storeScalar ty rm d ea).Canon := by
  unfold State.storeScalar
  dsimp only
  exact .issueStore h

theorem sentAtomic {va : Word} {f : Flags} (h : s.Canon) : (s.sentAtomic va f).Canon := .modCore (.clearR (.useTlb h))

theorem issueAtomic {n : Nat} {fn : AtomFn} {signed : Bool} {d : Nat} {va b expected : Word} {f : Flags} (h : s.Canon) :
    (s.issueAtomic n fn signed d va b expected f).Canon := by
  unfold State.issueAtomic
  dsimp only
  split
  · exact .trap h
  · split
    · exact .ite (.trap (.sentAtomic h)) (.trap (.noteFailed h))
    · exact .push (.sentAtomic h)
    · exact .push (.sentAtomic h)
    · split
      · exact .ite (.push (.freeWord (.sentAtomic h))) (.trap (.freeWord (.sentAtomic h)))
      · exact .ite (.push (.freeWord (.sentAtomic h))) (.trap (.freeWord (.sentAtomic h)))
      · exact .trap (.freeWord (.sentAtomic h))
    · exact .trap h

theorem atomic {fn : AtomFn} {ty : Ty} {d a b : Nat} (h : s.Canon) : (s.atomic fn ty d a b).Canon := by
  unfold State.atomic
  dsimp only
  exact .issueAtomic h

theorem bankAtomicApply {q : AtomicReq} (h : s.Canon) : (s.bankAtomicApply q).Canon := by
  unfold State.bankAtomicApply
  dsimp only
  split
  · exact .push (.spanCount h)
  · split
    · exact .push (.spanCount h)
    · exact .push (.ite (.spanCount h) (.spanWrite h))

theorem atomicReply {core : Nat} {pc : Word} {dst : Nat} {r : Reply} (h : s.Canon) : (s.atomicReply core pc dst r).Canon := by
  unfold State.atomicReply
  split
  · exact .keep h rfl
  · exact .trapEntry h

theorem bankopLineApply {q : BankLine} (h : s.Canon) : (s.bankopLineApply q).Canon := by
  unfold State.bankopLineApply
  split
  · exact h
  · split
    · exact .keep h rfl
    · dsimp only
      exact .push (.writeAt h)

end State.Canon
end Sys2Proof.Machine
end

