-- ==== Sys2Proof/Proofs/CanonWork.lean ====
section
/-! Spawning, joining, pickup, barriers, the host's accesses, ramps, reset and copies keep the memories' canonical form
(log 8). -/

namespace Sys2Proof.Machine

open Sys2Proof

namespace State.Canon

variable {s : State}

theorem workRecord {core : Nat} {part : Option Nat} {bead : Word} {f : FaultInfo} (h : s.Canon) :
    (s.workRecord core part bead f).Canon := by
  unfold State.workRecord
  dsimp only
  split
  · exact .fileRecord h
  · split
    · exact .partRecord h
    · exact .tellSteward h

theorem postFree {die kind : Nat} {part : Option Nat} {rod : Nat} (h : s.Canon) : (s.postFree die kind part rod).Canon := by
  unfold State.postFree
  dsimp only
  exact .keep (.freeWord h) rfl

theorem postCheck {die : Nat} {part : Option Nat} {core : Nat} (h : s.Canon) : (s.postCheck die part core).Canon := .keep h rfl

theorem spawnRecord {k : Nat} {x : BeadRec} (h : s.Canon) : (s.spawnRecord k x).Canon := by
  unfold State.spawnRecord
  split
  · exact .trapCause h
  · split
    · exact .trapCause h
    · split
      · exact .trap h
      · split
        · exact .trapCause h
        · dsimp only
          split
          · exact .enqueueNew (.setMe (.setMe (.clearR h)))
          · exact .push (.modUnit (.putSlot (by
              unfold State.newBead
              dsimp only
              exact .keep (.clearR h) rfl)))

theorem enqueueChild {child : Option SlotId} (h : s.Canon) : (s.enqueueChild child).Canon := by
  unfold State.enqueueChild
  split
  · exact h
  · split
    · exact .appendTail h
    · exact h

theorem bankJoinIncrement {j : JoinReq} (h : s.Canon) : (s.bankJoinIncrement j).Canon := by
  unfold State.bankJoinIncrement
  split
  · dsimp only
    exact .workRecord (.spanCount <| by
      split
      · exact .freeSlot h
      · exact h)
  · split
    · exact .push (.spanCount h)
    · dsimp only
      exact .ite (.enqueueChild (.workRecord (.spanCount h))) (.enqueueChild (.spanWrite h))

theorem startRetire {p : Nat} (h : s.Canon) : (s.startRetire p).Canon := by
  unfold State.startRetire
  split
  · exact h
  · split
    · exact .keep h rfl
    · exact .keep h rfl
    · exact .keep h rfl
    · exact h
    · exact h

theorem bankJoinDecrement {j : JoinReq} (h : s.Canon) : (s.bankJoinDecrement j).Canon := by
  unfold State.bankJoinDecrement
  split
  · exact .workRecord (.spanCount h)
  · split
    · exact .push (.spanCount h)
    · dsimp only
      split
      · exact .workRecord (.spanCount h)
      · split
        · exact .spanWrite h
        · split
          · exact .foldl (.spanWrite h) fun _ _ ht => .startRetire ht
          · exact .ite (.spanWrite h) (.push (.spanWrite h))

theorem refuseContinuation {core : Nat} {part : Option Nat} {cont : Word} (h : s.Canon) :
    (s.refuseContinuation core part cont).Canon := by
  unfold State.refuseContinuation
  dsimp only
  exact .postFree (.workRecord h)

theorem placeContinuation {core r : Nat} {rod : Rod} {x : BeadRec} (h : s.Canon) :
    (s.placeContinuation core r rod x).Canon := by
  unfold State.placeContinuation
  dsimp only
  split
  · exact .enqueueNew h
  · exact .ite (.keep h rfl) (.keep h rfl)

theorem continuationEnqueue {s0 : State} {core : Nat} {part : Option Nat} {cont : Word} (h : s0.Canon) :
    (s0.continuationEnqueue core part cont).Canon := by
  unfold State.continuationEnqueue
  extract_lets s
  obtain ⟨t, ht⟩ := exists_eq (a' := s)
  have hs : t.Canon := ht ▸ .noteRange h
  rw [← ht]
  split
  · exact .refuseContinuation (.noteFailed h)
  · dsimp only
    split
    · exact .refuseContinuation hs
    · exact .ite (.refuseContinuation hs) (.placeContinuation hs)

theorem overflowListDrain {unit : Nat} (h : s.Canon) : (s.overflowListDrain unit).Canon := by
  unfold State.overflowListDrain
  dsimp only
  split
  · exact h
  · split
    · exact h
    · split
      · exact h
      · split
        · exact .push (.enqueueNew (.keep h rfl))
        · exact h

theorem endRun {j : Word} {join : Option Nat} (h : s.Canon) : (s.endRun j join).Canon := by
  unfold State.endRun
  dsimp only
  exact .idleCore <| by
    split
    · exact .push <| by
        split
        · exact .freeSlot (.setMe (.dropNodes h))
        · exact .setMe (.dropNodes h)
    · split
      · exact .freeSlot (.setMe (.dropNodes h))
      · exact .setMe (.dropNodes h)

theorem requeue (h : s.Canon) : s.requeue.Canon := by
  unfold State.requeue
  dsimp only
  split
  · exact h
  · exact .idleCore (.modUnit (.appendTail (.keep h rfl)))

theorem armWatchdog {k : Nat} (h : s.Canon) : (s.armWatchdog k).Canon := by
  rw [armWatchdog_rest]
  exact .keep h rfl

theorem pickup {k : Nat} {b : SlotId} {x : BeadRec} (h : s.Canon) : (s.pickup k b x).Canon := by
  unfold State.pickup
  dsimp only
  exact .armWatchdog (.ite (.modTile (.putCore (.putSlot h))) (.putCore (.putSlot h)))

theorem refusePop {k : Nat} {b : SlotId} (h : s.Canon) : (s.refusePop k b).Canon := by
  unfold State.refusePop
  dsimp only
  exact .postFree (.workRecord <| by
    split
    · exact .putSlot h
    · exact h)

theorem pickupGrant {unit : Nat} (h : s.Canon) : (s.pickupGrant unit).Canon := by
  unfold State.pickupGrant
  dsimp only
  split
  · exact h
  · split
    · exact .keep h rfl
    · split
      · exact .keep h rfl
      · exact .push (.ite (.pickup (.keep h rfl)) (.refusePop (.keep h rfl)))

theorem headBufferRefill {unit rod : Nat} (h : s.Canon) : (s.headBufferRefill unit rod).Canon := .modRod h

theorem barrierArrivalMessage {q : BarMsg} (h : s.Canon) : (s.barrierArrivalMessage q).Canon := by
  unfold State.barrierArrivalMessage
  dsimp only
  exact .ite (.keep h rfl) (.keep h rfl)

theorem barrierReleaseMessage {q : BarMsg} (h : s.Canon) : (s.barrierReleaseMessage q).Canon := by
  unfold State.barrierReleaseMessage
  dsimp only
  exact .push (.ite (.modTile (.ite (.keep h rfl) h)) (.ite (.keep h rfl) h))

theorem hostNext (h : s.Canon) : s.hostNext.Canon := by
  rw [hostNext_rest]
  exact .keep h rfl

theorem hcqtDoorbell {v : BitVec 32} (h : s.Canon) : (s.hcqtDoorbell v).Canon := .hostNext (.keep h rfl)

theorem hostQueueRegisterWrite {off : Nat} {v : Word} (h : s.Canon) : (s.hostQueueRegisterWrite off v).Canon := by
  unfold State.hostQueueRegisterWrite
  dsimp only
  split
  · exact .ite h (.keep h rfl)
  · exact .ite h (.keep h rfl)
  · exact .hcqtDoorbell h
  · exact .ite h (.keep h rfl)
  · exact .ite h (.keep h rfl)
  · exact .keep h rfl
  · exact .keep h rfl
  · exact h

theorem completionWrite (h : s.Canon) : s.completionWrite.Canon := by
  unfold State.completionWrite
  split
  · exact h
  · split
    · exact h
    · dsimp only
      exact .push (.ite (.keep (.putHost h) rfl) (.keep (.putHost h) rfl))

theorem hostNopCommand {ctag : BitVec 32} (h : s.Canon) : (s.hostNopCommand ctag).Canon := .hostNext (.keep h rfl)

theorem hostUnknownCommand {ctag : BitVec 32} (h : s.Canon) : (s.hostUnknownCommand ctag).Canon := .hostNext (.keep h rfl)

theorem hostFault {pa : Nat} {f : FaultInfo} {read : Bool} (h : s.Canon) : (s.hostFault pa f read).Canon := by
  unfold State.hostFault
  dsimp only
  exact .ite (.keep (.tellSteward h) rfl) (.tellSteward h)

theorem hostMemAccess {off n : Nat} {write : Option (List Byte)} (h : s.Canon) : (s.hostMemAccess off n write).Canon := by
  obtain ⟨loaded, hloaded⟩ := exists_eq (a' := s.readPieces)
  obtain ⟨placed, hplaced⟩ := exists_eq (a' := s.writePieces)
  unfold State.hostMemAccess
  rw [← hloaded, ← hplaced]
  dsimp only
  split
  · split
    · exact .hostFault (.noteFailed h)
    · exact .emit (.noteRange h)
  · split
    · exact .hostFault (.noteFailed h)
    · exact .fillPieces h

theorem lowerStep {k : Nat} (h : s.Canon) : (s.lowerStep k).Canon := by
  unfold State.lowerStep
  dsimp only
  exact .ite (.keep h rfl) (.ite (.keep h rfl) h)

theorem throttleStepDecay (h : s.Canon) : s.throttleStepDecay.Canon := .foldl h fun _ _ ht => .lowerStep ht

theorem throttleCauseDemand {die cause demand : Nat} (h : s.Canon) : (s.throttleCauseDemand die cause demand).Canon := by
  unfold State.throttleCauseDemand
  dsimp only
  exact .foldl (.keep h rfl) fun _ _ ht => .keep ht rfl

theorem startRampUp {p : Nat} (h : s.Canon) : (s.startRampUp p).Canon := by
  unfold State.startRampUp
  split
  · exact h
  · split
    · exact .foldl h fun _ _ ht => .keep ht rfl
    · dsimp only
      exact .arm (.foldl (.keep h rfl) fun _ _ ht => .keep ht rfl)

theorem rampUpStep {part : Nat} (h : s.Canon) : (s.rampUpStep part).Canon := by
  unfold State.rampUpStep
  split
  · exact h
  · extract_lets up s1 s2
    have hs2 : s2.Canon := .foldl (.keep h rfl) fun _ _ ht => .lowerStep (.keep ht rfl)
    split
    · exact h
    · split
      · exact .keep h rfl
      · exact .ite (.arm hs2) hs2

theorem releasePart {p : Nat} (h : s.Canon) : (s.releasePart p).Canon := by
  unfold State.releasePart
  split
  · exact h
  · extract_lets s1 s2
    have hs2 : s2.Canon := .foldl (.foldl h fun _ _ ht => .modTile ht) fun _ _ ht => .modUnit ht
    exact .push (.keep hs2 rfl)

theorem startRampDown {p : Nat} (h : s.Canon) : (s.startRampDown p).Canon := by
  unfold State.startRampDown
  split
  · exact h
  · extract_lets s1 s2
    have hs2 : s2.Canon := .foldl (.keep h rfl) fun _ _ ht => .keep ht rfl
    exact .ite (.releasePart hs2) (.arm hs2)

theorem rampDownStep {part : Nat} (h : s.Canon) : (s.rampDownStep part).Canon := by
  unfold State.rampDownStep
  split
  · exact h
  · split
    · exact h
    · split
      · exact .keep h rfl
      · extract_lets s1 s2
        have hs2 : s2.Canon := .foldl (.keep h rfl) fun _ _ ht => .keep ht rfl
        exact .ite (.releasePart hs2) (.arm hs2)

theorem addEnergy {k : Nat} (h : s.Canon) : (s.addEnergy k).Canon := .ite (.keep h rfl) h

theorem sumEnergy {p : Nat} (h : s.Canon) : (s.sumEnergy p).Canon := .modPart h

theorem energyUpdate (h : s.Canon) : s.energyUpdate.Canon := by
  unfold State.energyUpdate
  dsimp only
  exact .foldl (.foldl h fun _ _ ht => .addEnergy ht) fun _ _ ht => .sumEnergy ht

theorem afterReset (h : s.Canon) : s.afterReset.Canon := by
  obtain ⟨hmem, hhost, hmeta⟩ := canon_iff.1 h
  exact canon_iff.2 ⟨Map.wf_dropRange _ _ hmem, hhost, Map.wf_dropRange _ _ hmeta⟩

theorem startDie {d : Nat} {x : BootImage} (h : s.Canon) : (s.startDie d x).Canon := .putCore (.keep (.writeAt h) rfl)

theorem setRange {die k base limit : Nat} (h : s.Canon) : (s.setRange die k base limit).Canon := .setSys (.setSys h)

theorem bootRanges (h : s.Canon) : s.bootRanges.Canon :=
  .foldl h fun _ _ ht => by
    dsimp only
    exact .setRange (.setRange ht)

theorem deviceReset {flashOk : Bool} {images : List BootImage} (h : s.Canon) : (s.deviceReset flashOk images).Canon := by
  unfold State.deviceReset
  dsimp only
  split
  · exact .keep (.afterReset h) rfl
  · exact .hostNext (.keep (.foldl (.bootRanges (.afterReset h)) fun _ _ ht => .startDie ht) rfl)

theorem jumpTo {t : Word} (h : s.Canon) : (s.jumpTo t).Canon := .ite (.trap h) (.keep h rfl)

theorem issueCopy {kind : CopyKind} {d a b : Nat} {dx dy : Int} (h : s.Canon) : (s.issueCopy kind d a b dx dy).Canon := by
  unfold State.issueCopy
  split
  · exact .trap h
  · split
    · exact h
    · dsimp only
      exact .push (.keep (.ite h (.clearR h)) rfl)

theorem lineFault {core uid : Nat} {bead cpc : Word} {world : Bool} {f : FaultInfo} (h : s.Canon) :
    (s.lineFault core uid bead cpc world f).Canon := by
  unfold State.lineFault
  dsimp only
  exact .fileRecord (.addOutcome h)

theorem writeFault {core uid : Nat} {bead cpc : Word} {world : Bool} {f : FaultInfo} (h : s.Canon) :
    (s.writeFault core uid bead cpc world f).Canon := .ite (.addOutcome h) (.lineFault h)

theorem copyReadFault {c : Copy} {f : FaultInfo} (h : s.Canon) : (c.readFault s f).Canon := .lineFault h

theorem copyWriteFault {c : Copy} {f : FaultInfo} (h : s.Canon) : (c.writeFault s f).Canon := .writeFault h

theorem lineDone {id : Nat} {c : Copy} {n : Nat} {failed : Bool} (h : s.Canon) : (s.lineDone id c n failed).Canon := .keep h rfl

theorem noteLine {i : Issuer} {va : Word} {n : Nat} (h : s.Canon) : (s.noteLine i va n).Canon := .noteTlb (.noteTlb h)

theorem landLine {id : Nat} {c : Copy} {bs : List Byte} (h : s.Canon) : (s.landLine id c bs).Canon := by
  conv in State.landLine => delta State.landLine
  extract_lets i va
  split
  · exact .lineDone (.copyWriteFault (.noteFailed h))
  · exact .lineDone (.fillPieces (.noteLine h))

theorem copyLineLand {id : Nat} (h : s.Canon) : (s.copyLineLand id).Canon := by
  obtain ⟨line, hline⟩ := exists_eq (a' := s.readLine)
  unfold State.copyLineLand
  rw [← hline]
  split
  · exact h
  · dsimp only
    split
    · exact .lineDone (.copyReadFault (.noteFailed h))
    · exact .ite (.lineDone (.noteRange h)) (.landLine (.noteRange h))

theorem copyLineAck {id : Nat} (h : s.Canon) : (s.copyLineAck id).Canon := by
  unfold State.copyLineAck
  split
  · exact h
  · split
    · exact h
    · split
      · exact .keep h rfl
      · exact .keep h rfl
      · exact .ite (.keep h rfl) (.keep h rfl)
      · exact .keep h rfl

theorem putsSignalApply {id : Nat} (h : s.Canon) : (s.putsSignalApply id).Canon := by
  unfold State.putsSignalApply
  split
  · exact h
  · dsimp only
    split
    · exact .keep (.copyWriteFault (.noteFailed h)) rfl
    · exact .ite (.push (.keep (.spanCount h) rfl)) (.keep (.spanWrite (.noteTlb h)) rfl)

theorem countRefused {loc : Nat} (h : s.Canon) : (s.countRefused loc).Canon := by
  unfold State.countRefused
  dsimp only
  exact .spanWrite h

theorem writeMessage {ps : List Nat} {bs : List Byte} (h : s.Canon) : (s.writeMessage ps bs).Canon := by
  induction ps generalizing s bs with
  | nil => exact h
  | cons p ps ih => exact ih h.writeAt

theorem advanceTail {loc tail : Nat} (h : s.Canon) : (s.advanceTail loc tail).Canon :=
  .noteWrite (.countUnit (.storeBytes h))

theorem rputMessageApply {id : Nat} (h : s.Canon) : (s.rputMessageApply id).Canon := by
  unfold State.rputMessageApply
  split
  · exact h
  · dsimp only
    split
    case h_1 => exact .keep (.copyWriteFault (.noteFailed h)) rfl
    case h_2 | h_3 =>
      split
      · exact .keep (.copyWriteFault (.spanCount h)) rfl
      · split
        · exact .keep (.countRefused h) rfl
        · split
          · exact .keep (.addOutcome (.countRefused h)) rfl
          · split
            · exact .keep (.copyReadFault (.countRefused h)) rfl
            · exact .keep (.advanceTail (.writeMessage h)) rfl
    case h_4 | h_5 => exact .keep (.copyWriteFault h) rfl

theorem setCsr {k n : Nat} {v : Word} (h : s.Canon) : (s.setCsr k n v).Canon := by
  unfold State.setCsr
  split
  · exact .keep h rfl
  · split
    · split
      · dsimp only
        exact .modPart h
      · exact h
    · exact h
  · exact .ite h (.keep h rfl)
  · exact .keep h rfl
  · exact .keep h rfl
  · exact .keep h rfl
  · exact .keep h rfl
  · exact .keep h rfl
  · exact .keep h rfl
  · exact h

end State.Canon
end Sys2Proof.Machine
end

