-- ==== Sys2Proof/Proofs/CanonCells.lean ====
section
/-! Cells, the tests of parking, launches and placements keep the memories' canonical form (log 8). -/

namespace Sys2Proof.Machine

open Sys2Proof

namespace State.Canon

variable {s : State}

theorem parkOrForce {k : Nat} (h : s.Canon) : (s.parkOrForce k).Canon := by
  unfold State.parkOrForce
  dsimp only
  split
  · exact h
  · exact .ite (.doubleTrap (.keep h rfl)) (.ite (.trapEntry (.keep h rfl)) (.ite (.demandWork h) (.parkBead h)))

theorem testPassed {k : Nat} {t : TestFor} {v : Word} (h : s.Canon) : (s.testPassed k t v).Canon := by
  unfold State.testPassed
  dsimp only
  exact .modCore <| by
    split
    · exact .keep h rfl
    · exact h

theorem testFailed {k : Nat} {f : FaultInfo} {pc : Word} (h : s.Canon) : (s.testFailed k f pc).Canon := by
  unfold State.testFailed
  dsimp only
  exact .trapEntry <| by
    split
    · exact .keep h rfl
    · exact h

theorem testAndRegisterReply {q : TestReq} (h : s.Canon) : (s.testAndRegisterReply q).Canon := by
  unfold State.testAndRegisterReply
  split
  · exact .testFailed (.spanCount h)
  · dsimp only
    exact .ite (.testPassed (.spanCount h)) (.ite (.spanCount h) (.parkOrForce (.putMeta (.spanCount h))))

theorem issueTest {va : Word} {t : TestFor} (h : s.Canon) : (s.issueTest va t).Canon := by
  unfold State.issueTest
  extract_lets i install
  have hinstall : ∀ g, SomeHas Canon (install g) := by
    intro g
    unfold install
    split
    · split
      · exact .some h
      · exact Canon.installPark h
    · exact .some h
  split
  · exact .trap (.noteFailed h)
  · split
    · exact .trapCause h
    next hs1 => exact .push (.useTlb (hinstall _ _ hs1))
  · split
    · exact .trapCause h
    next hs1 => exact .push (.useTlb (hinstall _ _ hs1))
  · exact .trap h
  · exact .trap h

theorem issuePark {va : Word} {t : TestFor} (h : s.Canon) : (s.issuePark va t).Canon :=
  .notSteward h (.ite (.doubleTrap h) (.issueTest h))

theorem fillCell {loc : Nat} {v : Word} {full : Bool} (h : s.Canon) : (s.fillCell loc v full).Canon :=
  .noteWrite (.spanWrite h)

theorem futureFillApply {q : FillReq} (h : s.Canon) : (s.futureFillApply q).Canon := .fillCell h

theorem issueFill {va v : Word} {full : Bool} (h : s.Canon) : (s.issueFill va v full).Canon := by
  unfold State.issueFill
  dsimp only
  split
  · exact .trap (.noteFailed h)
  · split
    · exact .trap (.noteFailed h)
    · exact .push (.setMe (.clearR (.useTlb h)))
  · split
    · exact .trap (.noteFailed h)
    · exact .push (.setMe (.clearR (.useTlb h)))
  · exact .addOutcome (.setMe (.clearR (.useTlb h)))
  · exact .trap h

theorem parkTableWake {granule : Nat} (h : s.Canon) : (s.parkTableWake granule).Canon := by
  unfold State.parkTableWake
  dsimp only
  exact .foldl (.keep h rfl) fun _ _ ht => .wakeUnit ht

theorem fillFault {o : Origin} {f : FaultInfo} (h : s.Canon) : (s.fillFault o f).Canon := by
  unfold State.fillFault
  dsimp only
  exact .ite (.workRecord h) (.tellSteward h)

theorem fillRecord {o : Origin} {stat : Nat} {enk cyc : Word} (h : s.Canon) : (s.fillRecord o stat enk cyc).Canon := by
  unfold State.fillRecord
  split
  · exact h
  · split
    · exact .fillFault (.noteFailed h)
    · exact .fillCell (.spanWrite (.noteTlb h))

theorem postLaunch {l : Launcher} {stat : Nat} {enk cyc : Word} (h : s.Canon) : (s.postLaunch l stat enk cyc).Canon := by
  unfold State.postLaunch
  split
  · exact .keep h rfl
  · exact .fillRecord h

theorem refuseLaunch {l : Launch} {stat : Nat} (h : s.Canon) : (s.refuseLaunch l stat).Canon :=
  .hostNext (.push (.postLaunch (.keep h rfl)))

theorem shapeKnown {l : Launch} {w h : Nat} {t : Word} (hs : s.Canon) : (s.shapeKnown l w h t).Canon :=
  .ite (.refuseLaunch hs) (.keep hs rfl)

theorem offerLaunch {by_ : Launcher} {stream : LaunchStream} {kd : Option (List Word)} (h : s.Canon) :
    (s.offerLaunch by_ stream kd).Canon := by
  unfold State.offerLaunch
  extract_lets l s1 host s2
  have hs1 : s1.Canon := .keep h rfl
  have hs2 : s2.Canon := .keep hs1 rfl
  split
  · exact .refuseLaunch hs1
  · exact .ite (.refuseLaunch hs1) (.ite (.refuseLaunch hs1) (.ite (.push hs2) (.shapeKnown hs2)))

theorem hostLaunchCommand {ctag : BitVec 32} {kd : Word} (h : s.Canon) : (s.hostLaunchCommand ctag kd).Canon := by
  unfold State.hostLaunchCommand
  split
  · exact .hostNext (.keep h rfl)
  · split
    · exact .offerLaunch (.noteFailed h)
    · exact .offerLaunch (.noteRange h)

theorem indirectRecordRead {launch : Nat} (h : s.Canon) : (s.indirectRecordRead launch).Canon := by
  unfold State.indirectRecordRead
  split
  · exact h
  · dsimp only
    split
    · exact .refuseLaunch (.noteFailed h)
    · exact .ite (.refuseLaunch (.noteRange h)) (.ite (.refuseLaunch (.noteRange h)) (.shapeKnown (.noteRange h)))

theorem launchRetry (h : s.Canon) : s.launchRetry.Canon := by
  unfold State.launchRetry
  split
  · exact .keep h rfl
  · split
    · exact .keep h rfl
    · exact h

theorem setUp {p : Nat} {x : Part} (h : s.Canon) : (s.setUp p x).Canon := by
  unfold State.setUp
  dsimp only
  exact .foldl (.foldl (.keep h rfl) fun _ _ ht => .keep ht rfl) fun _ _ ht => .keep ht rfl

theorem addRoot {p : Nat} {x : Part} (h : s.Canon) : SomeHas Canon (s.addRoot p x) := by
  unfold State.addRoot
  dsimp only
  split
  · exact .none
  · split
    · exact .none
    · split
      · exact .some (.workRecord (.ite (.spanCount (.keep (.noteTlb h) rfl)) (.spanWrite (.keep (.noteTlb h) rfl))))
      · exact .some (.spanWrite (.keep (.noteTlb h) rfl))

theorem rootTried {p : Nat} {x : Part} (h : s.Canon) : (s.rootTried p x).Canon := by
  unfold State.rootTried
  dsimp only
  split
  · exact .noteFailed h
  · exact .spanCount (.countWalked h)

theorem kernelPlacement {launch : Nat} (h : s.Canon) : (s.kernelPlacement launch).Canon := by
  unfold State.kernelPlacement
  split
  · exact h
  · split
    · dsimp only
      split
      · exact .refuseLaunch (.rootTried h)
      next h4 => exact .hostNext (.push (.keep (Canon.addRoot (.setUp h) _ h4) rfl))
    · exact h

theorem enqueueInitial {x : Part} {u r : Nat} (h : s.Canon) : (s.enqueueInitial x u r).Canon := by
  unfold State.enqueueInitial
  split
  · exact h
  · split
    · exact h
    · exact .enqueueNew h

theorem initialBeadEnqueue {part : Nat} (h : s.Canon) : (s.initialBeadEnqueue part).Canon := by
  unfold State.initialBeadEnqueue
  split
  · exact h
  · dsimp only
    exact .startRampUp (.modPart (.foldl h fun _ _ ht => .enqueueInitial ht))

theorem setEmpty {loc : Option Nat} (h : s.Canon) : (s.setEmpty loc).Canon := by
  unfold State.setEmpty
  split
  · exact h
  · dsimp only
    exact .putMeta h

theorem sendLaunch {cr : Word} {loc : Option Nat} {kd : Option (List Word)} (h : s.Canon) : (s.sendLaunch cr loc kd).Canon := by
  unfold State.sendLaunch
  dsimp only
  exact .offerLaunch (.setMe (.setEmpty (.clearR h)))

end State.Canon
end Sys2Proof.Machine
end

