-- ==== Sys2Proof/Proofs/CanonContexts.lean ====
section
/-! What the EVU does to its contexts keeps the memories' canonical form (log 8). -/

namespace Sys2Proof.Machine

open Sys2Proof

namespace State.Canon

variable {s : State}

theorem modCtx {n : Nat} {f : Ctx → Ctx} (h : s.Canon) : (s.modCtx n f).Canon := by
  unfold State.modCtx
  split
  · exact .keep h rfl
  · exact h

theorem evuPutPieces {ps : List (Nat × Nat)} {bs : List Byte} (h : s.Canon) : (s.evuPutPieces ps bs).Canon := by
  induction ps generalizing s bs with
  | nil => exact h
  | cons p ps ih => exact ih h.evuPutAt

theorem evuFill {ps : List (Nat × Nat)} {bs : List Byte} (h : s.Canon) : (s.evuFill ps bs).Canon :=
  .evuPutPieces (.countPieces h)

theorem evuWrite {c : Ctx} {va : Word} {bs : List Byte} (h : s.Canon) : OkHas Canon (s.evuWrite c va bs) := by
  unfold State.evuWrite
  split
  · exact .error
  · exact .ok (.evuFill h)

theorem setCtr {c : Ctx} {r : CtxCtr} {v : Nat} (h : s.Canon) : OkHas Canon (s.setCtr c r v) := Canon.evuWrite h

theorem writeMap {c : Ctx} {old new : List MapEnt} (h : s.Canon) : OkHas Canon (s.writeMap c old new) :=
  .bind (.foldlM h fun _ _ ht => .ite (.pure ht) (Canon.evuWrite ht)) fun _ ht => Canon.setCtr ht

theorem appendLog {n : Nat} {c : Ctx} {e : LogEnt} (h : s.Canon) : OkHas Canon (s.appendLog n c e) :=
  .skip fun _ => .skip fun _ => by
    dsimp only
    exact .bind (Canon.evuWrite (.modCtx h)) fun _ ht => Canon.setCtr ht

theorem writeEntry {c : Ctx} {l b : Nat} {e : EvuEntry} (h : s.Canon) : OkHas Canon (s.writeEntry c l b e) :=
  Canon.evuWrite h

theorem takePoolSlot {c : Ctx} {fcnt : Nat} (h : s.Canon) : OkHas (fun p => p.1.Canon) (s.takePoolSlot c fcnt) :=
  .ite .error (.skip fun _ => .skip fun _ => .bind (Canon.setCtr h) fun _ ht => .pure ht)

theorem givePoolSlot {c : Ctx} {slot : Nat} (h : s.Canon) : OkHas Canon (s.givePoolSlot c slot) :=
  .skip fun _ => .ite .error (.bind (Canon.evuWrite h) fun _ ht => Canon.setCtr ht)

theorem givePoolSlots {c : Ctx} {slots : List Nat} (h : s.Canon) : OkHas Canon (s.givePoolSlots c slots) :=
  .foldlM h fun _ _ ht => Canon.givePoolSlot ht

theorem updateWset {n : Nat} {c : Ctx} (h : s.Canon) : OkHas Canon (s.updateWset n c) :=
  .skip fun _ => .skip fun _ => .skip fun _ => by
    split <;> exact Canon.setCtr h

theorem dirtyEntry {c : Ctx} {w : Nat} {clear : Bool} {l b : Nat} (h : s.Canon) : OkHas Canon (s.dirtyEntry c w clear l b) :=
  .skip fun _ => by
    dsimp only
    split
    · exact .ite (.bind (.pure h) fun _ ht => Canon.writeEntry ht)
        (.bind (Canon.givePoolSlot h) fun _ ht => Canon.writeEntry ht)
    · exact Canon.writeEntry h

theorem leaveEntry {c : Ctx} {w l b : Nat} (h : s.Canon) : OkHas Canon (s.leaveEntry c w l b) :=
  .skip fun _ => Canon.writeEntry h

theorem dirtyBlocks {c : Ctx} {w : Nat} {clear : Bool} {lo : Nat} {bs : List Nat} (h : s.Canon) :
    OkHas Canon (s.dirtyBlocks c w clear lo bs) := .foldlM h fun _ _ ht => Canon.dirtyEntry ht

theorem withCtx {p : Word} {edit place : Bool} {go : Nat × Ctx → State} (h : s.Canon) (hgo : ∀ x, (go x).Canon) :
    (s.withCtx p edit place go).Canon := by
  unfold State.withCtx
  split
  · exact .trap h
  · exact hgo _

theorem issueEdit {op : EvuOp} {d a b : Nat} (h : s.Canon) : (s.issueEdit op d a b).Canon :=
  .withCtx h fun _ => by
    dsimp only
    split
    · exact .trap h
    · split
      · exact .trap h
      · exact .withLoad h fun _ _ ht => .ite (.trap ht) (.push (.clearR ht))

theorem evuReply {q : EvuReq} {f : Core → Core} (h : s.Canon) : (s.evuReply q f).Canon := .keep h rfl

theorem moveTokens {c : Ctx} {tokt : Word} {toks : List TokMove} {new : List Byte} (h : s.Canon) :
    OkHas Canon (s.moveTokens c tokt toks new) := .skip fun _ => .pure (.foldl h fun _ _ ht => .fillPieces ht)

theorem spoilTokens {c : Ctx} {tokt : Word} {pb : Nat} (h : s.Canon) : (s.spoilTokens c tokt pb).Canon :=
  .foldl h fun _ _ ht => by
    split
    · exact ht
    · split
      · exact ht
      · exact .fillPieces ht

theorem noteTable {n : Nat} {c : Ctx} {tokt : Word} {blocks : List Nat} (h : s.Canon) :
    (s.noteTable n c tokt blocks).Canon := by
  unfold State.noteTable
  dsimp only
  exact .ite (.modCtx h) (.foldl (.modCtx h) fun _ _ ht => .foldl ht fun _ _ hu => .spoilTokens hu)

theorem commitEdit {n : Nat} {c : Ctx} {old : List MapEnt} {x : EditPlan} {w : Nat} (h : s.Canon) :
    OkHas Canon (s.commitEdit n c old x w) := by
  unfold State.commitEdit
  extract_lets finish leave rest
  have hleave : ∀ s6, s6.Canon → OkHas Canon (leave s6) := by
    intro s6 hs6
    unfold leave
    split
    · exact .bind (.foldlM hs6 fun _ _ ht => Canon.leaveEntry ht) fun _ hs7 => Canon.updateWset hs7
    · exact .bind (.pure hs6) fun _ hs7 => Canon.updateWset hs7
  have hrest : ∀ s1, s1.Canon → OkHas Canon (rest s1) := by
    intro s1 hs1
    refine .bind (.foldlM hs1 fun _ _ ht => Canon.appendLog ht) fun _ hs2 => .bind (Canon.setCtr hs2) fun _ hs3 =>
      .bind (Canon.dirtyBlocks hs3) fun _ hs4 => .bind (Canon.dirtyBlocks hs4) fun s5 hs5 => ?_
    split
    · exact .bind (Canon.dirtyEntry hs5) hleave
    · exact .bind (.pure hs5) hleave
  split
  · exact .bind (.pure h) hrest
  · exact .bind (Canon.writeMap h) hrest

theorem serveEdit {q : EvuReq} {n : Nat} {c : Ctx} (h : s.Canon) : OkHas Canon (s.serveEdit q n c) := by
  unfold State.serveEdit
  refine .skip fun _ => .skip fun _ => .skip fun _ => ?_
  split
  · exact .skip fun _ => .error
  · refine .skip fun _ => ?_
    split
    · exact .error
    · extract_lets tok u commit
      have hcommit : ∀ new, OkHas Canon (commit new) := fun _ =>
        .bind (.liftE (Canon.moveTokens (.ite h (.noteRange h)))) fun _ hs1 =>
          .bind (.liftE (Canon.commitEdit (.noteTable hs1))) fun _ hs3 => .pure (.evuReply hs3)
      exact .ite (.skip hcommit) (.ite (.skip hcommit) (.skip hcommit))

theorem serveEdmap {q : EvuReq} {c : Ctx} (h : s.Canon) : OkHas Canon (s.serveEdmap q c) :=
  .skip fun _ => .skip fun _ => by
    dsimp only
    exact .pure (.evuReply h)

theorem commitResult {n : Nat} {c : Ctx} {l b r slot : Nat} {e : EvuEntry} {data : List Byte} (h : s.Canon) :
    OkHas (fun p => p.1.Canon) (s.commitResult n c l b r slot e data) := by
  unfold State.commitResult
  refine .skip fun m => ?_
  extract_lets ent fill n0 ins st rest
  clear_value ent
  have hrest : ∀ old, OkHas (fun p => p.1.Canon) (rest old) := by
    intro old
    unfold rest
    extract_lets delta release
    have hrelease : ∀ s1, s1.Canon → OkHas (fun p => p.1.Canon) (release s1) := by
      intro s1 hs1
      refine .skip fun t => ?_
      extract_lets prop finish write
      have hfinish : ∀ s5, s5.Canon → OkHas (fun p => p.1.Canon) (finish s5) := fun _ hs5 =>
        .bind (Canon.updateWset hs5) fun _ hs6 => .pure hs6
      have hwrite : ∀ s2, s2.Canon → OkHas (fun p => p.1.Canon) (write s2) := by
        intro s2 hs2
        refine .bind (Canon.writeEntry hs2) fun s3 hs3 => ?_
        dsimp only
        split
        · exact .ite (.bind (.foldlM (.modCtx hs3) fun _ _ ht => Canon.dirtyEntry ht) hfinish)
            (.bind (.pure (.modCtx hs3)) hfinish)
        · exact .bind (.pure (.modCtx hs3)) hfinish
      exact .ite (.bind (Canon.givePoolSlot hs1) hwrite) (.bind (.pure hs1) hwrite)
    split
    · exact .ite (.bind (.pure h) hrelease) (.bind (Canon.givePoolSlot h) hrelease)
    · exact .bind (.pure h) hrelease
  exact .ite (.skip hrest) (.skip fun _ => .ite (.skip hrest) (.skip hrest))

theorem serveDone {q : EvuReq} {n : Nat} {c : Ctx} (h : s.Canon) : OkHas Canon (s.serveDone q n c) := by
  unfold State.serveDone
  dsimp only
  exact .skip fun _ => by
    split
    · exact .error
    · exact .skip fun _ => by
        split
        · exact .skip fun _ => .error
        · exact .skip fun _ =>
            .bind (Q := fun p => p.1.Canon) (.liftE (Canon.takePoolSlot (.noteRange h))) fun _ hp =>
              .skip fun _ => .bind (Q := fun p => p.1.Canon) (.liftE (Canon.commitResult (.fillPieces hp))) fun _ hr =>
                .pure (.evuReply hr)

theorem noteVersion {q : EvuReq} {c : Ctx} {slot : Nat} (h : s.Canon) : (s.noteVersion q c slot).Canon := by
  unfold State.noteVersion
  dsimp only
  exact .noteRange h

theorem serveAt {q : EvuReq} {n : Nat} {c : Ctx} (h : s.Canon) : OkHas Canon (s.serveAt q n c) := by
  unfold State.serveAt
  dsimp only
  exact .skip fun _ => .skip fun _ => .skip fun _ => by
    split
    · exact .skip fun _ => .skip fun _ => .error
    · split
      · exact .error
      · exact .skip fun _ => .pure (.evuReply (.noteVersion h))

theorem serveCur {q : EvuReq} {c : Ctx} (h : s.Canon) : OkHas Canon (s.serveCur q c) :=
  .skip fun _ => by
    split
    · exact .error
    · exact .skip fun _ => .pure (.evuReply (.noteVersion h))

theorem serveSettle {q : EvuReq} {n : Nat} {c : Ctx} (h : s.Canon) : OkHas Canon (s.serveSettle q n c) := by
  unfold State.serveSettle
  dsimp only
  exact .skip fun _ => .skip fun _ => .skip fun _ => by
    split
    · exact .pure (.evuReply h)
    · exact .skip fun _ => .error

theorem reclaimEntry {c : Ctx} {w l b : Nat} (h : s.Canon) : OkHas (fun p => p.1.Canon) (s.reclaimEntry c w l b) :=
  .skip fun _ => by
    split
    · exact .pure h
    · dsimp only
      split
      · exact .pure h
      · exact .bind (Canon.writeEntry h) fun _ ht => .bind (Canon.givePoolSlots ht) fun _ hu => .pure hu

theorem clearEntry {c : Ctx} {l b : Nat} (h : s.Canon) : OkHas (fun p => p.1.Canon) (s.clearEntry c l b) :=
  .skip fun _ => by
    dsimp only
    exact .ite (.pure h) (.bind (Canon.writeEntry h) fun _ ht => .bind (Canon.givePoolSlots ht) fun _ hu => .pure hu)

theorem reclaimBlock {c : Ctx} {w : Nat} {m : List MapEnt} {b : Nat} (h : s.Canon) :
    OkHas (fun p => p.1.Canon) (s.reclaimBlock c w m b) := by
  unfold State.reclaimBlock
  dsimp only
  exact .ite
    (.foldlM h fun _ _ hp => .bind (Q := fun p => p.1.Canon) (Canon.reclaimEntry hp) fun _ hq => .pure hq)
    (.skip fun _ => .ite
      (.foldlM h fun _ _ hp => .bind (Q := fun p => p.1.Canon) (Canon.clearEntry hp) fun _ hq => .pure hq) (.pure h))

theorem serveReclaim {q : EvuReq} {n : Nat} {c : Ctx} (h : s.Canon) : OkHas Canon (s.serveReclaim q n c) :=
  .skip fun _ => .skip fun _ => .bind (Q := fun p => p.1.Canon)
    (.liftE (.foldlM h fun _ _ hp => .bind (Q := fun p => p.1.Canon) (Canon.reclaimBlock hp) fun _ hr => .pure hr))
    fun _ hp => .bind (.liftE (Canon.updateWset hp)) fun _ ht => .pure (.evuReply ht)

theorem settleEntry {c : Ctx} {lb : Nat × Nat} (h : s.Canon) : OkHas Canon (s.settleEntry c lb) :=
  .skip fun _ => .ite (Canon.writeEntry h) (.pure h)

theorem beginBinding {n : Nat} {c : Ctx} (h : s.Canon) : OkHas Canon (s.beginBinding n c) :=
  .bind (.foldlM h fun _ _ ht => Canon.settleEntry ht) fun _ ht => .skip fun _ => Canon.updateWset (.keep ht rfl)

theorem serveBind {q : EvuReq} (h : s.Canon) : OkHas Canon (s.serveBind q) := by
  unfold State.serveBind
  extract_lets i
  refine .skip fun bs => ?_
  extract_lets hdr answer
  have hanswer : ∀ home, OkHas Canon (answer home) := by
    intro home
    unfold answer
    refine .ite .error (.ite .error ?_)
    split
    · exact .error
    · refine .ite .error ?_
      split
      · exact .error
      · split
        next hok => exact .pure (.evuReply (Canon.beginBinding (.noteRange h) _ hok))
        · exact .error
  split
  · exact .skip hanswer
  · exact .skip hanswer
  · exact .skip hanswer

theorem touchGranule {c : Ctx} {va : Word} (h : s.Canon) : (s.touchGranule c va).Canon := by
  unfold State.touchGranule
  split
  · exact .ite (.noteWrite h) h
  · exact .ite (.noteWrite h) h
  · exact h

theorem serveUnbind {q : EvuReq} {n : Nat} {c : Ctx} (h : s.Canon) : OkHas Canon (s.serveUnbind q n c) :=
  .skip fun _ => by
    dsimp only
    exact .pure (.evuReply <| by
      split
      · exact .modCtx h
      · exact .foldl (.foldl (.keep (.modCtx h) rfl) fun _ _ ht => .touchGranule ht) fun _ _ ht => .touchGranule ht)

theorem serveCtx {q : EvuReq} {n : Nat} {c : Ctx} (h : s.Canon) : OkHas Canon (s.serveCtx q n c) := by
  unfold State.serveCtx
  split
  · exact Canon.serveEdit h
  · exact Canon.serveEdit h
  · exact Canon.serveEdit h
  · exact Canon.serveEdmap h
  · exact Canon.serveDone h
  · exact Canon.serveAt h
  · exact Canon.serveCur h
  · exact Canon.serveSettle h
  · exact Canon.serveReclaim h
  · exact Canon.serveBind h
  · exact Canon.serveUnbind h

theorem evuPark {q : EvuReq} {n : Nat} {c : Ctx} {loc : Nat} {region : Option (Nat × Nat × Nat × Nat × Nat)} (h : s.Canon) :
    (s.evuPark q n c loc region).Canon := by
  unfold State.evuPark
  extract_lets k
  split
  · exact h
  · split
    · exact .trapEntry h
    next h2 =>
      extract_lets m s2
      have hs2 : s2.Canon := .parkOrForce (.putMeta (Canon.installPark h _ h2))
      split
      · exact hs2
      · exact .ite (.keep hs2 rfl) (.ite (.modTile hs2) hs2)

theorem disturb {n : Nat} {c : Ctx} (h : s.Canon) : (s.disturb n c).Canon := by
  unfold State.disturb
  dsimp only
  exact .modCtx (.foldl h fun _ _ ht => by
    split
    next h1 => exact Canon.evuWrite ht _ h1
    · exact ht)

theorem evuRefuse {q : EvuReq} {n : Nat} {c : Option Ctx} {f : FaultInfo} (h : s.Canon) : (s.evuRefuse q n c f).Canon := by
  unfold State.evuRefuse
  dsimp only
  exact .trapEntry <| by
    split
    · exact .ite (.disturb h) h
    · exact h

theorem countEvu {c : Ctx} (h : s.Canon) : (s.countEvu c).Canon := by
  rw [countEvu_rest]
  exact .keep h rfl

theorem evuDeliver {q : EvuReq} {n : Nat} {c : Option Ctx} {r : Except EvuStop State} (h : s.Canon) (hr : OkHas Canon r) :
    (s.evuDeliver q n c r).Canon := by
  unfold State.evuDeliver
  extract_lets resume
  have hresume : ∀ t, t.Canon → (resume t).Canon := fun _ ht => .ite (.modCtx ht) ht
  split
  · exact .push (hresume _ (.keep (hr _ rfl) rfl))
  · exact .evuRefuse h
  · exact .evuRefuse h
  · split
    · exact .push (hresume _ (.evuPark h))
    · exact h

theorem evuAnswer {q : EvuReq} {n : Nat} {c : Option Ctx} {r : Except EvuStop State} (h : s.Canon) (hr : OkHas Canon r) :
    (s.evuAnswer q n c r).Canon := by
  unfold State.evuAnswer
  dsimp only
  split
  · exact .countEvu (.evuDeliver h hr)
  · exact .evuDeliver h hr

theorem stopSpawns {n : Nat} {c : Ctx} {f : FaultInfo} (h : s.Canon) : (s.stopSpawns n c f).Canon := by
  unfold State.stopSpawns
  dsimp only
  exact .ite (.partRecord (.modCtx h)) (.tellSteward (.modCtx h))

theorem spawnEntry {n : Nat} {c : Ctx} {l : Nat} {x : MapEnt} {u slot : Nat} {rod : Rod} (h : s.Canon) :
    OkHas Canon (s.spawnEntry n c l x u slot rod) :=
  .skip fun _ => .skip fun _ => .bind (Canon.writeEntry h) fun _ ht => by
    dsimp only
    exact .pure (.enqueueNew (.modCtx ht))

theorem spawnCtx {n : Nat} {c : Ctx} (h : s.Canon) : ∀ t, s.spawnCtx n c = .done t → t.Canon := by
  intro t ht
  unfold State.spawnCtx at ht
  split at ht
  · cases ht
    exact .stopSpawns h
  · cases ht
  · dsimp only at ht
    split at ht
    · cases ht
      exact .stopSpawns h
    · split at ht
      · cases ht
        exact .stopSpawns h
      · split at ht
        · cases ht
        · split at ht
          next hu =>
            cases ht
            exact Canon.spawnEntry h _ hu
          next =>
            cases ht
            exact .stopSpawns h

theorem evuContextRequest {q : EvuReq} (h : s.Canon) : (s.evuContextRequest q).Canon := by
  unfold State.evuContextRequest
  split
  · exact .evuAnswer h (Canon.serveBind h)
  · dsimp only
    split
    · exact .trapEntry h
    · split
      · exact .evuAnswer h (Canon.serveCtx h)
      · exact h
      · exact .push h

theorem spawnFirst {l : List (Nat × Ctx)} {w : Bool} (h : s.Canon) : SomeHas Canon (s.spawnFirst l w).1 := by
  induction l generalizing w with
  | nil => exact .none
  | cons e l ih =>
    obtain ⟨n, c⟩ := e
    unfold State.spawnFirst
    split
    · exact ih
    · exact ih
    next t ht => exact .some (spawnCtx h t ht)

theorem evuRecomputeSpawn {slot : Nat} (h : s.Canon) : (s.evuRecomputeSpawn slot).Canon := by
  unfold State.evuRecomputeSpawn
  split
  · exact h
  · dsimp only
    split
    next h2 => exact .push (.foldl (.keep (Canon.spawnFirst h _ h2) rfl) fun _ _ hu => .countEvu hu)
    · exact .ite (.keep h rfl) h

theorem returnEntry {x : BeadRec} (h : s.Canon) : (s.returnEntry x).Canon := by
  unfold State.returnEntry
  extract_lets n l b
  split
  · exact h
  · refine .ite h ?_
    extract_lets go
    have hgo : OkHas Canon go :=
      .skip fun _ => .bind (Canon.writeEntry h) fun _ ht => Canon.updateWset (.modCtx ht)
    clear_value go
    split
    · exact .push (hgo _ rfl)
    · exact .stopSpawns h

end State.Canon
end Sys2Proof.Machine
end

