-- ==== Sys2Proof/Proofs/CanonDevices.lean ====
section
/-! Streams, retirement, drains, checks, link cores, tags, other devices' accesses, moves, checkpoints and row shifts keep the
memories' canonical form (log 8). -/

namespace Sys2Proof.Machine

open Sys2Proof

namespace State.Canon

variable {s : State}

theorem fenceOf {pm : PathMask} {d : Nat} (h : s.Canon) : (s.fenceOf pm d).Canon := by
  unfold State.fenceOf
  dsimp only
  exact .ite h (.keep h rfl)

theorem startStream {back : Bool} {d : List Word} (h : s.Canon) : (s.startStream back d).Canon := by
  unfold State.startStream
  dsimp only
  exact .ite (.trapCause h) (.ite (.trap h) (.ite (.trapCause h) (.keep h rfl)))

theorem issueStream {back : Bool} {va : Word} (h : s.Canon) : (s.issueStream back va).Canon := by
  unfold State.issueStream
  split
  · exact .trap (.noteFailed h)
  · exact .withLoad h fun _ _ ht => .startStream ht

theorem putStream {u sid : Nat} {x : Stream} (h : s.Canon) : (s.putStream u sid x).Canon := .keep h rfl

theorem sendLine {g o : Nat} {bs : List Byte} {x : Stream} {t : StreamTile} (h : s.Canon) :
    FstHas Canon (s.sendLine g o bs x t) := by
  conv in State.sendLine => delta State.sendLine
  extract_lets i va
  split
  · exact ⟨.noteFailed h⟩
  · exact ⟨.fillPieces h⟩

theorem deliverLine {g : Nat} {e : Nat × Option Nat} {x : Stream} (h : s.Canon) : FstHas Canon (s.deliverLine g e x) := by
  obtain ⟨read, hread⟩ := exists_eq (a' := s.readPlace)
  unfold State.deliverLine
  rw [← hread]
  extract_lets i send
  have hsend : ∀ t bs, t.Canon → FstHas Canon (send t bs) := fun _ _ ht => .foldl ⟨ht⟩ fun _ _ hq => Canon.sendLine hq
  split
  · exact hsend _ _ h
  · dsimp only
    split
    · exact ⟨.noteFailed h⟩
    · exact hsend _ _ (.noteRange h)

theorem streamSlotWrite {clu sid : Nat} (h : s.Canon) : (s.streamSlotWrite clu sid).Canon := by
  unfold State.streamSlotWrite
  split
  · exact h
  · extract_lets g r
    have hr : FstHas Canon r := .foldl ⟨h⟩ fun _ _ hq => Canon.deliverLine hq
    exact .ite h (.ite (.putStream hr.fst) (.push (.putStream hr.fst)))

theorem storeLine {g k : Nat} {e : Nat × Option Nat} {x : Stream} (h : s.Canon) : FstHas Canon (s.storeLine g k e x) := by
  obtain ⟨read, hread⟩ := exists_eq (a' := s.readPlace)
  obtain ⟨runs, hruns⟩ := exists_eq (a' := s.writeRuns)
  unfold State.storeLine
  rw [← hread, ← hruns]
  split
  · exact ⟨h⟩
  · dsimp only
    split
    · exact ⟨.noteFailed h⟩
    · split
      · exact ⟨.noteFailed h⟩
      · exact ⟨.fillPieces (.noteTlb h)⟩

theorem strmwSlotWriteback {clu sid : Nat} (h : s.Canon) : (s.strmwSlotWriteback clu sid).Canon := by
  unfold State.strmwSlotWriteback
  split
  · exact h
  · split
    · exact h
    · extract_lets g r
      have hr : FstHas Canon r := .foldl ⟨h⟩ fun _ _ hq => Canon.storeLine hq
      exact .ite h (.ite (.addOutcome (.putStream hr.fst)) (.push (.putStream hr.fst)))

theorem takeSlot {u sid d : Nat} {x : Stream} {t : StreamTile} (h : s.Canon) : (s.takeSlot u sid d x t).Canon := by
  unfold State.takeSlot
  dsimp only
  exact .ite (.trap h) (.ite (.keep h rfl) (.ite h (.keep h rfl)))

theorem returnSlot {u sid : Nat} {x : Stream} {t : StreamTile} (h : s.Canon) : (s.returnSlot u sid x t).Canon := by
  unfold State.returnSlot
  split
  · exact .trapCause h
  · split
    · exact .keep h rfl
    · exact .forceFirst h

theorem stopStream {u : Nat} {e : Nat × Stream} (h : s.Canon) : (s.stopStream u e).Canon := .workRecord (.keep h rfl)

theorem stopStreams {p : Nat} (h : s.Canon) : (s.stopStreams p).Canon :=
  .foldl h fun _ _ ht => .foldl ht fun _ _ hu => .stopStream hu

theorem discardSlot {b : SlotId} (h : s.Canon) : (s.discardSlot b).Canon := .dropRegions (.removePark (.modRod h))

theorem discardRod {u r : Nat} {told : State → SlotId → State} (h : s.Canon)
    (htold : ∀ t b, t.Canon → (told t b).Canon) : (s.discardRod u r told).Canon := by
  unfold State.discardRod
  split
  · exact h
  · exact .foldl h fun _ _ ht => htold _ _ (.discardSlot ht)

theorem discardOverflow {u r : Nat} {told : State → State} (h : s.Canon) (htold : ∀ t, t.Canon → (told t).Canon) :
    (s.discardOverflow u r told).Canon := by
  unfold State.discardOverflow
  exact .foldl (.keep h rfl) fun _ _ ht => htold _ ht

theorem findRecord {p idx idy : Nat} {bead : Word} {cause : Nat} (h : s.Canon) : (s.findRecord p idx idy bead cause).Canon := by
  unfold State.findRecord
  split
  · exact h
  · exact .partRecord h

theorem checkTile {p k : Nat} (h : s.Canon) : (s.checkTile p k).Canon := by
  unfold State.checkTile
  dsimp only
  exact .modTile (.dropTileWork (.foldl h fun _ _ ht => .findRecord ht))

theorem checkRod {p u r : Nat} (h : s.Canon) : (s.checkRod p u r).Canon :=
  .discardOverflow (.discardRod h fun _ _ ht => .findRecord ht) fun _ ht => .findRecord ht

theorem checkPart {p : Nat} {x : Part} (h : s.Canon) : (s.checkPart p x).Canon := by
  unfold State.checkPart
  dsimp only
  exact .foldl (.foldl h fun _ _ ht => .checkTile ht) fun _ _ ht => .foldl ht fun _ _ hu => .checkRod hu

theorem finishPart {p stat : Nat} (h : s.Canon) : (s.finishPart p stat).Canon := by
  unfold State.finishPart
  split
  · exact h
  · exact .push (.startRampDown (.postLaunch h))

theorem retirementQuiesceComplete {part : Nat} (h : s.Canon) : (s.retirementQuiesceComplete part).Canon := by
  unfold State.retirementQuiesceComplete
  split
  · exact h
  · split
    · exact h
    · split
      · exact .keep h rfl
      · dsimp only
        exact .finishPart (.checkPart (.stopStreams (.keep h rfl)))

theorem callTrap {cause code : Nat} (h : s.Canon) : (s.callTrap cause code).Canon := by
  unfold State.callTrap
  dsimp only
  exact .trapEntry (.keep h rfl)

theorem dropTlb {ks : List Nat} {hit : TlbEntry → Bool} (h : s.Canon) : (s.dropTlb ks hit).Canon :=
  .foldl h fun _ _ ht => .keep ht rfl

theorem rodWatchdogExpiry {core : Nat} (h : s.Canon) : (s.rodWatchdogExpiry core).Canon := by
  unfold State.rodWatchdogExpiry
  dsimp only
  split
  · exact h
  · split
    · exact h
    · exact .ite h (.ite (.keep h rfl) (.postFree (.keep h rfl)))

theorem fence {k : Nat} (h : s.Canon) : (s.fence k).Canon := by
  unfold State.fence
  split
  · dsimp only
    exact .ite (.keep h rfl) (.keep h rfl)
  · exact .keep h rfl

theorem endByCheck {k : Nat} (h : s.Canon) : (s.endByCheck k).Canon := by
  unfold State.endByCheck
  split
  · exact .ite h (.keep h rfl)
  · split
    · exact .loseBead h
    · exact .ite (.appendHead (.modCore (.dropTileWork h))) (.loseBead h)

theorem machineCheck {core : Nat} (h : s.Canon) : (s.machineCheck core).Canon := by
  unfold State.machineCheck
  dsimp only
  exact .fence (.endByCheck (.postCheck (.record h)))

theorem forcedSave {k : Nat} (h : s.Canon) : (s.forcedSave k).Canon := by
  unfold State.forcedSave
  dsimp only
  exact .putCore <| by
    split
    · split
      · exact .modUnit (.putSlot (.keep h rfl))
      · exact .keep h rfl
    · exact .keep h rfl

theorem resumeSaved {k : Nat} (h : s.Canon) : (s.resumeSaved k).Canon := by
  unfold State.resumeSaved
  dsimp only
  split
  · exact h
  · exact .armWatchdog <| by
      split
      · split
        · exact .putSlot (.keep h rfl)
        · exact .keep h rfl
      · exact .keep h rfl

theorem beginDrain {p d : Nat} {wait : Option (Word × Word)} {ended : Nat} {prq : Bool} (h : s.Canon) :
    (s.beginDrain p d wait ended prq).Canon := by
  unfold State.beginDrain
  dsimp only
  exact .arm (.setMe (.modPart h))

theorem killTile {k : Nat} (h : s.Canon) : (s.killTile k).Canon := by
  unfold State.killTile
  split
  · dsimp only
    split
    · split
      · exact .putSlot (.dropTileWork (.keep h rfl))
      · exact .dropTileWork (.keep h rfl)
    · exact .dropTileWork (.keep h rfl)
  · exact .ite (.loseBead h) h

theorem pdrnDeadlineExpiry {part : Nat} (h : s.Canon) : (s.pdrnDeadlineExpiry part).Canon := by
  unfold State.pdrnDeadlineExpiry
  split
  · exact h
  · split
    · split
      · exact .keep h rfl
      · dsimp only
        exact .modPart (.foldl h fun _ _ ht => .forcedSave ht)
    · exact h

theorem pdrnAnswer {w : Option (Nat × Nat)} {v : Word} (h : s.Canon) : (s.pdrnAnswer w v).Canon := by
  unfold State.pdrnAnswer
  split
  · exact h
  · exact .ite (.keep h rfl) h

theorem drainComplete {part : Nat} (h : s.Canon) : (s.drainComplete part).Canon := by
  unfold State.drainComplete
  split
  · exact h
  · split
    · refine .ite (.arm h) ?_
      extract_lets s1 s2
      have hs1 : s1.Canon := .modPart (.stopStreams h)
      clear_value s1
      exact .pdrnAnswer (.keep hs1 rfl)
    · exact h

theorem clearScratch {k : Nat} (h : s.Canon) : (s.clearScratch k).Canon := by
  obtain ⟨hmem, hhost, hmeta⟩ := canon_iff.1 h
  exact canon_iff.2 ⟨Map.wf_dropRange _ _ hmem, hhost, Map.wf_dropRange _ _ hmeta⟩

theorem resetTile {k : Nat} (h : s.Canon) : (s.resetTile k).Canon := .modCore (.modTile (.dropTileWork (.clearScratch h)))

theorem emptyRods {p u : Nat} (h : s.Canon) : (s.emptyRods p u).Canon :=
  .foldl h fun _ _ ht => by
    split
    · exact ht
    · dsimp only
      exact .modRod (.discardOverflow (.foldl ht fun _ _ hv => .discardSlot hv) fun _ hv => hv)

theorem emptied {p : Nat} {x : Part} (h : s.Canon) : (s.emptied p x).Canon := by
  unfold State.emptied
  dsimp only
  exact .foldl (.foldl (.foldl h fun _ _ ht => .resetTile ht) fun _ _ ht => .emptyRods ht) fun _ _ ht => .returnEntry ht

theorem resetPart {p : Nat} {x : Part} (h : s.Canon) : (s.resetPart p x).Canon := .finishPart (.emptied h)

theorem setLinkReg {link j : Nat} {v : Word} (h : s.Canon) : (s.setLinkReg link j v).Canon := .setSys h

theorem onLink {r : State} (h : s.Canon) (hr : r.Canon) : (s.onLink r).Canon := .ite hr (.trapCause h)

theorem bindFails {link part : Nat} (h : s.Canon) : (s.bindFails link part).Canon := .keep h rfl

theorem bindLink {link part : Nat} {world : Bool} {kd : List Word} {x : BeadRec} (h : s.Canon) :
    (s.bindLink link part world kd x).Canon := by
  unfold State.bindLink
  extract_lets k u s1 s2 unit s3 s4
  have hs2 : s2.Canon := .putLink (.setLinkReg h)
  clear_value s2
  have hs3 : s3.Canon := .putUnit hs2
  have hs4 : s4.Canon := .modCore hs3
  split
  · exact .enqueueNew hs4
  · exact hs4

theorem tellDiscard {link : Nat} {b : SlotId} (h : s.Canon) : (s.tellDiscard link b).Canon := by
  unfold State.tellDiscard
  dsimp only
  exact .postFree (.stewardRecord h)

theorem discardLink {link : Nat} (h : s.Canon) : (s.discardLink link).Canon :=
  .foldl h fun _ _ ht => .discardRod ht fun _ _ hu => .tellDiscard hu

theorem linkCoreUnbind {link : Nat} (h : s.Canon) : (s.linkCoreUnbind link).Canon := by
  unfold State.linkCoreUnbind
  split
  · exact h
  · extract_lets unbound s1
    have hs1 : s1.Canon := .putLink h
    exact .ite (.arm hs1) (.discardLink hs1)

theorem linkCoreBind {s0 : State} {link : Nat} (h : s0.Canon) : (s0.linkCoreBind link).Canon := by
  unfold State.linkCoreBind
  extract_lets s w0 world part kdp i s1 init
  have hs : s.Canon := .ite h (.discardLink h)
  have hs1 : s1.Canon := .noteRange hs
  obtain ⟨readKd, hkd⟩ := exists_eq (a' := s.readWhole)
  obtain ⟨readInit, hinit⟩ := exists_eq (a' := s1.readWhole)
  rw [← hkd, ← hinit]
  refine .ite (.arm hs) (.ite (.bindFails hs) ?_)
  split
  · exact .bindFails (.noteFailed hs)
  · refine .ite (.bindFails hs1) ?_
    dsimp only
    split
    · exact .bindFails (.noteFailed hs1)
    · exact .ite (.bindFails (.noteRange hs1)) (.bindLink (.noteRange hs1))

theorem writeLinkBinding {link : Nat} {v : Word} (h : s.Canon) : (s.writeLinkBinding link v).Canon := by
  unfold State.writeLinkBinding
  dsimp only
  exact .ite (.push (.setLinkReg (.keep h rfl))) (.ite (.push (.setLinkReg (.keep h rfl))) (.setLinkReg (.keep h rfl)))

theorem retag {g : Nat} {tag : Byte} {zero : Bool} (h : s.Canon) : (s.retag g tag zero).Canon := by
  unfold State.retag
  dsimp only
  exact .putMeta (.keep (.ite (.noteWrite (.storeBytes h)) h) rfl)

theorem tagRange {va : Word} {len : Nat} {tag : Byte} {zero : Bool} (h : s.Canon) : (s.tagRange va len tag zero).Canon := by
  unfold State.tagRange
  dsimp only
  split
  · exact .trap h
  · split
    · exact .trap h
    · split
      · exact .trap h
      · split
        · exact .keep h rfl
        · split
          · exact .trap (.noteFailed h)
          · exact .trap (.noteFailed h)
          · exact .setMe (.foldl (.countPieces (.useTlb h)) fun _ _ ht => .foldl ht fun _ _ hu => .retag hu)

theorem translatePieces {va : Word} {n : Nat} (h : s.Canon) : (s.translatePieces va n).Canon := by
  unfold State.translatePieces
  dsimp only
  exact .foldl h fun _ _ ht => .useTlb ht

theorem cacheRange {d a : Nat} (h : s.Canon) : (s.cacheRange d a).Canon := .setMe (.translatePieces h)

theorem peerTest {q : PeerReq} {rs : List (Nat × Nat)} {zero : Bool} (h : s.Canon) : (s.peerTest q rs zero).1.Canon := by
  unfold State.peerTest
  dsimp only
  split
  · split
    · dsimp only
      exact .countPieces h
    · dsimp only
      exact .keep (.putMeta (.countPieces h)) rfl
  · split
    · dsimp only
      exact .countPieces h
    · dsimp only
      exact .keep (.putMeta (.countPieces h)) rfl

theorem lineIn {loc : Nat} {bs : List Byte} {ms : List (BitVec 12)} (h : s.Canon) : (s.lineIn loc bs ms).Canon := by
  unfold State.lineIn
  dsimp only
  have hl : (s.landBytes loc bs).Canon := .landBytes h
  exact .foldl (.keep hl rfl) fun _ _ ht => .putMeta ht

theorem peerDo {q : PeerReq} {rs : List (Nat × Nat)} (h : s.Canon) : (s.peerDo q rs).1.Canon := by
  unfold State.peerDo
  dsimp only
  split
  · dsimp only
    exact .fillPieces h
  · dsimp only
    exact .noteWrite (.fillPieces h)
  · dsimp only
    exact .foldl (.countPieces h) fun _ _ ht => .retag ht
  · split
    · dsimp only
      exact .countPieces h
    · dsimp only
      exact .countPieces h
  · split
    · dsimp only
      exact .countPieces h
    · exact .peerTest h
  · split
    · dsimp only
      exact .countPieces h
    · dsimp only
      exact .ite (.countPieces h) (.fillPieces h)
  · dsimp only
    exact .countPieces h
  · dsimp only
    exact .lineIn h
  · split <;> exact h

theorem peerServe {q : PeerReq} {rs : List (Nat × Nat)} (h : s.Canon) : (s.peerServe q rs).1.Canon := by
  unfold State.peerServe
  split
  · dsimp only
    exact .countPieces h
  · exact .peerDo h

theorem peerAnswer {q : PeerReq} {rs : List (Nat × Nat)} (h : s.Canon) : (s.peerAnswer q rs).Canon := by
  unfold State.peerAnswer
  dsimp only
  exact .keep (.peerServe h) rfl

theorem forwardedAccess {q : PeerReq} (h : s.Canon) : (s.forwardedAccess q).Canon := .ite (.keep h rfl) (.peerAnswer h)

theorem ingressImportAccess {q : PeerReq} (h : s.Canon) : (s.ingressImportAccess q).Canon := by
  unfold State.ingressImportAccess
  dsimp only
  exact .ite (.keep h rfl) (.ite (.keep h rfl) (.ite (.keep h rfl) (.ite (.keep h rfl) (.peerAnswer h))))

theorem putIndir {u word : Nat} {v : Word} (h : s.Canon) : (s.putIndir u word v).Canon := .keep h rfl

theorem indirectionEntryWrite {u word : Nat} {v : Word} (h : s.Canon) : (s.indirectionEntryWrite u word v).Canon := by
  unfold State.indirectionEntryWrite
  split
  · exact h
  · split
    · dsimp only
      exact .ite (.keep h rfl) (.keep h rfl)
    · exact .keep h rfl

theorem putPage {loc : Nat} {p : List Byte × List (BitVec 12)} (h : s.Canon) : (s.putPage loc p).Canon :=
  .foldl (.putBytes h) fun _ _ ht => .putMeta ht

theorem movePageNotes {src dst : Nat} (h : s.Canon) : (s.movePageNotes src dst).Canon := .keep h rfl

theorem pageMoveComplete {u : Nat} (h : s.Canon) : (s.pageMoveComplete u).Canon := by
  unfold State.pageMoveComplete
  split
  · exact h
  · dsimp only
    exact .putIndir (.keep (.ite h (.movePageNotes (.putPage h))) rfl)

theorem checkpointGo (h : s.Canon) : s.checkpointGo.Canon := by
  unfold State.checkpointGo
  dsimp only
  exact .setSys (.keep h rfl)

theorem checkpointComplete (h : s.Canon) : s.checkpointComplete.Canon := by
  unfold State.checkpointComplete
  split
  · exact h
  · extract_lets s1 own
    have hs1 : s1.Canon := .foldl h fun _ _ ht => .putMeta ht
    exact .setSys (.keep hs1 rfl)

theorem writeCkctl {v : Word} (h : s.Canon) : (s.writeCkctl v).Canon := by
  unfold State.writeCkctl
  dsimp only
  exact .ite (.push (.setSys h)) (.setSys h)

theorem setCaps {die off : Nat} {new : Word} (h : s.Canon) : (s.setCaps die off new).Canon := by
  unfold State.setCaps
  dsimp only
  exact .keep (.ite (.modUnit (.setSys h)) (.setSys h)) rfl

theorem writeSpill {die off : Nat} {v : Word} (h : s.Canon) : (s.writeSpill die off v).Canon := by
  unfold State.writeSpill
  dsimp only
  split
  · exact .ite h (.setSys h)
  · exact .ite h (.setCaps h)

theorem writeThrottle {die : Nat} {v : Word} (h : s.Canon) : (s.writeThrottle die v).Canon :=
  .foldl (.setSys h) fun _ _ ht => .keep ht rfl

theorem systemRegisterWrite {block off : Nat} {v : Word} (h : s.Canon) : (s.systemRegisterWrite block off v).Canon :=
  .ite (.setSys h) <| .ite (.setSys h) <| .ite (.setSys h) <| .ite (.setSys h) <|
  .ite (.ite (.writeLinkBinding h) (.ite h (.setLinkReg h))) <| .ite (.writeCkctl h) <| .ite (.setSys h) <|
  .ite (.writeThrottle h) <| .ite (.writeSpill h) <| .ite (.setSys h) h

theorem shiftTile {j k : Nat} (h : s.Canon) : (s.shiftTile j k).Canon := by
  obtain ⟨hmem, hhost, hmeta⟩ := canon_iff.1 h
  exact canon_iff.2 ⟨Map.wf_copyRange _ _ _ (Map.wf_copyRange _ _ _ hmem), hhost, Map.wf_copyRange _ _ _ hmeta⟩

theorem spareTile {k : Nat} (h : s.Canon) : (s.spareTile k).Canon := by
  obtain ⟨hmem, hhost, hmeta⟩ := canon_iff.1 h
  exact canon_iff.2 ⟨Map.wf_dropRange _ _ (Map.wf_dropRange _ _ hmem), hhost, Map.wf_dropRange _ _ hmeta⟩

theorem shiftRow {row : List Nat} (h : s.Canon) : (s.shiftRow row).Canon := by
  fun_induction State.shiftRow s row with
  | case1 => exact h
  | case2 => exact .spareTile h
  | case3 _ _ _ _ ih => exact ih (.shiftTile h)

theorem rowShiftRepair {x y : Nat} (h : s.Canon) : (s.rowShiftRepair x y).Canon := by
  unfold State.rowShiftRepair
  dsimp only
  exact .ite h (.ite h (.push (.keep (.shiftRow h) rfl)))

theorem tellDeadLink (h : s.Canon) : s.tellDeadLink.Canon := .foldl h fun _ _ ht => .postFree ht

theorem linkDeadDeclaration {die port : Nat} (h : s.Canon) : (s.linkDeadDeclaration die port).Canon := by
  unfold State.linkDeadDeclaration
  split
  · exact h
  · dsimp only
    exact .arm (.tellDeadLink (.keep h rfl))

theorem drainRoundExpiry {die port round : Nat} (h : s.Canon) : (s.drainRoundExpiry die port round).Canon :=
  .ite (.keep h rfl) h

end State.Canon
end Sys2Proof.Machine
end

