-- ==== Sys2Proof/Proofs/CanonRequests.lean ====
section
/-! The PKL requests keep the memories' canonical form (log 8). -/

namespace Sys2Proof.Machine

open Sys2Proof

namespace State.Canon

variable {s : State}

theorem sendRequest {q : PklReq} {loc : Nat} (h : s.Canon) : (s.sendRequest q loc).Canon := by
  unfold State.sendRequest
  dsimp only
  exact .keep (.setEmpty (.setMe (.ite (.clearR h) h))) rfl

theorem acceptRequest {q : PklReq} (h : s.Canon) : (s.acceptRequest q).Canon := by
  unfold State.acceptRequest
  split
  · exact .trap h
  · exact .ite (.trapCause h) (.ite h (.sendRequest h))

theorem issueRequest {op : PklOp} {ty : Ty} {rm : Nat} {k2 : Bool} {ld rq : Word} (h : s.Canon) :
    (s.issueRequest op ty rm k2 ld rq).Canon := by
  unfold State.issueRequest
  dsimp only
  exact .ite (.trap h) (.ite (.trap h) (.ite (.trap h) (.ite (.trap h) (.withLoad h fun _ _ ht => .acceptRequest ht))))

theorem skipLater {q : PklReq} (h : s.Canon) : (s.skipLater q).Canon := .keep h rfl

theorem pklRecord {q : PklReq} {f : FaultInfo} {status : Word} (h : s.Canon) : (s.pklRecord q f status).Canon := by
  unfold State.pklRecord
  dsimp only
  exact .fileRecord h

theorem fillFuture {q : PklReq} {status : Word} (h : s.Canon) : (s.fillFuture q status).Canon := by
  unfold State.fillFuture
  split
  · exact .fillCell h
  · exact .pklRecord (.noteFailed h)

theorem writeLine {i : Issuer} {va : Word} {bs : List Byte} (h : s.Canon) : OkHas Canon (s.writeLine i va bs) := by
  conv in State.writeLine => delta State.writeLine
  split
  · exact .error
  · exact .ok (.fillPieces (.noteLine h))

theorem writeLines {i : Issuer} {ls : List (Word × List Byte)} (h : s.Canon) : (s.writeLines i ls).1.Canon := by
  induction ls generalizing s with
  | nil => exact h
  | cons l ls ih =>
    unfold State.writeLines
    split
    · exact ih (.noteFailed h)
    next t ht => exact ih (writeLine h t ht)

theorem writeBlock {q : PklReq} {out : Word} {loc : Nat} {ys : List Nat} {b : Nat} (h : s.Canon) :
    FstHas Canon (s.writeBlock q out loc ys b) := by
  conv in State.writeBlock => delta State.writeBlock
  obtain ⟨place, hplace⟩ := exists_eq (a' := s.writePlace)
  obtain ⟨poisoned, hpoisoned⟩ := exists_eq (a' := s.poisoned)
  obtain ⟨scaleLoc, hscale⟩ := exists_eq (a' := s.scaleLoc)
  rw [← hplace, ← hpoisoned, ← hscale]
  extract_lets i at_
  split
  · exact ⟨h⟩
  · split
    · exact ⟨h⟩
    · extract_lets old mine
      split
      · exact ⟨h⟩
      · exact ⟨.writeAt (.writeAt h)⟩

theorem writeBlocks {q : PklReq} {out : Word} {loc : Nat} {ys bs : List Nat} (h : s.Canon) :
    FstHas Canon (s.writeBlocks q out loc ys bs) := by
  obtain ⟨block, hblock⟩ := exists_eq (a' := State.writeBlock)
  have hcanon : ∀ t b, t.Canon → FstHas Canon (block t q out loc ys b) := fun _ _ ht => hblock ▸ Canon.writeBlock ht
  delta State.writeBlocks State.writeBlocks._f
  rw [← hblock]
  induction bs generalizing s with
  | nil => exact ⟨h⟩
  | cons b bs ih => exact ⟨(ih (hcanon s b h).fst).fst⟩

end State.Canon

/-- What a PKL request comes to leaves its memories in canonical form. -/
structure PklEnd.Canon (e : PklEnd) : Prop where
  state : e.s.Canon

namespace PklEnd.Canon

variable {e : PklEnd} {q : PklReq}

theorem stop {f : FaultInfo} (h : e.Canon) : (e.stop f).Canon := ⟨h.state⟩

theorem ite {c : Prop} [Decidable c] {a b : PklEnd} (ha : a.Canon) (hb : b.Canon) : (if c then a else b).Canon := by
  split
  · exact ha
  · exact hb

theorem after {α : Type} {r : Except PklStop α} {k : α → PklEnd} (h : e.Canon) (hk : ∀ a, (k a).Canon) :
    (e.after r k).Canon := by
  unfold PklEnd.after
  split
  · exact hk _
  · exact ⟨h.state⟩

theorem read {ranges : List (Word × Nat)} (h : e.Canon) : (e.read q ranges).Canon :=
  ⟨.foldl h.state fun _ _ ht => .noteRange ht⟩

theorem reads {α : Type} {ranges : List (Word × Nat)} {r : Except PklStop α} {k : PklEnd → α → PklEnd} (h : e.Canon)
    (hk : ∀ e1 a, e1.Canon → (k e1 a).Canon) : (e.reads q ranges r k).Canon := by
  unfold PklEnd.reads
  split
  · exact hk _ _ h.read
  · split
    · exact ⟨h.state⟩
    · exact ⟨h.read.state⟩

theorem write {va : Word} {bs : List Byte} {part : (Nat → Bool) → Nat} {k : PklEnd → PklEnd} (h : e.Canon)
    (hk : ∀ e1, e1.Canon → (k e1).Canon) : (e.write q va bs part k).Canon := by
  unfold PklEnd.write
  dsimp only
  split
  · exact hk _ ⟨.writeLines h.state⟩
  · exact .stop ⟨.writeLines h.state⟩

theorem withLayer {die : Nat} {k : PklEnd → Layer → PklEnd} (h : e.Canon) (hk : ∀ e1 l, e1.Canon → (k e1 l).Canon) :
    (e.withLayer q die k).Canon :=
  .reads h fun _ _ h1 => .after h1 fun _ => hk _ _ h1

theorem writeRow {out : Word} {ys : List Nat} (h : e.Canon) : (e.writeRow q out ys).Canon := by
  unfold PklEnd.writeRow
  refine .ite (.stop h) ?_
  split
  · exact .write h fun _ h1 => ⟨h1.state⟩
  · exact .write ⟨h.state⟩ fun _ h1 => ⟨h1.state⟩
  · split
    · dsimp only
      split
      · exact ⟨(State.Canon.writeBlocks h.state).fst⟩
      · exact .stop ⟨(State.Canon.writeBlocks h.state).fst⟩
    · exact .stop h
    · exact .stop h

theorem scatterLines {die : Nat} {l : Layer} {w : Val} {fuel : Nat} {va : Word} {g : List Val} (h : e.Canon) :
    (e.scatterLines q die l w fuel va g).Canon := by
  induction fuel generalizing e va g with
  | zero => exact h
  | succ fuel ih =>
    unfold PklEnd.scatterLines
    dsimp only
    split
    · exact h
    · refine .after h fun _ => .reads h fun e1 old h1 => ?_
      split
      · exact .stop ⟨.noteFailed h1.state⟩
      next hok => exact ih ⟨State.Canon.writeLine h1.state _ hok⟩

theorem scatter {die : Nat} {l : Layer} {g : List Val} {rs : List (Cand × List Val)} (h : e.Canon) :
    (e.scatter q die l g rs).Canon := by
  induction rs generalizing e with
  | nil => exact h
  | cons r rs ih =>
    unfold PklEnd.scatter
    dsimp only
    split
    · exact .scatterLines h
    · exact ih ⟨(scatterLines h).state⟩

end PklEnd.Canon

namespace State.Canon

variable {s : State} {q : PklReq} {die : Nat}

theorem runPksc (h : s.Canon) : (s.runPksc q die).Canon :=
  .withLayer ⟨h⟩ fun _ _ h1 => .reads h1 fun _ _ h2 => .after ⟨h2.state⟩ fun _ => .reads ⟨h2.state⟩ fun _ _ h3 =>
    .write ⟨h3.state⟩ fun _ h4 => ⟨h4.state⟩

theorem runPksel (h : s.Canon) : (s.runPksel q die).Canon :=
  .withLayer ⟨h⟩ fun _ _ h1 => .reads h1 fun _ _ h2 => .reads h2 fun _ _ h3 => .after h3 fun _ =>
    .write ⟨h3.state⟩ fun _ h4 => ⟨h4.state⟩

theorem runPkgth (h : s.Canon) : (s.runPkgth q die).Canon :=
  .withLayer ⟨h⟩ fun _ _ h1 => .reads h1 fun _ _ h2 => .after h2 fun _ => .reads h2 fun _ _ h3 => .writeRow ⟨h3.state⟩

theorem runPksct (h : s.Canon) : (s.runPksct q die).Canon :=
  .withLayer ⟨h⟩ fun _ _ h1 => .after h1 fun _ => .reads h1 fun _ _ h2 => .reads h2 fun _ _ h3 => .reads h3 fun _ _ h4 =>
    .reads h4 fun _ _ h5 => .after h5 fun _ => .reads h5 fun _ _ h6 => .write ⟨h6.state⟩ fun _ h7 => .scatter h7

theorem endRequest {e : PklEnd} (h : e.Canon) : (endRequest q e).Canon := by
  unfold State.endRequest
  extract_lets status s1 s2
  have hs1 : s1.Canon := .ite h.state (.pklRecord h.state)
  have hs2 : s2.Canon := .ite hs1 (.skipLater hs1)
  exact .fillFuture hs2

theorem runRequest {run : State → PklReq → Nat → PklEnd} (h : s.Canon) (hrun : ∀ d, (run s q d).Canon) :
    (s.runRequest q run).Canon :=
  .ite (.endRequest ⟨h⟩) (.endRequest (hrun _))

end State.Canon
end Sys2Proof.Machine
end

