-- ==== Sys2Proof/Proofs/CanonImages.lean ====
section
/-! Saving and restoring images keeps the memories' canonical form (log 8). -/

namespace Sys2Proof.Machine

open Sys2Proof

namespace State.Canon

variable {s : State}

theorem writeImage {va : Word} {bs : List Byte} (h : s.Canon) : OkHas Canon (s.writeImage va bs) := by
  unfold State.writeImage
  split
  · exact .error
  · exact .ok (.fillPieces h)

theorem countUnits {xs : List ImgSection} (h : s.Canon) : (s.countUnits xs).Canon := .foldl h fun _ _ ht => .countUnit ht

theorem saveImage {s0 : State} {d p : Nat} {x : Part} {va : Word} {cap : Nat} {mem : Bool} (h : s0.Canon) :
    (s0.saveImage d p x va cap mem).Canon := by
  unfold State.saveImage
  dsimp only
  split
  · split
    · exact .trap (.noteFailed (.countUnits h))
    next h1 => exact .setMe (.keep (Canon.writeImage (.countUnits h) _ h1) rfl)
  · split
    · exact .trap (.noteFailed (.countUnits h))
    next h1 => exact .setMe (Canon.writeImage (.countUnits h) _ h1)

theorem withImage {va : Word} {go : State} (h : s.Canon) (hgo : go.Canon) : (s.withImage va go).Canon :=
  .ite (.trap h) (.ite (.trap h) hgo)

theorem restorePage {loc : Nat} {body : List Byte} (h : s.Canon) : (s.restorePage loc body).Canon := by
  unfold State.restorePage
  split
  · exact h
  · exact .foldl (.writeAt h) fun _ _ ht => .putMeta ht

theorem listExhausted {p : Nat} (h : s.Canon) : (s.listExhausted p).Canon := by
  unfold State.listExhausted
  split
  · exact h
  · exact .postCheck (.partRecord h)

theorem restoreRecord {p u rodk : Nat} {x : BeadRec} (h : s.Canon) : (s.restoreRecord p u rodk x).Canon := by
  unfold State.restoreRecord
  dsimp only
  split
  · exact h
  · split
    · exact h
    · split
      · exact .enqueueNew h
      · exact .ite (.keep h rfl) (.listExhausted h)

theorem restoreCore {p k : Nat} {ws : List Word} (h : s.Canon) : (s.restoreCore p k ws).Canon := by
  unfold State.restoreCore
  dsimp only
  split
  · exact h
  · split
    · exact h
    · split
      · exact h
      · exact .armWatchdog (.putCore (.modUnit (.putSlot (.keep h rfl))))

theorem restoreBanks {k : Nat} {body : List Byte} (h : s.Canon) : (s.restoreBanks k body).Canon :=
  (FstHas.foldl (P := Canon) ⟨h⟩ fun _ _ ht => by
    split
    · exact ⟨.putBytes ht⟩
    · exact ⟨ht⟩).fst

theorem restoreBars {k : Nat} {ws : List Word} (h : s.Canon) : (s.restoreBars k ws).Canon :=
  .foldl h fun _ _ ht => by
    dsimp only
    exact .ite (.push (.ite ht (.keep ht rfl))) (.ite ht (.keep ht rfl))

theorem restoreSection {p : Nat} {x : Part} {kind : Nat} {e : ImgSection} (h : s.Canon) :
    (s.restoreSection p x kind e).Canon := by
  unfold State.restoreSection
  dsimp only
  split
  · exact h
  · split
    · exact .restoreCore h
    · exact .restorePage h
    · exact .restoreBanks h
    · exact .keep h rfl
    · exact .restoreBars h
    · exact .restorePage h
    · exact h

theorem restoreRods {p : Nat} {x : Part} {xs : List ImgSection} (h : s.Canon) : (s.restoreRods p x xs).Canon := by
  unfold State.restoreRods
  dsimp only
  exact .foldl h fun _ _ ht => .foldl ht fun _ _ hu => .restoreRecord hu

theorem restorePart {p : Nat} {x : Part} {xs : List ImgSection} (h : s.Canon) : (s.restorePart p x xs).Canon := by
  unfold State.restorePart
  dsimp only
  exact .startRampUp <| .modPart <| .foldl
    (.restoreRods (.foldl (.foldl (.setUp h) fun _ _ ht => .clearScratch ht) fun _ _ ht =>
      .foldl ht fun _ _ hu => .restoreSection hu))
    fun _ _ ht => .foldl ht fun _ _ hu => .restoreSection hu

theorem restoreImage {d : Nat} {r : Option (List ImgSection)} (h : s.Canon) : (s.restoreImage d r).Canon := by
  unfold State.restoreImage
  split
  · exact .keep h rfl
  · split
    · exact .setMe (.restorePart h)
    · exact .keep h rfl

end State.Canon
end Sys2Proof.Machine
end

