-- ==== Sys2Proof/Proofs/CanonRest.lean ====
section
/-! Node installation, vector accesses, what a fetch leaves and the inputs keep the memories' canonical form (log 8). -/

namespace Sys2Proof.Machine

open Sys2Proof

namespace State.Canon

variable {s : State}

theorem installNode {op : NodeOp} {relu : Bool} {rm : Nat} {a : Appended} (h : s.Canon) :
    (s.installNode op relu rm a).Canon := by
  unfold State.installNode
  dsimp only
  split
  · exact .forceFirst h
  · split
    · exact .demandWork h
    · exact .keep h rfl

theorem append {op : NodeOp} {relu : Bool} {rm : Nat} {r : Except FaultInfo Appended} (h : s.Canon) :
    (s.append op relu rm r).Canon :=
  .onTile h <| by
    split
    · exact .trap h
    · exact .installNode h

theorem forceDemand {nodes : List (Nat × List Nat)} (h : s.Canon) : (s.forceDemand nodes).Canon := .demandWork h

theorem zeroRun {lo hi : Nat} (h : s.Canon) : (s.zeroRun lo hi).Canon := by
  obtain ⟨hmem, hrest⟩ := canon_iff.1 h
  exact canon_iff.2 ⟨Map.wf_filter _ hmem, hrest⟩

theorem vectorAt {ea : Word} {ty : Ty} {es : List (Nat × Word)} {go : State} (h : s.Canon) (hgo : go.Canon) :
    (s.vectorAt ea ty es go).Canon := by
  unfold State.vectorAt
  dsimp only
  exact .ite (.trap h) (.ite (.trap h) hgo)

theorem noteFetch {k : Nat} {pc : Word} {f : FaultInfo} (h : s.Canon) : (s.noteFetch k pc f).Canon := by
  unfold State.noteFetch
  dsimp only
  exact .ite (.ite h (.noteRange h)) (.noteFailed (.ite h (.noteRange h)))

theorem applyInput {x : Input} (h : s.Canon) : (s.applyInput x).Canon := by
  unfold State.applyInput
  split
  · exact .keep h rfl
  · exact .keep h rfl
  · exact .keep h rfl
  · exact .setSys (.setSys h)
  · exact .keep h rfl
  · exact .keep h rfl
  · exact .peerServe h
  · exact .keep h rfl
  · exact .tellDeadLink h
  · exact .keep h rfl
  · exact .ite (.keep h rfl) (.keep h rfl)
  · exact h
  · exact h

end State.Canon
end Sys2Proof.Machine
end

