-- ==== Sys2Proof/Proofs/CanonExec.lean ====
section
/-! Every instruction of the tables and every device step keeps the memories' canonical form (log 8). -/

namespace Sys2Proof.Machine

open Sys2Proof

namespace CanonNext

variable {s : State}

theorem bankop {pfx : Pfx} {ty : Ty} {fn : BankFn} {d a b : Nat} (h : s.Canon) :
    CanonNext (exec (.bankop pfx ty fn d a b) s) := by
  change CanonNext (execBankop pfx ty fn d a b s)
  unfold execBankop
  dsimp only
  exact .next <| by
    split
    · exact .trap h
    · split
      · exact .trap h
      · split
        · exact .trap h
        · split
          · exact .setMe (.clearR h)
          · split
            · exact .trap h
            · exact .trap h
            · exact .push (.setMe (.clearR h))
            · exact .trap h

theorem tagld {pfx : Pfx} {d a : Nat} (h : s.Canon) : CanonNext (exec (.tagld pfx d a) s) := by
  change CanonNext (execTagld pfx d a s)
  unfold execTagld
  dsimp only
  exact .next <| by
    split
    · exact .trap (.noteFailed h)
    · exact .setMe (.useTlb (.countUnit h))
    · exact .setMe (.useTlb (.countUnit h))
    · exact .trap h
    · exact .trap h

theorem vqnt {pfx : Pfx} {ty : Ty} {fix : Bool} {d a b : Nat} (h : s.Canon) :
    CanonNext (exec (.vqnt pfx ty fix d a b) s) := by
  change CanonNext (execVqnt pfx ty fix d a b s)
  unfold execVqnt
  dsimp only
  split
  · exact .next (.keep h rfl)
  · exact .next (.keep h rfl)

theorem baddq {pfx : Pfx} {ty : Ty} {d a b : Nat} (h : s.Canon) : CanonNext (exec (.baddq pfx ty d a b) s) := by
  change CanonNext (execBaddq pfx ty d a b s)
  unfold execBaddq
  split
  · dsimp only
    exact .next (.keep h rfl)
  · exact .next (.keep h rfl)

theorem tview {pfx : Pfx} {d a : Nat} {off : Int} (h : s.Canon) : CanonNext (exec (.tview pfx d a off) s) := by
  change CanonNext (execTview pfx d a off s)
  unfold execTview
  dsimp only
  exact .next (.onTile h <| by
    split
    · exact .trap h
    · exact .withLoad h fun _ _ ht => .ite (.keep ht rfl) (.trapCause ht))

theorem tforce {pfx : Pfx} {a : Nat} (h : s.Canon) : CanonNext (exec (.tforce pfx a) s) :=
  .next (.onTile h <| by
    split
    · exact .trap h
    · exact .keep h rfl
    · exact .forceDemand h)

theorem tstore {pfx : Pfx} {rm d a : Nat} (h : s.Canon) : CanonNext (exec (.tstore pfx rm d a) s) :=
  .next (.onTile h <| by
    split
    · exact .trap h
    · split
      · exact .demandWork h
      · exact .forceFirst h)

theorem tdrop {pfx : Pfx} {a : Nat} (h : s.Canon) : CanonNext (exec (.tdrop pfx a) s) :=
  .next (.onTile h <| by
    split
    · exact .trap h
    · exact .keep h rfl
    · exact .keep h rfl)

theorem acq {pfx : Pfx} {d : Nat} {srcA : Src} (h : s.Canon) : CanonNext (exec (.acq pfx d srcA) s) := by
  change CanonNext (execAcq pfx d srcA s)
  unfold execAcq
  dsimp only
  exact .next (.onTile h <| by
    split
    · exact .trapCause h
    · split
      · exact .trapCause h
      · exact .setMe (.setMe (.zeroRun h)))

theorem arel {pfx : Pfx} {a : Nat} (h : s.Canon) : CanonNext (exec (.arel pfx a) s) :=
  .next (.onTile h <| by
    split
    · exact .trapCause h
    · split
      · exact .keep h rfl
      · exact .forceFirst h)

theorem endBead {pfx : Pfx} {a : Nat} (h : s.Canon) : CanonNext (exec (.endBead pfx a) s) := by
  change CanonNext (execEndBead pfx a s)
  unfold execEndBead
  dsimp only
  exact .next (.notSteward h <| by
    split
    · exact .trap h
    · exact .ite (.trapCause h) (.ite (.trapCause h) (.endRun h)))

theorem launch {pfx : Pfx} {a b : Nat} (h : s.Canon) : CanonNext (exec (.launch pfx a b) s) := by
  obtain ⟨readKd, hkd⟩ := exists_eq (a' := s.readKd)
  change CanonNext (execLaunch pfx a b s)
  unfold execLaunch
  rw [← hkd]
  dsimp only
  exact .next <| by
    split
    · exact .trap h
    · split
      · exact .trap h
      · split
        · exact .sendLaunch (.noteFailed h)
        · exact .sendLaunch (.noteRange h)

theorem slot {pfx : Pfx} {d immn : Nat} (h : s.Canon) : CanonNext (exec (.slot pfx d immn) s) := by
  change CanonNext (execSlot pfx d immn s)
  unfold execSlot
  dsimp only
  exact .next <| by
    split
    · exact .trapCause h
    · split
      · exact .takeSlot h
      · exact .trapCause h

theorem slotAck {pfx : Pfx} {immn : Nat} (h : s.Canon) : CanonNext (exec (.slotAck pfx immn) s) := by
  change CanonNext (execSlotAck pfx immn s)
  unfold execSlotAck
  dsimp only
  exact .next <| by
    split
    · exact .trapCause h
    · split
      · exact .returnSlot h
      · exact .trapCause h

theorem slotEnd {pfx : Pfx} {d immn : Nat} (h : s.Canon) : CanonNext (exec (.slotEnd pfx d immn) s) := by
  change CanonNext (execSlotEnd pfx d immn s)
  unfold execSlotEnd
  dsimp only
  exact .next <| by
    split
    · exact .trapCause h
    · exact .ite (.trapCause h) (.ite (.keep h rfl) h)

theorem lkpop {pfx : Pfx} {d a : Nat} (h : s.Canon) : CanonNext (exec (.lkpop pfx d a) s) :=
  .next (.onLink h <| by
    split
    · exact .trapCause h
    · dsimp only
      exact .ite (.keep h rfl) (.keep h rfl))

theorem lkpopSet {pfx : Pfx} {d a b : Nat} (h : s.Canon) : CanonNext (exec (.lkpopSet pfx d a b) s) :=
  .next (.onLink h <| by
    split
    · exact .trapCause h
    · exact .keep h rfl)

theorem idle {pfx : Pfx} {d : Nat} (h : s.Canon) : CanonNext (exec (.idle pfx d) s) := by
  change CanonNext (execIdle pfx d s)
  unfold execIdle
  dsimp only
  exact .next (.secureOnly h <| by
    split
    · exact h
    · exact .keep h rfl)

theorem pdrnSave {pfx : Pfx} {d a b : Nat} (h : s.Canon) : CanonNext (exec (.pdrnSave pfx d a b) s) :=
  .next (.secureOnly h <| by
    split
    · exact .keep h rfl
    · exact .ite (.keep h rfl) (.ite (.keep h rfl) (.beginDrain h)))

theorem pdrnKill {pfx : Pfx} {d a : Nat} (h : s.Canon) : CanonNext (exec (.pdrnKill pfx d a) s) :=
  .next (.secureOnly h <| by
    split
    · exact .keep h rfl
    · split
      · exact .keep h rfl
      · dsimp only
        exact .beginDrain (.foldl h fun _ _ ht => .killTile ht))

theorem pdrnRun {pfx : Pfx} {d a : Nat} (h : s.Canon) : CanonNext (exec (.pdrnRun pfx d a) s) :=
  .next (.secureOnly h <| by
    split
    · exact .keep h rfl
    · split
      · exact .keep h rfl
      · dsimp only
        exact .setMe (.push (.startRampUp (.foldl (.ite (.keep h rfl) (.keep h rfl)) fun _ _ ht => .resumeSaved ht))))

theorem prst {pfx : Pfx} {a : Nat} (h : s.Canon) : CanonNext (exec (.prst pfx a) s) :=
  .next (.secureOnly h <| by
    split
    · exact .keep h rfl
    · exact .ite (.setMe (.resetPart h)) (.keep h rfl))

theorem ctxsv {pfx : Pfx} {d a b : Nat} {mem : Bool} (h : s.Canon) : CanonNext (exec (.ctxsv pfx d a b mem) s) := by
  change CanonNext (execCtxsv pfx d a b mem s)
  unfold execCtxsv
  dsimp only
  exact .next (.secureOnly h (.withImage h (.withLoad h fun _ _ ht => by
    split
    · exact .setMe (.freeWord ht)
    · exact .ite (.trapCause ht) (.saveImage ht))))

theorem ctxrs {pfx : Pfx} {d a : Nat} (h : s.Canon) : CanonNext (exec (.ctxrs pfx d a) s) := by
  change CanonNext (execCtxrs pfx d a s)
  unfold execCtxrs
  dsimp only
  exact .next (.secureOnly h (.withImage h (.withLoad h fun _ _ ht => by
    split
    · exact .trap (.noteFailed ht)
    · exact .restoreImage (.noteRange ht))))

/-- Every instruction of the tables keeps the form. -/
theorem exec_mk (op : Op) (o : Opnds) (h : s.Canon) : CanonNext (exec (mk op o) s) := by
  cases op with
  | add | sub | and | or | xor | andn | mov | min | max | minu | maxu | shl | shr | sar | rol | mul | mulh | mulhu | div |
  divu | rem | remu | sel | seq | sne | slt | sltu | sle | sleu | clz | ctz | popc | pgtag | sextB | sextH | sextW | zextB |
  zextH | zextW | padd | ptag | shadd0 | shadd1 | shadd2 | shadd3 | shadd4 | shadd5 | shadd6 | shadd7 | bext | bins | addi |
  li | pref | vbc | vmovs | vadd | vsub | vmul | vfma | vmin | vmax | vabs | vneg | vand | vor | vxor | vshl | vshr | vsar |
  vcmp | vsel | vcvt | vdq | vrsum | vrmax | vrmin | vscan | vtopk | vexp2 | vlog2 | vrcp | vrsq | vperm | pand | por | pnot
  | pset =>
    exact .next (.keep h rfl)
  | jr => exact .next (.jumpTo h)
  | jtab => exact .next (.ite (.trap h) (.withLoad h fun _ _ ht => .ite (.keep ht rfl) (.withLoad ht fun _ _ hu => .jumpTo hu)))
  | csrr | btry => exact .next (.ite (.trapCause h) (.keep h rfl))
  | csrw => exact .next (.ite (.trapCause h) (.setMe (.setCsr h)))
  | b | bpr | beqz | bnez | bltz | bgez | beq | bne | blt | bltu => exact .next (.branch h)
  | ld | ldx => exact .next (.loadScalar h)
  | st | stx => exact .next (.storeScalar h)
  | ldf => exact .next (.issueTest h)
  | stf | stfE => exact .next (.issueFill h)
  | park | parkZ => exact .next (.issuePark h)
  | aadd | amin | amax | aand | aor | axor | aswap | acas => exact .next (.atomic h)
  | afadd => exact .next (.issueAtomic h)
  | tagst | tagstZ => exact .next (.tagRange h)
  | dcwb | dcinv => exact .next (.cacheRange h)
  | vld => exact .next (.vectorAt h (.issueLoad h))
  | vst => exact .next (.vectorAt h (.issueStore h))
  | vldx => exact .next (.ite (.trap h) (.issueLoad h))
  | vstx => exact .next (.ite (.trap h) (.issueStore h))
  | tvset => exact .next (.onTile h (.ite (.keep h rfl) (.trapCause h)))
  | tforceAll => exact .next (.onTile h (.forceDemand h))
  | tdropAll | tstat => exact .next (.onTile h (.keep h rfl))
  | tmul | tmulg | tmula | tadd | tsub | tmule | tscl | tbias | tact | texp | texpSub | trmax | trsum | tdivr | tmask | trot
  | tqnt | tcopy | ttrn | tscan =>
    exact .next (.append h)
  | spawn => exact .next (.notSteward h (.ite (.trap h) (.withLoad h fun _ _ ht => .spawnRecord ht)))
  | yield => exact .next (.notSteward h (.ite (.doubleTrap h) (.ite (.trapCause h) (.ite (.demandWork h) (.requeue h)))))
  | barcfg => exact .next (.ite (.trapCause h) (.ite (.trapCause h) (.keep h rfl)))
  | arrive | bwait => exact .next (.ite (.trapCause h) (.ite h (.keep h rfl)))
  | put | puts | get | rput => exact .next (.issueCopy h)
  | strm | strmw => exact .next (.issueStream h)
  | cpwait => exact .next (.ite h (.keep h rfl))
  | fence | fencex => exact .next (.fenceOf h)
  | pksc | pksel | pkgth | pksct => exact .next (.issueRequest h)
  | edins | eddel | edchg => exact .next (.issueEdit h)
  | edmap | vldvAt | vldvCur | reclaim | reclaimUnbind => exact .next (.withCtx h fun _ => .keep h rfl)
  | ctxdone => exact .next (.ite (.trap h) (.withCtx h fun _ => .ite (.trap h) (.push (.clearR h))))
  | settle => exact .next (.withCtx h fun _ => .ite (.trap h) (.keep h rfl))
  | reclaimBind => exact .next (.ite (.trap h) (.ite (.trap h) (.keep h rfl)))
  | trap => exact .next (.callTrap h)
  | eret => exact .next (.ite (.keep h rfl) (.trapCause h))
  | tlbi | tlbiVa => exact .next (.secureOnly h (.setMe (.dropTlb h)))
  | wsw => exact .next (.ite (.trapCause h) (.callTrap h))
  | mcack => exact .next (.secureOnly h (.keep h rfl))
  | bankop => exact .bankop h
  | tagld => exact .tagld h
  | vqnt => exact .vqnt h
  | baddq => exact .baddq h
  | tview => exact .tview h
  | tforce => exact .tforce h
  | tstore => exact .tstore h
  | tdrop => exact .tdrop h
  | acq => exact .acq h
  | arel => exact .arel h
  | endBead => exact .endBead h
  | launch => exact .launch h
  | slot => exact .slot h
  | slotAck => exact .slotAck h
  | slotEnd => exact .slotEnd h
  | lkpop => exact .lkpop h
  | lkpopSet => exact .lkpopSet h
  | idle => exact .idle h
  | pdrnSave => exact .pdrnSave h
  | pdrnKill => exact .pdrnKill h
  | pdrnRun => exact .pdrnRun h
  | prst => exact .prst h
  | ctxsv | ctxsvMem => exact .ctxsv h
  | ctxrs => exact .ctxrs h

/-- Every device step keeps the form. -/
theorem exec_event (e : Ev) (h : s.Canon) : CanonNext (exec e.instr { s with msg := some e }) := by
  have h : State.Canon { s with msg := some e } := .keep h rfl
  cases e with
  | deviceReset => exact .next (.deviceReset h)
  | attestationRequest => exact .next (.keep h rfl)
  | hostQueueRegisterWrite => exact .next (.hostQueueRegisterWrite h)
  | hcqtDoorbell => exact .next (.hcqtDoorbell h)
  | hostNopCommand => exact .next (.hostNopCommand h)
  | hostLaunchCommand => exact .next (.hostLaunchCommand h)
  | hostUnknownCommand => exact .next (.hostUnknownCommand h)
  | hcphWrite => exact .next (.keep h rfl)
  | completionWrite => exact .next (.completionWrite h)
  | hostMemAccess => exact .next (.hostMemAccess h)
  | indirectRecordRead => exact .next (.indirectRecordRead h)
  | launchRetry => exact .next (.launchRetry h)
  | kernelPlacement => exact .next (.kernelPlacement h)
  | initialBeadEnqueue => exact .next (.initialBeadEnqueue h)
  | rampUpStep => exact .next (.rampUpStep h)
  | pickupGrant => exact .next (.pickupGrant h)
  | headBufferRefill => exact .next (.headBufferRefill h)
  | bankJoinIncrement => exact .next (.bankJoinIncrement h)
  | bankJoinDecrement => exact .next (.bankJoinDecrement h)
  | continuationEnqueue => exact .next (.continuationEnqueue h)
  | overflowListDrain => exact .next (.overflowListDrain h)
  | retirementQuiesceComplete => exact .next (.retirementQuiesceComplete h)
  | rampDownStep => exact .next (.rampDownStep h)
  | bankAtomicApply => exact .next (.bankAtomicApply h)
  | atomicReply => exact .next (.atomicReply h)
  | bankopLineApply => exact .next (.bankopLineApply h)
  | futureFillApply => exact .next (.futureFillApply h)
  | testAndRegisterReply => exact .next (.testAndRegisterReply h)
  | parkTableWake => exact .next (.parkTableWake h)
  | loadDataReturn => exact .next (.loadDataReturn h)
  | storeCompletion => exact .next (.storeCompletion h)
  | rodWatchdogExpiry => exact .next (.rodWatchdogExpiry h)
  | machineCheck => exact .next (.machineCheck h)
  | rowShiftRepair => exact .next (.rowShiftRepair h)
  | pdrnDeadlineExpiry => exact .next (.pdrnDeadlineExpiry h)
  | drainComplete => exact .next (.drainComplete h)
  | barrierArrivalMessage => exact .next (.barrierArrivalMessage h)
  | barrierReleaseMessage => exact .next (.barrierReleaseMessage h)
  | copyLineLand => exact .next (.copyLineLand h)
  | copyLineAck => exact .next (.copyLineAck h)
  | putsSignalApply => exact .next (.putsSignalApply h)
  | rputMessageApply => exact .next (.rputMessageApply h)
  | streamSlotWrite => exact .next (.streamSlotWrite h)
  | strmwSlotWriteback => exact .next (.strmwSlotWriteback h)
  | pkscExecute => exact .next (.runRequest h fun _ => State.Canon.runPksc h)
  | pkselExecute => exact .next (.runRequest h fun _ => State.Canon.runPksel h)
  | pkgthExecute => exact .next (.runRequest h fun _ => State.Canon.runPkgth h)
  | pksctExecute => exact .next (.runRequest h fun _ => State.Canon.runPksct h)
  | demandServe => exact .next (.demandServe h)
  | outputTileEvaluate => exact .next (.outputTileEvaluate h)
  | outputTileRelease => exact .next (.outputTileRelease h)
  | demandComplete => exact .next (.demandComplete h)
  | tdropService => exact .next (.tdropService h)
  | evuContextRequest => exact .next (.evuContextRequest h)
  | evuRecomputeSpawn => exact .next (.evuRecomputeSpawn h)
  | ingressImportAccess => exact .next (.ingressImportAccess h)
  | linkDeadDeclaration => exact .next (.linkDeadDeclaration h)
  | drainRoundExpiry => exact .next (.drainRoundExpiry h)
  | indirectionEntryWrite => exact .next (.indirectionEntryWrite h)
  | pageMoveComplete => exact .next (.pageMoveComplete h)
  | linkCoreBind => exact .next (.linkCoreBind h)
  | linkCoreUnbind => exact .next (.linkCoreUnbind h)
  | checkpointGo => exact .next (.checkpointGo h)
  | checkpointComplete => exact .next (.checkpointComplete h)
  | systemRegisterWrite => exact .next (.systemRegisterWrite h)
  | energyUpdate => exact .next (.energyUpdate h)
  | throttleStepDecay => exact .next (.throttleStepDecay h)
  | throttleCauseDemand => exact .next (.throttleCauseDemand h)
  | forwardedAccess => exact .next (.forwardedAccess h)

end CanonNext
end Sys2Proof.Machine
end

