-- ==== Sys2Proof/Proofs/KeepsMemory.lean ====
section
/-! Every step keeps the memories in canonical form (O60). -/

namespace Sys2Proof.Machine

open Sys2Proof

/-- What the decoder gives is the instruction of an operation and operands. -/
theorem mk_of_decode {ws : List IWord} {i : Instr} {n : Nat} (h : decode ws = .ok (i, n)) : ∃ op o, i = mk op o := by
  unfold decode at h
  split at h
  next => cases h
  next =>
    split at h
    next => cases h
    next op o _ =>
      cases h
      exact ⟨op, o, rfl⟩

variable {s : State}

/-- What a turn comes to: an instruction of the tables in a state of canonical form, or such a state. -/
def Turn.Canon : Turn → Prop
  | .execute i t => (∃ op o, i = mk op o) ∧ t.Canon
  | .done t => t.Canon

/-- What comes next: a device step or nothing, in a state of canonical form, or a core's turn. -/
def Choice.Canon : Choice → Prop
  | .event _ t => t.Canon
  | .core _ => True
  | .done t => t.Canon

namespace State.Canon

theorem pass (h : s.Canon) : s.pass.Canon := .keep h rfl

theorem takeTurn {k : Nat} (h : s.Canon) : (s.takeTurn k).Canon := .keep h rfl

theorem turn {k : Nat} (h : s.Canon) : (s.turn k).Canon := by
  have h0 : (s.takeTurn k).Canon := .takeTurn h
  unfold State.turn
  dsimp only
  split
  · split
    · exact .push (.modCore (.putCore h0))
    · exact .putCore h0
  · split
    · exact .trap (.noteFetch h0)
    · split
      · exact .trapCause (.noteRange h0)
      next hd =>
        split
        · exact .trapCause (.noteRange h0)
        · exact ⟨mk_of_decode hd, .noteRange (.keep h0 rfl)⟩

theorem ring (h : s.Canon) : s.ring.Canon := by
  unfold State.ring
  split
  · exact .keep h rfl
  · exact h

theorem order (h : s.Canon) : s.order.Canon := by
  unfold State.order
  split
  case h_1 => exact .keep h rfl
  case h_2 =>
    split
    case h_1 => exact .keep h rfl
    case h_2 =>
      split
      · exact .keep h rfl
      · exact .keep h rfl
    case h_3 => exact .applyInput (.keep h rfl)
    case h_4 =>
      split
      · exact .keep h rfl
      · split
        · exact ring h
        · split
          · trivial
          · exact ring h

theorem choose (h : s.Canon) : s.choose.Canon := by
  unfold State.choose
  split
  · exact .keep h rfl
  · exact order h

/-- Every step keeps the memories in canonical form: a device step, an input, a core's turn. -/
theorem step (h : s.Canon) : CanonNext (step s) := by
  have hc : s.pass.choose.Canon := choose (pass h)
  unfold Machine.step
  split
  next e t he =>
    rw [he] at hc
    exact .exec_event e hc
  next t ht =>
    rw [ht] at hc
    exact .next hc
  next k _ =>
    have hk : (s.pass.turn k).Canon := turn (pass h)
    split
    next t ht =>
      rw [ht] at hk
      exact .next hk
    next i t hi =>
      rw [hi] at hk
      obtain ⟨⟨op, o, rfl⟩, ht⟩ := hk
      exact .exec_mk op o ht

end State.Canon

/-- Settles O60: the canonical form of the three memories is kept by each of their writes, and a step makes no other change to
them (`State.Canon.step`). -/
theorem stepKeepsMemory : Obligations.StepKeepsMemory := by
  unfold Obligations.StepKeepsMemory
  intro s t hwf hstep
  have hs : s.Canon := by
    unfold State.Canon
    exact hwf
  have ht : t.Canon := hs.step t hstep
  unfold State.Canon at ht
  exact ht

end Sys2Proof.Machine
end

