-- ==== Sys2Proof/Proofs/LoadsElsewhere.lean ====
section
/-! Loads of system registers and of other devices: one element of an access, what it resolves to, and what the load then does
(R156, R158, R159, R170, R174). -/

namespace Sys2Proof.Machine

open Sys2Proof

namespace State

/-! ### One element of an access -/

section
variable {s : State} {i : Issuer} {va : Word} {n align j : Nat} {wr scaled : Bool}

theorem placeAligned_of_aligned {p : Place} (halign : va.toNat % align = 0) (ht : s.translate i va n wr false = .ok p) :
    s.placeAligned i va n align wr = .ok p := by
  rw [placeAligned, ht]
  exact if_neg (by rw [halign]; decide)

/-- One element lies in the region of the access, which is its own. -/
theorem spots_singleton : s.spots i n wr scaled (s.firstKey i [(j, va)]) [(j, va)] = s.spotsOf i n wr scaled [(j, va)] := by
  have hnone : [(j, va)].find? (fun e => s.regionKey i e.2 != s.firstKey i [(j, va)]) = none := by
    rw [List.find?_eq_none]
    simp [firstKey]
  rw [spots, hnone]

theorem spotsOf_sys {block off : Nat} (h : s.placeAligned i va n n wr = .ok (.sys block off)) :
    s.spotsOf i n wr scaled [(j, va)] = .ok [.sys j block off] := by
  rw [spotsOf, h]
  rfl

theorem spotsOf_gone {dead : Bool} (h : s.placeAligned i va n n wr = .ok (.gone dead)) :
    s.spotsOf i n wr scaled [(j, va)] = .ok [.gone va dead] := by
  rw [spotsOf, h]
  rfl

end

/-! ### The load of one element -/

theorem useTlb_cur (s : State) (va : Word) : (s.useTlb va).cur = s.cur := by
  rw [useTlb, noteTlb_rest]

section
variable {s : State} {dst : LoadDst} {n j : Nat} {scaled : Bool} {va : Word}

/-- A system register loads at once (R170). -/
theorem issueLoad_sys {block off : Nat} (h : s.placeAligned (s.issuer s.cur .c) va n n false = .ok (.sys block off)) :
    s.issueLoad dst none n scaled [(j, va)] = (s.useTlb va).loadInto s.cur dst
      [({ lane := j, va := 0, loc := 0, n := 8 }, leBytes 8 ((s.useTlb va).readSys block off).toNat)] := by
  rw [issueLoad, spots_singleton, spotsOf_sys h]
  rfl

/-- A load that is not delivered is a fault of its instruction (R156, R159). -/
theorem issueLoad_gone {dead : Bool} (h : s.placeAligned (s.issuer s.cur .c) va n n false = .ok (.gone dead)) :
    s.issueLoad dst none n scaled [(j, va)] =
      (s.useTlb va).trap { cause := if dead then 0x0C else 0x0B, va := va } := by
  rw [issueLoad, spots_singleton, spotsOf_gone h]
  rfl

end

/-! ### The value of a system register -/

theorem ofInt_signed_toNat (v : Word) : BitVec.ofInt 64 (signed 64 v.toNat) = v := by
  have h := sextW_eq (n := 64) (by decide) v
  rw [BitVec.setWidth_eq, BitVec.signExtend_eq] at h
  exact h

/-- Eight bytes through no window are the word that they hold (R175). -/
theorem scalarOf_word {va : Word} {ty : Ty} {rm : Nat} {sc : Byte} {v : Word} (hty : ty = .dflt ∨ ty = .i64)
    (hwin : windowOf va = 0) : scalarOf va ty rm v.toNat sc = (v, 0) := by
  rw [scalarOf, if_pos hwin]
  obtain rfl | rfl := hty
  · exact Prod.ext (ofInt_signed_toNat v) rfl
  · exact Prod.ext (ofInt_signed_toNat v) rfl

theorem loadInto_word {s : State} {d rm : Nat} {ty : Ty} {l : Lane} {v : Word} (hty : ty = .dflt ∨ ty = .i64)
    (hwin : windowOf l.va = 0) : s.loadInto s.cur (.scalar d ty rm) [(l, leBytes 8 v.toNat)] = s.answerF d (v, 0) := by
  rw [loadInto]
  simp only [leNat_leBytes_word, scalarOf_word hty hwin]
  rfl

theorem answerF_sr (s : State) (d : Nat) (r : Word × Flags) : (s.answerF d r).sr d = if d = 0 then 0 else r.1 := by
  simp only [answerF, sr_setMe, Core.sReg_commit, Core.sReg_raise, Core.sReg_setS, if_true]

theorem accessSize_word {va : Word} {ty : Ty} (hty : ty = .dflt ∨ ty = .i64) (hwin : windowOf va = 0) :
    accessSize va ty = 8 := by
  rw [accessSize, if_neg (by rw [hwin]; decide)]
  obtain rfl | rfl := hty <;> rfl

/-! ### The place of an access to an import page -/

theorem translate_imp {s : State} {i : Issuer} {va : Word} {n : Nat} {wr : Bool} {dev ent key off : Nat} (hpath : i.path = .c)
    (hspace : spaceOf va = 0) (hhome : s.globalHome i va n wr false = .ok (.imp dev ent key off)) :
    s.translate i va n wr false = .ok (s.importPlace i dev ent key off n wr) := by
  have hreach : pathReaches i.path (spaceOf va) = true := by
    rw [hpath, hspace]
    rfl
  rw [translate, hreach, hspace]
  change s.transGlobal i va n wr false = _
  rw [transGlobal, hhome]

theorem admits_iff {x : Export} {key off n : Nat} {wr world : Bool} : x.admits key off n wr world = true ↔
    x.key = key ∧ off + n ≤ x.len * 65536 ∧ (wr = true → x.wr = true) ∧ (x.secure = true → world = true) := by
  simp only [Export.admits, Bool.and_eq_true, beq_iff_eq, decide_eq_true_eq, and_assoc, Bool.or_eq_true, Bool.not_eq_true',
    ← Bool.not_eq_true, ← imp_iff_not_or]

section
variable {s : State} {i : Issuer} {dev ent key off n : Nat} {wr : Bool}

theorem importPlace_of_lost (h : s.lost.contains dev = true) : s.importPlace i dev ent key off n wr = .gone true := by
  rw [importPlace, if_pos h]

theorem importPlace_of_absent (h : s.lost.contains dev = false) (hx : Map.find? s.exports (256 * dev + ent) = none) :
    s.importPlace i dev ent key off n wr = .gone false := by
  rw [importPlace, if_neg (by rw [h]; decide), hx]

theorem importPlace_of_export {x : Export} (h : s.lost.contains dev = false)
    (hx : Map.find? s.exports (256 * dev + ent) = some x) :
    s.importPlace i dev ent key off n wr = if x.key = key ∧ off + n ≤ x.len * 65536 ∧ (wr = true → x.wr = true) ∧
      (x.secure = true → i.world = true) then .mem (importBase dev ent + off) else .gone false := by
  rw [importPlace, if_neg (by rw [h]; decide), hx]
  exact if_congr admits_iff rfl rfl

end
end State

/-- Settles O15: a single element resolves to the register or to the undelivered access, and an import page's place is that of the
exporting device's tests. -/
theorem loadsElsewhere : Obligations.LoadsElsewhere := by
  unfold Obligations.LoadsElsewhere
  intro s pfx ty rm d a off i ea n s1
  refine ⟨fun blk o hty halign ht hwin => ?sys, fun dead halign ht => ?gone, fun dev ent key o wr hspace hhome => ?imp⟩
  case sys =>
    have hload : exec (.ld pfx ty rm d a off) s = .next (s1.answerF d (s1.readSys blk o, 0)) := by
      have hissue := State.issueLoad_sys (dst := .scalar d ty rm) (scaled := true) (j := 0)
        (State.placeAligned_of_aligned halign ht)
      rw [← State.useTlb_cur s ea, State.loadInto_word hty (by decide)] at hissue
      change Host.Outcome.next (s.issueLoad _ none (accessSize ea ty) true [(0, ea)]) = _
      rw [State.accessSize_word hty hwin, hissue]
    exact ⟨_, hload, s1.answerF_sr d _, s1.answerF_commits d _⟩
  case gone => exact congrArg _ (State.issueLoad_gone (State.placeAligned_of_aligned halign ht))
  case imp =>
    rw [State.translate_imp rfl hspace hhome]
    refine ⟨fun hlost => ?_, fun hlost => ⟨fun hx => ?_, fun x hx => ?_⟩⟩
    · rw [State.importPlace_of_lost hlost]
    · rw [State.importPlace_of_absent hlost hx]
    · rw [State.importPlace_of_export hlost hx]
      rfl

end Sys2Proof.Machine
end

