-- ==== Sys2Proof/Proofs/PeerAccesses.lean ====
section
/-! Accesses of other devices: the home units of an access and the runs in which its bytes lie (R155), and what the memory that
holds them answers and leaves (R156, R157, R166). -/

namespace Sys2Proof.Machine

open Sys2Proof

/-! ### The home units of an access (R155) -/

/-- Some unit of an access has a property of units as soon as a byte of the access lies in such a unit. -/
theorem homeUnits_any {p : Nat → Bool} (hp : ∀ y, p (y / 4096 * 4096) = p y) {pa n : Nat} (hn : 0 < n) :
    (homeUnits pa n).any p = true ↔ ∃ y, pa ≤ y ∧ y < pa + n ∧ p y = true := by
  simp only [homeUnits, List.any_map, List.any_eq_true, List.mem_range, Function.comp_apply]
  constructor
  · rintro ⟨j, hj, hpj⟩
    have hunit : max pa ((pa / 4096 + j) * 4096) / 4096 * 4096 = (pa / 4096 + j) * 4096 := by omega
    refine ⟨max pa ((pa / 4096 + j) * 4096), by omega, by omega, ?_⟩
    rw [← hp, hunit]
    exact hpj
  · rintro ⟨y, hlo, hhi, hy⟩
    have hunit : pa / 4096 + (y / 4096 - pa / 4096) = y / 4096 := by omega
    refine ⟨y / 4096 - pa / 4096, by omega, ?_⟩
    rw [hunit, hp]
    exact hy

/-- The location of byte `a + j` of an access from `a` on, where `place` says that its unit's first byte lies. -/
def runByte (place : Nat → Nat) (a j : Nat) : Nat :=
  place (max ((a + j) / 4096 * 4096) a) + (a + j - max ((a + j) / 4096 * 4096) a)

/-- The runs of the first `k` units of an access hold its bytes up to the end of the last of them. -/
theorem unitRuns_prefix (place : Nat → Nat) (a n k : Nat) :
    (((List.range k).map fun j => (a / 4096 + j) * 4096).map fun u =>
        (place (max u a), min (a + n) (u + 4096) - max u a)).flatMap (fun r => (List.range r.2).map (r.1 + ·)) =
      (List.range (min (a + n) ((a / 4096 + k) * 4096) - a)).map (runByte place a) := by
  induction k with
  | zero =>
    have hnone : min (a + n) ((a / 4096 + 0) * 4096) - a = 0 := by omega
    rw [hnone]
    rfl
  | succ k ih =>
    have hlen : min (a + n) ((a / 4096 + (k + 1)) * 4096) - a = (min (a + n) ((a / 4096 + k) * 4096) - a) +
        (min (a + n) ((a / 4096 + k) * 4096 + 4096) - max ((a / 4096 + k) * 4096) a) := by omega
    rw [List.range_succ, List.map_append, List.map_append, List.flatMap_append, ih, hlen, List.range_add, List.map_append]
    refine congrArg _ ?_
    simp only [List.map_cons, List.map_nil, List.flatMap_cons, List.flatMap_nil, List.append_nil, List.map_map]
    refine List.map_congr_left fun i hi => ?_
    rw [List.mem_range] at hi
    have hunit : max ((a + (min (a + n) ((a / 4096 + k) * 4096) - a + i)) / 4096 * 4096) a = max ((a / 4096 + k) * 4096) a := by
      omega
    have hoff : a + (min (a + n) ((a / 4096 + k) * 4096) - a + i) - max ((a / 4096 + k) * 4096) a = i := by omega
    rw [Function.comp_apply, runByte, hunit, hoff]

theorem unitRuns_bytes (place : Nat → Nat) (a n : Nat) :
    (unitRuns place a n).flatMap (fun r => (List.range r.2).map (r.1 + ·)) = (List.range n).map (runByte place a) := by
  have hall : min (a + n) ((a / 4096 + (a % 4096 + n + 4095) / 4096) * 4096) - a = n := by omega
  have h := unitRuns_prefix place a n ((a % 4096 + n + 4095) / 4096)
  rw [hall] at h
  exact h

theorem unitRuns_sum (place : Nat → Nat) (a n : Nat) : ((unitRuns place a n).map Prod.snd).sum = n := by
  have h := congrArg List.length (unitRuns_bytes place a n)
  simpa only [List.length_flatMap, List.length_map, List.length_range] using h

/-! ### Bytes as a number -/

theorem leBytes_leNat (bs : List Byte) : leBytes bs.length (leNat bs) = bs := by
  induction bs with
  | nil => rfl
  | cons b bs ih =>
    have hb := b.isLt
    have hlow : (b.toNat + 256 * leNat bs) % 256 = b.toNat := by omega
    have hhigh : (b.toNat + 256 * leNat bs) / 256 = leNat bs := by omega
    rw [leNat, List.length_cons, leBytes, hlow, hhigh, ih, BitVec.ofNat_toNat, BitVec.setWidth_eq]

namespace State

theorem bytesIn_of_mem_eq {s t : State} (h : t.mem = s.mem) (ps : List (Nat × Nat)) : t.bytesIn ps = s.bytesIn ps :=
  List.flatMap_congr fun p _ => bytes_of_mem_eq h p.1 p.2

theorem bytesIn_length (s : State) (ps : List (Nat × Nat)) : (s.bytesIn ps).length = (ps.map Prod.snd).sum := by
  rw [bytesIn, List.length_flatMap]
  simp only [bytes_length]

/-! ### What the units of an access are asked -/

theorem securePa_unit (s : State) (y : Nat) : s.securePa (y / 4096 * 4096) = s.securePa y := by
  simp only [securePa, Nat.mul_div_cancel _ (show 0 < 4096 by decide)]

/-- An entry of the home indirection belongs to the whole unit. -/
theorem indir_unit (s : State) (y : Nat) : s.indir (y / 4096 * 4096) = s.indir y := by
  have hblock : indirBlock (y / 4096 * 4096) = indirBlock y := by
    unfold indirBlock
    omega
  have hoff : indirOff (y / 4096 * 4096) = indirOff y := by
    unfold indirOff
    omega
  rw [indir, indir, hblock, hoff, Nat.mul_div_cancel _ (by decide)]

theorem secureIn_iff (s : State) (pa : Nat) {n : Nat} (hn : 0 < n) :
    s.secureIn pa n = true ↔ ∃ y, pa ≤ y ∧ y < pa + n ∧ s.securePa y = true :=
  homeUnits_any s.securePa_unit hn

theorem lostIn_iff (s : State) (pa : Nat) {n : Nat} (hn : 0 < n) :
    s.lostIn pa n = true ↔ ∃ y, pa ≤ y ∧ y < pa + n ∧ s.lost.contains (fld (s.indir y) 32 12) = true :=
  homeUnits_any (fun y => by rw [indir_unit]) hn

/-! ### Bytes and metadata that arrive as they are -/

theorem landBytes_mem (s : State) (loc : Nat) (bs : List Byte) : (s.landBytes loc bs).mem = (s.putAt loc bs).mem := by
  rw [putAt, markWrite_mem]
  rfl

/-- Metadata put at granules one after another. -/
theorem metaAt_putMetas (ms : List (BitVec 12)) (s : State) (g0 k g : Nat) :
    ((ms.zipIdx k).foldl (fun (t : State) (e : BitVec 12 × Nat) => t.putMeta (g0 + e.2) e.1) s).metaAt g =
      if g0 + k ≤ g then ms.getD (g - (g0 + k)) (s.metaAt g) else s.metaAt g := by
  induction ms generalizing s k with
  | nil => simp
  | cons m ms ih =>
    rw [List.zipIdx_cons, List.foldl_cons, ih, metaAt_putMeta]
    by_cases hk : g = g0 + k
    · subst hk
      have hlater : ¬ g0 + (k + 1) ≤ g0 + k := by omega
      simp [hlater]
    · by_cases hlo : g0 + k ≤ g
      · have hnext : g0 + (k + 1) ≤ g := by omega
        have hpos : g - (g0 + k) = g - (g0 + (k + 1)) + 1 := by omega
        rw [if_pos hnext, if_neg hk, if_pos hlo, hpos, List.getD_cons_succ]
      · have hnext : ¬ g0 + (k + 1) ≤ g := by omega
        rw [if_neg hnext, if_neg hk, if_neg hlo]

theorem putMetas_rest (ms : List (BitVec 12 × Nat)) (s : State) (g0 : Nat) :
    ms.foldl (fun (t : State) (e : BitVec 12 × Nat) => t.putMeta (g0 + e.2) e.1) s =
      { s with gmeta := (ms.foldl (fun (t : State) (e : BitVec 12 × Nat) => t.putMeta (g0 + e.2) e.1) s).gmeta } := by
  induction ms generalizing s with
  | nil => rfl
  | cons m ms ih =>
    rw [List.foldl_cons, ih]
    rfl

theorem lineIn_rest (s : State) (loc : Nat) (bs : List Byte) (ms : List (BitVec 12)) :
    s.lineIn loc bs ms = { s with
      mem := (s.landBytes loc bs).mem, units := (s.landBytes loc bs).units, written := (s.landBytes loc bs).written,
      poison := (s.lineIn loc bs ms).poison, gmeta := (s.lineIn loc bs ms).gmeta } := by
  unfold lineIn
  dsimp only
  rw [putMetas_rest, landBytes_rest]

theorem bytes_lineIn (s : State) {loc : Nat} {bs : List Byte} (ms : List (BitVec 12)) (h : bs.length ≤ 4096) :
    (s.lineIn loc bs ms).bytes loc bs.length = bs := by
  rw [bytes_of_mem_eq (t := s.lineIn loc bs ms) (s := s.putAt loc bs) (by rw [lineIn_rest, landBytes_mem])]
  exact bytes_putAt (.inl h)

theorem byte_lineIn_of_not_stores {s : State} {loc y : Nat} {bs : List Byte} (ms : List (BitVec 12))
    (h : ¬ s.Stores loc bs.length y) : (s.lineIn loc bs ms).byte y = s.byte y := by
  rw [byte_of_mem_eq (t := s.lineIn loc bs ms) (s := s.putAt loc bs) (by rw [lineIn_rest, landBytes_mem])]
  exact byte_putAt_of_not_stores h

theorem metaAt_lineIn {s : State} {loc j : Nat} {bs : List Byte} {ms : List (BitVec 12)} {m : BitVec 12} (h : ms[j]? = some m) :
    (s.lineIn loc bs ms).metaAt (loc / 32 + j) = m := by
  unfold lineIn
  rw [metaAt_putMetas]
  simp [h]

/-! ### What the memory answers (R156, R166) -/

section
variable {s : State} {q : PeerReq} {rs : List (Nat × Nat)}

/-- The first miss of the tag check over some runs. -/
def runsMiss (s : State) (q : PeerReq) (rs : List (Nat × Nat)) : Option (Nat × Byte) :=
  rs.findSome? fun r => s.tagMiss r.1 r.2 q.tag

theorem peerAnswer_of_miss {g : Nat} {t : Byte} (hc : PeerOp.checked q.op = true) (hm : s.runsMiss q rs = some (g, t)) :
    s.peerAnswer q rs = (s.countPieces rs).emit (.reply q.dev (.tag t)) := by
  unfold runsMiss at hm
  rw [peerAnswer, peerServe, hc, if_pos rfl, hm]

/-- An access that its tags let pass, or whose tag is not checked, is performed. -/
theorem peerAnswer_of_do {t : State} {r : PeerReply} (h : PeerOp.checked q.op = true → s.runsMiss q rs = none)
    (hdo : s.peerDo q rs = (t, r)) : s.peerAnswer q rs = t.emit (.reply q.dev r) := by
  have hnone : (if PeerOp.checked q.op = true then rs.findSome? fun r => s.tagMiss r.1 r.2 q.tag else none) = none := by
    split
    next hc => exact h hc
    · rfl
  rw [peerAnswer, peerServe, hnone]
  dsimp only
  rw [hdo]

theorem peerDo_lineIn {bs : List Byte} {ms : List (BitVec 12)} (hop : q.op = .lineIn bs ms) :
    s.peerDo q rs = (s.lineIn (firstRun rs) bs ms, .data []) := by
  rw [peerDo, hop]

theorem peerDo_lineOut (hop : q.op = .lineOut) (hbad : s.poisoned (firstRun rs) 64 = false) :
    s.peerDo q rs = (s, .data (s.lineOut (firstRun rs))) := by
  rw [peerDo, hop]
  dsimp only
  rw [hbad]
  rfl

theorem peerDo_read (hop : q.op = .read) (hbad : (rs.any fun r => s.poisoned r.1 r.2) = false) :
    s.peerDo q rs = (s.countPieces rs, .data (s.lookRuns rs)) := by
  rw [peerDo, hop]
  dsimp only
  rw [hbad]
  rfl

theorem peerDo_read_bad (hop : q.op = .read) (hbad : (rs.any fun r => s.poisoned r.1 r.2) = true) :
    s.peerDo q rs = (s.countPieces rs, .bad) := by
  rw [peerDo, hop]
  dsimp only
  rw [hbad]
  rfl

theorem peerDo_write {bs : List Byte} (hop : q.op = .write bs) : s.peerDo q rs = (s.fillPieces rs bs, .data []) := by
  rw [peerDo, hop]

theorem peerDo_atomic {fn : AtomFn} {signed : Bool} {b x : Word} (hop : q.op = .atomic fn signed b x)
    (hbad : (rs.any fun r => s.poisoned r.1 r.2) = false) :
    s.peerDo q rs = (if atomNew fn signed (8 * q.n) (leNat (s.lookRuns rs)) b.toNat x.toNat = leNat (s.lookRuns rs)
      then s.countPieces rs
      else s.fillPieces rs (leBytes q.n (atomNew fn signed (8 * q.n) (leNat (s.lookRuns rs)) b.toNat x.toNat)),
      .data (leBytes q.n (leNat (s.lookRuns rs)))) := by
  rw [peerDo, hop]
  dsimp only
  rw [hbad]
  rfl

/-- What an atomic leaves: the bytes of its new number, whether it was the old one or has been written. -/
theorem atomic_holds {new : Nat} (hsum : (rs.map Prod.snd).sum = q.n) {u : State}
    (hu : u = if new = leNat (s.lookRuns rs) then s.countPieces rs else s.fillPieces rs (leBytes q.n new)) :
    u.cores = s.cores ∧ u.outbox = s.outbox ∧ (∀ y, (∀ r ∈ rs, ¬ s.Stores r.1 r.2 y) → u.byte y = s.byte y) ∧
      (s.Apart rs → s.lookRuns rs = s.bytesIn rs → u.bytesIn rs = leBytes q.n new) := by
  subst hu
  split
  next hsame =>
    have hmem : (s.countPieces rs).mem = s.mem := countPieces_mem s rs
    refine ⟨by rw [countPieces_rest], by rw [countPieces_rest], fun y _ => byte_of_mem_eq hmem y, fun _ hlook => ?_⟩
    rw [bytesIn_of_mem_eq hmem, hsame, hlook, ← hsum, ← bytesIn_length s rs, leBytes_leNat]
  next =>
    obtain ⟨hrest, hown⟩ := fillPieces_holds s rs (leBytes q.n new) (by rw [hsum, leBytes_length])
    exact ⟨fillPieces_cores .., by rw [fillPieces_rest], hrest, fun ha _ => hown ha⟩

end
end State
end Sys2Proof.Machine
end

