-- ==== Sys2Proof/Proofs/PageMoves.lean ====
section
/-! The home indirection (R155): what writing an entry leaves, and the move of a unit to its new place (R157). -/

namespace Sys2Proof.Machine

open Sys2Proof

/-! ### Fields of words -/

theorem fld_lt (w : Word) (lo len : Nat) : fld w lo len < 2 ^ len := Nat.mod_lt _ (Nat.two_pow_pos len)

/-- Another field replaced leaves a field as it is. -/
theorem fld_setFld_of_apart (w : Word) {lo len at_ n : Nat} (v : Nat) (h : at_ + n ≤ lo ∨ lo + len ≤ at_) (h64 : at_ + n ≤ 64) :
    fld (setFld w lo len v) at_ n = fld w at_ n := by
  refine Nat.eq_of_testBit_eq fun i => ?_
  simp only [fld, Nat.testBit_mod_two_pow, Nat.testBit_div_two_pow]
  by_cases hi : i < n
  · have hsame := setFld_getLsbD w lo len v (i := i + at_) (by omega)
    have hout : ¬ (lo ≤ i + at_ ∧ i + at_ < lo + len) := by omega
    rw [if_neg hout] at hsame
    simp only [BitVec.getLsbD] at hsame
    rw [hsame]
  · simp [hi]

section
variable (own n : Nat) (w1 : Word)

theorem movedEntry_toNat : (movedEntry own n w1).toNat =
    (decide ¬ (fld w1 32 12 = own ∧ fld w1 0 28 = n)).toNat * 2 ^ 63 + fld w1 32 12 * 2 ^ 32 + fld w1 0 28 := by
  have hdev := fld_lt w1 32 12
  have hppn := fld_lt w1 0 28
  have hmoved := Bool.toNat_le (decide ¬ (fld w1 32 12 = own ∧ fld w1 0 28 = n))
  rw [movedEntry, BitVec.toNat_ofNat, ← decide_not]
  omega

theorem fld_movedEntry_dev : fld (movedEntry own n w1) 32 12 = fld w1 32 12 := by
  have hdev := fld_lt w1 32 12
  have hppn := fld_lt w1 0 28
  rw [fld, movedEntry_toNat]
  omega

theorem fld_movedEntry_ppn : fld (movedEntry own n w1) 0 28 = fld w1 0 28 := by
  have hppn := fld_lt w1 0 28
  rw [fld, movedEntry_toNat]
  omega

theorem bitOf_movedEntry_cp : bitOf (movedEntry own n w1) 62 = false := by
  have hdev := fld_lt w1 32 12
  have hppn := fld_lt w1 0 28
  rw [bitOf, movedEntry_toNat, Nat.testBit_eq_decide_div_mod_eq]
  exact decide_eq_false (by omega)

theorem bitOf_movedEntry_mv : bitOf (movedEntry own n w1) 63 = true ↔ ¬ (fld w1 32 12 = own ∧ fld w1 0 28 = n) := by
  have hdev := fld_lt w1 32 12
  have hppn := fld_lt w1 0 28
  have hmoved := Bool.toNat_le (decide ¬ (fld w1 32 12 = own ∧ fld w1 0 28 = n))
  have hbit : (movedEntry own n w1).toNat / 2 ^ 63 % 2 = (decide ¬ (fld w1 32 12 = own ∧ fld w1 0 28 = n)).toNat := by
    rw [movedEntry_toNat]
    omega
  rw [bitOf, Nat.testBit_eq_decide_div_mod_eq, hbit, decide_eq_true_iff, Bool.toNat_eq_one, decide_eq_true_iff]

end

namespace State

variable (s : State) (n : Nat) (v : Word)

/-! ### The words of an entry -/

theorem indir_putIndir : (s.putIndir n 0 v).indir (4096 * n) = v := by
  have hfind : Map.find? (s.putIndir n 0 v).sys (sysKey (indirBlock (4096 * n)) (indirOff (4096 * n))) = some v :=
    Map.find?_put_same ..
  rw [indir, hfind]

theorem sysReg_putIndir : (s.putIndir n 1 v).sysReg (unitBlock n) (unitOff n + 8) = v := Map.get_put_same ..

theorem indirectionEntryWrite_of_moving {word : Nat} (h : bitOf (s.indir (4096 * n)) 62 = true) :
    s.indirectionEntryWrite n word v = s := by
  rw [indirectionEntryWrite, h, if_pos rfl]

theorem indirectionEntryWrite_zero (h : bitOf (s.indir (4096 * n)) 62 = false) : s.indirectionEntryWrite n 0 v =
    if bitOf v 62 = true then (s.putIndir n 0 (clearFlds v [(44, 18), (28, 4)])).startMove n
    else s.putIndir n 0 (clearFlds v [(44, 18), (28, 4)]) := by
  rw [indirectionEntryWrite, h]
  rfl

/-- A write of w1 sets ACNT: what every path has counted of the unit goes. -/
theorem indirectionEntryWrite_one (h : bitOf (s.indir (4096 * n)) 62 = false) : s.indirectionEntryWrite n 1 v =
    State.putIndir { s with
      acnt := Map.put s.acnt n (fld v 48 16)
      units := s.units.map fun (e : Nat × BeadUnit) => (e.1, { e.2 with hits := Map.del e.2.hits n }) }
      n 1 (clearFlds v [(44, 20), (28, 4)]) := by
  rw [indirectionEntryWrite, h]
  rfl

/-- A unit's own part, where an operation maps every listed unit and leaves the one that no list holds. -/
theorem unitAt_map {f : BeadUnit → BeadUnit} (hf : f {} = {}) {t : State}
    (ht : t.units = s.units.map fun e => (e.1, f e.2)) (k : Nat) : t.unitAt k = f (s.unitAt k) := by
  rw [unitAt, unitAt, ht, Map.get, Map.get, Map.find?_map]
  cases Map.find? s.units k with
  | none => exact hf.symm
  | some x => rfl

theorem accesses_of_cleared {t : State} (ha : Map.get t.acnt 0 n = fld v 48 16)
    (hu : t.units = s.units.map fun (e : Nat × BeadUnit) => (e.1, { e.2 with hits := Map.del e.2.hits n })) :
    t.accesses n = fld v 48 16 := by
  have hsum : ∀ (us : List (Nat × BeadUnit)) (m : Nat),
      (us.map fun (e : Nat × BeadUnit) => (e.1, { e.2 with hits := Map.del e.2.hits n })).foldl
        (fun m e => m + Map.get e.2.hits 0 n) m = m := by
    intro us m
    induction us generalizing m with
    | nil => rfl
    | cons e us ih =>
      have hnone : Map.get (Map.del e.2.hits n) 0 n = 0 := by rw [Map.get, Map.find?_del, if_pos rfl, Option.getD_none]
      rw [List.map_cons, List.foldl_cons, hnone, Nat.add_zero, ih]
  have hlt := fld_lt v 48 16
  rw [accesses, ha, hu, hsum]
  omega

/-! ### The move of a page (R157) -/

section
variable {dst : Nat} {p : List Byte × List (BitVec 12)}

theorem putPage_mem : (s.putPage dst p).mem = (s.putBytes dst p.1).mem := by
  rw [putPage, putMetas_rest]

theorem putPage_cores : (s.putPage dst p).cores = s.cores := by
  rw [putPage, putMetas_rest, putBytes_rest]

theorem putPage_bytes : (s.putPage dst p).bytes dst p.1.length = p.1 := by
  rw [bytes_of_mem_eq s.putPage_mem, bytes_putBytes]

theorem putPage_byte_other {y : Nat} (h : y < dst ∨ dst + p.1.length ≤ y) : (s.putPage dst p).byte y = s.byte y := by
  rw [byte_of_mem_eq s.putPage_mem, byte_putBytes, if_neg (by omega)]

theorem putPage_metaAt {g : Nat} : (s.putPage dst p).metaAt (dst / 32 + g) = p.2.getD g (s.metaAt (dst / 32 + g)) := by
  have hmeta : ∀ t : State, t.gmeta = s.gmeta → (p.2.zipIdx.foldl
      (fun (t : State) (e : BitVec 12 × Nat) => t.putMeta (dst / 32 + e.2) e.1) t).metaAt (dst / 32 + g) =
        p.2.getD g (s.metaAt (dst / 32 + g)) := by
    intro t ht
    rw [metaAt_putMetas, if_pos (by omega), metaAt_of_gmeta_eq ht, Nat.add_zero, Nat.add_sub_cancel_left]
  exact hmeta _ (by rw [putBytes_rest])

end

theorem pageOf_length (src : Nat) : (s.pageOf src).1.length = 4096 := bytes_length ..

theorem pageOf_metas {src g : Nat} (m : BitVec 12) (hg : g < 128) : (s.pageOf src).2.getD g m = s.metaAt (src / 32 + g) := by
  simp [pageOf, hg]

theorem movePageNotes_mem (src dst : Nat) : (s.movePageNotes src dst).mem = s.mem := rfl

theorem movePageNotes_gmeta (src dst : Nat) : (s.movePageNotes src dst).gmeta = s.gmeta := rfl

theorem movePageNotes_cores (src dst : Nat) : (s.movePageNotes src dst).cores = s.cores := rfl

/-- The state in which a unit's page stands at its new place. -/
def pageMoved (src dst : Nat) : State := if src = dst then s else (s.putPage dst (s.pageOf src)).movePageNotes src dst

theorem pageMoved_page (src dst : Nat) : (s.pageMoved src dst).bytes dst 4096 = s.bytes src 4096 ∧
    (∀ y, y < dst ∨ dst + 4096 ≤ y → (s.pageMoved src dst).byte y = s.byte y) ∧
    ∀ g, g < 128 → (s.pageMoved src dst).metaAt (dst / 32 + g) = s.metaAt (src / 32 + g) := by
  unfold pageMoved
  split
  next h => exact ⟨by rw [h], fun _ _ => rfl, fun _ _ => by rw [h]⟩
  next =>
    have hlen := s.pageOf_length src
    refine ⟨?_, fun y hy => ?_, fun g hg => ?_⟩
    · have hput := s.putPage_bytes (dst := dst) (p := s.pageOf src)
      rw [hlen] at hput
      rw [bytes_of_mem_eq (movePageNotes_mem ..), hput]
      rfl
    · rw [byte_of_mem_eq (movePageNotes_mem ..), putPage_byte_other _ (by rwa [hlen])]
    · rw [metaAt_of_gmeta_eq (movePageNotes_gmeta ..), putPage_metaAt, pageOf_metas _ _ hg]

theorem pageMoved_cores (src dst : Nat) : (s.pageMoved src dst).cores = s.cores := by
  unfold pageMoved
  split
  · rfl
  · rw [movePageNotes_cores, putPage_cores]

theorem pageMoveComplete_of_still (h : bitOf (s.indir (4096 * n)) 62 = false) : s.pageMoveComplete n = s := by
  rw [pageMoveComplete, h]
  rfl

theorem pageMoveComplete_of_moving (h : bitOf (s.indir (4096 * n)) 62 = true) : ∃ moves, s.pageMoveComplete n =
    State.putIndir { s.pageMoved (s.current (4096 * n)) (s.moveTarget n) with moves := moves } n 0
      (movedEntry s.devId n (s.sysReg (unitBlock n) (unitOff n + 8))) := by
  rw [pageMoveComplete, h]
  exact ⟨_, rfl⟩

/-- The entry that ends a move lies outside the memories. -/
theorem writeEntry_memory (t : State) (moves : List (Nat × Nat)) (n : Nat) (v : Word) :
    (State.putIndir { t with moves := moves } n 0 v).mem = t.mem ∧
      (State.putIndir { t with moves := moves } n 0 v).gmeta = t.gmeta ∧
      (State.putIndir { t with moves := moves } n 0 v).cores = t.cores := ⟨rfl, rfl, rfl⟩

end State
end Sys2Proof.Machine
end

