-- ==== Sys2Proof/Proofs/Checkpoints.lean ====
section
/-! Checkpoints (R386), dead links (R385) and the writes of system registers (R170). -/

namespace Sys2Proof.Map

/-- What a lookup finds is listed. -/
theorem mem_of_find? {β : Type} {m : List (Nat × β)} {i : Nat} {x : β} (h : find? m i = some x) : (i, x) ∈ m := by
  induction m with
  | nil => cases h
  | cons e m ih =>
    obtain ⟨k, v⟩ := e
    rw [find?] at h
    split at h
    next hk =>
      cases h
      rw [hk]
      exact List.mem_cons_self ..
    next => exact List.mem_cons_of_mem _ (ih h)

end Sys2Proof.Map

namespace Sys2Proof.Machine

open Sys2Proof

namespace State

/-! ### Checkpoints (R386) -/

theorem exists_unit_of_wrote {s : State} {v h : Nat} (hw : h ∈ (s.unitAt v).wrote) : ∃ e ∈ s.units, h ∈ e.2.wrote := by
  rw [unitAt, Map.get] at hw
  cases hx : Map.find? s.units v with
  | none =>
    rw [hx] at hw
    cases hw
  | some x =>
    rw [hx] at hw
    exact ⟨(v, x), Map.mem_of_find? hx, hw⟩

/-- A line of HBM is dirty by its stored metadata or by the device's own writes. -/
theorem mem_dirtyLines {s : State} {g : Nat} (hg : g < 2 ^ 35) (h : (∃ m, (g, m) ∈ s.gmeta ∧ metaD m = true) ∨
    ∃ v h, h ∈ (s.unitAt v).wrote ∧ g = s.current (32 * h) / 32) : g / 2 ∈ s.dirtyLines := by
  rw [dirtyLines, List.mem_eraseDups, List.mem_filterMap]
  refine ⟨g, ?_, if_pos hg⟩
  rw [List.mem_append]
  rcases h with ⟨m, hm, hd⟩ | ⟨v, h, hw, rfl⟩
  · exact .inl (List.mem_map.2 ⟨(g, m), List.mem_filter.2 ⟨hm, hd⟩, rfl⟩)
  · obtain ⟨e, he, hwe⟩ := exists_unit_of_wrote hw
    exact .inr (List.mem_flatMap.2 ⟨e, he, List.mem_map.2 ⟨h, hwe, rfl⟩⟩)

/-- Both granules of every dirty line are under way. -/
theorem mem_checkpointGo_ckpt {s : State} {g : Nat} (h : g / 2 ∈ s.dirtyLines) : g ∈ s.checkpointGo.ckpt := by
  refine List.mem_flatMap.2 ⟨g / 2, h, ?_⟩
  simp only [List.mem_cons, List.not_mem_nil, or_false]
  omega

/-- Every dirty line goes to both buddies. -/
theorem mem_checkpointGo_outbox {s : State} {g buddy : Nat} (h : g / 2 ∈ s.dirtyLines)
    (hb : buddy ∈ [fld (s.sysReg 0x070 0) 32 12, fld (s.sysReg 0x070 0) 44 12]) :
    Out.checkpoint buddy (64 * (g / 2)) (lineBytes (s.look (64 * (g / 2)) 64)) ∈ s.checkpointGo.outbox := by
  refine List.mem_append_right _ (List.mem_flatMap.2 ⟨g / 2, h, ?_⟩)
  simp only [List.mem_cons, List.not_mem_nil, or_false] at hb ⊢
  exact hb.imp (fun hb => by rw [hb]) fun hb => by rw [hb]

theorem sysReg_setSys_same (s : State) (block off : Nat) (v : Word) : (s.setSys block off v).sysReg block off = v := by
  rw [sysReg_setSys, if_pos rfl]

theorem checkpointGo_busy (s : State) : bitOf (s.checkpointGo.sysReg 0x070 0) 1 = true := by
  have hreg : s.checkpointGo.sysReg 0x070 0 = setFld (s.sysReg 0x070 0) 1 1 1 := sysReg_setSys_same ..
  rw [hreg, bitOf_eq, setFld_getLsbD _ _ _ _ (by decide)]
  rfl

/-- D is cleared at each of some granules, nothing else of any. -/
def clearDirty (s : State) (gs : List Nat) : State := gs.foldl (fun (t : State) (g : Nat) =>
  t.putMeta g (mkMeta false (metaW (t.metaAt g)) (metaF (t.metaAt g)) (metaTag (t.metaAt g)))) s

theorem metaAt_clearDirty (s : State) (gs : List Nat) (g : Nat) : (s.clearDirty gs).metaAt g =
    if g ∈ gs then mkMeta false (metaW (s.metaAt g)) (metaF (s.metaAt g)) (metaTag (s.metaAt g)) else s.metaAt g := by
  induction gs generalizing s with
  | nil => simp [clearDirty]
  | cons k gs ih =>
    rw [clearDirty, List.foldl_cons]
    change (State.clearDirty _ gs).metaAt g = _
    rw [ih, metaAt_putMeta]
    by_cases hg : g = k
    · subst hg
      simp
    · simp [hg]

theorem clearDirty_rest (s : State) (gs : List Nat) : s.clearDirty gs = { s with gmeta := (s.clearDirty gs).gmeta } := by
  induction gs generalizing s with
  | nil => rfl
  | cons k gs ih =>
    rw [clearDirty, List.foldl_cons]
    change State.clearDirty _ gs = { s with gmeta := (State.clearDirty _ gs).gmeta }
    rw [ih]
    rfl

section
variable (s : State) (gs : List Nat)

theorem byte_clearDirty (y : Nat) : (s.clearDirty gs).byte y = s.byte y := byte_of_mem_eq (by rw [clearDirty_rest]) y

theorem clearDirty_cores : (s.clearDirty gs).cores = s.cores := by rw [clearDirty_rest]

theorem clearDirty_units : (s.clearDirty gs).units = s.units := by rw [clearDirty_rest]

end

theorem checkpointComplete_of_waiting {s : State} (h : s.bothAcked = false) : s.checkpointComplete = s := by
  rw [checkpointComplete, h]
  rfl

theorem checkpointComplete_of_acked {s : State} (h : s.bothAcked = true) : s.checkpointComplete =
    State.setSys { s.clearDirty s.ckpt with
      units := (s.clearDirty s.ckpt).units.map fun (e : Nat × BeadUnit) =>
        (e.1, { e.2 with wrote := e.2.wrote.filter fun g => !e.2.sent.contains g, sent := [] })
      ckpt := [], ckptAcks := [] } 0x070 0 (setFld (s.sysReg 0x070 0) 1 1 0) := by
  rw [checkpointComplete, h]
  rfl

theorem checkpointComplete_idle {s : State} (h : s.bothAcked = true) :
    bitOf (s.checkpointComplete.sysReg 0x070 0) 1 = false := by
  rw [checkpointComplete_of_acked h, sysReg_setSys_same, bitOf_eq, setFld_getLsbD _ _ _ _ (by decide)]
  rfl

/-! ### Dead links (R385) -/

/-- Dies are told of a dead link: each finds an event. -/
def tellDies (s : State) (ds : List Nat) : State := ds.foldl (fun (t : State) (d : Nat) => t.postFree d 4 none 0) s

theorem tellDies_rest (s : State) (ds : List Nat) :
    s.tellDies ds = { s with dies := (s.tellDies ds).dies, free := (s.tellDies ds).free } := by
  induction ds generalizing s with
  | nil => rfl
  | cons d ds ih =>
    rw [tellDies, List.foldl_cons]
    change State.tellDies _ ds = { s with dies := (State.tellDies _ ds).dies, free := (State.tellDies _ ds).free }
    rw [ih]
    rfl

theorem dieAt_postFree_other (s : State) {die d : Nat} (kind : Nat) (part : Option Nat) (rod : Nat) (h : d ≠ die) :
    (s.postFree die kind part rod).dieAt d = s.dieAt d := by
  rw [postFree, post, modDie_eq, dieAt_putDie, if_neg h]
  rfl

theorem postFree_events {s : State} {die kind : Nat} (part : Option Nat) (rod : Nat) (hk : kind < 256)
    (h : (s.dieAt die).events.length < 256) :
    ∃ w, ((s.postFree die kind part rod).dieAt die).events = (s.dieAt die).events ++ [w] ∧ fld w 56 8 = kind :=
  ⟨_, post_events kind part rod _ h, fld_eventWord_kind _ _ _ hk⟩

theorem postFree_deadPorts (s : State) (die kind : Nat) (part : Option Nat) (rod d : Nat) :
    ((s.postFree die kind part rod).dieAt d).deadPorts = (s.dieAt d).deadPorts := by
  by_cases hd : d = die
  · subst hd
    rw [postFree, post, modDie_eq, dieAt_putDie_same, Die.post]
    split
    · rfl
    · split <;> rfl
  · rw [dieAt_postFree_other _ _ _ _ hd]

theorem dieAt_tellDies_other {s : State} {ds : List Nat} {d : Nat} (h : d ∉ ds) : (s.tellDies ds).dieAt d = s.dieAt d := by
  induction ds generalizing s with
  | nil => rfl
  | cons e ds ih =>
    rw [List.mem_cons, not_or] at h
    obtain ⟨hne, hrest⟩ := h
    rw [tellDies, List.foldl_cons]
    exact (ih hrest).trans (dieAt_postFree_other s 4 none 0 hne)

theorem tellDies_events {s : State} {ds : List Nat} {d : Nat} (hds : ds.Nodup) (hd : d ∈ ds)
    (hroom : (s.dieAt d).events.length < 256) :
    ∃ w, ((s.tellDies ds).dieAt d).events = (s.dieAt d).events ++ [w] ∧ fld w 56 8 = 4 := by
  induction ds generalizing s with
  | nil => cases hd
  | cons e ds ih =>
    obtain ⟨hnot, hnodup⟩ := List.nodup_cons.1 hds
    rw [tellDies, List.foldl_cons]
    change ∃ w, ((State.tellDies _ ds).dieAt d).events = _ ∧ _
    by_cases hde : d = e
    · subst hde
      rw [dieAt_tellDies_other hnot]
      exact postFree_events none 0 (by decide) hroom
    · have hsame : (s.postFree e 4 none 0).dieAt d = s.dieAt d := dieAt_postFree_other s 4 none 0 hde
      have h := ih hnodup ((List.mem_cons.1 hd).resolve_left hde) (by rwa [hsame])
      rwa [hsame] at h

theorem tellDies_deadPorts (s : State) (ds : List Nat) (d : Nat) :
    ((s.tellDies ds).dieAt d).deadPorts = (s.dieAt d).deadPorts := by
  induction ds generalizing s with
  | nil => rfl
  | cons e ds ih =>
    rw [tellDies, List.foldl_cons]
    exact (ih _).trans (postFree_deadPorts ..)

theorem tellDeadLink_eq (s : State) : s.tellDeadLink = s.tellDies (List.range 4) := rfl

/-- Each steward finds an event of kind 4 while its queue has room. -/
theorem tellDeadLink_events (s : State) {d : Nat} (hd : d < 4) (hroom : (s.dieAt d).events.length < 256) :
    ∃ w, (s.tellDeadLink.dieAt d).events = (s.dieAt d).events ++ [w] ∧ fld w 56 8 = 4 :=
  tellDies_events List.nodup_range (List.mem_range.2 hd) hroom

theorem linkDeadDeclaration_of_dead {s : State} {die port : Nat} (h : (s.dieAt die).deadPorts.contains port = true) :
    s.linkDeadDeclaration die port = s := by
  rw [linkDeadDeclaration, if_pos h]

/-- The state in which a port is known to be dead and the other devices are told. -/
def portDied (s : State) (die port : Nat) : State :=
  (s.modDie die fun d => { d with deadPorts := port :: d.deadPorts }).emit (.linkDead die port)

theorem portDied_events (s : State) (die port d : Nat) : ((s.portDied die port).dieAt d).events = (s.dieAt d).events := by
  change ((s.modDie die fun d => { d with deadPorts := port :: d.deadPorts }).dieAt d).events = _
  rw [modDie_eq]
  by_cases hd : d = die
  · rw [hd, dieAt_putDie_same]
  · rw [dieAt_putDie, if_neg hd]

theorem portDied_deadPorts (s : State) (die port : Nat) :
    ((s.portDied die port).dieAt die).deadPorts = port :: (s.dieAt die).deadPorts := by
  change ((s.modDie die fun d => { d with deadPorts := port :: d.deadPorts }).dieAt die).deadPorts = _
  rw [modDie_eq, dieAt_putDie_same]

theorem linkDeadDeclaration_of_live {s : State} {die port : Nat} (h : (s.dieAt die).deadPorts.contains port = false) :
    s.linkDeadDeclaration die port = (s.portDied die port).tellDeadLink.arm [.drainRoundExpiry die port 1] := by
  rw [linkDeadDeclaration, if_neg (by rw [h]; decide)]
  rfl

theorem tellDeadLink_rest (s : State) :
    s.tellDeadLink = { s with dies := s.tellDeadLink.dies, free := s.tellDeadLink.free } := by
  rw [tellDeadLink_eq]
  exact tellDies_rest s _

theorem portDied_told_rest (s : State) (die port : Nat) : (s.portDied die port).tellDeadLink = { s with
    dies := (s.portDied die port).tellDeadLink.dies
    free := (s.portDied die port).tellDeadLink.free
    outbox := s.outbox ++ [.linkDead die port] } :=
  tellDeadLink_rest (s.portDied die port)

/-- The drain of a dead link begins. -/
theorem arm_after_told {s t : State} {o : Out} (e : Ev)
    (h : t = { s with dies := t.dies, free := t.free, outbox := s.outbox ++ [o] }) :
    (t.arm [e]).timers = s.timers ++ [e] ∧ (t.arm [e]).outbox = s.outbox ++ [o] ∧ (t.arm [e]).cores = s.cores ∧
      SameMemory s (t.arm [e]) := by
  rw [h]
  exact ⟨rfl, rfl, rfl, .refl s⟩

/-- What a declared dead link leaves: the port is dead, the other devices and every steward are told, the drain begins. -/
theorem deadLink_told (s : State) (die port : Nat) (e : Ev) {t : State} (ht : (s.portDied die port).tellDeadLink = t) :
    ((t.arm [e]).dieAt die).deadPorts = port :: (s.dieAt die).deadPorts ∧ (t.arm [e]).timers = s.timers ++ [e] ∧
      (t.arm [e]).outbox = s.outbox ++ [.linkDead die port] ∧ (t.arm [e]).cores = s.cores ∧ SameMemory s (t.arm [e]) ∧
      ∀ d, d < 4 → (s.dieAt d).events.length < 256 →
        ∃ w, ((t.arm [e]).dieAt d).events = (s.dieAt d).events ++ [w] ∧ fld w 56 8 = 4 := by
  have hrest := s.portDied_told_rest die port
  have hports := (tellDies_deadPorts (s.portDied die port) (List.range 4) die).trans (s.portDied_deadPorts die port)
  have hevents : ∀ d, d < 4 → (s.dieAt d).events.length < 256 →
      ∃ w, ((s.portDied die port).tellDeadLink.dieAt d).events = (s.dieAt d).events ++ [w] ∧ fld w 56 8 = 4 := by
    intro d hd hroom
    rw [← s.portDied_events die port d] at hroom ⊢
    exact tellDeadLink_events _ hd hroom
  rw [← tellDeadLink_eq] at hports
  rw [ht] at hrest hports hevents
  obtain ⟨htimers, houtbox, hcores, hmem⟩ := arm_after_told e hrest
  exact ⟨hports, htimers, houtbox, hcores, hmem, hevents⟩

/-- The input that tells of another device's dead link comes when nothing else is under way. -/
theorem choose_linkUpdate {s : State} {dev die port : Nat} {r : List Input} (h : s.watchdogDue = none) (hp : s.pend = [])
    (hs : s.sched = .linkUpdate dev die port :: r) : s.choose = .done (State.tellDeadLink { s with sched := r }) := by
  simp only [choose, h, order, hp, hs]
  rfl

theorem drainRoundExpiry_eq (s : State) (die port round : Nat) : s.drainRoundExpiry die port round = { s with
    timers := s.timers ++ (if round < 3 then [.drainRoundExpiry die port (round + 1)] else []) } := by
  unfold drainRoundExpiry
  split
  · rfl
  · rw [List.append_nil]

/-! ### System registers (R170) -/

theorem sysKey_inj {b o block off : Nat} (ho : o < 2 ^ 40) (hoff : off < 2 ^ 40) (h : sysKey b o = sysKey block off) :
    (b, o) = (block, off) := by
  unfold sysKey at h
  exact Prod.ext (by omega) (by omega)

section
variable {s : State} {block off : Nat} {v : Word}

theorem setSys_only (hoff : off < 2 ^ 40) : s.setSys block off v = { s with sys := (s.setSys block off v).sys } ∧
    (s.setSys block off v).sysReg block off = v ∧
    ∀ b o, o < 2 ^ 40 → (b, o) ≠ (block, off) → (s.setSys block off v).sysReg b o = s.sysReg b o :=
  ⟨rfl, sysReg_setSys_same .., fun _ _ ho hne => by rw [sysReg_setSys, if_neg fun hkey => hne (sysKey_inj ho hoff hkey)]⟩

theorem systemRegisterWrite_region (hlo : 0x010 ≤ block) (hhi : block < 0x040) :
    s.systemRegisterWrite block off v = s.setSys block off (clearFlds v [(56, 5), (16, 32), (7, 1)]) := by
  rw [systemRegisterWrite, if_neg (by omega), if_neg (by omega), if_pos ⟨hlo, hhi⟩]

theorem systemRegisterWrite_secureRange (hlo : 0x040 ≤ block) (hhi : block < 0x044) : s.systemRegisterWrite block off v =
    s.setSys block off (clearFlds v (if off % 16 = 0 then [(40, 23), (0, 12)] else [(40, 24), (0, 12)])) := by
  rw [systemRegisterWrite, if_neg (by omega), if_neg (by omega), if_neg (by omega), if_pos ⟨hlo, hhi⟩]

theorem systemRegisterWrite_parkList (hlo : 0x07C ≤ block) (hhi : block < 0x080) :
    s.systemRegisterWrite block off v = s.setSys block off (clearFlds v [(40, 24), (1, 6)]) := by
  rw [systemRegisterWrite, if_neg (by omega), if_neg (by omega), if_neg (by omega), if_neg (by omega), if_neg (by omega),
    if_neg (by omega), if_neg (by omega), if_neg (by omega), if_neg (by omega), if_pos ⟨hlo, hhi⟩]

end

/-- What CKCTL holds after a write that starts a checkpoint: BUSY as it was, the rest as written. -/
def ckctlGo (w v : Word) : Word := setFld (clearFlds v [(56, 8), (2, 30)]) 1 1 (fld w 1 1)

theorem fld_ckctlGo_buddies (w v : Word) : fld (ckctlGo w v) 32 24 = fld v 32 24 := by
  rw [ckctlGo, fld_setFld_of_apart _ _ (by omega) (by omega)]
  simp only [clearFlds, List.foldl_cons, List.foldl_nil]
  rw [fld_setFld_of_apart _ _ (by omega) (by omega), fld_setFld_of_apart _ _ (by omega) (by omega)]

theorem writeCkctl_of_go {s : State} {v : Word} (hgo : bitOf v 0 = true) (hidle : bitOf (s.sysReg 0x070 0) 1 = false) :
    s.writeCkctl v = (s.setSys 0x070 0 (ckctlGo (s.sysReg 0x070 0) v)).push [.checkpointGo] := by
  simp only [writeCkctl, ckctlGo, hgo, hidle, Bool.not_false, Bool.and_self, if_true, Bool.false_eq_true, if_false]

theorem systemRegisterWrite_ckctl (s : State) (off : Nat) (v : Word) :
    s.systemRegisterWrite 0x070 off v = s.writeCkctl v := by
  rw [systemRegisterWrite, if_neg (by omega), if_neg (by omega), if_neg (by omega), if_neg (by omega), if_neg (by omega),
    if_pos rfl]

/-- The write comes before the checkpoint that it starts, and names both buddies. -/
theorem setSys_push_ckctl (s : State) (x : Word) (es : List Ev) :
    ((s.setSys 0x070 0 x).push es).pend = s.pend ++ es ∧ ((s.setSys 0x070 0 x).push es).sysReg 0x070 0 = x :=
  ⟨rfl, by rw [sysReg_push, sysReg_setSys_same]⟩

end State
end Sys2Proof.Machine
end

