-- ==== Sys2Proof/Proofs/DeviceSteps.lean ====
section
/-! The device's own steps (O54): accesses of other devices, the home indirection, checkpoints, dead links, system registers. -/

namespace Sys2Proof.Machine

open Sys2Proof

/-! ### The device steps at hand -/

section Exec

variable {s : State}

theorem exec_forwardedAccess {q : PeerReq} (hm : s.msg = some (.forwardedAccess q)) :
    exec .forwardedAccess s = .next (s.forwardedAccess q) := by
  change execForwardedAccess s = _
  rw [execForwardedAccess, hm]

theorem exec_ingressImportAccess {q : PeerReq} (hm : s.msg = some (.ingressImportAccess q)) :
    exec .ingressImportAccess s = .next (s.ingressImportAccess q) := by
  change execIngressImportAccess s = _
  rw [execIngressImportAccess, hm]

theorem exec_indirectionEntryWrite {n w : Nat} {v : Word} (hm : s.msg = some (.indirectionEntryWrite n w v)) :
    exec .indirectionEntryWrite s = .next (s.indirectionEntryWrite n w v) := by
  change execIndirectionEntryWrite s = _
  rw [execIndirectionEntryWrite, hm]

theorem exec_pageMoveComplete {n : Nat} (hm : s.msg = some (.pageMoveComplete n)) :
    exec .pageMoveComplete s = .next (s.pageMoveComplete n) := by
  change execPageMoveComplete s = _
  rw [execPageMoveComplete, hm]

theorem exec_checkpointGo (hm : s.msg = some .checkpointGo) : exec .checkpointGo s = .next s.checkpointGo := by
  change execCheckpointGo s = _
  rw [execCheckpointGo, hm]

theorem exec_checkpointComplete (hm : s.msg = some .checkpointComplete) :
    exec .checkpointComplete s = .next s.checkpointComplete := by
  change execCheckpointComplete s = _
  rw [execCheckpointComplete, hm]

theorem exec_systemRegisterWrite {block off : Nat} {v : Word} (hm : s.msg = some (.systemRegisterWrite block off v)) :
    exec .systemRegisterWrite s = .next (s.systemRegisterWrite block off v) := by
  change execSystemRegisterWrite s = _
  rw [execSystemRegisterWrite, hm]

theorem exec_linkDeadDeclaration {die port : Nat} (hm : s.msg = some (.linkDeadDeclaration die port)) :
    exec .linkDeadDeclaration s = .next (s.linkDeadDeclaration die port) := by
  change execLinkDeadDeclaration s = _
  rw [execLinkDeadDeclaration, hm]

theorem exec_drainRoundExpiry {die port round : Nat} (hm : s.msg = some (.drainRoundExpiry die port round)) :
    exec .drainRoundExpiry s = .next (s.drainRoundExpiry die port round) := by
  change execDrainRoundExpiry s = _
  rw [execDrainRoundExpiry, hm]

end Exec

/-- A step that leaves a known state. -/
theorem performs_of_eq {s t u : State} {e : Ev} {P : State → Prop} (h : s.msg = some e → exec e.instr s = .next t) (ht : t = u)
    (hP : P u) : Performs s e P := performs_of_exec (ht ▸ h) hP

namespace State

theorem bytes_emit (s : State) (o : Out) (loc n : Nat) : (s.emit o).bytes loc n = s.bytes loc n :=
  bytes_of_mem_eq (t := s.emit o) (s := s) rfl ..

theorem bytesIn_emit (s : State) (o : Out) (rs : List (Nat × Nat)) : (s.emit o).bytesIn rs = s.bytesIn rs :=
  bytesIn_of_mem_eq (t := s.emit o) (s := s) rfl rs

/-! ### The tests of an access of another device (R156, R159) -/

section
variable {s : State} {q : PeerReq}

theorem ingressAdmits_iff {w0 : Word} : ingressAdmits w0 q = true ↔ PeerOp.moves q.op = false ∧ bitOf w0 63 = true ∧
    fld w0 24 12 = q.key ∧ (fld w0 36 12 = 0xFFF ∨ fld w0 36 12 = q.dev) ∧ q.off + q.n ≤ fld w0 0 24 * 65536 ∧
    (PeerOp.writes q.op = true → bitOf w0 61 = true) ∧ (bitOf w0 62 = true → q.secure = true) := by
  simp only [ingressAdmits, Bool.and_eq_true, Bool.or_eq_true, Bool.not_eq_true', beq_iff_eq, decide_eq_true_eq, and_assoc,
    ← Bool.not_eq_true, ← imp_iff_not_or]

theorem ingressImportAccess_refused (h : ingressAdmits (s.sysReg 0x048 (16 * (q.ent % 256))) q = false) :
    s.ingressImportAccess q = s.emit (.reply q.dev .refused) := by
  rw [ingressImportAccess, h]
  rfl

variable (h : ingressAdmits (s.sysReg 0x048 (16 * (q.ent % 256))) q = true) {pa : Nat}
  (hpa : pa = fld (s.sysReg 0x048 (16 * (q.ent % 256) + 8)) 16 24 * 65536 + q.off)

include h hpa

theorem ingressImportAccess_world (hsec : q.secure = false) (hin : s.secureIn pa q.n = true) :
    s.ingressImportAccess q = s.emit (.reply q.dev .world) := by
  rw [ingressImportAccess, h]
  simp only [← hpa, hsec, hin]
  rfl

variable (hsec : q.secure = true ∨ s.secureIn pa q.n = false)

include hsec

/-- What an access that the import table and the secure ranges let pass comes to. -/
theorem ingressImportAccess_passed : s.ingressImportAccess q =
    if 2 ^ 40 < pa + q.n then s.emit (.reply q.dev .refused)
    else if s.lostIn pa q.n then s.emit (.reply q.dev .dead)
    else s.peerAnswer q (unitRuns s.current pa q.n) := by
  have hpass : (!q.secure && s.secureIn pa q.n) = false := by
    rcases hsec with hq | hq <;> simp [hq]
  rw [ingressImportAccess, h]
  simp only [← hpa, hpass]
  rfl

end

theorem forwardedAccess_beyond {s : State} {q : PeerReq} (h : 2 ^ 40 < q.off + q.n) :
    s.forwardedAccess q = s.emit (.reply q.dev .refused) := by
  rw [forwardedAccess, if_pos h]

theorem forwardedAccess_within {s : State} {q : PeerReq} (h : q.off + q.n ≤ 2 ^ 40) :
    s.forwardedAccess q = s.peerAnswer q (unitRuns id q.off q.n) := by
  rw [forwardedAccess, if_neg (by omega)]

end State

open State

/-! ### The obligation -/

/-- Settles O54: each step by the equation of its case; a reply of a memory by what the operation leaves there. -/
theorem deviceSteps : Obligations.DeviceSteps := by
  unfold Obligations.DeviceSteps
  intro s Replies Serves Only
  have counted : ∀ (q : PeerReq) (rs : List (Nat × Nat)) (r : PeerReply),
      Replies ((s.countPieces rs).emit (.reply q.dev r)) q r ∧ SameMemory s ((s.countPieces rs).emit (.reply q.dev r)) ∧
        ((s.countPieces rs).emit (.reply q.dev r)).cores = s.cores := by
    intro q rs r
    rw [countPieces_rest]
    exact ⟨rfl, .refl s, rfl⟩
  have serves : ∀ (e : Ev) (q : PeerReq) (rs : List (Nat × Nat)), (rs.map Prod.snd).sum = q.n →
      (s.msg = some e → exec e.instr s = .next (s.peerAnswer q rs)) → Serves e q rs := by
    intro e q rs hsum hexec
    refine ⟨?miss, ?lineIn, ?lineOut, fun hmiss => ⟨?read, ?bad, ?atomic, ?write⟩⟩
    case miss =>
      intro hc g t hm
      obtain ⟨hreply, hmem, _⟩ := counted q rs (.tag t)
      exact performs_of_eq hexec (peerAnswer_of_miss hc hm) ⟨hreply, hmem⟩
    case lineIn =>
      intro bs ms hop hlen
      have hanswer := peerAnswer_of_do (by rw [hop]; nofun) (peerDo_lineIn (s := s) (q := q) (rs := rs) hop)
      refine performs_of_eq hexec hanswer ⟨?_, (bytes_emit ..).trans (bytes_lineIn s ms (by omega)),
        fun y hy => byte_lineIn_of_not_stores ms hy, ?_, fun _ j m hm => metaAt_lineIn hm⟩
      · rw [lineIn_rest]
        rfl
      · rw [lineIn_rest]
        rfl
    case lineOut =>
      intro hop hbad
      refine performs_of_eq hexec (peerAnswer_of_do (by rw [hop]; nofun) (peerDo_lineOut hop hbad)) ⟨.refl s, ?_⟩
      simp [Replies, lineOut, emit]
    case read =>
      intro hop hbad
      obtain ⟨hreply, hmem, hcores⟩ := counted q rs (.data (s.lookRuns rs))
      exact performs_of_eq hexec (peerAnswer_of_do (fun _ => hmiss) (peerDo_read hop hbad)) ⟨hreply, hmem, hcores⟩
    case bad =>
      intro hop hbad
      obtain ⟨hreply, hmem, _⟩ := counted q rs .bad
      exact performs_of_eq hexec (peerAnswer_of_do (fun _ => hmiss) (peerDo_read_bad hop hbad)) ⟨hreply, hmem⟩
    case atomic =>
      intro fn signed b x hop hbad
      obtain ⟨hcores, houtbox, hrest, hown⟩ := atomic_holds (s := s) (q := q) (rs := rs) hsum rfl
      exact performs_of_eq hexec (peerAnswer_of_do (fun _ => hmiss) (peerDo_atomic hop hbad)) ⟨congrArg (· ++ _) houtbox,
        hcores, hrest, fun hapart hlook => (bytesIn_emit ..).trans (hown hapart hlook)⟩
    case write =>
      intro bs hop hlen
      refine performs_of_eq hexec (peerAnswer_of_do (fun _ => hmiss) (peerDo_write hop))
        ⟨?_, holds_of_mem_eq (fillPieces_holds s rs bs (hsum.trans hlen.symm)) rfl, fillPieces_cores ..⟩
      rw [fillPieces_rest]
      rfl
  refine ⟨unitRuns_bytes, fun q => ?access, fun pa n hn => ⟨s.secureIn_iff pa hn, s.lostIn_iff pa hn⟩, fun n v => ?entry,
    fun n => ?move, ?go, fun hwait => ?wait, fun hacked => ?done, fun die port => ?link,
    fun dev die port r hdue hp hs => ?update, fun block off v hoff => ?register⟩
  case access =>
    intro w0 pa admitted gone
    refine ⟨fun hno => ?_, fun hyes hsec hin => ?_, fun hyes hsec => ?_, fun hbeyond => ?_, fun hwithin => ?_⟩
    · exact performs_of_eq exec_ingressImportAccess
        (ingressImportAccess_refused (Bool.eq_false_iff.2 fun h => hno (ingressAdmits_iff.1 h))) rfl
    · exact performs_of_eq exec_ingressImportAccess
        (ingressImportAccess_world (ingressAdmits_iff.2 hyes) rfl hsec hin) rfl
    · have hpassed := ingressImportAccess_passed (ingressAdmits_iff.2 hyes) rfl hsec
      refine ⟨fun hbeyond => ?_, fun hwithin hgone => ?_, fun hwithin hgone => ?_⟩
      · rw [if_pos hbeyond] at hpassed
        exact performs_of_eq exec_ingressImportAccess hpassed rfl
      · rw [if_neg (by omega), if_pos hgone] at hpassed
        exact performs_of_eq exec_ingressImportAccess hpassed rfl
      · rw [if_neg (by omega), if_neg (Bool.eq_false_iff.1 hgone)] at hpassed
        exact serves _ q _ (unitRuns_sum ..) fun hm => (exec_ingressImportAccess hm).trans (congrArg _ hpassed)
    · exact performs_of_eq exec_forwardedAccess (forwardedAccess_beyond hbeyond) rfl
    · exact serves _ q _ (unitRuns_sum ..) fun hm =>
        (exec_forwardedAccess hm).trans (congrArg _ (forwardedAccess_within hwithin))
  case entry =>
    refine ⟨fun hmoving w => ?_, fun hstill => ⟨fun hcp => ?_, fun hcp => ?_, ?_⟩⟩
    · exact performs_of_eq exec_indirectionEntryWrite (s.indirectionEntryWrite_of_moving n v hmoving) rfl
    · have hwrite := s.indirectionEntryWrite_zero n v hstill
      rw [if_neg (by rw [hcp]; decide)] at hwrite
      exact performs_of_eq exec_indirectionEntryWrite hwrite ⟨rfl, s.indir_putIndir n _⟩
    · have hwrite := s.indirectionEntryWrite_zero n v hstill
      rw [if_pos hcp] at hwrite
      exact performs_of_eq exec_indirectionEntryWrite hwrite ⟨s.indir_putIndir n _, rfl, rfl, .refl s, rfl⟩
    · exact performs_of_eq exec_indirectionEntryWrite (s.indirectionEntryWrite_one n v hstill) ⟨rfl,
        s.unitAt_map (f := fun x => { x with hits := Map.del x.hits n }) rfl rfl,
        s.accesses_of_cleared n v (Map.get_put_same ..) rfl, sysReg_putIndir ..⟩
  case move =>
    intro w1 src dst
    refine ⟨fun hstill => performs_of_eq exec_pageMoveComplete (s.pageMoveComplete_of_still n hstill) rfl, fun hmoving => ?_⟩
    obtain ⟨moves, hmove⟩ := s.pageMoveComplete_of_moving n hmoving
    obtain ⟨hbytes, hothers, hmetas⟩ := s.pageMoved_page src dst
    have hcores := s.pageMoved_cores src dst
    obtain ⟨hmem, hgmeta, hkept⟩ := State.writeEntry_memory (s.pageMoved src dst) moves n
      (movedEntry s.devId n (s.sysReg (unitBlock n) (unitOff n + 8)))
    refine performs_of_eq exec_pageMoveComplete hmove ⟨(bytes_of_mem_eq hmem ..).trans hbytes,
      fun y hy => (byte_of_mem_eq hmem y).trans (hothers y hy),
      fun g hg => (metaAt_of_gmeta_eq hgmeta _).trans (hmetas g hg), ?_, ?_, ?_, ?_, hkept.trans hcores⟩
    · rw [indir_putIndir, fld_movedEntry_dev]
    · rw [indir_putIndir, fld_movedEntry_ppn]
    · rw [indir_putIndir, bitOf_movedEntry_cp]
    · rw [indir_putIndir, bitOf_movedEntry_mv]
  case go =>
    refine performs_of_exec exec_checkpointGo ⟨.refl s, rfl, s.checkpointGo_busy, rfl, fun g hg hdirty => ?_⟩
    have hline : g / 2 ∈ s.dirtyLines := mem_dirtyLines hg (hdirty.imp_right fun ⟨v, h, hw, _, hat⟩ => ⟨v, h, hw, hat⟩)
    exact ⟨mem_checkpointGo_ckpt hline, fun buddy hb => mem_checkpointGo_outbox hline hb⟩
  case wait => exact performs_of_eq exec_checkpointComplete (checkpointComplete_of_waiting hwait) rfl
  case done =>
    have hidle := checkpointComplete_idle hacked
    rw [checkpointComplete_of_acked hacked] at hidle
    refine performs_of_eq exec_checkpointComplete (checkpointComplete_of_acked hacked)
      ⟨s.byte_clearDirty s.ckpt, s.clearDirty_cores s.ckpt, rfl, hidle, fun g hg => ?_, fun v => ?_, fun g hg => ?_⟩
    · exact (s.metaAt_clearDirty s.ckpt g).trans (if_neg hg)
    · rw [unitAt_map s (f := fun x => { x with wrote := x.wrote.filter fun g => !x.sent.contains g, sent := [] }) rfl
        (congrArg (List.map _) (s.clearDirty_units s.ckpt))]
    · exact (s.metaAt_clearDirty s.ckpt g).trans (if_pos hg)
  case link =>
    refine ⟨fun hdead => ?_, fun hlive => ?_, fun round => ?_⟩
    · exact performs_of_eq exec_linkDeadDeclaration (linkDeadDeclaration_of_dead hdead) rfl
    · exact performs_of_eq exec_linkDeadDeclaration (linkDeadDeclaration_of_live hlive) (s.deadLink_told die port _ rfl)
    · exact performs_of_eq exec_drainRoundExpiry (s.drainRoundExpiry_eq die port round) rfl
  case update =>
    have hchoose := choose_linkUpdate (s := s.pass) hdue hp hs
    have hstep : step s = .next (State.tellDeadLink { s.pass with sched := r }) := by
      rw [step, hchoose]
    exact ⟨_, hstep, tellDeadLink_rest _, fun d hd hroom => tellDeadLink_events { s.pass with sched := r } hd hroom⟩
  case register =>
    intro Holds
    have holds : ∀ {res : List (Nat × Nat)},
        s.systemRegisterWrite block off v = s.setSys block off (clearFlds v res) → Holds res := fun hwrite =>
      performs_of_eq exec_systemRegisterWrite hwrite (setSys_only hoff)
    refine ⟨fun hb => ?_, fun hb => ?_, fun hlo hhi => holds (systemRegisterWrite_region hlo hhi), fun hlo hhi hw0 => ?_,
      fun hlo hhi hw1 => ?_, fun hb => ?_, fun hlo hhi => holds (systemRegisterWrite_parkList hlo hhi), fun hb => ?_,
      fun hb ho hgo hidle => ?_⟩
    · subst hb
      exact holds rfl
    · subst hb
      exact holds rfl
    · have hwrite := systemRegisterWrite_secureRange (s := s) (off := off) (v := v) hlo hhi
      rw [if_pos hw0] at hwrite
      exact holds hwrite
    · have hwrite := systemRegisterWrite_secureRange (s := s) (off := off) (v := v) hlo hhi
      rw [if_neg hw1] at hwrite
      exact holds hwrite
    · subst hb
      exact holds rfl
    · subst hb
      exact performs_of_eq exec_systemRegisterWrite rfl rfl
    · subst hb ho
      obtain ⟨hpend, hreg⟩ := s.setSys_push_ckctl (ckctlGo (s.sysReg 0x070 0) v) [.checkpointGo]
      refine performs_of_eq exec_systemRegisterWrite ((s.systemRegisterWrite_ckctl 0 v).trans (writeCkctl_of_go hgo hidle))
        ⟨hpend, ?_⟩
      rw [hreg, fld_ckctlGo_buddies]

end Sys2Proof.Machine
end

