-- ==== Sys2Proof/Proofs/CacheRanges.lean ====
section
/-! DCWB, DCINV and PREF: the pieces of a range, and what their translation leaves in the TLB of the executing core (R153, R154,
R193 to R195). -/

namespace Sys2Proof.Machine

open Sys2Proof

/-! ### Addresses within a space (R117, R149) -/

/-- A step that stays within the 52 address bits moves the address and keeps the space. -/
theorem padd_within {p : Word} {o : Int} (h0 : 0 ≤ (fld p 0 52 : Int) + o) (h1 : (fld p 0 52 : Int) + o < 2 ^ 52) :
    spaceOf (padd p o) = spaceOf p ∧ (fld (padd p o) 0 52 : Int) = fld p 0 52 + o := by
  have hp := p.isLt
  simp only [spaceOf, padd, fld, BitVec.toNat_ofNat] at *
  omega

/-! ### What a TLB finds (R153) -/

theorem tlbFind_isSome {tlb : List TlbEntry} {world : Bool} {a : Nat} :
    (tlbFind tlb world a).isSome = true ↔ ∃ e ∈ tlb, e.world = world ∧ e.covers a = true := by
  have hentry (e : TlbEntry) : (e.world == world &&
      (if e.big then e.base == a / 2 ^ 21 * 2 ^ 21 else e.base == a / 2 ^ 16 * 2 ^ 16)) = true ↔
        e.world = world ∧ e.covers a = true := by
    unfold TlbEntry.covers
    cases e.big <;> simp
  unfold tlbFind
  rw [← exists_congr fun e => and_congr_right fun _ => hentry e, ← List.find?_isSome]
  split
  next h => rw [h]; simp only [Option.isSome_some]
  next h => rw [h]; simp only [Option.isSome_none]

theorem TlbEntry.covers_of_piece {e : TlbEntry} {a b : Nat} (h : e.covers a = true) (hab : a / 65536 = b / 65536) :
    e.covers b = true := by
  have hbig : a / 2 ^ 21 = b / 2 ^ 21 := by omega
  have hsmall : a / 2 ^ 16 = b / 2 ^ 16 := by omega
  rwa [covers, ← hbig, ← hsmall]

/-- A TLB with more entries, asked for an address of the same piece of 64 KiB. -/
theorem tlbFind_isSome_of_subset {tlb tlb' : List TlbEntry} {world : Bool} {a b : Nat}
    (h : (tlbFind tlb world a).isSome = true) (hsub : tlb ⊆ tlb') (hab : a / 65536 = b / 65536) :
    (tlbFind tlb' world b).isSome = true := by
  obtain ⟨e, he, hworld, hcov⟩ := tlbFind_isSome.1 h
  exact tlbFind_isSome.2 ⟨e, hsub he, hworld, TlbEntry.covers_of_piece hcov hab⟩

namespace State

/-! ### What one translation leaves -/

theorem translated_useTlb (s : State) (va : Word) : Translated s (s.useTlb va) s.cur :=
  translated_noteTlb s (s.issuer s.cur .c) va

/-- A walk reads memory where the system registers say. -/
theorem walk_congr {s t : State} (hm : t.mem = s.mem) (hs : t.sys = s.sys) (world : Bool) (a : Nat) :
    t.walk world a = s.walk world a := by
  have hword : t.homeWord = s.homeWord := by
    cases s; cases t
    dsimp only at hm hs
    subst hm hs
    rfl
  have hroot (off : Nat) : t.sysReg 0x001 off = s.sysReg 0x001 off := by unfold sysReg; rw [hs]
  simp only [walk, hroot, walkFrom_congr hword]

theorem Translated.walk {s t : State} {k : Nat} (h : Translated s t k) (world : Bool) (a : Nat) : t.walk world a = s.walk world a := by
  have hm : t.mem = s.mem := by rw [h.rest]
  have hs : t.sys = s.sys := by rw [h.rest]
  exact walk_congr hm hs world a

/-- The entry that a translation adds to the TLB of its issuer's core: that of a walk which finds one. -/
def walkEntry (s : State) (i : Issuer) (va : Word) : Option TlbEntry :=
  if s.walks i va = true ∧ i.core < 416 then
    (s.walk i.world (fld va 0 52)).map fun r =>
      { base := if r.2 then fld va 0 52 / 2 ^ 21 * 2 ^ 21 else fld va 0 52 / 2 ^ 16 * 2 ^ 16, big := r.2, world := i.world, pte := r.1 }
  else none

theorem tlb_noteTlb (s : State) (i : Issuer) (va : Word) :
    ((s.noteTlb i va).coreAt i.core).tlb = (s.walkEntry i va).toList ++ (s.coreAt i.core).tlb := by
  have hcount : (s.countWalk i.world (fld va 0 52)).coreAt i.core = s.coreAt i.core := by rw [countWalk_rest]; rfl
  unfold noteTlb walkEntry
  by_cases hw : s.walks i va = true
  · cases hfind : s.walk i.world (fld va 0 52) with
    | none => simp [hw, hfind, hcount]
    | some r =>
      by_cases hk : 416 ≤ i.core
      · simp [hw, hfind, hcount, hk, Nat.not_lt.2 hk]
      · simp [hw, hfind, hk, Nat.lt_of_not_le hk]
  · simp [hw]

theorem tlb_useTlb (s : State) (va : Word) : (s.useTlb va).me.tlb = (s.walkEntry (s.issuer s.cur .c) va).toList ++ s.me.tlb := by
  rw [me_eq, useTlb_cur]
  exact tlb_noteTlb s (s.issuer s.cur .c) va

theorem useTlb_of_no_walk {s : State} {va : Word} (h : s.walks (s.issuer s.cur .c) va = false) : s.useTlb va = s := by
  simp [useTlb, noteTlb, h]

/-! ### What the translation of several addresses leaves -/

theorem translated_useTlbs (ps : List Word) (s : State) : Translated s (ps.foldl useTlb s) s.cur := by
  induction ps generalizing s with
  | nil => exact .refl s _
  | cons p ps ih =>
    have h := ih (s.useTlb p)
    rw [useTlb_cur] at h
    exact (translated_useTlb s p).trans h

theorem tlb_subset_useTlb (s : State) (va : Word) : s.me.tlb ⊆ (s.useTlb va).me.tlb := by
  rw [tlb_useTlb]
  exact List.subset_append_right ..

theorem tlb_subset_useTlbs (ps : List Word) (s : State) : s.me.tlb ⊆ (ps.foldl useTlb s).me.tlb := by
  induction ps generalizing s with
  | nil => exact List.Subset.refl _
  | cons p ps ih => exact List.Subset.trans (tlb_subset_useTlb s p) (ih _)

theorem useTlbs_of_elsewhere {ps : List Word} {s : State} (h : ∀ p ∈ ps, spaceOf p ≠ 0) : ps.foldl useTlb s = s := by
  induction ps with
  | nil => rfl
  | cons p ps ih =>
    obtain ⟨hp, hps⟩ := List.forall_mem_cons.1 h
    rw [List.foldl_cons, useTlb_of_no_walk (by simp [walks, hp]), ih hps]

/-- The TLB finds an address that has been translated by a walk which finds an entry. -/
theorem tlbFind_useTlb {s : State} {va : Word} (hk : s.cur < 416) (hspace : spaceOf va = 0)
    (hheap : inHeap (s.issuer s.cur .c) (fld va 0 52) = false) (hw : (s.walk s.me.world (fld va 0 52)).isSome = true) :
    (tlbFind (s.useTlb va).me.tlb s.me.world (fld va 0 52)).isSome = true := by
  have hsteward : isSteward s.cur = false := by simp [isSteward]; omega
  by_cases hfind : (tlbFind s.me.tlb s.me.world (fld va 0 52)).isSome = true
  · exact tlbFind_isSome_of_subset hfind (tlb_subset_useTlb s va) rfl
  · obtain ⟨r, hr⟩ := Option.isSome_iff_exists.1 hw
    have hwalks : s.walks (s.issuer s.cur .c) va = true := by
      have hnone : tlbFind (s.coreAt (s.issuer s.cur .c).core).tlb (s.issuer s.cur .c).world (fld va 0 52) = none :=
        Option.not_isSome_iff_eq_none.1 hfind
      have hst : (s.issuer s.cur .c).steward = false := hsteward
      simp [walks, hspace, hheap, hnone, hst]
    have hr' : s.walk (s.issuer s.cur .c).world (fld va 0 52) = some r := hr
    rw [tlb_useTlb, walkEntry, if_pos ⟨hwalks, hk⟩, hr']
    exact tlbFind_isSome.2 ⟨_, List.mem_append_left _ (List.mem_singleton_self _), rfl, by simp [TlbEntry.covers]⟩

theorem tlbFind_useTlbs {ps : List Word} {s : State} {va : Word} (hva : va ∈ ps) (hk : s.cur < 416) (hspace : spaceOf va = 0)
    (hheap : inHeap (s.issuer s.cur .c) (fld va 0 52) = false) (hw : (s.walk s.me.world (fld va 0 52)).isSome = true) :
    (tlbFind (ps.foldl useTlb s).me.tlb s.me.world (fld va 0 52)).isSome = true := by
  induction ps generalizing s with
  | nil => cases hva
  | cons p ps ih =>
    have htr := translated_useTlb s p
    have hworld : (s.useTlb p).me.world = s.me.world := by rw [htr.me rfl]
    rcases List.mem_cons.1 hva with rfl | hmem
    · exact tlbFind_isSome_of_subset (tlbFind_useTlb hk hspace hheap hw) (tlb_subset_useTlbs ps _) rfl
    · rw [← hworld]
      refine ih hmem (by rwa [htr.cur]) (by rwa [htr.cur, htr.issuer_eq]) ?_
      rw [hworld, htr.walk]
      exact hw

/-! ### The pieces of a range (R154, R194) -/

/-- The address of piece `j` of a range from a pointer on: the pieces after the first begin at multiples of 64 KiB. -/
def rangePiece (va : Word) (j : Nat) : Word :=
  if j = 0 then va else padd va ((65536 * (fld va 0 52 / 65536 + j) : Nat) - (fld va 0 52 : Int))

/-- The addresses at which `n` bytes of global space are translated. -/
def rangePieces (va : Word) (n : Nat) : List Word :=
  (List.range (if n = 0 then 0 else (min (fld va 0 52 + n) (2 ^ 52) + 65535) / 65536 - fld va 0 52 / 65536)).map (rangePiece va)

theorem translatePieces_eq (s : State) (va : Word) (n : Nat) : s.translatePieces va n = (rangePieces va n).foldl useTlb s := by
  simp only [translatePieces, rangePieces, List.foldl_map, rangePiece]

theorem rangePiece_within {va : Word} {j : Nat} (h : 65536 * (fld va 0 52 / 65536 + j) < 2 ^ 52) :
    spaceOf (rangePiece va j) = spaceOf va ∧
      fld (rangePiece va j) 0 52 = max (fld va 0 52) (65536 * (fld va 0 52 / 65536 + j)) := by
  unfold rangePiece
  split
  case isTrue hj => exact ⟨rfl, by omega⟩
  case isFalse hj =>
    obtain ⟨hspace, haddr⟩ := padd_within (p := va) (o := (65536 * (fld va 0 52 / 65536 + j) : Nat) - (fld va 0 52 : Int))
      (by omega) (by omega)
    exact ⟨hspace, by omega⟩

theorem spaceOf_rangePieces {va p : Word} {n : Nat} (h : p ∈ rangePieces va n) : spaceOf p = spaceOf va := by
  obtain ⟨j, hj, rfl⟩ := List.mem_map.1 h
  have hlt := List.mem_range.1 hj
  exact (rangePiece_within (by split at hlt <;> omega)).1

/-- The piece in which a byte of the range lies is among those translated. -/
theorem exists_rangePiece {va : Word} {n y : Nat} (hlo : fld va 0 52 ≤ y) (hhi : y < fld va 0 52 + n) (hy : y < 2 ^ 52) :
    ∃ p ∈ rangePieces va n, fld p 0 52 = max (fld va 0 52) (y / 65536 * 65536) := by
  refine ⟨rangePiece va (y / 65536 - fld va 0 52 / 65536), List.mem_map.2 ⟨_, List.mem_range.2 ?_, rfl⟩, ?_⟩
  · rw [if_neg (by omega)]
    omega
  · rw [(rangePiece_within (by omega)).2]
    omega

end State

open State

/-- Settles O23: the range of DCWB and DCINV is translated piece by piece, and PREF translates nothing. -/
theorem cacheInstructions : Obligations.CacheInstructions := by
  unfold Obligations.CacheInstructions
  intro s pfx d a off va n s1
  have hs1 : s1 = (rangePieces va n).foldl useTlb s := s.translatePieces_eq va n
  have htr : Translated s s1 s.cur := hs1 ▸ translated_useTlbs _ s
  have hranged : exec (.dcwb pfx d a) s = .next s1.retire ∧ exec (.dcinv pfx d a) s = .next s1.retire := ⟨rfl, rfl⟩
  refine ⟨⟨_, rfl, s.retire_commits⟩, ?ranged, htr.rest, sameMemory_of_eq (by rw [htr.rest]) (by rw [htr.rest]), htr.others,
    htr.me rfl, hs1 ▸ tlb_subset_useTlbs _ s, fun hnone => ?nothing, fun y e hspace hk hlo hhi hy => ?found⟩
  case ranged =>
    simp only [List.forall_mem_cons, List.not_mem_nil, false_implies, implies_true, and_true]
    exact ⟨⟨_, hranged.1, s1.retire_commits⟩, _, hranged.2, s1.retire_commits⟩
  case nothing =>
    rw [hs1]
    rcases hnone with hspace | hn
    · exact useTlbs_of_elsewhere fun p hp => by rwa [spaceOf_rangePieces hp]
    · simp [rangePieces, hn]
  case found =>
    intro piece hheap hw
    obtain ⟨p, hp, haddr⟩ := exists_rangePiece hlo hhi hy
    have hpiece : fld p 0 52 = piece := haddr
    have hfound := tlbFind_useTlbs hp hk (by rw [spaceOf_rangePieces hp, hspace]) (by rwa [hpiece]) (by rw [hpiece, hw]; rfl)
    rw [← hs1] at hfound
    exact tlbFind_isSome_of_subset hfound (List.Subset.refl _) (by rw [hpiece]; simp only [piece]; omega)

end Sys2Proof.Machine
end

