-- ==== Sys2Proof/Proofs/Reads.lean ====
section
/-! What the checks and the reads of an access look at (R155, R161, R165, R166), and so what a device step finds that follows the
issue of its instruction. -/

namespace Sys2Proof.Machine

open Sys2Proof

theorem SameMemory.trans {s t u : State} (h : SameMemory s t) (g : SameMemory t u) : SameMemory s u :=
  ⟨fun a => (g.1 a).trans (h.1 a), fun m => (g.2 m).trans (h.2 m)⟩

theorem OnlyStores.trans {s t u : State} (h : OnlyStores s t) (g : OnlyStores t u) : OnlyStores s u := by
  unfold OnlyStores at *
  rw [g, h]

namespace State

/-! ### The store -/

/-- Two states hold the same bytes, metadata and errors at the same places. -/
structure SameStore (s t : State) : Prop where
  mem : t.mem = s.mem
  gmeta : t.gmeta = s.gmeta
  poison : t.poison = s.poison
  sys : t.sys = s.sys
  moves : t.moves = s.moves
  ringBase : t.ringBase = s.ringBase

theorem SameStore.trans {s t u : State} (h : s.SameStore t) (g : t.SameStore u) : s.SameStore u where
  mem := g.mem.trans h.mem
  gmeta := g.gmeta.trans h.gmeta
  poison := g.poison.trans h.poison
  sys := g.sys.trans h.sys
  moves := g.moves.trans h.moves
  ringBase := g.ringBase.trans h.ringBase

theorem SameStore.symm {s t : State} (h : s.SameStore t) : t.SameStore s where
  mem := h.mem.symm
  gmeta := h.gmeta.symm
  poison := h.poison.symm
  sys := h.sys.symm
  moves := h.moves.symm
  ringBase := h.ringBase.symm

/-- What an instruction may change as it issues leaves the store. -/
theorem sameStore_of_rest {s t : State}
    (h : t = { s with cores := t.cores, acnt := t.acnt, units := t.units, pend := t.pend, msg := t.msg }) : s.SameStore t := by
  rw [h]
  exact ⟨rfl, rfl, rfl, rfl, rfl, rfl⟩

theorem sameStore_countPieces (s : State) (ps : List (Nat × Nat)) : s.SameStore (s.countPieces ps) := by
  rw [countPieces_rest]
  exact ⟨rfl, rfl, rfl, rfl, rfl, rfl⟩

theorem Translated.sameStore {s t : State} {k : Nat} (h : Translated s t k) : s.SameStore t := by
  rw [h.rest]
  exact ⟨rfl, rfl, rfl, rfl, rfl, rfl⟩

/-- The function stays folded until `scratchOf loc` is a variable: the kernel would compute `loc - 2 ^ 40` step by step. -/
theorem scaleOf_congr {s t : State} (hloc : ∀ k off, t.scaleLoc k off = s.scaleLoc k off) (hp : t.poisoned = s.poisoned)
    (hb : t.byte = s.byte) (i : Issuer) (va : Word) (loc : Nat) : t.scaleOf i va loc = s.scaleOf i va loc := by
  obtain ⟨read, hread⟩ : ∃ f, f = State.scaleOf := ⟨_, rfl⟩
  rw [← hread]
  delta State.scaleOf at hread
  subst hread
  dsimp only
  generalize scratchOf loc = p
  rw [hloc, hp, hb]

namespace SameStore

variable {s t : State} (h : s.SameStore t)

include h

theorem sameMemory : SameMemory s t := sameMemory_of_eq h.mem h.gmeta

theorem tagMiss (loc n : Nat) (tag : Byte) : t.tagMiss loc n tag = s.tagMiss loc n tag := by
  simp only [State.tagMiss, metaAt_of_gmeta_eq h.gmeta]

theorem poisoned (loc n : Nat) : t.poisoned loc n = s.poisoned loc n := by simp only [State.poisoned, h.poison]

theorem memCheck (i : Issuer) (va : Word) (loc n : Nat) (rd : Bool) : t.memCheck i va loc n rd = s.memCheck i va loc n rd := by
  simp only [State.memCheck, h.tagMiss, h.poison]

theorem checkRuns (i : Issuer) (va : Word) (rs : List (Nat × Word × Nat)) (rd : Bool) :
    t.checkRuns i va rs rd = s.checkRuns i va rs rd := by
  simp only [State.checkRuns, h.tagMiss, h.memCheck]

theorem spanCheck (i : Issuer) (va : Word) (loc n : Nat) (rd : Bool) : t.spanCheck i va loc n rd = s.spanCheck i va loc n rd := by
  unfold State.spanCheck
  dsimp only
  rw [h.checkRuns, placeFrom_congr h.sys]

theorem spanPoisoned (loc n : Nat) : t.spanPoisoned loc n = s.spanPoisoned loc n := by
  have hp : t.poisoned = s.poisoned := funext₂ h.poisoned
  unfold State.spanPoisoned
  rw [runsFrom_congr h.sys, hp]

/-- The scale byte of a window-1 access stands where SCB of the core says (R161). -/
theorem scaleFor (hscb : ∀ k, (t.coreAt k).scb = (s.coreAt k).scb) (i : Issuer) (va : Word) (loc : Nat) :
    t.scaleFor i va loc = s.scaleFor i va loc := by
  have hloc (k off : Nat) : t.scaleLoc k off = s.scaleLoc k off := by
    unfold scaleLoc
    rw [hscb]
  have hp : t.poisoned = s.poisoned := funext₂ h.poisoned
  have hb : t.byte = s.byte := funext (byte_of_mem_eq h.mem)
  unfold State.scaleFor
  rw [scaleOf_congr hloc hp hb]

end SameStore

/-! ### The bytes that a read returns (R46) -/

theorem lookUnits_congr {s t : State} (hm : t.mem = s.mem) (hr : ∀ loc, t.reservedBytes loc = s.reservedBytes loc) (fuel loc n : Nat) :
    t.lookUnits fuel loc n = s.lookUnits fuel loc n := by
  induction fuel generalizing loc n with
  | zero => rfl
  | succ fuel ih => simp only [lookUnits, hr, bytes_of_mem_eq hm, ih]

/-- A read depends on memory, and on what stands in the reserved regions. -/
theorem look_congr {s t : State} (hm : t.mem = s.mem) (hr : ∀ loc, t.reservedBytes loc = s.reservedBytes loc) (loc n : Nat) :
    t.look loc n = s.look loc n := lookUnits_congr hm hr ..

theorem spanLook_congr {s t : State} (h : s.SameStore t) (hr : ∀ loc, t.reservedBytes loc = s.reservedBytes loc) (loc n : Nat) :
    t.spanLook loc n = s.spanLook loc n := by
  simp only [spanLook, runsFrom_congr h.sys, look_congr h.mem hr]

theorem SameStore.reservedBytes {s t : State} (h : s.SameStore t) (hu : t.units = s.units) (loc : Nat) :
    t.reservedBytes loc = s.reservedBytes loc := reservedBytes_congr hu h.sys h.ringBase loc

theorem lookUnits_length_le (s : State) (fuel loc n : Nat) : (s.lookUnits fuel loc n).length ≤ n := by
  induction fuel generalizing loc n with
  | zero => exact Nat.zero_le _
  | succ fuel ih =>
    unfold lookUnits
    split
    · exact Nat.zero_le _
    · have hrest := ih (loc + min n (16 - loc % 16)) (n - min n (16 - loc % 16))
      rw [List.length_append]
      cases s.reservedBytes loc with
      | none => simp only [bytes_length]; omega
      | some bs => simp only [List.length_take]; omega

theorem look_length_le (s : State) (loc n : Nat) : (s.look loc n).length ≤ n := lookUnits_length_le ..

theorem spanLook_length_le (s : State) (loc n : Nat) : (s.spanLook loc n).length ≤ n := by
  have hruns := runsFrom_sum s loc n
  rw [spanLook, List.length_flatMap]
  calc _ ≤ ((s.runsFrom loc n).map Prod.snd).sum := List.sum_le_sum fun r _ => look_length_le s r.1 r.2
    _ ≤ n := hruns.le

/-! ### Who issues an access -/

theorem issuer_congr {s t : State} {k : Nat} (hw : (t.coreAt k).world = (s.coreAt k).world)
    (hb : (t.coreAt k).bead = (s.coreAt k).bead) (ht : t.tiles = s.tiles) (hp : t.parts = s.parts) (hl : t.links = s.links) (p : Path) :
    t.issuer k p = s.issuer k p := by
  have htile : t.tileAt k = s.tileAt k := by unfold tileAt; rw [ht]
  have hlink : t.linkAt (k - 384) = s.linkAt (k - 384) := by unfold linkAt; rw [hl]
  have hparts : t.partAt = s.partAt := by funext n; unfold partAt; rw [hp]
  have hpart : t.partOf k = s.partOf k := by
    unfold partOf linkServes
    rw [htile, hlink, hb]
  have hkd : t.kdOf k = s.kdOf k := by
    unfold kdOf
    rw [htile, hlink, hparts]
  rw [issuer, hw, hpart, hkd]; rfl

/-- A number read is below the bound of its bytes. -/
theorem leNat_lt_of_length_le {bs : List Byte} {n : Nat} (h : bs.length ≤ n) : leNat bs < 2 ^ (8 * n) := by
  rw [pow_mul]
  exact (leNat_lt bs).trans_le (Nat.pow_le_pow_right (by decide) h)

/-! ### A core that commits -/

theorem raise_commits (s : State) (f : Flags) : Commits s (s.setMe (s.me.raise f).commit) [] f := by
  refine commitsTo_setMe s _ _ _ _ ?_ ?_
  · exact ⟨fun _ _ => rfl, fun _ _ => rfl, fun _ _ => rfl, fun _ _ => rfl, fun _ _ => rfl⟩
  · simp [CommitsAt, Core.commit, Core.raise]

/-- An access leaves SCB. -/
theorem Translated.scb {s t : State} {k : Nat} (h : Translated s t k) (j : Nat) : (t.coreAt j).scb = (s.coreAt j).scb := by
  by_cases hj : j = k
  · rw [hj, h.core]
  · rw [h.others j hj]

/-- What the commit of an instruction amounts to that has made an access, at its issue or in a device step that follows it. -/
theorem Translated.commits_at {s s1 v u : State} {ws : List (File × Nat)} {fl : Flags} (h : Translated s s1 s.cur)
    (hat : ∀ j, v.coreAt j = s1.coreAt j) (hcur : v.cur = s.cur) (hc : Commits v u ws fl) :
    RegsSame s.me u.me ws ∧ CommitsAt s1.me u.me s.me.npc fl ∧ OthersSame s u s.cur := by
  obtain ⟨⟨-, hothers, -⟩, hregs, hcore⟩ := hc
  have hme : v.me = s1.me := by rw [me_eq, me_eq, hcur, h.cur, hat]
  have hme1 := h.me rfl
  have hnpc : s1.me.npc = s.me.npc := by rw [hme1]
  rw [hme] at hregs hcore
  rw [hnpc] at hcore
  refine ⟨?_, hcore, fun j hj => ?_⟩
  · rw [hme1] at hregs
    exact ⟨hregs.scalar, hregs.vector, hregs.predicate, hregs.view, hregs.handle⟩
  · rw [hothers j (by rwa [hcur]), hat, h.others j hj]

theorem coreAt_of_cores_eq {s t : State} (h : t.cores = s.cores) (j : Nat) : t.coreAt j = s.coreAt j := by
  unfold coreAt
  rw [h]

theorem Translated.commits {s s1 v u : State} {ws : List (File × Nat)} {fl : Flags} (h : Translated s s1 s.cur)
    (hcores : v.cores = s1.cores) (hcur : v.cur = s.cur) (hc : Commits v u ws fl) :
    RegsSame s.me u.me ws ∧ CommitsAt s1.me u.me s.me.npc fl ∧ OthersSame s u s.cur :=
  h.commits_at (coreAt_of_cores_eq hcores) hcur hc

end State
end Sys2Proof.Machine
end

