-- ==== Sys2Proof/Proofs/ScalarFaults.lean ====
section
/-! Scalar accesses that do not translate or are not aligned (R174): the address that a fault of translation names, and what an
access of one element does with it. -/

namespace Sys2Proof.Machine

open Sys2Proof

namespace State

/-! ### The instructions -/

section
variable (s : State) (pfx : Pfx) (ty : Ty) (rm d a b : Nat) (off : Int)

theorem exec_ld : exec (.ld pfx ty rm d a off) s = .next (s.loadScalar ty rm d (padd (s.sr a) off)) := rfl

theorem exec_ldx : exec (.ldx pfx ty rm d a b) s = .next (s.loadScalar ty rm d (s.indexed ty a b)) := rfl

theorem exec_st : exec (.st pfx ty rm d a off) s = .next (s.storeScalar ty rm d (padd (s.sr a) off)) := rfl

theorem exec_stx : exec (.stx pfx ty rm d a b) s = .next (s.storeScalar ty rm d (s.indexed ty a b)) := rfl

end

/-! ### The address that a fault of translation names (R368)

Every branch that refuses an access builds its fault from the pointer of the access. -/

section
variable {s : State} {i : Issuer} {va : Word} {n : Nat} {wr ex : Bool} {f : FaultInfo}

@[simp] theorem faultAt_va (i : Issuer) (cause : Nat) (va : Word) : (faultAt i cause va).va = va := rfl

theorem homePlace_error_va {pa : Nat} (h : s.homePlace i va pa n = .error f) : f.va = va := by
  unfold homePlace at h
  grind [faultAt_va]

theorem globalHome_error_va (h : s.globalHome i va n wr ex = .error f) : f.va = va := by
  unfold globalHome at h
  grind [faultAt_va]

theorem transGlobal_error_va (h : s.transGlobal i va n wr ex = .error f) : f.va = va := by
  unfold transGlobal at h
  split at h
  next g hg => cases h; exact globalHome_error_va hg
  next => cases h
  next => exact homePlace_error_va h

theorem transScratch_error_va (h : s.transScratch i va n = .error f) : f.va = va := by
  unfold transScratch at h
  grind [faultAt_va]

theorem regionCheck_error_va {u o : Nat} (h : s.regionCheck i va u o wr = .error f) : f.va = va := by
  unfold regionCheck at h
  grind [faultAt_va]

theorem transCommons_error_va (h : s.transCommons i va n wr = .error f) : f.va = va := by
  unfold transCommons at h
  grind [faultAt_va, regionCheck_error_va]

theorem transSys_error_va (h : transSys i va n = .error f) : f.va = va := by
  unfold transSys at h
  grind [faultAt_va]

theorem translate_error_va (h : s.translate i va n wr ex = .error f) : f.va = va := by
  unfold translate at h
  grind [faultAt_va, transGlobal_error_va, transScratch_error_va, transCommons_error_va, transSys_error_va]

end

/-! ### Alignment and address of one element -/

section
variable {s : State} {i : Issuer} {va : Word} {n align j : Nat} {wr scaled : Bool} {f : FaultInfo}

theorem placeAligned_of_misaligned {p : Place} (h : s.translate i va n wr false = .ok p) (halign : va.toNat % align ≠ 0) :
    s.placeAligned i va n align wr = .error (faultAt i cAlign va) := by
  rw [placeAligned, h]
  exact if_pos halign

/-- An address fault comes before alignment, and an aligned access has no other fault than that of its translation. -/
theorem placeAligned_of_error (h : s.translate i va n wr false = .error f) (hfirst : f.cause = cAddress ∨ va.toNat % align = 0) :
    s.placeAligned i va n align wr = .error f := by
  rw [placeAligned, h]
  exact if_neg fun hlate => hfirst.elim hlate.1 hlate.2

theorem spotsOf_error (h : s.placeAligned i va n n wr = .error f) : s.spotsOf i n wr scaled [(j, va)] = .error f := by
  rw [spotsOf, h]

end

/-- A fault that is found without a walk has left no counts. -/
theorem noteFailed_of_no_walk (s : State) (i : Issuer) (va : Word) (n : Nat) {f : FaultInfo} (h : afterWalk f.cause = false) :
    s.noteFailed i va n f = s := by
  have hmem : atMemory f.cause = false := by
    unfold afterWalk at h
    simp only [Bool.or_eq_false_iff] at h
    exact h.1.1.1.1
  rw [noteFailed, h, hmem]
  rfl

section
variable {s : State} {n : Nat} {va : Word} {scaled wr : Bool} {f : FaultInfo}

theorem issueLoad_error {dst : LoadDst} (h : s.placeAligned (s.issuer s.cur .c) va n n false = .error f) :
    s.issueLoad dst none n scaled [(0, va)] = (s.noteFailed (s.issuer s.cur .c) f.va n f).trap f := by
  rw [issueLoad, spots_singleton, spotsOf_error h]
  rfl

theorem issueStore_error {data : State → Spot → List Byte × Flags}
    (h : s.placeAligned (s.issuer s.cur .c) va n n true = .error f) :
    s.issueStore none n scaled [(0, va)] data = (s.noteFailed (s.issuer s.cur .c) f.va n f).trap f := by
  rw [issueStore, spots_singleton, spotsOf_error h]
  rfl

/-- The four scalar accesses take a fault of their one element's place. -/
theorem scalar_faults {pfx : Pfx} {ty : Ty} {rm d a b : Nat} {off : Int} {s0 : State}
    (h : s.placeAligned (s.issuer s.cur .c) va (accessSize va ty) (accessSize va ty) wr = .error f)
    (hs0 : s.noteFailed (s.issuer s.cur .c) f.va (accessSize va ty) f = s0) :
    (wr = false → va = padd (s.sr a) off → exec (.ld pfx ty rm d a off) s = .next (s0.trap f)) ∧
    (wr = false → va = s.indexed ty a b → exec (.ldx pfx ty rm d a b) s = .next (s0.trap f)) ∧
    (wr = true → va = padd (s.sr a) off → exec (.st pfx ty rm d a off) s = .next (s0.trap f)) ∧
    (wr = true → va = s.indexed ty a b → exec (.stx pfx ty rm d a b) s = .next (s0.trap f)) := by
  subst hs0
  refine ⟨fun hwr hea => ?_, fun hwr hea => ?_, fun hwr hea => ?_, fun hwr hea => ?_⟩ <;> rw [hwr] at h
  · rw [exec_ld, ← hea, loadScalar, issueLoad_error h]
  · rw [exec_ldx, ← hea, loadScalar, issueLoad_error h]
  · rw [exec_st, ← hea, storeScalar, issueStore_error h]
  · rw [exec_stx, ← hea, storeScalar, issueStore_error h]

end
end State

open State

/-- Settles O16: the one element of a scalar access is placed, or refused, before anything else of the access. -/
theorem accessFaults : Obligations.AccessFaults := by
  unfold Obligations.AccessFaults
  intro s pfx ty rm d a b off ea wr i n Faults
  refine ⟨fun p ht halign => ?misaligned, fun f ht hcause => ?address, fun f ht halign => ?aligned⟩
  case misaligned =>
    exact scalar_faults (placeAligned_of_misaligned ht halign) (noteFailed_of_no_walk s _ _ _ rfl)
  case address =>
    have hno : afterWalk f.cause = false := by rw [hcause]; decide
    exact scalar_faults (placeAligned_of_error ht (.inl hcause)) (noteFailed_of_no_walk s _ _ _ hno)
  case aligned =>
    exact scalar_faults (placeAligned_of_error ht (.inr halign)) (by rw [translate_error_va ht])

end Sys2Proof.Machine
end

