-- ==== Sys2Proof/Proofs/ScalarAccesses.lean ====
section
/-! LD, LDX, ST and STX of one place of memory (R174 to R178): what they send at issue, and what its arrival does. -/

namespace Sys2Proof.Machine

open Sys2Proof

theorem memSize_bounds (ty : Ty) : 0 < memSize ty ∧ memSize ty ≤ 8 := by
  cases ty <;> decide

theorem accessSize_of_no_window {va : Word} (ty : Ty) (h : windowOf va = 0) : accessSize va ty = memSize ty := by
  rw [accessSize, if_neg (by rw [h]; decide)]

theorem accessSize_le (va : Word) (ty : Ty) : accessSize va ty ≤ 8 := by
  unfold accessSize
  split
  · unfold winSize
    split <;> decide
  · exact (memSize_bounds ty).2

/-! ### The value of a load through no window (R175) -/

theorem ofNat_setWidth_of_lt {n m : Nat} (h : m < 2 ^ n) : (BitVec.ofNat n m).setWidth 64 = BitVec.ofNat 64 m := by
  refine BitVec.eq_of_toNat_eq ?_
  rw [BitVec.toNat_setWidth, BitVec.toNat_ofNat, BitVec.toNat_ofNat, Nat.mod_eq_of_lt h]

/-- A number read as `n` bits, signed, as a word. -/
theorem ofInt_signed {n m : Nat} (hn : 0 < n) (hword : n ≤ 64) (h : m < 2 ^ n) :
    BitVec.ofInt 64 (signed n m) = (BitVec.ofNat n m).signExtend 64 := by
  have hm : m < 2 ^ 64 := h.trans_le (Nat.pow_le_pow_right (by decide) hword)
  have htoNat : (BitVec.ofNat 64 m).toNat = m := by rw [BitVec.toNat_ofNat, Nat.mod_eq_of_lt hm]
  have hsext := sextW_eq hn (BitVec.ofNat 64 m)
  rw [sextW, htoNat] at hsext
  rw [hsext, BitVec.setWidth_ofNat_of_le hword]

theorem scalarOf_of_no_window {va : Word} (ty : Ty) (rm : Nat) {m : Nat} (sc : Byte) (hwin : windowOf va = 0)
    (hm : m < 2 ^ (8 * memSize ty)) : scalarOf va ty rm m sc = (if intSigned ty && !memFloat ty
      then (BitVec.ofNat (8 * memSize ty) m).signExtend 64 else (BitVec.ofNat (8 * memSize ty) m).setWidth 64, 0) := by
  obtain ⟨hpos, hle⟩ := memSize_bounds ty
  rw [scalarOf, if_pos hwin, ofInt_signed (by omega) (by omega) hm, ofNat_setWidth_of_lt hm]
  cases memFloat ty <;> cases intSigned ty <;> rfl

namespace State

/-! ### One place, checked -/

section
variable {s : State} {i : Issuer} {va : Word} {n j loc : Nat} {wr : Bool} {sc : Byte}

theorem spotsOf_here (h : s.placeAligned i va n n wr = .ok (.mem loc)) (hsc : s.scaleFor i va loc = .ok sc) :
    s.spotsOf i n wr true [(j, va)] = .ok [.here { lane := j, va := va, loc := loc, n := n }] := by
  rw [spotsOf, h]
  dsimp only [spotsOf]
  rw [hsc]
  rfl

theorem checkLanes_singleton {rd : Bool} (h : s.memCheck i va loc n rd = .ok ()) :
    s.checkLanes i [{ lane := j, va := va, loc := loc, n := n }] rd = .ok () := by
  have hmiss : s.tagMiss loc n (tagOf va) = none := by
    unfold memCheck at h
    split at h
    · cases h
    · assumption
  unfold checkLanes
  simp [hmiss, h]

end

/-! ### Loads (R175, R178) -/

/-- A load of one place sends its request. -/
theorem issueLoad_here {s : State} {dst : LoadDst} {n loc : Nat} {va : Word} {sc : Byte}
    (h : s.placeAligned (s.issuer s.cur .c) va n n false = .ok (.mem loc)) (hsc : s.scaleFor (s.issuer s.cur .c) va loc = .ok sc) :
    s.issueLoad dst none n true [(0, va)] = (s.useTlb va).push [.loadDataReturn {
      core := s.cur, pc := s.me.pc, lanes := [{ lane := 0, va := va, loc := loc, n := n }], dst := dst, at_ := none }] := by
  rw [issueLoad, spots_singleton, spotsOf_here h hsc]
  rfl

/-- The data of one place, checked when it is read, answers its load. -/
theorem loadDataReturn_here {s : State} {l : Lane} {d rm : Nat} {ty : Ty} {sc : Byte} {pc : Word}
    (hc : s.memCheck (s.issuer s.cur .c) l.va l.loc l.n true = .ok ())
    (hsc : (s.countPieces [(l.loc, l.n)]).scaleFor ((s.countPieces [(l.loc, l.n)]).issuer s.cur .c) l.va l.loc = .ok sc) :
    s.loadDataReturn { core := s.cur, pc := pc, lanes := [l], dst := .scalar d ty rm, at_ := none } =
      (s.countPieces [(l.loc, l.n)]).answerF d (scalarOf l.va ty rm (leNat (s.look l.loc l.n)) sc) := by
  have hcur : (s.countPieces [(l.loc, l.n)]).cur = s.cur := by rw [countPieces_rest]
  rw [loadDataReturn, checkLanes_singleton hc]
  change (s.countPieces [(l.loc, l.n)]).loadInto s.cur _ [(l, s.look l.loc l.n)] = _
  rw [loadInto]
  dsimp only
  rw [hsc, answerF, setMe_eq, hcur, me_eq, hcur]
  rfl

/-- The data that returns finds what the load's issue has found. -/
theorem loadDataReturn_after {s s1 w : State} (htr : Translated s s1 s.cur) (hw : w = { s1 with pend := w.pend, msg := w.msg })
    {l : Lane} {d rm : Nat} {ty : Ty} {sc : Byte} (pc : Word) (hc : s.memCheck (s.issuer s.cur .c) l.va l.loc l.n true = .ok ())
    (hsc : s.scaleFor (s.issuer s.cur .c) l.va l.loc = .ok sc) :
    let r := scalarOf l.va ty rm (leNat (s.look l.loc l.n)) sc
    let u := w.loadDataReturn { core := s.cur, pc := pc, lanes := [l], dst := .scalar d ty rm, at_ := none }
    u.sr d = (if d = 0 then 0 else r.1) ∧ RegsSame s.me u.me [(.s, d)] ∧ CommitsAt s1.me u.me s.me.npc r.2 ∧
      OthersSame s u s.cur ∧ SameMemory s u ∧
      u = { s with cores := u.cores, acnt := u.acnt, pend := u.pend, msg := u.msg } := by
  intro r u
  have hstore : s.SameStore w := htr.sameStore.trans (sameStore_of_rest (by rw [hw]))
  have hcur : w.cur = s.cur := by rw [hw, htr.rest]
  have hissuer : w.issuer w.cur .c = s.issuer s.cur .c := by
    rw [hcur, ← htr.issuer_eq]
    rw [hw]; rfl
  have hlook : w.look l.loc l.n = s.look l.loc l.n :=
    look_congr hstore.mem (hstore.reservedBytes (by rw [hw, htr.rest])) ..
  generalize hv : w.countPieces [(l.loc, l.n)] = v at *
  have hvrest : v = { w with acnt := v.acnt } := by rw [← hv, countPieces_rest]
  have hvstore : s.SameStore v := hstore.trans (sameStore_of_rest (by rw [hvrest]))
  have hscale : v.scaleFor (v.issuer w.cur .c) l.va l.loc = .ok sc := by
    have hscb (k : Nat) : (v.coreAt k).scb = (s.coreAt k).scb := by
      rw [← htr.scb, hvrest, hw]; rfl
    have hsame : v.issuer w.cur .c = w.issuer w.cur .c := by rw [hvrest]; rfl
    rw [hvstore.scaleFor hscb, hsame, hissuer, hsc]
  have hu : u = v.answerF d r := by
    have h := loadDataReturn_here (s := w) (d := d) (rm := rm) (ty := ty) (pc := pc) (by rw [hissuer, hstore.memCheck]; exact hc) (hv ▸ hscale)
    rw [hcur, hlook, hv] at h
    exact h
  have hcommits := v.answerF_commits d r
  obtain ⟨honlyCore, -, hmem⟩ := hcommits.only
  obtain ⟨hregs, hat, hothers⟩ := htr.commits (by rw [hvrest, hw]) (by rw [hvrest, hcur]) hcommits
  rw [hu]
  refine ⟨answerF_sr .., hregs, hat, hothers, ?_, ?_⟩
  · exact hvstore.sameMemory.trans hmem
  · rw [honlyCore, hvrest, hw, htr.rest]

/-! ### Stores (R176, R178) -/

/-- A store of one place commits and sends its bytes. -/
theorem issueStore_here {s : State} {n loc : Nat} {va : Word} {sc : Byte} {data : State → Spot → List Byte × Flags}
    {bs : List Byte} {fl : Flags}
    (h : s.placeAligned (s.issuer s.cur .c) va n n true = .ok (.mem loc)) (hsc : s.scaleFor (s.issuer s.cur .c) va loc = .ok sc)
    (hc : (s.useTlb va).memCheck (s.issuer s.cur .c) va loc n false = .ok ())
    (hw : (s.useTlb va).storeWaits [{ lane := 0, va := va, loc := loc, n := n }] = [])
    (hdata : data (s.useTlb va) (.here { lane := 0, va := va, loc := loc, n := n }) = (bs, fl)) :
    s.issueStore none n true [(0, va)] data = ((s.useTlb va).setMe ((s.useTlb va).me.raise fl).commit).push
      [.storeCompletion { core := s.cur, pieces := [{ va := va, loc := loc, bytes := bs }] }] := by
  rw [issueStore, spots_singleton, spotsOf_here h hsc]
  dsimp only [List.foldl]
  have hlanes : spotLanes [.here { lane := 0, va := va, loc := loc, n := n }] = [{ lane := 0, va := va, loc := loc, n := n }] := rfl
  rw [hlanes, checkLanes_singleton hc, hw, hdata]
  have hgone : goneBits [.here { lane := 0, va := va, loc := loc, n := n }] = 0 := rfl
  have hall : delivered [.here { lane := 0, va := va, loc := loc, n := n }] = [.here { lane := 0, va := va, loc := loc, n := n }] := rfl
  have hflags : (0 : Flags) ||| fl = fl := BitVec.zero_or
  simp only [List.flatMap_cons, List.flatMap_nil, hall, hgone, hdata, hflags, addOutcome, Spot.pieces, if_true, List.append_nil, List.nil_append, List.isEmpty_cons, List.isEmpty_nil, Bool.not_true,
    if_neg Bool.false_ne_true]

/-- What a scalar store sends to memory is the register's bits through the window of its pointer (R176). -/
theorem storeScalar_here {s : State} {ty : Ty} {rm d loc : Nat} {va : Word} {sc : Byte} (h : s.Reaches va (accessSize va ty) true loc)
    (hsc : s.scaleFor (s.issuer s.cur .c) va loc = .ok sc)
    (hwaits : (s.useTlb va).storeWaits [{ lane := 0, va := va, loc := loc, n := accessSize va ty }] = []) :
    let r := scalarBits va ty rm (s.sr d) sc
    s.storeScalar ty rm d va = ((s.useTlb va).setMe ((s.useTlb va).me.raise r.2).commit).push
      [.storeCompletion { core := s.cur, pieces := [{ va := va, loc := loc, bytes := leBytes (accessSize va ty) r.1 }] }] := by
  intro r
  obtain ⟨halign, htrans, hcheck⟩ := h
  have htr := translated_useTlb s va
  have hlands : (s.useTlb va).memCheck (s.issuer s.cur .c) va loc (accessSize va ty) false = .ok () := by
    rw [htr.sameStore.memCheck]
    exact hcheck
  have hreg : (s.useTlb va).sr d = s.sr d := by rw [sr, sr, htr.me rfl]; rfl
  have hscale : (s.useTlb va).spotScale (.here { lane := 0, va := va, loc := loc, n := accessSize va ty }) = sc := by
    rw [spotScale, htr.sameStore.scaleFor htr.scb, htr.cur, htr.issuer_eq, hsc]
  rw [storeScalar]
  refine issueStore_here (placeAligned_of_aligned halign htrans) hsc hlands hwaits ?_
  simp only [Spot.va, hreg, hscale, r]

/-- The arrived bytes stand at their place (R165, R176). -/
theorem storeCompletion_here {s w : State} (h : s.SameStore w) (k : Nat) {va : Word} {loc : Nat} {bs : List Byte}
    (hlen : bs.length ≤ 4096) :
    let u := w.storeCompletion { core := k, pieces := [{ va := va, loc := loc, bytes := bs }] }
    u.bytes loc bs.length = bs ∧ (∀ x, ¬ s.Stores loc bs.length x → u.byte x = s.byte x) ∧ u.cores = w.cores ∧
      (∀ g, u.metaAt g = s.marked [(loc, bs.length)] g) ∧ OnlyStores w u := by
  have hcount := sameStore_countPieces w [(loc, bs.length)]
  intro u
  have hu : u = (w.countPieces [(loc, bs.length)]).putAt loc bs := rfl
  rw [hu]
  refine ⟨bytes_putAt (.inl hlen), fun x hx => ?_, ?_, fun g => ?_, ?_⟩
  · have hstores : ¬ (w.countPieces [(loc, bs.length)]).Stores loc bs.length x := by
      unfold Stores at hx ⊢
      rwa [(h.trans hcount).moves]
    rw [byte_putAt_of_not_stores hstores, (h.trans hcount).sameMemory.1]
  · rw [putAt_rest, countPieces_rest]
  · rw [metaAt_putAt, marked_congr (h.trans hcount).gmeta]
  · rw [OnlyStores, putAt_rest, countPieces_rest]

end State

open State

/-- Either load, checked: it sends its request, and the data that returns answers it. -/
theorem loads_of_reaches {s : State} {i : Instr} {ty : Ty} {rm d loc : Nat} {ea : Word} {sc : Byte}
    (hexec : exec i s = .next (s.loadScalar ty rm d ea)) (hreach : s.Reaches ea (accessSize ea ty) false loc)
    (hsc : s.scaleFor (s.issuer s.cur .c) ea loc = .ok sc) :
    let r := scalarOf ea ty rm (leNat (s.look loc (accessSize ea ty))) sc
    Answers (exec i s) fun t => ∃ q, t.pend = s.pend ++ [.loadDataReturn q] ∧
      Delivers t (.loadDataReturn q) fun u =>
        u.sr d = (if d = 0 then 0 else r.1) ∧ RegsSame s.me u.me [(.s, d)] ∧ CommitsAt (s.useTlb ea).me u.me s.me.npc r.2 ∧
        OthersSame s u s.cur ∧ SameMemory s u ∧
        u = { s with cores := u.cores, acnt := u.acnt, pend := u.pend, msg := u.msg } := by
  intro r
  obtain ⟨halign, htrans, hcheck⟩ := hreach
  have htr := translated_useTlb s ea
  rw [loadScalar, issueLoad_here (placeAligned_of_aligned halign htrans) hsc] at hexec
  refine ⟨_, hexec, _, by rw [push_pend, htr.rest], ?_⟩
  exact ⟨_, rfl, loadDataReturn_after htr rfl s.me.pc hcheck hsc⟩

/-- Settles O13: LD and LDX differ in their address alone. -/
theorem scalarLoads : Obligations.ScalarLoads := by
  unfold Obligations.ScalarLoads
  intro s pfx ty rm d a b off ea loc sc hreach hsc n s1 m r Loads
  refine ⟨fun hea => ?ld, fun hea => ?ldx, fun hwin _ => ?value⟩
  case ld => exact loads_of_reaches (by rw [exec_ld, ← hea]) hreach hsc
  case ldx => exact loads_of_reaches (by rw [exec_ldx, ← hea]) hreach hsc
  case value =>
    have hm : m < 2 ^ (8 * memSize ty) := by
      rw [← accessSize_of_no_window ty hwin]
      exact leNat_lt_of_length_le (look_length_le ..)
    exact scalarOf_of_no_window ty rm sc hwin hm

/-- Either store, checked: it commits and sends its bytes, which land at their place. -/
theorem stores_of_reaches {s : State} {i : Instr} {ty : Ty} {rm d loc : Nat} {ea : Word} {sc : Byte}
    (hexec : exec i s = .next (s.storeScalar ty rm d ea)) (hreach : s.Reaches ea (accessSize ea ty) true loc)
    (hsc : s.scaleFor (s.issuer s.cur .c) ea loc = .ok sc)
    (hwaits : (s.useTlb ea).storeWaits [{ lane := 0, va := ea, loc := loc, n := accessSize ea ty }] = []) :
    let n := accessSize ea ty
    let r := scalarBits ea ty rm (s.sr d) sc
    Answers (exec i s) fun t => ∃ q, t.pend = s.pend ++ [.storeCompletion q] ∧
      RegsSame s.me t.me [] ∧ CommitsAt (s.useTlb ea).me t.me s.me.npc r.2 ∧ OthersSame s t s.cur ∧ SameMemory s t ∧
      Delivers t (.storeCompletion q) fun u =>
        u.bytes loc n = leBytes n r.1 ∧ (∀ x, ¬ s.Stores loc n x → u.byte x = s.byte x) ∧ u.cores = t.cores ∧
        (∀ g, u.metaAt g = if tagged loc = true ∧ g ∈ granules loc n
          then mkMeta true false (metaF (s.metaAt g)) (metaTag (s.metaAt g)) else s.metaAt g) ∧ OnlyStores s u := by
  intro n r
  have htr := translated_useTlb s ea
  have hcommits := (s.useTlb ea).raise_commits r.2
  obtain ⟨honlyCore, -, hmem⟩ := hcommits.only
  obtain ⟨hregs, hat, hothers⟩ := htr.commits rfl htr.cur hcommits
  rw [storeScalar_here hreach hsc hwaits] at hexec
  generalize (s.useTlb ea).setMe _ = v at *
  have hv : v = { s with cores := v.cores, acnt := v.acnt } := by rw [honlyCore, htr.rest]
  have hland (w : State) (hw : w = { v with pend := w.pend, msg := w.msg }) :=
    storeCompletion_here (sameStore_of_rest (s := s) (t := w) (by rw [hw, hv])) s.cur (va := ea) (loc := loc) (bs := leBytes n r.1)
      (by rw [leBytes_length]; exact (accessSize_le ea ty).trans (by decide))
  have hsame := htr.sameStore.sameMemory.trans hmem
  refine ⟨_, hexec, _, by rw [push_pend, hv], hregs, hat, hothers, hsame, _, rfl, ?_⟩
  obtain ⟨hbytes, hrest, hcores, hmeta, honly⟩ := hland { v.push [.storeCompletion _] with msg := some (.storeCompletion _) } rfl
  rw [leBytes_length] at hbytes hrest hmeta
  refine ⟨hbytes, hrest, hcores, fun g => ?_, ?_⟩
  · refine (hmeta g).trans ?_
    simp only [marked, List.any_cons, List.any_nil, Bool.or_false, Bool.and_eq_true, List.contains_iff_mem]
  · exact OnlyStores.trans (by rw [OnlyStores, hv]; rfl) honly

/-- Settles O14: ST and STX differ in their address alone. -/
theorem scalarStores : Obligations.ScalarStores := by
  unfold Obligations.ScalarStores
  intro s pfx ty rm d a b off ea loc sc hreach hsc hwaits n s1 r Stores
  refine ⟨fun hea => ?st, fun hea => ?stx, fun hwin => ?bits⟩
  case st => exact stores_of_reaches (by rw [exec_st, ← hea]) hreach hsc hwaits
  case stx => exact stores_of_reaches (by rw [exec_stx, ← hea]) hreach hsc hwaits
  case bits => exact if_pos hwin

end Sys2Proof.Machine
end

