-- ==== Sys2Proof/Proofs/Atomics.lean ====
section
/-! Atomics and AFADD (R179 to R182): what is sent, the change at the bank, and the old word's return. -/

namespace Sys2Proof.Machine

open Sys2Proof

/-! ### The new word and the old one (R180) -/

theorem atomBytes_cases (ty : Ty) : atomBytes ty = 4 ∨ atomBytes ty = 8 := by
  cases ty <;> decide

theorem lowBytes_toNat {n : Nat} (hn : n = 4 ∨ n = 8) (x : Word) : (lowBytes n x).toNat = x.toNat % 2 ^ (8 * n) := by
  have hx := x.isLt
  obtain rfl | rfl := hn <;> simp only [lowBytes, BitVec.toNat_ofNat] <;> omega

/-- A word as the comparisons of AMIN and AMAX read it: signed but for U32. -/
theorem readInt_of_ty {ty : Ty} {w v : Nat} (h : v < 2 ^ w) : readInt w (ty != .u32) v = if ty = .u32 then (v : Int) else signed w v := by
  by_cases hty : ty = .u32
  · subst hty
    exact congrArg Nat.cast (Nat.mod_eq_of_lt h)
  · have hsigned : (ty != .u32) = true := by simpa using hty
    rw [readInt, hsigned, if_neg hty]
    rfl

section
variable {w m x e : Nat} (sgn : Bool)

theorem atomNew_min (hm : m < 2 ^ w) (hx : x < 2 ^ w) :
    atomNew .min sgn w m x e = if readInt w sgn x < readInt w sgn m then x else m := by
  simp only [atomNew, decide_eq_true_eq]
  split <;> exact Nat.mod_eq_of_lt ‹_›

theorem atomNew_max (hm : m < 2 ^ w) (hx : x < 2 ^ w) :
    atomNew .max sgn w m x e = if readInt w sgn m < readInt w sgn x then x else m := by
  simp only [atomNew, decide_eq_true_eq]
  split <;> exact Nat.mod_eq_of_lt ‹_›

theorem atomNew_and (hx : x < 2 ^ w) : atomNew .and sgn w m x e = Nat.land m x := Nat.mod_eq_of_lt (Nat.and_lt_two_pow m hx)

theorem atomNew_or (hm : m < 2 ^ w) (hx : x < 2 ^ w) : atomNew .or sgn w m x e = Nat.lor m x :=
  Nat.mod_eq_of_lt (Nat.or_lt_two_pow hm hx)

theorem atomNew_xor (hm : m < 2 ^ w) (hx : x < 2 ^ w) : atomNew .xor sgn w m x e = Nat.xor m x :=
  Nat.mod_eq_of_lt (Nat.xor_lt_two_pow hm hx)

theorem atomNew_swap (hx : x < 2 ^ w) : atomNew .swap sgn w m x e = x := Nat.mod_eq_of_lt hx

theorem atomNew_cas (hm : m < 2 ^ w) (hx : x < 2 ^ w) : atomNew .cas sgn w m x e = if m = e then x else m := by
  simp only [atomNew]
  split <;> exact Nat.mod_eq_of_lt ‹_›

end

/-- The old word as s[D] receives it. -/
theorem atomOld_eq {sgn : Bool} {w m : Nat} (h0 : 0 < w) (hw : w ≤ 64) (hm : m < 2 ^ w) :
    atomOld sgn w m = if sgn then (BitVec.ofNat w m).signExtend 64 else BitVec.ofNat 64 m := by
  rw [atomOld, ofInt_signed h0 hw hm]

/-- Flags raised before the commit are those of the instruction. -/
theorem CommitsAt.of_raise {c c' : Core} {f : Flags} {pc : Word} (h : CommitsAt (c.raise f) c' pc 0) : CommitsAt c c' pc f := by
  have hflags : (c.raise f).flg ||| (0 : Flags) = c.flg ||| f := BitVec.or_zero
  unfold CommitsAt at *
  rw [hflags] at h
  exact h

namespace State

/-! ### The request (R181) -/

theorem issueAtomic_of_placed {s : State} {n d loc : Nat} {fn : AtomFn} {sgn : Bool} {va b x : Word} {f : Flags} {place : Place}
    (hspace : atomSpace va = true) (hp : s.placeAligned (s.issuer s.cur .c) va n n true = .ok place) (hb : Begins place loc) :
    s.issueAtomic n fn sgn d va b x f = (s.sentAtomic va f).push [.bankAtomicApply {
      core := s.cur, pc := s.me.pc, va := va, loc := loc, n := n, fn := fn, signed := sgn, b := b, expected := x, reply := true,
      dst := d }] := by
  obtain rfl | ⟨k, next, rfl⟩ := hb <;> simp [issueAtomic, hspace, hp]

/-- The executing core has made an access, cleared R, and raised flags. -/
structure SentAtomic (s s1 t : State) (f : Flags) : Prop where
  rest : t = { s with cores := t.cores, acnt := t.acnt, units := (s.clearR s.cur).units }
  me : t.me = s1.me.raise f
  others : OthersSame s t s.cur

theorem sentAtomic_sent (s : State) (va : Word) (f : Flags) : s.SentAtomic (s.useTlb va) (s.sentAtomic va f) f := by
  have htr := translated_useTlb s va
  have hunits : ((s.useTlb va).clearR s.cur).units = (s.clearR s.cur).units :=
    clearR_units_congr (by rw [htr.rest]) (by rw [htr.rest]) (by rw [htr.core])
  have hcur : ((s.useTlb va).clearR s.cur).cur = s.cur := by rw [clearR_cur, htr.cur]
  refine ⟨?_, ?_, fun j hj => ?_⟩
  · rw [sentAtomic, modCore_eq, ← hunits, clearR_rest, htr.rest]; rfl
  · rw [sentAtomic, modCore_eq, me_eq, putCore_cur, hcur, coreAt_putCore_same, coreAt_clearR, me_eq, htr.cur]
  · rw [sentAtomic, modCore_eq, coreAt_putCore, if_neg hj, coreAt_clearR, htr.others j hj]

/-! ### At the bank (R179, R180) -/

theorem bankAtomicApply_of_checked {s : State} {q : AtomicReq} (hreply : q.reply = true)
    (hc : s.spanCheck (s.issuer q.core .c) q.va q.loc q.n false = .ok ()) (hbad : s.spanPoisoned q.loc q.n = false) :
    let m := leNat (s.spanLook q.loc q.n)
    let new := atomNew q.fn q.signed (8 * q.n) m q.b.toNat q.expected.toNat
    s.bankAtomicApply q = (if new = m then s.spanCount q.loc q.n else s.spanWrite q.loc (leBytes q.n new)).push
      [.atomicReply q.core q.pc q.dst (.value (atomOld q.signed (8 * q.n) m))] := by
  intro m new
  simp [bankAtomicApply, hc, hbad, hreply, m, new]

/-- The word holds its new number, whether that was the old one or has been written. -/
theorem changed_holds (s : State) (loc n new : Nat) :
    let rs := s.runsFrom loc n
    let u := if new = leNat (s.spanLook loc n) then s.spanCount loc n else s.spanWrite loc (leBytes n new)
    (∀ y, (∀ p ∈ rs, ¬ s.Stores p.1 p.2 y) → u.byte y = s.byte y) ∧
      (s.Apart rs → s.spanLook loc n = s.bytesIn rs → u.bytesIn rs = leBytes n new) ∧ u.cores = s.cores ∧ u.cur = s.cur := by
  intro rs u
  have hsum : (rs.map Prod.snd).sum = n := runsFrom_sum s loc n
  by_cases hsame : new = leNat (s.spanLook loc n)
  · have hu : u = s.countPieces rs := if_pos hsame
    have hmem : u.mem = s.mem := by rw [hu, countPieces_rest]
    refine ⟨fun y _ => byte_of_mem_eq hmem y, fun _ hlook => ?_, by rw [hu, countPieces_rest], by rw [hu, countPieces_rest]⟩
    rw [bytesIn_of_mem_eq hmem, hsame, hlook, ← hsum, ← bytesIn_length s rs, leBytes_leNat]
  · have hu : u = s.spanWrite loc (leBytes n new) := if_neg hsame
    obtain ⟨hrest, hown⟩ := spanWrite_holds s loc (leBytes n new)
    rw [leBytes_length] at hrest hown
    rw [hu]
    exact ⟨hrest, fun ha _ => hown ha, spanWrite_cores .., by rw [spanWrite_rest]⟩

/-- The application finds at the bank what the issue has found, R cleared. -/
theorem bankAtomicApply_after {s w : State} (h : s.SameStore w) (hu : w.units = (s.clearR s.cur).units)
    (hw : w.issuer s.cur .c = s.issuer s.cur .c) {q : AtomicReq} (hreply : q.reply = true) (hcore : q.core = s.cur)
    (hc : s.spanCheck (s.issuer s.cur .c) q.va q.loc q.n false = .ok ()) (hbad : s.spanPoisoned q.loc q.n = false) :
    let rs := s.runsFrom q.loc q.n
    let m := leNat ((s.clearR s.cur).spanLook q.loc q.n)
    let new := atomNew q.fn q.signed (8 * q.n) m q.b.toNat q.expected.toNat
    let u := w.bankAtomicApply q
    (∀ y, (∀ p ∈ rs, ¬ s.Stores p.1 p.2 y) → u.byte y = s.byte y) ∧
      (s.Apart rs → (s.clearR s.cur).spanLook q.loc q.n = s.bytesIn rs → u.bytesIn rs = leBytes q.n new) ∧
      Ev.atomicReply s.cur q.pc q.dst (.value (atomOld q.signed (8 * q.n) m)) ∈ u.pend ∧ u.cores = w.cores ∧ u.cur = w.cur := by
  intro rs m new u
  have hcleared : (s.clearR s.cur).SameStore w := by
    refine SameStore.trans (SameStore.symm (sameStore_of_rest ?_)) h
    rw [clearR_rest]
  have hlook : w.spanLook q.loc q.n = (s.clearR s.cur).spanLook q.loc q.n := spanLook_congr hcleared (hcleared.reservedBytes hu) ..
  have hruns : w.runsFrom q.loc q.n = rs := runsFrom_congr h.sys ..
  have hstores (p : Nat × Nat) (y : Nat) : w.Stores p.1 p.2 y ↔ s.Stores p.1 p.2 y := by unfold Stores; rw [h.moves]
  have happly := bankAtomicApply_of_checked (s := w) hreply (by rw [hcore, hw, h.spanCheck, hc]) (by rw [h.spanPoisoned, hbad])
  obtain ⟨hrest, hown, hcores, hcur⟩ := w.changed_holds q.loc q.n new
  have hbytes : w.bytesIn rs = s.bytesIn rs := bytesIn_of_mem_eq h.mem rs
  rw [hlook, hcore] at happly
  rw [hruns, hlook, hbytes] at hown
  rw [hruns, hlook] at hrest
  rw [hlook] at hcores hcur
  generalize hx : (if new = m then w.spanCount q.loc q.n else w.spanWrite q.loc (leBytes q.n new)) = x at hrest hown hcores hcur
  have hu' : u = x.push [.atomicReply s.cur q.pc q.dst (.value (atomOld q.signed (8 * q.n) m))] := hx ▸ happly
  rw [hu']
  refine ⟨fun y hy => ?_, fun ha => ?_, List.mem_append_right _ (List.mem_singleton_self _), hcores, hcur⟩
  · exact (hrest y fun p hp hs => hy p hp ((hstores p y).1 hs)).trans (h.sameMemory.1 y)
  · have hapart : w.Apart rs := by
      unfold Apart at *
      rwa [h.moves]
    rw [bytesIn_of_mem_eq (push_mem ..)]
    exact hown hapart

/-! ### The reply (R181) -/

/-- The old word's return commits an instruction that has raised its flags at issue. -/
theorem atomicReply_after {s t v : State} {va : Word} {fl : Flags} (h : s.SentAtomic (s.useTlb va) t fl)
    (hcores : v.cores = t.cores) (hcur : v.cur = s.cur) (pc : Word) (d : Nat) (x : Word) :
    let w := v.atomicReply s.cur pc d (.value x)
    w.sr d = (if d = 0 then 0 else x) ∧ RegsSame s.me w.me [(.s, d)] ∧ CommitsAt (s.useTlb va).me w.me s.me.npc fl ∧
      OthersSame s w s.cur ∧ w.units = v.units ∧ ∀ y, w.byte y = v.byte y := by
  intro w
  have hme1 := (translated_useTlb s va).me rfl
  have hat (j : Nat) : v.coreAt j = t.coreAt j := by unfold coreAt; rw [hcores]
  have htcur : t.cur = s.cur := by rw [h.rest]
  have hme : v.me = (s.useTlb va).me.raise fl := by rw [me_eq, hat, hcur, ← h.me, me_eq, htcur]
  have hw : w = v.answer d x := by
    rw [answer, setMe_eq, hcur, me_eq, hcur]
    rfl
  obtain ⟨⟨honly, hothers, -⟩, hregs, hcore⟩ := v.answer_commits d x
  rw [hw]
  refine ⟨answer_sr .., ?_, ?_, fun j hj => ?_, by rw [honly], fun y => by rw [honly]; rfl⟩
  · rw [hme, hme1] at hregs
    exact ⟨hregs.scalar, hregs.vector, hregs.predicate, hregs.view, hregs.handle⟩
  · have hnpc : v.me.npc = s.me.npc := by rw [hme, hme1]; rfl
    rw [hnpc, hme] at hcore
    exact hcore.of_raise
  · rw [hothers j (by rwa [hcur]), hat, h.others j hj]

end State

open State

/-! ### The obligation -/

/-- An atomic that its checks let pass: its request, the change at the bank, the old word's return. -/
theorem puts_of_issue {s : State} {i : Instr} {fn : AtomFn} {sgn : Bool} {n d loc new : Nat} {va b x : Word} {fl : Flags}
    {place : Place} (hexec : exec i s = .next (s.issueAtomic n fn sgn d va b x fl)) (hn : n = 4 ∨ n = 8)
    (hspace : atomSpace va = true) (halign : va.toNat % n = 0) (ht : s.translate (s.issuer s.cur .c) va n true false = .ok place)
    (hb : Begins place loc) (hc : s.spanCheck (s.issuer s.cur .c) va loc n false = .ok ()) (hbad : s.spanPoisoned loc n = false)
    (hnew : atomNew fn sgn (8 * n) (leNat ((s.clearR s.cur).spanLook loc n)) b.toNat x.toNat = new) :
    let s2 := s.clearR s.cur
    let rs := s.runsFrom loc n
    let m := leNat (s2.spanLook loc n)
    Answers (exec i s) fun t => ∃ r, t.pend = s.pend ++ [.bankAtomicApply r] ∧ SameMemory s t ∧
      t.units = (s.clearR s.cur).units ∧
      Delivers t (.bankAtomicApply r) fun u =>
        (∀ y, (∀ p ∈ rs, ¬ s.Stores p.1 p.2 y) → u.byte y = s.byte y) ∧
        (s.Apart rs → s2.spanLook loc n = s.bytesIn rs → u.bytesIn rs = leBytes n new) ∧
        ∃ v, Ev.atomicReply s.cur s.me.pc d (.value v) ∈ u.pend ∧
          v = (if sgn then (BitVec.ofNat (8 * n) m).signExtend 64 else BitVec.ofNat 64 m) ∧
          Delivers u (.atomicReply s.cur s.me.pc d (.value v)) fun w =>
            w.sr d = (if d = 0 then 0 else v) ∧ RegsSame s.me w.me [(.s, d)] ∧ CommitsAt (s.useTlb va).me w.me s.me.npc fl ∧
            OthersSame s w s.cur ∧ w.units = u.units ∧ (∀ y, w.byte y = u.byte y) := by
  intro s2 rs m
  have hsent := s.sentAtomic_sent va fl
  rw [issueAtomic_of_placed hspace (placeAligned_of_aligned halign ht) hb] at hexec
  generalize s.sentAtomic va fl = t at *
  have hstore : s.SameStore t := sameStore_of_rest (by rw [hsent.rest])
  have hissuer : t.issuer s.cur .c = s.issuer s.cur .c := by
    have htcur : t.cur = s.cur := by rw [hsent.rest]
    have hme1 := (translated_useTlb s va).me rfl
    have hcore : t.coreAt s.cur = (s.useTlb va).me.raise fl := by rw [← htcur, ← me_eq, hsent.me]
    exact issuer_congr (by rw [hcore, hme1]; rfl) (by rw [hcore, hme1]; rfl) (by rw [hsent.rest]) (by rw [hsent.rest])
      (by rw [hsent.rest]) .c
  have hm : m < 2 ^ (8 * n) := leNat_lt_of_length_le (spanLook_length_le ..)
  have hbank (w : State) (hw : w = { t with pend := w.pend, msg := w.msg }) :=
    bankAtomicApply_after (w := w) (sameStore_of_rest (by rw [hw, hsent.rest])) (by rw [hw, hsent.rest]) (by rw [hw]; exact hissuer)
      (q := { core := s.cur, pc := s.me.pc, va := va, loc := loc, n := n, fn := fn, signed := sgn, b := b, expected := x,
              reply := true, dst := d }) rfl rfl hc hbad
  refine ⟨_, hexec, _, by rw [push_pend, hsent.rest], hstore.sameMemory, by rw [push_units, hsent.rest], _, rfl, ?_⟩
  obtain ⟨hrest, hown, hreply, hcores, hcur⟩ := hbank { t.push [.bankAtomicApply _] with msg := some (.bankAtomicApply _) } rfl
  dsimp only at hown hreply
  rw [hnew] at hown
  rw [atomOld_eq (by omega) (by omega) hm] at hreply
  have hcur' := hcur.trans (show t.cur = s.cur by rw [hsent.rest])
  exact ⟨hrest, hown, _, hreply, rfl, _, rfl, atomicReply_after hsent hcores hcur' s.me.pc d _⟩

/-- Settles O17: what the instructions differ in is the function at the bank, the sign of the old word, and AFADD's flags. -/
theorem atomics : Obligations.Atomics := by
  unfold Obligations.Atomics
  intro s pfx ty rm d a b off place loc hspace halign ht hb hc hbad n s1 s2 rs m x e val q Puts
  have hn := atomBytes_cases ty
  have hm : m < 2 ^ (8 * n) := leNat_lt_of_length_le (spanLook_length_le ..)
  have hpos : 0 < 2 ^ (8 * n) := Nat.two_pow_pos _
  have hx : x < 2 ^ (8 * n) := Nat.mod_lt _ hpos
  have he : e < 2 ^ (8 * n) := Nat.mod_lt _ hpos
  have hxb : (lowBytes n (s.sr b)).toNat = x := lowBytes_toNat hn _
  have heb : (lowBytes n (s.sr d)).toNat = e := lowBytes_toNat hn _
  have hval {v : Nat} (hv : v < 2 ^ (8 * n)) : readInt (8 * n) (ty != .u32) v = val v := readInt_of_ty hv
  have puts {i : Instr} {fn : AtomFn} {new : Nat} (hexec : exec i s = .next (s.atomic fn ty d a b))
      (hnew : atomNew fn (ty != .u32) (8 * n) m x e = new) : Puts i new (ty != .u32) 0 :=
    puts_of_issue hexec hn hspace halign ht hb hc hbad (by rw [hxb, heb]; exact hnew)
  refine ⟨puts rfl rfl, puts rfl ?min, puts rfl ?max, puts rfl (atomNew_and _ hx), puts rfl (atomNew_or _ hm hx),
    puts rfl (atomNew_xor _ hm hx), puts rfl (atomNew_swap _ hx), puts rfl (atomNew_cas _ hm hx), ?afadd⟩
  case min => rw [atomNew_min _ hm hx, hval hx, hval hm]
  case max => rw [atomNew_max _ hm hx, hval hx, hval hm]
  case afadd =>
    refine puts_of_issue (fn := .add) (b := lowBytes n (BitVec.ofInt 64 q.1)) (x := 0) rfl hn hspace halign ht hb hc hbad ?_
    rw [lowBytes_toNat hn]
    exact Nat.add_mod_mod ..

end Sys2Proof.Machine
end

