-- ==== Sys2Proof/Proofs/BankLines.lean ====
section
/-! BANKOP (R183): what an element becomes, the issue, and the application to one line. -/

namespace Sys2Proof.Machine

open Sys2Proof

/-! ### What an element becomes -/

theorem readInt_eq {w x : Nat} (sg : Bool) (h : x < 2 ^ w) :
    readInt w sg x = if sg = true ∧ 2 ^ (w - 1) ≤ x then (x : Int) - 2 ^ w else x := by
  have hmod := Nat.mod_eq_of_lt h
  cases sg with
  | false => simp [readInt, hmod]
  | true =>
    by_cases hneg : 2 ^ (w - 1) ≤ x
    · simp [readInt, signed, hmod, hneg, Nat.not_lt.2 hneg]
    · simp [readInt, signed, hmod, hneg, Nat.lt_of_not_le hneg]

section
variable {w m b : Nat} (sg : Bool)

theorem bankNew_min (hm : m < 2 ^ w) (hb : b < 2 ^ w) :
    bankNew .min sg false w m b = if readInt w sg b < readInt w sg m then b else m := atomNew_min (e := 0) sg hm hb

theorem bankNew_max (hm : m < 2 ^ w) (hb : b < 2 ^ w) :
    bankNew .max sg false w m b = if readInt w sg m < readInt w sg b then b else m := atomNew_max (e := 0) sg hm hb

end

/-- A comparison that puts −0 below +0. -/
theorem lt_signed_zero (x y : Val) : x.lt true y = true ↔ x.cmp y < 0 ∨ (x.cmp y = 0 ∧ x.isNeg = true ∧ y.isNeg = false) := by
  simp [Val.lt, and_assoc]

theorem eq_nan_of_isNaN {x : Val} (h : x.isNaN = true) : x = .nan := by
  cases x with
  | nan => rfl
  | inf n => exact absurd h Bool.false_ne_true
  | fin n a b e => exact absurd h Bool.false_ne_true

theorem add_of_nan {x y : Val} (h : x.isNaN = true ∨ y.isNaN = true) : (x.add 0 y).1 = .nan := by
  rcases h with h | h
  · rw [eq_nan_of_isNaN h]
    cases y <;> rfl
  · rw [eq_nan_of_isNaN h]
    cases x <;> rfl

section
variable {m b : Nat} (sg : Bool)

theorem bankNew_float_nan (w : Nat) (h : (b32.decode m).isNaN = true ∨ (b32.decode b).isNaN = true) :
    bankNew .add sg true w m b = 0x7FC00000 ∧ bankNew .min sg true w m b = 0x7FC00000 ∧ bankNew .max sg true w m b = 0x7FC00000 := by
  have hnan : ((b32.decode m).isNaN || (b32.decode b).isNaN) = true := by simpa using h
  refine ⟨?_, ?_, ?_⟩
  · rw [bankNew, if_pos rfl]
    dsimp only
    rw [add_of_nan h]
    rfl
  · rw [bankNew, if_pos rfl]
    dsimp only
    rw [if_pos hnan]
    rfl
  · rw [bankNew, if_pos rfl]
    dsimp only
    rw [if_pos hnan]
    rfl

theorem bankNew_float_min (w : Nat) (hx : (b32.decode m).isNaN = false) (hy : (b32.decode b).isNaN = false) :
    bankNew .min sg true w m b = if (b32.decode b).lt true (b32.decode m) then b else m := by
  simp [bankNew, hx, hy]

theorem bankNew_float_max (w : Nat) (hx : (b32.decode m).isNaN = false) (hy : (b32.decode b).isNaN = false) :
    bankNew .max sg true w m b = if (b32.decode m).lt true (b32.decode b) then b else m := by
  simp [bankNew, hx, hy]

end

/-! ### Slices of a line -/

/-- Of lists of one length laid end to end, the one at place `j`. -/
theorem flatMap_range_slice {n : Nat} {f : Nat → List Byte} (hf : ∀ j, (f j).length = n) {c j : Nat} (hj : j < c) :
    (((List.range c).flatMap f).drop (n * j)).take n = f j := by
  obtain ⟨k, rfl⟩ := Nat.exists_eq_add_of_lt hj
  have hprefix : ((List.range j).flatMap f).length = n * j := by
    simp [List.length_flatMap, hf, Nat.mul_comm]
  have hsplit : (List.range (j + k + 1)).flatMap f = (List.range j).flatMap f ++ (f j ++ ((List.range k).map fun i => j + (i + 1)).flatMap f) := by
    rw [Nat.add_assoc, List.range_add, List.range_succ_eq_map, List.flatMap_append, List.map_cons, List.flatMap_cons, List.map_map]
    rfl
  rw [hsplit, ← hprefix, List.drop_left, ← hf j, List.take_left]

theorem flatMap_range_length {n c : Nat} {f : Nat → List Byte} (hf : ∀ j, (f j).length = n) : ((List.range c).flatMap f).length = c * n := by
  simp [List.length_flatMap, hf]

namespace State

theorem bytes_slice (s : State) {loc n a k : Nat} (h : a + k ≤ n) : ((s.bytes loc n).drop a).take k = s.bytes (loc + a) k := by
  have hlen : (((s.bytes loc n).drop a).take k).length = k := by
    rw [List.length_take, List.length_drop, bytes_length]
    omega
  have hbytes := bytes_eq_of_getD (s := s) (loc := loc + a) (bs := ((s.bytes loc n).drop a).take k) fun i hi => by
    have hget := s.bytes_getD loc n (a + i) (by omega)
    rw [hlen] at hi
    simp only [List.getD_eq_getElem?_getD, List.getElem?_take, if_pos hi, List.getElem?_drop] at hget ⊢
    rw [hget, Nat.add_assoc]
  rw [hlen] at hbytes
  exact hbytes.symm

/-! ### The issue -/

theorem tagOf_padd (p : Word) (o : Int) : tagOf (padd p o) = tagOf p := by
  have hp := p.isLt
  refine BitVec.eq_of_toNat_eq ?_
  simp only [tagOf, padd, fld, BitVec.toNat_ofNat]
  omega

theorem padd_of_eq_zero (p : Word) {o : Int} (h : o = 0) : padd p o = p := by
  have hp := p.isLt
  refine BitVec.eq_of_toNat_eq ?_
  simp only [padd, fld, BitVec.toNat_ofNat]
  omega

/-- Lines that all translate and whose tags agree pass the probe of the range.  The translation is a variable in the step: the
kernel would compute that of the sum of a pointer and an offset. -/
theorem probeLines_of_lines {s : State} {i : Issuer} {va : Word} {loc : Nat → Nat} {k : Nat}
    (h : ∀ j, j < k → s.translate i (padd va (64 * j : Nat)) 64 true false = .ok (.mem (loc j)) ∧
      s.tagMiss (loc j) 64 (tagOf va) = none) : s.probeLines i va k = .ok () := by
  induction k with
  | zero => rfl
  | succ k ih =>
    obtain ⟨htrans, htag⟩ := h k (Nat.lt_succ_self k)
    rw [← tagOf_padd va (64 * k : Nat)] at htag
    rw [probeLines, ih fun j hj => h j (Nat.lt_succ_of_lt hj)]
    obtain ⟨translate, htranslate⟩ : ∃ f, f = s.translate := ⟨_, rfl⟩
    rw [← htranslate] at htrans ⊢
    simp only [htrans, htag]

/-- The request of a BANKOP whose range has passed its tests. -/
def bankLine (s : State) (ty : Ty) (fn : BankFn) (d b loc : Nat) : BankLine :=
  let n := if ty == .f32 then 4 else atomBytes ty
  { core := s.cur, loc := loc, left := (s.sr d).toNat / 64, n := n, fn := fn, signed := ty != .u32, flt := ty == .f32,
    b := lowBytes n (s.sr b) }

section
variable {s : State} {pfx : Pfx} {ty : Ty} {fn : BankFn} {d a b : Nat} (hspace : spaceOf (s.sr a) = 6 ∨ spaceOf (s.sr a) = 7)
  (halign : (s.sr a).toNat % 64 = 0) (hlen : (s.sr d).toNat % 64 = 0) (hfits : fld (s.sr a) 0 23 + (s.sr d).toNat ≤ 0x800000)

include hspace halign hlen hfits

theorem exec_bankop_of_empty (hnone : (s.sr d).toNat = 0) : exec (.bankop pfx ty fn d a b) s = .next (s.clearR s.cur).retire := by
  change execBankop pfx ty fn d a b s = _
  have hin : ¬ (spaceOf (s.sr a) ≠ 6 ∧ spaceOf (s.sr a) ≠ 7) := by omega
  have hlines : ¬ ((s.sr a).toNat % 64 ≠ 0 ∨ (s.sr d).toNat % 64 ≠ 0) := by omega
  have hslice : ¬ (0x800000 < (s.sr d).toNat ∨ 2 ^ 23 < fld (s.sr a) 0 23 + (s.sr d).toNat) := by omega
  unfold execBankop
  dsimp only
  rw [if_neg hin, if_neg hlines, if_neg hslice, if_pos hnone]

theorem exec_bankop_of_lines {loc : Nat} (hsome : (s.sr d).toNat ≠ 0)
    (htrans : s.translate (s.issuer s.cur .c) (s.sr a) 64 true false = .ok (.mem loc))
    (hprobe : s.probeLines (s.issuer s.cur .c) (s.sr a) ((s.sr d).toNat / 64) = .ok ()) :
    exec (.bankop pfx ty fn d a b) s = .next ((s.clearR s.cur).retire.push [.bankopLineApply (s.bankLine ty fn d b loc)]) := by
  change execBankop pfx ty fn d a b s = _
  have hin : ¬ (spaceOf (s.sr a) ≠ 6 ∧ spaceOf (s.sr a) ≠ 7) := by omega
  have hlines : ¬ ((s.sr a).toNat % 64 ≠ 0 ∨ (s.sr d).toNat % 64 ≠ 0) := by omega
  have hslice : ¬ (0x800000 < (s.sr d).toNat ∨ 2 ^ 23 < fld (s.sr a) 0 23 + (s.sr d).toNat) := by omega
  unfold execBankop
  dsimp only
  rw [if_neg hin, if_neg hlines, if_neg hslice, if_neg hsome, htrans, hprobe]
  rfl

end

/-! ### One line -/

section
variable {s : State} {q : BankLine}

/-- The bytes that a line becomes. -/
def lineAfter (s : State) (q : BankLine) : List Byte :=
  (List.range (64 / q.n)).flatMap fun j =>
    leBytes q.n (bankNew q.fn q.signed q.flt (8 * q.n) (leNat (((s.bytes q.loc 64).drop (q.n * j)).take q.n)) q.b.toNat)

theorem exec_bankopLineApply (h : s.msg = some (.bankopLineApply q)) : exec .bankopLineApply s = .next (s.bankopLineApply q) := by
  change execBankopLineApply s = _
  rw [execBankopLineApply, h]

theorem bankopLineApply_of_readable (hleft : q.left ≠ 0) (hread : q.fn ≠ .set → s.poisoned q.loc 64 = false) :
    s.bankopLineApply q = (s.writeAt q.loc (s.lineAfter q)).push
      (if q.left ≤ 1 then [] else [.bankopLineApply { q with loc := q.loc + 64, left := q.left - 1 }]) := by
  have hgood : ¬ (q.fn ≠ .set ∧ s.poisoned q.loc 64 = true) := fun hbad => by simp [hread hbad.1] at hbad
  rw [bankopLineApply, if_neg hleft, if_neg hgood]
  rfl

theorem lineAfter_length (hn : q.n = 4 ∨ q.n = 8) : (s.lineAfter q).length = 64 := by
  rw [lineAfter, flatMap_range_length fun j => leBytes_length ..]
  obtain h | h := hn <;> rw [h]

/-- Element `j` of a line that has been written. -/
theorem bytes_lineAfter (hn : q.n = 4 ∨ q.n = 8) {j : Nat} (hj : j < 64 / q.n) :
    (s.writeAt q.loc (s.lineAfter q)).bytes (q.loc + q.n * j) q.n =
      leBytes q.n (bankNew q.fn q.signed q.flt (8 * q.n) (leNat (s.bytes (q.loc + q.n * j) q.n)) q.b.toNat) := by
  have hlen := s.lineAfter_length hn
  have hfits : q.n * j + q.n ≤ 64 := by
    obtain h | h := hn <;> rw [h] at hj ⊢ <;> omega
  have hline : (s.writeAt q.loc (s.lineAfter q)).bytes q.loc 64 = s.lineAfter q := by
    have hput := bytes_putAt (s := s) (loc := q.loc) (bs := s.lineAfter q) (.inl (by rw [hlen]; decide))
    rw [hlen] at hput
    rw [writeAt, bytes_of_mem_eq (countRun_mem ..), hput]
  rw [← bytes_slice _ hfits, hline, lineAfter, flatMap_range_slice (fun j => leBytes_length ..) hj, bytes_slice _ hfits]

end
end State

open State

/-- Settles O18: the element's function, the probe of the range, and one line at a time. -/
theorem bankOperations : Obligations.BankOperations := by
  unfold Obligations.BankOperations
  refine ⟨fun sg w m b hw hm hb => ?integers, fun sg m b hm hb => ?floats, fun s pfx ty fn d a b => ⟨fun loc => ?issue, fun q hq => ?line⟩⟩
  case integers =>
    intro val new
    have hval {x : Nat} (hx : x < 2 ^ w) : readInt w sg x = val x := readInt_eq sg hx
    refine ⟨rfl, ?_, ?_, atomNew_and (e := 0) sg hb, atomNew_or (e := 0) sg hm hb,
      atomNew_xor (e := 0) sg hm hb, Nat.mod_eq_of_lt hb⟩
    · rw [← hval hm, ← hval hb]
      exact bankNew_min sg hm hb
    · rw [← hval hm, ← hval hb]
      exact bankNew_max sg hm hb
  case floats =>
    intro x y new below
    have hbelow (u v : Val) : u.lt true v = true ↔ below u v := lt_signed_zero u v
    refine ⟨rfl, bankNew_float_nan sg 32, fun hx hy => ⟨rfl, ?_⟩⟩
    have hmin := bankNew_float_min (m := m) (b := b) sg 32 hx hy
    have hmax := bankNew_float_max (m := m) (b := b) sg 32 hx hy
    refine ⟨fun h => ?_, fun h => ?_, fun h => ?_, fun h => ?_⟩
    · exact hmin.trans (if_pos ((hbelow y x).2 h))
    · exact hmin.trans (if_neg fun hlt => h ((hbelow y x).1 hlt))
    · exact hmax.trans (if_pos ((hbelow x y).2 h))
    · exact hmax.trans (if_neg fun hlt => h ((hbelow x y).1 hlt))
  case issue =>
    intro hspace halign hlen hfits hlines
    have hsent := clearedAndRetired (Translated.refl s s.cur)
    have hregs := hsent.regs (.refl s _)
    have hcommits := hsent.commits
    have hunits : (s.clearR s.cur).retire.units = (s.clearR s.cur).units := by rw [hsent.rest]
    have hsame := sameMemory_of_eq hsent.mem hsent.gmeta
    by_cases hnone : (s.sr d).toNat = 0
    · exact ⟨_, exec_bankop_of_empty hspace halign hlen hfits hnone, hregs, hcommits, hsent.others, hsame, hunits,
        fun _ => hsent.pend, fun hsome => absurd hnone hsome⟩
    · have hfirst := (hlines 0 (by omega)).1
      rw [padd_of_eq_zero (s.sr a) (by simp)] at hfirst
      refine ⟨_, exec_bankop_of_lines hspace halign hlen hfits hnone hfirst (probeLines_of_lines hlines), hregs, hcommits,
        hsent.others, hsame, hunits, fun h => absurd h hnone, fun _ => ⟨_, by rw [push_pend, hsent.pend], rfl, rfl, rfl, rfl, ?_, ?_, ?_, ?_⟩⟩
      · cases ty <;> rfl
      · refine lowBytes_toNat ?_ _
        cases ty <;> decide
      · cases ty <;> rfl
      · cases ty <;> rfl
  case line =>
    refine ⟨fun hleft => ?_, fun hleft hn hread => ?_⟩
    · rw [exec_bankopLineApply hq, bankopLineApply, if_pos hleft]
    · refine ⟨_, (exec_bankopLineApply hq).trans (congrArg _ (bankopLineApply_of_readable hleft hread)), fun j hj => ?_, fun y hy => ?_, ?_, fun hmore => ?_⟩
      · rw [bytes_of_mem_eq (push_mem ..)]
        exact bytes_lineAfter hn hj
      · rw [byte_of_mem_eq (push_mem ..), writeAt, byte_of_mem_eq (countRun_mem ..)]
        exact byte_putAt_of_not_stores (by rwa [lineAfter_length hn])
      · rw [push_cores, writeAt_rest]
      · rw [if_neg (by omega)]
        exact List.mem_append_right _ (List.mem_singleton_self _)

end Sys2Proof.Machine
end

