-- ==== Sys2Proof/Proofs/GranuleTags.lean ====
section
/-! TAGST, TAGST.Z and TAGLD (R191, R192): one granule, the granules of a range, and the instructions. -/

namespace Sys2Proof.Machine

open Sys2Proof

/-! ### The fields that TAGLD reads (R192) -/

/-- The low eleven bits of a granule's metadata are its tag, F, W and D. -/
theorem fields_of_meta (m : BitVec 12) :
    let w := BitVec.ofNat 64 (m.toNat % 2 ^ 11)
    fld w 0 8 = (metaTag m).toNat ∧ bitOf w 8 = metaF m ∧ bitOf w 9 = metaW m ∧ bitOf w 10 = metaD m ∧ fld w 11 53 = 0 := by
  have hm := m.isLt
  simp only [fld, bitOf, metaTag, metaF, metaW, metaD, BitVec.toNat_ofNat, Nat.testBit_eq_decide_div_mod_eq]
  refine ⟨by omega, ?_, ?_, ?_, by omega⟩ <;> congr 2 <;> omega

/-- What TAGST and TAGST.Z make of a granule's metadata (R191). -/
def retagged (tag : Byte) (zero : Bool) (m : BitVec 12) : BitVec 12 :=
  if zero then mkMeta true false false tag else mkMeta true (metaW m) (metaF m) tag

theorem retagged_retagged (tag : Byte) (zero : Bool) (m : BitVec 12) :
    retagged tag zero (retagged tag zero m) = retagged tag zero m := by
  cases zero <;> simp [retagged]

namespace State

/-! ### One granule (R191) -/

theorem retag_rest (s : State) (g : Nat) (tag : Byte) (zero : Bool) :
    s.retag g tag zero = { s with
      mem := (s.retag g tag zero).mem, units := (s.retag g tag zero).units, ctxs := (s.retag g tag zero).ctxs,
      gmeta := (s.retag g tag zero).gmeta, written := (s.retag g tag zero).written, ckpt := (s.retag g tag zero).ckpt,
      poison := (s.retag g tag zero).poison, pend := (s.retag g tag zero).pend } := by
  cases zero with
  | false => rfl
  | true =>
    unfold retag storeBytes taintCtxs
    dsimp only
    rw [if_pos rfl, noteWrite_rest, landBytes_rest]
    rfl

theorem metaAt_retag (s : State) (g h : Nat) (tag : Byte) (zero : Bool) :
    (s.retag g tag zero).metaAt h = if h = g then retagged tag zero (s.metaAt g) else s.metaAt h := by
  cases zero with
  | false =>
    change (putMeta _ g (mkMeta true (metaW (s.metaAt g)) (metaF (s.metaAt g)) tag)).metaAt h = _
    rw [metaAt_putMeta]
    rfl
  | true =>
    have hstored (k : Nat) : (s.storeBytes (32 * g) (List.replicate 32 0)).metaAt k = s.metaAt k :=
      metaAt_of_gmeta_eq (by unfold storeBytes taintCtxs; rw [landBytes_rest]) k
    have hnoted (k : Nat) := metaAt_noteWrite (s.storeBytes (32 * g) (List.replicate 32 0)) g k false
    change (putMeta { (s.storeBytes (32 * g) (List.replicate 32 0)).noteWrite g false with ckpt := _ } g _).metaAt h = _
    rw [metaAt_putMeta]
    split
    case isTrue hg =>
      have hsame := hnoted g
      rw [if_pos rfl] at hsame
      simp only [retagged, if_true, hsame, metaW_mkMeta, metaF_mkMeta]
    case isFalse hg =>
      refine (hnoted h).trans ?_
      rw [if_neg hg, hstored]

/-- TAGST.Z writes zeros, and the other changes no byte. -/
theorem retag_mem (s : State) (g : Nat) (tag : Byte) (zero : Bool) :
    (s.retag g tag zero).mem = if zero then (s.putAt (32 * g) (List.replicate 32 0)).mem else s.mem := by
  cases zero with
  | false => rfl
  | true =>
    have hnoted : (s.retag g tag true).mem = ((s.storeBytes (32 * g) (List.replicate 32 0)).noteWrite g false).mem := rfl
    rw [hnoted, noteWrite_mem, putAt, markWrite_mem]
    rfl

theorem byte_retag_of_not_stores {s : State} {g y : Nat} (tag : Byte) (zero : Bool) (h : ¬ s.Stores (32 * g) 32 y) :
    (s.retag g tag zero).byte y = s.byte y := by
  have hmem := s.retag_mem g tag zero
  cases zero with
  | false => exact byte_of_mem_eq hmem y
  | true => exact (byte_of_mem_eq hmem y).trans (byte_putAt_of_not_stores h)

theorem byte_retag_same (s : State) {g y : Nat} (tag : Byte) (h : y / 32 = g) : (s.retag g tag true).byte y = 0 := by
  have hline : (s.putAt (32 * g) (List.replicate 32 0)).bytes (32 * g) 32 = List.replicate 32 0 :=
    bytes_putAt (bs := List.replicate 32 0) (.inl (by decide))
  have hget := (s.putAt (32 * g) (List.replicate 32 0)).bytes_getD (32 * g) 32 (y % 32) (by omega)
  have hy : 32 * g + y % 32 = y := by omega
  rw [hline, hy] at hget
  rw [byte_of_mem_eq (s.retag_mem g tag true)]
  refine hget.symm.trans ?_
  rw [List.getD_replicate (h := by omega)]

/-- Where a byte is zero, zeroing leaves it so. -/
theorem byte_retag_of_zero {s : State} {y : Nat} (g : Nat) (tag : Byte) (h : s.byte y = 0) : (s.retag g tag true).byte y = 0 := by
  have hzero (k : Nat) : (List.replicate 32 (0 : Byte)).getD k 0 = 0 := by
    by_cases hk : k < 32
    · rw [List.getD_replicate (h := hk)]
    · rw [List.getD_eq_default _ _ (by rw [List.length_replicate]; omega)]
  have hput : (s.putBytes (32 * g) (List.replicate 32 0)).byte y = 0 := by
    rw [byte_putBytes, hzero, h, ite_self]
  rw [byte_of_mem_eq (s.retag_mem g tag true)]
  change (s.putAt (32 * g) (List.replicate 32 0)).byte y = 0
  rcases byte_putAt_cases s (32 * g) (List.replicate 32 0) with hb | ⟨m, -, -, hb⟩
  · rw [hb, hput]
  · rw [hb, hput, hzero, ite_self]

/-! ### The granules of a range -/

/-- Each of some granules retagged. -/
def retags (s : State) (gs : List Nat) (tag : Byte) (zero : Bool) : State := gs.foldl (fun t g => t.retag g tag zero) s

theorem retags_cons (s : State) (g : Nat) (gs : List Nat) (tag : Byte) (zero : Bool) :
    s.retags (g :: gs) tag zero = (s.retag g tag zero).retags gs tag zero := rfl

theorem retags_rest (s : State) (gs : List Nat) (tag : Byte) (zero : Bool) :
    s.retags gs tag zero = { s with
      mem := (s.retags gs tag zero).mem, units := (s.retags gs tag zero).units, ctxs := (s.retags gs tag zero).ctxs,
      gmeta := (s.retags gs tag zero).gmeta, written := (s.retags gs tag zero).written, ckpt := (s.retags gs tag zero).ckpt,
      poison := (s.retags gs tag zero).poison, pend := (s.retags gs tag zero).pend } := by
  induction gs generalizing s with
  | nil => rfl
  | cons g gs ih => rw [retags_cons, ih, retag_rest]

theorem metaAt_retags (s : State) (gs : List Nat) (tag : Byte) (zero : Bool) (h : Nat) :
    (s.retags gs tag zero).metaAt h = if h ∈ gs then retagged tag zero (s.metaAt h) else s.metaAt h := by
  induction gs generalizing s with
  | nil => rfl
  | cons g gs ih =>
    rw [retags_cons, ih, metaAt_retag]
    by_cases hg : h = g
    · subst hg
      simp [retagged_retagged]
    · simp [hg]

theorem byte_retags_of_not_stores {s : State} {gs : List Nat} {y : Nat} (tag : Byte) (zero : Bool)
    (h : ∀ g ∈ gs, ¬ s.Stores (32 * g) 32 y) : (s.retags gs tag zero).byte y = s.byte y := by
  induction gs generalizing s with
  | nil => rfl
  | cons g gs ih =>
    obtain ⟨hg, hgs⟩ := List.forall_mem_cons.1 h
    have hmoves : (s.retag g tag zero).moves = s.moves := by rw [retag_rest]
    rw [retags_cons, ih fun k hk => ?_, byte_retag_of_not_stores tag zero hg]
    unfold Stores at *
    rw [hmoves]
    exact hgs k hk

theorem byte_retags_of_tags (s : State) (gs : List Nat) (tag : Byte) (y : Nat) : (s.retags gs tag false).byte y = s.byte y := by
  induction gs generalizing s with
  | nil => rfl
  | cons g gs ih => rw [retags_cons, ih, byte_of_mem_eq (s.retag_mem g tag false)]

theorem byte_retags_of_zero {s : State} {y : Nat} (gs : List Nat) (tag : Byte) (h : s.byte y = 0) : (s.retags gs tag true).byte y = 0 := by
  induction gs generalizing s with
  | nil => exact h
  | cons g gs ih => exact ih (byte_retag_of_zero g tag h)

theorem byte_retags_of_mem {s : State} {gs : List Nat} {y : Nat} (tag : Byte) (h : y / 32 ∈ gs) : (s.retags gs tag true).byte y = 0 := by
  induction gs generalizing s with
  | nil => cases h
  | cons g gs ih =>
    rw [retags_cons]
    by_cases hg : y / 32 = g
    · exact byte_retags_of_zero gs tag (byte_retag_same s tag hg)
    · exact ih ((List.mem_cons.1 h).resolve_left hg)

/-! ### The instructions -/

section
variable {s : State} {va : Word} {len : Nat} {tag : Byte} {zero : Bool} (hspace : tagSpace va = true) (halign : va.toNat % 32 = 0)
  (hlen : len % 32 = 0)

include hspace halign hlen

theorem tagRange_of_empty (hnone : len = 0) : s.tagRange va len tag zero = s.retire := by
  have hfits : ¬ (65536 < len ∨ (len ≠ 0 ∧ 65536 < va.toNat % 65536 + len)) := by omega
  have hgranules : ¬ (va.toNat % 32 ≠ 0 ∨ len % 32 ≠ 0) := by omega
  unfold tagRange
  dsimp only
  rw [hspace, if_neg (by decide), if_neg hgranules, if_neg hfits, if_pos hnone]

theorem tagRange_of_pieces {place : Place} {ps : List (Nat × Nat)} (hsome : len ≠ 0) (hfits : va.toNat % 65536 + len ≤ 65536)
    (ht : s.translate (s.issuer s.cur .c) va len true false = .ok place)
    (hps : s.tagPieces (s.issuer s.cur .c) (unitPieces va 17 len) = .ok ps) :
    s.tagRange va len tag zero =
      (((s.useTlb va).countPieces ps).retags (ps.flatMap fun p => granules p.1 p.2) tag zero).retire := by
  have hfits' : ¬ (65536 < len ∨ (len ≠ 0 ∧ 65536 < va.toNat % 65536 + len)) := by omega
  have hgranules : ¬ (va.toNat % 32 ≠ 0 ∨ len % 32 ≠ 0) := by omega
  unfold tagRange
  dsimp only
  rw [hspace, if_neg (by decide), if_neg hgranules, if_neg hfits', if_neg hsome, ht, hps, retags, List.foldl_flatMap]

end

/-- What the retagging of a range, and the commit after it, leave. -/
theorem retags_after {s s1 v t : State} {gs : List Nat} {tag : Byte} {zero : Bool} (htr : Translated s s1 s.cur)
    (hv : v = { s1 with acnt := v.acnt }) (ht : t = (v.retags gs tag zero).retire) :
    (∀ g, t.metaAt g = if g ∈ gs then retagged tag zero (s.metaAt g) else s.metaAt g) ∧
      (∀ y, (∀ g ∈ gs, ¬ s.Stores (32 * g) 32 y) → t.byte y = s.byte y) ∧
      (zero = false → ∀ y, t.byte y = s.byte y) ∧ (zero = true → ∀ y, y / 32 ∈ gs → t.byte y = 0) ∧
      RegsSame s.me t.me [] ∧ CommitsAt s1.me t.me s.me.npc 0 ∧ OthersSame s t s.cur := by
  have hstore : s.SameStore v := htr.sameStore.trans (sameStore_of_rest (by rw [hv]))
  have hcommits := (v.retags gs tag zero).retire_commits
  obtain ⟨-, -, hbyte, hmeta⟩ := hcommits.only
  rw [← ht] at hcommits hbyte hmeta
  refine ⟨fun g => ?_, fun y hy => ?_, fun hz y => ?_, fun hz y hy => ?_,
    htr.commits (by rw [retags_rest, hv]) (by rw [retags_rest, hv, htr.cur]) hcommits⟩
  · rw [hmeta, metaAt_retags, hstore.sameMemory.2]
  · rw [hbyte, byte_retags_of_not_stores tag zero fun g hg hs => hy g hg ?_, hstore.sameMemory.1]
    unfold Stores at *
    rwa [hstore.moves] at hs
  · rw [hbyte, hz, byte_retags_of_tags, hstore.sameMemory.1]
  · rw [hbyte, hz, byte_retags_of_mem tag hy]

end State

open State

/-- Settles O22: the granules of the pieces are retagged one after another. -/
theorem granuleTags : Obligations.GranuleTags := by
  unfold Obligations.GranuleTags
  intro s pfx d a b va i len tag s1
  have htagst : exec (.tagst pfx d a b) s = .next (s.tagRange va len tag false) := rfl
  have htagstZ : exec (.tagstZ pfx d a b) s = .next (s.tagRange va len tag true) := rfl
  have htr := translated_useTlb s va
  refine ⟨fun hspace halign hlen hnone => ?empty, fun place ps hspace halign hlen hsome hfits ht hps => ?pieces, fun loc ht => ?load⟩
  case empty =>
    rw [htagst, htagstZ, tagRange_of_empty hspace halign hlen hnone, tagRange_of_empty hspace halign hlen hnone]
    exact ⟨⟨_, rfl, s.retire_commits⟩, _, rfl, s.retire_commits⟩
  case pieces =>
    intro Touched
    have htouched (g : Nat) : g ∈ ps.flatMap (fun p => granules p.1 p.2) ↔ Touched g := List.mem_flatMap
    rw [htagst, htagstZ, tagRange_of_pieces hspace halign hlen hsome hfits ht hps,
      tagRange_of_pieces hspace halign hlen hsome hfits ht hps]
    have hafter (zero : Bool) := retags_after (zero := zero) (tag := tag) (gs := ps.flatMap fun p => granules p.1 p.2) htr
      (s1.countPieces_rest ps) rfl
    obtain ⟨hmeta, -, hbyte, -, hregs, hcommits, hothers⟩ := hafter false
    obtain ⟨hmetaZ, hrestZ, -, hbyteZ, hregsZ, hcommitsZ, hothersZ⟩ := hafter true
    refine ⟨⟨_, rfl, hbyte rfl, fun g hg => ?_, fun g hg => ?_, hregs, hcommits, hothers⟩,
      _, rfl, fun y hy => hbyteZ rfl y ((htouched _).2 hy), fun y hy => hrestZ y fun g hg => hy g ((htouched g).1 hg), fun g hg => ?_,
      fun g hg => ?_, hregsZ, hcommitsZ, hothersZ⟩
    · exact (hmeta g).trans (if_pos ((htouched g).2 hg))
    · exact (hmeta g).trans (if_neg fun hmem => hg ((htouched g).1 hmem))
    · exact (hmetaZ g).trans (if_pos ((htouched g).2 hg))
    · exact (hmetaZ g).trans (if_neg fun hmem => hg ((htouched g).1 hmem))
  case load =>
    have hload : exec (.tagld pfx d a) s = .next (((s.countUnit loc).useTlb va).answer d
        (BitVec.ofNat 64 ((s.metaSeen (loc / 32)).toNat % 2 ^ 11))) := by
      change execTagld pfx d a s = _
      unfold execTagld
      dsimp only
      rw [ht]
    obtain ⟨htag, hf, hw, -⟩ := s.metaSeen_fields (loc / 32)
    obtain ⟨h0, h8, h9, h10, h11⟩ := fields_of_meta (s.metaSeen (loc / 32))
    refine ⟨_, hload, answer_commits .., fun hd => ?_⟩
    rw [answer_sr, if_neg hd, ← htag, ← hf, ← hw]
    exact ⟨h0, h8, h9, h10, h11⟩

end Sys2Proof.Machine
end

