-- ==== Sys2Proof/Proofs/ParkTables.lean ====
section
/-! Park tables (R188): an entry installed or taken away, and what stands in the reserved regions then (R46). -/

namespace Sys2Proof.Machine

open Sys2Proof

namespace BeadUnit

@[simp] theorem hit_park (x : BeadUnit) (us : List Nat) : (x.hit us).park = x.park := rfl
@[simp] theorem hit_parkSeq (x : BeadUnit) (us : List Nat) : (x.hit us).parkSeq = x.parkSeq := rfl
@[simp] theorem wroteAt_park (x : BeadUnit) (gs : List Nat) : (x.wroteAt gs).park = x.park := rfl
@[simp] theorem wroteAt_parkSeq (x : BeadUnit) (gs : List Nat) : (x.wroteAt gs).parkSeq = x.parkSeq := rfl

end BeadUnit

namespace State

/-! ### A unit's lists changed -/

theorem putLists_rest (s : State) (u : Nat) (x : BeadUnit) : s.putLists u x = { s with units := (s.putLists u x).units } := rfl

theorem unitAt_putLists_of_ne (s : State) {u v : Nat} (x : BeadUnit) (h : v ≠ u) : (s.putLists u x).unitAt v = s.unitAt v := by
  rw [putLists, unitAt_putUnit, if_neg h]

theorem unitAt_putLists_park (s : State) (u : Nat) (x : BeadUnit) (v : Nat) :
    ((s.putLists u x).unitAt v).park = if v = u then x.park else (s.unitAt v).park := by
  rw [putLists, unitAt_putUnit]
  split <;> rfl

/-- Changing the park entries alone leaves the rods and the overflow lists. -/
theorem unitAt_putLists_rods (s : State) (u : Nat) {x : BeadUnit} (h : x.rods = (s.unitAt u).rods) (v : Nat) :
    ((s.putLists u x).unitAt v).rods = (s.unitAt v).rods := by
  rw [putLists, unitAt_putUnit]
  split
  case isTrue hv => rw [hv, ← h]; rfl
  · rfl

theorem unitAt_putLists_overflow (s : State) (u : Nat) {x : BeadUnit} (h : x.overflow = (s.unitAt u).overflow) (v : Nat) :
    ((s.putLists u x).unitAt v).overflow = (s.unitAt v).overflow := by
  rw [putLists, unitAt_putUnit]
  split
  case isTrue hv => rw [hv, ← h]; rfl
  · rfl

/-! ### The reserved regions (R46) -/

theorem reservedAt_congr {s t : State} (hs : t.sys = s.sys) (hr : t.ringBase = s.ringBase) (pa : Nat) :
    t.reservedAt pa = s.reservedAt pa := by
  cases s; cases t
  dsimp only at hs hr
  subst hs hr
  rfl

theorem homeLoc_congr {s t : State} (hs : t.sys = s.sys) (loc : Nat) : t.homeLoc loc = s.homeLoc loc := by
  cases s; cases t
  dsimp only at hs
  subst hs
  rfl

/-- What stands in the reserved regions: the records of the rods, the entries of the spill lists, those of the overflow lists. -/
theorem reservedBytes_of_lists {s t : State} (hs : t.sys = s.sys) (hr : t.ringBase = s.ringBase)
    (hrods : ∀ u, (t.unitAt u).rods = (s.unitAt u).rods) (hover : ∀ u, (t.unitAt u).overflow = (s.unitAt u).overflow)
    (hspill : ∀ u n, (t.unitAt u).park.find? (fun e => e.spill == some n) = (s.unitAt u).park.find? fun e => e.spill == some n)
    (loc : Nat) : t.reservedBytes loc = s.reservedBytes loc := by
  have hslot (b : SlotId) : t.slotAt b = s.slotAt b := by
    unfold slotAt
    rw [rodAt_of_unitAt_eq (hrods b.unit)]
  have hwords (e : ParkEntry) : t.parkWords e = s.parkWords e := by
    unfold parkWords slotAddr
    rw [hr]
  have himage (r : Reserved) : t.reservedImage r = s.reservedImage r := by
    cases r with
    | slot b k => simp only [reservedImage, hslot]
    | spill u n k => simp only [reservedImage, hspill, hwords]
    | overflow u n k => simp only [reservedImage, hover]
  unfold reservedBytes
  rw [homeLoc_congr hs, reservedAt_congr hs hr, funext himage]

/-! ### One entry (R185, R188) -/

/-- An entry of the table proper, for a test under way. -/
def testEntry (s : State) (granule : Nat) (world : Bool) (b : SlotId) : ParkEntry :=
  { granule := granule, world := world, slot := b, seq := (s.unitAt b.unit).parkSeq, waiting := true, marked := false, spill := none }

/-- A table with room takes the entry. -/
theorem installPark_of_room {s : State} {b : SlotId} (granule : Nat) (world : Bool) (h : (s.unitAt b.unit).tableCount < 1024) :
    s.installPark b.unit granule world b = some (s.putLists b.unit { s.unitAt b.unit with
      park := (s.unitAt b.unit).park ++ [s.testEntry granule world b], parkSeq := ((s.unitAt b.unit).parkSeq + 1) % 2 ^ 24 }) :=
  if_pos h

theorem removePark_rest (s : State) (b : SlotId) : s.removePark b = { s with units := (s.removePark b).units } := rfl

theorem removePark_park (s : State) (b : SlotId) :
    ((s.removePark b).unitAt b.unit).park = (s.unitAt b.unit).park.filter fun e => e.slot != b := by
  rw [removePark, unitAt_putLists_park, if_pos rfl]

end State
end Sys2Proof.Machine
end

