-- ==== Sys2Proof/Proofs/FutureTests.lean ====
section
/-! LDF and PARK (R185, R187, R188): the issue of a test, and a test that holds. -/

namespace Sys2Proof.Machine

open Sys2Proof

theorem not_steward_of_lt {k : Nat} (h : k < 416) : isSteward k = false := by
  simp [isSteward]
  omega

theorem testHolds_ldf (d : Nat) (full : Bool) (v : Nat) : testHolds (.ldf d) full v = full := rfl
theorem testHolds_full (full : Bool) (v : Nat) : testHolds .full full v = full := rfl
theorem testHolds_zero (full : Bool) (v : Nat) : testHolds .zero full v = (v == 0) := rfl

/-- The register that a test writes when it holds. -/
def testWrites : TestFor → List (File × Nat)
  | .ldf d => [(.s, d)]
  | _ => []

namespace State

/-! ### The issue of a test (R185, R188) -/

/-- The state in which a bead's entry has been installed. -/
def tested (s : State) (granule : Nat) (b : SlotId) : State :=
  s.putLists b.unit { s.unitAt b.unit with
    park := (s.unitAt b.unit).park ++ [s.testEntry granule s.me.world b], parkSeq := ((s.unitAt b.unit).parkSeq + 1) % 2 ^ 24 }

theorem issueTest_of_placed {s : State} {va : Word} {test : TestFor} {place : Place} {loc : Nat} {b : SlotId} (hk : s.cur < 416)
    (hb : s.me.bead = some b) (hroom : (s.unitAt b.unit).tableCount < 1024)
    (hp : s.cellPlace (s.issuer s.cur .c) va false = .ok place) (hbegins : Begins place loc) :
    s.issueTest va test = ((s.tested (s.granuleKey (loc / 32)) b).useTlb va).push
      [.testAndRegisterReply { core := s.cur, pc := s.me.pc, va := va, loc := loc, test := test }] := by
  have hsteward := not_steward_of_lt hk
  obtain rfl | ⟨k, next, rfl⟩ := hbegins <;>
    simp only [issueTest, hp, hb, hsteward, Bool.false_eq_true, if_false, installPark_of_room _ _ hroom] <;> rfl

section
variable (s : State) (granule : Nat) (b : SlotId)

theorem tested_rest : s.tested granule b = { s with units := (s.tested granule b).units } := rfl

theorem tested_park : ((s.tested granule b).unitAt b.unit).park = (s.unitAt b.unit).park ++ [s.testEntry granule s.me.world b] := by
  rw [tested, unitAt_putLists_park, if_pos rfl]

/-- An entry of the table proper stands in no reserved region. -/
theorem tested_reservedBytes (loc : Nat) : (s.tested granule b).reservedBytes loc = s.reservedBytes loc := by
  refine reservedBytes_of_lists (s := s) (t := s.tested granule b) rfl rfl (unitAt_putLists_rods s b.unit ?_)
    (unitAt_putLists_overflow s b.unit ?_) (fun u n => ?_) loc
  · rfl
  · rfl
  rw [tested, unitAt_putLists_park]
  split
  case isTrue hu =>
    rw [hu, List.find?_append]
    exact Option.or_none
  · rfl

end

/-! ### The translation at the issue -/

/-- A translation finds what it would find with other units. -/
theorem walkEntry_congr {s t : State} (h : t = { s with units := t.units }) (i : Issuer) (va : Word) :
    t.walkEntry i va = s.walkEntry i va := by
  have hwalk (world : Bool) (a : Nat) : t.walk world a = s.walk world a := walk_congr (by rw [h]) (by rw [h]) world a
  have hwalks : t.walks i va = s.walks i va := by rw [h]; rfl
  simp only [walkEntry, hwalk, hwalks]

/-- The cores after an access are those after the same access with other units. -/
theorem coreAt_useTlb_congr {s t : State} (h : t = { s with units := t.units }) (va : Word) (j : Nat) :
    (t.useTlb va).coreAt j = (s.useTlb va).coreAt j := by
  have hcur : t.cur = s.cur := by rw [h]
  have hat (k : Nat) : t.coreAt k = s.coreAt k := by rw [h]; rfl
  have htrt := translated_useTlb t va
  have htrs := translated_useTlb s va
  by_cases hj : j = s.cur
  · have hissuer : t.issuer t.cur .c = s.issuer s.cur .c := by
      rw [hcur]
      exact issuer_congr (by rw [hat]) (by rw [hat]) (by rw [h]) (by rw [h]) (by rw [h]) .c
    have htlbt := tlb_useTlb t va
    have htlbs := tlb_useTlb s va
    rw [hissuer, walkEntry_congr h, me_eq, me_eq, htrt.cur, hcur, hat] at htlbt
    rw [me_eq, me_eq, htrs.cur] at htlbs
    have hcoret := htrt.core
    rw [hcur, hat, htlbt] at hcoret
    rw [hj, hcoret, htrs.core, htlbs]
  · rw [htrt.others j (by rwa [hcur]), htrs.others j hj, hat]

/-! ### A test that holds (R185) -/

theorem testAndRegisterReply_of_holds {s : State} {q : TestReq} (hc : s.spanCheck (s.issuer q.core .c) q.va q.loc 8 true = .ok ())
    (hholds : testHolds q.test (metaF (s.metaAt (q.loc / 32))) (leNat (s.spanLook q.loc 8)) = true) :
    s.testAndRegisterReply q =
      (s.spanCount q.loc 8).testPassed q.core q.test (BitVec.ofNat 64 (leNat (s.spanLook q.loc 8))) := by
  simp [testAndRegisterReply, hc, hholds]

theorem testPassed_commits {s : State} {b : SlotId} (hb : (s.coreAt s.cur).bead = some b) (test : TestFor) (v : Word) :
    Commits (s.removePark b) (s.testPassed s.cur test v) (testWrites test) 0 ∧
      ∀ d, (File.s, d) ∈ testWrites test → (s.testPassed s.cur test v).sr d = if d = 0 then 0 else v := by
  unfold testPassed
  rw [hb]
  cases test with
  | ldf d =>
    refine ⟨answer_commits (s.removePark b) d v, fun e he => ?_⟩
    obtain ⟨-, rfl⟩ := Prod.mk.inj (List.mem_singleton.1 he)
    exact answer_sr (s.removePark b) e v
  | full => exact ⟨retire_commits (s.removePark b), fun e he => nomatch he⟩
  | zero => exact ⟨retire_commits (s.removePark b), fun e he => nomatch he⟩

/-- The reply of a test that holds, after its issue. -/
theorem testAndRegisterReply_after {s w : State} {q : TestReq} {b : SlotId} {granule : Nat} (hb : s.me.bead = some b)
    (hw : w = { (s.tested granule b).useTlb q.va with pend := w.pend, msg := w.msg }) (hcore : q.core = s.cur)
    (hc : s.spanCheck (s.issuer s.cur .c) q.va q.loc 8 true = .ok ())
    (hholds : testHolds q.test (metaF (s.metaAt (q.loc / 32))) (leNat (s.spanLook q.loc 8)) = true) :
    let u := w.testAndRegisterReply q
    RegsSame s.me u.me (testWrites q.test) ∧ CommitsAt (s.useTlb q.va).me u.me s.me.npc 0 ∧ OthersSame s u s.cur ∧ SameMemory s u ∧
      (u.unitAt b.unit).park = (s.unitAt b.unit).park.filter (fun e => e.slot != b) ∧
      ∀ d, (File.s, d) ∈ testWrites q.test → u.sr d = if d = 0 then 0 else BitVec.ofNat 64 (leNat (s.spanLook q.loc 8)) := by
  intro u
  have htr := translated_useTlb s q.va
  have htrp := translated_useTlb (s.tested granule b) q.va
  have hrest : w = { s with cores := w.cores, acnt := w.acnt, units := (s.tested granule b).units, pend := w.pend, msg := w.msg } := by
    rw [hw, htrp.rest]
    rfl
  have hstore : s.SameStore w := sameStore_of_rest (by rw [hrest])
  have hcur : w.cur = s.cur := by rw [hrest]
  have hat (j : Nat) : w.coreAt j = (s.useTlb q.va).coreAt j := by
    rw [← coreAt_useTlb_congr (s.tested_rest granule b), hw]
    rfl
  have hme : w.coreAt s.cur = (s.useTlb q.va).me := by rw [hat, ← htr.cur, me_eq]
  have hbead : (w.coreAt s.cur).bead = some b := by rw [hme, htr.me rfl, ← hb]
  have hworld : (w.coreAt s.cur).world = (s.coreAt s.cur).world := by
    rw [hme, htr.me rfl]
    rfl
  have hissuer : w.issuer s.cur .c = s.issuer s.cur .c := issuer_congr hworld (by rw [hbead, ← hb, me_eq])
    (by rw [hrest]) (by rw [hrest]) (by rw [hrest]) .c
  have hlook : w.spanLook q.loc 8 = s.spanLook q.loc 8 := by
    refine spanLook_congr hstore (fun loc => ?_) ..
    rw [← s.tested_reservedBytes granule b]
    exact reservedBytes_congr (by rw [hrest]) (by rw [hrest]; rfl) (by rw [hrest]; rfl) loc
  have hreply := testAndRegisterReply_of_holds (s := w) (q := q) (by rw [hcore, hissuer, hstore.spanCheck, hc])
    (by rw [hlook, hstore.sameMemory.2, hholds])
  rw [hcore, hlook] at hreply
  generalize hv : w.spanCount q.loc 8 = v at hreply
  have hvrest : v = { w with acnt := v.acnt } := by rw [← hv, spanCount, countPieces_rest]
  have hvcur : v.cur = s.cur := by rw [hvrest, hcur]
  have hvbead : (v.coreAt v.cur).bead = some b := by rw [hvcur, hvrest]; exact hbead
  obtain ⟨hcommits, hsr⟩ := testPassed_commits hvbead q.test (BitVec.ofNat 64 (leNat (s.spanLook q.loc 8)))
  rw [hvcur, ← hreply] at hcommits hsr
  obtain ⟨hregs, hcommit, hothers⟩ := htr.commits_at (v := v.removePark b) (fun j => by rw [← hat j, removePark_rest, hvrest]; rfl)
    hvcur hcommits
  obtain ⟨honly, -, hmem⟩ := hcommits.only
  have hsame : SameMemory s (v.removePark b) := (hstore.trans (sameStore_of_rest (by rw [removePark_rest, hvrest]))).sameMemory
  refine ⟨hregs, hcommit, hothers, hsame.trans hmem, ?_, hsr⟩
  have hpark : ((w.testAndRegisterReply q).unitAt b.unit).park = ((v.removePark b).unitAt b.unit).park := by
    rw [unitAt_of_units_eq (s := v.removePark b) (by rw [honly])]
  have hv' : (v.unitAt b.unit).park = (s.unitAt b.unit).park ++ [s.testEntry granule s.me.world b] := by
    rw [← s.tested_park granule b, unitAt_of_units_eq (s := s.tested granule b) (by rw [hvrest, hrest])]
  refine hpark.trans ?_
  rw [removePark_park, hv', List.filter_append]
  simp [testEntry]

end State

open State

/-! ### The obligation -/

/-- LDF or PARK, its test holding. -/
theorem passes_of_issue {s : State} {i : Instr} {test : TestFor} {ea : Word} {loc : Nat} {place : Place} {b : SlotId}
    (hexec : exec i s = .next (s.issueTest ea test)) (hk : s.cur < 416) (hb : s.me.bead = some b)
    (hroom : (s.unitAt b.unit).tableCount < 1024) (hp : s.cellPlace (s.issuer s.cur .c) ea false = .ok place)
    (hbegins : Begins place loc) (hc : s.spanCheck (s.issuer s.cur .c) ea loc 8 true = .ok ())
    (hholds : testHolds test (metaF (s.metaAt (loc / 32))) (leNat (s.spanLook loc 8)) = true) :
    Answers (exec i s) fun t => ∃ q, t.pend = s.pend ++ [.testAndRegisterReply q] ∧ SameMemory s t ∧
      (∃ e, (t.unitAt b.unit).park = (s.unitAt b.unit).park ++ [e] ∧ e.granule = s.granuleKey (loc / 32) ∧
        e.slot = b ∧ e.world = s.me.world ∧ e.waiting = true ∧ e.seq = (s.unitAt b.unit).parkSeq) ∧
      Delivers t (.testAndRegisterReply q) fun u =>
        RegsSame s.me u.me (testWrites test) ∧ CommitsAt (s.useTlb ea).me u.me s.me.npc 0 ∧ OthersSame s u s.cur ∧ SameMemory s u ∧
        (u.unitAt b.unit).park = (s.unitAt b.unit).park.filter (fun e => e.slot != b) ∧
        ∀ d, (File.s, d) ∈ testWrites test → u.sr d = if d = 0 then 0 else BitVec.ofNat 64 (leNat (s.spanLook loc 8)) := by
  have htrp := translated_useTlb (s.tested (s.granuleKey (loc / 32)) b) ea
  rw [issueTest_of_placed hk hb hroom hp hbegins] at hexec
  have hunits : ((s.tested (s.granuleKey (loc / 32)) b).useTlb ea).units = (s.tested (s.granuleKey (loc / 32)) b).units := by
    rw [htrp.rest]
  have hpark := (congrArg BeadUnit.park (unitAt_of_units_eq hunits b.unit)).trans (s.tested_park (s.granuleKey (loc / 32)) b)
  have hreply (w : State) (hw : w = { (s.tested (s.granuleKey (loc / 32)) b).useTlb ea with pend := w.pend, msg := w.msg }) :=
    testAndRegisterReply_after (q := { core := s.cur, pc := s.me.pc, va := ea, loc := loc, test := test }) hb hw rfl hc hholds
  refine ⟨_, hexec, _, ?_, ?_, ⟨_, hpark, rfl, rfl, rfl, rfl, rfl⟩, _, rfl, hreply _ rfl⟩
  · rw [push_pend, htrp.rest]
    rfl
  · exact htrp.sameStore.sameMemory

/-- Settles O20: the entry goes again as its test holds. -/
theorem futureTests : Obligations.FutureTests := by
  unfold Obligations.FutureTests
  intro s pfx d a loc off place b ea s1 hk hb
  have hsteward := not_steward_of_lt hk
  have hpark (test : TestFor) : s.issuePark ea test = if s.me.inh then s.doubleTrap s.cur 0 else s.issueTest ea test :=
    notSteward_of_not_steward hsteward _
  have hexec : exec (.park pfx a off) s = .next (s.issuePark ea .full) := rfl
  have hexecZ : exec (.parkZ pfx a off) s = .next (s.issuePark ea .zero) := rfl
  refine ⟨fun hinh => ?handler, fun hroom hp hbegins hc => ?tests⟩
  case handler => 
    rw [hexec, hexecZ, hpark, hpark]
    exact ⟨congrArg _ (if_pos hinh), congrArg _ (if_pos hinh)⟩
  case tests =>
    intro Passes
    have passes {i : Instr} {test : TestFor} (hi : exec i s = .next (s.issueTest ea test))
        (hholds : testHolds test (metaF (s.metaAt (loc / 32))) (leNat (s.spanLook loc 8)) = true) : Passes i (testWrites test) := by
      obtain ⟨t, ht, q, hpend, hsame, hentry, u, hu, hregs, hcommits, hothers, hsame', hgone, hsr⟩ :=
        passes_of_issue hi hk hb hroom hp hbegins hc hholds
      exact ⟨t, ht, q, hpend, hsame, hentry, u, hu, hregs, hcommits, hothers, hsame', hgone, hsr d⟩
    have hfree (test : TestFor) (hinh : s.me.inh = false) : s.issuePark ea test = s.issueTest ea test := by
      rw [hpark, hinh, if_neg Bool.false_ne_true]
    refine ⟨fun hfull => ⟨passes (test := .ldf d) rfl ?_, fun hinh => passes (test := .full) ?_ ?_⟩,
      fun hzero hinh => passes (test := .zero) ?_ ?_⟩
    · exact (testHolds_ldf ..).trans hfull
    · rw [hexec, hfree .full hinh]
    · exact (testHolds_full ..).trans hfull
    · rw [hexecZ, hfree .zero hinh]
    · rw [testHolds_zero, hzero]
      rfl

end Sys2Proof.Machine
end

