-- ==== Sys2Proof/Proofs/Wakes.lean ====
section
/-! Wakes (R189): the order in which the beads of a table become ready, one slot, one table, and the tables of a granule. -/

namespace Sys2Proof.Machine

open Sys2Proof

/-! ### Ascending SEQ (R188) -/

theorem insertByAge_perm (now : Nat) (e : ParkEntry) (l : List ParkEntry) : (insertByAge now e l).Perm (e :: l) := by
  induction l with
  | nil => exact .refl _
  | cons x xs ih =>
    unfold insertByAge
    split
    · exact .refl _
    · exact (ih.cons x).trans (.swap e x xs)

theorem insertByAge_sorted (now : Nat) (e : ParkEntry) {l : List ParkEntry}
    (h : l.Pairwise fun a b => parkAge now b.seq ≤ parkAge now a.seq) :
    (insertByAge now e l).Pairwise fun a b => parkAge now b.seq ≤ parkAge now a.seq := by
  induction l with
  | nil => exact List.pairwise_singleton ..
  | cons x xs ih =>
    obtain ⟨hx, hxs⟩ := List.pairwise_cons.1 h
    unfold insertByAge
    split
    case isTrue hlt =>
      refine List.pairwise_cons.2 ⟨fun y hy => ?_, h⟩
      rcases List.mem_cons.1 hy with rfl | hy
      · exact hlt.le
      · exact (hx y hy).trans hlt.le
    case isFalse hge =>
      refine List.pairwise_cons.2 ⟨fun y hy => ?_, ih hxs⟩
      rcases List.mem_cons.1 ((insertByAge_perm now e xs).mem_iff.1 hy) with rfl | hy
      · exact Nat.le_of_not_lt hge
      · exact hx y hy

/-- The entries of a list by descending age. -/
def byAge (now : Nat) (l : List ParkEntry) : List ParkEntry := l.foldl (fun acc e => insertByAge now e acc) []

theorem foldl_insertByAge_perm (now : Nat) (l acc : List ParkEntry) :
    (l.foldl (fun acc e => insertByAge now e acc) acc).Perm (l ++ acc) := by
  induction l generalizing acc with
  | nil => exact .refl _
  | cons e l ih => exact (ih _).trans (((insertByAge_perm now e acc).append_left l).trans List.perm_middle)

theorem byAge_perm (now : Nat) (l : List ParkEntry) : (byAge now l).Perm l := by
  have h := foldl_insertByAge_perm now l []
  rwa [List.append_nil] at h

theorem byAge_sorted (now : Nat) (l : List ParkEntry) : (byAge now l).Pairwise fun a b => parkAge now b.seq ≤ parkAge now a.seq := by
  have hfold (acc : List ParkEntry) (hacc : acc.Pairwise fun a b => parkAge now b.seq ≤ parkAge now a.seq) :
      (l.foldl (fun acc e => insertByAge now e acc) acc).Pairwise fun a b => parkAge now b.seq ≤ parkAge now a.seq := by
    induction l generalizing acc with
    | nil => exact hacc
    | cons e l ih => exact ih _ (insertByAge_sorted now e hacc)
  exact hfold [] .nil

/-- Ages that differ leave one order. -/
theorem byAge_eq {now : Nat} {l es : List ParkEntry} (hl : l.Nodup) (hmem : ∀ e, e ∈ es ↔ e ∈ l)
    (hes : es.Pairwise fun a b => parkAge now b.seq < parkAge now a.seq) : byAge now l = es := by
  have hages : (es.map fun e => parkAge now e.seq).Nodup := List.pairwise_map.2 (hes.imp fun h => h.ne')
  have hesnd : es.Nodup := hages.of_map
  have hperm : (byAge now l).Perm es := (byAge_perm now l).trans ((List.perm_ext_iff_of_nodup hl hesnd).2 fun e => (hmem e).symm)
  refine hperm.eq_of_pairwise (fun a b ha hb hab hba => ?_) (byAge_sorted now l) (hes.imp fun h => h.le)
  exact List.inj_on_of_nodup_map hages (hperm.mem_iff.1 ha) hb (Nat.le_antisymm hba hab)

/-! ### What a wake takes of a table (R189) -/

namespace BeadUnit

/-- The entries that a wake of a granule makes ready, in their order. -/
def woken (x : BeadUnit) (key : Nat) : List ParkEntry := byAge x.parkSeq (x.park.filter fun e => e.granule == key && !e.waiting)

/-- The entries that it leaves, those of a test under way marked. -/
def unwoken (x : BeadUnit) (key : Nat) : List ParkEntry :=
  (x.park.filter fun e => e.granule != key || e.waiting).map fun e => if e.granule = key then { e with marked := true } else e

theorem mem_woken {x : BeadUnit} {key : Nat} {e : ParkEntry} :
    e ∈ x.woken key ↔ e ∈ x.park ∧ e.granule = key ∧ e.waiting = false := by
  rw [woken, (byAge_perm _ _).mem_iff, List.mem_filter]
  simp

theorem slot_of_mem_unwoken {x : BeadUnit} {key : Nat} {e : ParkEntry} (h : e ∈ x.unwoken key) : ∃ y ∈ x.park, y.slot = e.slot := by
  obtain ⟨y, hy, rfl⟩ := List.mem_map.1 h
  refine ⟨y, (List.mem_filter.1 hy).1, ?_⟩
  split <;> rfl

end BeadUnit

namespace State

/-! ### One slot (R129) -/

theorem dropRegions_rest (s : State) (b : SlotId) : s.dropRegions b = { s with dies := (s.dropRegions b).dies } := by
  unfold dropRegions
  generalize List.range 4 = ds
  induction ds generalizing s with
  | nil => rfl
  | cons d ds ih =>
    rw [List.foldl_cons, ih]
    rfl

theorem rodAt_dropRegions (s : State) (b : SlotId) (u r : Nat) : (s.dropRegions b).rodAt u r = s.rodAt u r :=
  rodAt_of_units_eq (by rw [dropRegions_rest]) ..

theorem wakeSlot_rest (s : State) (b : SlotId) :
    s.wakeSlot b = { s with units := (s.wakeSlot b).units, dies := (s.wakeSlot b).dies, pend := (s.wakeSlot b).pend } := by
  unfold wakeSlot
  split
  · rfl
  · rw [appendTail_rest, dropRegions_rest]

/-- A woken slot enters its rod's ready order at the tail. -/
theorem rodChanged_wakeSlot {s : State} {b : SlotId} {rod : Rod} {x : BeadSlot} (hrod : s.rodAt b.unit b.rod = some rod)
    (hx : s.slotAt b = some x) :
    s.RodChanged (s.wakeSlot b) b.unit b.rod (rod.withReady b.slot { x with use := .ready }) := by
  have h := rodChanged_appendTail (s := s.dropRegions b) (by rw [rodAt_dropRegions, hrod]) x.record x.uid
  have hwake : s.wakeSlot b = (s.dropRegions b).appendTail b x.record x.uid := by
    unfold wakeSlot
    rw [hx]
  rw [hwake]
  exact ⟨h.same, fun v q hne => by rw [h.other v q hne, rodAt_dropRegions]⟩

theorem unitAt_modRod_of_ne (s : State) {u w : Nat} (r : Nat) (f : Rod → Rod) (h : w ≠ u) : (s.modRod u r f).unitAt w = s.unitAt w := by
  unfold modRod
  split
  · rw [putRod, modUnit_eq, unitAt_putUnit, if_neg h]
  · rfl

theorem park_modRod (s : State) (u r : Nat) (f : Rod → Rod) (w : Nat) : ((s.modRod u r f).unitAt w).park = (s.unitAt w).park := by
  unfold modRod
  split
  · rw [putRod, modUnit_eq, unitAt_putUnit]
    split
    case isTrue hw => rw [hw]
    · rfl
  · rfl

theorem unitAt_dropRegions (s : State) (b : SlotId) (w : Nat) : (s.dropRegions b).unitAt w = s.unitAt w :=
  unitAt_of_units_eq (by rw [dropRegions_rest]) w

theorem unitAt_wakeSlot_of_ne (s : State) {b : SlotId} {w : Nat} (h : w ≠ b.unit) : (s.wakeSlot b).unitAt w = s.unitAt w := by
  unfold wakeSlot
  split
  · rfl
  · exact (unitAt_modRod_of_ne _ b.rod _ h).trans (unitAt_dropRegions ..)

theorem park_wakeSlot (s : State) (b : SlotId) (w : Nat) : ((s.wakeSlot b).unitAt w).park = (s.unitAt w).park := by
  unfold wakeSlot
  split
  · rfl
  · exact (park_modRod _ b.unit b.rod _ w).trans (by rw [unitAt_dropRegions])

/-! ### The slots of a wake, one after another -/

/-- Slots woken in an order. -/
def wakeSlots (s : State) (bs : List SlotId) : State := bs.foldl wakeSlot s

theorem wakeSlots_cons (s : State) (b : SlotId) (bs : List SlotId) : s.wakeSlots (b :: bs) = (s.wakeSlot b).wakeSlots bs := rfl

theorem wakeSlots_rest (s : State) (bs : List SlotId) :
    s.wakeSlots bs = { s with units := (s.wakeSlots bs).units, dies := (s.wakeSlots bs).dies, pend := (s.wakeSlots bs).pend } := by
  induction bs generalizing s with
  | nil => rfl
  | cons b bs ih => rw [wakeSlots_cons, ih, wakeSlot_rest]

theorem unitAt_wakeSlots_of_ne {s : State} {bs : List SlotId} {w : Nat} (h : ∀ b ∈ bs, b.unit ≠ w) :
    (s.wakeSlots bs).unitAt w = s.unitAt w := by
  induction bs generalizing s with
  | nil => rfl
  | cons b bs ih =>
    obtain ⟨hb, hbs⟩ := List.forall_mem_cons.1 h
    rw [wakeSlots_cons, ih hbs, unitAt_wakeSlot_of_ne s (Ne.symm hb)]

theorem park_wakeSlots (s : State) (bs : List SlotId) (w : Nat) : ((s.wakeSlots bs).unitAt w).park = (s.unitAt w).park := by
  induction bs generalizing s with
  | nil => rfl
  | cons b bs ih => rw [wakeSlots_cons, ih, park_wakeSlot]

/-- Parked slots of one unit become ready, each at the tail of its rod when its turn comes. -/
theorem wakeSlots_ready {s : State} {bs : List SlotId} {v : Nat} (hnodup : bs.Nodup)
    (hslots : ∀ b ∈ bs, b.unit = v ∧ (s.slotAt b).isSome = true) :
    (∀ b ∈ bs, ∀ x, s.slotAt b = some x → (s.wakeSlots bs).slotAt b = some { x with use := .ready }) ∧
      (∀ c, c ∉ bs → (s.wakeSlots bs).slotAt c = s.slotAt c) ∧
      ∀ r rod, s.rodAt v r = some rod →
        ((s.wakeSlots bs).rodAt v r).map Rod.ready = some (rod.ready ++ (bs.filter fun b => b.rod == r).map SlotId.slot) := by
  induction bs generalizing s with
  | nil => exact ⟨fun b hb => (nomatch hb), fun c _ => rfl, fun r rod hrod => by simp [wakeSlots, hrod]⟩
  | cons b bs ih =>
    obtain ⟨⟨hunit, hsome⟩, hrest⟩ := List.forall_mem_cons.1 hslots
    obtain ⟨hnot, hnodup'⟩ := List.nodup_cons.1 hnodup
    obtain ⟨x, hx⟩ := Option.isSome_iff_exists.1 hsome
    obtain ⟨rod, hrod, hfind⟩ := slotAt_eq_some hx
    have hchanged := rodChanged_wakeSlot hrod hx
    have hslotAt (c : SlotId) := hchanged.slotAt_put hrod rfl c
    obtain ⟨hready, hkept, htail⟩ := ih (s := s.wakeSlot b) hnodup' fun c hc => by
      have hne : c ≠ b := fun h => hnot (h ▸ hc)
      rw [hslotAt, if_neg hne]
      exact hrest c hc
    refine ⟨fun c hc y hy => ?_, fun c hc => ?_, fun r rod' hrod' => ?_⟩
    · rcases List.mem_cons.1 hc with rfl | hc
      · obtain rfl := Option.some.inj (hx.symm.trans hy)
        rw [wakeSlots_cons, hkept c hnot, hslotAt, if_pos rfl]
      · have hne : c ≠ b := fun h => hnot (h ▸ hc)
        exact hready c hc y (by rw [hslotAt, if_neg hne, hy])
    · obtain ⟨hne, hc⟩ := not_or.1 (List.mem_cons.not.1 hc)
      rw [wakeSlots_cons, hkept c hc, hslotAt, if_neg hne]
    · rw [wakeSlots_cons]
      by_cases hr : b.rod = r
      · rw [← hr, ← hunit] at hrod'
        obtain rfl := Option.some.inj (hrod.symm.trans hrod')
        have hsame := hchanged.same
        rw [hunit, hr] at hsame
        rw [htail r _ hsame]
        simp [Rod.withReady, hr]
      · have hother := hchanged.other v r fun h => hr h.2.symm
        rw [htail r rod' (hother.trans hrod')]
        simp [hr]

/-! ### One table (R189) -/

theorem wakeUnit_eq (s : State) (u key : Nat) : ∃ x, x.park = (s.unitAt u).unwoken key ∧ x.rods = (s.unitAt u).rods ∧
    s.wakeUnit u key = (s.putLists u x).wakeSlots (((s.unitAt u).woken key).map ParkEntry.slot) := by
  refine ⟨{ (s.unitAt u).hit ((((s.unitAt u).park.filter fun e => e.granule == key && !e.waiting).filter fun e =>
    e.spill.isSome).map (s.spillPage u)) with park := (s.unitAt u).unwoken key }, rfl, rfl, ?_⟩
  rw [wakeSlots, List.foldl_map]
  rfl

theorem wakeUnit_rest (s : State) (u key : Nat) :
    s.wakeUnit u key = { s with units := (s.wakeUnit u key).units, dies := (s.wakeUnit u key).dies, pend := (s.wakeUnit u key).pend } := by
  obtain ⟨x, -, -, h⟩ := s.wakeUnit_eq u key
  rw [h, wakeSlots_rest, putLists_rest]

theorem park_wakeUnit (s : State) (u key w : Nat) :
    ((s.wakeUnit u key).unitAt w).park = if w = u then (s.unitAt u).unwoken key else (s.unitAt w).park := by
  obtain ⟨x, hpark, -, h⟩ := s.wakeUnit_eq u key
  rw [h, park_wakeSlots, unitAt_putLists_park, hpark]

/-- A wake in another table leaves a unit that none of its entries' beads belongs to. -/
theorem unitAt_wakeUnit_of_ne {s : State} {u v : Nat} (key : Nat) (huv : v ≠ u) (hbeads : ∀ e ∈ (s.unitAt u).park, e.slot.unit ≠ v) :
    (s.wakeUnit u key).unitAt v = s.unitAt v := by
  obtain ⟨x, -, -, h⟩ := s.wakeUnit_eq u key
  rw [h, unitAt_wakeSlots_of_ne fun b hb => ?_, unitAt_putLists_of_ne s x huv]
  obtain ⟨e, he, rfl⟩ := List.mem_map.1 hb
  exact hbeads e (BeadUnit.mem_woken.1 he).1

theorem slotAt_of_unitAt_eq {s t : State} {b : SlotId} (h : t.unitAt b.unit = s.unitAt b.unit) : t.slotAt b = s.slotAt b := by
  unfold slotAt
  rw [rodAt_of_unitAt_eq (congrArg BeadUnit.rods h)]

/-- A wake in the table of the woken beads' own unit. -/
theorem wakeUnit_ready {s : State} {v key : Nat} {es : List ParkEntry} (hes : (s.unitAt v).woken key = es)
    (hnodup : (es.map ParkEntry.slot).Nodup) (hslots : ∀ e ∈ es, e.slot.unit = v ∧ (s.slotAt e.slot).isSome = true) :
    (∀ e ∈ es, ∀ x, s.slotAt e.slot = some x → (s.wakeUnit v key).slotAt e.slot = some { x with use := .ready }) ∧
      ∀ r rod, s.rodAt v r = some rod →
        ((s.wakeUnit v key).rodAt v r).map Rod.ready =
          some (rod.ready ++ (es.filter fun e => e.slot.rod == r).map fun e => e.slot.slot) := by
  obtain ⟨x, -, hrods, h⟩ := s.wakeUnit_eq v key
  have hrodAt (u r : Nat) : (s.putLists v x).rodAt u r = s.rodAt u r := rodAt_of_unitAt_eq (unitAt_putLists_rods s v hrods u) r
  have hslotAt (b : SlotId) : (s.putLists v x).slotAt b = s.slotAt b := by
    unfold slotAt
    rw [hrodAt]
  obtain ⟨hready, -, htail⟩ := wakeSlots_ready (s := s.putLists v x) (v := v) hnodup fun b hb => by
    obtain ⟨e, he, rfl⟩ := List.mem_map.1 hb
    rw [hslotAt]
    exact hslots e he
  rw [h, hes]
  refine ⟨fun e he y hy => hready e.slot (List.mem_map_of_mem he) y (by rw [hslotAt, hy]), fun r rod hrod => ?_⟩
  rw [htail r rod (by rw [hrodAt, hrod]), List.filter_map, List.map_map]
  rfl

/-! ### The tables of a granule -/

/-- The wake of a granule in some tables. -/
def wakeTables (s : State) (us : List Nat) (key : Nat) : State := us.foldl (fun t u => t.wakeUnit u key) s

/-- No other table has an entry of a bead of this unit. -/
def OwnBeads (s : State) (v : Nat) : Prop := ∀ w, w ≠ v → ∀ e ∈ (s.unitAt w).park, e.slot.unit ≠ v

theorem OwnBeads.wakeUnit {s : State} {v : Nat} (h : s.OwnBeads v) (u key : Nat) : (s.wakeUnit u key).OwnBeads v := by
  intro w hw e he
  rw [park_wakeUnit] at he
  split at he
  case isTrue hwu =>
    obtain ⟨y, hy, hslot⟩ := BeadUnit.slot_of_mem_unwoken he
    rw [← hslot]
    exact h u (hwu ▸ hw) y hy
  · exact h w hw e he

theorem wakeTables_cons (s : State) (u : Nat) (us : List Nat) (key : Nat) :
    s.wakeTables (u :: us) key = (s.wakeUnit u key).wakeTables us key := rfl

theorem wakeTables_rest (s : State) (us : List Nat) (key : Nat) :
    s.wakeTables us key = { s with
      units := (s.wakeTables us key).units, dies := (s.wakeTables us key).dies, pend := (s.wakeTables us key).pend } := by
  induction us generalizing s with
  | nil => rfl
  | cons u us ih => rw [wakeTables_cons, ih, wakeUnit_rest]

theorem OwnBeads.wakeTables {s : State} {v : Nat} (h : s.OwnBeads v) (us : List Nat) (key : Nat) : (s.wakeTables us key).OwnBeads v := by
  induction us generalizing s with
  | nil => exact h
  | cons u us ih => exact ih (h.wakeUnit u key)

theorem unitAt_wakeTables_of_not_mem {s : State} {us : List Nat} {v : Nat} (key : Nat) (h : s.OwnBeads v) (hv : v ∉ us) :
    (s.wakeTables us key).unitAt v = s.unitAt v := by
  induction us generalizing s with
  | nil => rfl
  | cons u us ih =>
    obtain ⟨hne, hus⟩ := not_or.1 (List.mem_cons.not.1 hv)
    rw [wakeTables_cons, ih (h.wakeUnit u key) hus, unitAt_wakeUnit_of_ne key hne (h u (Ne.symm hne))]

/-- Of the tables of a wake, that of a unit alone changes the unit. -/
theorem unitAt_wakeTables_of_mem {s : State} {us : List Nat} {v : Nat} (key : Nat) (h : s.OwnBeads v) (hus : us.Nodup) (hv : v ∈ us) :
    ∃ t : State, t.unitAt v = s.unitAt v ∧ (s.wakeTables us key).unitAt v = (t.wakeUnit v key).unitAt v := by
  obtain ⟨before, after, rfl⟩ := List.append_of_mem hv
  have hsplit : s.wakeTables (before ++ v :: after) key = ((s.wakeTables before key).wakeUnit v key).wakeTables after key := by
    simp only [wakeTables, List.foldl_append, List.foldl_cons]
  obtain ⟨-, hafter, hdisjoint⟩ := List.nodup_append.1 hus
  have hbefore : v ∉ before := fun hmem => hdisjoint v hmem v (List.mem_cons_self ..) rfl
  refine ⟨s.wakeTables before key, unitAt_wakeTables_of_not_mem key h hbefore, ?_⟩
  rw [hsplit, unitAt_wakeTables_of_not_mem key ((h.wakeTables before key).wakeUnit v key) (List.nodup_cons.1 hafter).1]

theorem wakeUnits_nodup (g : Nat) : (wakeUnits g).Nodup := by
  unfold wakeUnits
  dsimp only
  split
  · exact List.nodup_singleton _
  · exact List.nodup_range

/-- PARK_TABLE_WAKE tells other devices, and wakes its tables. -/
theorem parkTableWake_eq (s : State) (g : Nat) : ∃ s1 : State, s1 = { s with peerParks := s1.peerParks, outbox := s1.outbox } ∧
    s.parkTableWake g = s1.wakeTables (wakeUnits g) (s.granuleKey g) :=
  ⟨{ s with
    peerParks := s.peerParks.filter fun e => e.1 != g
    outbox := s.outbox ++ (s.peerParks.filter fun e => e.1 == g).map fun (e : Nat × Nat) => .wake e.2 g }, rfl, rfl⟩

theorem parkTableWake_rest (s : State) (g : Nat) : s.parkTableWake g = { s with
    units := (s.parkTableWake g).units, dies := (s.parkTableWake g).dies, pend := (s.parkTableWake g).pend,
    peerParks := (s.parkTableWake g).peerParks, outbox := (s.parkTableWake g).outbox } := by
  obtain ⟨s1, hs1, h⟩ := s.parkTableWake_eq g
  rw [h, wakeTables_rest, hs1]

/-- It appears at a unit, whose beads wait in its own table alone, as the wake of that table. -/
theorem unitAt_parkTableWake {s : State} {g v : Nat} (h : s.OwnBeads v) (hv : v ∈ wakeUnits g) :
    ∃ t : State, t.unitAt v = s.unitAt v ∧ (s.parkTableWake g).unitAt v = (t.wakeUnit v (s.granuleKey g)).unitAt v := by
  obtain ⟨s1, hs1, heq⟩ := s.parkTableWake_eq g
  have hunit (w : Nat) : s1.unitAt w = s.unitAt w := by
    rw [hs1]
    rfl
  have hown : s1.OwnBeads v := fun w hw e he => h w hw e (by rwa [hunit] at he)
  obtain ⟨t, ht, hwake⟩ := unitAt_wakeTables_of_mem (s.granuleKey g) hown (wakeUnits_nodup g) hv
  exact ⟨t, ht.trans (hunit v), by rw [heq, hwake]⟩

/-- A wake makes the beads of a table ready in ascending SEQ (R189). -/
theorem parkTableWake_ready {s : State} {g v : Nat} {es : List ParkEntry} (hv : v ∈ wakeUnits g)
    (hnodup : ((s.unitAt v).park.map ParkEntry.slot).Nodup)
    (hmem : ∀ e, e ∈ es ↔ e ∈ (s.unitAt v).park ∧ e.granule = s.granuleKey g ∧ e.waiting = false)
    (hages : es.Pairwise fun a b => parkAge (s.unitAt v).parkSeq b.seq < parkAge (s.unitAt v).parkSeq a.seq)
    (hslots : ∀ e ∈ es, e.slot.unit = v ∧ (s.slotAt e.slot).isSome = true) (hown : s.OwnBeads v) :
    let t := s.parkTableWake g
    SameMemory s t ∧ t.cores = s.cores ∧ (t.unitAt v).park = (s.unitAt v).unwoken (s.granuleKey g) ∧
      (∀ e ∈ es, ∀ x, s.slotAt e.slot = some x → t.slotAt e.slot = some { x with use := .ready }) ∧
      ∀ r rod, s.rodAt v r = some rod →
        (t.rodAt v r).map Rod.ready = some (rod.ready ++ (es.filter fun e => e.slot.rod == r).map fun e => e.slot.slot) := by
  dsimp only
  have hpark : (s.unitAt v).park.Nodup := hnodup.of_map
  have hwoken : (s.unitAt v).woken (s.granuleKey g) = es := by
    refine byAge_eq (hpark.filter _) (fun e => ?_) hages
    rw [hmem, List.mem_filter]
    simp
  have hesnd : es.Nodup := hages.imp fun hlt heq => hlt.ne' (by rw [heq])
  have heslots : (es.map ParkEntry.slot).Nodup := hesnd.map_on fun x hx y hy hxy =>
    List.inj_on_of_nodup_map hnodup ((hmem x).1 hx).1 ((hmem y).1 hy).1 hxy
  obtain ⟨t0, ht0, ht⟩ := unitAt_parkTableWake hown hv
  have hslotAt (b : SlotId) (hb : b.unit = v) : t0.slotAt b = s.slotAt b := slotAt_of_unitAt_eq (by rw [hb, ht0])
  have hslotAt' (b : SlotId) (hb : b.unit = v) : (s.parkTableWake g).slotAt b = (t0.wakeUnit v (s.granuleKey g)).slotAt b :=
    slotAt_of_unitAt_eq (by rw [hb]; exact ht)
  have hrodAt (r : Nat) : t0.rodAt v r = s.rodAt v r := rodAt_of_unitAt_eq (congrArg BeadUnit.rods ht0) r
  have hrodAt' (r : Nat) : (s.parkTableWake g).rodAt v r =
      (t0.wakeUnit v (s.granuleKey g)).rodAt v r := rodAt_of_unitAt_eq (congrArg BeadUnit.rods ht) r
  obtain ⟨hready, htail⟩ := wakeUnit_ready (s := t0) (v := v) (key := s.granuleKey g) (es := es) (by rw [ht0, hwoken]) heslots
    fun e he => ⟨(hslots e he).1, by rw [hslotAt _ (hslots e he).1]; exact (hslots e he).2⟩
  refine ⟨sameMemory_of_eq ?_ ?_, ?_, ?_, fun e he x hx => ?_, fun r rod hrod => ?_⟩
  · rw [parkTableWake_rest]
  · rw [parkTableWake_rest]
  · rw [parkTableWake_rest]
  · rw [ht, park_wakeUnit, if_pos rfl, ht0]
  · obtain ⟨hunit, -⟩ := hslots e he
    rw [hslotAt' _ hunit]
    exact hready e he x (by rw [hslotAt _ hunit, hx])
  · rw [hrodAt']
    exact htail r rod (by rw [hrodAt, hrod])

end State
end Sys2Proof.Machine
end

