-- ==== Sys2Proof/Proofs/Parking.lean ====
section
/-! A test that does not hold (R185, R136): the bead parks, its core goes idle, and the wake of the granule makes it ready again. -/

namespace Sys2Proof.Machine

open Sys2Proof

namespace State

/-! ### What leaves the park tables -/

theorem park_wroteSlot (s : State) (b : SlotId) (w : Nat) : ((s.wroteSlot b).unitAt w).park = (s.unitAt w).park := by
  rw [wroteSlot, modUnit_eq, unitAt_putUnit]
  split
  case isTrue hw => rw [hw, BeadUnit.wroteAt_park]
  · rfl

theorem park_modRecord (s : State) (b : SlotId) (f : BeadRec → BeadRec) (w : Nat) :
    ((s.modRecord b f).unitAt w).park = (s.unitAt w).park := by
  unfold modRecord
  split
  · rw [park_wroteSlot, putSlot, park_modRod]
  · rfl

theorem RodChanged.trans {s t u : State} {v r : Nat} {rod rod' : Rod} (h : s.RodChanged t v r rod) (g : t.RodChanged u v r rod') :
    s.RodChanged u v r rod' :=
  ⟨g.same, fun w q hne => (g.other w q hne).trans (h.other w q hne)⟩

theorem granuleKey_congr {s t : State} (hs : t.sys = s.sys) (g : Nat) : t.granuleKey g = s.granuleKey g := by
  cases s; cases t
  dsimp only at hs
  subst hs
  rfl

/-! ### Parking (R185) -/

/-- The slot of a parked bead: its record resumes at an instruction. -/
def parkedSlot (x : BeadSlot) (code : Word) (spn : Nat) : BeadSlot :=
  { x with record := { x.record with code := code, w3 := setFld x.record.w3 0 32 spn }, use := .parked }

/-- What parking leaves of a machine whose bead's entry no wake has marked. -/
structure Parked (s t : State) (k : Nat) (b : SlotId) (slot : BeadSlot) (rod : Rod) (e : ParkEntry) : Prop where
  rest : t = { s with cores := t.cores, units := t.units, pend := t.pend }
  core : t.coreAt k = (s.coreAt k).rest
  others : OthersSame s t k
  rods : s.RodChanged t b.unit b.rod { rod with slots := Map.put rod.slots b.slot slot }
  park : ∀ w, (t.unitAt w).park = if w = b.unit then [{ e with waiting := false }] else (s.unitAt w).park

/-- The record of a bead that parks: where it resumes, and how many beads it has spawned. -/
def parkRecord (s : State) (k : Nat) (b : SlotId) (code : Word) : State :=
  s.modRecord b fun r => { r with code := code, w3 := setFld r.w3 0 32 (s.coreAt k).spn.toNat }

/-- The bead's entry waits for no test any more. -/
def endTest (s : State) (b : SlotId) : State :=
  s.modUnit b.unit fun x => { x with park := x.park.map fun e => if e.slot == b then { e with waiting := false } else e }

theorem park_endTest (s : State) (b : SlotId) (w : Nat) : ((s.endTest b).unitAt w).park = if w = b.unit
    then (s.unitAt w).park.map fun e => if e.slot == b then { e with waiting := false } else e else (s.unitAt w).park := by
  rw [endTest, modUnit_eq, unitAt_putUnit]
  split
  case isTrue hw => rw [hw]
  · rfl

theorem rodAt_endTest (s : State) (b : SlotId) (u r : Nat) : (s.endTest b).rodAt u r = s.rodAt u r := by
  rw [endTest, modUnit_eq, rodAt_putUnit]
  split
  case isTrue hu =>
    rw [hu]
    rfl
  · rfl

/-- The bead's record written, its slot parked, its test ended: the steps of a park before the core goes idle. -/
def parking (s : State) (k : Nat) (b : SlotId) (code : Word) (y : BeadSlot) : State :=
  ((s.parkRecord k b code).putSlot b { y with use := .parked }).endTest b

theorem parkBead_of_unmarked {s : State} {k : Nat} {b : SlotId} {y : BeadSlot} {e : ParkEntry} {code : Word}
    (hb : (s.coreAt k).bead = some b) (hy : (s.parkRecord k b code).slotAt b = some y)
    (he : (s.parking k b code y).parkEntry b = some e) (hm : e.marked = false) :
    s.parkBead k code = (s.parking k b code y).idleCore k := by
  unfold parking parkRecord endTest at *
  unfold parkBead
  dsimp only
  rw [hb]
  dsimp only
  rw [hy]
  dsimp only
  rw [he]
  exact if_neg (by rw [hm]; exact Bool.false_ne_true)

theorem parking_rest (s : State) (k : Nat) (b : SlotId) (code : Word) (y : BeadSlot) :
    s.parking k b code y = { s with units := (s.parking k b code y).units } := by
  rw [parking, endTest, modUnit_rest, putSlot_rest, parkRecord, modRecord_rest]

theorem park_parking (s : State) (k : Nat) (b : SlotId) (code : Word) (y : BeadSlot) (w : Nat) :
    ((s.parking k b code y).unitAt w).park = if w = b.unit
      then (s.unitAt w).park.map fun e => if e.slot == b then { e with waiting := false } else e else (s.unitAt w).park := by
  rw [parking, park_endTest, putSlot, park_modRod, parkRecord, park_modRecord]

theorem rodChanged_parking {s : State} {k : Nat} {b : SlotId} {x : BeadSlot} {rod : Rod} (code : Word)
    (hrod : s.rodAt b.unit b.rod = some rod) (hx : Map.find? rod.slots b.slot = some x) :
    ∃ y, (s.parkRecord k b code).slotAt b = some y ∧ s.RodChanged (s.parking k b code y) b.unit b.rod
      { rod with slots := Map.put rod.slots b.slot (parkedSlot x code (s.coreAt k).spn.toNat) } := by
  have hrecord : s.RodChanged (s.parkRecord k b code) b.unit b.rod _ :=
    rodChanged_modRecord hrod (fun r => { r with code := code, w3 := setFld r.w3 0 32 (s.coreAt k).spn.toNat }) hx
  have hput := rodChanged_putSlot hrecord.same (parkedSlot x code (s.coreAt k).spn.toNat)
  dsimp only at hput
  rw [Map.put_put] at hput
  obtain ⟨hsame, hother⟩ := hrecord.trans hput
  exact ⟨_, (hrecord.slotAt_put hrod rfl b).trans (if_pos rfl), (rodAt_endTest ..).trans hsame,
    fun v q hne => (rodAt_endTest ..).trans (hother v q hne)⟩

theorem parkBead_parked {s : State} {k : Nat} {b : SlotId} {x : BeadSlot} {rod : Rod} {e : ParkEntry} (hk : isSteward k = false)
    (code : Word) (hb : (s.coreAt k).bead = some b) (hrod : s.rodAt b.unit b.rod = some rod)
    (hx : Map.find? rod.slots b.slot = some x) (hpark : (s.unitAt b.unit).park = [e]) (hslot : e.slot = b)
    (hmarked : e.marked = false) :
    s.Parked (s.parkBead k code) k b (parkedSlot x code (s.coreAt k).spn.toNat) rod e := by
  obtain ⟨y, hy, hch⟩ := rodChanged_parking (k := k) code hrod hx
  have htable (w : Nat) : ((s.parking k b code y).unitAt w).park =
      if w = b.unit then [{ e with waiting := false }] else (s.unitAt w).park := by
    rw [park_parking]
    split
    case isTrue hw =>
      rw [hw, hpark]
      simp [hslot]
    · rfl
  have hentry : (s.parking k b code y).parkEntry b = some { e with waiting := false } := by
    rw [parkEntry, htable, if_pos rfl]
    simp [hslot]
  have hcore (j : Nat) : (s.parking k b code y).coreAt j = s.coreAt j := coreAt_of_cores_eq (by rw [parking_rest]) j
  have hunits : ((s.parking k b code y).idleCore k).units = (s.parking k b code y).units := by rw [idleCore_rest hk]
  rw [parkBead_of_unmarked hb hy hentry hmarked]
  refine ⟨?_, ?_, fun j hj => ?_, hch.of_units_eq hunits, fun w => by rw [unitAt_of_units_eq hunits, htable]⟩
  · rw [idleCore_rest hk, parking_rest]
  · rw [coreAt_idleCore, if_pos rfl, hcore]
  · rw [coreAt_idleCore, if_neg hj, hcore]

/-! ### A test that does not hold (R185, R187) -/

theorem parkOrForce_free {s : State} {k : Nat} {b : SlotId} (hb : (s.coreAt k).bead = some b) (hinh : (s.coreAt k).inh = false)
    (ha : (s.coreAt k).a = []) (horder : (s.tileAt k).order = []) : s.parkOrForce k = s.parkBead k (s.coreAt k).pc := by
  have hbanks : (s.coreAt k).holdsBanks = false := by simp [Core.holdsBanks, ha]
  unfold parkOrForce
  dsimp only
  rw [hb]
  dsimp only
  rw [hinh, hbanks, horder]
  simp

/-- The cell read, its granule marked as waited for. -/
def waiting (s : State) (q : TestReq) : State :=
  (s.spanCount q.loc 8).putMeta (q.loc / 32) (mkMeta (metaD (s.metaAt (q.loc / 32))) true (metaF (s.metaAt (q.loc / 32)))
    (metaTag (s.metaAt (q.loc / 32))))

theorem waiting_rest (s : State) (q : TestReq) :
    s.waiting q = { s with acnt := (s.waiting q).acnt, gmeta := (s.waiting q).gmeta } := by
  rw [waiting, spanCount, countPieces_rest]
  rfl

theorem metaW_waiting (s : State) (q : TestReq) : metaW ((s.waiting q).metaAt (q.loc / 32)) = true := by
  rw [waiting, metaAt_putMeta, if_pos rfl, metaW_mkMeta]

theorem testAndRegisterReply_of_fails {s : State} {q : TestReq} (hk : isSteward q.core = false)
    (hc : s.spanCheck (s.issuer q.core .c) q.va q.loc 8 true = .ok ())
    (hfails : testHolds q.test (metaF (s.metaAt (q.loc / 32))) (leNat (s.spanLook q.loc 8)) = false) :
    s.testAndRegisterReply q = (s.waiting q).parkOrForce q.core := by
  simp [testAndRegisterReply, hc, hfails, hk, waiting]

theorem exec_testAndRegisterReply {s : State} {q : TestReq} (h : s.msg = some (.testAndRegisterReply q)) :
    exec .testAndRegisterReply s = .next (s.testAndRegisterReply q) := by
  change execTestAndRegisterReply s = _
  rw [execTestAndRegisterReply, h]

theorem exec_parkTableWake {s : State} {g : Nat} (h : s.msg = some (.parkTableWake g)) :
    exec .parkTableWake s = .next (s.parkTableWake g) := by
  change execParkTableWake s = _
  rw [execParkTableWake, h]

/-- A reply whose test fails parks a bead that holds no bank and has no pending node. -/
theorem testAndRegisterReply_parked {s : State} {q : TestReq} {b : SlotId} {x : BeadSlot} {rod : Rod} {e : ParkEntry}
    (hk : isSteward q.core = false) (hb : (s.coreAt q.core).bead = some b) (hrod : s.rodAt b.unit b.rod = some rod)
    (hx : Map.find? rod.slots b.slot = some x) (hc : s.spanCheck (s.issuer q.core .c) q.va q.loc 8 true = .ok ())
    (hfails : testHolds q.test (metaF (s.metaAt (q.loc / 32))) (leNat (s.spanLook q.loc 8)) = false)
    (hinh : (s.coreAt q.core).inh = false) (ha : (s.coreAt q.core).a = []) (horder : (s.tileAt q.core).order = [])
    (hpark : (s.unitAt b.unit).park = [e]) (hslot : e.slot = b) (hmarked : e.marked = false) :
    (s.waiting q).Parked (s.testAndRegisterReply q) q.core b
      (parkedSlot x (s.coreAt q.core).pc (s.coreAt q.core).spn.toNat) rod e := by
  have hrest := s.waiting_rest q
  have hcore : (s.waiting q).coreAt q.core = s.coreAt q.core := coreAt_of_cores_eq (by rw [hrest]) _
  have htile : (s.waiting q).tileAt q.core = s.tileAt q.core := by
    rw [hrest]
    rfl
  have hunits : (s.waiting q).units = s.units := by rw [hrest]
  have hparked := parkBead_parked hk (s.coreAt q.core).pc (by rw [hcore, hb]) ((rodAt_of_units_eq hunits ..).trans hrod) hx
    (by rw [unitAt_of_units_eq hunits, hpark]) hslot hmarked
  rw [hcore] at hparked
  rw [testAndRegisterReply_of_fails hk hc hfails, parkOrForce_free (b := b) (by rw [hcore, hb]) (by rw [hcore, hinh])
    (by rw [hcore, ha]) (by rw [htile, horder]), hcore]
  exact hparked

/-- The wake of a lone parked bead. -/
theorem Parked.wake {s t w : State} {k g : Nat} {b : SlotId} {y : BeadSlot} {rod : Rod} {e : ParkEntry}
    (h : s.Parked t k b y rod e) (hrod : s.rodAt b.unit b.rod = some rod) (hw : w = { t with msg := w.msg })
    (hv : b.unit ∈ wakeUnits g) (hslot : e.slot = b) (hgranule : e.granule = s.granuleKey g)
    (hempty : ∀ v, v ≠ b.unit → (s.unitAt v).park = []) :
    let u := w.parkTableWake g
    u.slotAt b = some { y with use := .ready } ∧ (u.unitAt b.unit).park = [] ∧
      (u.rodAt b.unit b.rod).map Rod.ready = some (rod.ready ++ [b.slot]) := by
  have hunits : w.units = t.units := by rw [hw]
  have htable (v : Nat) : (w.unitAt v).park = if v = b.unit then [{ e with waiting := false }] else (s.unitAt v).park := by
    rw [unitAt_of_units_eq hunits, h.park]
  have hown : (w.unitAt b.unit).park = [{ e with waiting := false }] := by rw [htable, if_pos rfl]
  have hkey : w.granuleKey g = s.granuleKey g := granuleKey_congr (by rw [hw, h.rest]) g
  have hstands : w.slotAt b = some y := by
    rw [slotAt_of_units_eq hunits, h.rods.slotAt_put hrod rfl, if_pos rfl]
  have hrods : w.rodAt b.unit b.rod = some { rod with slots := Map.put rod.slots b.slot y } := by
    rw [rodAt_of_units_eq hunits, h.rods.same]
  obtain ⟨-, -, hpark, hready, htail⟩ := parkTableWake_ready (s := w) (g := g) (v := b.unit)
    (es := [{ e with waiting := false }]) hv (by rw [hown]; exact List.nodup_singleton _)
    (fun f => by
      rw [hown, hkey, List.mem_singleton]
      exact ⟨fun hf => ⟨hf, by rw [hf]; exact hgranule, by rw [hf]⟩, And.left⟩)
    (List.pairwise_singleton ..)
    (fun f hf => by
      rw [List.mem_singleton.1 hf, hslot, hstands]
      exact ⟨rfl, rfl⟩)
    (fun v hne f hf => by
      rw [htable, if_neg hne, hempty v hne] at hf
      exact nomatch hf)
  refine ⟨?_, ?_, ?_⟩
  · have := hready _ (List.mem_singleton_self _) y
    rw [hslot] at this
    exact this hstands
  · rw [hpark, BeadUnit.unwoken, hown, hkey]
    simp [hgranule]
  · rw [htail _ _ hrods]
    simp [hslot]

end State

open State

/-- Settles O21: a wake empties its table oldest first, and a test that does not hold parks its bead until then. -/
theorem parkingAndWaking : Obligations.ParkingAndWaking := by
  unfold Obligations.ParkingAndWaking
  refine ⟨fun s g v es => ?wakes, fun s q b x e r hk hb hrod hx hc hfails hinh ha horder hpark
    hslot hgranule hmarked hv hempty _ => ?parks⟩
  case wakes =>
    intro u key hv hnodup hmem hages hslots hown
    exact performs_of_exec exec_parkTableWake (parkTableWake_ready hv hnodup hmem hages hslots hown)
  case parks =>
    have hparked := testAndRegisterReply_parked (not_steward_of_lt hk) hb hrod hx hc hfails hinh ha horder hpark hslot hmarked
    have hrest := s.waiting_rest q
    have hunits : (s.waiting q).units = s.units := by rw [hrest]
    have hrod' := (rodAt_of_units_eq hunits ..).trans hrod
    obtain ⟨hbyte, hmeta⟩ : SameMemory (s.waiting q) (s.testAndRegisterReply q) :=
      sameMemory_of_eq (by rw [hparked.rest]) (by rw [hparked.rest])
    refine performs_of_exec exec_testAndRegisterReply ⟨?_, fun y => ?_, ?_, ?_, fun j hj => ?_, ?_, ?wake⟩
    · rw [hmeta, metaW_waiting]
    · exact (hbyte y).trans (byte_of_mem_eq (by rw [hrest]) y)
    · rw [hparked.core]
      rfl
    · rw [hparked.core]
      rfl
    · rw [hparked.others j hj]
      exact coreAt_of_cores_eq (by rw [hrest]) j
    · rw [hparked.rods.slotAt_put hrod' rfl, if_pos rfl]
      rfl
    case wake =>
      have hwake (w : State) (hw : w = { s.testAndRegisterReply q with msg := w.msg }) :=
        hparked.wake (g := q.loc / 32) hrod' hw hv hslot
          (hgranule.trans (granuleKey_congr (by rw [hrest]) _).symm) fun v hne => by rw [unitAt_of_units_eq hunits, hempty v hne]
      obtain ⟨hready, htable, htail⟩ := hwake { s.testAndRegisterReply q with msg := some (.parkTableWake (q.loc / 32)) } rfl
      refine ⟨_, exec_parkTableWake rfl, ?_, ?_, htable, htail⟩
      · rw [hready]
        rfl
      · rw [hready]
        rfl

end Sys2Proof.Machine
end
